-- ==== Sys2Proof/Word.lean ====
section
/-! DEFINITION. The word types of the machine and nothing else: bytes, 32-bit instruction words, 64-bit registers. -/

namespace Sys2Proof

/-- One byte of memory (R3). -/
abbrev Byte := BitVec 8

/-- One instruction word (R54). -/
abbrev W32 := BitVec 32

/-- The width of a scalar register, a system register and an address (R24). -/
abbrev W64 := BitVec 64

/-- The number of a scalar register x0 to x31 (R58). -/
abbrev Reg := BitVec 5

/-- A 7-bit operand specifier (R60). -/
abbrev Spec := BitVec 7

end Sys2Proof
end

