-- ==== Sys2Proof/Syntax.lean ====
section
/-! DEFINITION. The syntax of the machine's steps: one constructor of `Instr` per row of spec/opcode_table.json. Rows with an
encoding are instructions a stream fetches; the others are the part's events (95_what_each_step_holds.md), which no word encodes. -/

namespace Sys2Proof

/-- The two streams of a strand (R269). -/
inductive StreamId where
  | A
  | E
  deriving DecidableEq, Repr

/-- The precision field of SFP (R62, R285): 0 `.s`, 1 `.d`, 2 `.h`, 3 `.bf`. -/
inductive Prec where
  | s
  | d
  | h
  | bf
  deriving DecidableEq, Repr

/-- The integer code of FCVTI and ICVTF (R285): 0 S64, 1 U64, 2 S32, 3 U32. -/
inductive IntCode where
  | i64
  | u64
  | i32
  | u32
  deriving DecidableEq, Repr

/-- The size of a scalar load (R286), F3 0 to 6. -/
inductive LdSize where
  | b
  | h
  | w
  | d
  | bu
  | hu
  | wu
  deriving DecidableEq, Repr

/-- The size of a scalar store (R286), F3 0 to 3. -/
inductive StSize where
  | b
  | h
  | w
  | d
  deriving DecidableEq, Repr

/-- A scope (R294), field codes 0 to 3. -/
inductive Scope where
  | cor
  | die
  | dev
  | sys
  deriving DecidableEq, Repr

/-- The ordering field of an atomic (R62): 0 `.rx`, 1 `.aq`, 2 `.rl`, 3 `.ar`. -/
inductive Order where
  | rx
  | aq
  | rl
  | ar
  deriving DecidableEq, Repr

/-- A branch condition (R287), field codes 0 to 5. -/
inductive Cond where
  | eq
  | ne
  | lt
  | ge
  | ltu
  | geu
  deriving DecidableEq, Repr

/-- The combine of `PLATS` (R141), field codes 0 to 4. -/
inductive ScatOp where
  | last
  | add
  | max
  | min
  | swap
  deriving DecidableEq, Repr

/-- The element type of `PLATS` (R141), field codes 0 to 7. -/
inductive ScatType where
  | i32
  | u32
  | i64
  | u64
  | f32
  | f16
  | bf16
  | f64
  deriving DecidableEq, Repr

/-- The function extension of `VSTP` (R145): op in FX[2:0], class in FX[5:4]; `.last` has class 0 alone. -/
inductive PlatStOp where
  | last
  | arith (op : BitVec 3) (cls : BitVec 2)
  deriving DecidableEq, Repr

/-- The three operand specifiers of a V-format word 0 (R58). -/
structure VOp where
  vd  : Spec
  vs1 : Spec
  vs2 : Spec
  deriving DecidableEq, Repr

/-- A replicate modifier (R63, R66). -/
structure Rep where
  en   : Bool
  size : BitVec 2
  idx  : BitVec 6
  deriving DecidableEq, Repr

/-- The fields of extended words 1 and 2 of a vector major (R63, R64). -/
structure Ext where
  rep2 : Rep
  rep1 : Rep
  zero : Bool
  inv  : Bool
  p    : BitVec 4
  vs3  : Spec
  xs2  : Reg
  xs   : Reg
  sat  : Bool
  ad   : Bool
  na   : Bool
  rnd  : BitVec 3
  tix  : BitVec 4
  fx   : BitVec 8
  deriving DecidableEq, Repr

/-- The fields a vector memory instruction uses (R188, R145): `.z`, the governing predicate, the address and second scalar
registers and the displacement its literal carries. -/
structure MemOp where
  zero : Bool
  inv  : Bool
  p    : BitVec 4
  xs   : Reg
  xs2  : Reg
  disp : Option W64
  deriving DecidableEq, Repr

/-- The 16-byte header of an RCP frame but for its kind, which the event names (R359), and the session that it travels in. -/
structure Rcp where
  session : Nat
  magic   : BitVec 32
  major   : Byte
  minor   : Byte
  tag     : BitVec 32
  len     : BitVec 32
  deriving DecidableEq, Repr

/-- The body of WINDOW_REG (R363). -/
structure WindowReq where
  window : BitVec 16
  flags  : Byte
  zeros  : BitVec 40
  base   : W64
  len    : W64
  pinVa  : W64
  pinLen : W64
  deriving DecidableEq, Repr

/-- The body of SPACE_SET (R362). -/
structure SpaceReq where
  asid  : BitVec 16
  flags : Byte
  key   : Byte
  dies  : Byte
  zeros : BitVec 24
  root  : W64
  deriving DecidableEq, Repr

/-- What an SPDM message asks for, as far as R111 and R367 give it a meaning: a measurement report of one index, the installation
of an AES-256-XTS key pair in a slot (R110), a change of a measured item (address-map policy, repair tables, key policy), or any other message. -/
inductive SpdmReq where
  | measure (index : Nat)
  | setKey  (slot : BitVec 6) (pair : BitVec 512)
  | change  (index : Nat)
  | other   (body : List Byte)
  deriving DecidableEq, Repr

/-- What a remote party asks of a UET connection (R358): packet delivery modes and semantic operations by number in the order of the
feature table, the congestion control, whether it carries RCP or a window, and the bits of its AES-GCM keys, 0 for none. -/
structure ConnReq where
  modes    : List Nat
  ops      : List Nat
  credits  : Bool
  guarded  : Bool
  keyBits  : Nat
  other    : Bool
  deriving DecidableEq, Repr

/-- The operation of a UET atomic (R101, R358): the operations of the ATOM major. -/
inductive UetOp where
  | add
  | and
  | or
  | xor
  | min
  | max
  | minu
  | maxu
  | swap
  | fadd32
  | cas
  deriving DecidableEq, Repr

/-- An instruction of majors 0x11 to 0x1C as the vector instruction queue holds it: a function of a V-format major with its operands,
extended fields (those of R195 when it has no extended words) and displacement, or a function of the row engine (R248). -/
inductive VForm where
  | vec (maj f3 : Nat) (o : VOp) (x : Ext) (disp : Option W64)
  | row (func : Nat) (var : Bool) (rd rs1 : Reg) (row0 : BitVec 3) (aJ aT : BitVec 4) (vX : Spec) (m : BitVec 4)
  deriving DecidableEq, Repr

/-- One step of the machine, one constructor per row of spec/opcode_table.json. -/
inductive Instr where
  /-- ADD (R281): Adds two scalar registers modulo 2^64, or at 32 bits in the W32 form. -/
  | add (w : Bool) (rd rs1 rs2 : Reg)
  /-- SUB (R281): Subtracts one scalar register from another modulo 2^64. -/
  | sub (w : Bool) (rd rs1 rs2 : Reg)
  /-- AND (R281): Bitwise AND of two scalar registers. -/
  | and (w : Bool) (rd rs1 rs2 : Reg)
  /-- OR (R281): Bitwise OR of two scalar registers. -/
  | or (w : Bool) (rd rs1 rs2 : Reg)
  /-- XOR (R281): Bitwise XOR of two scalar registers. -/
  | xor (w : Bool) (rd rs1 rs2 : Reg)
  /-- SLL (R281): Shifts left by the second operand modulo 64. -/
  | sll (w : Bool) (rd rs1 rs2 : Reg)
  /-- SRL (R281): Shifts right with zeros by the second operand modulo 64. -/
  | srl (w : Bool) (rd rs1 rs2 : Reg)
  /-- SRA (R281): Shifts right with copies of the sign bit. -/
  | sra (w : Bool) (rd rs1 rs2 : Reg)
  /-- MUL (R281): Writes the low 64 bits of the product. -/
  | mul (w : Bool) (rd rs1 rs2 : Reg)
  /-- MULH (R281): Writes the high 64 bits of the signed product. -/
  | mulh (rd rs1 rs2 : Reg)
  /-- MULHU (R281): Writes the high 64 bits of the unsigned product. -/
  | mulhu (rd rs1 rs2 : Reg)
  /-- DIV (R281): Signed division truncating toward zero, with fixed results for zero and overflow. -/
  | div (w : Bool) (rd rs1 rs2 : Reg)
  /-- DIVU (R281): Unsigned division; division by zero gives all ones. -/
  | divu (w : Bool) (rd rs1 rs2 : Reg)
  /-- REM (R281): Signed remainder with the sign of the dividend. -/
  | rem (w : Bool) (rd rs1 rs2 : Reg)
  /-- REMU (R281): Unsigned remainder; remainder by zero gives the dividend. -/
  | remu (w : Bool) (rd rs1 rs2 : Reg)
  /-- MIN (R281): Signed minimum of two scalar registers. -/
  | min (rd rs1 rs2 : Reg)
  /-- MAX (R281): Signed maximum of two scalar registers. -/
  | max (rd rs1 rs2 : Reg)
  /-- MINU (R281): Unsigned minimum of two scalar registers. -/
  | minu (rd rs1 rs2 : Reg)
  /-- MAXU (R281): Unsigned maximum of two scalar registers. -/
  | maxu (rd rs1 rs2 : Reg)
  /-- SLT (R281): Writes 1 if the first operand is less than the second, signed. -/
  | slt (rd rs1 rs2 : Reg)
  /-- SLTU (R281): Writes 1 if the first operand is less than the second, unsigned. -/
  | sltu (rd rs1 rs2 : Reg)
  /-- CLZ (R281): Counts leading zeros of one scalar register. -/
  | clz (rd rs1 : Reg)
  /-- CTZ (R281): Counts trailing zeros of one scalar register. -/
  | ctz (rd rs1 : Reg)
  /-- POPC (R281): Counts the set bits of one scalar register. -/
  | popc (rd rs1 : Reg)
  /-- ROL (R281): Rotates left by the second operand modulo 64. -/
  | rol (rd rs1 rs2 : Reg)
  /-- ROR (R281): Rotates right by the second operand modulo 64. -/
  | ror (rd rs1 rs2 : Reg)
  /-- ADDI (R283): Adds a sign-extended immediate to a scalar register. -/
  | addi (rd rs1 : Reg) (imm : BitVec 11)
  /-- ADDI_LIT (R283): ADDI with a 64-bit literal immediate. -/
  | addiLit (rd rs1 : Reg) (lit : W64)
  /-- ANDI (R283): Bitwise AND with an immediate. -/
  | andi (rd rs1 : Reg) (imm : BitVec 11)
  /-- ANDI_LIT (R283): ANDI with a 64-bit literal immediate. -/
  | andiLit (rd rs1 : Reg) (lit : W64)
  /-- ORI (R283): Bitwise OR with an immediate. -/
  | ori (rd rs1 : Reg) (imm : BitVec 11)
  /-- ORI_LIT (R283): ORI with a 64-bit literal immediate. -/
  | oriLit (rd rs1 : Reg) (lit : W64)
  /-- XORI (R283): Bitwise XOR with an immediate. -/
  | xori (rd rs1 : Reg) (imm : BitVec 11)
  /-- XORI_LIT (R283): XORI with a 64-bit literal immediate. -/
  | xoriLit (rd rs1 : Reg) (lit : W64)
  /-- SLTI (R283): Writes 1 if the register is less than the immediate, signed. -/
  | slti (rd rs1 : Reg) (imm : BitVec 11)
  /-- SLTI_LIT (R283): SLTI with a 64-bit literal immediate. -/
  | sltiLit (rd rs1 : Reg) (lit : W64)
  /-- SLTIU (R283): Writes 1 if the register is less than the immediate, unsigned. -/
  | sltiu (rd rs1 : Reg) (imm : BitVec 11)
  /-- SLTIU_LIT (R283): SLTIU with a 64-bit literal immediate. -/
  | sltiuLit (rd rs1 : Reg) (lit : W64)
  /-- ADDPC (R283): Writes the instruction address plus an immediate byte offset. -/
  | addpc (rd : Reg) (imm : BitVec 11)
  /-- ADDPC_LIT (R283): ADDPC with a 64-bit literal offset. -/
  | addpcLit (rd : Reg) (lit : W64)
  /-- SLLI (R284): Shifts left by an immediate count. -/
  | slli (rd rs1 : Reg) (sh : BitVec 6)
  /-- SRLI (R284): Shifts right with zeros by an immediate count. -/
  | srli (rd rs1 : Reg) (sh : BitVec 6)
  /-- SRAI (R284): Shifts right arithmetically by an immediate count. -/
  | srai (rd rs1 : Reg) (sh : BitVec 6)
  /-- LDI (R284): Loads a sign-extended immediate into a scalar register. -/
  | ldi (rd : Reg) (imm : BitVec 11)
  /-- LDI_LIT (R284): Loads a 64-bit literal into a scalar register. -/
  | ldiLit (rd : Reg) (lit : W64)
  /-- ROLI (R284): Rotates left by an immediate count. -/
  | roli (rd rs1 : Reg) (sh : BitVec 6)
  /-- FADD (R285): Scalar floating-point addition at the chosen precision. -/
  | fadd (p : Prec) (rd rs1 rs2 : Reg)
  /-- FSUB (R285): Scalar floating-point subtraction. -/
  | fsub (p : Prec) (rd rs1 rs2 : Reg)
  /-- FMUL (R285): Scalar floating-point multiplication. -/
  | fmul (p : Prec) (rd rs1 rs2 : Reg)
  /-- FDIV (R285): Scalar floating-point division. -/
  | fdiv (p : Prec) (rd rs1 rs2 : Reg)
  /-- FSQRT (R285): Scalar floating-point square root. -/
  | fsqrt (p : Prec) (rd rs1 : Reg)
  /-- FMIN (R285): Scalar minimumNumber. -/
  | fmin (p : Prec) (rd rs1 rs2 : Reg)
  /-- FMAX (R285): Scalar maximumNumber. -/
  | fmax (p : Prec) (rd rs1 rs2 : Reg)
  /-- FMA (R285): Fused a times b plus the destination, rounded once. -/
  | fma (p : Prec) (rd rs1 rs2 : Reg)
  /-- FNMA (R285): Fused negated a times b plus the destination, rounded once. -/
  | fnma (p : Prec) (rd rs1 rs2 : Reg)
  /-- FEQ (R285): Writes 1 if the operands are equal. -/
  | feq (p : Prec) (rd rs1 rs2 : Reg)
  /-- FLT (R285): Writes 1 if the first operand is less than the second. -/
  | flt (p : Prec) (rd rs1 rs2 : Reg)
  /-- FLE (R285): Writes 1 if the first operand is at most the second. -/
  | fle (p : Prec) (rd rs1 rs2 : Reg)
  /-- FTOLE (R285): Writes TotalOrderLE of the operands. -/
  | ftole (p : Prec) (rd rs1 rs2 : Reg)
  /-- FCVTI (R285): Converts a scalar FP value to an integer type. -/
  | fcvti (p : Prec) (c : IntCode) (rd rs1 : Reg)
  /-- ICVTF (R285): Converts a scalar integer to the chosen FP precision. -/
  | icvtf (p : Prec) (c : IntCode) (rd rs1 : Reg)
  /-- FCVTF (R285): Converts between scalar FP precisions. -/
  | fcvtf (p src : Prec) (rd rs1 : Reg)
  /-- FCLASS (R285): Writes the one-hot class of a scalar FP value. -/
  | fclass (p : Prec) (rd rs1 : Reg)
  /-- LD (R286): Scalar load of 1, 2, 4 or 8 bytes, sign- or zero-extended. -/
  | ld (sz : LdSize) (rd rs1 : Reg) (imm : BitVec 11)
  /-- LD_LIT (R286): Scalar load with a 64-bit literal displacement. -/
  | ldLit (sz : LdSize) (rd rs1 : Reg) (lit : W64)
  /-- ST (R286): Scalar store of 1, 2, 4 or 8 bytes. -/
  | st (sz : StSize) (rs rs1 : Reg) (imm : BitVec 11)
  /-- ST_LIT (R286): Scalar store with a 64-bit literal displacement. -/
  | stLit (sz : StSize) (rs rs1 : Reg) (lit : W64)
  /-- LDA (R310): Acquiring atomic load at the given scope. -/
  | lda (sc : Scope) (d : Bool) (rd rs1 : Reg)
  /-- STL (R310): Releasing atomic store at the given scope. -/
  | stl (sc : Scope) (d : Bool) (rs1 rs2 : Reg)
  /-- AMO_ADD (R310): Atomic add returning the old value. -/
  | amoAdd (sc : Scope) (o : Order) (d : Bool) (rd rs1 rs2 : Reg)
  /-- AMO_AND (R310): Atomic AND returning the old value. -/
  | amoAnd (sc : Scope) (o : Order) (d : Bool) (rd rs1 rs2 : Reg)
  /-- AMO_OR (R310): Atomic OR returning the old value. -/
  | amoOr (sc : Scope) (o : Order) (d : Bool) (rd rs1 rs2 : Reg)
  /-- AMO_XOR (R310): Atomic XOR returning the old value. -/
  | amoXor (sc : Scope) (o : Order) (d : Bool) (rd rs1 rs2 : Reg)
  /-- AMO_MIN (R310): Atomic signed minimum returning the old value. -/
  | amoMin (sc : Scope) (o : Order) (d : Bool) (rd rs1 rs2 : Reg)
  /-- AMO_MAX (R310): Atomic signed maximum returning the old value. -/
  | amoMax (sc : Scope) (o : Order) (d : Bool) (rd rs1 rs2 : Reg)
  /-- AMO_MINU (R310): Atomic unsigned minimum returning the old value. -/
  | amoMinu (sc : Scope) (o : Order) (d : Bool) (rd rs1 rs2 : Reg)
  /-- AMO_MAXU (R310): Atomic unsigned maximum returning the old value. -/
  | amoMaxu (sc : Scope) (o : Order) (d : Bool) (rd rs1 rs2 : Reg)
  /-- AMO_SWAP (R310): Atomic swap returning the old value. -/
  | amoSwap (sc : Scope) (o : Order) (d : Bool) (rd rs1 rs2 : Reg)
  /-- AMO_FADD32 (R310): Atomic FP32 add rounded to nearest even, returning the old value. -/
  | amoFadd32 (sc : Scope) (o : Order) (rd rs1 rs2 : Reg)
  /-- CAS (R310): Atomic compare-and-swap returning the old value. -/
  | cas (sc : Scope) (o : Order) (d : Bool) (rd rs1 rs2 : Reg)
  /-- BR (R287): Conditional PC-relative branch comparing two registers. -/
  | br (c : Cond) (rs1 rs2 : Reg) (off : BitVec 11)
  /-- BR_LIT (R287): Conditional branch with a 64-bit literal word offset. -/
  | brLit (c : Cond) (rs1 rs2 : Reg) (lit : W64)
  /-- J (R288): Jumps PC-relative and writes the return address. -/
  | j (rd : Reg) (off : BitVec 19)
  /-- J_LIT (R288): Jump with a 64-bit literal word offset. -/
  | jLit (rd : Reg) (lit : W64)
  /-- JR (R289): Jumps to a register plus immediate and writes the return address. -/
  | jr (rd rs1 : Reg) (imm : BitVec 11)
  /-- JR_LIT (R289): Register jump with a 64-bit literal immediate. -/
  | jrLit (rd rs1 : Reg) (lit : W64)
  /-- BRQ (R290): Receives a branch bit from the inbound branch queue and branches on it. -/
  | brq (neg : Bool) (off : BitVec 11)
  /-- BRQ_LIT (R290): Queue branch with a 64-bit literal word offset. -/
  | brqLit (neg : Bool) (lit : W64)
  /-- QSEND (R291): Pushes a 64-bit value to an outbound queue, blocking while full. -/
  | qsend (q : BitVec 3) (rs : Reg)
  /-- QRECV (R291): Pops a 64-bit value from an inbound queue, blocking while empty. -/
  | qrecv (rd : Reg) (q : BitVec 3)
  /-- QSENDB (R291): Pushes a branch bit to q6 or q7, blocking while full. -/
  | qsendb (q : BitVec 3) (rs : Reg)
  /-- QCNT (R291): Reads the number of entries in a queue without blocking. -/
  | qcnt (rd : Reg) (q : BitVec 3)
  /-- SYSR (R352): Reads a system register into a scalar register. -/
  | sysr (rd : Reg) (reg : BitVec 11)
  /-- SYSW (R352): Writes a scalar register to a system register that has no row of its own. -/
  | sysw (reg : BitVec 11) (rs : Reg)
  /-- VTYPE_WRITE (R351): SYSW to VTYPE, checked for reserved values and barred from changing sew or grp. -/
  | vtypeWrite (rs : Reg)
  /-- VSTART_WRITE (R193): Waits for earlier vector instructions, then sets the start element of the next vector memory instruction. -/
  | vstartWrite (rs : Reg)
  /-- VFCNT_WRITE (R193): Waits, then a write of 0 clears the pending fault mask. -/
  | vfcntWrite (rs : Reg)
  /-- VSTATUS_WRITE (R79): Waits for earlier vector and matrix work to commit and complete, then writes VSTATUS. -/
  | vstatusWrite (rs : Reg)
  /-- VSTATUS_READ (R79): Waits for earlier vector and matrix work to commit and complete, then reads VSTATUS. -/
  | vstatusRead (rd : Reg)
  /-- VSTART_READ (R193): Waits for earlier vector instructions, then reads VSTART. -/
  | vstartRead (rd : Reg)
  /-- VFCNT_READ (R193): Waits for earlier vector instructions, then reads VFCNT. -/
  | vfcntRead (rd : Reg)
  /-- FRSET (R83): Writes a format register, refusing invalid narrow formats with FORMAT. -/
  | frset (n : BitVec 3) (rs : Reg)
  /-- TSTATUS_WRITE (R351): Writes TSTATUS while leaving the inh bit unchanged. -/
  | tstatusWrite (rs : Reg)
  /-- TRAP (R353): Raises the USER trap with the register value in TVAL. -/
  | trap (rs1 : Reg)
  /-- WAITA_EQ (R169): Sleeps until a memory word equals a value, then acquires. -/
  | waitaEq (sc : Scope) (tmo : Bool) (rd rs1 rs2 : Reg)
  /-- WAITA_NE (R169): Sleeps until a memory word differs from a value, then acquires. -/
  | waitaNe (sc : Scope) (tmo : Bool) (rd rs1 rs2 : Reg)
  /-- WAITA_GEU (R169): Sleeps until a memory word is unsigned at least a value, then acquires. -/
  | waitaGeu (sc : Scope) (tmo : Bool) (rd rs1 rs2 : Reg)
  /-- FENCE (R308): Waits until the stream's earlier accesses have performed at the scope. -/
  | fence (sc : Scope)
  /-- VMFENCE (R121): Supervisor fence that discards cached translations of an address space and advances its generation. -/
  | vmfence (rs1 : Reg)
  /-- LNCH (R332): Submits a child launch header and returns its id or a refusal status. -/
  | lnch (rd rs1 : Reg)
  /-- ENQ_COPY (R166): Pushes a 64-byte record to the copy engine as CPGO would. -/
  | enqCopy (dev : Bool) (rd rs1 : Reg)
  /-- ENQ_NET (R364): Pushes a 64-byte NET record to the network engine. -/
  | enqNet (dev : Bool) (rd rs1 : Reg)
  /-- DEQ (R167): Pops the oldest record of an engine's output FIFO, acquiring the data it reports. -/
  | deq (try_ : Bool) (rd : Reg) (eng : BitVec 3)
  /-- CPW (R164): Writes one copy shadow register. -/
  | cpw (idx : BitVec 3) (rs : Reg)
  /-- CPGO (R165): Checks the shadow values, waits for a channel and starts a copy transfer. -/
  | cpgo (dev : Bool) (rd : Reg)
  /-- CPCAN (R168): Cancels an uncompleted transfer of the strand and appends its record. -/
  | cpcan (rd rs1 : Reg)
  /-- CPR (R164): Reads one copy shadow register. -/
  | cpr (rd : Reg) (idx : BitVec 3)
  /-- COEFLD (R214): Loads one or both coefficient tables from an image in memory. -/
  | coefld (t : BitVec 5) (rs : Reg)
  /-- PLATMK (R139): Builds and seals a plat from an index array. -/
  | platmk (rd xh xidx xn xbase : Reg) (iw : Bool) (lsz : BitVec 4)
  /-- PLATG (R140): Checks a plat and pushes a gather through it. -/
  | platg (dev : Bool) (rd xh xdst xmark xval : Reg)
  /-- PLATS (R141): Checks a plat and pushes a scatter-combine through it. -/
  | plats (dev : Bool) (op : ScatOp) (ty : ScatType) (pl : Bool) (xpl : Reg) (rd xh xsrc xmark xval : Reg)
  /-- PLATCO (R142): Composes two plats into a new plat. -/
  | platco (rd xc xa xb : Reg)
  /-- PLATCK (R143): Reports whether a plat is usable without trapping. -/
  | platck (rd xh : Reg)
  /-- PLATRL (R144): Waits for the plat's operations, frees its seals and marks it released. -/
  | platrl (xh : Reg)
  /-- SETL (R185): Sets VTYPE, closes the strip and grants rows and columns. -/
  | setl (rd rs1 rs2 : Reg) (vt : W32)
  /-- VPF (R186): Copies whole vector register rows into the operand file. -/
  | vpf (od vs1 : Spec)
  /-- VPF_EXT (R186): VPF in its extended form. -/
  | vpfExt (od vs1 : Spec)
  /-- VLD (R188): Unit-stride vector load. -/
  | vld (vd : Spec) (m : MemOp)
  /-- VLDS (R188): Strided vector load. -/
  | vlds (vd : Spec) (m : MemOp)
  /-- VST (R188): Unit-stride vector store. -/
  | vst (vs1 : Spec) (m : MemOp)
  /-- VSTS (R188): Strided vector store. -/
  | vsts (vs1 : Spec) (m : MemOp)
  /-- VLD2D (R188): Vector load through a 2D shape record. -/
  | vld2d (vd : Spec) (m : MemOp)
  /-- VST2D (R188): Vector store through a 2D shape record. -/
  | vst2d (vs1 : Spec) (m : MemOp)
  /-- VLDP (R145): Loads plat targets into a vector register group. -/
  | vldp (vd : Spec) (m : MemOp)
  /-- VSTP (R145): Combines vector elements into plat targets. -/
  | vstp (vs1 : Spec) (m : MemOp) (rnd : BitVec 3) (op : PlatStOp)
  /-- VADD (R199): Vector integer add, wrapping or saturating. -/
  | vadd (o : VOp)
  /-- VADD_EXT (R199): VADD in its extended form. -/
  | vaddExt (o : VOp) (x : Ext)
  /-- VSUB (R199): Vector integer subtract. -/
  | vsub (o : VOp)
  /-- VSUB_EXT (R199): VSUB in its extended form. -/
  | vsubExt (o : VOp) (x : Ext)
  /-- VMUL (R199): Vector integer multiply, low bits. -/
  | vmul (o : VOp)
  /-- VMUL_EXT (R199): VMUL in its extended form. -/
  | vmulExt (o : VOp) (x : Ext)
  /-- VMULH (R199): Vector integer multiply, high bits. -/
  | vmulh (o : VOp)
  /-- VMULH_EXT (R199): VMULH in its extended form. -/
  | vmulhExt (o : VOp) (x : Ext)
  /-- VAND (R199): Vector bitwise AND. -/
  | vand (o : VOp)
  /-- VAND_EXT (R199): VAND in its extended form. -/
  | vandExt (o : VOp) (x : Ext)
  /-- VOR (R199): Vector bitwise OR. -/
  | vor (o : VOp)
  /-- VOR_EXT (R199): VOR in its extended form. -/
  | vorExt (o : VOp) (x : Ext)
  /-- VXOR (R199): Vector bitwise XOR. -/
  | vxor (o : VOp)
  /-- VXOR_EXT (R199): VXOR in its extended form. -/
  | vxorExt (o : VOp) (x : Ext)
  /-- VMIN (R199): Vector integer minimum. -/
  | vmin (o : VOp)
  /-- VMIN_EXT (R199): VMIN in its extended form. -/
  | vminExt (o : VOp) (x : Ext)
  /-- VMAX (R199): Vector integer maximum. -/
  | vmax (o : VOp)
  /-- VMAX_EXT (R199): VMAX in its extended form. -/
  | vmaxExt (o : VOp) (x : Ext)
  /-- VSLL (R199): Vector shift left. -/
  | vsll (o : VOp)
  /-- VSLL_EXT (R199): VSLL in its extended form. -/
  | vsllExt (o : VOp) (x : Ext)
  /-- VSRL (R199): Vector logical shift right. -/
  | vsrl (o : VOp)
  /-- VSRL_EXT (R199): VSRL in its extended form. -/
  | vsrlExt (o : VOp) (x : Ext)
  /-- VSRA (R199): Vector arithmetic shift right. -/
  | vsra (o : VOp)
  /-- VSRA_EXT (R199): VSRA in its extended form. -/
  | vsraExt (o : VOp) (x : Ext)
  /-- VADDS (R199): Vector saturating add. -/
  | vadds (o : VOp)
  /-- VADDS_EXT (R199): VADDS in its extended form. -/
  | vaddsExt (o : VOp) (x : Ext)
  /-- VSUBS (R199): Vector saturating subtract. -/
  | vsubs (o : VOp)
  /-- VSUBS_EXT (R199): VSUBS in its extended form. -/
  | vsubsExt (o : VOp) (x : Ext)
  /-- VMAC (R199): Vector integer multiply-accumulate into the destination. -/
  | vmac (o : VOp)
  /-- VMAC_EXT (R199): VMAC in its extended form. -/
  | vmacExt (o : VOp) (x : Ext)
  /-- VABSD (R199): Vector absolute difference. -/
  | vabsd (o : VOp)
  /-- VABSD_EXT (R199): VABSD in its extended form. -/
  | vabsdExt (o : VOp) (x : Ext)
  /-- VFADD (R200): Vector FP add. -/
  | vfadd (o : VOp)
  /-- VFADD_EXT (R200): VFADD in its extended form. -/
  | vfaddExt (o : VOp) (x : Ext)
  /-- VFSUB (R200): Vector FP subtract. -/
  | vfsub (o : VOp)
  /-- VFSUB_EXT (R200): VFSUB in its extended form. -/
  | vfsubExt (o : VOp) (x : Ext)
  /-- VFMUL (R200): Vector FP multiply. -/
  | vfmul (o : VOp)
  /-- VFMUL_EXT (R200): VFMUL in its extended form. -/
  | vfmulExt (o : VOp) (x : Ext)
  /-- VFMA (R200): Vector fused multiply-add with a third operand in vs3. -/
  | vfma (o : VOp) (x : Ext)
  /-- VFDIV (R200): Vector FP divide. -/
  | vfdiv (o : VOp)
  /-- VFDIV_EXT (R200): VFDIV in its extended form. -/
  | vfdivExt (o : VOp) (x : Ext)
  /-- VFSQRT (R200): Vector FP square root. -/
  | vfsqrt (o : VOp)
  /-- VFSQRT_EXT (R200): VFSQRT in its extended form. -/
  | vfsqrtExt (o : VOp) (x : Ext)
  /-- VFMIN (R200): Vector FP minimum or minimumNumber. -/
  | vfmin (o : VOp)
  /-- VFMIN_EXT (R200): VFMIN in its extended form. -/
  | vfminExt (o : VOp) (x : Ext)
  /-- VFMAX (R200): Vector FP maximum or maximumNumber. -/
  | vfmax (o : VOp)
  /-- VFMAX_EXT (R200): VFMAX in its extended form. -/
  | vfmaxExt (o : VOp) (x : Ext)
  /-- VFSGN (R201): Replaces the sign bit of each element. -/
  | vfsgn (o : VOp)
  /-- VFSGN_EXT (R201): VFSGN in its extended form. -/
  | vfsgnExt (o : VOp) (x : Ext)
  /-- VFSCL (R200): Scales FP elements by a power of two. -/
  | vfscl (o : VOp)
  /-- VFSCL_EXT (R200): VFSCL in its extended form. -/
  | vfsclExt (o : VOp) (x : Ext)
  /-- VFCLS (R201): Classifies FP elements one-hot. -/
  | vfcls (o : VOp)
  /-- VFCLS_EXT (R201): VFCLS in its extended form. -/
  | vfclsExt (o : VOp) (x : Ext)
  /-- VPOLY (R213): Evaluates FP32 elements by a piecewise polynomial from coefficient memory. -/
  | vpoly (o : VOp)
  /-- VPOLY_EXT (R213): VPOLY in its extended form. -/
  | vpolyExt (o : VOp) (x : Ext)
  /-- VTWOS (R201): Produces the rounded sum or its exact error term. -/
  | vtwos (o : VOp)
  /-- VTWOS_EXT (R201): VTWOS in its extended form. -/
  | vtwosExt (o : VOp) (x : Ext)
  /-- VCMP (R202): Integer compare into a predicate. -/
  | vcmp (o : VOp)
  /-- VCMP_EXT (R202): VCMP in its extended form. -/
  | vcmpExt (o : VOp) (x : Ext)
  /-- VFCMP (R202): FP compare into a predicate. -/
  | vfcmp (o : VOp)
  /-- VFCMP_EXT (R202): VFCMP in its extended form. -/
  | vfcmpExt (o : VOp) (x : Ext)
  /-- PLOG (R202): Logical operation on predicates. -/
  | plog (o : VOp)
  /-- PLOG_EXT (R202): PLOG in its extended form. -/
  | plogExt (o : VOp) (x : Ext)
  /-- PSET (R202): Sets predicate bits below a count or all. -/
  | pset (o : VOp) (x : Ext)
  /-- PCNT (R202): Counts set active predicate bits into a scalar register. -/
  | pcnt (o : VOp) (x : Ext)
  /-- PFIRST (R202): Writes the index of the first set active predicate bit. -/
  | pfirst (o : VOp) (x : Ext)
  /-- VSEL (R202): Selects between two vectors by predicate. -/
  | vsel (o : VOp)
  /-- VSEL_EXT (R202): VSEL in its extended form. -/
  | vselExt (o : VOp) (x : Ext)
  /-- VCVT (R203): Converts elements between the types named in FX. -/
  | vcvt (o : VOp)
  /-- VCVT_EXT (R203): VCVT in its extended form. -/
  | vcvtExt (o : VOp) (x : Ext)
  /-- QNT (R205): Quantises FP32 elements to narrow codes with block scales. -/
  | qnt (o : VOp) (x : Ext)
  /-- QNTE (R206): Quantises with outlier election into an outlier list register. -/
  | qnte (o : VOp) (x : Ext)
  /-- DQNT (R207): Dequantises narrow codes to FP32. -/
  | dqnt (o : VOp) (x : Ext)
  /-- VMV (R208): Moves vector elements. -/
  | vmv (o : VOp)
  /-- VMV_EXT (R208): VMV in its extended form. -/
  | vmvExt (o : VOp) (x : Ext)
  /-- VBCAST (R208): Broadcasts a scalar into vector elements. -/
  | vbcast (o : VOp) (x : Ext)
  /-- VEXT (R208): Extracts one element into a scalar register. -/
  | vext (o : VOp) (x : Ext)
  /-- VINS (R208): Inserts a scalar into one element. -/
  | vins (o : VOp) (x : Ext)
  /-- VSLUP (R208): Slides elements up within each row. -/
  | vslup (o : VOp) (x : Ext)
  /-- VSLDN (R208): Slides elements down within each row. -/
  | vsldn (o : VOp) (x : Ext)
  /-- VPERM (R208): Permutes elements within each row by an index vector. -/
  | vperm (o : VOp)
  /-- VPERM_EXT (R208): VPERM in its extended form. -/
  | vpermExt (o : VOp) (x : Ext)
  /-- VTRN (R208): Transposes a register group. -/
  | vtrn (o : VOp)
  /-- VTRN_EXT (R208): VTRN in its extended form. -/
  | vtrnExt (o : VOp) (x : Ext)
  /-- VREDSUM (R209): Sums active elements by tree or ordered form. -/
  | vredsum (o : VOp)
  /-- VREDSUM_EXT (R209): VREDSUM in its extended form. -/
  | vredsumExt (o : VOp) (x : Ext)
  /-- VREDMAX (R209): Reduces active elements to their maximum. -/
  | vredmax (o : VOp)
  /-- VREDMAX_EXT (R209): VREDMAX in its extended form. -/
  | vredmaxExt (o : VOp) (x : Ext)
  /-- VREDMIN (R209): Reduces active elements to their minimum. -/
  | vredmin (o : VOp)
  /-- VREDMIN_EXT (R209): VREDMIN in its extended form. -/
  | vredminExt (o : VOp) (x : Ext)
  /-- VREDCS (R209): Compensated tree sum writing hi and lo. -/
  | vredcs (o : VOp)
  /-- VREDCS_EXT (R209): VREDCS in its extended form. -/
  | vredcsExt (o : VOp) (x : Ext)
  /-- VSCAN (R210): Running sum over active elements with a scalar carry-in. -/
  | vscan (o : VOp) (x : Ext)
  /-- VCOMP (R211): Compresses active elements to the front of the destination. -/
  | vcomp (o : VOp)
  /-- VCOMP_EXT (R211): VCOMP in its extended form. -/
  | vcompExt (o : VOp) (x : Ext)
  /-- VDIG (R212): CRC-64 digest of active element bytes into a scalar register. -/
  | vdig (o : VOp) (x : Ext)
  /-- MMA (R226): Checks and accepts a matrix product into an accumulator tile. -/
  | mma (o : VOp) (x : Ext)
  /-- BLD (R227): Reads and checks a tile, scales and outlier list for loading into a B slot. -/
  | bld (o : VOp) (x : Ext)
  /-- AZERO (R228): Zeroes a range of accumulator tile rows. -/
  | azero (o : VOp) (x : Ext)
  /-- ARD (R230): Reads tile rows through the epilogue into vector registers. -/
  | ard (o : VOp) (x : Ext)
  /-- AWR (R229): Writes vector rows into accumulator tile rows. -/
  | awr (o : VOp) (x : Ext)
  /-- EPTK (R232): Updates per-row top-k epilogue state and optionally writes the results. -/
  | eptk (o : VOp) (x : Ext)
  /-- BSLOT_PIN (R233): Pins a B slot to the owning launch. -/
  | bslotPin (slot : Spec)
  /-- BSLOT_UNPIN (R233): Clears a B slot's pin. -/
  | bslotUnpin (slot : Spec)
  /-- BSLOT_RELEASE (R233): Clears a B slot's pin and loaded flag. -/
  | bslotRelease (slot : Spec)
  /-- BSLOT_QUERY (R233): Writes a B slot's state to a scalar register. -/
  | bslotQuery (rd : Reg) (slot : Spec)
  /-- RMBIND (R250): Binds a row map from a descriptor, sealing the weight range and loading resident rows. -/
  | rmbind (rd rs1 : Reg) (m : BitVec 4)
  /-- RMBIND_UNBIND (R250): Flushes and unbinds a row map, freeing its seal and slot. -/
  | rmbindUnbind (m : BitVec 4)
  /-- RMFIRE (R251): Adds firing counts of an A operand to a map's pending counts. -/
  | rmfire (vX : Spec) (m : BitVec 4)
  /-- RMMUL (R252): Starts a split product: resident part in the array, deep part on the row units. -/
  | rmmul (ad : Bool) (aT aJ : BitVec 4) (vX : Spec) (m : BitVec 4) (row0 : BitVec 3)
  /-- RMJOIN (R253): Waits for the deep part and adds it into the resident part. -/
  | rmjoin (aT aJ : BitVec 4)
  /-- RMMIG (R243): Flushes counters and migrates rows between resident and deep. -/
  | rmmig (rd : Reg) (m : BitVec 4)
  /-- RMAGE (R254): Flushes and shifts every counter of a map right. -/
  | rmage (m : BitVec 4)
  /-- RMQRY (R254): Flushes and writes the resident list and counts. -/
  | rmqry (rd : Reg) (m : BitVec 4)
  /-- SPHDR (R265): Checks a sparse header, or the whole matrix under .full, and returns nnz. -/
  | sphdr (full : Bool) (rd rs1 : Reg)
  /-- SPCNT (R266): Counts the merged entries of a range of lines of A plus B. -/
  | spcnt (kz : Bool) (rd rs1 rs2 xs xs2 : Reg)
  /-- SPMRG (R267): Writes merged lines of A plus B into C. -/
  | spmrg (kz : Bool) (rd rs1 rs2 xs xs2 : Reg)
  /-- NOP (R355): Does nothing but advance the PC. -/
  | nop
  /-- TRET (R354): Checks and reloads the trap frame, re-enqueues saved VIQ entries and resumes both streams. -/
  | tret
  /-- EXIT (R335): Ends its stream after the VIQ drains; the task ends when both streams have ended. -/
  | exit
  /-- BAR (R334): Waits until every team member reaches its matching barrier or ends, acting as a core fence. -/
  | bar
  /-- VFENCE (R309): Commits earlier vector memory, closes the strip and drains or publishes stores, then fences at core scope. -/
  | vfence
  /-- IFENCE (R356): Fences and discards fetched instruction words so later fetches see stored code. -/
  | ifence
  /-- ASPACE_WRITE (R113): Supervisor write of ASPACE that waits for the strand's accesses and invalidates its scalar TLBs. -/
  | aspaceWrite (st : Fin 4) (v : W64)
  /-- VLCAP_WRITE (R183): Supervisor write of VLCAP, taking effect at the strand's next SETL. -/
  | vlcapWrite (st : Fin 4) (v : W64)
  /-- PWRLIM_WRITE (R180): Supervisor write of the core lane-group limit, taking effect at each strand's next SETL. -/
  | pwrlimWrite (v : W64)
  /-- STKREF_WRITE (R104): MMIO write of a stack's refresh control, restarting the generator from the seed in test mode. -/
  | stkrefWrite (s : Fin 24) (v : W64)
  /-- STKECC_WRITE (R104): MMIO write of a stack's ECC counters; zero clears them. -/
  | stkeccWrite (s : Fin 24) (v : W64)
  /-- WAITA_WAKE (R169): A write to the awaited word performs and the sleeping stream rereads and tests it. -/
  | waitaWake (st : Fin 4) (k : StreamId)
  /-- WAITA_TIMEOUT (R169): The WAITA limit in core cycles expires and the stream returns 0 without acquiring. -/
  | waitaTimeout (st : Fin 4) (k : StreamId)
  /-- COPY_START (R155): A channel is granted to a waiting copy push and the transfer begins. -/
  | copyStart
  /-- COPY_COMPLETE (R158): A transfer finishes its writes, writes its mark word and appends its record. -/
  | copyComplete (ch : Fin 16)
  /-- COPY_FAULT (R160): A transfer stops on an unresolved fault and appends a fault record. -/
  | copyFault (ch : Fin 16)
  /-- ENGINE_FAULT_TRAP (R160): A pending engine fault record is taken as ENGINE_FAULT at the next instruction boundary. -/
  | engineFaultTrap (st : Fin 4)
  /-- PLAT_OP_START (R137): A plat-queue slot frees and a stalled gather or scatter push starts. -/
  | platOpStart
  /-- PLAT_GATHER_COMPLETE (R136): A gather finishes, writes its mark word and appends its record. -/
  | platGatherComplete (slot : Fin 16) (reach : Bool)
  /-- PLAT_SCATTER_COMPLETE (R136): A scatter-combine finishes or is deferred, writes its mark word and appends its record. -/
  | platScatterComplete (slot : Fin 16) (reach : Bool)
  /-- VIQ_COMMIT (R277): An issued VIQ entry commits in VIQ order, writing its results or trapping at the VCP. -/
  | viqCommit (st : Fin 4)
  /-- WCB_DRAIN (R299): A write-combining buffer entry drains to its home on its own. -/
  | wcbDrain
  /-- MATRIX_ENGINE_TURN (R218): A queued matrix or row instruction reaches its turn in the engine and acts on tiles, slots and state. -/
  | matrixEngineTurn
  /-- MMA_ACCUMULATE (R226): An accepted MMA computes its sums at its turn, writes the tile and ORs its flags. -/
  | mmaAccumulate
  /-- DEEP_PART_ARRIVAL (R252): The row units' deep partial result lands in the deep tile. -/
  | deepPartArrival (st : Fin 4) (aJ : BitVec 4)
  /-- PREEMPT_REQUEST (R345): Halts every strand of a core at instruction boundaries and saves its work. -/
  | preemptRequest
  /-- QUANTUM_EXPIRY (R320): A waiting launch's quantum expires and it pre-empts a lower-priority team. -/
  | quantumExpiry (launch : BitVec 32)
  /-- STRAND_RESUME (R348): A parked strand is restored and continues where it halted. -/
  | strandResume (st : Fin 4)
  /-- MATRIX_STATE_SAVE (R221): The core saves a parked launch's matrix state and becomes unowned. -/
  | matrixStateSave
  /-- BUDGET_EXHAUSTED (R324): A task's cycle count exceeds its budget and the policy applies. -/
  | budgetExhausted (st : Fin 4)
  /-- TASK_RERUN (R325): After the task's engine operations complete, its held work is discarded and the task restarts. -/
  | taskRerun (st : Fin 4)
  /-- SUPERVISOR_RETRY (R339): The supervisor resolves a fault and unparks the strand to retry. -/
  | supervisorRetry (st : Fin 4) (entries : List W64)
  /-- SUPERVISOR_FORWARD (R339): The supervisor unparks the strand to take the cause on the handler path. -/
  | supervisorForward (st : Fin 4)
  /-- SUPERVISOR_KILL (R339): The supervisor ends the launch with status TRAPPED. -/
  | supervisorKill (st : Fin 4)
  /-- TEAM_DISPATCH (R317): A die dispatcher places a team on a core and starts its tasks. -/
  | teamDispatch (launch : BitVec 32) (team : W64) (strands : List (Fin 4)) (base : Nat)
  /-- PRELOAD (R326): The scheduler preloads code or reserves banks for a team's next task. -/
  | preload
  /-- TEAM_RETIRE (R162): A team retires once its partition's transfers complete, releasing plats and maps. -/
  | teamRetire (launch : BitVec 32) (team : W64)
  /-- WAVE_FENCE (R306): After a D-mode wave retires, held stores and deferred operations perform in fixed order. -/
  | waveFence (launch : BitVec 32)
  /-- LAUNCH_COMPLETE (R327): Once every effect has performed, the scheduler writes the mark and sends the completion record. -/
  | launchComplete (launch : BitVec 32)
  /-- COALESCE_WINDOW_EXPIRY (R329): A completion class's window ends and gathered records are sent as one message. -/
  | coalesceWindowExpiry (endpoint : BitVec 32) (cls : BitVec 4)
  /-- NET_COMPLETE (R365): A NET command completes or fails, writing its mark and record. -/
  | netComplete (st : Fin 4) (slot : Fin 16) (ok : Bool) (data : List Byte)
  /-- STACK_CRITICAL_TEMP (R107): A stack's critical-temperature signal asserts and it enters self-refresh holding requests. -/
  | stackCriticalTemp (s : Fin 24)
  /-- CRITICAL_TEMP_DEASSERT (R107): A stack's critical-temperature signal deasserts. -/
  | criticalTempDeassert (s : Fin 24)
  /-- SELF_REFRESH_EXIT (R107): After 100 µs deasserted the stack leaves self-refresh and serves held requests in order. -/
  | selfRefreshExit (s : Fin 24)
  /-- STACK_HOLD_EVENT (R109): A hold lasts 4 ms, raising an event and marking the stack held. -/
  | stackHoldEvent (s : Fin 24)
  /-- STACK_RETIRE (R109): The supervisor retires a held stack, completing its held requests as lost. -/
  | stackRetire (s : Fin 24)
  /-- GENERATOR_RESEED (R105): After 2^20 steps the neighbour-refresh generator is reseeded. -/
  | generatorReseed (s : Fin 24)
  /-- DEVICE_RESET (R321): Device reset sets registers to reset values and applies any staged firmware. -/
  | deviceReset
  /-- READINESS_CHANGE (R366): A function leaves initialising or changes its readiness state. -/
  | readinessChange (ix : Fin 48) (code : Byte)
  /-- SESSION_OPEN (R360): Opens an RCP session at the highest shared version. -/
  | sessionOpen (r : Rcp) (versions : List (Byte × Byte)) (asid : BitVec 16)
  /-- LAUNCH_SUBMIT (R312): Reads and checks a launch header and accepts or refuses it; `poison` is the second doubleword of the body. -/
  | launchSubmit (r : Rcp) (hdr : W64) (poison : W64)
  /-- ENDPOINT_REG (R361): Registers a completion endpoint with its coalescing windows. -/
  | endpointReg (r : Rcp) (endpoint : BitVec 32) (windows : List Nat)
  /-- WINDOW_REG (R363): Installs or removes a host or peer window. -/
  | windowReg (r : Rcp) (q : WindowReq)
  /-- READINESS_QUERY (R366): Returns the readiness map. -/
  | readinessQuery (r : Rcp)
  /-- SPDM (R367): Carries one SPDM message for attestation or key installation. -/
  | spdm (r : Rcp) (q : SpdmReq)
  /-- FW_UPDATE (R368): Receives and verifies a signed firmware image for the next reset. -/
  | fwUpdate (r : Rcp) (chunk : List Byte) (last : Bool)
  /-- SPACE_SET (R362): Creates, changes or removes the session's address space. -/
  | spaceSet (r : Rcp) (q : SpaceReq)
  /-- VMAP_SET (R362): Installs vector-map entries and fences the address space. -/
  | vmapSet (r : Rcp) (hdr : W64) (entries : List W64)
  /-- UET_WRITE (R358): A host or peer UET write into device memory through the vector map. -/
  | uetWrite (asid : BitVec 12) (va : W64) (data : List Byte)
  /-- UET_READ (R358): A host or peer UET read of device memory through the vector map. -/
  | uetRead (asid : BitVec 12) (va : W64) (n : Nat)
  /-- UET_ATOMIC (R358): A host or peer UET atomic on device memory. -/
  | uetAtomic (asid : BitVec 12) (op : UetOp) (d : Bool) (va : W64) (v cmp : W64)
  /-- INBOUND_UUD_DROP (R358): An unreliable packet arriving from outside is dropped and counted. -/
  | inboundUudDrop
  /-- RESOLVE_VMAP_ABSENT (R160): The supervisor, asked to resolve a copy transfer's vector-map miss, installs the entry and the transfer retries the access, or declines and the transfer stops with status 5. -/
  | resolveVmapAbsent (ch : Fin 16) (entry : Option W64)
  /-- CONNECTION_SETUP (R358): A remote party sets up a UET connection, and any unsupported feature is refused with the unsupported-feature response. -/
  | connectionSetup (q : ConnReq)
  /-- UNKNOWN_KIND (R359): An RCP frame arrives whose kind is unknown, and is answered with status 0x30; a frame whose major version differs from the session's is dropped and counted. -/
  | unknownKind (r : Rcp) (kind : BitVec 16)
  deriving DecidableEq, Repr

end Sys2Proof
end

