-- ==== Sys2Proof/WellFormed.lean ====
section
/-! DEFINITION. Which terms of the syntax are instructions: the checks of R68 that need neither the executing stream nor `VTYPE`,
stated on the fields. Decode.lean makes the same checks on the words, in the order of R68. -/

namespace Sys2Proof

/-- What an operand field of a V-format instruction names (R60, R61): nothing, a destination group, a source group, a single
source row (R230), a predicate, an operand-file row or a vector register (R186), or a number the entry checks itself. -/
inductive Kind where
  | no
  | dst
  | src
  | row
  | pred
  | opf
  | vreg
  | num
  deriving DecidableEq, Repr

/-- The specifier check of R68 (0x04) on one field. -/
def Kind.ok (k : Kind) (s : Spec) : Bool :=
  match k with
  | .no | .num => true
  | .dst => s.toNat < 0x48
  | .src | .row => s.toNat < 0x48 || s.toNat == 0x60 || s.toNat == 0x61
  | .pred => s.toNat < 16
  | .opf => 0x40 ≤ s.toNat && s.toNat < 0x48
  | .vreg => s.toNat < 0x40

/-- Which fields an instruction of a vector major uses, given its function extension (R195, R188, R224). `fx` says that the
function extension is assigned; `modRes` that an unread modifier is a reserved field and no reserved combination (R186, R224);
`ext` that the entry needs the extended words. -/
structure VShape where
  vd     : Kind := .no
  vs1    : Kind := .no
  vs2    : Kind := .no
  vs3    : Kind := .no
  pred   : Bool := true
  zero   : Bool := true
  rep1   : Bool := false
  rep2   : Bool := false
  xs     : Bool := false
  xs2    : Bool := false
  sat    : Bool := false
  tix    : Bool := false
  na     : Bool := false
  ad     : Bool := false
  rounds : Bool := false
  modRes : Bool := false
  ext    : Bool := false
  fx     : Bool := true
  res    : Bool := true
  deriving DecidableEq, Repr

/-- vd, vs1 and vs2 with their modifiers. -/
def VShape.two : VShape := { vd := .dst, vs1 := .src, vs2 := .src, rep1 := true, rep2 := true }
/-- vd and vs1 with its modifier. -/
def VShape.one : VShape := { vd := .dst, vs1 := .src, rep1 := true }
/-- A load of major 0x12, whose modifier fields are zero (R188, R145). -/
def VShape.load : VShape := { vd := .dst, xs := true, modRes := true, ext := true }
/-- A store of major 0x12, whose modifier fields are zero (R188, R145). -/
def VShape.store : VShape := { vs1 := .src, xs := true, zero := false, modRes := true, ext := true }
/-- An instruction of major 0x1B: no predicate and no zero bit unless it says so. -/
def VShape.mat : VShape := { pred := false, zero := false, modRes := true, ext := true }

/-- The class field of a reduction or scan is assigned (R209, R210). -/
def redClassOk (fx : BitVec 8) : Bool := fx.extractLsb' 1 2 != 3

/-- The functions of majors 0x11 to 0x1B by major and F3 (R67), with the fields each entry uses. The spec leaves two points open here, and
the model chooses (DESIGN CHOICE): a replicate modifier on vs1 of `VEXT` (0x19, F3 2) and on a predicate source of `PLOG`, `PCNT` and
`PFIRST` is a reserved combination, 0x08 (log 91; R63, R208); and `VREDSUM` and `VSCAN` (0x1A, F3 0 and 4) of an integer class, which round
nothing, may hold any rnd that is not reserved, and so may a `VSTP` that rounds nothing (`.last`, `.max`, `.min` or an integer class), for which
R64 fixes rnd of `VLDP` alone (log 92; R64, R195). -/
def vShape (maj f3 : Nat) (fx : BitVec 8) : Option VShape :=
  let n := fx.toNat
  match maj, f3 with
  -- VPF (R186)
  | 0x11, 0 => some { vd := .opf, vs1 := .vreg, pred := false, zero := false, modRes := true, fx := n == 0 }
  -- vector memory (R188, R145)
  | 0x12, 0 => some { VShape.load with fx := n == 0 }
  | 0x12, 1 => some { VShape.load with xs2 := true, fx := n == 0 }
  | 0x12, 2 => some { VShape.store with fx := n == 0 }
  | 0x12, 3 => some { VShape.store with xs2 := true, fx := n == 0 }
  | 0x12, 4 => some { VShape.load with xs2 := true, fx := n == 0 }
  | 0x12, 5 => some { VShape.store with xs2 := true, fx := n == 0 }
  | 0x12, 6 => some { VShape.load with fx := n == 0 }
  | 0x12, 7 => some { VShape.store with
      rounds := true
      fx := n % 16 < 4 && n / 16 < 3 && !(n % 16 == 0 && n / 16 != 0) }
  -- integer (R199)
  | 0x13, 0 => some { VShape.two with sat := true, fx := n < 2 }
  | 0x13, 1 => some { VShape.two with sat := true, fx := n < 2 }
  | 0x13, 2 => some { VShape.two with sat := true, fx := n < 2 }
  | 0x13, 3 => some { VShape.two with fx := n < 3 }
  | 0x13, 4 => some { VShape.two with fx := n == 0 }
  | 0x13, 5 => some { VShape.two with fx := n == 0 }
  | 0x13, 6 => some { VShape.two with fx := n == 0 }
  | 0x13, 7 => some { VShape.two with fx := n < 2 }
  | 0x14, 0 => some { VShape.two with fx := n < 2 }
  | 0x14, 1 => some { VShape.two with fx := n == 0 }
  | 0x14, 2 => some { VShape.two with fx := n == 0 }
  | 0x14, 3 => some { VShape.two with fx := n == 0 }
  | 0x14, 4 => some { VShape.two with fx := n < 2 }
  | 0x14, 5 => some { VShape.two with fx := n < 2 }
  | 0x14, 6 => some { VShape.two with sat := true, fx := n < 2 }
  | 0x14, 7 => some { VShape.two with fx := n < 2 }
  -- floating point (R200, R201, R213)
  | 0x15, 0 => some { VShape.two with rounds := true, fx := n == 0 }
  | 0x15, 1 => some { VShape.two with rounds := true, fx := n == 0 }
  | 0x15, 2 => some { VShape.two with rounds := true, fx := n == 0 }
  | 0x15, 3 => some { VShape.two with vs3 := .src, rounds := true, ext := true, fx := n < 4 }
  | 0x15, 4 => some { VShape.two with rounds := true, fx := n == 0 }
  | 0x15, 5 => some { VShape.one with rounds := true, fx := n == 0 }
  | 0x15, 6 => some { VShape.two with rounds := true, fx := n < 2 }
  | 0x15, 7 => some { VShape.two with rounds := true, fx := n < 2 }
  | 0x16, 0 => some { VShape.two with fx := n < 3 }
  | 0x16, 1 => some { VShape.two with rounds := true, fx := n == 0 }
  | 0x16, 2 => some { VShape.one with fx := n == 0 }
  | 0x16, 3 => some { VShape.one with fx := n < 2 }
  | 0x16, 4 => some { VShape.two with fx := n < 2 }
  -- predicates (R202)
  | 0x17, 0 => some { VShape.two with vd := .pred, fx := n % 8 < 6 && n < 16 }
  | 0x17, 1 => some { VShape.two with vd := .pred, fx := n < 8 }
  | 0x17, 2 => some { vd := .pred, vs1 := .pred, vs2 := if n == 4 then .no else .pred, fx := n < 5 }
  | 0x17, 3 => some { vd := .pred, xs := n == 0, ext := true, fx := n < 2 }
  | 0x17, 4 => some { vs1 := .pred, zero := false, xs2 := true, ext := true, fx := n == 0 }
  | 0x17, 5 => some { vs1 := .pred, zero := false, xs2 := true, ext := true, fx := n == 0 }
  | 0x17, 6 => some { VShape.two with zero := false, fx := n == 0 }
  -- conversions (R203, R204)
  | 0x18, 0 => some { VShape.one with
      sat := 4 ≤ n % 16 && 4 ≤ n / 16
      rounds := true
      fx := n % 16 < 14 && n / 16 < 14 }
  | 0x18, 1 => some { VShape.one with xs := true, rounds := true, ext := true, fx := n < 2 }
  | 0x18, 2 => some { VShape.one with xs := true, xs2 := true, tix := true, rounds := true, ext := true, fx := n == 0 }
  | 0x18, 3 => some { VShape.one with xs := true, tix := n == 1, rounds := true, ext := true, fx := n < 2 }
  -- moves (R208)
  | 0x19, 0 => some { VShape.one with fx := n == 0 }
  | 0x19, 1 => some { vd := .dst, xs := true, ext := true, fx := n == 0 }
  | 0x19, 2 => some { vs1 := .src, zero := false, xs := true, xs2 := true, ext := true, fx := n < 2 }
  | 0x19, 3 => some { vd := .dst, xs := true, xs2 := true, ext := true, fx := n == 0 }
  | 0x19, 4 => some { VShape.one with xs := true, ext := true, fx := n == 0 }
  | 0x19, 5 => some { VShape.one with xs := true, ext := true, fx := n == 0 }
  | 0x19, 6 => some { VShape.two with fx := n == 0 }
  | 0x19, 7 => some { VShape.one with fx := n == 0 }
  -- reductions (R209 to R212)
  | 0x1A, 0 => some { VShape.one with
      zero := false
      rounds := true
      fx := n < 32 && n / 8 % 2 == 0 && redClassOk fx }
  | 0x1A, 1 => some { VShape.one with
      zero := false
      fx := n < 32 && n % 2 == 0 && redClassOk fx && (n / 8 % 2 == 0 || n / 2 % 4 == 0) }
  | 0x1A, 2 => some { VShape.one with
      zero := false
      fx := n < 32 && n % 2 == 0 && redClassOk fx && (n / 8 % 2 == 0 || n / 2 % 4 == 0) }
  | 0x1A, 3 => some { VShape.one with zero := false, fx := n == 0 || n == 16 }
  | 0x1A, 4 => some { VShape.one with
      xs := true
      rounds := true
      ext := true
      fx := n < 32 && n / 8 % 2 == 0 && redClassOk fx }
  | 0x1A, 5 => some { VShape.one with fx := n == 0 }
  | 0x1A, 6 => some { vs1 := .src, rep1 := true, zero := false, xs := true, xs2 := true, ext := true, fx := n == 0 }
  -- matrix (R224)
  | 0x1B, 0 => some { VShape.mat with
      vd := .num
      vs1 := .src
      vs2 := .num
      tix := true
      na := true
      ad := true
      fx := n % 4 == 0 || n / 4 % 2 == 1
      res := n < 8 }
  | 0x1B, 1 => some { VShape.mat with vd := .num, vs1 := .num, vs2 := .num, xs := true, xs2 := true, res := n == 0 }
  | 0x1B, 2 => some { VShape.mat with vd := .num, xs := true, xs2 := true, res := n == 0 }
  | 0x1B, 3 => some { VShape.mat with
      vd := .dst
      vs1 := if n / 16 % 2 == 1 then .row else .no
      vs2 := if n / 32 % 2 == 1 then .row else .no
      rep1 := n / 16 % 2 == 1
      rep2 := n / 32 % 2 == 1
      pred := true
      zero := true
      tix := true
      rounds := true
      fx := n < 128 || n / 64 % 2 == 1 }
  | 0x1B, 4 => some { VShape.mat with
      vs1 := .src
      rep1 := true
      pred := true
      zero := true
      tix := true
      rounds := true
      fx := n < 128 || n / 64 % 2 == 1
      res := n / 16 % 4 == 0 }
  | 0x1B, 5 => some { VShape.mat with
      vd := if 128 ≤ n then .dst else .no
      vs2 := if 128 ≤ n then .dst else .no
      xs := true
      tix := true }
  | 0x1B, 6 => some { VShape.mat with vs2 := .num, xs2 := n == 3, res := n < 4 }
  | _, _ => none

/-- A field is zero unless it is used. -/
def unusedZero {w : Nat} (used : Bool) (f : BitVec w) : Bool := used || f == 0

/-- The fields a modifier may hold (R63): free when enabled on an operand read, else zero. -/
def Rep.clear (r : Rep) : Bool := !r.en && r.size == 0 && r.idx == 0

/-- The reserved-field check of R68 (0x03) on operands and extended words. -/
def VShape.resOk (u : VShape) (o : VOp) (x : Ext) : Bool :=
  unusedZero (u.vd != .no) o.vd && unusedZero (u.vs1 != .no) o.vs1 && unusedZero (u.vs2 != .no) o.vs2
    && unusedZero (u.vs3 != .no) x.vs3 && (u.pred || (x.p == 0 && !x.inv)) && (u.zero || !x.zero)
    && unusedZero u.xs x.xs && unusedZero u.xs2 x.xs2 && (u.sat || !x.sat) && unusedZero u.tix x.tix
    && (u.na || !x.na) && (u.ad || !x.ad) && u.res
    && (!u.modRes || ((u.rep1 || x.rep1.clear) && (u.rep2 || x.rep2.clear)))

/-- The modifier part of the combination check: enabled only where it may be, and zero where it is not enabled (R63). -/
def Rep.combOk (r : Rep) (allowed : Bool) : Bool := if r.en then allowed else r.size == 0 && r.idx == 0

/-- The reserved-combination check of R68 (0x08; R63, R64). -/
def VShape.combOk (u : VShape) (x : Ext) : Bool :=
  (if u.rounds then x.rnd != 5 && x.rnd != 6 else x.rnd == 7) && !(x.inv && x.p == 0)
    && x.rep1.combOk u.rep1 && x.rep2.combOk u.rep2

/-- The specifier check of R68 (0x04). -/
def VShape.specOk (u : VShape) (o : VOp) (x : Ext) : Bool :=
  u.vd.ok o.vd && u.vs1.ok o.vs1 && u.vs2.ok o.vs2 && u.vs3.ok x.vs3

/-- A modifier that is absent. -/
def Rep.none : Rep := { en := false, size := 0, idx := 0 }

/-- The extended words an instruction without them stands for (R195). -/
def Ext.base : Ext where
  rep2 := .none
  rep1 := .none
  zero := false
  inv := false
  p := 0
  vs3 := 0
  xs2 := 0
  xs := 0
  sat := false
  ad := false
  na := false
  rnd := 7
  tix := 0
  fx := 0

/-- Whether operands and extended words pass every check of a function of a vector major. -/
def wfExt (maj f3 : Nat) (o : VOp) (x : Ext) : Bool :=
  match vShape maj f3 x.fx with
  | some u => u.fx && u.resOk o x && u.combOk x && u.specOk o x
  | none => false

/-- The same for the form without extended words. -/
def wfBase (maj f3 : Nat) (o : VOp) : Bool :=
  match vShape maj f3 0 with
  | some u => !u.ext && u.resOk o .base && u.combOk .base && u.specOk o .base
  | none => false

/-- The extended words of a vector memory instruction (R188). -/
def MemOp.ext (m : MemOp) (rnd : BitVec 3) (fx : BitVec 8) : Ext :=
  { Ext.base with zero := m.zero, inv := m.inv, p := m.p, xs := m.xs, xs2 := m.xs2, rnd := rnd, fx := fx }

/-- The function extension of `VSTP` (R145). -/
def PlatStOp.fx (op : PlatStOp) : BitVec 8 :=
  match op with
  | .last => 0
  | .arith op cls => 0#2 ++ cls ++ 0#1 ++ op

/-- BLD's register fields hold 5-bit register numbers (R224). -/
def bldRegs (o : VOp) : Bool := o.vs1.toNat < 32 && o.vs2.toNat < 32

/-- The system registers whose reads have rows of their own (R77, R193). -/
def sysrSpecial (reg : BitVec 11) : Bool := reg == 3 || reg == 4 || reg == 5

/-- The system registers whose writes have rows of their own (R80, R193, R77, R342, R82). -/
def syswSpecial (reg : BitVec 11) : Bool :=
  reg == 0 || reg == 3 || reg == 4 || reg == 5 || reg == 0x15 || reg.extractLsb' 3 8 == 0x20

/-- `VSTP.last` has one term: the arithmetic form holds a function other than 0 (R145). -/
def PlatStOp.canon (op : PlatStOp) : Bool :=
  match op with
  | .last => true
  | .arith op _ => op != 0

/-- Whether a term passes the checks of R68 that look at its fields alone. Rows whose fields may hold any value, and the events, pass. -/
def Instr.wf (i : Instr) : Bool :=
  match i with
  | .qsend q _ => q.toNat < 6
  | .qrecv _ q => q.toNat < 6
  | .qsendb q _ => 6 ≤ q.toNat
  | .sysr _ reg => !sysrSpecial reg
  | .sysw reg _ => !syswSpecial reg
  | .coefld t _ => t.toNat ≤ 2
  | .platmk _ _ _ _ _ _ lsz => lsz.toNat ≤ 8
  | .plats _ op ty pl xpl _ _ _ _ _ => ((op != .last && op != .swap) || ty == .i32) && (pl || xpl == 0)
  | .vpf od vs1 => wfBase 0x11 0 { vd := od, vs1 := vs1, vs2 := 0 }
  | .vpfExt od vs1 => wfExt 0x11 0 { vd := od, vs1 := vs1, vs2 := 0 } .base
  | .vld vd m => wfExt 0x12 0 { vd := vd, vs1 := 0, vs2 := 0 } (m.ext 7 0)
  | .vlds vd m => wfExt 0x12 1 { vd := vd, vs1 := 0, vs2 := 0 } (m.ext 7 0)
  | .vst vs1 m => wfExt 0x12 2 { vd := 0, vs1 := vs1, vs2 := 0 } (m.ext 7 0)
  | .vsts vs1 m => wfExt 0x12 3 { vd := 0, vs1 := vs1, vs2 := 0 } (m.ext 7 0)
  | .vld2d vd m => wfExt 0x12 4 { vd := vd, vs1 := 0, vs2 := 0 } (m.ext 7 0)
  | .vst2d vs1 m => wfExt 0x12 5 { vd := 0, vs1 := vs1, vs2 := 0 } (m.ext 7 0)
  | .vldp vd m => m.disp.isNone && wfExt 0x12 6 { vd := vd, vs1 := 0, vs2 := 0 } (m.ext 7 0)
  | .vstp vs1 m rnd op => m.disp.isNone && op.canon && wfExt 0x12 7 { vd := 0, vs1 := vs1, vs2 := 0 } (m.ext rnd op.fx)
  | .vadd o => wfBase 0x13 0 o
  | .vaddExt o x => wfExt 0x13 0 o x
  | .vsub o => wfBase 0x13 1 o
  | .vsubExt o x => wfExt 0x13 1 o x
  | .vmul o => wfBase 0x13 2 o
  | .vmulExt o x => wfExt 0x13 2 o x
  | .vmulh o => wfBase 0x13 3 o
  | .vmulhExt o x => wfExt 0x13 3 o x
  | .vand o => wfBase 0x13 4 o
  | .vandExt o x => wfExt 0x13 4 o x
  | .vor o => wfBase 0x13 5 o
  | .vorExt o x => wfExt 0x13 5 o x
  | .vxor o => wfBase 0x13 6 o
  | .vxorExt o x => wfExt 0x13 6 o x
  | .vmin o => wfBase 0x13 7 o
  | .vminExt o x => wfExt 0x13 7 o x
  | .vmax o => wfBase 0x14 0 o
  | .vmaxExt o x => wfExt 0x14 0 o x
  | .vsll o => wfBase 0x14 1 o
  | .vsllExt o x => wfExt 0x14 1 o x
  | .vsrl o => wfBase 0x14 2 o
  | .vsrlExt o x => wfExt 0x14 2 o x
  | .vsra o => wfBase 0x14 3 o
  | .vsraExt o x => wfExt 0x14 3 o x
  | .vadds o => wfBase 0x14 4 o
  | .vaddsExt o x => wfExt 0x14 4 o x
  | .vsubs o => wfBase 0x14 5 o
  | .vsubsExt o x => wfExt 0x14 5 o x
  | .vmac o => wfBase 0x14 6 o
  | .vmacExt o x => wfExt 0x14 6 o x
  | .vabsd o => wfBase 0x14 7 o
  | .vabsdExt o x => wfExt 0x14 7 o x
  | .vfadd o => wfBase 0x15 0 o
  | .vfaddExt o x => wfExt 0x15 0 o x
  | .vfsub o => wfBase 0x15 1 o
  | .vfsubExt o x => wfExt 0x15 1 o x
  | .vfmul o => wfBase 0x15 2 o
  | .vfmulExt o x => wfExt 0x15 2 o x
  | .vfma o x => wfExt 0x15 3 o x
  | .vfdiv o => wfBase 0x15 4 o
  | .vfdivExt o x => wfExt 0x15 4 o x
  | .vfsqrt o => wfBase 0x15 5 o
  | .vfsqrtExt o x => wfExt 0x15 5 o x
  | .vfmin o => wfBase 0x15 6 o
  | .vfminExt o x => wfExt 0x15 6 o x
  | .vfmax o => wfBase 0x15 7 o
  | .vfmaxExt o x => wfExt 0x15 7 o x
  | .vfsgn o => wfBase 0x16 0 o
  | .vfsgnExt o x => wfExt 0x16 0 o x
  | .vfscl o => wfBase 0x16 1 o
  | .vfsclExt o x => wfExt 0x16 1 o x
  | .vfcls o => wfBase 0x16 2 o
  | .vfclsExt o x => wfExt 0x16 2 o x
  | .vpoly o => wfBase 0x16 3 o
  | .vpolyExt o x => wfExt 0x16 3 o x
  | .vtwos o => wfBase 0x16 4 o
  | .vtwosExt o x => wfExt 0x16 4 o x
  | .vcmp o => wfBase 0x17 0 o
  | .vcmpExt o x => wfExt 0x17 0 o x
  | .vfcmp o => wfBase 0x17 1 o
  | .vfcmpExt o x => wfExt 0x17 1 o x
  | .plog o => wfBase 0x17 2 o
  | .plogExt o x => wfExt 0x17 2 o x
  | .pset o x => wfExt 0x17 3 o x
  | .pcnt o x => wfExt 0x17 4 o x
  | .pfirst o x => wfExt 0x17 5 o x
  | .vsel o => wfBase 0x17 6 o
  | .vselExt o x => wfExt 0x17 6 o x
  | .vcvt o => wfBase 0x18 0 o
  | .vcvtExt o x => wfExt 0x18 0 o x
  | .qnt o x => wfExt 0x18 1 o x
  | .qnte o x => wfExt 0x18 2 o x
  | .dqnt o x => wfExt 0x18 3 o x
  | .vmv o => wfBase 0x19 0 o
  | .vmvExt o x => wfExt 0x19 0 o x
  | .vbcast o x => wfExt 0x19 1 o x
  | .vext o x => wfExt 0x19 2 o x
  | .vins o x => wfExt 0x19 3 o x
  | .vslup o x => wfExt 0x19 4 o x
  | .vsldn o x => wfExt 0x19 5 o x
  | .vperm o => wfBase 0x19 6 o
  | .vpermExt o x => wfExt 0x19 6 o x
  | .vtrn o => wfBase 0x19 7 o
  | .vtrnExt o x => wfExt 0x19 7 o x
  | .vredsum o => wfBase 0x1A 0 o
  | .vredsumExt o x => wfExt 0x1A 0 o x
  | .vredmax o => wfBase 0x1A 1 o
  | .vredmaxExt o x => wfExt 0x1A 1 o x
  | .vredmin o => wfBase 0x1A 2 o
  | .vredminExt o x => wfExt 0x1A 2 o x
  | .vredcs o => wfBase 0x1A 3 o
  | .vredcsExt o x => wfExt 0x1A 3 o x
  | .vscan o x => wfExt 0x1A 4 o x
  | .vcomp o => wfBase 0x1A 5 o
  | .vcompExt o x => wfExt 0x1A 5 o x
  | .vdig o x => wfExt 0x1A 6 o x
  | .mma o x => wfExt 0x1B 0 o x
  | .bld o x => bldRegs o && wfExt 0x1B 1 o x
  | .azero o x => wfExt 0x1B 2 o x
  | .ard o x => wfExt 0x1B 3 o x
  | .awr o x => wfExt 0x1B 4 o x
  | .eptk o x => wfExt 0x1B 5 o x
  | .rmfire vX _ => Kind.src.ok vX
  | .rmmul _ _ _ vX _ _ => Kind.src.ok vX
  | .add .. | .sub .. | .and .. | .or .. | .xor .. | .sll .. | .srl .. | .sra .. | .mul .. | .mulh .. | .mulhu .. | .div ..
  | .divu .. | .rem .. | .remu .. | .min .. | .max .. | .minu .. | .maxu .. | .slt .. | .sltu .. | .clz .. | .ctz ..
  | .popc .. | .rol .. | .ror .. | .addi .. | .addiLit .. | .andi .. | .andiLit .. | .ori .. | .oriLit .. | .xori ..
  | .xoriLit .. | .slti .. | .sltiLit .. | .sltiu .. | .sltiuLit .. | .addpc .. | .addpcLit .. | .slli .. | .srli ..
  | .srai .. | .ldi .. | .ldiLit .. | .roli .. | .fadd .. | .fsub .. | .fmul .. | .fdiv .. | .fsqrt .. | .fmin .. | .fmax ..
  | .fma .. | .fnma .. | .feq .. | .flt .. | .fle .. | .ftole .. | .fcvti .. | .icvtf .. | .fcvtf .. | .fclass .. | .ld ..
  | .ldLit .. | .st .. | .stLit .. | .lda .. | .stl .. | .amoAdd .. | .amoAnd .. | .amoOr .. | .amoXor .. | .amoMin ..
  | .amoMax .. | .amoMinu .. | .amoMaxu .. | .amoSwap .. | .amoFadd32 .. | .cas .. | .br .. | .brLit .. | .j .. | .jLit ..
  | .jr .. | .jrLit .. | .brq .. | .brqLit .. | .qcnt .. | .vtypeWrite .. | .vstartWrite .. | .vfcntWrite ..
  | .vstatusWrite .. | .vstatusRead .. | .vstartRead .. | .vfcntRead .. | .frset .. | .tstatusWrite .. | .aspaceWrite ..
  | .vlcapWrite .. | .pwrlimWrite .. | .stkrefWrite .. | .stkeccWrite .. | .nop | .trap .. | .tret | .exit | .bar
  | .waitaEq .. | .waitaNe .. | .waitaGeu .. | .waitaWake .. | .waitaTimeout .. | .fence .. | .vfence | .ifence | .vmfence ..
  | .lnch .. | .enqCopy .. | .enqNet .. | .deq .. | .cpw .. | .cpgo .. | .cpcan .. | .cpr .. | .copyStart | .copyComplete ..
  | .copyFault .. | .engineFaultTrap .. | .platg .. | .platco .. | .platck .. | .platrl .. | .platOpStart
  | .platGatherComplete .. | .platScatterComplete .. | .setl .. | .viqCommit .. | .wcbDrain | .bslotPin .. | .bslotUnpin ..
  | .bslotRelease .. | .bslotQuery .. | .matrixEngineTurn | .mmaAccumulate | .rmbind .. | .rmbindUnbind .. | .rmjoin ..
  | .rmmig .. | .rmage .. | .rmqry .. | .deepPartArrival .. | .sphdr .. | .spcnt .. | .spmrg .. | .preemptRequest
  | .quantumExpiry .. | .strandResume .. | .matrixStateSave | .budgetExhausted .. | .taskRerun .. | .supervisorRetry ..
  | .supervisorForward .. | .supervisorKill .. | .teamDispatch .. | .preload | .teamRetire .. | .waveFence ..
  | .launchComplete .. | .coalesceWindowExpiry .. | .netComplete .. | .stackCriticalTemp .. | .criticalTempDeassert ..
  | .selfRefreshExit .. | .stackHoldEvent .. | .stackRetire .. | .generatorReseed .. | .deviceReset | .readinessChange ..
  | .sessionOpen .. | .launchSubmit .. | .endpointReg .. | .windowReg .. | .readinessQuery .. | .spdm .. | .fwUpdate ..
  | .spaceSet .. | .vmapSet .. | .uetWrite .. | .uetRead .. | .uetAtomic .. | .inboundUudDrop | .resolveVmapAbsent ..
  | .connectionSetup .. | .unknownKind .. => true

end Sys2Proof
end

