-- ==== Sys2Proof/Decode.lean ====
section
/-! DEFINITION. The encodings of R54 to R67 and of each instruction's entry: a decoder, total on every list of words, that makes the
checks of R68 in their order and names the first that fails, and an encoder beside it. -/

namespace Sys2Proof

/-- Why words are no instruction. `code` is the subcode of R68 that traps `ILLEGAL`; `engine` is `ENQ` of an engine that takes no
record (R166, subcode 0x11), which comes after the stream check of R68; `short` is a list that is not the words of one length field. -/
inductive Illegal where
  | code (sub : Byte)
  | engine
  | short
  deriving DecidableEq, Repr

/-! ### Fields -/

/-- Word 0 in S format (R58). -/
def packS (f9 : BitVec 9) (rs2 rs1 rd : Reg) (maj : BitVec 6) (l : BitVec 2) : W32 := f9 ++ rs2 ++ rs1 ++ rd ++ maj ++ l
/-- Word 0 in I, B or M format (R58). -/
def packI (imm : BitVec 11) (f3 : BitVec 3) (rs1 rd : Reg) (maj : BitVec 6) (l : BitVec 2) : W32 :=
  imm ++ f3 ++ rs1 ++ rd ++ maj ++ l
/-- Word 0 in J format (R58). -/
def packJ (off : BitVec 19) (rd : Reg) (maj : BitVec 6) (l : BitVec 2) : W32 := off ++ rd ++ maj ++ l
/-- Word 0 in V format (R58). -/
def packV (f3 : BitVec 3) (o : VOp) (maj : BitVec 6) (l : BitVec 2) : W32 := f3 ++ o.vs2 ++ o.vs1 ++ o.vd ++ maj ++ l
/-- Extended word 1 (R63). -/
def packX1 (x : Ext) : W32 :=
  0#1 ++ BitVec.ofBool x.rep2.en ++ x.rep2.size ++ x.rep2.idx ++ BitVec.ofBool x.rep1.en ++ x.rep1.size ++ x.rep1.idx
    ++ BitVec.ofBool x.zero ++ BitVec.ofBool x.inv ++ x.p ++ x.vs3
/-- Extended word 2 (R64). -/
def packX2 (x : Ext) : W32 :=
  0#3 ++ x.xs2 ++ x.xs ++ BitVec.ofBool x.sat ++ BitVec.ofBool x.ad ++ 0#1 ++ BitVec.ofBool x.na ++ x.rnd ++ x.tix ++ x.fx

/-- The length field L (R54). -/
def fieldL (w : W32) : BitVec 2 := w.extractLsb' 0 2
/-- The major opcode (R54). -/
def fieldMaj (w : W32) : BitVec 6 := w.extractLsb' 2 6
/-- rd, bits [12:8]. -/
def fieldRd (w : W32) : Reg := w.extractLsb' 8 5
/-- rs1, bits [17:13]. -/
def fieldRs1 (w : W32) : Reg := w.extractLsb' 13 5
/-- rs2, bits [22:18]. -/
def fieldRs2 (w : W32) : Reg := w.extractLsb' 18 5
/-- F9, bits [31:23]. -/
def fieldF9 (w : W32) : BitVec 9 := w.extractLsb' 23 9
/-- The function field F9[5:0] of most S majors (R62). -/
def fieldFunc (w : W32) : BitVec 6 := w.extractLsb' 23 6
/-- The variant field F9[8:6] of most S majors (R62). -/
def fieldVar (w : W32) : BitVec 3 := w.extractLsb' 29 3
/-- imm11, bits [31:21]. -/
def fieldImm (w : W32) : BitVec 11 := w.extractLsb' 21 11
/-- F3 of I and M, cond of B, bits [20:18]. -/
def fieldF3 (w : W32) : BitVec 3 := w.extractLsb' 18 3
/-- offset19, bits [31:13]. -/
def fieldOff (w : W32) : BitVec 19 := w.extractLsb' 13 19
/-- F3 of V, bits [31:29]. -/
def fieldVF3 (w : W32) : BitVec 3 := w.extractLsb' 29 3
/-- vd, vs1 and vs2 of V. -/
def fieldVOp (w : W32) : VOp := { vd := w.extractLsb' 8 7, vs1 := w.extractLsb' 15 7, vs2 := w.extractLsb' 22 7 }
/-- Bits [h:l] as a natural number. -/
def bitsOf (w : W32) (lo n : Nat) : Nat := (w.extractLsb' lo n).toNat
/-- One bit of a word. -/
def bitOf (w : W32) (i : Nat) : Bool := w.extractLsb' i 1 == 1#1

/-- The extended words' fields (R63, R64). -/
def fieldExt (w1 w2 : W32) : Ext where
  rep2 := { en := bitOf w1 30, size := w1.extractLsb' 28 2, idx := w1.extractLsb' 22 6 }
  rep1 := { en := bitOf w1 21, size := w1.extractLsb' 19 2, idx := w1.extractLsb' 13 6 }
  zero := bitOf w1 12
  inv := bitOf w1 11
  p := w1.extractLsb' 7 4
  vs3 := w1.extractLsb' 0 7
  xs2 := w2.extractLsb' 24 5
  xs := w2.extractLsb' 19 5
  sat := bitOf w2 18
  ad := bitOf w2 17
  na := bitOf w2 15
  rnd := w2.extractLsb' 12 3
  tix := w2.extractLsb' 8 4
  fx := w2.extractLsb' 0 8

/-! ### Codes of enumerated fields -/

/-- The code of a precision (R62). -/
def Prec.bits (p : Prec) : BitVec 3 :=
  match p with
  | .s => 0
  | .d => 1
  | .h => 2
  | .bf => 3

/-- The precision of a code. -/
def Prec.of (b : BitVec 3) : Option Prec :=
  match b.toNat with
  | 0 => some .s
  | 1 => some .d
  | 2 => some .h
  | 3 => some .bf
  | _ => none

/-- The code of an integer type (R285). -/
def IntCode.bits (c : IntCode) : BitVec 5 :=
  match c with
  | .i64 => 0
  | .u64 => 1
  | .i32 => 2
  | .u32 => 3

/-- The integer type of a code. -/
def IntCode.of (b : BitVec 5) : IntCode :=
  match (b.extractLsb' 0 2).toNat with
  | 0 => .i64
  | 1 => .u64
  | 2 => .i32
  | _ => .u32

/-- A load size by F3 (R286). -/
def LdSize.bits (z : LdSize) : BitVec 3 :=
  match z with
  | .b => 0
  | .h => 1
  | .w => 2
  | .d => 3
  | .bu => 4
  | .hu => 5
  | .wu => 6

/-- The load size of an F3. -/
def LdSize.of (b : BitVec 3) : Option LdSize :=
  match b.toNat with
  | 0 => some .b
  | 1 => some .h
  | 2 => some .w
  | 3 => some .d
  | 4 => some .bu
  | 5 => some .hu
  | 6 => some .wu
  | _ => none

/-- A store size by F3 (R286). -/
def StSize.bits (z : StSize) : BitVec 3 :=
  match z with
  | .b => 0
  | .h => 1
  | .w => 2
  | .d => 3

/-- The store size of an F3. -/
def StSize.of (b : BitVec 3) : Option StSize :=
  match b.toNat with
  | 0 => some .b
  | 1 => some .h
  | 2 => some .w
  | 3 => some .d
  | _ => none

/-- The code of a scope (R62). -/
def Scope.bits (c : Scope) : BitVec 2 :=
  match c with
  | .cor => 0
  | .die => 1
  | .dev => 2
  | .sys => 3

/-- The scope of a code. -/
def Scope.of (b : BitVec 2) : Scope :=
  match b.toNat with
  | 0 => .cor
  | 1 => .die
  | 2 => .dev
  | _ => .sys

/-- The code of an ordering (R62). -/
def Order.bits (o : Order) : BitVec 2 :=
  match o with
  | .rx => 0
  | .aq => 1
  | .rl => 2
  | .ar => 3

/-- The ordering of a code. -/
def Order.of (b : BitVec 2) : Order :=
  match b.toNat with
  | 0 => .rx
  | 1 => .aq
  | 2 => .rl
  | _ => .ar

/-- The code of a branch condition (R287). -/
def Cond.bits (c : Cond) : BitVec 3 :=
  match c with
  | .eq => 0
  | .ne => 1
  | .lt => 2
  | .ge => 3
  | .ltu => 4
  | .geu => 5

/-- The branch condition of a code. -/
def Cond.of (b : BitVec 3) : Option Cond :=
  match b.toNat with
  | 0 => some .eq
  | 1 => some .ne
  | 2 => some .lt
  | 3 => some .ge
  | 4 => some .ltu
  | 5 => some .geu
  | _ => none

/-- The code of a scatter's combine (R141). -/
def ScatOp.bits (o : ScatOp) : BitVec 4 :=
  match o with
  | .last => 0
  | .add => 1
  | .max => 2
  | .min => 3
  | .swap => 4

/-- The combine of a code. -/
def ScatOp.of (b : BitVec 4) : Option ScatOp :=
  match b.toNat with
  | 0 => some .last
  | 1 => some .add
  | 2 => some .max
  | 3 => some .min
  | 4 => some .swap
  | _ => none

/-- The code of a scatter's type (R141). -/
def ScatType.bits (t : ScatType) : BitVec 4 :=
  match t with
  | .i32 => 0
  | .u32 => 1
  | .i64 => 2
  | .u64 => 3
  | .f32 => 4
  | .f16 => 5
  | .bf16 => 6
  | .f64 => 7

/-- The type of a code. -/
def ScatType.of (b : BitVec 4) : Option ScatType :=
  match b.toNat with
  | 0 => some .i32
  | 1 => some .u32
  | 2 => some .i64
  | 3 => some .u64
  | 4 => some .f32
  | 5 => some .f16
  | 6 => some .bf16
  | 7 => some .f64
  | _ => none

/-! ### The decoder -/

/-- The words of one instruction by their parts (R54): word 0, the extended words, the literal. -/
structure Words where
  w0  : W32
  w1  : W32
  w2  : W32
  ext : Bool
  lit : Option W64
  deriving DecidableEq, Repr

/-- The number of words that a length field asks for (R54). -/
def wordCount (w0 : W32) : Nat :=
  match (fieldL w0).toNat with
  | 0 => 1
  | 3 => 5
  | _ => 3

/-- The parts of a list of words, when it has the length its word 0 asks for. -/
def splitWords (ws : List W32) : Option Words :=
  match ws with
  | [a] => if fieldL a == 0 then some { w0 := a, w1 := 0, w2 := 0, ext := false, lit := none } else none
  | [a, b, c] =>
    if fieldL a == 1 then some { w0 := a, w1 := 0, w2 := 0, ext := false, lit := some (c ++ b) }
    else if fieldL a == 2 then some { w0 := a, w1 := b, w2 := c, ext := true, lit := none }
    else none
  | [a, b, c, d, e] =>
    if fieldL a == 3 then some { w0 := a, w1 := b, w2 := c, ext := true, lit := some (e ++ d) } else none
  | _ => none

/-- Checks 1 to 5 of R68 in their order: OPCODE, LENGTH, RESERVED, COMBINATION, SPECIFIER. -/
def verdict {α : Type} (op len res comb spec : Bool) (i : α) : Except Illegal α :=
  if !op then .error (.code 0x01)
  else if !len then .error (.code 0x02)
  else if !res then .error (.code 0x03)
  else if !comb then .error (.code 0x08)
  else if !spec then .error (.code 0x04)
  else .ok i

/-- An unassigned function (R68, 0x01). -/
def unassigned {α : Type} : Except Illegal α := .error (.code 0x01)

/-- Ext and Lit both absent. -/
def Words.bare (w : Words) : Bool := !w.ext && w.lit.isNone
/-- Ext required, no literal. -/
def Words.extOnly (w : Words) : Bool := w.ext && w.lit.isNone

/-- Major 0x01 (R281, R282): W32 on functions 0 to 8 and 11 to 14; CLZ, CTZ and POPC hold 0 in rs2. -/
def decodeSalu (w : Words) : Except Illegal Instr :=
  let rd := fieldRd w.w0
  let a := fieldRs1 w.w0
  let b := fieldRs2 w.w0
  let w32 := bitOf w.w0 31
  let res := bitsOf w.w0 28 3 == 0
  let wide := fun (c : Bool → Reg → Reg → Reg → Instr) => verdict true w.bare res true true (c w32 rd a b)
  let three := fun (c : Reg → Reg → Reg → Instr) => verdict true w.bare res (!w32) true (c rd a b)
  let two := fun (c : Reg → Reg → Instr) => verdict true w.bare (res && b == 0) (!w32) true (c rd a)
  match bitsOf w.w0 23 5 with
  | 0 => wide .add
  | 1 => wide .sub
  | 2 => wide .and
  | 3 => wide .or
  | 4 => wide .xor
  | 5 => wide .sll
  | 6 => wide .srl
  | 7 => wide .sra
  | 8 => wide .mul
  | 9 => three .mulh
  | 10 => three .mulhu
  | 11 => wide .div
  | 12 => wide .divu
  | 13 => wide .rem
  | 14 => wide .remu
  | 15 => three .min
  | 16 => three .max
  | 17 => three .minu
  | 18 => three .maxu
  | 19 => three .slt
  | 20 => three .sltu
  | 21 => two .clz
  | 22 => two .ctz
  | 23 => two .popc
  | 24 => three .rol
  | 25 => three .ror
  | _ => unassigned

/-- An instruction whose immediate a literal may replace; the replaced field must then be zero (R59). -/
def immOr (w : Words) (res : Bool) (f : BitVec 11 → Instr) (g : W64 → Instr) : Except Illegal Instr :=
  match w.lit with
  | none => verdict true (!w.ext) res true true (f (fieldImm w.w0))
  | some l => verdict true (!w.ext) (res && fieldImm w.w0 == 0) true true (g l)

/-- Major 0x02 (R283). -/
def decodeSalui (w : Words) : Except Illegal Instr :=
  let rd := fieldRd w.w0
  let a := fieldRs1 w.w0
  match (fieldF3 w.w0).toNat with
  | 0 => immOr w true (.addi rd a) (.addiLit rd a)
  | 1 => immOr w true (.andi rd a) (.andiLit rd a)
  | 2 => immOr w true (.ori rd a) (.oriLit rd a)
  | 3 => immOr w true (.xori rd a) (.xoriLit rd a)
  | 4 => immOr w true (.slti rd a) (.sltiLit rd a)
  | 5 => immOr w true (.sltiu rd a) (.sltiuLit rd a)
  | 7 => immOr w (a == 0) (.addpc rd) (.addpcLit rd)
  | _ => unassigned

/-- Major 0x03 (R284): a literal on LDI alone; shift counts in imm11[5:0]. -/
def decodeSshi (w : Words) : Except Illegal Instr :=
  let rd := fieldRd w.w0
  let a := fieldRs1 w.w0
  let sh : BitVec 6 := w.w0.extractLsb' 21 6
  let shift := fun (c : Reg → Reg → BitVec 6 → Instr) => verdict true w.bare (bitsOf w.w0 27 5 == 0) true true (c rd a sh)
  match (fieldF3 w.w0).toNat with
  | 0 => shift .slli
  | 1 => shift .srli
  | 2 => shift .srai
  | 3 => immOr w (a == 0) (.ldi rd) (.ldiLit rd)
  | 4 => shift .roli
  | _ => unassigned

/-- Major 0x04 (R285). -/
def decodeSfp (w : Words) : Except Illegal Instr :=
  let rd := fieldRd w.w0
  let a := fieldRs1 w.w0
  let b := fieldRs2 w.w0
  match Prec.of (fieldVar w.w0) with
  | none => unassigned
  | some p =>
    let three := fun (c : Prec → Reg → Reg → Reg → Instr) => verdict true w.bare true true true (c p rd a b)
    let two := fun (c : Prec → Reg → Reg → Instr) => verdict true w.bare (b == 0) true true (c p rd a)
    let code := fun (i : Instr) => verdict true w.bare (bitsOf w.w0 20 3 == 0) true true i
    match (fieldFunc w.w0).toNat with
    | 0 => three .fadd
    | 1 => three .fsub
    | 2 => three .fmul
    | 3 => three .fdiv
    | 4 => two .fsqrt
    | 5 => three .fmin
    | 6 => three .fmax
    | 7 => three .fma
    | 8 => three .fnma
    | 9 => three .feq
    | 10 => three .flt
    | 11 => three .fle
    | 12 => three .ftole
    | 13 => code (.fcvti p (IntCode.of b) rd a)
    | 14 => code (.icvtf p (IntCode.of b) rd a)
    | 15 => code (.fcvtf p ((Prec.of (w.w0.extractLsb' 18 2 |>.setWidth 3)).getD .s) rd a)
    | 16 => two .fclass
    | _ => unassigned

/-- Majors 0x05 and 0x06 (R286). -/
def decodeLd (w : Words) : Except Illegal Instr :=
  match LdSize.of (fieldF3 w.w0) with
  | none => unassigned
  | some z => immOr w true (.ld z (fieldRd w.w0) (fieldRs1 w.w0)) (.ldLit z (fieldRd w.w0) (fieldRs1 w.w0))

/-- Major 0x06 (R286). -/
def decodeSt (w : Words) : Except Illegal Instr :=
  match StSize.of (fieldF3 w.w0) with
  | none => unassigned
  | some z => immOr w true (.st z (fieldRd w.w0) (fieldRs1 w.w0)) (.stLit z (fieldRd w.w0) (fieldRs1 w.w0))

/-- Major 0x07 (R62, R310). -/
def decodeAtom (w : Words) : Except Illegal Instr :=
  let rd := fieldRd w.w0
  let a := fieldRs1 w.w0
  let b := fieldRs2 w.w0
  let sc := Scope.of (w.w0.extractLsb' 30 2)
  let o := Order.of (w.w0.extractLsb' 28 2)
  let d := bitOf w.w0 27
  let amo := fun (c : Scope → Order → Bool → Reg → Reg → Reg → Instr) =>
    verdict true w.bare true true true (c sc o d rd a b)
  match bitsOf w.w0 23 4 with
  | 0 => verdict true w.bare (b == 0) (o == .aq) true (.lda sc d rd a)
  | 1 => verdict true w.bare (rd == 0) (o == .rl) true (.stl sc d a b)
  | 2 => amo .amoAdd
  | 3 => amo .amoAnd
  | 4 => amo .amoOr
  | 5 => amo .amoXor
  | 6 => amo .amoMin
  | 7 => amo .amoMax
  | 8 => amo .amoMinu
  | 9 => amo .amoMaxu
  | 10 => amo .amoSwap
  | 11 => verdict true w.bare true (!d) true (.amoFadd32 sc o rd a b)
  | 12 => amo .cas
  | _ => unassigned

/-- Major 0x08 (R287): rs1 in [12:8], rs2 in [17:13]. -/
def decodeBr (w : Words) : Except Illegal Instr :=
  match Cond.of (fieldF3 w.w0) with
  | none => unassigned
  | some c => immOr w true (.br c (fieldRd w.w0) (fieldRs1 w.w0)) (.brLit c (fieldRd w.w0) (fieldRs1 w.w0))

/-- Major 0x09 (R288). -/
def decodeJ (w : Words) : Except Illegal Instr :=
  match w.lit with
  | none => verdict true (!w.ext) true true true (.j (fieldRd w.w0) (fieldOff w.w0))
  | some l => verdict true (!w.ext) (fieldOff w.w0 == 0) true true (.jLit (fieldRd w.w0) l)

/-- Major 0x0A (R289, R290). -/
def decodeJr (w : Words) : Except Illegal Instr :=
  match (fieldF3 w.w0).toNat with
  | 0 => immOr w true (.jr (fieldRd w.w0) (fieldRs1 w.w0)) (.jrLit (fieldRd w.w0) (fieldRs1 w.w0))
  | 1 => immOr w (fieldRs1 w.w0 == 0 && bitsOf w.w0 9 4 == 0) (.brq (bitOf w.w0 8)) (.brqLit (bitOf w.w0 8))
  | _ => unassigned

/-- Major 0x0B (R291): the queue number in rs2[2:0]. -/
def decodeQueue (w : Words) : Except Illegal Instr :=
  let rd := fieldRd w.w0
  let a := fieldRs1 w.w0
  let q : BitVec 3 := w.w0.extractLsb' 18 3
  let res := fieldVar w.w0 == 0 && bitsOf w.w0 21 2 == 0
  match (fieldFunc w.w0).toNat with
  | 0 => verdict true w.bare (res && rd == 0) (q.toNat < 6) true (.qsend q a)
  | 1 => verdict true w.bare (res && a == 0) (q.toNat < 6) true (.qrecv rd q)
  | 2 => verdict true w.bare (res && rd == 0) (6 ≤ q.toNat) true (.qsendb q a)
  | 3 => verdict true w.bare (res && a == 0) true true (.qcnt rd q)
  | _ => unassigned

/-- `SYSR` by register number: VSTART, VFCNT and VSTATUS have rows of their own. -/
def sysrInstr (rd : Reg) (reg : BitVec 11) : Instr :=
  if reg == 3 then .vstartRead rd else if reg == 4 then .vfcntRead rd else if reg == 5 then .vstatusRead rd
  else .sysr rd reg

/-- `SYSW` by register number. -/
def syswInstr (reg : BitVec 11) (rs : Reg) : Instr :=
  if reg == 0 then .vtypeWrite rs else if reg == 3 then .vstartWrite rs else if reg == 4 then .vfcntWrite rs
  else if reg == 5 then .vstatusWrite rs else if reg == 0x15 then .tstatusWrite rs
  else if reg.extractLsb' 3 8 == 0x20 then .frset (reg.extractLsb' 0 3) rs
  else .sysw reg rs

/-- Major 0x0C (R352). -/
def decodeSysrw (w : Words) : Except Illegal Instr :=
  match (fieldF3 w.w0).toNat with
  | 0 => verdict true w.bare (fieldRs1 w.w0 == 0) true true (sysrInstr (fieldRd w.w0) (fieldImm w.w0))
  | 1 => verdict true w.bare (fieldRd w.w0 == 0) true true (syswInstr (fieldImm w.w0) (fieldRs1 w.w0))
  | _ => unassigned

/-- Major 0x0D (R353 to R356, R334, R335, R169, R308, R309, R121, R332). Where an entry names neither a variant nor the subcode of a
non-zero F9[8:6] (`EXIT`, `VMFENCE` and others), R67 and R68 leave open whether it is an unassigned variant (0x01) or an unused field (0x03):
here it is an unused field (DESIGN CHOICE; log 93). -/
def decodeSys (w : Words) : Except Illegal Instr :=
  let rd := fieldRd w.w0
  let a := fieldRs1 w.w0
  let b := fieldRs2 w.w0
  let v0 := fieldVar w.w0 == 0
  let none := v0 && rd == 0 && a == 0 && b == 0
  let plain := fun (i : Instr) => verdict true w.bare none true true i
  let sc := Scope.of (w.w0.extractLsb' 30 2)
  let wait := fun (c : Scope → Bool → Reg → Reg → Reg → Instr) =>
    verdict true w.bare true true true (c sc (bitOf w.w0 29) rd a b)
  match (fieldFunc w.w0).toNat with
  | 0 => plain .nop
  | 1 => verdict true w.bare (v0 && rd == 0 && b == 0) true true (.trap a)
  | 2 => plain .tret
  | 3 => plain .exit
  | 4 => plain .bar
  | 5 => wait .waitaEq
  | 6 => wait .waitaNe
  | 7 => wait .waitaGeu
  | 8 => verdict true w.bare (v0 && rd == 0 && a == 0 && bitsOf w.w0 20 3 == 0) true true
      (.fence (Scope.of (w.w0.extractLsb' 18 2)))
  | 9 => plain .vfence
  | 10 => plain .ifence
  | 11 => verdict true w.bare (v0 && rd == 0 && b == 0) true true (.vmfence a)
  | 12 => verdict true w.bare (v0 && b == 0) true true (.lnch rd a)
  | _ => unassigned

/-- `ENQ` by engine (R166): 0 copy, 4 network; any other engine is refused after the checks of R68. -/
def enqInstr (w : Words) (dev : Bool) : Except Illegal Instr :=
  let res := bitsOf w.w0 21 2 == 0
  match bitsOf w.w0 18 3 with
  | 0 => verdict true w.bare res true true (.enqCopy dev (fieldRd w.w0) (fieldRs1 w.w0))
  | 4 => verdict true w.bare res true true (.enqNet dev (fieldRd w.w0) (fieldRs1 w.w0))
  | _ => match verdict true w.bare res true true Instr.nop with
    | .ok _ => .error .engine
    | .error e => .error e

/-- Major 0x0E (R163 to R168, R214): F9[6] is the one variant bit, of `ENQ`, `DEQ` and `CPGO`. A variant that no entry lists is unassigned
(0x01), also in the functions without variants such as `COEFLD`, for which the spec leaves the subcode open (DESIGN CHOICE; log 93). -/
def decodeEng (w : Words) : Except Illegal Instr :=
  let rd := fieldRd w.w0
  let a := fieldRs1 w.w0
  let b := fieldRs2 w.w0
  let v := bitOf w.w0 29
  let v1 := bitsOf w.w0 30 2 == 0
  let v0 := fieldVar w.w0 == 0
  let n : BitVec 3 := w.w0.extractLsb' 18 3
  let hi := bitsOf w.w0 21 2 == 0
  match (fieldFunc w.w0).toNat with
  | 0 => if v1 then enqInstr w v else unassigned
  | 1 => verdict v1 w.bare (hi && a == 0) true true (.deq v rd n)
  | 2 => verdict v0 w.bare (hi && rd == 0) true true (.cpw n a)
  | 3 => verdict v1 w.bare (a == 0 && b == 0) true true (.cpgo v rd)
  | 4 => verdict v0 w.bare (b == 0) true true (.cpcan rd a)
  | 5 => verdict v0 w.bare (hi && a == 0) true true (.cpr rd n)
  | 6 => verdict v0 w.bare (rd == 0 && b.toNat ≤ 2) true true (.coefld b a)
  | _ => unassigned

/-- Major 0x0F (R139 to R144): extended words, no literal. A type of `PLATS` from 8 to 15, which no table lists and for which R141 names no
subcode, is an unassigned value (0x01; DESIGN CHOICE; log 94). A scope of 2 to 7 is an illegal combination (0x08): so says the entry of `PLATG`, and the
model of `PLATS` too, whose entry names none (DESIGN CHOICE; log 142). -/
def decodePlat (w : Words) : Except Illegal Instr :=
  let rd := fieldRd w.w0
  let a := fieldRs1 w.w0
  let b := fieldRs2 w.w0
  let v0 := fieldVar w.w0 == 0
  let dev := bitOf w.w0 29
  let scope := bitsOf w.w0 30 2 == 0
  let xs2 : Reg := w.w2.extractLsb' 24 5
  let xs : Reg := w.w2.extractLsb' 19 5
  let w2 := bitsOf w.w2 29 3 == 0 && bitsOf w.w2 0 19 == 0
  let lsz : BitVec 4 := w.w1.extractLsb' 0 4
  let len := w.extOnly
  match (fieldFunc w.w0).toNat with
  | 0 => verdict true len (v0 && bitsOf w.w1 9 23 == 0 && bitsOf w.w1 4 4 == 0 && lsz.toNat ≤ 8 && w2) true true
      (.platmk rd a b xs xs2 (bitOf w.w1 8) lsz)
  | 1 => verdict true len (w.w1 == 0 && w2) scope true (.platg dev rd a b xs xs2)
  | 2 =>
    match ScatOp.of (w.w1.extractLsb' 0 4), ScatType.of (w.w1.extractLsb' 4 4) with
    | some op, some ty =>
      let pl := bitOf w.w1 13
      let xpl : Reg := w.w1.extractLsb' 8 5
      verdict true len (bitsOf w.w1 14 18 == 0 && w2 && ((op != .last && op != .swap) || ty == .i32) && (pl || xpl == 0))
        scope true (.plats dev op ty pl xpl rd a b xs xs2)
    | _, _ => unassigned
  | 3 => verdict true len (v0 && w.w1 == 0 && w2 && xs2 == 0) true true (.platco rd a b xs)
  | 4 => verdict true len (v0 && b == 0 && w.w1 == 0 && w.w2 == 0) true true (.platck rd a)
  | 5 => verdict true len (v0 && rd == 0 && b == 0 && w.w1 == 0 && w.w2 == 0) true true (.platrl a)
  | _ => unassigned

/-- Major 0x10 (R185): the literal's high word is zero. The spec shows F9 = 0 and names no subcode for another value: the model takes 0x03, as for a
field that must be zero (log 93: DESIGN CHOICE; R68). -/
def decodeSetl (w : Words) : Except Illegal Instr :=
  let l := w.lit.getD 0
  verdict true (!w.ext && w.lit.isSome) (fieldF9 w.w0 == 0 && l.extractLsb' 32 32 == 0) true true
    (.setl (fieldRd w.w0) (fieldRs1 w.w0) (fieldRs2 w.w0) (l.extractLsb' 0 32))

/-- Major 0x1C (R248). -/
def decodeRow (w : Words) : Except Illegal VForm :=
  let rd := fieldRd w.w0
  let a := fieldRs1 w.w0
  let b0 := fieldRs2 w.w0 == 0
  let v0 := fieldVar w.w0 == 0
  let f6 := bitOf w.w0 29
  let v1 := bitsOf w.w0 30 2 == 0
  let m : BitVec 4 := w.w1.extractLsb' 0 4
  let vX : Spec := w.w1.extractLsb' 4 7
  let aT : BitVec 4 := w.w1.extractLsb' 11 4
  let aJ : BitVec 4 := w.w1.extractLsb' 15 4
  let row0 : BitVec 3 := w.w1.extractLsb' 19 3
  let top := bitsOf w.w1 22 10 == 0 && w.w2 == 0 && b0
  let len := w.extOnly
  let mOnly := top && bitsOf w.w1 4 18 == 0
  let form := VForm.row (fieldFunc w.w0).toNat f6 rd a row0 aJ aT vX m
  match (fieldFunc w.w0).toNat with
  | 0 => verdict true len (v1 && mOnly && (!f6 || (rd == 0 && a == 0))) true true form
  | 1 => verdict true len (v0 && top && rd == 0 && a == 0 && bitsOf w.w1 11 11 == 0) true (Kind.src.ok vX) form
  | 2 => verdict true len (v1 && top && rd == 0 && a == 0) true (Kind.src.ok vX) form
  | 3 => verdict true len (v0 && top && rd == 0 && a == 0 && bitsOf w.w1 0 11 == 0 && row0 == 0) true true form
  | 4 => verdict true len (v0 && mOnly && a == 0) true true form
  | 5 => verdict true len (v0 && mOnly && rd == 0 && a == 0) true true form
  | 6 => verdict true len (v0 && mOnly && a == 0) true true form
  | _ => unassigned

/-- Major 0x1D (R264). -/
noncomputable def decodeSparse (w : Words) : Except Illegal Instr :=
  let rd := fieldRd w.w0
  let a := fieldRs1 w.w0
  let b := fieldRs2 w.w0
  let f6 := bitOf w.w0 29
  let v1 := bitsOf w.w0 30 2 == 0
  let xs2 : Reg := w.w2.extractLsb' 24 5
  let xs : Reg := w.w2.extractLsb' 19 5
  let w2 := bitsOf w.w2 29 3 == 0 && bitsOf w.w2 0 19 == 0
  let kz := bitOf w.w1 0
  let w1 := bitsOf w.w1 1 31 == 0
  let len := w.extOnly
  match (fieldFunc w.w0).toNat with
  | 0 => verdict true len (v1 && b == 0 && w.w1 == 0 && w.w2 == 0) true true (.sphdr f6 rd a)
  | 1 => verdict (!f6) len (v1 && w1 && w2) true true (.spcnt kz rd a b xs xs2)
  | 2 => verdict (!f6) len (v1 && w1 && w2) true true (.spmrg kz rd a b xs xs2)
  | _ => unassigned

/-- The memory operand of a vector memory instruction (R188). -/
def memOpOf (x : Ext) (lit : Option W64) : MemOp :=
  { zero := x.zero, inv := x.inv, p := x.p, xs := x.xs, xs2 := x.xs2, disp := lit }

/-- The `VSTP` function of its function extension (R145). -/
def platStOpOf (fx : BitVec 8) : PlatStOp :=
  if fx.extractLsb' 0 3 == 0 then .last else .arith (fx.extractLsb' 0 3) (fx.extractLsb' 4 2)

/-- The instruction of a vector major in its form without extended words. -/
def baseInstr (maj f3 : Nat) (o : VOp) : Option Instr :=
  match maj, f3 with
  | 0x11, 0 => some (.vpf o.vd o.vs1)
  | 0x13, 0 => some (.vadd o)
  | 0x13, 1 => some (.vsub o)
  | 0x13, 2 => some (.vmul o)
  | 0x13, 3 => some (.vmulh o)
  | 0x13, 4 => some (.vand o)
  | 0x13, 5 => some (.vor o)
  | 0x13, 6 => some (.vxor o)
  | 0x13, 7 => some (.vmin o)
  | 0x14, 0 => some (.vmax o)
  | 0x14, 1 => some (.vsll o)
  | 0x14, 2 => some (.vsrl o)
  | 0x14, 3 => some (.vsra o)
  | 0x14, 4 => some (.vadds o)
  | 0x14, 5 => some (.vsubs o)
  | 0x14, 6 => some (.vmac o)
  | 0x14, 7 => some (.vabsd o)
  | 0x15, 0 => some (.vfadd o)
  | 0x15, 1 => some (.vfsub o)
  | 0x15, 2 => some (.vfmul o)
  | 0x15, 4 => some (.vfdiv o)
  | 0x15, 5 => some (.vfsqrt o)
  | 0x15, 6 => some (.vfmin o)
  | 0x15, 7 => some (.vfmax o)
  | 0x16, 0 => some (.vfsgn o)
  | 0x16, 1 => some (.vfscl o)
  | 0x16, 2 => some (.vfcls o)
  | 0x16, 3 => some (.vpoly o)
  | 0x16, 4 => some (.vtwos o)
  | 0x17, 0 => some (.vcmp o)
  | 0x17, 1 => some (.vfcmp o)
  | 0x17, 2 => some (.plog o)
  | 0x17, 6 => some (.vsel o)
  | 0x18, 0 => some (.vcvt o)
  | 0x19, 0 => some (.vmv o)
  | 0x19, 6 => some (.vperm o)
  | 0x19, 7 => some (.vtrn o)
  | 0x1A, 0 => some (.vredsum o)
  | 0x1A, 1 => some (.vredmax o)
  | 0x1A, 2 => some (.vredmin o)
  | 0x1A, 3 => some (.vredcs o)
  | 0x1A, 5 => some (.vcomp o)
  | _, _ => none

/-- The instruction of a vector major in its extended form. -/
def extInstr (maj f3 : Nat) (o : VOp) (x : Ext) (lit : Option W64) : Option Instr :=
  match maj, f3 with
  | 0x11, 0 => some (.vpfExt o.vd o.vs1)
  | 0x12, 0 => some (.vld o.vd (memOpOf x lit))
  | 0x12, 1 => some (.vlds o.vd (memOpOf x lit))
  | 0x12, 2 => some (.vst o.vs1 (memOpOf x lit))
  | 0x12, 3 => some (.vsts o.vs1 (memOpOf x lit))
  | 0x12, 4 => some (.vld2d o.vd (memOpOf x lit))
  | 0x12, 5 => some (.vst2d o.vs1 (memOpOf x lit))
  | 0x12, 6 => some (.vldp o.vd (memOpOf x lit))
  | 0x12, 7 => some (.vstp o.vs1 (memOpOf x lit) x.rnd (platStOpOf x.fx))
  | 0x13, 0 => some (.vaddExt o x)
  | 0x13, 1 => some (.vsubExt o x)
  | 0x13, 2 => some (.vmulExt o x)
  | 0x13, 3 => some (.vmulhExt o x)
  | 0x13, 4 => some (.vandExt o x)
  | 0x13, 5 => some (.vorExt o x)
  | 0x13, 6 => some (.vxorExt o x)
  | 0x13, 7 => some (.vminExt o x)
  | 0x14, 0 => some (.vmaxExt o x)
  | 0x14, 1 => some (.vsllExt o x)
  | 0x14, 2 => some (.vsrlExt o x)
  | 0x14, 3 => some (.vsraExt o x)
  | 0x14, 4 => some (.vaddsExt o x)
  | 0x14, 5 => some (.vsubsExt o x)
  | 0x14, 6 => some (.vmacExt o x)
  | 0x14, 7 => some (.vabsdExt o x)
  | 0x15, 0 => some (.vfaddExt o x)
  | 0x15, 1 => some (.vfsubExt o x)
  | 0x15, 2 => some (.vfmulExt o x)
  | 0x15, 3 => some (.vfma o x)
  | 0x15, 4 => some (.vfdivExt o x)
  | 0x15, 5 => some (.vfsqrtExt o x)
  | 0x15, 6 => some (.vfminExt o x)
  | 0x15, 7 => some (.vfmaxExt o x)
  | 0x16, 0 => some (.vfsgnExt o x)
  | 0x16, 1 => some (.vfsclExt o x)
  | 0x16, 2 => some (.vfclsExt o x)
  | 0x16, 3 => some (.vpolyExt o x)
  | 0x16, 4 => some (.vtwosExt o x)
  | 0x17, 0 => some (.vcmpExt o x)
  | 0x17, 1 => some (.vfcmpExt o x)
  | 0x17, 2 => some (.plogExt o x)
  | 0x17, 3 => some (.pset o x)
  | 0x17, 4 => some (.pcnt o x)
  | 0x17, 5 => some (.pfirst o x)
  | 0x17, 6 => some (.vselExt o x)
  | 0x18, 0 => some (.vcvtExt o x)
  | 0x18, 1 => some (.qnt o x)
  | 0x18, 2 => some (.qnte o x)
  | 0x18, 3 => some (.dqnt o x)
  | 0x19, 0 => some (.vmvExt o x)
  | 0x19, 1 => some (.vbcast o x)
  | 0x19, 2 => some (.vext o x)
  | 0x19, 3 => some (.vins o x)
  | 0x19, 4 => some (.vslup o x)
  | 0x19, 5 => some (.vsldn o x)
  | 0x19, 6 => some (.vpermExt o x)
  | 0x19, 7 => some (.vtrnExt o x)
  | 0x1A, 0 => some (.vredsumExt o x)
  | 0x1A, 1 => some (.vredmaxExt o x)
  | 0x1A, 2 => some (.vredminExt o x)
  | 0x1A, 3 => some (.vredcsExt o x)
  | 0x1A, 4 => some (.vscan o x)
  | 0x1A, 5 => some (.vcompExt o x)
  | 0x1A, 6 => some (.vdig o x)
  | 0x1B, 0 => some (.mma o x)
  | 0x1B, 1 => some (.bld o x)
  | 0x1B, 2 => some (.azero o x)
  | 0x1B, 3 => some (.ard o x)
  | 0x1B, 4 => some (.awr o x)
  | 0x1B, 5 => some (.eptk o x)
  | 0x1B, 6 =>
    match x.fx.toNat with
    | 0 => some (.bslotPin o.vs2)
    | 1 => some (.bslotUnpin o.vs2)
    | 2 => some (.bslotRelease o.vs2)
    | _ => some (.bslotQuery x.xs2 o.vs2)
  | _, _ => none

/-- The instruction of a row-engine function (R248). -/
noncomputable def rowInstr (func : Nat) (var : Bool) (rd rs1 : Reg) (row0 : BitVec 3) (aJ aT : BitVec 4) (vX : Spec)
    (m : BitVec 4) : Option Instr :=
  match func with
  | 0 => some (if var then .rmbindUnbind m else .rmbind rd rs1 m)
  | 1 => some (.rmfire vX m)
  | 2 => some (.rmmul var aT aJ vX m row0)
  | 3 => some (.rmjoin aT aJ)
  | 4 => some (.rmmig rd m)
  | 5 => some (.rmage m)
  | 6 => some (.rmqry rd m)
  | _ => none

/-- The instruction of a form of the vector queue; `ext` says whether it had extended words. -/
noncomputable def formInstr (ext : Bool) (f : VForm) : Option Instr :=
  match f with
  | .vec maj f3 o x disp => if ext then extInstr maj f3 o x disp else baseInstr maj f3 o
  | .row func var rd rs1 row0 aJ aT vX m => rowInstr func var rd rs1 row0 aJ aT vX m

/-- Whether a literal may stand on a function of a vector major: the six loads and stores alone (R188, R145). -/
def litAllowed (maj f3 : Nat) : Bool := maj == 0x12 && f3 < 6

/-- Whether a function has the form without extended words. -/
def hasBase (maj : Nat) (u : VShape) : Bool := !u.ext && maj != 0x12

/-- Majors 0x11 to 0x1B (R195, R188, R224). -/
def decodeV (maj : Nat) (w : Words) : Except Illegal VForm :=
  let f3 := (fieldVF3 w.w0).toNat
  let o := fieldVOp w.w0
  let x := if w.ext then fieldExt w.w1 w.w2 else Ext.base
  match vShape maj f3 x.fx with
  | none => unassigned
  | some u =>
    let len := (w.lit.isNone || litAllowed maj f3) && (w.ext || hasBase maj u)
    let reserved := !bitOf w.w1 31 && bitsOf w.w2 29 3 == 0 && !bitOf w.w2 16
    let res := u.resOk o x && reserved && (maj != 0x1B || f3 != 1 || bldRegs o)
    verdict u.fx len res (u.combOk x) (u.specOk o x) (.vec maj f3 o x w.lit)

/-- Majors 0x11 to 0x1C: the forms of the vector instruction queue. -/
def decodeForm (maj : Nat) (w : Words) : Except Illegal VForm :=
  if maj == 0x1C then decodeRow w else if 0x11 ≤ maj && maj ≤ 0x1B then decodeV maj w else unassigned

/-- The scalar access that words stand for, by the decoder of its major: a load, a store, an atomic, a wait. -/
def decodeAccess (ws : List W32) : Option Instr :=
  (splitWords ws).bind fun w =>
    match (fieldMaj w.w0).toNat with
    | 0x05 => (decodeLd w).toOption
    | 0x06 => (decodeSt w).toOption
    | 0x07 => (decodeAtom w).toOption
    | 0x0D => (decodeSys w).toOption
    | _ => none

/-- The decoder: the instruction of a list of words, or why there is none (R68, R69). -/
noncomputable def decode (ws : List W32) : Except Illegal Instr :=
  match splitWords ws with
  | none => .error .short
  | some w =>
    if w.w0 == 0 then unassigned
    else
      let maj := (fieldMaj w.w0).toNat
      match maj with
      | 0x01 => decodeSalu w
      | 0x02 => decodeSalui w
      | 0x03 => decodeSshi w
      | 0x04 => decodeSfp w
      | 0x05 => decodeLd w
      | 0x06 => decodeSt w
      | 0x07 => decodeAtom w
      | 0x08 => decodeBr w
      | 0x09 => decodeJ w
      | 0x0A => decodeJr w
      | 0x0B => decodeQueue w
      | 0x0C => decodeSysrw w
      | 0x0D => decodeSys w
      | 0x0E => decodeEng w
      | 0x0F => decodePlat w
      | 0x10 => decodeSetl w
      | 0x1D => decodeSparse w
      | _ =>
        match decodeForm maj w with
        | .error e => .error e
        | .ok f =>
          match formInstr w.ext f with
          | some i => .ok i
          | none => unassigned

/-! ### The encoder -/

/-- One word. -/
def enc1 (w0 : W32) : Option (List W32) := some [w0]
/-- Word 0 with a literal (R54). -/
def encLit (w0 : W32) (l : W64) : Option (List W32) := some [w0, l.extractLsb' 0 32, l.extractLsb' 32 32]
/-- Word 0 with extended words. -/
def encExt (w0 w1 w2 : W32) : Option (List W32) := some [w0, w1, w2]

/-- F9 of SALU (R62). -/
def f9Salu (w : Bool) (f : BitVec 5) : BitVec 9 := BitVec.ofBool w ++ 0#3 ++ f
/-- F9 of most S majors: variant and function (R62). -/
def f9Of (var : BitVec 3) (f : BitVec 6) : BitVec 9 := var ++ f
/-- F9 of ATOM (R62). -/
def f9Atom (sc : Scope) (o : Order) (d : Bool) (f : BitVec 4) : BitVec 9 := sc.bits ++ o.bits ++ BitVec.ofBool d ++ f
/-- The variant of `WAITA`: scope and `.to` (R169). -/
def varWait (sc : Scope) (tmo : Bool) : BitVec 3 := sc.bits ++ BitVec.ofBool tmo
/-- A variant with F9[6] alone. -/
def varBit (b : Bool) : BitVec 3 := 0#2 ++ BitVec.ofBool b
/-- A 3-bit number in a register field. -/
def reg3 (n : BitVec 3) : Reg := 0#2 ++ n
/-- Word 1 of major 0x1C (R248). -/
def rowWord (row0 : BitVec 3) (aJ aT : BitVec 4) (vX : Spec) (m : BitVec 4) : W32 := 0#10 ++ row0 ++ aJ ++ aT ++ vX ++ m
/-- Word 2 that holds two registers alone (R139, R264). -/
def regWord (xs2 xs : Reg) : W32 := 0#3 ++ xs2 ++ xs ++ 0#19
/-- Words of a vector memory instruction (R188). -/
def encMem (f3 : BitVec 3) (o : VOp) (m : MemOp) (rnd : BitVec 3) (fx : BitVec 8) : Option (List W32) :=
  let x := m.ext rnd fx
  match m.disp with
  | none => some [packV f3 o 0x12 2, packX1 x, packX2 x]
  | some d => some [packV f3 o 0x12 3, packX1 x, packX2 x, d.extractLsb' 0 32, d.extractLsb' 32 32]
/-- Words of a function of a vector major without extended words. -/
def encBase (maj : BitVec 6) (f3 : BitVec 3) (o : VOp) : Option (List W32) := enc1 (packV f3 o maj 0)
/-- Words of a function of a vector major with extended words. -/
def encVx (maj : BitVec 6) (f3 : BitVec 3) (o : VOp) (x : Ext) : Option (List W32) :=
  encExt (packV f3 o maj 2) (packX1 x) (packX2 x)

/-- The words of an instruction, from the encoding table of its entry; none for an event, which has no encoding. -/
def encode (i : Instr) : Option (List W32) :=
  match i with
  | .add w rd a b => enc1 (packS (f9Salu w 0) b a rd 0x01 0)
  | .sub w rd a b => enc1 (packS (f9Salu w 1) b a rd 0x01 0)
  | .and w rd a b => enc1 (packS (f9Salu w 2) b a rd 0x01 0)
  | .or w rd a b => enc1 (packS (f9Salu w 3) b a rd 0x01 0)
  | .xor w rd a b => enc1 (packS (f9Salu w 4) b a rd 0x01 0)
  | .sll w rd a b => enc1 (packS (f9Salu w 5) b a rd 0x01 0)
  | .srl w rd a b => enc1 (packS (f9Salu w 6) b a rd 0x01 0)
  | .sra w rd a b => enc1 (packS (f9Salu w 7) b a rd 0x01 0)
  | .mul w rd a b => enc1 (packS (f9Salu w 8) b a rd 0x01 0)
  | .mulh rd a b => enc1 (packS (f9Salu false 9) b a rd 0x01 0)
  | .mulhu rd a b => enc1 (packS (f9Salu false 10) b a rd 0x01 0)
  | .div w rd a b => enc1 (packS (f9Salu w 11) b a rd 0x01 0)
  | .divu w rd a b => enc1 (packS (f9Salu w 12) b a rd 0x01 0)
  | .rem w rd a b => enc1 (packS (f9Salu w 13) b a rd 0x01 0)
  | .remu w rd a b => enc1 (packS (f9Salu w 14) b a rd 0x01 0)
  | .min rd a b => enc1 (packS (f9Salu false 15) b a rd 0x01 0)
  | .max rd a b => enc1 (packS (f9Salu false 16) b a rd 0x01 0)
  | .minu rd a b => enc1 (packS (f9Salu false 17) b a rd 0x01 0)
  | .maxu rd a b => enc1 (packS (f9Salu false 18) b a rd 0x01 0)
  | .slt rd a b => enc1 (packS (f9Salu false 19) b a rd 0x01 0)
  | .sltu rd a b => enc1 (packS (f9Salu false 20) b a rd 0x01 0)
  | .clz rd a => enc1 (packS (f9Salu false 21) 0 a rd 0x01 0)
  | .ctz rd a => enc1 (packS (f9Salu false 22) 0 a rd 0x01 0)
  | .popc rd a => enc1 (packS (f9Salu false 23) 0 a rd 0x01 0)
  | .rol rd a b => enc1 (packS (f9Salu false 24) b a rd 0x01 0)
  | .ror rd a b => enc1 (packS (f9Salu false 25) b a rd 0x01 0)
  | .addi rd a imm => enc1 (packI imm 0 a rd 0x02 0)
  | .addiLit rd a l => encLit (packI 0 0 a rd 0x02 1) l
  | .andi rd a imm => enc1 (packI imm 1 a rd 0x02 0)
  | .andiLit rd a l => encLit (packI 0 1 a rd 0x02 1) l
  | .ori rd a imm => enc1 (packI imm 2 a rd 0x02 0)
  | .oriLit rd a l => encLit (packI 0 2 a rd 0x02 1) l
  | .xori rd a imm => enc1 (packI imm 3 a rd 0x02 0)
  | .xoriLit rd a l => encLit (packI 0 3 a rd 0x02 1) l
  | .slti rd a imm => enc1 (packI imm 4 a rd 0x02 0)
  | .sltiLit rd a l => encLit (packI 0 4 a rd 0x02 1) l
  | .sltiu rd a imm => enc1 (packI imm 5 a rd 0x02 0)
  | .sltiuLit rd a l => encLit (packI 0 5 a rd 0x02 1) l
  | .addpc rd imm => enc1 (packI imm 7 0 rd 0x02 0)
  | .addpcLit rd l => encLit (packI 0 7 0 rd 0x02 1) l
  | .slli rd a sh => enc1 (packI (0#5 ++ sh) 0 a rd 0x03 0)
  | .srli rd a sh => enc1 (packI (0#5 ++ sh) 1 a rd 0x03 0)
  | .srai rd a sh => enc1 (packI (0#5 ++ sh) 2 a rd 0x03 0)
  | .ldi rd imm => enc1 (packI imm 3 0 rd 0x03 0)
  | .ldiLit rd l => encLit (packI 0 3 0 rd 0x03 1) l
  | .roli rd a sh => enc1 (packI (0#5 ++ sh) 4 a rd 0x03 0)
  | .fadd p rd a b => enc1 (packS (f9Of p.bits 0) b a rd 0x04 0)
  | .fsub p rd a b => enc1 (packS (f9Of p.bits 1) b a rd 0x04 0)
  | .fmul p rd a b => enc1 (packS (f9Of p.bits 2) b a rd 0x04 0)
  | .fdiv p rd a b => enc1 (packS (f9Of p.bits 3) b a rd 0x04 0)
  | .fsqrt p rd a => enc1 (packS (f9Of p.bits 4) 0 a rd 0x04 0)
  | .fmin p rd a b => enc1 (packS (f9Of p.bits 5) b a rd 0x04 0)
  | .fmax p rd a b => enc1 (packS (f9Of p.bits 6) b a rd 0x04 0)
  | .fma p rd a b => enc1 (packS (f9Of p.bits 7) b a rd 0x04 0)
  | .fnma p rd a b => enc1 (packS (f9Of p.bits 8) b a rd 0x04 0)
  | .feq p rd a b => enc1 (packS (f9Of p.bits 9) b a rd 0x04 0)
  | .flt p rd a b => enc1 (packS (f9Of p.bits 10) b a rd 0x04 0)
  | .fle p rd a b => enc1 (packS (f9Of p.bits 11) b a rd 0x04 0)
  | .ftole p rd a b => enc1 (packS (f9Of p.bits 12) b a rd 0x04 0)
  | .fcvti p c rd a => enc1 (packS (f9Of p.bits 13) c.bits a rd 0x04 0)
  | .icvtf p c rd a => enc1 (packS (f9Of p.bits 14) c.bits a rd 0x04 0)
  | .fcvtf p src rd a => enc1 (packS (f9Of p.bits 15) (0#2 ++ src.bits) a rd 0x04 0)
  | .fclass p rd a => enc1 (packS (f9Of p.bits 16) 0 a rd 0x04 0)
  | .ld z rd a imm => enc1 (packI imm z.bits a rd 0x05 0)
  | .ldLit z rd a l => encLit (packI 0 z.bits a rd 0x05 1) l
  | .st z rs a imm => enc1 (packI imm z.bits a rs 0x06 0)
  | .stLit z rs a l => encLit (packI 0 z.bits a rs 0x06 1) l
  | .lda sc d rd a => enc1 (packS (f9Atom sc .aq d 0) 0 a rd 0x07 0)
  | .stl sc d a b => enc1 (packS (f9Atom sc .rl d 1) b a 0 0x07 0)
  | .amoAdd sc o d rd a b => enc1 (packS (f9Atom sc o d 2) b a rd 0x07 0)
  | .amoAnd sc o d rd a b => enc1 (packS (f9Atom sc o d 3) b a rd 0x07 0)
  | .amoOr sc o d rd a b => enc1 (packS (f9Atom sc o d 4) b a rd 0x07 0)
  | .amoXor sc o d rd a b => enc1 (packS (f9Atom sc o d 5) b a rd 0x07 0)
  | .amoMin sc o d rd a b => enc1 (packS (f9Atom sc o d 6) b a rd 0x07 0)
  | .amoMax sc o d rd a b => enc1 (packS (f9Atom sc o d 7) b a rd 0x07 0)
  | .amoMinu sc o d rd a b => enc1 (packS (f9Atom sc o d 8) b a rd 0x07 0)
  | .amoMaxu sc o d rd a b => enc1 (packS (f9Atom sc o d 9) b a rd 0x07 0)
  | .amoSwap sc o d rd a b => enc1 (packS (f9Atom sc o d 10) b a rd 0x07 0)
  | .amoFadd32 sc o rd a b => enc1 (packS (f9Atom sc o false 11) b a rd 0x07 0)
  | .cas sc o d rd a b => enc1 (packS (f9Atom sc o d 12) b a rd 0x07 0)
  | .br c a b off => enc1 (packI off c.bits b a 0x08 0)
  | .brLit c a b l => encLit (packI 0 c.bits b a 0x08 1) l
  | .j rd off => enc1 (packJ off rd 0x09 0)
  | .jLit rd l => encLit (packJ 0 rd 0x09 1) l
  | .jr rd a imm => enc1 (packI imm 0 a rd 0x0A 0)
  | .jrLit rd a l => encLit (packI 0 0 a rd 0x0A 1) l
  | .brq n off => enc1 (packI off 1 0 (0#4 ++ BitVec.ofBool n) 0x0A 0)
  | .brqLit n l => encLit (packI 0 1 0 (0#4 ++ BitVec.ofBool n) 0x0A 1) l
  | .qsend q rs => enc1 (packS (f9Of 0 0) (reg3 q) rs 0 0x0B 0)
  | .qrecv rd q => enc1 (packS (f9Of 0 1) (reg3 q) 0 rd 0x0B 0)
  | .qsendb q rs => enc1 (packS (f9Of 0 2) (reg3 q) rs 0 0x0B 0)
  | .qcnt rd q => enc1 (packS (f9Of 0 3) (reg3 q) 0 rd 0x0B 0)
  | .sysr rd reg => enc1 (packI reg 0 0 rd 0x0C 0)
  | .sysw reg rs => enc1 (packI reg 1 rs 0 0x0C 0)
  | .vtypeWrite rs => enc1 (packI 0x000 1 rs 0 0x0C 0)
  | .vstartWrite rs => enc1 (packI 0x003 1 rs 0 0x0C 0)
  | .vfcntWrite rs => enc1 (packI 0x004 1 rs 0 0x0C 0)
  | .vstatusWrite rs => enc1 (packI 0x005 1 rs 0 0x0C 0)
  | .vstatusRead rd => enc1 (packI 0x005 0 0 rd 0x0C 0)
  | .vstartRead rd => enc1 (packI 0x003 0 0 rd 0x0C 0)
  | .vfcntRead rd => enc1 (packI 0x004 0 0 rd 0x0C 0)
  | .frset n rs => enc1 (packI (0x20#8 ++ n) 1 rs 0 0x0C 0)
  | .tstatusWrite rs => enc1 (packI 0x015 1 rs 0 0x0C 0)
  | .nop => enc1 (packS (f9Of 0 0) 0 0 0 0x0D 0)
  | .trap a => enc1 (packS (f9Of 0 1) 0 a 0 0x0D 0)
  | .tret => enc1 (packS (f9Of 0 2) 0 0 0 0x0D 0)
  | .exit => enc1 (packS (f9Of 0 3) 0 0 0 0x0D 0)
  | .bar => enc1 (packS (f9Of 0 4) 0 0 0 0x0D 0)
  | .waitaEq sc tmo rd a b => enc1 (packS (f9Of (varWait sc tmo) 5) b a rd 0x0D 0)
  | .waitaNe sc tmo rd a b => enc1 (packS (f9Of (varWait sc tmo) 6) b a rd 0x0D 0)
  | .waitaGeu sc tmo rd a b => enc1 (packS (f9Of (varWait sc tmo) 7) b a rd 0x0D 0)
  | .fence sc => enc1 (packS (f9Of 0 8) (0#3 ++ sc.bits) 0 0 0x0D 0)
  | .vfence => enc1 (packS (f9Of 0 9) 0 0 0 0x0D 0)
  | .ifence => enc1 (packS (f9Of 0 10) 0 0 0 0x0D 0)
  | .vmfence a => enc1 (packS (f9Of 0 11) 0 a 0 0x0D 0)
  | .lnch rd a => enc1 (packS (f9Of 0 12) 0 a rd 0x0D 0)
  | .enqCopy dev rd a => enc1 (packS (f9Of (varBit dev) 0) (reg3 0) a rd 0x0E 0)
  | .enqNet dev rd a => enc1 (packS (f9Of (varBit dev) 0) (reg3 4) a rd 0x0E 0)
  | .deq t rd e => enc1 (packS (f9Of (varBit t) 1) (reg3 e) 0 rd 0x0E 0)
  | .cpw n rs => enc1 (packS (f9Of 0 2) (reg3 n) rs 0 0x0E 0)
  | .cpgo dev rd => enc1 (packS (f9Of (varBit dev) 3) 0 0 rd 0x0E 0)
  | .cpcan rd a => enc1 (packS (f9Of 0 4) 0 a rd 0x0E 0)
  | .cpr rd n => enc1 (packS (f9Of 0 5) (reg3 n) 0 rd 0x0E 0)
  | .coefld t rs => enc1 (packS (f9Of 0 6) t rs 0 0x0E 0)
  | .platmk rd xh xi xn xb iw lsz => encExt (packS (f9Of 0 0) xi xh rd 0x0F 2) (0#23 ++ BitVec.ofBool iw ++ 0#4 ++ lsz) (regWord xb xn)
  | .platg dev rd xh xd xm xv => encExt (packS (f9Of (varBit dev) 1) xd xh rd 0x0F 2) 0 (regWord xv xm)
  | .plats dev op ty pl xpl rd xh xs xm xv => encExt (packS (f9Of (varBit dev) 2) xs xh rd 0x0F 2)
    (0#18 ++ BitVec.ofBool pl ++ xpl ++ ty.bits ++ op.bits) (regWord xv xm)
  | .platco rd xc xa xb => encExt (packS (f9Of 0 3) xa xc rd 0x0F 2) 0 (regWord 0 xb)
  | .platck rd xh => encExt (packS (f9Of 0 4) 0 xh rd 0x0F 2) 0 0
  | .platrl xh => encExt (packS (f9Of 0 5) 0 xh 0 0x0F 2) 0 0
  | .setl rd a b vt => some [packS 0 b a rd 0x10 1, vt, 0]
  | .vpf od vs1 => encBase 0x11 0 { vd := od, vs1 := vs1, vs2 := 0 }
  | .vpfExt od vs1 => encVx 0x11 0 { vd := od, vs1 := vs1, vs2 := 0 } .base
  | .vld vd m => encMem 0 { vd := vd, vs1 := 0, vs2 := 0 } m 7 0
  | .vlds vd m => encMem 1 { vd := vd, vs1 := 0, vs2 := 0 } m 7 0
  | .vst vs1 m => encMem 2 { vd := 0, vs1 := vs1, vs2 := 0 } m 7 0
  | .vsts vs1 m => encMem 3 { vd := 0, vs1 := vs1, vs2 := 0 } m 7 0
  | .vld2d vd m => encMem 4 { vd := vd, vs1 := 0, vs2 := 0 } m 7 0
  | .vst2d vs1 m => encMem 5 { vd := 0, vs1 := vs1, vs2 := 0 } m 7 0
  | .vldp vd m => encMem 6 { vd := vd, vs1 := 0, vs2 := 0 } m 7 0
  | .vstp vs1 m rnd op => encMem 7 { vd := 0, vs1 := vs1, vs2 := 0 } m rnd op.fx
  | .vadd o => encBase 0x13 0 o
  | .vaddExt o x => encVx 0x13 0 o x
  | .vsub o => encBase 0x13 1 o
  | .vsubExt o x => encVx 0x13 1 o x
  | .vmul o => encBase 0x13 2 o
  | .vmulExt o x => encVx 0x13 2 o x
  | .vmulh o => encBase 0x13 3 o
  | .vmulhExt o x => encVx 0x13 3 o x
  | .vand o => encBase 0x13 4 o
  | .vandExt o x => encVx 0x13 4 o x
  | .vor o => encBase 0x13 5 o
  | .vorExt o x => encVx 0x13 5 o x
  | .vxor o => encBase 0x13 6 o
  | .vxorExt o x => encVx 0x13 6 o x
  | .vmin o => encBase 0x13 7 o
  | .vminExt o x => encVx 0x13 7 o x
  | .vmax o => encBase 0x14 0 o
  | .vmaxExt o x => encVx 0x14 0 o x
  | .vsll o => encBase 0x14 1 o
  | .vsllExt o x => encVx 0x14 1 o x
  | .vsrl o => encBase 0x14 2 o
  | .vsrlExt o x => encVx 0x14 2 o x
  | .vsra o => encBase 0x14 3 o
  | .vsraExt o x => encVx 0x14 3 o x
  | .vadds o => encBase 0x14 4 o
  | .vaddsExt o x => encVx 0x14 4 o x
  | .vsubs o => encBase 0x14 5 o
  | .vsubsExt o x => encVx 0x14 5 o x
  | .vmac o => encBase 0x14 6 o
  | .vmacExt o x => encVx 0x14 6 o x
  | .vabsd o => encBase 0x14 7 o
  | .vabsdExt o x => encVx 0x14 7 o x
  | .vfadd o => encBase 0x15 0 o
  | .vfaddExt o x => encVx 0x15 0 o x
  | .vfsub o => encBase 0x15 1 o
  | .vfsubExt o x => encVx 0x15 1 o x
  | .vfmul o => encBase 0x15 2 o
  | .vfmulExt o x => encVx 0x15 2 o x
  | .vfma o x => encVx 0x15 3 o x
  | .vfdiv o => encBase 0x15 4 o
  | .vfdivExt o x => encVx 0x15 4 o x
  | .vfsqrt o => encBase 0x15 5 o
  | .vfsqrtExt o x => encVx 0x15 5 o x
  | .vfmin o => encBase 0x15 6 o
  | .vfminExt o x => encVx 0x15 6 o x
  | .vfmax o => encBase 0x15 7 o
  | .vfmaxExt o x => encVx 0x15 7 o x
  | .vfsgn o => encBase 0x16 0 o
  | .vfsgnExt o x => encVx 0x16 0 o x
  | .vfscl o => encBase 0x16 1 o
  | .vfsclExt o x => encVx 0x16 1 o x
  | .vfcls o => encBase 0x16 2 o
  | .vfclsExt o x => encVx 0x16 2 o x
  | .vpoly o => encBase 0x16 3 o
  | .vpolyExt o x => encVx 0x16 3 o x
  | .vtwos o => encBase 0x16 4 o
  | .vtwosExt o x => encVx 0x16 4 o x
  | .vcmp o => encBase 0x17 0 o
  | .vcmpExt o x => encVx 0x17 0 o x
  | .vfcmp o => encBase 0x17 1 o
  | .vfcmpExt o x => encVx 0x17 1 o x
  | .plog o => encBase 0x17 2 o
  | .plogExt o x => encVx 0x17 2 o x
  | .pset o x => encVx 0x17 3 o x
  | .pcnt o x => encVx 0x17 4 o x
  | .pfirst o x => encVx 0x17 5 o x
  | .vsel o => encBase 0x17 6 o
  | .vselExt o x => encVx 0x17 6 o x
  | .vcvt o => encBase 0x18 0 o
  | .vcvtExt o x => encVx 0x18 0 o x
  | .qnt o x => encVx 0x18 1 o x
  | .qnte o x => encVx 0x18 2 o x
  | .dqnt o x => encVx 0x18 3 o x
  | .vmv o => encBase 0x19 0 o
  | .vmvExt o x => encVx 0x19 0 o x
  | .vbcast o x => encVx 0x19 1 o x
  | .vext o x => encVx 0x19 2 o x
  | .vins o x => encVx 0x19 3 o x
  | .vslup o x => encVx 0x19 4 o x
  | .vsldn o x => encVx 0x19 5 o x
  | .vperm o => encBase 0x19 6 o
  | .vpermExt o x => encVx 0x19 6 o x
  | .vtrn o => encBase 0x19 7 o
  | .vtrnExt o x => encVx 0x19 7 o x
  | .vredsum o => encBase 0x1A 0 o
  | .vredsumExt o x => encVx 0x1A 0 o x
  | .vredmax o => encBase 0x1A 1 o
  | .vredmaxExt o x => encVx 0x1A 1 o x
  | .vredmin o => encBase 0x1A 2 o
  | .vredminExt o x => encVx 0x1A 2 o x
  | .vredcs o => encBase 0x1A 3 o
  | .vredcsExt o x => encVx 0x1A 3 o x
  | .vscan o x => encVx 0x1A 4 o x
  | .vcomp o => encBase 0x1A 5 o
  | .vcompExt o x => encVx 0x1A 5 o x
  | .vdig o x => encVx 0x1A 6 o x
  | .mma o x => encVx 0x1B 0 o x
  | .bld o x => encVx 0x1B 1 o x
  | .azero o x => encVx 0x1B 2 o x
  | .ard o x => encVx 0x1B 3 o x
  | .awr o x => encVx 0x1B 4 o x
  | .eptk o x => encVx 0x1B 5 o x
  | .bslotPin s => encVx 0x1B 6 { vd := 0, vs1 := 0, vs2 := s } { Ext.base with fx := 0 }
  | .bslotUnpin s => encVx 0x1B 6 { vd := 0, vs1 := 0, vs2 := s } { Ext.base with fx := 1 }
  | .bslotRelease s => encVx 0x1B 6 { vd := 0, vs1 := 0, vs2 := s } { Ext.base with fx := 2 }
  | .bslotQuery rd s => encVx 0x1B 6 { vd := 0, vs1 := 0, vs2 := s } { Ext.base with fx := 3, xs2 := rd }
  | .rmbind rd a m => encExt (packS (f9Of 0 0) 0 a rd 0x1C 2) (rowWord 0 0 0 0 m) 0
  | .rmbindUnbind m => encExt (packS (f9Of (varBit true) 0) 0 0 0 0x1C 2) (rowWord 0 0 0 0 m) 0
  | .rmfire vX m => encExt (packS (f9Of 0 1) 0 0 0 0x1C 2) (rowWord 0 0 0 vX m) 0
  | .rmmul ad aT aJ vX m r => encExt (packS (f9Of (varBit ad) 2) 0 0 0 0x1C 2) (rowWord r aJ aT vX m) 0
  | .rmjoin aT aJ => encExt (packS (f9Of 0 3) 0 0 0 0x1C 2) (rowWord 0 aJ aT 0 0) 0
  | .rmmig rd m => encExt (packS (f9Of 0 4) 0 0 rd 0x1C 2) (rowWord 0 0 0 0 m) 0
  | .rmage m => encExt (packS (f9Of 0 5) 0 0 0 0x1C 2) (rowWord 0 0 0 0 m) 0
  | .rmqry rd m => encExt (packS (f9Of 0 6) 0 0 rd 0x1C 2) (rowWord 0 0 0 0 m) 0
  | .sphdr full rd a => encExt (packS (f9Of (varBit full) 0) 0 a rd 0x1D 2) 0 0
  | .spcnt kz rd a b xs xs2 => encExt (packS (f9Of 0 1) b a rd 0x1D 2) (0#31 ++ BitVec.ofBool kz) (regWord xs2 xs)
  | .spmrg kz rd a b xs xs2 => encExt (packS (f9Of 0 2) b a rd 0x1D 2) (0#31 ++ BitVec.ofBool kz) (regWord xs2 xs)
  | .aspaceWrite .. | .vlcapWrite .. | .pwrlimWrite .. | .stkrefWrite .. | .stkeccWrite .. | .waitaWake .. | .waitaTimeout ..
  | .copyStart | .copyComplete .. | .copyFault .. | .engineFaultTrap .. | .platOpStart | .platGatherComplete ..
  | .platScatterComplete .. | .viqCommit .. | .wcbDrain | .matrixEngineTurn | .mmaAccumulate | .deepPartArrival ..
  | .preemptRequest | .quantumExpiry .. | .strandResume .. | .matrixStateSave | .budgetExhausted .. | .taskRerun ..
  | .supervisorRetry .. | .supervisorForward .. | .supervisorKill .. | .teamDispatch .. | .preload | .teamRetire ..
  | .waveFence .. | .launchComplete .. | .coalesceWindowExpiry .. | .netComplete .. | .stackCriticalTemp ..
  | .criticalTempDeassert .. | .selfRefreshExit .. | .stackHoldEvent .. | .stackRetire .. | .generatorReseed ..
  | .deviceReset | .readinessChange .. | .sessionOpen .. | .launchSubmit .. | .endpointReg .. | .windowReg ..
  | .readinessQuery .. | .spdm .. | .fwUpdate .. | .spaceSet .. | .vmapSet .. | .uetWrite .. | .uetRead .. | .uetAtomic ..
  | .inboundUudDrop | .resolveVmapAbsent .. | .connectionSetup .. | .unknownKind .. => none

/-- Whether a row is an event of the part, which no word encodes. -/
def Instr.isEvent (i : Instr) : Bool := (encode i).isNone

/-! ### The opcode table's words -/

/-- The 32-bit words of a number, least significant first. -/
def wordsOf (w : Nat) : Nat → List W32
  | 0 => []
  | n + 1 => BitVec.ofNat 32 w :: wordsOf (w / 2 ^ 32) n

/-- The instruction the decoder reads from an instruction whose bits are w, numbered as spec/opcode_table.json numbers them: word 0
in bits 31 to 0, later words above it, every bit at or above nbits zero. -/
noncomputable def decodeTableWord (nbits w : Nat) : Option Instr :=
  let v := w % 2 ^ nbits
  match decode (wordsOf v (wordCount (BitVec.ofNat 32 v))) with
  | .ok i => some i
  | .error _ => none

end Sys2Proof
end

