-- ==== Sys2Proof/Config.lean ====
section
/-! DEFINITION. What the spec leaves free: constants without a body, applied to a plain counter (the state's tick) or to the
operands they depend on. Nothing in Lean can evaluate one, so whatever is proved holds for every value (log entries 7 to 17). -/

namespace Sys2Proof.Config

/-- Core cycles that pass in one step (R23, R350: timing is not modelled; log 7). -/
opaque elapsed : Nat → W64

/-- Whether a vector instruction issues in the issue group of the ones that committed before it (R177 names groups of up to 3 and does
not say which instructions form one; log 10): tick. -/
opaque joins : Nat → Bool

/-- The silicon stepping, bits [7:0] of `IVER` (R350 gives no value; log 8). -/
opaque stepping : Byte

/-- The size of a plat's body, which the model bounds as R124 does (R124; log 13): tick. -/
opaque platBodyLen : Nat → Nat

/-- A byte of a plat's body, whose layout is implementation-defined (R128; log 13): tick and offset. -/
opaque platBody : Nat → Nat → Byte

/-- An element, a scale byte or a list entry of a B slot after `BSLOT.release` (R233: undefined; log 14): tick and index. -/
opaque slotData : Nat → Nat → BitVec 16

/-- A scale byte of a released slot (R233; log 14). -/
opaque slotScale : Nat → Nat → Byte

/-- An outlier value of a released slot (R233; log 14): whether an entry exists at an index, and its bits. -/
opaque slotOutlier : Nat → Nat → Option (BitVec 64)

/-- `TVAL` of a trap whose entry states none (R214: `COEFLD` in a D-mode launch; log 21): tick. -/
opaque openTval : Nat → W64

/-- The digest of closure regions that the supervisor cannot read (R331 does not say; log 31): tick. -/
opaque openDigest : Nat → W64

/-- When a strip of a `REDUCE_UNORDERED` finishes (R156; log 15): tick and strip; the strips combine in rising order of this rank. -/
opaque stripRank : Nat → Nat → Nat

/-- The segment that `VPOLY` takes where q is a NaN (R98 states none; log 22): x, and the table's x0, w and 1/w. -/
opaque polySegment : Nat → Nat → Nat → Nat → Nat

/-- An element that a replicate modifier reads beyond the end of its row (R66; log 23): the row, the column and the width. -/
opaque beyondRow : BitVec 8192 → Nat → Nat → Nat

/-- Whether an escaped activation fires in `RMFIRE` (R238 and R251 do not say; log 25): tick, token row and column. -/
opaque escapeFires : Nat → Nat → Nat → Bool

/-- A value of the part's hardware random source (R105; log 17). -/
opaque randomSeed : Nat → W64

/-- Whether a firmware image's Falcon-1024 signature verifies (R368; log 11). -/
opaque imageSigned : List Byte → Bool

/-- The reply bytes of an SPDM exchange that reports no measurement, which SPDM 1.3 lays out and this manual does not (R367; log 11): tick. -/
opaque spdmReply : Nat → List Byte

/-- What SPDM 1.3 puts before the hash of a measurement in its report (R367; log 11): tick. -/
opaque spdmHead : Nat → List Byte

/-- What SPDM 1.3 puts behind the hash of a measurement, its signature among it (R367; log 11): tick. -/
opaque spdmTail : Nat → List Byte

/-- The measured content of an index that the part holds outside the module's state (R367; log 11): index and the step of its last change. -/
opaque measuredItem : Nat → Nat → List Byte

/-- Whether an edit of a vector-map entry, a leaf or a window stays within the attested address-map policy (R111: the policy's
ranges are not given; log 18): the step of the policy's last change, the address space, and the entry or base. -/
opaque withinPolicy : Nat → Nat → W64 → Bool

/-- Whether the supervisor can reserve a drain log or a closure snapshot of a size (R312, NO_SPACE; log 20): tick and bytes. -/
opaque spaceFor : Nat → Nat → Bool

end Sys2Proof.Config
end

