-- ==== Sys2Proof/Machine/State.lean ====
section
/-! DEFINITION. The state of the machine as plain data: the cores of the Uluzil Z7, of which one is active at a time, the memory, the
scheduler, the supervisor and the network (INVENTORY.md, heading State), with the state after device reset. -/

namespace Sys2Proof.Machine

/-- A table of words by key, kept sorted by key with no entry equal to zero, so that equal tables are equal lists. An unlisted
key reads as zero (log 2 for memory). -/
abbrev Tab (w : Nat) := List (Nat × BitVec w)

/-- One row of a vector register (R170). -/
abbrev Row := BitVec 8192

/-- The bits of a predicate register (R171). -/
abbrev Pred := BitVec 32768

/-- An entry of an outlier list (R90, R91): position and FP32 bits. -/
structure OlEntry where
  pos : BitVec 32
  val : BitVec 32
  deriving DecidableEq, Repr

/-! ### Access rights -/

/-- On whose behalf an access is made: its address space, key slot and the bounds of its team's partition and arena. -/
structure Acc where
  asid : BitVec 12
  key  : BitVec 6
  spb  : Nat
  sps  : Nat
  plb  : Nat
  pls  : Nat
  deriving DecidableEq, Repr

/-! ### Streams -/

/-- The three conditions of `WAITA` (R169). -/
inductive WaitCond where
  | eq
  | ne
  | geu
  deriving DecidableEq, Repr

/-- What a `WAITA` that sleeps or waits for its word waits for (R169); `sent` is the step of the read that a held stack keeps. -/
structure WaitOp where
  cond  : WaitCond
  va    : W64
  val   : W64
  rd    : Reg
  timed : Bool
  sent  : Nat
  deriving DecidableEq, Repr

/-- A copy push: the eight shadow values with the scope of the push (R153, R155, R165). -/
structure CopyPush where
  src   : W64
  dst   : W64
  shape0 : W64
  shape1 : W64
  len   : W64
  mark  : W64
  mval  : W64
  fold  : W64
  dev   : Bool
  deriving DecidableEq, Repr

/-- Where a stream stands. `queue` is a block in a queue instruction (R273, R276), `asleep` a `WAITA`, `stackWait` a scalar load or an
atomic that has left the stream and that a held stack keeps, with its destination and the PC behind it (R107, R345), `waitRead` a read of a
`WAITA` that a held stack keeps, `poisonDue` a stream before an access that came back poisoned and that it traps on next (R103), `copyWait` and `platWait` a push that
waits for a channel or a queue slot (R155, R137), `hold` the wait of R198 for a scalar destination. A stream that waits for anything else
stays in `run` before its instruction. -/
inductive Status where
  | run
  | queue (q : Nat) (send : Bool)
  | asleep (w : WaitOp)
  | stackWait (n : Nat) (rd : Reg) (next : W64)
  | waitRead (n : Nat) (w : WaitOp)
  | poisonDue (va : W64)
  | copyWait
  | platWait
  | hold
  | ended
  | absent
  deriving DecidableEq, Repr

/-- A cached leaf of the Sv57 tables (R116): the VA page number at the leaf's level, the level and the leaf entry. -/
structure TlbEntry where
  vpn   : Nat
  level : Nat
  pte   : W64
  deriving DecidableEq, Repr

/-- An access that had left a stream when its strand took a trap, and that the saved context waits for (R108, R345): its destination and its
PC, then the value that has arrived, or the VA of the granule that was poisoned. -/
inductive Owed where
  | waiting (rd : Reg) (pc : W64)
  | value (rd : Reg) (v : W64)
  | poison (pc va : W64)
  deriving DecidableEq, Repr

/-- One instruction stream (R24, R269). `acq` is the step of its last acquire (R300), `owes` an access of it that a trap has left behind. -/
structure Stream where
  pc      : W64
  x       : Vector W64 32
  sfctl   : W64
  instret : W64
  status  : Status
  age     : Nat
  tlb     : List TlbEntry
  ibuf    : List (W64 × W32)
  acq     : Nat
  owes    : Option Owed
  deriving DecidableEq, Repr

/-! ### Strands -/

/-- An entry of the vector instruction queue with the operands it captured (R178, R344, R390). `words` are its words as
fetched, `vstart` the `VSTART` captured at enqueue; `begun` marks a vector memory instruction that has performed or faulted some elements, and
`restart` is then the element that it goes on from (R389); `ill` marks an entry of an edited
frame that fails the checks of R68, with the subcode it traps with at the VCP (R354). -/
structure VEntry where
  pc     : W64
  words  : List W32
  form   : VForm
  vtype  : W64
  vlr    : BitVec 5
  vlc    : BitVec 16
  xs     : W64
  xs2    : W64
  vstart : BitVec 16
  xscl   : W64
  xol    : W64
  begun  : Bool
  restart : BitVec 16
  ill    : Option Byte
  deriving DecidableEq, Repr

/-- The fault record of R192 as the frame holds it (R343): cause, up to 8 pages, more. -/
structure FaultRec where
  cause : Byte
  pages : List W64
  more  : Bool
  deriving DecidableEq, Repr

/-- The values a strand held when its trap was taken, which `TRET` compares with and restores (R354), and the fault mask, against which
the elements that the handler clears are known (R192), and the flags that a `VSTP` still owes (R79). -/
structure TrapEntry where
  vtype    : W64
  vlr      : BitVec 5
  vlc      : BitVec 16
  latshare : W64
  mask     : Pred
  skip     : Pred
  flags    : BitVec 5
  deriving DecidableEq, Repr

/-- Why a strand is halted: pre-empted (R345), waiting for its task to rerun (R325), or parked for the supervisor with its record (R339). -/
inductive Halt where
  | none
  | preempted
  | rerun
  | supervisor (cause : Byte) (tpc tval : W64) (vec : Bool) (k : StreamId)
  deriving DecidableEq, Repr

/-- The task bound to a strand (R314, R325). -/
structure Task where
  launch : BitVec 32
  team   : W64
  ix     : Nat
  reruns : Nat
  deriving DecidableEq, Repr

/-- A NET command in flight (R364); `landed` counts the bytes of a READ that have landed (R371). -/
structure NetOp where
  acc    : Acc
  slot   : Fin 16
  id     : BitVec 16
  op     : Byte
  mode   : Byte
  rec_   : Bool
  len    : Nat
  va     : W64
  dest   : BitVec 32
  offset : W64
  mark   : W64
  mval   : W64
  task   : Option Task
  landed : Nat
  deriving DecidableEq, Repr

/-- The register reads of one vector instruction (R177): its rows and the first registers of its vector-register sources. -/
structure BankUse where
  rows : Nat
  srcs : List Nat
  deriving DecidableEq, Repr

/-- One strand (R25, and the strand registers of R349). `cap` is the `VLCAP` that its last `SETL` used (R181), `group` the vector
instructions of its present issue group, oldest first (R177), `bad` the registers of its frame that hold poisoned data (R370): v0 to v63,
p0 to p15 from 64 on, and the rows that l0 and l1 have taken from them from 80 and from 96 on. `vflags` are the flags of the unique targets that the oldest entry, a `VSTP` that has begun, has performed, which it
ORs into `VSTATUS` when it commits (R79). `skip` marks the elements of the oldest vector store that a handler has cleared
from its fault mask (R192). `preDue` says that a pre-emption has been requested while the strand was halted for another reason (R357). -/
structure Strand where
  a : Stream
  e : Stream
  v : Vector Row 64
  p : Vector Pred 16
  o : Vector Row 8
  l0 : List Row
  l1 : List Row
  k : Vector (List OlEntry) 4
  fr : Vector W64 8
  q : Vector (List W64) 6
  q6 : List Bool
  q7 : List Bool
  viq : List VEntry
  vtype : W64
  vlc : BitVec 16
  vlr : BitVec 5
  vstart : W64
  mask : Pred
  skip : Pred
  vflags : BitVec 5
  frec : FaultRec
  vstatus : W64
  tcause : W64
  tpc : W64
  tval : W64
  tvec : W64
  tframe : W64
  tstatus : W64
  entry : TrapEntry
  wid : W64
  teamix : W64
  lnchid : W64
  lcore : W64
  platbase : W64
  platsize : W64
  spbase : W64
  spsize : W64
  latshare : W64
  vlcap : W64
  cap : W64
  group : List BankUse
  bad : List Nat
  bankser : W64
  dmode : W64
  aspace : W64
  shadow : Vector W64 8
  fifo : Vector (List W64) 5
  resv : Vector Nat 5
  pendFault : List W64
  netSeq : Vector (BitVec 12) 16
  net : List NetOp
  live : Bool
  barIn : Bool
  bars : Nat
  halt : Halt
  preDue : Bool
  task : Option Task
  deriving DecidableEq, Repr

/-! ### The matrix engine -/

/-- The class of a matrix operand (R217, R225). -/
inductive MClass where
  | narrow
  | int8
  | fp16
  | bf16
  deriving DecidableEq, Repr

/-- A B-store slot (R217). Element (k, j) of the tile is held under key j * 2048 + k, the scale code of column j and k-block q
under j * 128 + q. -/
structure Slot where
  loaded : Bool
  cls    : MClass
  sew    : BitVec 3
  fr     : W64
  kk     : Nat
  nn     : Nat
  pin    : Option (BitVec 32)
  rowmap : Bool
  src    : W64
  shape  : W64
  scl    : Option W64
  ol     : Option W64
  data   : Tab 16
  scales : Tab 8
  list   : List OlEntry
  deriving DecidableEq, Repr

/-- The epilogue state of one strand, by the task bound to it, tile and row (R231): depth and entries in decreasing rank. -/
structure EpiRow where
  task   : Option Task
  tile   : Nat
  row    : Nat
  depth  : Nat
  ents   : List (BitVec 32 × BitVec 32)
  deriving DecidableEq, Repr

/-- An accepted matrix or row instruction in the engine's queue with what it captured at acceptance (R218, R219, R226): the A
rows, the v63 row, the outlier list, and for a `BLD` the slot it has read; `steps` are the K steps that an `MMA` has done (R223). -/
structure MatEntry where
  strand : Fin 4
  task   : Option Task
  ent    : VEntry
  rows   : List Row
  scale  : Row
  list   : List OlEntry
  fr     : W64
  pred   : Pred
  slot   : Option Slot
  steps  : Nat
  deriving DecidableEq, Repr

/-- A bound row map (R236, R237). `list` holds C positions, `xl` the bind-time translations (page number, page frame).
The slot that it holds keeps element j of position p under j * 2048 + p, and its scale code under the same key. -/
structure RowMap where
  launch  : BitVec 32
  asid    : BitVec 12
  key     : Nat
  cls     : MClass
  sew     : BitVec 3
  slot    : Option Nat
  shift   : Nat
  kk      : Nat
  nn      : Nat
  margin  : Nat
  cap     : Nat
  fmt     : W64
  wa      : W64
  stride  : Nat
  scaleA  : W64
  countA  : W64
  listA   : W64
  deepA   : W64
  list    : List (Option Nat)
  stale   : List Bool
  pending : Tab 32
  gen     : W64
  sealKey : Option Nat
  fixed   : List Nat
  xl      : List (Nat × Nat)
  deriving DecidableEq, Repr

/-- A split product whose deep part is on its way or not yet joined (R252, R253): the instruction with what it captured, the map as it
stood at its turn, the deep rows, the flags of both parts, whether a deep read met a retired stack and whether the record of that has
been appended, the fault that its weights raise (poison, or a cleared key slot) with its VA, the `TVAL` of an invalid scale code that it has met;
`ready` once it has landed. -/
structure DeepPart where
  strand : Fin 4
  aT     : Nat
  aJ     : Nat
  row0   : Nat
  ent    : MatEntry
  map    : RowMap
  ks     : List Nat
  flagsR : BitVec 5
  flagsD : BitVec 5
  lost   : Bool
  told   : Bool
  fault  : Option (Byte × W64)
  code   : Option W64
  ready  : Bool
  deriving DecidableEq, Repr

/-- A core's matrix state: what R221 and R223 save and restore with its owning launch. -/
structure Matrix where
  owner   : Option (BitVec 32)
  tiles   : Tab 32
  slots   : Vector Slot 16
  epi     : List EpiRow
  mq      : List MatEntry
  deep    : List DeepPart
  maps    : Vector (Option RowMap) 16
  deriving DecidableEq, Repr

/-- A coefficient table image of 8,224 bytes (R49, R214), byte by byte. -/
abbrev CoefTable := Tab 8

/-! ### Engines -/

/-- A transfer in flight on a copy channel (R155, R156). `xl` are the vector-map entries of its space at the push (R113), with those
that the supervisor has installed for it since (R160); `refuse` says that the supervisor has declined to resolve a miss, `seq` numbers the push. -/
structure Copy where
  strand : Fin 4
  task   : Option Task
  acc    : Acc
  id     : BitVec 16
  push   : CopyPush
  xl     : List W64
  refuse : Bool
  deferred : Bool
  seq    : Nat
  deriving DecidableEq, Repr

/-- A copy channel (R155). -/
structure Channel where
  seq  : BitVec 12
  copy : Option Copy
  deriving DecidableEq, Repr

/-- A push waiting for a channel (R155): its strand, its destination register and its values. -/
structure CopyWait where
  strand : Fin 4
  rd     : Reg
  push   : CopyPush
  deriving DecidableEq, Repr

/-- A range of index bytes of a plat: physical start and length, within one page (R128, R129). -/
structure IdxRange where
  pa  : Nat
  len : Nat
  deriving DecidableEq, Repr

/-- A plat as the directory keeps it (R125, R127, R128): its handle, shape, indices, and for each element its target address, the PAs
of its bytes and whether its page permits writes; index ranges with their seals, generation, digest and staleness. -/
structure Plat where
  h        : Nat
  n        : Nat
  iw       : Bool
  lsz      : Nat
  base     : W64
  idx      : List W64
  ta       : List W64
  pas      : List (List Nat)
  wr       : List Bool
  ranges   : List (List IdxRange)
  gen      : W64
  composed : Bool
  verify   : Bool
  digest   : W64
  seals    : List (Option Nat)
  body     : Nat
  reason   : Byte
  released : Option Nat
  deriving DecidableEq, Repr

/-- A pushed `PLATG` or `PLATS` (R136, R137): the PAs of the bytes of its destination or source, of its squash list and of its mark;
`captured` counts the unique targets whose
contributions a deferred scatter has captured, `seq` numbers the push. -/
structure PlatOp where
  strand  : Fin 4
  task    : Option Task
  acc     : Acc
  opid    : BitVec 16
  scatter : Option (ScatOp × ScatType)
  plat    : Plat
  mem     : List Nat
  squash  : Option (List Nat)
  mark    : Option Nat
  mval    : W64
  deferred : Bool
  captured : Nat
  seq     : Nat
  deriving DecidableEq, Repr

/-- A push that waits for a slot of the plat queue (R137), with the values of its registers. -/
structure PlatReq where
  strand  : Fin 4
  rd      : Reg
  dev     : Bool
  scatter : Option (ScatOp × ScatType)
  h       : W64
  mem     : W64
  squash  : Option W64
  mark    : W64
  mval    : W64
  deriving DecidableEq, Repr

/-- A slot of the plat queue (R137). -/
structure PlatSlot where
  seq : BitVec 12
  op  : Option PlatOp
  deriving DecidableEq, Repr

/-- A seal (R129): `key` is its table times 4,096 plus its slot, where the table is the number of a core, or 256 plus the die of an
FI; and the physical range. -/
structure Seal where
  key : Nat
  pa  : Nat
  len : Nat
  deriving DecidableEq, Repr

/-- One byte write that the write-combining buffer holds (R299): whose it is, its address, its value, its key, a mask of its bits for
4-bit elements, and the step at which it entered. -/
structure WcbEntry where
  strand : Fin 4
  task : Option Task
  pa   : Nat
  byte : Byte
  bits : Byte
  key  : Nat
  at_  : Nat
  deriving DecidableEq, Repr

/-- One held byte write of a D-mode wave (R304, R306): the task and stream that stored it, address, value, the bits it writes,
and whether a `VFENCE` has published it to the team. -/
structure Held where
  task   : Task
  strand : Fin 4
  stream : StreamId
  pa     : Nat
  byte   : Byte
  bits   : Byte
  key    : Nat
  pub    : Bool
  deriving DecidableEq, Repr

/-- A deferred scatter or copy of a D-mode wave (R138, R161), in push order. A copy holds its source bytes, each with whether it was
poisoned, and a scatter the bytes of its source elements and its squash list. -/
inductive Deferred where
  | scatter (op : PlatOp) (src : List (List (Byte × Bool))) (squash : List Bool)
  | copy (c : Copy) (bytes : List (Byte × Bool))
  deriving DecidableEq, Repr

/-! ### Teams and launches -/

/-- A resident team (R314, R317): its core; `base` and `arena` are the scratchpad offsets of its partition and its plat arena; `lines`
and `ops` are what R386 charges to it: held lines, and deferred operations with their charges. -/
structure Team where
  launch  : BitVec 32
  team    : W64
  core    : Nat
  strands : List (Fin 4)
  base    : Nat
  arena   : Nat
  plats   : List Plat
  relSeq  : Nat
  lines   : List (Task × StreamId × Nat)
  ops     : List (Task × Nat)
  deriving DecidableEq, Repr

/-- The launch header's fields (R311). -/
structure Header where
  flags    : Byte
  priority : Nat
  policy   : Byte
  eEntry   : W64
  aEntry   : W64
  n        : W64
  widths   : List Nat
  tLevel   : Nat
  gLevel   : Nat
  args     : W64
  scratch  : Nat
  arena    : Nat
  budget   : W64
  handler  : W64
  coef     : W64
  pre0     : BitVec 32
  pre1     : BitVec 32
  mark     : W64
  mval     : W64
  endpoint : BitVec 32
  cls      : Nat
  closure  : W64
  drain    : Nat
  deriving DecidableEq, Repr

/-- An entry of the closure region list (R330). -/
structure Region where
  va  : W64
  out : Bool
  len : Nat
  deriving DecidableEq, Repr

/-- Where a launch stands (R318, R319, R327). -/
inductive Phase where
  | waiting
  | queued
  | running
  | ending (status : Byte)
  | complete (status : Byte)
  deriving DecidableEq, Repr

/-- A launch the scheduler has accepted (R311 to R331). `nextTeam` is the next team to dispatch, `wave` the wave now running, `bound`
the logical cores with the cores that they are bound to (R316), `groups` the die groups with their dies (R315), `since` the `CYCLE` since
which it waits for a core (R320), `regions` its closure region list, `snapshot` what step 1 of R331 copied. -/
structure Launch where
  id       : BitVec 32
  asid     : BitVec 12
  hdr      : Header
  poison   : Byte
  parent   : Option (Fin 4 × Task)
  phase    : Phase
  nextTeam : Nat
  wave     : Nat
  detail   : W64
  digest1  : W64
  second   : Bool
  bound    : List (Nat × Nat)
  groups   : List (Nat × Nat)
  since    : W64
  regions  : List Region
  snapshot : List (Nat × Byte)
  deriving DecidableEq, Repr

/-- A parked context that has given up its strand (R320, R347). -/
structure Parked where
  st     : Fin 4
  ctx    : Strand
  deriving DecidableEq, Repr

/-- A record to the supervisor cores (R339): for a vector memory access with its fault record and fault mask (R192). -/
structure SupRecord where
  strand : Nat
  cause  : Byte
  tpc    : W64
  tval   : W64
  frec   : FaultRec
  mask   : Pred
  deriving DecidableEq, Repr

/-- A trap that a supervisor core takes (R4, R121, R183): its cause and what its `TVAL` names. -/
structure SupTrap where
  cause : Byte
  tval  : W64
  deriving DecidableEq, Repr

/-! ### Cores -/

/-- A parked team's partition and arena in memory (R347, R369): its launch and number, the bytes by scratchpad offset, and the granules
among them that are poisoned. -/
structure SavedScr where
  launch : BitVec 32
  team   : W64
  bytes  : Tab 8
  poison : List Nat
  deriving DecidableEq, Repr

/-- What one core holds of its own (R18), while another core is the active one. `savedCoef` are the coefficient tables of the launches whose
teams have left the core's confidentiality context (R348, R369; log 113). -/
structure CoreSt where
  strands : Vector Strand 4
  mat : Matrix
  coef : Vector CoefTable 2
  coefFor : List (BitVec 32)
  pwrlim : W64
  seed : W64
  channels : Vector Channel 16
  copyQ : List CopyWait
  platSlots : Vector PlatSlot 16
  platQ : List PlatReq
  wcb : List WcbEntry
  parked : List Parked
  savedMat : List (BitVec 32 × Matrix)
  savedScr : List SavedScr
  savedCoef : List (BitVec 32 × Vector CoefTable 2)
  lastSpace : Option (BitVec 12 × BitVec 6)
  deriving DecidableEq, Repr

/-! ### The module -/

/-- An address space (R112, R114, R362): the dies that it is resident on, and the vector map that each of them holds for it. -/
structure Space where
  asid : BitVec 12
  key  : BitVec 6
  root : W64
  dies : Byte
  maps : Vector (List W64) 8
  deriving DecidableEq, Repr

/-- A window of the window table (R99, R363). -/
structure Window where
  number : Nat
  peer   : Bool
  base   : W64
  len    : Nat
  pinned : List Nat
  deriving DecidableEq, Repr

/-- The hold state of a stack (R107, R109). -/
inductive Hold where
  | none
  | refresh (asserted : Bool)
  | retired
  deriving DecidableEq, Repr

/-- Work of an engine, of a strand's VIQ, of a stream or of the outside that a held stack keeps as one request (R107): what is done again at
its place in the queue. `fetch` reads an instruction word, of which `kept` is the PA, or that of a page table entry, `redo` is a scalar access
to a VA whose page table entry is kept, by its words at its PC, `instr` a scalar instruction that reads many bytes, `sparse` one of `SPHDR`,
`SPCNT` and `SPMRG` (0, 1, 2) with its variant bit and its registers, the `uet` forms accesses of the network. -/
inductive HeldWork where
  | viq (st : Fin 4)
  | deep (st : Fin 4) (aj : BitVec 4)
  | copy (ch : Fin 16)
  | gather (slot : Fin 16) (reach : Bool)
  | scatter (slot : Fin 16) (reach : Bool)
  | net (st : Fin 4) (slot : Fin 16) (ok : Bool) (data : List Byte)
  | fetch (st : Fin 4) (k : StreamId) (va : W64) (kept : Nat)
  | redo (st : Fin 4) (k : StreamId) (pc va : W64) (words : List W32)
  | uetWrite (asid : BitVec 12) (va : W64) (data : List Byte)
  | uetRead (asid : BitVec 12) (va : W64) (n : Nat)
  | uetAtomic (asid : BitVec 12) (op : UetOp) (d : Bool) (va v cmp : W64)
  | instr (st : Fin 4) (k : StreamId) (pc : W64) (words : List W32) (i : Instr)
  | sparse (st : Fin 4) (k : StreamId) (pc : W64) (words : List W32) (func : Fin 3) (var : Bool) (rd rs1 rs2 xs xs2 : Reg)
  deriving DecidableEq, Repr

/-- A request in a held stack's controller queue (R107): a line of the write-combining buffer or a scalar store with the step at which it
arrived, a scalar load or a read of a `WAITA`, an atomic with what it returns and to whom, or other work of a core: with every stack that it
touches, the keys that were loaded when it arrived (R122), and the step at which it did. -/
inductive StackReq where
  | line (es : List WcbEntry)
  | store (strand : Fin 4) (stream : StreamId) (task : Option Task) (pa : Nat) (bytes : List Byte) (key : Nat) (at_ : Nat)
  | load (strand : Fin 4) (stream : StreamId) (task : Option Task) (n : Nat) (sgn : Bool) (pa : Nat) (rd : Reg) (key : Nat)
      (next va : W64)
  | read (strand : Fin 4) (stream : StreamId) (task : Option Task) (w : WaitOp) (zero : Bool) (pa : Nat) (key : Nat)
  | work (core : Nat) (task : Option Task) (w : HeldWork) (places : List (Fin 24)) (keys : Vector (Option (BitVec 512)) 64) (at_ : Nat)
  | atomic (strand : Fin 4) (stream : StreamId) (task : Option Task) (func : Nat) (n : Nat) (pa : Nat) (arg expect : W64)
      (rd : Reg) (key : Nat) (next va : W64)
  deriving DecidableEq, Repr

/-- One HBM stack with its control registers (R104, R105, R107); `nbr` says whether its last row activate refreshed the neighbours. -/
structure Stack where
  stkref : W64
  stkecc : W64
  gen    : W64
  steps  : Nat
  nbr    : Bool
  hold   : Hold
  event  : Bool
  queue  : List StackReq
  deriving DecidableEq, Repr

/-- An RCP session (R360). -/
structure Session where
  id    : Nat
  major : Byte
  minor : Byte
  asid  : BitVec 12
  deriving DecidableEq, Repr

/-- A completion endpoint with its sixteen coalescing windows (R329, R361). -/
structure Endpoint where
  id      : BitVec 32
  windows : List Nat
  deriving DecidableEq, Repr

/-- A completion record (R328). -/
structure Completion where
  endpoint : BitVec 32
  cls      : Nat
  launch   : BitVec 32
  status   : Byte
  flags    : Byte
  detail   : W64
  digest1  : W64
  digest2  : W64
  deriving DecidableEq, Repr

/-- An edit within the address-map policy, as the edit log holds it (R111, R367): an entry of a space's vector map, a leaf of the Sv57
tables by its PA, or a window with what is installed there. -/
inductive Edit where
  | vmap (asid : BitVec 12) (entry : W64)
  | leaf (asid : BitVec 12) (pa : Nat) (pte : W64)
  | window (peer removed : Bool) (number : Nat) (base : W64) (len : Nat)
  deriving DecidableEq, Repr

/-- A message the part sends: an RCP reply (the bytes of its frame), one UET message of completion records of 32 bytes each,
the answer to a UET read or atomic, an access error, a measurement-changed event, a stack-hold event, a connection answer. -/
inductive Msg where
  | reply (session : Nat) (frame : List Byte)
  | records (recs : List (List Byte))
  | uetData (data : List Byte)
  | uetAck
  | uetError (cause : Byte) (tval : W64)
  | measurementChanged (session : Nat)
  | stackHold (s : Nat)
  | connection (accepted : Bool)
  | net (dest : BitVec 32) (data : List Byte)
  | mmioError (s : Nat)
  deriving DecidableEq, Repr

/-! ### The whole machine -/

/-- Who executes the present step: a stream of a strand, or a supervisor core with the operand of its instruction. -/
inductive Agent where
  | stream (st : Fin 4) (k : StreamId)
  | supervisor (operand : W64)
  deriving DecidableEq, Repr

/-- The present step's agent and the words of its instruction. -/
structure Cur where
  agent : Agent
  words : List W32
  deriving DecidableEq, Repr

/-- Where an integrity code finds an error (R370): in a stack, in a core's scratchpad, in a register of a strand's frame on the register die
(a vector register's or a predicate's row), on the fabric or at a port with the PA that its data goes to, or in a packet's GCM tag. -/
inductive Site where
  | stack (pa : Nat)
  | scratch (pa : Nat)
  | frame (st : Fin 4) (v : Nat)
  | flit (pa : Nat) (retries : Nat)
  | port (pa : Nat)
  | gcm
  deriving DecidableEq, Repr

/-- One turn of the agenda: a stream runs one instruction, or runs a plain load or store that performs later (`lazy`), or an access that
it has so left performs (`post`); part of a vector load or store, of an `MMA` or of a sparse merge is done (R188, R223, R263); an event of the
part or the outside takes place; a waiting request of a session is served; a part of a network read lands; the hardware caches a
leaf or an instruction word; a stack activates a row; the supervisor fences a space, edits a leaf of the Sv57 tables or sets the quantum;
the host or a peer writes its own memory behind a window; a code finds an error; or another core becomes the active one. -/
inductive Turn where
  | core (n : Fin 256)
  | stream (st : Fin 4) (k : StreamId)
  | lazy (st : Fin 4) (k : StreamId)
  | post (ix : Nat)
  | elems (st : Fin 4) (n : Nat)
  | ksteps (n : Nat)
  | lines (st : Fin 4) (k : StreamId) (n : Nat)
  | event (i : Instr)
  | rcp (session : Nat)
  | netPart (st : Fin 4) (slot : Fin 16) (data : List Byte)
  | tlbFill (st : Fin 4) (k : StreamId) (va : W64)
  | wordFill (st : Fin 4) (k : StreamId) (va : W64)
  | activate (s : Fin 24)
  | vmfence (operand : W64)
  | remote (pa : Nat) (bytes : List Byte)
  | ecc (site : Site) (corrected : Bool)
  | leafEdit (asid : BitVec 12) (pa : Nat) (pte : W64)
  | quantum (us : Nat)
  deriving DecidableEq, Repr

/-- A plain scalar load or store that a stream has left behind (R297): it performs later, and until then no instruction that depends on it
executes. -/
inductive Posted where
  | store (st : Fin 4) (k : StreamId) (pa : Nat) (bytes : List Byte)
  | load (st : Fin 4) (k : StreamId) (n : Nat) (sgn : Bool) (pa : Nat) (rd : Reg) (va : W64)
  deriving DecidableEq, Repr

/-- The state of the machine; `outbox` holds the messages that wait for a usable port (R366). The fields from `strands` to `lastSpace` that `CoreSt` names are those of the active core, whose number is
`core`; `others` holds those of every other core that has left its reset state. -/
structure State where
  core : Nat
  others : List (Nat × CoreSt)
  agenda : List Turn
  cur : Cur
  tick : Nat
  cycle : W64
  strands : Vector Strand 4
  mat : Matrix
  coef : Vector CoefTable 2
  coefFor : List (BitVec 32)
  pwrlim : W64
  seed : W64
  channels : Vector Channel 16
  copyQ : List CopyWait
  platSlots : Vector PlatSlot 16
  platQ : List PlatReq
  wcb : List WcbEntry
  held : List Held
  deferred : List (Task × Nat × Deferred)
  seals : List Seal
  teams : List Team
  parked : List Parked
  savedMat : List (BitVec 32 × Matrix)
  savedScr : List SavedScr
  savedCoef : List (BitVec 32 × Vector CoefTable 2)
  lastSpace : Option (BitVec 12 × BitVec 6)
  posted : List Posted
  mem : Tab 8
  keyTag : Tab 513
  poison : List Nat
  spaces : List Space
  gens : Tab 64
  keys : Vector (Option (BitVec 512)) 64
  windows : List Window
  readiness : Vector Byte 64
  stks : Vector Stack 24
  sessions : List Session
  endpoints : List Endpoint
  gathered : List Completion
  sent : List Msg
  outbox : List Msg
  dropped : Nat
  uudDropped : Nat
  launches : List Launch
  queue : List (BitVec 32)
  nextId : BitVec 32
  quantum : Nat
  supRecords : List SupRecord
  supTraps : List SupTrap
  conns : List ConnReq
  rcpQ : List (Nat × Instr)
  firmware : List Byte
  incoming : List Byte
  staged : Option (List Byte)
  editLog : List Edit
  measured : List (Nat × Nat)
  itemRev : Vector Nat 8
  deriving DecidableEq, Repr

/-- Why the machine stops. Every trap, refusal of a header and blocked stream of the spec is a NEXT state, so no step answers
this fault; it stands for a state the part cannot be in. -/
inductive Fault where
  /-- Raised by nothing; kept so that the type is inhabited. Safe: the machine stops where no part could be. -/
  | impossible
  deriving DecidableEq, Repr

/-- Why a step has no meaning. -/
inductive Refusal where
  /-- Raised by `exec` for an instruction that has no meaning yet, by its mnemonic. Safe: nothing is proved of it. -/
  | notModelled (mnemonic : String)
  deriving DecidableEq, Repr

/-! ### Reset -/

/-- A stream no task is bound to (log 5). -/
def Stream.reset : Stream where
  pc := 0
  x := Vector.replicate 32 0
  sfctl := 0
  instret := 0
  status := .ended
  age := 0
  tlb := []
  ibuf := []
  acq := 0
  owes := none

/-- A strand after device reset: the reset values of the register layouts (R77, R78, R80, R82, R112, R183, R193, R323, R342,
R350) and the values of log entries 3 and 5 where the spec gives none. -/
def Strand.reset : Strand where
  a := .reset
  e := .reset
  v := Vector.replicate 64 0
  p := Vector.replicate 16 0
  o := Vector.replicate 8 0
  l0 := List.replicate 16 0
  l1 := List.replicate 16 0
  k := Vector.replicate 4 []
  fr := Vector.replicate 8 0
  q := Vector.replicate 6 []
  q6 := []
  q7 := []
  viq := []
  vtype := 0
  vlc := 0
  vlr := 0
  vstart := 0
  mask := 0
  skip := 0
  vflags := 0
  frec := { cause := 0, pages := [], more := false }
  vstatus := 0
  tcause := 0
  tpc := 0
  tval := 0
  tvec := 0
  tframe := 0
  tstatus := 0
  entry := { vtype := 0, vlr := 0, vlc := 0, latshare := 0, mask := 0, skip := 0, flags := 0 }
  wid := 0
  teamix := 0
  lnchid := 0
  lcore := 0
  platbase := 0
  platsize := 0
  spbase := 0
  spsize := 0
  latshare := 0
  vlcap := 6
  cap := 6
  group := []
  bad := []
  bankser := 0
  dmode := 0
  aspace := 0
  shadow := Vector.replicate 8 0
  fifo := Vector.replicate 5 []
  resv := Vector.replicate 5 0
  pendFault := []
  netSeq := Vector.replicate 16 0
  net := []
  live := false
  barIn := false
  bars := 0
  halt := .none
  preDue := false
  task := none

/-- A slot after reset: every field of its query zero (R217, R233); contents by log 3. -/
def Slot.reset : Slot where
  loaded := false
  cls := .int8
  sew := 0
  fr := 0
  kk := 0
  nn := 0
  pin := none
  rowmap := false
  src := 0
  shape := 0
  scl := none
  ol := none
  data := []
  scales := []
  list := []

/-- The matrix state after reset, and after the clearing of R369: tiles zero, slots unloaded, no epilogue state, no owner. -/
def Matrix.reset : Matrix where
  owner := none
  tiles := []
  slots := Vector.replicate 16 .reset
  epi := []
  mq := []
  deep := []
  maps := Vector.replicate 16 none

/-- A stack after reset: STKREF holds seed 1 and k = 10, STKECC zero (R104); the generator's state is set from the random source. -/
def Stack.reset : Stack where
  stkref := 0x000000010000000A#64
  stkecc := 0
  gen := 1
  steps := 0
  nbr := false
  hold := .none
  event := false
  queue := []

/-- The stacks after a reset at a step: each generator seeded from the hardware random source (R105; log 17). -/
def resetStacks (now : Nat) : Vector Stack 24 :=
  Vector.ofFn fun n : Fin 24 => { Stack.reset with gen := Config.randomSeed (24 * now + n.val) }

/-- The machine right after device reset (R13: the Reset columns; log entries 2 to 5, 16, 17 for what the spec does not give). -/
def State.reset : State where
  core := 0
  others := []
  agenda := []
  cur := { agent := .supervisor 0, words := [] }
  tick := 0
  cycle := 0
  strands := Vector.replicate 4 .reset
  mat := .reset
  coef := Vector.replicate 2 []
  coefFor := []
  pwrlim := 16
  seed := 0
  channels := Vector.replicate 16 { seq := 0, copy := none }
  copyQ := []
  platSlots := Vector.replicate 16 { seq := 0, op := none }
  platQ := []
  wcb := []
  held := []
  deferred := []
  seals := []
  teams := []
  parked := []
  savedMat := []
  savedScr := []
  savedCoef := []
  lastSpace := none
  posted := []
  mem := []
  keyTag := []
  poison := []
  spaces := []
  gens := []
  keys := Vector.replicate 64 none
  windows := []
  readiness := Vector.ofFn fun i : Fin 64 => if i.val < 47 then 1 else 0
  stks := resetStacks 0
  sessions := []
  endpoints := []
  gathered := []
  sent := []
  outbox := []
  dropped := 0
  uudDropped := 0
  launches := []
  queue := []
  nextId := 0
  quantum := 50
  supRecords := []
  supTraps := []
  conns := []
  rcpQ := []
  firmware := []
  incoming := []
  staged := none
  editLog := []
  measured := []
  itemRev := Vector.replicate 8 0

end Sys2Proof.Machine
end

