-- ==== Sys2Proof/Machine/Basic.lean ====
section
/-! DEFINITION. Access to the parts of the state: strands, streams, the scalar registers, the launch and the team a strand belongs
to, and how an instruction retires. -/

namespace Sys2Proof

/-- The other stream of a strand. -/
def StreamId.other (k : StreamId) : StreamId :=
  match k with
  | .A => .E
  | .E => .A

end Sys2Proof

namespace Sys2Proof.Machine

/-- What a meaning answers. -/
abbrev Out := Host.Outcome State Fault Refusal

/-! ### Numbers -/

/-- The natural number of little-endian bytes (R3). -/
def leNat : List Byte → Nat
  | [] => 0
  | b :: bs => b.toNat + 256 * leNat bs

/-- The n little-endian bytes of a natural number (R3). -/
def leBytes : Nat → Nat → List Byte
  | 0, _ => []
  | n + 1, v => BitVec.ofNat 8 v :: leBytes n (v / 256)

/-- A 64-bit word of little-endian bytes. -/
def leWord (bs : List Byte) : W64 := BitVec.ofNat 64 (leNat bs)

/-- A field [lo + n - 1 : lo] of a word as a number. -/
def fld (v : W64) (lo n : Nat) : Nat := (v.extractLsb' lo n).toNat

/-- Whether every bit outside a field from bit 0 of n bits is zero. -/
def fitsIn (v : W64) (n : Nat) : Bool := v.toNat < 2 ^ n

/-- A function applied to every entry of a vector. -/
def mapVec {α β : Type} {n : Nat} (f : α → β) (v : Vector α n) : Vector β n := ⟨⟨v.toList.map f⟩, by simp⟩

/-! ### Strands and streams -/

/-- A strand of the core. -/
def State.strand (s : State) (st : Fin 4) : Strand := s.strands.get st

/-- The state with one strand changed. -/
def State.modStrand (s : State) (st : Fin 4) (f : Strand → Strand) : State :=
  { s with strands := s.strands.set st.val (f (s.strand st)) st.isLt }

/-- A stream of a strand. -/
def Strand.stream (x : Strand) (k : StreamId) : Stream :=
  match k with
  | .A => x.a
  | .E => x.e

/-- The strand with one stream changed. -/
def Strand.modStream (x : Strand) (k : StreamId) (f : Stream → Stream) : Strand :=
  match k with
  | .A => { x with a := f x.a }
  | .E => { x with e := f x.e }

/-- A stream of the core. -/
def State.stream (s : State) (st : Fin 4) (k : StreamId) : Stream := (s.strand st).stream k

/-- The state with one stream changed. -/
def State.modStream (s : State) (st : Fin 4) (k : StreamId) (f : Stream → Stream) : State :=
  s.modStrand st fun x => x.modStream k f

/-- The value of a scalar register; x0 reads as zero (R24). -/
def Stream.readX (t : Stream) (r : Reg) : W64 := if r = 0 then 0 else t.x.get ⟨r.toNat, r.isLt⟩

/-- The stream with a scalar register written; a write to x0 is discarded (R24). -/
def Stream.writeX (t : Stream) (r : Reg) (v : W64) : Stream :=
  if r = 0 then t else { t with x := t.x.set r.toNat v r.isLt }

/-- X[r] of a stream. -/
def State.readX (s : State) (st : Fin 4) (k : StreamId) (r : Reg) : W64 := (s.stream st k).readX r

/-- X[r] of a stream written. -/
def State.writeX (s : State) (st : Fin 4) (k : StreamId) (r : Reg) (v : W64) : State :=
  s.modStream st k fun t => t.writeX r v

/-- What a fetched instruction does: nothing when a supervisor core executes, which has no stream of this model (log 1). -/
def onStream (s : State) (f : Fin 4 → StreamId → State) : Out :=
  match s.cur.agent with
  | .stream st k => .next (f st k)
  | .supervisor _ => .next s

/-- Word 0 of the present instruction. -/
def State.w0 (s : State) : W32 := s.cur.words.headD 0

/-- The bytes of the present instruction: 4 for each word (R54). -/
def State.instrBytes (s : State) : W64 := BitVec.ofNat 64 (4 * s.cur.words.length)

/-- The next sequential PC of a stream (R54). -/
def State.nextPc (s : State) (st : Fin 4) (k : StreamId) : W64 := (s.stream st k).pc + s.instrBytes

/-- The stream after an instruction that continues at an address: one more retired (R350). -/
def State.goto (s : State) (st : Fin 4) (k : StreamId) (pc : W64) : State :=
  s.modStream st k fun t => { t with pc := pc, instret := t.instret + 1, status := .run, age := s.tick }

/-- The stream after an instruction without a transfer of control (R69). -/
def State.retire (s : State) (st : Fin 4) (k : StreamId) : State := s.goto st k (s.nextPc st k)

/-- A scalar result written, and the instruction retired. -/
def State.done (s : State) (st : Fin 4) (k : StreamId) (rd : Reg) (v : W64) : State := (s.writeX st k rd v).retire st k

/-- A stream's status changed: it waits before its instruction. -/
def State.wait (s : State) (st : Fin 4) (k : StreamId) (w : Status) : State :=
  s.modStream st k fun t => { t with status := w }

/-- Whether a stream has ended or never ran. -/
def Stream.over (t : Stream) : Bool := t.status == .ended || t.status == .absent

/-- An acquire of a stream noted (R300): what other streams have handed it before is carried along with its later releases. -/
def State.acquired (s : State) (st : Fin 4) (k : StreamId) : State := s.modStream st k fun t => { t with acq := s.tick + 1 }

/-- Whether a strand runs in D-mode (R323). -/
def Strand.det (x : Strand) : Bool := x.dmode.getLsbD 0

/-- IllVal of R68: word 0 in bits [63:32], the subcode in bits [7:0]. -/
def illVal (sub : Byte) (w0 : W32) : W64 := w0 ++ sub.setWidth 32

/-! ### Launches and teams -/

/-- A launch by its id. -/
def State.launch (s : State) (id : BitVec 32) : Option Launch := s.launches.find? fun l => l.id == id

/-- The launches with one of them changed. -/
def State.modLaunch (s : State) (id : BitVec 32) (f : Launch → Launch) : State :=
  { s with launches := s.launches.map fun l => if l.id == id then f l else l }

/-- The offset of field f (R313). -/
def Header.o (h : Header) (f : Nat) : Nat := (h.widths.take f).sum
/-- The tasks of a whole team (R314). -/
def Header.z (h : Header) : Nat := 2 ^ h.o h.tLevel
/-- The teams of a launch (R314). -/
def Header.teams (h : Header) : Nat := (h.n.toNat + h.z - 1) / h.z
/-- The teams of a die group (R316). -/
def Header.d (h : Header) : Nat := 2 ^ (h.o h.gLevel - h.o h.tLevel)
/-- The logical cores of a D-mode launch (R316). -/
def Header.c (h : Header) : Nat := max h.d (min h.teams 256 / h.d * h.d)
/-- The D-mode flag of a header (R311). -/
def Header.det (h : Header) : Bool := h.flags.getLsbD 0
/-- The closure flag (R311). -/
def Header.closed (h : Header) : Bool := h.flags.getLsbD 1
/-- The A-stream-present flag (R311). -/
def Header.apresent (h : Header) : Bool := h.flags.getLsbD 2
/-- A logical core's share of the drain log (R386). -/
def Header.share (h : Header) : Nat := h.drain / h.c / 64 * 64

/-- What R386 charges to a team: 128 bytes for each line that a stream holds, and its deferred operations. -/
def Team.charge (t : Team) : Nat := 128 * t.lines.length + (t.ops.map fun o => o.2).sum

/-- The launch a strand's task belongs to. -/
def State.launchOf (s : State) (st : Fin 4) : Option Launch :=
  match (s.strand st).task with
  | some t => s.launch t.launch
  | none => none

/-- The tasks of a team: its whole number, or those below N (R314). -/
def Header.members (h : Header) (team : Nat) : Nat := min h.z (h.n.toNat - team * h.z)

/-- The core that a logical core is bound to (R316). -/
def Launch.coreOf (l : Launch) (lc : Nat) : Nat :=
  match l.bound.find? fun b => b.1 == lc with
  | some b => b.2
  | none => 0

/-- Whether a team is the one of a task. -/
def Team.holds (t : Team) (k : Task) : Bool := t.launch == k.launch && t.team == k.team

/-- The resident team of a strand's task. -/
def State.teamOf (s : State) (st : Fin 4) : Option Team :=
  match (s.strand st).task with
  | some k => s.teams.find? fun t => t.holds k
  | none => none

/-- The teams with the one of a task changed. -/
def State.modTeam (s : State) (k : Task) (f : Team → Team) : State :=
  { s with teams := s.teams.map fun t => if t.holds k then f t else t }

/-! ### Cores (R15, R18) -/

/-- A core after device reset. -/
def CoreSt.reset : CoreSt where
  strands := Vector.replicate 4 .reset
  mat := .reset
  coef := Vector.replicate 2 []
  coefFor := []
  pwrlim := 16
  seed := 0
  channels := Vector.replicate 16 { seq := 0, copy := none }
  copyQ := []
  platSlots := Vector.replicate 16 { seq := 0, op := none }
  platQ := []
  wcb := []
  parked := []
  savedMat := []
  savedScr := []
  savedCoef := []
  lastSpace := none

/-- What the active core holds of its own. -/
def State.coreSt (s : State) : CoreSt where
  strands := s.strands
  mat := s.mat
  coef := s.coef
  coefFor := s.coefFor
  pwrlim := s.pwrlim
  seed := s.seed
  channels := s.channels
  copyQ := s.copyQ
  platSlots := s.platSlots
  platQ := s.platQ
  wcb := s.wcb
  parked := s.parked
  savedMat := s.savedMat
  savedScr := s.savedScr
  savedCoef := s.savedCoef
  lastSpace := s.lastSpace

/-- The active core's own state replaced. -/
def State.withCoreSt (s : State) (c : CoreSt) : State :=
  { s with
    strands := c.strands
    mat := c.mat
    coef := c.coef
    coefFor := c.coefFor
    pwrlim := c.pwrlim
    seed := c.seed
    channels := c.channels
    copyQ := c.copyQ
    platSlots := c.platSlots
    platQ := c.platQ
    wcb := c.wcb
    parked := c.parked
    savedMat := c.savedMat
    savedScr := c.savedScr
    savedCoef := c.savedCoef
    lastSpace := c.lastSpace }

/-- The state of a core that is not the active one. -/
def State.otherCore (s : State) (n : Nat) : CoreSt :=
  match s.others.find? fun p => p.1 == n with
  | some p => p.2
  | none => .reset

/-- Another core made the active one. -/
def State.switchCore (s : State) (n : Nat) : State :=
  if n == s.core then s
  else
    let c := s.otherCore n
    let s1 : State := { s with core := n, others := (s.others.filter fun p => p.1 != n) ++ [(s.core, s.coreSt)] }
    s1.withCoreSt c

/-- An operation carried out on a core, after which the active core is as before. -/
def State.onCore (s : State) (n : Nat) (f : State → State) : State := (f (s.switchCore n)).switchCore s.core

/-- The state as each core sees it. -/
def State.views (s : State) : List State := s :: s.others.map fun p => s.switchCore p.1

/-- What each core holds of its own. -/
def State.cores (s : State) : List CoreSt := s.coreSt :: s.others.map fun p => p.2

/-- Every core's own state changed. -/
def State.mapCores (s : State) (f : CoreSt → CoreSt) : State :=
  { s.withCoreSt (f s.coreSt) with others := s.others.map fun p => (p.1, f p.2) }

/-- The die of the core (R15). -/
def State.die (s : State) : Nat := s.core / 32 % 8

/-- The vector map of a space on the die with the lowest number that holds it, which the supervisor and the ports use (log 104). -/
def Space.map (p : Space) : List W64 :=
  match (List.range 8).find? fun d => p.dies.getLsbD d with
  | some d => p.maps.get (Fin.ofNat 8 d)
  | none => []

/-- The maps of a space with those of the dies that hold it changed (R362). -/
def Space.onDies (p : Space) (f : List W64 → List W64) : Space :=
  { p with maps := Vector.ofFn fun d : Fin 8 => if p.dies.getLsbD d.val then f (p.maps.get d) else p.maps.get d }

/-- The strand whose stream has left an access behind. -/
def Posted.strand (p : Posted) : Fin 4 :=
  match p with
  | .store st .. | .load st .. => st

/-- The stream that has left an access behind. -/
def Posted.stream (p : Posted) : StreamId :=
  match p with
  | .store _ k .. | .load _ k .. => k

/-- The PA of an access that a stream has left behind. -/
def Posted.pa (p : Posted) : Nat :=
  match p with
  | .store _ _ pa .. | .load _ _ _ _ pa .. => pa

/-- An index below a bound. -/
def fin (n : Nat) [NeZero n] (i : Nat) : Fin n := Fin.ofNat n i

/-- Whether a function reads 2 in the readiness map (R366). -/
def State.reads2 (s : State) (i : Nat) : Bool := s.readiness.get (fin 64 i) == 2

/-- Whether the scheduler is usable (R366). -/
def State.schedulerUp (s : State) : Bool := s.reads2 44

/-- Whether a supervisor X-die is usable (R366; log 105: either of the two serves the part). -/
def State.supervisorUp (s : State) : Bool := s.reads2 45 || s.reads2 46

/-- Whether a port is usable (R366; log 105: any of the twelve serves the part). -/
def State.portUp (s : State) : Bool := (List.range 12).any fun i => s.reads2 (32 + i)

/-- A message sent. -/
def State.send (s : State) (m : Msg) : State := { s with sent := s.sent ++ [m] }

/-- Whether a die reports ready: it and its three stacks read 2 (R366). -/
def State.dieReady (s : State) (d : Nat) : Bool :=
  s.reads2 (24 + d) && (List.range 3).all fun i => s.reads2 (3 * d + i)

end Sys2Proof.Machine
end

