-- ==== Sys2Proof/Machine/Tab.lean ====
section
/-! DEFINITION. The one canonical form of memory and of every other sparse table of the state: a list sorted by key without
entries that equal zero, which is what an unlisted key reads as (log 2). -/

namespace Sys2Proof.Machine

/-- The value under a key. -/
def Tab.get {w : Nat} (t : Tab w) (k : Nat) : BitVec w :=
  match t.find? fun e => e.1 == k with
  | some e => e.2
  | none => 0

/-- The entries of consecutive values from a key on. -/
def Tab.run {w : Nat} (base : Nat) : List (BitVec w) → Tab w
  | [] => []
  | v :: vs => if v == 0 then Tab.run (base + 1) vs else (base, v) :: Tab.run (base + 1) vs

/-- Consecutive values written from a key on. -/
def Tab.splice {w : Nat} (t : Tab w) (base : Nat) (vals : List (BitVec w)) : Tab w :=
  t.filter (fun e => decide (e.1 < base)) ++ Tab.run base vals ++ t.filter (fun e => decide (base + vals.length ≤ e.1))

/-- One value written. -/
def Tab.set {w : Nat} (t : Tab w) (k : Nat) (v : BitVec w) : Tab w := t.splice k [v]

/-- Consecutive values read. -/
def Tab.read {w : Nat} (t : Tab w) (base n : Nat) : List (BitVec w) := (List.range n).map fun i => t.get (base + i)

/-- The entries from one key to before another. -/
def Tab.range {w : Nat} (t : Tab w) (lo hi : Nat) : Tab w := t.filter fun e => decide (lo ≤ e.1) && decide (e.1 < hi)

/-- The table without the entries from one key to before another. -/
def Tab.clear {w : Nat} (t : Tab w) (lo hi : Nat) : Tab w := t.filter fun e => decide (e.1 < lo) || decide (hi ≤ e.1)

/-- Whether keys rise strictly from a lower bound and no entry is zero. -/
def Tab.wfFrom {w : Nat} (lo : Nat) : Tab w → Bool
  | [] => true
  | e :: t => decide (lo ≤ e.1) && e.2 != 0 && Tab.wfFrom (e.1 + 1) t

/-- The canonical form. -/
def Tab.wf {w : Nat} (t : Tab w) : Bool := Tab.wfFrom 0 t

/-- Whether memory is in its canonical form. -/
def Memory.wf (m : Tab 8) : Bool := m.wf

end Sys2Proof.Machine
end

