-- ==== Sys2Proof/Machine/Xts.lean ====
section
/-! DEFINITION. AES-256 in XTS mode over the 64-byte data unit in which HBM is encrypted (R110), over bytes held as numbers. The cipher is
that of FIPS 197, the mode that of IEEE 1619 (log 9). -/

namespace Sys2Proof.Machine

/-- The S-box, byte x at bits 8x to 8x + 7. -/
def aesBox : Nat :=
  0x16BB54B00F2D99416842E6BF0D89A18CDF2855CEE9871E9B948ED9691198F8E19E1DC186B95735610EF6034866B53E708A8BBD4B1F74DDE8C6B4A61C2E2578BA08AE7A65EAF4566CA94ED58D6D37C8E779E4959162ACD3C25C2406490A3A32E0DB0B5EDE14B8EE4688902A22DC4F816073195D643D7EA7C41744975FEC130CCDD2F3FF1021DAB6BCF5389D928F40A351A89F3C507F02F94585334D43FBAAEFD0CF584C4A39BECB6A5BB1FC20ED00D153842FE329B3D63B52A05A6E1B1A2C830975B227EBE28012079A059618C323C7041531D871F1E5A534CCF73F362693FDB7C072A49CAFA2D4ADF04759FA7DC982CA76ABD7FE2B670130C56F6BF27B777C63

/-- The inverse S-box. -/
def aesInvBox : Nat :=
  0x7D0C2155631469E126D677BA7E042B17619953833CBBEBC8B0F52AAE4D3BE0A0EF9CC9939F7AE52D0D4AB519A97F51605FEC8027591012B131C7078833A8DD1FF45ACD78FEC0DB9A2079D2C64B3E56FC1BBE18AA0E62B76F89C5291D711AF1476EDF751CE837F9E28535ADE72274AC9673E6B4F0CECFF297EADC674F4111913A6B8A130103BDAFC1020F3FCA8F1E2CD00645B3B80558E4F70AD3BC8C00ABD890849D8DA75746155EDAB9EDFD5048706C92B6655DCC5CA4D41698688664F6F87225D18B6D49A25B76B224D92866A12E084EC3FA420B954CEE3D23C2A632947B54CBE9DEC444438E3487FF2F9B8239E37CFBD7F3819EA340BF38A53630D56A0952

/-- A byte of a packed table. -/
def packed (table x : Nat) : Nat := table / 2 ^ (8 * x) % 256

/-- The product by x in GF(2^8). -/
def aesDouble (b : Nat) : Nat := if b < 128 then 2 * b else (2 * b) ^^^ 0x11B

/-- The product in GF(2^8) of a byte and a constant of n bits. -/
def aesMul : Nat → Nat → Nat → Nat
  | 0, _, _ => 0
  | n + 1, c, b => (if c % 2 == 1 then b else 0) ^^^ aesMul n (c / 2) (aesDouble b)

/-- The exclusive or of two blocks. -/
def xorBytes (a b : List Nat) : List Nat := List.zipWith (fun x y => x ^^^ y) a b

/-- The bytes of a block put through a table. -/
def subBytes (table : Nat) (s : List Nat) : List Nat := s.map (packed table)

/-- The rows of a block, byte i in row i mod 4, turned left by `by_` times their number. -/
def shiftRows (by_ : Nat) (s : List Nat) : List Nat := (List.range 16).map fun i => s.getD ((i + 4 * by_ * (i % 4)) % 16) 0

/-- The columns of a block multiplied by the circulant matrix of a row. -/
def mixColumns (m : List Nat) (s : List Nat) : List Nat :=
  (List.range 16).map fun i =>
    (List.range 4).foldl (fun a j => a ^^^ aesMul 4 (m.getD ((j + 4 - i % 4) % 4) 0) (s.getD (4 * (i / 4) + j) 0)) 0

/-- The round constant of the n-th group of eight words. -/
def aesRcon : Nat → Nat
  | 0 | 1 => 1
  | n + 1 => aesDouble (aesRcon n)

/-- The key schedule, latest word first: n more words. -/
def aesWords : Nat → List (List Nat) → List (List Nat)
  | 0, ws => ws
  | n + 1, ws =>
    let i := ws.length
    let t := ws.headD []
    let u := if i % 8 == 0 then xorBytes (subBytes aesBox (t.drop 1 ++ t.take 1)) [aesRcon (i / 8), 0, 0, 0]
      else if i % 8 == 4 then subBytes aesBox t else t
    aesWords n (xorBytes (ws.getD 7 []) u :: ws)

/-- The fifteen round keys of a 32-byte key. -/
def aesKeys (k : List Nat) : List (List Nat) :=
  let ws := (aesWords 52 ((List.range 8).map fun i => (k.drop (4 * (7 - i))).take 4)).reverse
  (List.range 15).map fun r => ((ws.drop (4 * r)).take 4).flatMap id

/-- One block encrypted under round keys. -/
def aesEnc (rk : List (List Nat)) (p : List Nat) : List Nat :=
  let s := (List.range 13).foldl (fun s r =>
    xorBytes (mixColumns [2, 3, 1, 1] (shiftRows 1 (subBytes aesBox s))) (rk.getD (r + 1) [])) (xorBytes p (rk.headD []))
  xorBytes (shiftRows 1 (subBytes aesBox s)) (rk.getD 14 [])

/-- One block decrypted under round keys. -/
def aesDec (rk : List (List Nat)) (c : List Nat) : List Nat :=
  let s := (List.range 13).foldl (fun s r =>
    mixColumns [14, 11, 13, 9] (xorBytes (subBytes aesInvBox (shiftRows 3 s)) (rk.getD (13 - r) []))) (xorBytes c (rk.getD 14 []))
  xorBytes (subBytes aesInvBox (shiftRows 3 s)) (rk.headD [])

/-- A 128-bit block as a little-endian number. -/
def blockNat (b : List Nat) : Nat := b.foldr (fun x a => x + 256 * a) 0

/-- The n bytes of a number, least significant first. -/
def natBytes (n v : Nat) : List Nat := (List.range n).map fun i => v / 2 ^ (8 * i) % 256

/-- The product by α of a tweak. -/
def xtsNext (t : Nat) : Nat := if t < 2 ^ 127 then 2 * t else (2 * t) % 2 ^ 128 ^^^ 0x87

/-- The n-th tweak of a data unit. -/
def xtsTweak : Nat → Nat → Nat
  | 0, t => t
  | n + 1, t => xtsNext (xtsTweak n t)

/-- A data unit put through a block function block by block, with the tweak of unit u under the second key of a pair. -/
def xtsUnit (f : List Nat → List Nat) (k2 : List Nat) (u : Nat) (b : List Byte) : List Byte :=
  let t := blockNat (aesEnc (aesKeys k2) (natBytes 16 u))
  (List.range 4).flatMap fun j =>
    let tw := natBytes 16 (xtsTweak j t)
    (xorBytes (f (xorBytes (((b.drop (16 * j)).take 16).map fun x => x.toNat) tw)) tw).map fun x => BitVec.ofNat 8 x

/-- The data key of a key pair: its low 256 bits. -/
def dataKey (key : Nat) : List Nat := natBytes 32 key

/-- The tweak key of a key pair: its high 256 bits. -/
def tweakKey (key : Nat) : List Nat := natBytes 32 (key / 2 ^ 256)

/-- A data unit as it stands in HBM, its tweak being its number there (R110); key 0 is plaintext. -/
def encipher (key u : Nat) (b : List Byte) : List Byte :=
  if key == 0 then b else xtsUnit (aesEnc (aesKeys (dataKey key))) (tweakKey key) u b

/-- A data unit as a reader decrypts it (R110). -/
def decipher (key u : Nat) (b : List Byte) : List Byte :=
  if key == 0 then b else xtsUnit (aesDec (aesKeys (dataKey key))) (tweakKey key) u b

/-- A data unit written under one key as it is read under another (R110). -/
def recipher (written key u : Nat) (b : List Byte) : List Byte := decipher key u (encipher written u b)

end Sys2Proof.Machine
end

