-- ==== Sys2Proof/Machine/Mem.lean ====
section
/-! DEFINITION. Memory: physical addresses and their targets (R99 to R102), the two translating ports (R115, R116), what a reader
sees of pending stores (R118, R299, R304), how a write performs (R103, R107, R130), and the stores of a stream. -/

namespace Sys2Proof.Machine

/-! ### Physical addresses -/

/-- The die that owns an HBM offset (R102). -/
def hbmDie (o : Nat) : Nat := o / 2 ^ 30 % 8

/-- The granule within the die (R102). -/
def hbmG (o : Nat) : Nat := o / 2 ^ 30 / 8 * 2 ^ 22 + o / 2 ^ 8 % 2 ^ 22

/-- The stack of an HBM offset (R102). -/
def hbmStack (o : Nat) : Nat := 3 * hbmDie o + hbmG o % 3

/-- The byte address within the stack (R102). -/
def hbmAddr (o : Nat) : Nat := hbmG o / 3 * 256 + o % 256

/-- Whether a PA is an HBM offset (target type 0). -/
def isHbm (pa : Nat) : Bool := pa < 2 ^ 52

/-- The target type of a PA (R99). -/
def paType (pa : Nat) : Nat := pa / 2 ^ 52

/-- Whether a PA lies behind a window (R99). -/
def inWindow (pa : Nat) : Bool := paType pa == 3 || paType pa == 4

/-- The PA of the first byte of the core's own scratchpad in the scratchpad window (R15). -/
def State.scrBase (s : State) : Nat := 2 ^ 52 + s.core % 256 * 2 ^ 22

/-- Whether a canonical PA lies in the core's own scratchpad. -/
def State.ownScr (s : State) (pa : Nat) : Bool := pa / 2 ^ 22 == s.scrBase / 2 ^ 22

/-- The stack that serves a PA. -/
def stackOf (pa : Nat) : Fin 24 := fin 24 (hbmStack pa)

/-- The stack that a PA lies in. -/
def State.stackAt (s : State) (pa : Nat) : Stack := s.stks.get (stackOf pa)

/-- Whether a stack is shut: its critical temperature holds it (R107), or it is not usable yet or any more (R366). -/
def State.stackShut (s : State) (n : Fin 24) : Bool :=
  match (s.stks.get n).hold with
  | .refresh _ => true
  | .retired => false
  | .none => let r := s.readiness.get (fin 64 n.val); r == 0 || r == 1 || r == 5

/-- Whether an access to a stack now goes behind its queue: the stack is shut, or has not served all that its queue keeps (R107; log 97). -/
def State.stackHeld (s : State) (n : Fin 24) : Bool := s.stackShut n || !(s.stks.get n).queue.isEmpty

/-- Whether a connection carries an operation, 0 send, 1 write, 2 read, 3 atomic, in a reliable delivery mode (R358): RUD or ROD, and for a write or a
read, which are idempotent, RUDI too (log 139). -/
def ConnReq.carriesOp (q : ConnReq) (op : Nat) : Bool :=
  q.ops.contains op && q.modes.any fun m => m < 2 || (m == 2 && (op == 1 || op == 2))

/-- Whether a connection carries some operations to a window (R358): under AES-GCM, in a reliable delivery mode for one. -/
def ConnReq.carriesWindow (q : ConnReq) (ops : List Nat) : Bool := q.guarded && ops.any fun o => ConnReq.carriesOp q o

/-- Whether some operations reach the windows: through a port that is usable, on a connection that carries them (R358, R366). -/
def State.windowUp (s : State) (ops : List Nat) : Bool := s.portUp && s.conns.any fun q => ConnReq.carriesWindow q ops

/-- Whether a PA lies in a window that no access reaches now (log 126). -/
def State.unreachable (s : State) (pa : Nat) : Bool := inWindow pa && !s.windowUp [1, 2, 3]

/-- Whether a PA lies in a stack whose queue an access now joins (R107, R366; log 122), or in a window that none reaches. -/
def State.heldAt (s : State) (pa : Nat) : Bool := (isHbm pa && s.stackHeld (stackOf pa)) || s.unreachable pa

/-- Whether a PA lies in a retired stack (R109). -/
def State.lostAt (s : State) (pa : Nat) : Bool :=
  isHbm pa && match (s.stackAt pa).hold with
    | .retired => true
    | _ => false

/-! ### Access rights -/

/-- A fault of an access: its cause, the TVAL that R99, R115 or R152 gives, and the VA accessed. -/
structure Fa where
  cause : Byte
  tval  : W64
  va    : W64
  deriving DecidableEq, Repr

/-- No cause of R337: an access whose page table entry lies in a held stack; its TVAL is the entry's PA (R107). -/
def cHeld : Byte := 0x00
/-- ILLEGAL (R337). -/
def cIllegal : Byte := 0x01
/-- PRIV. -/
def cPriv : Byte := 0x02
/-- MISALIGN. -/
def cMisalign : Byte := 0x03
/-- VMAP_ABSENT. -/
def cVmapAbsent : Byte := 0x04
/-- PROT. -/
def cProt : Byte := 0x05
/-- SPAGE. -/
def cSpage : Byte := 0x06
/-- SCRATCH_BOUNDS. -/
def cScratch : Byte := 0x07
/-- POISON. -/
def cPoison : Byte := 0x08
/-- PLAT_STALE. -/
def cPlatStale : Byte := 0x10
/-- PLAT_RANGE. -/
def cPlatRange : Byte := 0x11
/-- PLAT_FOREIGN. -/
def cPlatForeign : Byte := 0x12
/-- PLAT_CAP. -/
def cPlatCap : Byte := 0x13
/-- OL_OVERFLOW. -/
def cOlOverflow : Byte := 0x18
/-- OL_MISMATCH. -/
def cOlMismatch : Byte := 0x19
/-- SCALECODE. -/
def cScalecode : Byte := 0x1A
/-- FORMAT. -/
def cFormat : Byte := 0x1B
/-- QDEADLOCK. -/
def cQdeadlock : Byte := 0x20
/-- ENGINE_FAULT. -/
def cEngineFault : Byte := 0x21
/-- BUDGET. -/
def cBudget : Byte := 0x22
/-- DMODE_ILLEGAL. -/
def cDmode : Byte := 0x23
/-- DRAIN_FULL. -/
def cDrainFull : Byte := 0x24
/-- SPARSE_HDR. -/
def cSparseHdr : Byte := 0x28
/-- SPARSE_ORDER. -/
def cSparseOrder : Byte := 0x29
/-- ROW_MAP. -/
def cRowMap : Byte := 0x30
/-- USER. -/
def cUser : Byte := 0x3F

/-- The access rights of a strand: `ASPACE` (R112) and its bounds (R152). -/
def Strand.acc (x : Strand) : Acc where
  asid := x.aspace.extractLsb' 0 12
  key := x.aspace.extractLsb' 12 6
  spb := x.spbase.toNat
  sps := x.spsize.toNat
  plb := x.platbase.toNat
  pls := x.platsize.toNat

/-- The access rights of a strand of the core. -/
def State.acc (s : State) (st : Fin 4) : Acc := (s.strand st).acc

/-- Access rights without a team, of an address space alone. -/
def Space.acc (p : Space) : Acc := { asid := p.asid, key := p.key, spb := 0, sps := 0, plb := 0, pls := 0 }

/-- Whether a scratchpad offset lies in the partition or the arena (R152). -/
def Acc.inside (a : Acc) (o : Nat) : Bool :=
  (decide (a.spb ≤ o) && decide (o < a.spb + a.sps)) || (decide (a.plb ≤ o) && decide (o < a.plb + a.pls))

/-- Whether a canonical PA lies in the team's partition or arena. -/
def State.inPart (s : State) (a : Acc) (pa : Nat) : Bool := s.ownScr pa && a.inside (pa % 2 ^ 22)

/-- A window of the window table. -/
def State.window (s : State) (peer : Bool) (w : Nat) : Option Window :=
  s.windows.find? fun x => x.peer == peer && x.number == w

/-- Whether a key slot names a key that is not loaded, so that HBM accesses under it fault (R111). -/
def State.keyless (s : State) (slot : BitVec 6) : Bool := slot != 0 && (s.keys.get ⟨slot.toNat, slot.isLt⟩).isNone

/-- What a key slot encrypts with, as a number (R110): 0 for plaintext, else 2^512 with its key pair. -/
def State.slotKey (s : State) (slot : BitVec 6) : Nat :=
  if slot == 0 then 0
  else
    match s.keys.get ⟨slot.toNat, slot.isLt⟩ with
    | some p => 2 ^ 512 + p.toNat
    | none => 0

/-- CheckTarget (R99, R100, R111, R152): the canonical PA, in which the own-scratchpad alias is named by the scratchpad window, or
the fault. -/
def State.checkTarget (s : State) (a : Acc) (va : W64) (pa : Nat) : Except Fa Nat :=
  let low := pa % 2 ^ 52
  let prot : Except Fa Nat := .error { cause := cProt, tval := BitVec.ofNat 64 pa, va := va }
  let win := fun (peer : Bool) =>
    match s.window peer (low / 2 ^ 40) with
    | some w => if low % 2 ^ 40 < w.len then .ok pa else prot
    | none => prot
  match paType pa with
  | 0 =>
    if low < 1536 * 2 ^ 30 then
      if s.keyless a.key then .error { cause := cProt, tval := va, va := va } else .ok pa
    else prot
  | 1 => if low < 2 ^ 30 then .ok pa else prot
  | 2 =>
    if low < 2 ^ 22 then
      if a.inside low then .ok (s.scrBase + low) else .error { cause := cScratch, tval := BitVec.ofNat 64 low, va := va }
    else prot
  | 3 => win false
  | 4 => win true
  | _ => prot

/-! ### The vector port (R114, R115) -/

/-- The number of an address space's entry in the vector map. -/
def vmapVpn (e : W64) : Nat := fld e 0 27

/-- The reserved bits of a vector-map entry (R114). -/
def vmapReserved (e : W64) : Nat := fld e 56 5 + fld e 27 3

/-- A resident address space by its id. -/
def State.space (s : State) (asid : BitVec 12) : Option Space := s.spaces.find? fun p => p.asid == asid

/-- The translation generation of an address space (R120). -/
def State.genOf (s : State) (asid : BitVec 12) : W64 := s.gens.get asid.toNat

/-- Whether a VA is canonical (R114). -/
def canonical (va : W64) : Bool := va.extractLsb' 57 7 == if va.getLsbD 56 then 0x7F else 0

/-- The valid entry of a VA among vector-map entries (R115). -/
def vmapEntry (vmap : List W64) (va : W64) : Option W64 := vmap.find? fun e => e.getLsbD 63 && vmapVpn e == fld va 30 27

/-- The vector-map entries that the core's die holds for an address space (R114). -/
def State.vmapOf (s : State) (asid : BitVec 12) : List W64 :=
  match s.space asid with
  | some p => if p.dies.getLsbD s.die then p.maps.get (fin 8 s.die) else []
  | none => []

/-- VecTranslate through given entries, with the permissions an access needs (R115): reads need R, writes W, folds and atomics
both. -/
def State.xlateVia (s : State) (a : Acc) (vmap : List W64) (va : W64) (r w : Bool) : Except Fa Nat :=
  let fault := fun (c : Byte) => Except.error { cause := c, tval := va, va := va }
  if !canonical va then fault cProt
  else
    match vmapEntry vmap va with
    | none => fault cVmapAbsent
    | some e =>
      if (w && !e.getLsbD 61) || (r && !e.getLsbD 62) then fault cProt
      else s.checkTarget a va (fld e 30 26 * 2 ^ 30 + fld va 0 30)

/-- VecTranslate (R115). -/
def State.vecXlate (s : State) (a : Acc) (va : W64) (r w : Bool) : Except Fa Nat := s.xlateVia a (s.vmapOf a.asid) va r w

/-! ### What a reader sees -/

/-- Some bits of a byte replaced. -/
def applyBits (old new bits : Byte) : Byte := (old &&& ~~~bits) ||| (new &&& bits)

/-- The byte at its home (R110): `mem` holds what was written, and a granule of HBM that was written under another key is read as its
ciphertext decrypted under this one. -/
def State.homeByte (s : State) (key pa : Nat) : Byte :=
  let written := (s.keyTag.get (pa / 64)).toNat
  if written == key || !isHbm pa then s.mem.get pa
  else (recipher written key (pa / 64) (s.mem.read (pa / 64 * 64) 64)).getD (pa % 64) 0

/-- Whether a stream sees a held store (R304): its own, or one its team published. -/
def Held.seenBy (h : Held) (task : Option Task) (st : Fin 4) (k : StreamId) : Bool :=
  match task with
  | none => false
  | some t => h.task.launch == t.launch && h.task.team == t.team && (h.pub || (h.strand == st && h.stream == k))

/-- The byte as a member of the core sees it: the write-combining buffer, which holds plaintext (R111), over the home (R118, R299). -/
def State.coreByte (s : State) (key pa : Nat) : Byte :=
  s.wcb.foldl (fun b e => if e.pa == pa then applyBits b e.byte e.bits else b) (s.homeByte key pa)

/-- Held stores of one team in their coherence order, which is that of the wave fence (R296, R306): task by task, the E-stream's stores
before the A-stream's, each stream's in program order. -/
def fenceGroups (hs : List Held) : List (List Held) :=
  ((List.range 4).flatMap fun ix => [(ix, StreamId.E), (ix, StreamId.A)]).map fun k =>
    hs.filter fun h => h.task.ix == k.1 && h.stream == k.2

/-- The held stores of a byte that a stream of a task sees, in their coherence order (R296, R304). -/
def State.heldSeen (s : State) (t : Option Task) (st : Fin 4) (k : StreamId) (pa : Nat) : List Held :=
  (fenceGroups (s.held.filter fun h => h.pa == pa && h.seenBy t st k)).flatMap id

/-- The byte as a stream of a task sees it: the latest of the held stores it sees over the core's byte (R296, R304). -/
def State.taskByte (s : State) (t : Option Task) (st : Fin 4) (k : StreamId) (key pa : Nat) : Byte :=
  (s.heldSeen t st k pa).foldl (fun b h => applyBits b h.byte h.bits) (s.coreByte key pa)

/-- The byte as a stream, or without one a member of the core, sees it. `who` is the stream on whose behalf the access is made. -/
def State.viewByte (s : State) (who : Option (Fin 4 × StreamId)) (key pa : Nat) : Byte :=
  match who with
  | none => s.coreByte key pa
  | some (st, k) => s.taskByte (s.strand st).task st k key pa

/-- The state as a stream sees it: the held stores that it sees after the write-combining buffer's, so that what reads without a stream reads for
it (R304). -/
def State.asSeen (s : State) (st : Fin 4) (k : StreamId) : State :=
  let seen := (fenceGroups (s.held.filter fun h => h.seenBy (s.strand st).task st k)).flatMap id
  { s with wcb := s.wcb ++ seen.map fun h =>
      { strand := h.strand, task := some h.task, pa := h.pa, byte := h.byte, bits := h.bits, key := h.key, at_ := 0 } }

/-- Consecutive bytes as a stream sees them. -/
def State.view (s : State) (who : Option (Fin 4 × StreamId)) (key pa n : Nat) : List Byte :=
  (List.range n).map fun i => s.viewByte who key (pa + i)

/-- The bits of a byte that writes of bytes in part cover. -/
def bitsOver (l : List (Nat × Byte)) (pa : Nat) : Byte := l.foldl (fun b e => if e.1 == pa then b ||| e.2 else b) 0

/-- Whether writes cover a granule whole. -/
def coversGranule (l : List (Nat × Byte)) (g : Nat) : Bool := (List.range 64).all fun i => bitsOver l (64 * g + i) == 0xFF

/-- The bits that the write-combining buffer writes. -/
def State.wcbBits (s : State) : List (Nat × Byte) := s.wcb.map fun e => (e.pa, e.bits)

/-- Whether a reader of a byte meets poison (R103): its granule is poisoned, or its stack is retired (R109), and no pending
stores cover the whole granule. -/
def State.poisoned (s : State) (pa : Nat) : Bool :=
  s.lostAt pa || (s.poison.contains (pa / 64) && !coversGranule s.wcbBits (pa / 64))

/-- Whether a stream of a task that reads a byte meets poison: its own view covers the granule as well where the stores that it sees held
do (R103, R304). -/
def State.poisonedTo (s : State) (t : Option Task) (st : Fin 4) (k : StreamId) (pa : Nat) : Bool :=
  s.poisoned pa
    && (s.lostAt pa
      || !coversGranule (s.wcbBits ++ (s.held.filter fun h => h.seenBy t st k).map fun h => (h.pa, h.bits)) (pa / 64))

/-- Whether a stream that reads any of consecutive bytes meets poison. -/
def State.anyPoison (s : State) (st : Fin 4) (k : StreamId) (pa n : Nat) : Bool :=
  (List.range n).any fun i => s.poisonedTo (s.strand st).task st k (pa + i)

/-- Whether a stream of the core, or without one a member of it, that reads a byte meets poison. -/
def State.poisonedFor (s : State) (who : Option (Fin 4 × StreamId)) (pa : Nat) : Bool :=
  match who with
  | none => s.poisoned pa
  | some (st, k) => s.poisonedTo (s.strand st).task st k pa

/-- Whether any of consecutive bytes is poisoned at its home. -/
def State.homePoison (s : State) (pa n : Nat) : Bool := (List.range n).any fun i => s.poisoned (pa + i)

/-! ### The scalar port and Sv57 (R116) -/

/-- What an access needs of a leaf (R116). -/
inductive Need where
  | fetch
  | load
  | store
  deriving DecidableEq, Repr

/-- Whether a leaf permits an access (R116): U, A, and X, R, or both R and W with D. -/
def leafOk (pte : W64) (need : Need) : Bool :=
  pte.getLsbD 4 && pte.getLsbD 6 &&
    match need with
    | .fetch => pte.getLsbD 3
    | .load => pte.getLsbD 1
    | .store => pte.getLsbD 1 && pte.getLsbD 2 && pte.getLsbD 7

/-- The PA that a leaf at a level gives for a VA. -/
def leafPa (pte va : W64) (level : Nat) : Nat :=
  fld pte 10 44 * 2 ^ 12 / 2 ^ (12 + 9 * level) * 2 ^ (12 + 9 * level) + va.toNat % 2 ^ (12 + 9 * level)

/-- One walk of the Sv57 tables from a table down (R116): the leaf and its level. A table entry in a held stack keeps it (R107; log 97). -/
def State.walk (s : State) (a : Acc) (va : W64) : Nat → Nat → Except Fa (W64 × Nat)
  | 0, _ => .error { cause := cSpage, tval := va, va := va }
  | level + 1, table =>
    let spage : Except Fa (W64 × Nat) := .error { cause := cSpage, tval := va, va := va }
    let at_ := table + fld va (12 + 9 * level) 9 * 8
    match s.checkTarget { a with spb := 0, sps := 2 ^ 22, plb := 0, pls := 0 } va at_ with
    | .error e => .error { e with cause := cProt }
    | .ok pa =>
      let pte := leWord (s.view none (s.slotKey a.key) pa 8)
      if s.heldAt pa then .error { cause := cHeld, tval := BitVec.ofNat 64 pa, va := va }
      else if !pte.getLsbD 0 || fld pte 54 10 != 0 || (pte.getLsbD 2 && !pte.getLsbD 1) then spage
      else if pte.getLsbD 1 || pte.getLsbD 3 then
        if fld pte 10 44 % 2 ^ (9 * level) != 0 then spage else .ok (pte, level)
      else if pte.getLsbD 4 || pte.getLsbD 6 || pte.getLsbD 7 then spage
      else State.walk s a va level (fld pte 10 44 * 2 ^ 12)

/-- A cached leaf that covers a VA. -/
def tlbHit (tlb : List TlbEntry) (va : W64) : Option TlbEntry :=
  tlb.find? fun e => va.toNat / 2 ^ (12 + 9 * e.level) == e.vpn

/-- The leaf of a VA: a cached one if the stream's TLB holds it, else the walk's (R116). -/
def State.leaf (s : State) (st : Fin 4) (k : StreamId) (va : W64) : Except Fa (W64 × Nat) :=
  if !canonical va then .error { cause := cSpage, tval := va, va := va }
  else
    match tlbHit (s.stream st k).tlb va with
    | some e => .ok (e.pte, e.level)
    | none => s.walk (s.acc st) va 5 (fld (s.strand st).aspace 20 44 * 2 ^ 12)

/-- Translation on the scalar port (R116) with CheckTarget. -/
def State.scaXlate (s : State) (st : Fin 4) (k : StreamId) (va : W64) (need : Need) : Except Fa Nat :=
  match s.leaf st k va with
  | .error e => .error e
  | .ok (pte, level) =>
    if leafOk pte need then s.checkTarget (s.acc st) va (leafPa pte va level)
    else .error { cause := cSpage, tval := va, va := va }

/-! ### Performing writes -/

/-- A granule of HBM encrypted under another key (R110): the writer of part of it has read the rest under its own key. -/
def State.rekeyOne (s : State) (key : Nat) (whole : Bool) (g : Nat) : State :=
  { s with
    mem := if whole then s.mem else s.mem.splice (64 * g) ((List.range 64).map fun i => s.homeByte key (64 * g + i))
    keyTag := s.keyTag.set g (BitVec.ofNat 513 key) }

/-- The granules of HBM that a write meets, each under the writer's key. -/
def State.rekey (s : State) (key pa n : Nat) : State :=
  let gs := if isHbm pa then ((List.range (n / 64 + 2)).map fun i => pa / 64 + i).filter fun g =>
    decide (64 * g < pa + n) && (s.keyTag.get g).toNat != key else []
  gs.foldl (fun u g => u.rekeyOne key (decide (pa ≤ 64 * g) && decide (64 * g + 64 ≤ pa + n)) g) s

/-- Bytes written at their home under a key: in HBM the key of their granules follows (R110), and a granule written whole loses its poison
(R103). A write to a retired stack is discarded (R109). -/
def State.putBytes (s : State) (key pa : Nat) (bs : List Byte) : State :=
  if s.lostAt pa then s
  else
    let s' := s.rekey key pa bs.length
    { s' with
      mem := s'.mem.splice pa bs
      poison := s.poison.filter fun g => !(decide (pa ≤ g * 64) && decide (g * 64 + 64 ≤ pa + bs.length)) }

/-- Some bits of one byte written at its home; the other bits keep what the home holds at that moment (R188, R306). -/
def State.putBits (s : State) (key pa : Nat) (b bits : Byte) : State :=
  s.putBytes key pa [applyBits (s.homeByte key pa) b bits]

/-- A granule marked poisoned. -/
def State.addPoison (s : State) (pa : Nat) : State :=
  if s.poison.contains (pa / 64) then s else { s with poison := s.poison ++ [pa / 64] }

/-- The granules that writes cover whole lose their poison (R103). -/
def State.cleanWhole (s : State) (l : List (Nat × Byte)) : State :=
  { s with poison := s.poison.filter fun g => !coversGranule l g }

/-- The requests that a held stack keeps, one more (R107). -/
def State.queueAt (s : State) (pa : Nat) (q : StackReq) : State :=
  { s with stks := s.stks.set (stackOf pa).val { s.stackAt pa with queue := (s.stackAt pa).queue ++ [q] } (stackOf pa).isLt }

/-- Writes of bytes in part performed at their home as one write: granules that they cover whole lose their poison (R103), but in a retired
stack, which discards them (R109). -/
def State.putParts (s : State) (l : List (Nat × Nat × Byte × Byte)) : State :=
  (l.foldl (fun u e => u.putBits e.1 e.2.1 e.2.2.1 e.2.2.2) s).cleanWhole
    ((l.filter fun e => !s.lostAt e.2.1).map fun e => (e.2.1, e.2.2.2))

/-- A line of the write-combining buffer performed at its home. -/
def State.putLine (s : State) (es : List WcbEntry) : State := s.putParts (es.map fun e => (e.key, e.pa, e.byte, e.bits))

/-- A line of the write-combining buffer leaves it: a held stack keeps it in its queue (R107). -/
def State.drainLine (s : State) (es : List WcbEntry) : State :=
  match es with
  | [] => s
  | e :: _ => if s.heldAt e.pa then s.queueAt e.pa (.line es) else s.putLine es

/-- The entries of the write-combining buffer in the lines that a range of bytes meets. -/
def WcbEntry.near (e : WcbEntry) (pa n : Nat) : Bool := decide (pa / 64 ≤ e.pa / 64) && decide (e.pa / 64 ≤ (pa + n - 1) / 64)

/-- Whether an entry of the write-combining buffer leaves it with a range of bytes: it is in a line that the range meets, and no window that cannot
be reached keeps it there. -/
def State.leaves (s : State) (pa n : Nat) (e : WcbEntry) : Bool := e.near pa n && !s.unreachable e.pa

/-- The lines of the write-combining buffer that a range of bytes meets drained to their homes, so that a later write follows them in the
coherence order (R296, R299). -/
def State.drainAt (s : State) (pa n : Nat) : State :=
  let out := s.wcb.filter (s.leaves pa n)
  if out.isEmpty then s
  else
    let lines := (out.map fun e => e.pa / 64).eraseDups
    { lines.foldl (fun t l => t.drainLine (out.filter fun e => e.pa / 64 == l)) s with
      wcb := s.wcb.filter fun e => !s.leaves pa n e }

/-! ### Seals and footprints (R129, R130, R132, R247) -/

/-- Whether two ranges meet. -/
def meets (a n b m : Nat) : Bool := decide (a < b + m) && decide (b < a + n)

/-- The element size of a plat. -/
def Plat.sz (p : Plat) : Nat := 2 ^ p.lsz

/-- The footprint of a plat in bytes (R124). -/
def Plat.foot (p : Plat) : Nat := 64 + p.body

/-- Whether index values are non-decreasing. -/
def sortedIdx : List W64 → Bool
  | a :: b :: t => decide (a ≤ b) && sortedIdx (b :: t)
  | _ => true

/-- The distinct target addresses of a plat in the order of their first element (R127). -/
def uniqueTa : List W64 → List W64
  | [] => []
  | a :: t => a :: (uniqueTa t).filter (fun b => b != a)

/-- The flags byte of a plat header (R127). -/
def Plat.flags (p : Plat) : Byte :=
  BitVec.ofNat 8 ((if p.released.isSome then 32 else 0) + (if p.reason != 0 then 16 else 0) + (if p.verify then 8 else 0)
    + (if p.composed then 4 else 0) + (if (uniqueTa p.ta).length < p.n then 2 else 0) + (if sortedIdx p.idx then 1 else 0))

/-- The PA of a plat's header: its team's arena and its handle. -/
def platPa (t : Team) (p : Plat) : Nat := 2 ^ 52 + t.core % 256 * 2 ^ 22 + t.arena + p.h

/-- Whether a team's partition and arena lie in memory, its bytes of the scratchpad being another's (R347, R369). -/
def State.scrSaved (s : State) (t : Team) : Bool :=
  s.cores.any fun c => c.savedScr.any fun e => e.launch == t.launch && e.team == t.team

/-- Bytes of a saved scratchpad replaced from an offset on. -/
def SavedScr.put (e : SavedScr) (o : Nat) (bs : List Byte) : SavedScr :=
  { e with bytes := Tab.splice e.bytes o bs }

/-- The engine's own header update (R127): bytes 0x05 and 0x06, in the scratchpad or where the team's arena is saved. -/
def State.platHdr (s : State) (t : Team) (p : Plat) : State :=
  if s.scrSaved t then
    s.mapCores fun c => { c with savedScr := c.savedScr.map fun e =>
      if e.launch == t.launch && e.team == t.team then e.put (t.arena + p.h + 5) [p.flags, p.reason] else e }
  else s.putBytes 0 (platPa t p + 5) [p.flags, p.reason]

/-- The plats of every team with some of them changed, and the headers of those rewritten. -/
def State.setPlats (s : State) (sel : Team → Plat → Bool) (f : Plat → Plat) : State :=
  let s' := s.teams.foldl (fun u t => t.plats.foldl (fun u p => if sel t p then u.platHdr t (f p) else u) u) s
  { s' with teams := s.teams.map fun t => { t with plats := t.plats.map fun p => if sel t p then f p else p } }

/-- The PAs of the headers of some plats, where they lie in a scratchpad. -/
def State.hdrPas (s : State) (sel : Team → Plat → Bool) : List Nat :=
  s.teams.flatMap fun t => if s.scrSaved t then [] else (t.plats.filter fun p => sel t p).map fun p => platPa t p

/-- The first stale reason kept (R132). -/
def Plat.stale (p : Plat) (r : Byte) : Plat := if p.reason == 0 then { p with reason := r } else p

/-- The seals that a write meets (R130). -/
def State.sealsMet (s : State) (pa n : Nat) : List (Option Nat) :=
  (s.seals.filter fun x => meets pa n x.pa x.len).map fun x => some x.key

/-- Plats whose seals a write meets go stale with reason 1 (R130). The header of each is rewritten, which is a write of the engine and may
meet seals in turn; a plat goes stale once, so their number bounds the depth. -/
def State.sealMark : Nat → State → Nat → Nat → State
  | 0, s, _, _ => s
  | f + 1, s, pa, n =>
    let ids := s.sealsMet pa n
    if ids.isEmpty then s
    else
      let sel := fun (_ : Team) (p : Plat) => p.reason == 0 && p.seals.any fun i => ids.contains i
      (s.hdrPas sel).foldl (fun u a => State.sealMark f u (a + 5) 2) (s.setPlats sel fun p => p.stale 1)

/-- Enough depth for every plat of the machine to go stale. -/
def State.sealDepth (s : State) : Nat := (s.teams.map fun t => t.plats.length).sum + 1

/-- Some plats changed, with the seals that the writes of their headers meet (R127, R130). -/
def State.modPlats (s : State) (sel : Team → Plat → Bool) (f : Plat → Plat) : State :=
  (s.hdrPas sel).foldl (fun u a => State.sealMark s.sealDepth u (a + 5) 2) (s.setPlats sel f)

/-- The bits of one element of a row map's panel. -/
def RowMap.bits (m : RowMap) : Nat :=
  match m.cls with
  | .narrow => if m.sew == 0 then 4 else 8
  | .int8 => 8
  | .fp16 | .bf16 => 16

/-- The PA of a VA through a row map's bind-time translations. -/
def RowMap.pa (m : RowMap) (va : Nat) : Nat :=
  match m.xl.find? fun e => e.1 == va / 2 ^ 22 with
  | some e => e.2 * 2 ^ 22 + va % 2 ^ 22
  | none => 0

/-- The PA of row k of the panel, and its bytes. -/
def RowMap.rowPa (m : RowMap) (k : Nat) : Nat := m.pa (m.wa.toNat + k * m.stride)

/-- The bytes of a panel row. -/
def RowMap.rowBytes (m : RowMap) : Nat := (m.nn * m.bits + 7) / 8

/-- The resident positions that a write meets, marked stale (R247). -/
def RowMap.touch (m : RowMap) (pa n : Nat) : RowMap :=
  { m with stale := (m.list.zip m.stale).map fun e =>
      match e.1 with
      | some k => e.2 || meets pa n (m.rowPa k) m.rowBytes
      | none => e.2 }

/-- The resident rows of a matrix state that a write meets, marked stale (R247). -/
def Matrix.touch (m : Matrix) (pa n : Nat) : Matrix := { m with maps := m.maps |> mapVec fun r => r.map fun x => x.touch pa n }

/-- The resident rows of every matrix state of a core that a write meets, marked stale: also of one that is saved (R221, R247). -/
def CoreSt.touch (c : CoreSt) (pa n : Nat) : CoreSt :=
  { c with mat := c.mat.touch pa n, savedMat := c.savedMat.map fun e => (e.1, e.2.touch pa n) }

/-- Whether a matrix state binds a row map. -/
def Matrix.binds (m : Matrix) : Bool := m.maps.toList.any fun r => r.isSome

/-- Whether a core's matrix state, or one that it has saved, binds a row map. -/
def CoreSt.binds (c : CoreSt) : Bool := c.mat.binds || c.savedMat.any fun e => e.2.binds

/-- Plats whose footprint a write meets (R132), those of a team whose arena is saved apart. -/
def State.footMark (s : State) (pa n : Nat) : State :=
  if paType pa == 1 then
    s.modPlats (fun t p => p.reason == 0 && meets pa n (platPa t p) p.foot && !s.scrSaved t) fun p => p.stale 5
  else s

/-- What a write marks (R130, R132, R247): plats whose seal it meets (reason 1), plats whose footprint it meets (reason 5), and the
resident rows it meets. -/
def State.markWrite (s : State) (pa n : Nat) : State :=
  let s1 := (State.sealMark s.sealDepth s pa n).footMark pa n
  if isHbm pa && s1.cores.any CoreSt.binds then s1.mapCores fun c => c.touch pa n else s1

/-- A write that performs at its home at once: after the pending stores it overlaps, with everything it marks. -/
def State.write (s : State) (key pa : Nat) (bs : List Byte) : State :=
  ((s.drainAt pa bs.length).putBytes key pa bs).markWrite pa bs.length

/-- A write of some bits of one byte that performs at its home at once. -/
def State.writeBits (s : State) (key pa : Nat) (b bits : Byte) : State :=
  ((s.drainAt pa 1).putBits key pa b bits).markWrite pa 1

/-- Bytes with their addresses as runs of consecutive ones within a granule, so that a granule written whole is one write (R103). -/
def runsOf : List (Nat × Byte) → List (Nat × List Byte)
  | [] => []
  | (a, b) :: t =>
    match runsOf t with
    | (a', bs) :: r => if a + 1 == a' && a' % 64 != 0 then (a, b :: bs) :: r else (a, [b]) :: (a', bs) :: r
    | [] => [(a, [b])]

/-- Bytes written where each belongs. -/
def State.scatterBytes (s : State) (key : Nat) (l : List (Nat × Byte)) : State :=
  (runsOf l).foldl (fun u r => u.write key r.1 r.2) s

/-! ### Held stores of D-mode (R304, R305, R386) -/

/-- Whether a held store is one of the active core's (R304, R316). -/
def State.heldHere (s : State) (h : Held) : Bool :=
  match s.launch h.task.launch with
  | some l => l.coreOf (h.task.team.toNat % l.hdr.c) == s.core
  | none => true

/-- Whether a store of a strand is held: D-mode, outside the core's own scratchpad (R304). -/
def State.holds (s : State) (st : Fin 4) (pa : Nat) : Bool := (s.strand st).det && !s.ownScr pa

/-- The charge of the stores of one stream to byte addresses (R386): 128 bytes for each new line. -/
def State.lineCharge (s : State) (st : Fin 4) (k : StreamId) (pas : List Nat) : Nat :=
  match (s.strand st).task, s.teamOf st with
  | some t, some m => 128 * ((pas.map fun p => p / 64).eraseDups.filter fun l => !m.lines.contains (t, k, l)).length
  | _, _ => 0

/-- Whether a charge fits in the share of the strand's logical core (R386). -/
def State.fits (s : State) (st : Fin 4) (n : Nat) : Bool :=
  match s.launchOf st, s.teamOf st with
  | some l, some m => decide (m.charge + n ≤ l.hdr.share)
  | _, _ => n == 0

/-- Bits of one byte held for the wave fence, with the charge of a new line (R304, R386). -/
def State.holdByte (s : State) (st : Fin 4) (k : StreamId) (key pa : Nat) (b bits : Byte) : State :=
  match (s.strand st).task with
  | none => s
  | some t =>
    let s' := s.modTeam t fun m =>
      if m.lines.contains (t, k, pa / 64) then m
      else { m with lines := m.lines ++ [(t, k, pa / 64)] }
    { s' with held := s'.held ++
        [{ task := t, strand := st, stream := k, pa := pa, byte := b, bits := bits, key := key, pub := false }] }

/-- Consecutive bytes held. -/
def State.holdBytes (s : State) (st : Fin 4) (k : StreamId) (key pa : Nat) (bs : List Byte) : State :=
  ((bs.zipIdx).foldl (fun u e => u.holdByte st k key (pa + e.2) e.1 0xFF) s).markWrite pa bs.length

/-! ### Stores of a stream -/

/-- A scalar store (R286, R299): held in D-mode, queued while the stack is held, else performed at once. -/
def State.scalarStore (s : State) (st : Fin 4) (k : StreamId) (pa : Nat) (bs : List Byte) : State :=
  let key := s.slotKey (s.acc st).key
  if s.holds st pa then s.holdBytes st k key pa bs
  else if isHbm pa && s.heldAt pa then
    ((s.drainAt pa bs.length).queueAt pa (.store st k (s.strand st).task pa bs key s.tick)).markWrite pa bs.length
  else s.write key pa bs

/-- The lines of 64 bytes that the write-combining buffer of a core has room for: 256 KiB (R18). -/
def wcbLines : Nat := 4096

/-- The write-combining buffer with room for a line: the oldest line drains where it is full (R18, R299). -/
def State.wcbRoom (s : State) (pa : Nat) : State :=
  match s.wcb.find? fun e => !s.unreachable e.pa with
  | none => s
  | some e =>
    if wcbLines ≤ s.wcb.length && !s.wcb.any (fun x => x.pa / 64 == pa / 64)
        && decide (wcbLines ≤ (s.wcb.map fun x => x.pa / 64).eraseDups.length) then s.drainAt e.pa 1
    else s

/-- Bits of one byte delivered behind a window, where no scope sees the store before its delivery (R295). -/
def State.deliver (s : State) (key pa : Nat) (b bits : Byte) : State :=
  { s.putBytes key pa [applyBits (s.coreByte key pa) b bits] with wcb := s.wcb.filter fun e => e.pa != pa }

/-- Bits of one byte of a vector store outside D-mode (R299): into the write-combining buffer, straight into the core's own
scratchpad, or delivered behind a window. The seals are checked when the buffer accepts it (R130). -/
def State.wcbByte (s : State) (st : Fin 4) (key pa : Nat) (b bits : Byte) : State :=
  if s.ownScr pa then (s.drainAt pa 1).putBits key pa b bits
  else if inWindow pa then s.deliver key pa b bits
  else
    let s' := s.wcbRoom pa
    let e : WcbEntry := {
      strand := st
      task := (s.strand st).task
      pa := pa
      byte := b
      bits := bits
      key := key
      at_ := s.tick }
    { s' with wcb := s'.wcb ++ [e] }

/-- One element of a vector store of the E-stream: whole bytes, or one nibble (R188). -/
def State.vectorStore (s : State) (st : Fin 4) (pa : Nat) (bs : List Byte) (bits : Byte) : State :=
  let key := s.slotKey (s.acc st).key
  let s' := if s.holds st pa
    then bs.zipIdx.foldl (fun u e => u.holdByte st .E key (pa + e.2) e.1 bits) s
    else bs.zipIdx.foldl (fun u e => u.wcbByte st key (pa + e.2) e.1 bits) s
  s'.markWrite pa bs.length

/-- Whether any store of a strand is still in the write-combining buffer. -/
def State.wcbHolds (s : State) (st : Fin 4) : Bool := s.wcb.any fun e => e.strand == st

/-- Whether a held stack still keeps an access of a stream, or a store that an acquire at step `acq` has handed to it (R300). -/
def StackReq.keeps (q : StackReq) (st : Fin 4) (k : StreamId) (task : Option Task) (acq : Nat) : Bool :=
  match q with
  | .line es => es.any fun e => (k == .E && e.strand == st && e.task == task) || decide (e.at_ < acq)
  | .store a b t _ _ _ at_ => (a == st && b == k && t == task) || decide (at_ < acq)
  | .load a b t .. | .read a b t .. | .atomic a b t .. => a == st && b == k && t == task
  | .work _ t (.instr a b ..) .. | .work _ t (.sparse a b ..) .. | .work _ t (.redo a b ..) .. => a == st && b == k && t == task
  | .work .. => false

/-- The core that a task's team is resident on; the active core for none. -/
def State.coreFor (s : State) (t : Option Task) : Nat :=
  match t.bind fun u => s.teams.find? fun m => m.holds u with
  | some m => m.core
  | none => s.core

/-- The entries for outstanding memory requests that the strands of a core share (R18). -/
def memEntries : Nat := 1024

/-- Whether a request of a held stack is a scalar access of the active core. -/
def State.owns (s : State) (q : StackReq) : Bool :=
  match q with
  | .store _ _ t .. | .load _ _ t .. | .read _ _ t .. | .atomic _ _ t .. => s.coreFor t == s.core
  | .line _ | .work .. => false

/-- Whether the scalar accesses of the core that are on their way hold every entry (R18; log 123): those that streams have left behind and those
that held stacks keep. -/
def State.noEntry (s : State) : Bool :=
  memEntries ≤ s.posted.length + (s.stks.toList.map fun x => (x.queue.filter s.owns).length).sum

/-- Whether a scalar access that must wait finds no place in a stack's queue, so that its stream waits before it. -/
def State.noPlace (s : State) (pa : Nat) : Bool := !isHbm pa || s.noEntry

/-- Whether a held stack still keeps a request of a stream. -/
def State.stackHolds (s : State) (st : Fin 4) (k : StreamId) : Bool :=
  s.stks.toList.any fun x => x.queue.any fun q => q.keeps st k (s.strand st).task 0

/-! ### Work that a held stack keeps (R107) -/

/-- The stacks that some PAs lie in. -/
def stacksOf (pas : List Nat) : List (Fin 24) := ((pas.filter isHbm).map stackOf).eraseDups

/-- The held stacks that some PAs lie in. -/
def State.heldStacks (s : State) (pas : List Nat) : List (Fin 24) := (stacksOf pas).filter s.stackHeld

/-- Whether any PA lies in a held stack. -/
def State.inHeld (s : State) (pas : List Nat) : Bool := pas.any fun pa => isHbm pa && s.stackHeld (stackOf pa)

/-- One request placed at the end of the queues of some stacks. -/
def State.placeReq (s : State) (ns : List (Fin 24)) (q : StackReq) : State :=
  if ns.isEmpty then s
  else { s with stks := Vector.ofFn fun n => let x := s.stks.get n; if ns.contains n then { x with queue := x.queue ++ [q] } else x }

/-- Whether a request is a piece of work of a core. -/
def StackReq.isWork (q : StackReq) (core : Nat) (t : Option Task) (w : HeldWork) : Bool :=
  match q with
  | .work c u v _ _ _ => c == core && u == t && v == w
  | .line _ | .store .. | .load .. | .read .. | .atomic .. => false

/-- Whether a held stack keeps a piece of work of the active core. -/
def State.keepsWork (s : State) (t : Option Task) (w : HeldWork) : Bool :=
  s.stks.toList.any fun x => x.queue.any fun q => q.isWork s.core t w

/-- Work of a core that touches PAs in held stacks takes its place in the queue of each of them, once and at once, as one request with the
keys that are loaded now (R107, R122; log 97). -/
def State.keepWork (s : State) (pas : List Nat) (t : Option Task) (w : HeldWork) : State :=
  if s.keepsWork t w then s else s.placeReq (s.heldStacks pas) (.work s.core t w (stacksOf pas) s.keys s.tick)

/-- An access from outside takes its place in the queues of the held stacks that it touches (R107). -/
def State.keepOutside (s : State) (pas : List Nat) (w : HeldWork) : State :=
  s.placeReq (s.heldStacks pas) (.work s.core none w (stacksOf pas) s.keys s.tick)

/-- The host or a peer writes its own memory behind a window (R99, R363); no other memory is written from outside but through UET (R358). -/
def State.remoteWrite (s : State) (pa : Nat) (bs : List Byte) : State :=
  let a : Acc := { asid := 0, key := 0, spb := 0, sps := 0, plb := 0, pls := 0 }
  let ok := fun (q : Nat) => inWindow q && (s.checkTarget a 0 q).toOption == some q
  if ((List.range bs.length).map fun i => pa + i).all ok then s.putBytes 0 pa bs else s

/-- The oldest entry of a strand's VIQ takes its place in the queue of a held stack that it reads (R107; log 97). -/
def State.keepEntry (s : State) (st : Fin 4) (pas : List Nat) : State := s.keepWork pas (s.strand st).task (.viq st)

/-- The instruction that a stream executes takes its place in the queue of a held stack (R107; log 97). -/
def State.keepInstr (s : State) (st : Fin 4) (k : StreamId) (pas : List Nat) (i : Instr) : State :=
  s.keepWork pas (s.strand st).task (.instr st k (s.stream st k).pc s.cur.words i)

end Sys2Proof.Machine
end

