-- ==== Sys2Proof/Machine/Fp.lean ====
section
/-! DEFINITION. Floating point as the spec gives it (R73 to R76, R85 to R98, R387): a value is decoded to an exact number, the
operation is computed exactly, and the result is rounded once. Nothing here touches the state. -/

namespace Sys2Proof.Machine

/-- An IEEE-like format: exponent bits and fraction bits (R73). -/
structure Fmt where
  eb : Nat
  mb : Nat
  deriving DecidableEq, Repr

/-- binary16 (R73). -/
def Fmt.fp16 : Fmt := ⟨5, 10⟩
/-- bfloat16 (R73). -/
def Fmt.bf16 : Fmt := ⟨8, 7⟩
/-- binary32 (R73). -/
def Fmt.fp32 : Fmt := ⟨8, 23⟩
/-- binary64 (R73). -/
def Fmt.fp64 : Fmt := ⟨11, 52⟩

/-- The width of a format in bits. -/
def Fmt.width (f : Fmt) : Nat := 1 + f.eb + f.mb
/-- The exponent bias of a format. -/
def Fmt.bias (f : Fmt) : Int := 2 ^ (f.eb - 1) - 1
/-- The exponent of the last place of a subnormal. -/
def Fmt.qmin (f : Fmt) : Int := 1 - f.bias - f.mb
/-- The exponent field of infinities and NaNs. -/
def Fmt.emax (f : Fmt) : Nat := 2 ^ f.eb - 1
/-- The bits of an infinity. -/
def Fmt.infBits (f : Fmt) (neg : Bool) : Nat := (if neg then 2 ^ (f.eb + f.mb) else 0) + f.emax * 2 ^ f.mb
/-- The bits of a zero. -/
def Fmt.zeroBits (f : Fmt) (neg : Bool) : Nat := if neg then 2 ^ (f.eb + f.mb) else 0
/-- The bits of the largest finite value. -/
def Fmt.maxBits (f : Fmt) (neg : Bool) : Nat := f.infBits neg - 1
/-- The canonical NaN (R74). -/
def Fmt.canon (f : Fmt) : Nat := f.emax * 2 ^ f.mb + 2 ^ (f.mb - 1)

/-- An exact number: a NaN (signalling or not), an infinity, or (-1)^neg * m * 2^e. -/
inductive Num where
  | nan (sig : Bool)
  | inf (neg : Bool)
  | fin (neg : Bool) (m : Nat) (e : Int)
  deriving DecidableEq, Repr

/-- The five IEEE flags NV, DZ, OF, UF, NX in bits 4 to 0 (R77, R78). -/
abbrev Flags := BitVec 5

/-- Invalid operation. -/
def flagNV : Flags := 0x10
/-- Divide by zero. -/
def flagDZ : Flags := 0x08
/-- Overflow. -/
def flagOF : Flags := 0x04
/-- Underflow. -/
def flagUF : Flags := 0x02
/-- Inexact. -/
def flagNX : Flags := 0x01

/-- The sign bit of raw bits. -/
def Fmt.sign (f : Fmt) (b : Nat) : Bool := b / 2 ^ (f.eb + f.mb) % 2 == 1
/-- The exponent field of raw bits. -/
def Fmt.expo (f : Fmt) (b : Nat) : Nat := b / 2 ^ f.mb % 2 ^ f.eb
/-- The fraction field of raw bits. -/
def Fmt.frac (f : Fmt) (b : Nat) : Nat := b % 2 ^ f.mb

/-- Whether raw bits are a subnormal. -/
def Fmt.isSub (f : Fmt) (b : Nat) : Bool := f.expo b == 0 && f.frac b != 0
/-- Whether raw bits are a NaN. -/
def Fmt.isNan (f : Fmt) (b : Nat) : Bool := f.expo b == f.emax && f.frac b != 0
/-- Whether raw bits are a signalling NaN: its most significant fraction bit is 0 (R73). -/
def Fmt.isSig (f : Fmt) (b : Nat) : Bool := f.isNan b && f.frac b / 2 ^ (f.mb - 1) == 0

/-- The number that raw bits stand for (R73). -/
def Fmt.decode (f : Fmt) (b : Nat) : Num :=
  if f.expo b == f.emax then
    if f.frac b == 0 then .inf (f.sign b) else .nan (f.isSig b)
  else if f.expo b == 0 then .fin (f.sign b) (f.frac b) f.qmin
  else .fin (f.sign b) (2 ^ f.mb + f.frac b) (f.qmin + (f.expo b - 1 : Nat))

/-- daz: a subnormal input reads as a zero of its sign (R76). -/
def Fmt.dazBits (f : Fmt) (daz : Bool) (b : Nat) : Nat := if daz && f.isSub b then f.zeroBits (f.sign b) else b

/-- ftz: a subnormal result becomes a zero of its sign and sets UF and NX (R76). -/
def Fmt.ftzBits (f : Fmt) (ftz : Bool) (r : Nat × Flags) : Nat × Flags :=
  if ftz && f.isSub r.1 then (f.zeroBits (f.sign r.1), r.2 ||| flagUF ||| flagNX) else r

/-! ### Rounding -/

/-- Whether to round a magnitude up: the truncated value's last bit, how the dropped part compares with half a unit
(`half`: not less than half, `exactHalf`: exactly half), and whether anything was dropped (R75). -/
def roundUp (mode : BitVec 3) (neg odd half exactHalf any : Bool) : Bool :=
  if mode == 0 then half && (!exactHalf || odd)
  else if mode == 2 then any && neg
  else if mode == 3 then any && !neg
  else if mode == 4 then half
  else false

/-- m * 2^e (and a little more when `sticky`) as a multiple of 2^q: the rounded count and whether it is inexact. -/
def roundTo (mode : BitVec 3) (neg : Bool) (m : Nat) (e : Int) (sticky : Bool) (q : Int) : Nat × Bool :=
  if q ≤ e then (m * 2 ^ (e - q).toNat, sticky)
  else
    let sh := (q - e).toNat
    let n := m / 2 ^ sh
    let r := m % 2 ^ sh
    let hf := 2 ^ (sh - 1)
    let any := r != 0 || sticky
    (if roundUp mode neg (n % 2 == 1) (hf ≤ r) (r == hf && !sticky) any then n + 1 else n, any)

/-- The number of significant bits of a natural number. -/
def bitLen (m : Nat) : Nat := if m == 0 then 0 else Nat.log2 m + 1

/-- Overflow of each mode (R75). -/
def Fmt.overflow (f : Fmt) (mode : BitVec 3) (neg : Bool) : Nat :=
  if mode == 1 || (mode == 2 && !neg) || (mode == 3 && neg) then f.maxBits neg else f.infBits neg

/-- Round a non-zero magnitude m * 2^e (and a little more when `sticky`) into the format: bits and flags (R75, R76: tininess
after rounding). -/
def Fmt.roundMag (f : Fmt) (mode : BitVec 3) (neg : Bool) (m : Nat) (e : Int) (sticky : Bool) : Nat × Flags :=
  let p : Nat := f.mb + 1
  let qu : Int := e + bitLen m - p
  let q : Int := max qu f.qmin
  let r := roundTo mode neg m e sticky q
  let u := roundTo mode neg m e sticky qu
  let tiny : Bool := decide (qu < f.qmin) && decide ((u.1 : Int) * 2 ^ (qu - qu).toNat < 2 ^ (f.mb + (f.qmin - qu).toNat))
  let n := if r.1 == 2 ^ p then 2 ^ f.mb else r.1
  let q' : Int := if r.1 == 2 ^ p then q + 1 else q
  let ex : Nat := if n < 2 ^ f.mb then 0 else (q' - f.qmin).toNat + 1
  if f.emax ≤ ex then (f.overflow mode neg, flagOF ||| flagNX)
  else
    (f.zeroBits neg + ex * 2 ^ f.mb + (n % 2 ^ f.mb),
      (if r.2 then flagNX else 0) ||| (if tiny && r.2 then flagUF else 0))

/-- The sign of an exact zero sum of a and b: theirs when they agree, else minus under RDN alone (IEEE 754-2019). -/
def zeroSign (mode : BitVec 3) (na nb : Bool) : Bool := if na == nb then na else mode == 2

/-- Round an exact number into a format. An infinity is exact; a NaN is canonical (R74). -/
def Fmt.pack (f : Fmt) (mode : BitVec 3) : Num → Nat × Flags
  | .nan sig => (f.canon, if sig then flagNV else 0)
  | .inf neg => (f.infBits neg, 0)
  | .fin neg m e => if m == 0 then (f.zeroBits neg, 0) else f.roundMag mode neg m e false

/-! ### Exact arithmetic -/

/-- Whether a number is a NaN. -/
def Num.isNan : Num → Bool
  | .nan _ => true
  | _ => false

/-- Whether a number is a signalling NaN. -/
def Num.isSig : Num → Bool
  | .nan s => s
  | _ => false

/-- The number with its sign changed. -/
def Num.neg : Num → Num
  | .nan s => .nan s
  | .inf n => .inf (!n)
  | .fin n m e => .fin (!n) m e

/-- The signed mantissa of a finite number. -/
def signed (neg : Bool) (m : Nat) : Int := if neg then -(m : Int) else m

/-- A finite number from a signed mantissa; `z` is the sign of a zero. -/
def Num.ofInt (z : Bool) (i : Int) (e : Int) : Num := if i == 0 then .fin z 0 e else .fin (i < 0) i.natAbs e

/-- Exact sum; ∞ − ∞ is invalid, which the NaN result marks as signalling so that NV is set. -/
def Num.add (mode : BitVec 3) (a b : Num) : Num :=
  match a, b with
  | .nan s, .nan t => .nan (s || t)
  | .nan s, _ => .nan s
  | _, .nan t => .nan t
  | .inf x, .inf y => if x == y then .inf x else .nan true
  | .inf x, .fin _ _ _ => .inf x
  | .fin _ _ _, .inf y => .inf y
  | .fin x m e, .fin y n g =>
    let q := min e g
    Num.ofInt (zeroSign mode x y) (signed x m * 2 ^ (e - q).toNat + signed y n * 2 ^ (g - q).toNat) q

/-- Exact product; 0 × ∞ is invalid. -/
def Num.mul (a b : Num) : Num :=
  match a, b with
  | .nan s, .nan t => .nan (s || t)
  | .nan s, _ => .nan s
  | _, .nan t => .nan t
  | .inf x, .inf y => .inf (x != y)
  | .inf x, .fin y n _ => if n == 0 then .nan true else .inf (x != y)
  | .fin x m _, .inf y => if m == 0 then .nan true else .inf (x != y)
  | .fin x m e, .fin y n g => .fin (x != y) (m * n) (e + g)

/-- The fused a × b + d: an invalid product is invalid whatever d is, and a NaN operand is quiet or signalling as it stands. -/
def Num.fma (mode : BitVec 3) (a b d : Num) : Num := Num.add mode (Num.mul a b) d

/-! ### Operations on bits -/

/-- a + b rounded once (R200, R285). -/
def Fmt.fadd (f : Fmt) (mode : BitVec 3) (a b : Nat) : Nat × Flags := f.pack mode (Num.add mode (f.decode a) (f.decode b))

/-- a − b rounded once. A NaN operand keeps its sign, which no result shows (R74). -/
def Fmt.fsub (f : Fmt) (mode : BitVec 3) (a b : Nat) : Nat × Flags :=
  f.pack mode (Num.add mode (f.decode a) (f.decode b).neg)

/-- a × b rounded once. -/
def Fmt.fmul (f : Fmt) (mode : BitVec 3) (a b : Nat) : Nat × Flags := f.pack mode (Num.mul (f.decode a) (f.decode b))

/-- ±(a × b) ± d rounded once: `np` negates the product, `nd` negates d (R200). -/
def Fmt.ffma (f : Fmt) (mode : BitVec 3) (np nd : Bool) (a b d : Nat) : Nat × Flags :=
  let p := Num.mul (f.decode a) (f.decode b)
  let d' := f.decode d
  f.pack mode (Num.add mode (if np then p.neg else p) (if nd then d'.neg else d'))

/-- a ÷ b rounded once; DZ for a finite non-zero a over a zero (R200). -/
def Fmt.fdiv (f : Fmt) (mode : BitVec 3) (a b : Nat) : Nat × Flags :=
  match f.decode a, f.decode b with
  | .nan s, .nan t => f.pack mode (.nan (s || t))
  | .nan s, _ => f.pack mode (.nan s)
  | _, .nan t => f.pack mode (.nan t)
  | .inf _, .inf _ => f.pack mode (.nan true)
  | .inf x, .fin y _ _ => (f.infBits (x != y), 0)
  | .fin x _ _, .inf y => (f.zeroBits (x != y), 0)
  | .fin x m e, .fin y n g =>
    if n == 0 then
      if m == 0 then f.pack mode (.nan true) else (f.infBits (x != y), flagDZ)
    else if m == 0 then (f.zeroBits (x != y), 0)
    else
      let k := f.mb + 4 + bitLen n
      f.roundMag mode (x != y) (m * 2 ^ k / n) (e - g - k) (m * 2 ^ k % n != 0)

/-- The integer square root, one bit a step from the top. -/
def isqrtFrom (n : Nat) : Nat → Nat → Nat
  | 0, r => r
  | k + 1, r => let c := r + 2 ^ k; isqrtFrom n k (if c * c ≤ n then c else r)

/-- The integer square root. -/
def isqrt (n : Nat) : Nat := isqrtFrom n (bitLen n / 2 + 1) 0

/-- √a rounded once; √(−0) = −0, NV below zero (R200). -/
def Fmt.fsqrt (f : Fmt) (mode : BitVec 3) (a : Nat) : Nat × Flags :=
  match f.decode a with
  | .nan s => f.pack mode (.nan s)
  | .inf neg => if neg then f.pack mode (.nan true) else (f.infBits false, 0)
  | .fin neg m e =>
    if m == 0 then (f.zeroBits neg, 0)
    else if neg then f.pack mode (.nan true)
    else
      let k0 : Nat := 2 * (f.mb + 4)
      let k : Nat := if (e - k0) % 2 == 0 then k0 else k0 + 1
      let n := m * 2 ^ k
      let r := isqrt n
      f.roundMag mode false r ((e - k) / 2) (r * r != n)

/-- Exact comparison of two numbers that are no NaNs: a < b. -/
def Num.lt (a b : Num) : Bool :=
  match a, b with
  | .nan _, _ => false
  | _, .nan _ => false
  | .inf x, .inf y => x && !y
  | .inf x, .fin _ _ _ => x
  | .fin _ _ _, .inf y => !y
  | .fin x m e, .fin y n g =>
    let q := min e g
    signed x m * 2 ^ (e - q).toNat < signed y n * 2 ^ (g - q).toNat

/-- Exact equality of two numbers that are no NaNs. -/
def Num.eq (a b : Num) : Bool :=
  match a, b with
  | .nan _, _ => false
  | _, .nan _ => false
  | _, _ => !Num.lt a b && !Num.lt b a

/-- The key of the total order of R95. -/
def totalKey (w x : Nat) : Nat := if x / 2 ^ (w - 1) % 2 == 0 then x + 2 ^ (w - 1) else 2 ^ w - 1 - x

/-- `TotalOrderLE` of R95. -/
def totalLE (w a b : Nat) : Bool := totalKey w a ≤ totalKey w b

/-- minimumNumber, maximumNumber (`number`) and minimum, maximum of IEEE 754-2019 (R200): −0 below +0, canonical NaNs, NV for a
signalling NaN. -/
def Fmt.minMax (f : Fmt) (isMax number : Bool) (a b : Nat) : Nat × Flags :=
  let fl : Flags := if f.isSig a || f.isSig b then flagNV else 0
  if f.isNan a && f.isNan b then (f.canon, fl)
  else if f.isNan a then (if number then b else f.canon, fl)
  else if f.isNan b then (if number then a else f.canon, fl)
  else
    let le := totalLE f.width a b
    ((if isMax then (if le then b else a) else (if le then a else b)), fl)

/-- The one-hot class of `VFCLS` and `FCLASS` (R201). -/
def Fmt.classify (f : Fmt) (b : Nat) : Nat :=
  let s := f.sign b
  if f.isNan b then (if f.isSig b then 2 ^ 8 else 2 ^ 9)
  else if f.expo b == f.emax then (if s then 2 ^ 0 else 2 ^ 7)
  else if f.expo b == 0 then
    if f.frac b == 0 then (if s then 2 ^ 3 else 2 ^ 4) else (if s then 2 ^ 2 else 2 ^ 5)
  else (if s then 2 ^ 1 else 2 ^ 6)

/-- The six conditions 0 EQ, 1 NE, 2 LT, 3 LE, 4 GT, 5 GE, with 6 UN, on FP bits, and the flag: NV for a signalling NaN, and for any
NaN under LT, LE, GT, GE (R202, R285). -/
def Fmt.compare (f : Fmt) (cond : Nat) (a b : Nat) : Bool × Flags :=
  let x := f.decode a
  let y := f.decode b
  let un := x.isNan || y.isNan
  let r := match cond with
    | 0 => Num.eq x y
    | 1 => !Num.eq x y
    | 2 => Num.lt x y
    | 3 => !un && !Num.lt y x
    | 4 => Num.lt y x
    | 5 => !un && !Num.lt x y
    | _ => un
  (r, if x.isSig || y.isSig || (un && 2 ≤ cond && cond ≤ 5) then flagNV else 0)

/-! ### Conversions (R86) -/

/-- FP to FP: a wider format is exact, a narrower one rounds; NV for a signalling NaN. -/
def Fmt.toFmt (src dst : Fmt) (mode : BitVec 3) (b : Nat) : Nat × Flags := dst.pack mode (src.decode b)

/-- A finite number rounded to an integer by a mode, and whether it is inexact. -/
def roundInt (mode : BitVec 3) (neg : Bool) (m : Nat) (e : Int) : Int × Bool :=
  let r := roundTo mode neg m e false 0
  (signed neg r.1, r.2)

/-- The least and the greatest value of an integer type of w bits. -/
def intRange (w : Nat) (isSigned : Bool) : Int × Int :=
  if isSigned then (-(2 ^ (w - 1) : Int), 2 ^ (w - 1) - 1) else (0, 2 ^ w - 1)

/-- A number to an integer of w bits: NX when an in-range result is inexact; out of range saturates with NV alone; a NaN gives 0
with NV (R86). -/
def Num.toInt (mode : BitVec 3) (w : Nat) (isSigned : Bool) (x : Num) : Int × Flags :=
  let r := intRange w isSigned
  match x with
  | .nan _ => (0, flagNV)
  | .inf neg => (if neg then r.1 else r.2, flagNV)
  | .fin neg m e =>
    let v := roundInt mode neg m e
    if v.1 < r.1 then (r.1, flagNV)
    else if r.2 < v.1 then (r.2, flagNV)
    else (v.1, if v.2 then flagNX else 0)

/-- An exact integer to FP, NX when inexact (R86). -/
def Fmt.ofInt (f : Fmt) (mode : BitVec 3) (i : Int) : Nat × Flags := f.pack mode (Num.ofInt false i 0)

/-- An integer value from the low w bits of a natural number. -/
def readInt (w : Nat) (isSigned : Bool) (b : Nat) : Int :=
  let x := b % 2 ^ w
  if isSigned && 2 ^ (w - 1) ≤ x then (x : Int) - 2 ^ w else x

/-- The low w bits of an integer. -/
def lowBits (w : Nat) (i : Int) : Nat := (i % (2 ^ w : Int)).toNat

/-- An integer clamped to a range. -/
def clampInt (r : Int × Int) (i : Int) : Int := max r.1 (min r.2 i)

/-! ### Narrow formats (R82 to R85, R387) -/

/-- What a format register says (R82). -/
structure Narrow where
  w   : Nat
  s   : Nat
  e   : Nat
  bias : Int
  sp  : Nat
  esc : Bool
  blk : Nat
  deriving DecidableEq, Repr

/-- The fields of a format register (R82); blk in elements. -/
def Narrow.ofReg (r : W64) : Narrow where
  w := r.toNat % 16
  s := r.toNat / 16 % 2
  e := r.toNat / 32 % 8
  bias := readInt 8 true (r.toNat / 256)
  sp := r.toNat / 2 ^ 16 % 4
  esc := r.toNat / 2 ^ 18 % 2 == 1
  blk := 16 * 2 ^ (r.toNat / 2 ^ 19 % 4)

/-- The mantissa width M = W − S − E (R82); meaningful when it is not negative (R83). -/
def Narrow.m (f : Narrow) : Nat := f.w - f.s - f.e

/-- The conditions under which a write to a format register traps `FORMAT` (R83), as a check that it does not. -/
def frLegal (r : W64) : Bool :=
  let f := Narrow.ofReg r
  r.toNat < 2 ^ 21 && f.sp != 3 && 3 ≤ f.w && f.w ≤ 8 && f.s + f.e ≤ f.w
    && !(f.sp == 1 && (f.e < 2 || f.m < 1)) && !(f.esc && f.s == 0 && f.sp != 0)

/-- What a narrow code decodes to (R85). -/
inductive NVal where
  | escape
  | num (x : Num)
  deriving DecidableEq, Repr

/-- `DecodeNarrow` of R85. A narrow NaN is never signalling. -/
def Narrow.decode (f : Narrow) (code : Nat) : NVal :=
  let c := code % 2 ^ f.w
  let neg := f.s == 1 && c / 2 ^ (f.w - 1) == 1
  let mag := c % 2 ^ (f.w - f.s)
  if f.esc && f.s == 1 && neg && mag == 0 then .escape
  else if f.esc && f.s == 0 && c == 2 ^ f.w - 1 then .escape
  else if f.sp == 2 && mag == 2 ^ (f.w - f.s) - 1 then .num (.nan false)
  else if f.e == 0 then .num (.fin neg mag (-f.bias))
  else
    let ec := mag / 2 ^ f.m
    let m := mag % 2 ^ f.m
    if f.sp == 1 && ec == 2 ^ f.e - 1 then .num (if m == 0 then .inf neg else .nan false)
    else if ec == 0 then .num (.fin neg m (1 - f.bias - f.m))
    else .num (.fin neg (2 ^ f.m + m) ((ec : Int) - f.bias - f.m))

/-- The escape code of a format that has one (R85). -/
def Narrow.escCode (f : Narrow) : Nat := if f.s == 1 then 2 ^ (f.w - 1) else 2 ^ f.w - 1

/-- Whether a magnitude code decodes to a finite value that is neither the escape code nor a NaN code. -/
def Narrow.finiteMag (f : Narrow) (mag : Nat) : Bool :=
  match f.decode mag with
  | .num (.fin _ _ _) => true
  | _ => false

/-- The magnitude code of the largest finite value (R205's F), searching down from the all-ones magnitude. -/
def Narrow.maxMagFrom (f : Narrow) : Nat → Nat
  | 0 => 0
  | k + 1 => if f.finiteMag (k + 1) then k + 1 else f.maxMagFrom k

/-- The magnitude code of the largest finite value. -/
def Narrow.maxMag (f : Narrow) : Nat := f.maxMagFrom (2 ^ (f.w - f.s) - 1)

/-- The value of the largest finite code as mantissa and exponent (R205). -/
def Narrow.maxVal (f : Narrow) : Nat × Int :=
  match f.decode f.maxMag with
  | .num (.fin _ m e) => (m, e)
  | _ => (0, 0)

/-- The NaN code: sign 0, all ones in the magnitude (R86). -/
def Narrow.nanCode (f : Narrow) : Nat := 2 ^ (f.w - f.s) - 1

/-- A code with a sign. -/
def Narrow.withSign (f : Narrow) (neg : Bool) (mag : Nat) : Nat := if neg && f.s == 1 then 2 ^ (f.w - 1) + mag else mag

/-- Whether m * 2^e is greater than n * 2^g. -/
def magGt (m : Nat) (e : Int) (n : Nat) (g : Int) : Bool :=
  let q := min e g
  n * 2 ^ (g - q).toNat < m * 2 ^ (e - q).toNat

/-- Conversion of an exact number to a narrow code (R86, R387): code and flags. A tie between powers of two in a format without mantissa bits takes the larger
magnitude (log 143). -/
def Narrow.convert (f : Narrow) (mode : BitVec 3) (x : Num) : Nat × Flags :=
  match x with
  | .nan _ => (if f.sp != 0 then f.nanCode else 0, flagNV)
  | .inf neg =>
    if neg && f.s == 0 then (0, flagNV)
    else if f.sp == 1 then (f.withSign neg ((2 ^ f.e - 1) * 2 ^ f.m), 0)
    else (f.withSign neg f.maxMag, flagOF ||| flagNX)
  | .fin neg m e =>
    if m == 0 then (0, 0)
    else
      let qmin : Int := if f.e == 0 then -f.bias else 1 - f.bias - f.m
      let q : Int := if f.e == 0 then qmin else max (e + bitLen m - (f.m + 1 : Nat)) qmin
      let r := roundTo mode neg m e false q
      let big := f.maxVal
      if r.1 == 0 then (0, flagNX ||| flagUF)
      else if neg && f.s == 0 then (0, flagNV)
      else if magGt r.1 q big.1 big.2 then (f.withSign neg f.maxMag, flagOF ||| flagNX)
      else
        let n := if f.e != 0 && r.1 == 2 ^ (f.m + 1) then 2 ^ f.m else r.1
        let q' : Int := if f.e != 0 && r.1 == 2 ^ (f.m + 1) then q + 1 else q
        let ec : Nat := if f.e == 0 || n < 2 ^ f.m then 0 else (q' - qmin).toNat + 1
        let mag := if f.e == 0 then n else ec * 2 ^ f.m + n % 2 ^ f.m
        (f.withSign neg mag, (if r.2 then flagNX else 0) ||| (if r.2 && f.e != 0 && ec == 0 then flagUF else 0))

/-- Whether a scale code is valid (R87): −120 to +120, or −128. -/
def scaleValid (c : Byte) : Bool := c.toInt == -128 || (-120 ≤ c.toInt && c.toInt ≤ 120)

/-- A number times 2^k, exactly. -/
def Num.scale (x : Num) (k : Int) : Num :=
  match x with
  | .fin neg m e => .fin neg m (e + k)
  | y => y

/-! ### Sums of many terms -/

/-- An exact dyadic sum with the infinities and NaNs of R94: `acc` is the finite part at exponent `e`. -/
structure Exact where
  nan  : Bool
  pinf : Bool
  ninf : Bool
  acc  : Int
  e    : Int
  nv   : Bool
  deriving DecidableEq, Repr

/-- The empty sum. -/
def Exact.zero : Exact := { nan := false, pinf := false, ninf := false, acc := 0, e := 0, nv := false }

/-- One more term (R94): an invalid product comes as a signalling NaN. -/
def Exact.push (s : Exact) (t : Num) : Exact :=
  match t with
  | .nan sig => { s with nan := true, nv := s.nv || sig }
  | .inf neg => { s with pinf := s.pinf || !neg, ninf := s.ninf || neg }
  | .fin neg m e =>
    let q := min s.e e
    { s with acc := s.acc * 2 ^ (s.e - q).toNat + signed neg m * 2 ^ (e - q).toNat, e := q }

/-- The sum as a number (R94): NaN for a NaN term or for infinities of both signs, which are invalid, also beside a NaN. -/
def Exact.val (s : Exact) : Num :=
  if s.nan then .nan (s.nv || (s.pinf && s.ninf))
  else if s.pinf && s.ninf then .nan true
  else if s.pinf then .inf false
  else if s.ninf then .inf true
  else Num.ofInt false s.acc s.e

/-- Whether the sum is an exact zero with no infinity or NaN. -/
def Exact.isZero (s : Exact) : Bool := !s.nan && !s.pinf && !s.ninf && s.acc == 0

/-! ### Trees and CRC -/

/-- The largest power of two less than n, for n at least 2. -/
def halfPow (n : Nat) : Nat := 2 ^ Nat.log2 (n - 1)

/-- The tree of R96 over a non-empty list, with fuel at least its length: `node` combines two results. -/
def treeFold (node : α → α → α) (dflt : α) : Nat → List α → α
  | 0, xs => xs.headD dflt
  | fuel + 1, xs =>
    match xs with
    | [] => dflt
    | [x] => x
    | _ => let h := halfPow xs.length
           node (treeFold node dflt fuel (xs.take h)) (treeFold node dflt fuel (xs.drop h))

/-- One bit of CRC-64/ECMA-182 (R131): not reflected, polynomial 0x42F0E1EBA9EA3693. -/
def crcBit (c : W64) : W64 := if c.msb then (c <<< 1) ^^^ 0x42F0E1EBA9EA3693#64 else c <<< 1

/-- One byte of CRC-64/ECMA-182 (R131). -/
def crcByte (c : W64) (b : Byte) : W64 := (List.range 8).foldl (fun c _ => crcBit c) (c ^^^ (b.setWidth 64 <<< 56))

/-- CRC-64/ECMA-182 of bytes from a start value (R131, R212). -/
def crc64 (start : W64) (bs : List Byte) : W64 := bs.foldl crcByte start

end Sys2Proof.Machine
end

