-- ==== Sys2Proof/Machine/Operands.lean ====
section
/-! DEFINITION. The operand forms of vector and matrix instructions: `VTYPE` (R80), register groups, the operand file and the
last-result file (R60, R170, R174), predicates (R171), the replicate modifier (R66), the group and replicate checks of R61, R66 and
R175, and the shared write of a destination group (R172, R196). -/

namespace Sys2Proof.Machine

/-! ### `VTYPE` (R80) -/

/-- The element width in bits. -/
def vtSew (v : W64) : Nat := 4 * 2 ^ min (fld v 0 3) 4
/-- The group factor G. -/
def vtG (v : W64) : Nat := 2 ^ min (fld v 9 3) 4
/-- kind: 0 IEEE by SEW, 1 BF16, 2 narrow through fr[fmt]. -/
def vtKind (v : W64) : Nat := fld v 3 3
/-- The index of the format register. -/
def vtFmt (v : W64) : Fin 8 := fin 8 (fld v 6 3)
/-- The rounding mode. -/
def vtRm (v : W64) : BitVec 3 := v.extractLsb' 14 3
/-- daz. -/
def vtDaz (v : W64) : Bool := v.getLsbD 13
/-- ftz. -/
def vtFtz (v : W64) : Bool := v.getLsbD 12

/-- Whether a value of `VTYPE` holds no reserved value and no reserved bit (R80). -/
def vtypeOk (v : W64) : Bool :=
  fitsIn v 17 && fld v 14 3 < 5 && fld v 9 3 < 5 && fld v 3 3 < 3 && fld v 0 3 < 5

/-- VISMAX of R185: the columns of a row within `VLCAP`. -/
def vismax (vlcap vtype : W64) : Nat := min 8192 (128 * 2 ^ fld vlcap 0 3) / vtSew vtype

/-! ### Rows and elements (R170) -/

/-- Row r of an operand (R60, R170). -/
def Strand.readRow (x : Strand) (spec : Spec) (r : Nat) : Row :=
  let n := spec.toNat
  if n < 0x40 then x.v.get (fin 64 (n + r))
  else if n < 0x48 then x.o.get (fin 8 (n - 0x40 + r))
  else if n == 0x60 then x.l0.getD r 0
  else x.l1.getD r 0

/-- Row r of a destination written. -/
def Strand.writeRow (x : Strand) (spec : Spec) (r : Nat) (row : Row) : Strand :=
  let n := spec.toNat
  if n < 0x40 then { x with v := x.v.set (fin 64 (n + r)).val row (fin 64 (n + r)).isLt }
  else if n < 0x48 then { x with o := x.o.set (fin 8 (n - 0x40 + r)).val row (fin 8 (n - 0x40 + r)).isLt }
  else x

/-- Element c of a row at a width (R170). -/
def elem (row : Row) (w c : Nat) : Nat := (row.extractLsb' (c * w) w).toNat

/-- Element c of a row written. -/
def setElem (row : Row) (w c : Nat) (v : Nat) : Row :=
  (row &&& ~~~(BitVec.ofNat 8192 (2 ^ w - 1) <<< (c * w))) ||| (BitVec.ofNat 8192 (v % 2 ^ w) <<< (c * w))

/-- A byte of v63, where block scales lie (R88). -/
def Strand.v63Byte (x : Strand) (i : Nat) : Byte := BitVec.ofNat 8 (elem (x.v.get 63) 8 i)

/-! ### Predicates (R171) -/

/-- The bit of a predicate register that governs element (r, c); p0 reads as all ones. -/
def Strand.predBit (x : Strand) (p : BitVec 4) (r c : Nat) : Bool :=
  p == 0 || (x.p.get ⟨p.toNat, p.isLt⟩).getLsbD (r * 2048 + c)

/-- A predicate register written; a write to p0 is discarded. -/
def Strand.writePred (x : Strand) (p : BitVec 4) (v : Pred) : Strand :=
  if p == 0 then x else { x with p := x.p.set p.toNat v p.isLt }

/-- One bit of a predicate value written. -/
def setPredBit (v : Pred) (r c : Nat) (b : Bool) : Pred :=
  let m := (1 : Pred) <<< (r * 2048 + c)
  if b then v ||| m else v &&& ~~~m

/-- Active(r, c) within the grant (R12): the governing predicate, inverted by inv. -/
def Strand.active (x : Strand) (e : Ext) (r c : Nat) : Bool :=
  e.p == 0 || (x.predBit e.p r c != e.inv)

/-! ### The replicate modifier (R66) -/

/-- The segment of a modifier. -/
def Rep.seg (m : Rep) : Nat := 4 ^ (if m.size == 3 then 3 else m.size.toNat)

/-- The column an operand reads for column c. -/
def Rep.col (m : Rep) (c : Nat) : Nat :=
  if m.en then m.idx.toNat * Rep.seg m + c % Rep.seg m else c

/-- Element c of a row; a modifier may name one beyond the row's end where the width is not `VTYPE`'s, whose value is free (log 23). -/
def elemAt (row : Row) (w c : Nat) : Nat :=
  if (c + 1) * w ≤ 8192 then elem row w c else Config.beyondRow row c w % 2 ^ w

/-- Element (r, c) of an operand as its modifier replaces it. -/
def Strand.src (x : Strand) (spec : Spec) (m : Rep) (w r c : Nat) : Nat := elemAt (x.readRow spec r) w (Rep.col m c)

/-! ### The checks at enqueue (R61, R66, R175) -/

/-- The rows of the groups that l0 and l1 hold once every VIQ entry has committed (R175). `shifts` says whether a form shifts the
last-result file (R174). -/
def shiftsLast (f : VForm) : Bool :=
  match f with
  | .row _ _ _ _ _ _ _ _ _ => false
  | .vec maj f3 _ x _ =>
    match maj, f3 with
    | 0x11, _ => false
    | 0x12, n => n == 0 || n == 1 || n == 4 || n == 6
    | 0x17, n => n == 6
    | 0x19, n => n != 2
    | 0x1A, n => n != 6
    | 0x1B, 3 => true
    | 0x1B, 5 => x.fx.toNat / 128 == 1
    | 0x1B, _ => false
    | _, _ => true

/-- How often a form shifts the last-result file: `EPTK.fin` twice (R174, R232). -/
def shiftCount (f : VForm) : Nat :=
  match f with
  | .vec 0x1B 5 _ x _ => if x.fx.toNat / 128 == 1 then 2 else 0
  | _ => if shiftsLast f then 1 else 0

/-- The row counts of l0 and l1 after the entries of the VIQ. -/
def Strand.lastRows (x : Strand) : Nat × Nat :=
  x.viq.foldl (fun p e =>
    match shiftCount e.form with
    | 0 => p
    | 1 => (vtG e.vtype, p.1)
    | _ => (vtG e.vtype, vtG e.vtype)) (x.l0.length, x.l1.length)

/-- The group check of R61 and R175 on one operand. -/
def groupOk (last : Nat × Nat) (g : Nat) (spec : Spec) : Bool :=
  let n := spec.toNat
  if n < 0x40 then n % g == 0
  else if n < 0x48 then decide (g ≤ 8) && (n - 0x40) % g == 0
  else if n == 0x60 then decide (g ≤ last.1)
  else decide (g ≤ last.2)

/-- Whether a kind of operand is a register group. -/
def Kind.group (k : Kind) : Bool := k == .dst || k == .src || k == .opf || k == .vreg

/-- Checks 7 and 8 of R68 on a form: the subcode of the first that fails. -/
def formCheck (last : Nat × Nat) (vtype vlcap : W64) (f : VForm) : Option Byte :=
  let g := vtG vtype
  match f with
  | .row func _ _ _ _ _ _ vX _ => if (func == 1 || func == 2) && !groupOk last g vX then some 0x06 else none
  | .vec maj f3 o x _ =>
    match vShape maj f3 x.fx with
    | none => none
    | some u =>
      let ok := fun (k : Kind) (s : Spec) => !Kind.group k || groupOk last g s
      let rep := fun (m : Rep) => !m.en || decide ((m.idx.toNat + 1) * Rep.seg m ≤ vismax vlcap vtype)
      if !(ok u.vd o.vd && ok u.vs1 o.vs1 && ok u.vs2 o.vs2 && ok u.vs3 x.vs3) then some 0x06
      else if !(rep x.rep1 && rep x.rep2) then some 0x07
      else none

/-! ### Writing a destination group (R172, R174, R196) -/

/-- One row of results: for each column of the grant, the value and flags that `f` gives, or nothing to write. -/
def evalRow (w cols : Nat) (old : Row) (f : Nat → Option (Nat × Flags)) : Row × Flags :=
  (List.range cols).foldl (fun acc c =>
    match f c with
    | some (v, fl) => (setElem acc.1 w c v, acc.2 ||| fl)
    | none => acc) (old, 0)

/-- The rows of a destination group written over the grant, with the flags of all elements. -/
def Strand.writeGroup (x : Strand) (vd : Spec) (w rows cols : Nat) (f : Nat → Nat → Option (Nat × Flags)) : Strand × Flags :=
  (List.range rows).foldl (fun acc r =>
    let res := evalRow w cols (x.readRow vd r) (f r)
    (acc.1.writeRow vd r res.1, acc.2 ||| res.2)) (x, 0)

/-- The last-result file shifted (R174): l0 is the destination group as it stands after the write, all G rows. -/
def Strand.shiftLast (x : Strand) (vd : Spec) (g : Nat) : Strand :=
  { x with l1 := x.l0, l0 := (List.range g).map fun r => x.readRow vd r }

/-- Flags ORed into `VSTATUS` (R77, R79). -/
def Strand.orFlags (x : Strand) (f : Flags) : Strand := { x with vstatus := x.vstatus ||| f.setWidth 64 }

/-- The effective rounding mode (R75). -/
def vecRm (vtype : W64) (rnd : BitVec 3) : BitVec 3 := if rnd == 7 then vtRm vtype else rnd

/-! ### The checks of R81 -/

/-- The FP format of `VTYPE` for vector FP arithmetic: sew 2, 3 or 4 with kind 0, sew 2 with kind 1. -/
def vtFp (vtype : W64) : Option Fmt :=
  match vtKind vtype, fld vtype 0 3 with
  | 0, 2 => some .fp16
  | 0, 3 => some .fp32
  | 0, 4 => some .fp64
  | 1, 2 => some .bf16
  | _, _ => none

/-- A valid format register (R82, R83: the reset value is none). -/
def frValid (r : W64) : Bool := frLegal r

/-- The narrow side of R81: kind 2, a valid fr[fmt] and the matching sew. -/
def Strand.narrowOk (x : Strand) (vtype : W64) : Bool :=
  let fr := x.fr.get (vtFmt vtype)
  vtKind vtype == 2 && frValid fr && fld vtype 0 3 == if fld fr 0 4 ≤ 4 then 0 else 1

/-- `TVAL` of a `FORMAT` trap of R81. -/
def Strand.formatVal (x : Strand) (vtype : W64) : W64 :=
  (if vtKind vtype == 2 then ((x.fr.get (vtFmt vtype)).extractLsb' 0 24).setWidth 64 <<< 32 else 0)
    ||| (vtype.extractLsb' 0 32).setWidth 64

end Sys2Proof.Machine
end

