-- ==== Sys2Proof/Machine/Ops.lean ====
section
/-! DEFINITION. The operations that instructions share: ending a launch, parking a strand for the supervisor (R339), taking a trap on
the handler path with its frame (R338, R343, R344), the return from it (R354), and the queues between streams with `QDEADLOCK`
(R272 to R276). -/

namespace Sys2Proof.Machine

/-! ### VIQ entries -/

/-- Whether a form is a vector memory instruction (major 0x12). -/
def memForm (f : VForm) : Bool :=
  match f with
  | .vec maj _ _ _ _ => maj == 0x12
  | .row _ _ _ _ _ _ _ _ _ => false

/-- Whether a form is a `BLD` (R227). -/
def bldForm (f : VForm) : Bool :=
  match f with
  | .vec maj f3 _ _ _ => maj == 0x1B && f3 == 1
  | .row _ _ _ _ _ _ _ _ _ => false

/-- The scalar destination of a form, which holds the front end until the commit (R198). -/
def scalarDest (f : VForm) : Option Reg :=
  match f with
  | .vec 0x17 4 _ x _ => some x.xs2
  | .vec 0x17 5 _ x _ => some x.xs2
  | .vec 0x19 2 _ x _ => some x.xs2
  | .vec 0x1A 6 _ x _ => some x.xs2
  | .vec 0x1B 6 _ x _ => if x.fx == 3 then some x.xs2 else none
  | .row 0 false rd _ _ _ _ _ _ => some rd
  | .row 4 _ rd _ _ _ _ _ _ => some rd
  | .row 6 _ rd _ _ _ _ _ _ => some rd
  | _ => none

/-- Whether the front end waits for an entry. -/
def holdsFront (e : VEntry) : Bool := (scalarDest e.form).isSome

/-- The number of bits set in the low bits of a number. -/
def popNat : Nat → Nat → Nat
  | 0, _ => 0
  | f + 1, v => if v == 0 then 0 else v % 2 + popNat f (v / 2)

/-- `VFCNT` (R193): the elements pending in the fault mask. -/
def Strand.vfcnt (x : Strand) : Nat := popNat 32768 x.mask.toNat

/-- `VCP` (R278): the oldest uncommitted entry, or the E-stream's PC. -/
def Strand.vcp (x : Strand) : W64 :=
  match x.viq with
  | e :: _ => e.pc
  | [] => x.e.pc

/-- Whether the oldest entry is a vector memory instruction that has begun (R389). -/
def Strand.begun (x : Strand) : Bool :=
  match x.viq with
  | e :: _ => memForm e.form && e.begun
  | [] => false

/-! ### The trap frame (R343, R344, R389, R390) -/

/-- n zero bytes. -/
def zeros (n : Nat) : List Byte := List.replicate n 0

/-- Bytes padded with zeros to a length. -/
def padTo (n : Nat) (bs : List Byte) : List Byte := bs ++ zeros (n - bs.length)

/-- Whether words, as a frame holds them, are a `BLD` (R390). -/
def bldWord (w0 : W32) : Bool := fieldMaj w0 == 0x1B && fieldVF3 w0 == 1

/-- Whether an entry of a frame with a number of words is laid out as a `BLD`, which holds three (R390). -/
def bldEntry (w0 : W32) (n : Nat) : Bool := bldWord w0 && n == 3

/-- One VIQ entry of the frame (R344, R390). -/
def entryBytes (e : VEntry) : List Byte :=
  let words := e.words.flatMap fun w => leBytes 4 w.toNat
  let bld := bldEntry (e.words.headD 0) e.words.length
  leBytes 8 e.pc.toNat
    ++ (if bld then padTo 12 words ++ leBytes 8 e.xscl.toNat else padTo 20 words)
    ++ leBytes 1 e.words.length ++ zeros 3 ++ leBytes 4 e.vtype.toNat ++ leBytes 2 e.vlr.toNat ++ leBytes 2 e.vlc.toNat
    ++ leBytes 8 e.xs.toNat ++ leBytes 8 e.xs2.toNat
    ++ (if bld then leBytes 8 e.xol.toNat else leBytes 2 e.vstart.toNat ++ zeros 6)

/-- The bits of a branch queue, oldest first. -/
def bitsNat : List Bool → Nat
  | [] => 0
  | b :: bs => b.toNat + 2 * bitsNat bs

/-- The fault record word of the frame (R343, R389). -/
def faultWord (x : Strand) : Nat :=
  if x.begun then
    x.frec.cause.toNat + x.frec.pages.length * 2 ^ 8 + x.frec.more.toNat * 2 ^ 12 + 2 ^ 13
  else 0

/-- The pages of the frame's fault record. -/
def faultPages (x : Strand) : List W64 := if x.begun then x.frec.pages.take 8 else []

/-- The frame's restart element (R389). -/
def frameVstart (x : Strand) : Nat :=
  match x.viq with
  | e :: _ => if memForm e.form && e.begun then e.restart.toNat else x.vstart.toNat
  | [] => x.vstart.toNat

/-- The x registers of a stream. -/
def xBytes (t : Stream) : List Byte := t.x.toList.flatMap fun v => leBytes 8 v.toNat

/-- The 10 KiB of the frame (R343), from a strand whose trap registers hold what trap entry writes, and the resume PCs. -/
def frameBytes (x : Strand) (apc epc : W64) : List Byte :=
  ([x.tstatus, x.tcause, x.tpc, x.tval, apc, epc, x.vtype].flatMap fun v => leBytes 8 v.toNat)
    ++ leBytes 8 x.vlr.toNat ++ leBytes 8 x.vlc.toNat ++ leBytes 8 (frameVstart x) ++ leBytes 8 x.vfcnt
    ++ leBytes 8 x.vstatus.toNat ++ leBytes 8 x.a.sfctl.toNat ++ leBytes 8 x.e.sfctl.toNat ++ leBytes 8 x.viq.length
    ++ leBytes 8 (faultWord x)
    ++ padTo 64 ((faultPages x).flatMap fun v => leBytes 8 v.toNat)
    ++ (x.q.toList.flatMap fun q => leBytes 1 q.length) ++ leBytes 1 x.q6.length ++ leBytes 1 x.q7.length ++ zeros 56
    ++ xBytes x.a ++ xBytes x.e
    ++ (x.q.toList.flatMap fun q => padTo 128 (q.flatMap fun v => leBytes 8 v.toNat))
    ++ leBytes 8 (bitsNat x.q6) ++ leBytes 8 (bitsNat x.q7) ++ zeros 496
    ++ padTo 4096 (x.viq.flatMap entryBytes) ++ leBytes 4096 x.mask.toNat

/-- The length of a frame. -/
def frameLen : Nat := 10240

/-- The lines of a frame through the vector port: the PA of each 64-byte line, or the first fault (R340, R354). -/
def State.frameLines (s : State) (a : Acc) (va : W64) (r w : Bool) : Except Fa (List Nat) :=
  (List.range (frameLen / 64)).mapM fun i => s.vecXlate a (va + BitVec.ofNat 64 (64 * i)) r w

/-! ### Ending a launch -/

/-- A strand whose task has been halted for good. -/
def Strand.stopped (x : Strand) : Strand :=
  { x with
    a := { x.a with status := if x.a.status == .absent then .absent else .ended, owes := none }
    e := { x.e with status := .ended, owes := none }
    viq := []
    q := Vector.replicate 6 []
    q6 := []
    q7 := []
    mask := 0
    skip := 0
    vflags := 0
    live := false
    barIn := false
    pendFault := []
    halt := .none
    preDue := false }

/-- The pushes of a strand that still wait are withdrawn: their instructions execute again (R338), or never. -/
def State.dropWaits (s : State) (st : Fin 4) : State :=
  { s with
    copyQ := s.copyQ.filter fun c => c.strand != st
    platQ := s.platQ.filter fun p => p.strand != st }

/-- Whether a strand's task belongs to a launch. -/
def Strand.of (x : Strand) (id : BitVec 32) : Bool :=
  match x.task with
  | some t => t.launch == id
  | none => false

/-- Whether an entry of the matrix engine's queue is an engine operation: a product of the row units, which ends in the output FIFO of engine 2 (R147). -/
def MatEntry.isOp (q : MatEntry) : Bool :=
  match q.ent.form with
  | .row _ _ _ _ _ _ _ _ _ => true
  | .vec _ _ _ _ _ => false

/-- A core with every task of a launch halted. Of what the launch has queued in a saved matrix state the engine operations stay, which are in flight and
complete (R324; log 124). -/
def CoreSt.stopTasks (c : CoreSt) (id : BitVec 32) : CoreSt :=
  { c with
    savedMat := c.savedMat.map fun e => if e.1 == id then (e.1, { e.2 with mq := e.2.mq.filter MatEntry.isOp }) else e
    strands := c.strands |> mapVec fun x => if x.of id then x.stopped else x
    parked := c.parked.filter fun p => !p.ctx.of id
    copyQ := c.copyQ.filter fun q => !(c.strands.get q.strand).of id
    platQ := c.platQ.filter fun q => !(c.strands.get q.strand).of id }

/-- The launch ends early with a status (R324, R340, R109): every task of it is halted; what is in flight completes. The first
status that ends a launch is kept. -/
def State.endLaunch (s : State) (id : BitVec 32) (status : Byte) (detail : W64) : State :=
  let s1 := s.modLaunch id fun l =>
    match l.phase with
    | .waiting | .queued | .running => { l with phase := .ending status, detail := detail }
    | .ending _ | .complete _ => l
  { s1 with queue := s1.queue.filter fun q => q != id }.mapCores fun c => c.stopTasks id

/-- The launch of a strand ends TRAPPED (R340, R328): the cause in [7:0], the low half of the WID in [63:32] of the detail. -/
def State.endTrapped (s : State) (st : Fin 4) (cause : Byte) : State :=
  match (s.strand st).task with
  | some t => s.endLaunch t.launch 0x11 ((s.strand st).wid <<< 32 ||| cause.setWidth 64)
  | none => s.modStrand st Strand.stopped

/-! ### Taking a trap -/

/-- The causes of the supervisor path (R337). -/
def supervisorCause (c : Byte) : Bool := c == cPriv || c == cVmapAbsent || c == cSpage || c == cPoison

/-- Whether an access that has left a stream is still on its way, so that the strand does not resume (R345). -/
def Stream.away (t : Stream) : Bool :=
  (match t.status with
    | .stackWait .. => true
    | _ => false)
    || match t.owes with
      | some (.waiting ..) => true
      | _ => false

/-- Whether an access that has left a stream of a strand is still on its way. -/
def State.away (s : State) (st : Fin 4) (k : StreamId) : Bool := (s.stream st k).away

/-- Whether an access of a stream has come back poisoned, which the stream traps on next (R103, R341). -/
def Stream.poisoned (t : Stream) : Bool :=
  match t.status with
  | .poisonDue _ => true
  | .run | .queue .. | .asleep _ | .stackWait .. | .waitRead .. | .copyWait | .platWait | .hold | .ended | .absent => false

/-- A stream stopped before the instruction in which it waits; one whose access has left it stays as it is (R338, R345). -/
def Stream.backOff (t : Stream) : Stream :=
  match t.status with
  | .run | .ended | .absent | .hold | .stackWait .. | .poisonDue _ => t
  | .queue .. | .asleep _ | .waitRead .. | .copyWait | .platWait => { t with status := .run }

/-- A stream stopped at its instruction boundary for a trap of its strand (R338, step 2). An access that has left it counts as executed, and
its result is owed to the saved context, so that the trap waits for no memory (R108, R345; log 98). -/
def Stream.leave (t : Stream) : Stream :=
  match t.status with
  | .stackWait _ rd next => { t with pc := next, status := .run, owes := some (.waiting rd t.pc) }
  | .hold => { t with status := .run }
  | .run | .ended | .absent | .queue .. | .asleep _ | .waitRead .. | .poisonDue _ | .copyWait | .platWait => t.backOff

/-- The supervisor path (R339): the strand is parked and a record goes to the supervisor cores, for a vector memory access with its fault record
and fault mask (R192). -/
def State.park (s : State) (st : Fin 4) (k : StreamId) (cause : Byte) (tpc tval : W64) (vec : Bool) : State :=
  let x := s.strand st
  let s1 := (s.dropWaits st).modStrand st fun x =>
    { x with a := x.a.backOff, e := x.e.backOff, halt := .supervisor cause tpc tval vec k }
  { s1 with supRecords := s1.supRecords ++
      [{ strand := s.core * 4 + st.val, cause := cause, tpc := tpc, tval := tval
         frec := if vec then x.frec else { cause := 0, pages := [], more := false }
         mask := if vec then x.mask else 0 }] }

/-- The resume PC of a stream that did not trap (R343): behind an access that has left it. -/
def resumePc (t : Stream) : W64 :=
  match t.status with
  | .absent => 0
  | .stackWait _ _ next => next
  | .run | .queue .. | .asleep _ | .waitRead .. | .poisonDue _ | .copyWait | .platWait | .hold | .ended => t.pc

/-- `TSTATUS` as trap entry sets it (R342). -/
def entryTstatus (x : Strand) (k : StreamId) (vec fwd : Bool) : W64 :=
  BitVec.ofNat 64 (1 + (match k with | .A => 2 | .E => 0) + (if x.a.over then 4 else 0) + (if x.e.over then 8 else 0)
    + (if vec then 16 else 0) + (if fwd then 32 else 0))

/-- The strand with the trap registers written (R338, step 3) and the values that `TRET` restores kept (R354). -/
def Strand.trapRegs (x : Strand) (k : StreamId) (cause : Byte) (tpc tval : W64) (vec fwd : Bool) : Strand :=
  { x with
    tcause := cause.setWidth 64
    tpc := tpc
    tval := tval
    tstatus := entryTstatus x k vec fwd
    entry := { vtype := x.vtype, vlr := x.vlr, vlc := x.vlc, latshare := x.latshare, mask := x.mask, skip := x.skip, flags := x.vflags } }

/-- The strand at its handler (R338, steps 4 and 5): VIQ, queues and fault mask empty, the trapping stream at `TVEC`. -/
def Strand.atHandler (x : Strand) (k : StreamId) (now : Nat) : Strand :=
  { x with
    viq := []
    q := Vector.replicate 6 []
    q6 := []
    q7 := []
    mask := 0
    skip := 0
    vflags := 0
    frec := { cause := 0, pages := [], more := false }
    a := if k == .A then { x.a.leave with pc := x.tvec, status := .run, age := now } else x.a.leave
    e := if k == .E then { x.e.leave with pc := x.tvec, status := .run, age := now } else x.e.leave }

/-- Taking an exception on the handler path (R338, R340): `k` is the stream that takes it, `resume` its resume PC in the frame. Where R340
ends the launch, the trap registers stand written (log 73). -/
def State.enter (s : State) (st : Fin 4) (k : StreamId) (cause : Byte) (tpc tval : W64) (vec fwd : Bool) (resume : W64) : State :=
  let x := s.strand st
  let y := x.trapRegs k cause tpc tval vec fwd
  let dead := (s.modStrand st fun _ => y).endTrapped st cause
  if x.tstatus.getLsbD 0 || x.tvec == 0 || x.tframe == 0 || x.tframe.toNat % 64 != 0 then dead
  else
    match s.frameLines x.acc x.tframe false true with
    | .error _ => dead
    | .ok lines =>
      if !lines.all fun pa => s.inPart x.acc pa then dead
      else
        let apc := if k == .A then resume else resumePc x.a
        let epc := if k == .E then resume else resumePc x.e
        let bytes := frameBytes y apc epc
        let s1 := (lines.zipIdx).foldl (fun u p => u.write 0 p.1 ((bytes.drop (64 * p.2)).take 64)) s
        (s1.dropWaits st).modStrand st fun _ => y.atHandler k s.tick

/-- Whether a trap of a stream comes after a `POISON` of the other stream that is pending, which is a cause of the supervisor path (R341). A stream that
a handler keeps stopped takes its own later. -/
def State.poisonFirst (s : State) (st : Fin 4) (k : StreamId) (cause : Byte) : Bool :=
  !supervisorCause cause && !(s.strand st).tstatus.getLsbD 0 && (s.stream st k.other).poisoned

/-- A trap of the scalar instruction that a stream executes. In the E-stream it waits while older VIQ entries have not committed
(R280), and in each for a `POISON` of the other (R341): the instruction is executed again after them. -/
def State.trapTo (s : State) (st : Fin 4) (k : StreamId) (cause : Byte) (tval resume : W64) : State :=
  if k == .E && !(s.strand st).viq.isEmpty || s.poisonFirst st k cause then s
  else if supervisorCause cause then s.park st k cause (s.stream st k).pc tval false
  else s.enter st k cause (s.stream st k).pc tval false false resume

/-- A trap whose instruction executes again after the return. -/
def State.trap (s : State) (st : Fin 4) (k : StreamId) (cause : Byte) (tval : W64) : State :=
  s.trapTo st k cause tval (s.stream st k).pc

/-- An access fault of a scalar instruction; one whose page table entry lies in a held stack takes its place in that stack's queue (R107). -/
def State.fault (s : State) (st : Fin 4) (k : StreamId) (f : Fa) : State :=
  if f.cause == cHeld then s.keepWork [f.tval.toNat] (s.strand st).task (.redo st k (s.stream st k).pc f.va s.cur.words)
  else s.trap st k f.cause f.tval

/-- `ILLEGAL` with a subcode. -/
def State.illegal (s : State) (st : Fin 4) (k : StreamId) (sub : Byte) : State := s.trap st k cIllegal (illVal sub s.w0)

/-- A trap that a supervisor core takes (R4, R121, R183), whose further course the spec does not describe (log 59). -/
def State.supTrap (s : State) (cause : Byte) (tval : W64) : State := { s with supTraps := s.supTraps ++ [{ cause := cause, tval := tval }] }

/-- A trap of the oldest VIQ entry, at the VCP (R279): the E-stream resumes at its own PC. After a `POISON` of the A-stream that is pending the entry is
tried again (R341). -/
def State.vecTrap (s : State) (st : Fin 4) (cause : Byte) (tval : W64) : State :=
  let x := s.strand st
  if s.poisonFirst st .E cause then s
  else if supervisorCause cause then s.park st .E cause x.vcp tval true
  else s.enter st .E cause x.vcp tval true false (resumePc x.e)

/-! ### Queues (R272 to R276) -/

/-- The entries in a queue. -/
def Strand.qcount (x : Strand) (q : Nat) : Nat :=
  if h : q < 6 then (x.q.get ⟨q, h⟩).length else if q == 6 then x.q6.length else x.q7.length

/-- The depth of a queue. -/
def qdepth (q : Nat) : Nat := if q < 6 then 16 else 64

/-- The queue operation that blocks a stream now. -/
def Strand.blockedOn (x : Strand) (k : StreamId) : Option (Nat × Bool) :=
  match (x.stream k).status with
  | .queue q send => if (if send then qdepth q ≤ x.qcount q else x.qcount q = 0) then some (q, send) else none
  | _ => none

/-- The condition of R276. -/
def Strand.deadlocked (x : Strand) : Bool :=
  (x.a.over || (x.blockedOn .A).isSome) && (x.e.over || (x.blockedOn .E).isSome)
    && ((x.blockedOn .A).isSome || (x.blockedOn .E).isSome)

/-- Half of the TVAL of R276. -/
def deadHalf (b : Option (Nat × Bool)) : BitVec 8 :=
  match b with
  | some (q, send) => 0x80 ||| (if send then 0x40 else 0) ||| BitVec.ofNat 8 (q % 16)
  | none => 0

/-- `TVAL` of R276. -/
def Strand.deadVal (x : Strand) : W64 := (deadHalf (x.blockedOn .A) ++ deadHalf (x.blockedOn .E)).setWidth 64

/-- `QDEADLOCK` taken where R276 says, once no older VIQ entry and no `ENGINE_FAULT` is left (R341). -/
def State.checkDead (s : State) (st : Fin 4) : State :=
  let x := s.strand st
  if x.deadlocked && x.viq.isEmpty && !x.tstatus.getLsbD 0 && x.halt == .none && x.pendFault.isEmpty then
    let k : StreamId := if x.e.over then .A else .E
    let pc := (x.stream k).pc
    s.enter st k cQdeadlock pc x.deadVal false false pc
  else s

/-- A stream blocks in a queue instruction (R273). -/
def State.blockOn (s : State) (st : Fin 4) (k : StreamId) (q : Nat) (send : Bool) : State :=
  (s.wait st k (.queue q send)).checkDead st

/-- Whether a handler runs on the strand, so that its partner stream is stopped (R340). -/
def State.inHandler (s : State) (st : Fin 4) : Bool := (s.strand st).tstatus.getLsbD 0

/-! ### The front end of the vector instruction queue (R277, R178) -/

/-- A form with the operands the E-stream captures at enqueue (R65, R178). The first vector memory instruction in the queue takes
`VSTART`, which a program's write can only have set while none was in it (R193). -/
def Strand.capture (x : Strand) (words : List W32) (f : VForm) : VEntry where
  pc := x.e.pc
  words := words
  form := f
  vtype := x.vtype
  vlr := x.vlr
  vlc := x.vlc
  xs := match f with
    | .vec _ _ _ e _ => x.e.readX e.xs
    | .row _ _ _ rs1 _ _ _ _ _ => x.e.readX rs1
  xs2 := match f with
    | .vec _ _ _ e _ => x.e.readX e.xs2
    | .row _ _ _ _ _ _ _ _ _ => 0
  vstart := if memForm f && !x.viq.any fun e => memForm e.form then x.vstart.extractLsb' 0 16 else 0
  xscl := match f with
    | .vec _ _ o _ _ => if bldForm f then x.e.readX (o.vs1.setWidth 5) else 0
    | .row _ _ _ _ _ _ _ _ _ => 0
  xol := match f with
    | .vec _ _ o _ _ => if bldForm f then x.e.readX (o.vs2.setWidth 5) else 0
    | .row _ _ _ _ _ _ _ _ _ => 0
  begun := false
  restart := 0
  ill := none

/-- The most entries of the queue (R277). -/
def viqDepth : Nat := 64

/-- What a vector or matrix instruction does at the front end (R277): the stream, group and replicate checks of R68 in their order,
then the capture and the append; a full queue stalls it. A scalar destination holds the front end until the commit (R198). -/
def State.frontEnd (s : State) (st : Fin 4) (k : StreamId) (f : VForm) : State :=
  let x := s.strand st
  if k == .A then s.illegal st k 0x05
  else
    match formCheck x.lastRows x.vtype x.cap f with
    | some sub => s.illegal st k sub
    | none =>
      if viqDepth ≤ x.viq.length then s
      else
        let s1 := (s.modStrand st fun y => { y with viq := y.viq ++ [y.capture s.cur.words f] }).retire st k
        if (scalarDest f).isSome then s1.wait st .E .hold else s1

/-! ### Return from a trap (R354) -/

/-- A little-endian number of a frame. -/
def frameNat (f : List Byte) (off n : Nat) : Nat := leNat ((f.drop off).take n)

/-- A little-endian doubleword of a frame. -/
def frameWord (f : List Byte) (off : Nat) : W64 := BitVec.ofNat 64 (frameNat f off 8)

/-- Whether bytes of a frame are zero. -/
def frameZero (f : List Byte) (off n : Nat) : Bool := ((f.drop off).take n).all fun b => b == 0

/-- The offset of a VIQ entry in the frame. -/
def entryOff (i : Nat) : Nat := 0x800 + 64 * i

/-- Whether an entry of the frame passes the checks of R354: its words and its captured `VSTART`, which is zero but for a vector memory
instruction, and the bytes that R344 shows as zero. -/
def entryOk (f : List Byte) (i : Nat) : Bool :=
  let o := entryOff i
  let n := frameNat f (o + 0x1C) 1
  let w0 : W32 := BitVec.ofNat 32 (frameNat f (o + 8) 4)
  (n == 1 || n == 3 || n == 5) && n == wordCount w0 && frameZero f (o + 0x1D) 3
    && vtypeOk (BitVec.ofNat 64 (frameNat f (o + 0x20) 4))
    && (bldEntry w0 n || (frameZero f (o + 8 + 4 * n) (20 - 4 * n) && frameZero f (o + 0x3A) 6
      && decide (frameNat f (o + 0x38) 2 ≤ if fieldMaj w0 == 0x12 then 32767 else 0)))

/-- Whether a queue of the frame has a count within its depth and zeros behind its entries. -/
def queueOk (f : List Byte) (q : Nat) : Bool :=
  let n := frameNat f (0xC0 + q) 1
  if q < 6 then decide (n ≤ 16) && frameZero f (0x300 + 128 * q + 8 * n) (128 - 8 * n)
  else decide (n ≤ 64) && decide (frameNat f (0x600 + 8 * (q - 6)) 8 < 2 ^ n)

/-- Whether a value of `SFCTL` holds no reserved bit or mode (R78). -/
def sfctlOk (v : W64) : Bool := fitsIn v 8 && fld v 5 3 < 5

/-- Whether a value of `VSTATUS` holds no reserved bit (R77). -/
def vstatusOk (v : W64) : Bool := fitsIn v 32 && fld v 7 9 == 0

/-- The checks of R354 on a frame. -/
def Strand.frameOk (x : Strand) (f : List Byte) : Bool :=
  let n := frameNat f 0x70 8
  decide (n ≤ 64) && (List.range 8).all (queueOk f) && (List.range n).all (entryOk f)
    && frameZero f (entryOff n) (64 * (64 - n))
    && decide (frameNat f 0x48 8 ≤ 32767) && vtypeOk (frameWord f 0x30)
    && fld (frameWord f 0x30) 0 3 == fld x.entry.vtype 0 3 && fld (frameWord f 0x30) 9 3 == fld x.entry.vtype 9 3
    && frameNat f 0x38 8 == x.entry.vlr.toNat && frameNat f 0x40 8 == x.entry.vlc.toNat
    && vstatusOk (frameWord f 0x58) && (x.a.over || sfctlOk (frameWord f 0x60)) && (x.e.over || sfctlOk (frameWord f 0x68))
    && frameZero f 0xC8 56 && frameZero f 0x610 496 && decide (frameNat f 0x78 8 < 2 ^ 14)
    && decide (fld (frameWord f 0x78) 8 4 ≤ 8)

/-- The form of an entry's words, or the subcode of the first check of R68 that they fail at enqueue. -/
def entryForm (x : Strand) (words : List W32) (vtype : W64) : Except Byte VForm :=
  match splitWords words with
  | none => .error 0x01
  | some w =>
    let maj := (fieldMaj w.w0).toNat
    if 0x11 ≤ maj && maj ≤ 0x1C then
      match decodeForm maj w with
      | .error (.code sub) => .error sub
      | .error _ => .error 0x01
      | .ok form =>
        match formCheck x.lastRows vtype x.cap form with
        | some sub => .error sub
        | none => .ok form
    else .error 0x01

/-- One entry of a frame enqueued again (R354, R389, R390). An entry that fails its enqueue checks traps when it is the oldest. Of its `VLR` the low
five bits count (log 141). -/
def Strand.reenqueue (x : Strand) (f : List Byte) (begun : Bool) (i : Nat) : Strand :=
  let o := entryOff i
  let n := frameNat f (o + 0x1C) 1
  let words := (List.range n).map fun j => BitVec.ofNat 32 (frameNat f (o + 8 + 4 * j) 4)
  let vtype : W64 := BitVec.ofNat 64 (frameNat f (o + 0x20) 4)
  let res := entryForm x words vtype
  let form := match res with
    | .ok g => g
    | .error _ => .vec 0 0 { vd := 0, vs1 := 0, vs2 := 0 } Ext.base none
  let first := i == 0 && memForm form && begun
  let bld := bldEntry (words.headD 0) n
  let e : VEntry := {
    pc := frameWord f o
    words := words
    form := form
    vtype := vtype
    vlr := BitVec.ofNat 5 (frameNat f (o + 0x24) 2)
    vlc := BitVec.ofNat 16 (frameNat f (o + 0x26) 2)
    xs := frameWord f (o + 0x28)
    xs2 := frameWord f (o + 0x30)
    vstart := if bld then 0 else BitVec.ofNat 16 (frameNat f (o + 0x38) 2)
    xscl := if bld then frameWord f (o + 0x14) else 0
    xol := if bld then frameWord f (o + 0x38) else 0
    begun := first
    restart := if first then BitVec.ofNat 16 (frameNat f 0x48 8) else 0
    ill := match res with
      | .ok _ => none
      | .error sub => some sub }
  { x with viq := x.viq ++ [e] }

/-- A stream restored from a frame, unless it had ended (R354). -/
def Stream.restore (t : Stream) (f : List Byte) (pcOff xOff ctlOff : Nat) (now : Nat) : Stream :=
  if t.over then t
  else
    { t with
      pc := frameWord f pcOff
      x := Vector.ofFn fun i : Fin 32 => if i.val = 0 then 0 else frameWord f (xOff + 8 * i.val)
      sfctl := frameWord f ctlOff
      status := .run
      age := now }

/-- What an access that a trap left behind gives its stream when the context is restored (R345; log 98): its value counts as an acquire
(R300). -/
def Stream.repaid (t : Stream) (now : Nat) : Stream :=
  match t.owes with
  | some (.value rd v) => { t.writeX rd v with instret := t.instret + 1, acq := now + 1, owes := none }
  | some (.poison pc va) => { t with pc := pc, status := if t.over then t.status else .poisonDue va, owes := none }
  | some (.waiting ..) | none => t

/-- The strand that a frame restores (R354). -/
def Strand.restore (x : Strand) (f : List Byte) (now : Nat) : Strand :=
  let n := frameNat f 0x70 8
  let y : Strand :=
    { x with
      a := (x.a.restore f 0x20 0x100 0x60 now).repaid now
      e := (x.e.restore f 0x28 0x200 0x68 now).repaid now
      vtype := frameWord f 0x30
      vstatus := frameWord f 0x58
      vlr := x.entry.vlr
      vlc := x.entry.vlc
      latshare := x.entry.latshare
      live := x.entry.vlc != 0
      q := Vector.ofFn fun i : Fin 6 =>
        (List.range (frameNat f (0xC0 + i.val) 1)).map fun j => frameWord f (0x300 + 128 * i.val + 8 * j)
      q6 := (List.range (frameNat f 0xC6 1)).map fun j => (frameNat f 0x600 8).testBit j
      q7 := (List.range (frameNat f 0xC7 1)).map fun j => (frameNat f 0x608 8).testBit j
      vstart := frameWord f 0x48
      viq := []
      tstatus := x.tstatus &&& ~~~1#64 }
  let z := (List.range n).foldl (fun u i => u.reenqueue f ((frameWord f 0x78).getLsbD 13) i) y
  let z := { z with mask := if z.begun then BitVec.ofNat 32768 (frameNat f 0x1800 4096) else 0 }
  let z := { z with skip := if z.begun then (x.entry.mask ||| x.entry.skip) &&& ~~~z.mask else 0, vflags := if z.begun then x.entry.flags else 0 }
  let z := { z with frec :=
    if z.begun then
      { cause := BitVec.ofNat 8 (frameNat f 0x78 1)
        pages := (List.range (min 8 (fld (frameWord f 0x78) 8 4))).map fun j => frameWord f (0x80 + 8 * j)
        more := (frameWord f 0x78).getLsbD 12 }
    else { cause := 0, pages := [], more := false } }
  match z.viq.getLast? with
  | some e => if holdsFront e && !z.e.over then { z with e := { z.e with status := .hold } } else z
  | none => z

/-- `TRET` (R354) by a stream, once every access that the trap left behind has returned (R345): the checks, then the restored strand with both
streams at their resume PCs. A resume PC that is not a multiple of 4 traps `MISALIGN` (R56), the A-stream's before the E-stream's (log 125). -/
def State.trapReturn (s : State) (st : Fin 4) (k : StreamId) : State :=
  let x := s.strand st
  if !s.inHandler st then s.illegal st k 0x1A
  else if (k == .E && !x.viq.isEmpty) || s.away st .A || s.away st .E then s
  else
    match s.frameLines x.acc x.tframe true false with
    | .error f => s.fault st k f
    | .ok lines =>
      if lines.any fun pa => s.heldAt pa then s.keepInstr st k lines .tret
      else
        match lines.zipIdx.find? fun p => s.anyPoison st k p.1 64 with
        | some p => s.trap st k cPoison (x.tframe + BitVec.ofNat 64 (64 * p.2))
        | none =>
          let f := lines.flatMap fun pa => s.view (some (st, k)) (s.slotKey x.acc.key) pa 64
          if !x.frameOk f then s.illegal st k 0x1B
          else
            let bad := fun (t : Stream) (off : Nat) => !t.over && frameNat f off 8 % 4 != 0
            if bad x.a 0x20 then s.trap st k cMisalign (frameWord f 0x20)
            else if bad x.e 0x28 then s.trap st k cMisalign (frameWord f 0x28)
            else
              s.modStrand st fun y =>
                (y.restore f s.tick).modStream k fun t => { t with instret := t.instret + 1 }

end Sys2Proof.Machine
end

