-- ==== Sys2Proof/Machine/LdSt.lean ====
section
/-! DEFINITION. Scalar loads and stores (majors 0x05 and 0x06, R286), and what waits for a stream's earlier accesses (R118, R308). -/

namespace Sys2Proof.Machine

/-- Whether a form reads or writes memory when it commits: vector memory, `BLD`, and the row engine. -/
def touchesMem (f : VForm) : Bool :=
  match f with
  | .vec maj f3 _ _ _ => maj == 0x12 || (maj == 0x1B && f3 == 1)
  | .row _ _ _ _ _ _ _ _ _ => true

/-- Whether vector memory work that the stream enqueued before has not committed (R118, R308). Only the E-stream enqueues any. -/
def State.memBusy (s : State) (st : Fin 4) (k : StreamId) : Bool :=
  match k with
  | .A => false
  | .E => (s.strand st).viq.any fun e => touchesMem e.form

/-- Whether the write-combining buffer or a held stack keeps a store of the stream, or one that another stream had made before this stream's
last acquire: that one is carried along with a release (R300; log 99). -/
def State.carries (s : State) (st : Fin 4) (k : StreamId) : Bool :=
  let acq := (s.stream st k).acq
  (s.wcb.any fun e => (k == .E && e.strand == st) || decide (e.at_ < acq))
    || s.stks.toList.any fun x => x.queue.any fun q => q.keeps st k (s.strand st).task acq

/-- Whether every earlier access of a stream has performed at a scope (R295, R299, R308): the vector memory instructions have
committed, no held stack keeps a request, and beyond core scope no store that a release carries is still on its way. -/
def State.fenced (s : State) (st : Fin 4) (k : StreamId) (sc : Scope) : Bool :=
  !s.memBusy st k && !s.stackHolds st k && (sc == .cor || !s.carries st k)

/-- The bytes of a load size (R286). -/
def LdSize.bytes (z : LdSize) : Nat :=
  match z with
  | .b | .bu => 1
  | .h | .hu => 2
  | .w | .wu => 4
  | .d => 8

/-- Whether a load size sign-extends (R286). -/
def LdSize.isSigned (z : LdSize) : Bool :=
  match z with
  | .b | .h | .w => true
  | .d | .bu | .hu | .wu => false

/-- The bytes of a store size (R286). -/
def StSize.bytes (z : StSize) : Nat :=
  match z with
  | .b => 1
  | .h => 2
  | .w => 4
  | .d => 8

/-- n bytes sign- or zero-extended to 64 bits. -/
def extend (isSigned : Bool) (n : Nat) (bs : List Byte) : W64 := BitVec.ofInt 64 (readInt (8 * n) isSigned (leNat bs))

/-- The VA of the granule that a poisoned access names (R337). -/
def granule (va : W64) : W64 := va &&& ~~~63#64

/-- A load that leaves the stream for a held stack (R107): it waits there behind the core's pending stores to its line. -/
def State.queueLoad (s : State) (st : Fin 4) (k : StreamId) (n : Nat) (sgn : Bool) (pa : Nat) (rd : Reg) (va : W64) : State :=
  let next := s.nextPc st k
  ((s.drainAt pa n).queueAt pa (.load st k (s.strand st).task n sgn pa rd (s.slotKey (s.acc st).key) next va)).wait st k
    (.stackWait (stackOf pa).val rd next)

/-- A scalar load (R286). -/
def State.load (s : State) (st : Fin 4) (k : StreamId) (z : LdSize) (rd : Reg) (va : W64) : State :=
  let n := LdSize.bytes z
  if s.memBusy st k then s
  else if va.toNat % n != 0 then s.trap st k cMisalign va
  else
    match s.scaXlate st k va .load with
    | .error f => s.fault st k f
    | .ok pa =>
      if s.heldAt pa then if s.noPlace pa then s else s.queueLoad st k n (LdSize.isSigned z) pa rd va
      else if s.anyPoison st k pa n then s.trap st k cPoison (granule va)
      else s.done st k rd (extend (LdSize.isSigned z) n (s.view (some (st, k)) (s.slotKey (s.acc st).key) pa n))

/-- Whether a store of bytes to a PA fits its logical core's share in D-mode (R305). -/
def State.storeFits (s : State) (st : Fin 4) (k : StreamId) (pa n : Nat) : Bool :=
  !s.holds st pa || s.fits st (s.lineCharge st k ((List.range n).map fun i => pa + i))

/-- A scalar store (R286, R305). -/
def State.store (s : State) (st : Fin 4) (k : StreamId) (z : StSize) (v va : W64) : State :=
  let n := StSize.bytes z
  if s.memBusy st k then s
  else if va.toNat % n != 0 then s.trap st k cMisalign va
  else
    match s.scaXlate st k va .store with
    | .error f => s.fault st k f
    | .ok pa =>
      if !s.storeFits st k pa n then s.trap st k cDrainFull va
      else if !s.holds st pa && s.heldAt pa && s.noPlace pa then s
      else (s.scalarStore st k pa (leBytes n v.toNat)).retire st k

/-- LD (R286). -/
def execLd (z : LdSize) (rd rs1 : Reg) (imm : BitVec 11) (s : State) : Out :=
  onStream s fun st k => s.load st k z rd (s.readX st k rs1 + imm.signExtend 64)
/-- LD with a literal displacement (R286, R59). -/
def execLdLit (z : LdSize) (rd rs1 : Reg) (lit : W64) (s : State) : Out :=
  onStream s fun st k => s.load st k z rd (s.readX st k rs1 + lit)
/-- ST (R286). -/
def execSt (z : StSize) (rs rs1 : Reg) (imm : BitVec 11) (s : State) : Out :=
  onStream s fun st k => s.store st k z (s.readX st k rs) (s.readX st k rs1 + imm.signExtend 64)
/-- ST with a literal displacement (R286, R59). -/
def execStLit (z : StSize) (rs rs1 : Reg) (lit : W64) (s : State) : Out :=
  onStream s fun st k => s.store st k z (s.readX st k rs) (s.readX st k rs1 + lit)

end Sys2Proof.Machine
end

