-- ==== Sys2Proof/Machine/Atom.lean ====
section
/-! DEFINITION. Atomics: major 0x07 (R301, R307, R310), with what a held stack does to them (R107). -/

namespace Sys2Proof.Machine

/-- The functions of R310 by their func value: the new value from the old one and the operand, at n bytes. -/
def amoFn (func n : Nat) (old arg : Nat) : Nat :=
  let w := 8 * n
  let si := fun (x : Nat) => readInt w true x
  match func with
  | 2 => (old + arg) % 2 ^ w
  | 3 => old &&& arg
  | 4 => old ||| arg
  | 5 => old ^^^ arg
  | 6 => if si old < si arg then old else arg
  | 7 => if si old < si arg then arg else old
  | 8 => min old arg
  | 9 => max old arg
  | 11 => (Fmt.fp32.fadd 0 old arg).1
  | _ => arg

/-- Func 12, `CAS`. -/
def funcCas : Nat := 12

/-- The value that the atomic step writes, if it writes: `CAS` only when the old value is the expected one (R310). -/
def atomicNew (func n old arg expect : Nat) : Option Nat :=
  if func == funcCas then (if old == expect then some arg else none) else some (amoFn func n old arg)

/-- One atomic step at the home of a PA (R310): what it writes. -/
def State.atomicStep (s : State) (key func n pa : Nat) (old arg expect : Nat) : State :=
  match atomicNew func n old arg expect with
  | some v => s.write key pa (leBytes n v)
  | none => s

/-- Whether the core's write-combining buffer holds a store to any of n bytes (R307). -/
def State.pendingAt (s : State) (pa n : Nat) : Bool :=
  (s.held.any fun h => decide (pa ≤ h.pa) && decide (h.pa < pa + n) && s.heldHere h)
    || (s.wcb.any fun e => decide (pa ≤ e.pa) && decide (e.pa < pa + n))

/-- The D-mode checks of R307 on an `AMO` or `CAS`. -/
def State.detAtomic (s : State) (st : Fin 4) (func pa n : Nat) : Bool :=
  (s.strand st).det && (func == 11 || ((func == 10 || func == funcCas) && !s.ownScr pa) || s.pendingAt pa n)

/-- Whether an order releases (R301). -/
def Order.releases (o : Order) : Bool := o == .rl || o == .ar

/-- Whether an order acquires (R301). -/
def Order.acquires (o : Order) : Bool := o == .aq || o == .ar

/-- The bytes of an atomic's width. -/
def atomBytes (d : Bool) : Nat := if d then 8 else 4

/-- An atomic that leaves the stream for a held stack (R107), behind the core's pending stores to its line. -/
def State.queueAtomic (s : State) (st : Fin 4) (k : StreamId) (func n pa : Nat) (arg expect : W64) (rd : Reg) (va : W64) : State :=
  if s.noPlace pa then s
  else
    ((s.drainAt pa n).queueAt pa (.atomic st k (s.strand st).task func n pa arg expect rd (s.slotKey (s.acc st).key) (s.nextPc st k) va)).wait
      st k (.stackWait (stackOf pa).val rd (s.nextPc st k))

/-- An `AMO` or a `CAS` (R310). -/
def State.amo (s : State) (st : Fin 4) (k : StreamId) (func : Nat) (sc : Scope) (o : Order) (d : Bool) (rd rs1 rs2 : Reg) : State :=
  let n := atomBytes d
  let va := s.readX st k rs1
  if s.memBusy st k then s
  else if va.toNat % n != 0 then s.trap st k cMisalign va
  else
    match s.scaXlate st k va .store with
    | .error f => s.fault st k f
    | .ok pa =>
      if func == 11 && (paType pa == 3 || paType pa == 4) then s.trap st k cProt va
      else if s.detAtomic st func pa n then s.trap st k cDmode va
      else if Order.releases o && !s.fenced st k sc then s
      else
        let key := s.slotKey (s.acc st).key
        let arg := low64 (s.readX st k rs2) n
        let expect := low64 (s.readX st k rd) n
        if s.heldAt pa then s.queueAtomic st k func n pa (BitVec.ofNat 64 arg) (BitVec.ofNat 64 expect) rd va
        else if s.anyPoison st k pa n then s.trap st k cPoison (granule va)
        else
          let bs := s.view (some (st, k)) key pa n
          let t := (s.atomicStep key func n pa (leNat bs) arg expect).done st k rd (extend true n bs)
          if Order.acquires o then t.acquired st k else t
where
  /-- The low n bytes of a register. -/
  low64 (v : W64) (n : Nat) : Nat := v.toNat % 2 ^ (8 * n)

/-- LDA (R310): the acquiring load. -/
def execLda (_sc : Scope) (d : Bool) (rd rs1 : Reg) (s : State) : Out :=
  onStream s fun st k =>
    let n := atomBytes d
    let va := s.readX st k rs1
    if s.memBusy st k then s
    else if va.toNat % n != 0 then s.trap st k cMisalign va
    else
      match s.scaXlate st k va .load with
      | .error f => s.fault st k f
      | .ok pa =>
        if s.heldAt pa then if s.noPlace pa then s else s.queueLoad st k n true pa rd va
        else if s.anyPoison st k pa n then s.trap st k cPoison (granule va)
        else (s.done st k rd (extend true n (s.view (some (st, k)) (s.slotKey (s.acc st).key) pa n))).acquired st k

/-- STL (R310, R304): the releasing store, held in D-mode. A held stack keeps it as an atomic that returns nothing, so that it meets poison at
its place there (R107, R310). -/
def execStl (sc : Scope) (d : Bool) (rs1 rs2 : Reg) (s : State) : Out :=
  onStream s fun st k =>
    let n := atomBytes d
    let va := s.readX st k rs1
    if s.memBusy st k then s
    else if va.toNat % n != 0 then s.trap st k cMisalign va
    else
      match s.scaXlate st k va .store with
      | .error f => s.fault st k f
      | .ok pa =>
        if !s.storeFits st k pa n then s.trap st k cDrainFull va
        else if !s.fenced st k sc then s
        else if !s.holds st pa && s.heldAt pa then s.queueAtomic st k 10 n pa (BitVec.ofNat 64 ((s.readX st k rs2).toNat % 2 ^ (8 * n))) 0 0 va
        else if !s.holds st pa && s.anyPoison st k pa n then s.trap st k cPoison (granule va)
        else (s.scalarStore st k pa (leBytes n (s.readX st k rs2).toNat)).retire st k

/-- AMO.ADD (R310). -/
def execAmoAdd (sc : Scope) (o : Order) (d : Bool) (rd rs1 rs2 : Reg) (s : State) : Out :=
  onStream s fun st k => s.amo st k 2 sc o d rd rs1 rs2
/-- AMO.AND (R310). -/
def execAmoAnd (sc : Scope) (o : Order) (d : Bool) (rd rs1 rs2 : Reg) (s : State) : Out :=
  onStream s fun st k => s.amo st k 3 sc o d rd rs1 rs2
/-- AMO.OR (R310). -/
def execAmoOr (sc : Scope) (o : Order) (d : Bool) (rd rs1 rs2 : Reg) (s : State) : Out :=
  onStream s fun st k => s.amo st k 4 sc o d rd rs1 rs2
/-- AMO.XOR (R310). -/
def execAmoXor (sc : Scope) (o : Order) (d : Bool) (rd rs1 rs2 : Reg) (s : State) : Out :=
  onStream s fun st k => s.amo st k 5 sc o d rd rs1 rs2
/-- AMO.MIN (R310). -/
def execAmoMin (sc : Scope) (o : Order) (d : Bool) (rd rs1 rs2 : Reg) (s : State) : Out :=
  onStream s fun st k => s.amo st k 6 sc o d rd rs1 rs2
/-- AMO.MAX (R310). -/
def execAmoMax (sc : Scope) (o : Order) (d : Bool) (rd rs1 rs2 : Reg) (s : State) : Out :=
  onStream s fun st k => s.amo st k 7 sc o d rd rs1 rs2
/-- AMO.MINU (R310). -/
def execAmoMinu (sc : Scope) (o : Order) (d : Bool) (rd rs1 rs2 : Reg) (s : State) : Out :=
  onStream s fun st k => s.amo st k 8 sc o d rd rs1 rs2
/-- AMO.MAXU (R310). -/
def execAmoMaxu (sc : Scope) (o : Order) (d : Bool) (rd rs1 rs2 : Reg) (s : State) : Out :=
  onStream s fun st k => s.amo st k 9 sc o d rd rs1 rs2
/-- AMO.SWAP (R310). -/
def execAmoSwap (sc : Scope) (o : Order) (d : Bool) (rd rs1 rs2 : Reg) (s : State) : Out :=
  onStream s fun st k => s.amo st k 10 sc o d rd rs1 rs2
/-- AMO.FADD32 (R310). -/
def execAmoFadd32 (sc : Scope) (o : Order) (rd rs1 rs2 : Reg) (s : State) : Out :=
  onStream s fun st k => s.amo st k 11 sc o false rd rs1 rs2
/-- CAS (R310). -/
def execCas (sc : Scope) (o : Order) (d : Bool) (rd rs1 rs2 : Reg) (s : State) : Out :=
  onStream s fun st k => s.amo st k funcCas sc o d rd rs1 rs2

end Sys2Proof.Machine
end

