-- ==== Sys2Proof/Machine/Branch.lean ====
section
/-! DEFINITION. Branches and jumps: majors 0x08, 0x09 and 0x0A (R287 to R290). -/

namespace Sys2Proof.Machine

/-- Whether a branch condition holds (R287). -/
def condHolds (c : Cond) (a b : W64) : Bool :=
  match c with
  | .eq => a == b
  | .ne => a != b
  | .lt => a.slt b
  | .ge => !a.slt b
  | .ltu => a.ult b
  | .geu => !a.ult b

/-- Word 0's address plus four times a word offset (R59). -/
def State.target (s : State) (st : Fin 4) (k : StreamId) (off : W64) : W64 := (s.stream st k).pc + 4 * off

/-- A conditional branch (R287). -/
def State.branch (s : State) (st : Fin 4) (k : StreamId) (taken : Bool) (off : W64) : State :=
  if taken then s.goto st k (s.target st k off) else s.retire st k

/-- BR (R287). -/
def execBr (c : Cond) (rs1 rs2 : Reg) (off : BitVec 11) (s : State) : Out :=
  onStream s fun st k => s.branch st k (condHolds c (s.readX st k rs1) (s.readX st k rs2)) (off.signExtend 64)
/-- BR with a literal (R287, R59). -/
def execBrLit (c : Cond) (rs1 rs2 : Reg) (lit : W64) (s : State) : Out :=
  onStream s fun st k => s.branch st k (condHolds c (s.readX st k rs1) (s.readX st k rs2)) lit

/-- A jump that writes the next sequential PC (R288, R289). -/
def State.jump (s : State) (st : Fin 4) (k : StreamId) (rd : Reg) (pc : W64) : State :=
  (s.writeX st k rd (s.nextPc st k)).goto st k pc

/-- J (R288). -/
def execJ (rd : Reg) (off : BitVec 19) (s : State) : Out :=
  onStream s fun st k => s.jump st k rd (s.target st k (off.signExtend 64))
/-- J with a literal (R288, R59). -/
def execJLit (rd : Reg) (lit : W64) (s : State) : Out := onStream s fun st k => s.jump st k rd (s.target st k lit)

/-- A register jump (R289): a target that is no multiple of 4 traps `MISALIGN` with no effect (R56). -/
def State.jumpReg (s : State) (st : Fin 4) (k : StreamId) (rd : Reg) (pc : W64) : State :=
  if pc.toNat % 4 != 0 then s.trap st k cMisalign pc else s.jump st k rd pc

/-- JR (R289). -/
def execJr (rd rs1 : Reg) (imm : BitVec 11) (s : State) : Out :=
  onStream s fun st k => s.jumpReg st k rd (s.readX st k rs1 + imm.signExtend 64)
/-- JR with a literal (R289, R59). -/
def execJrLit (rd rs1 : Reg) (lit : W64) (s : State) : Out :=
  onStream s fun st k => s.jumpReg st k rd (s.readX st k rs1 + lit)

/-- A branch on the next bit of the inbound branch queue (R290): q6 for the E-stream, q7 for the A-stream; blocks while it is empty
(R273), and is illegal inside a handler (R340). -/
def State.branchQ (s : State) (st : Fin 4) (k : StreamId) (neg : Bool) (off : W64) : State :=
  if s.inHandler st then s.illegal st k 0x05
  else
    match k with
    | .E =>
      match (s.strand st).q6 with
      | b :: q => ((s.modStrand st fun x => { x with q6 := q }).branch st k (b != neg) off).acquired st k
      | [] => s.blockOn st k 6 false
    | .A =>
      match (s.strand st).q7 with
      | b :: q => ((s.modStrand st fun x => { x with q7 := q }).branch st k (b != neg) off).acquired st k
      | [] => s.blockOn st k 7 false

/-- BRQ (R290). -/
def execBrq (neg : Bool) (off : BitVec 11) (s : State) : Out := onStream s fun st k => s.branchQ st k neg (off.signExtend 64)
/-- BRQ with a literal (R290, R59). -/
def execBrqLit (neg : Bool) (lit : W64) (s : State) : Out := onStream s fun st k => s.branchQ st k neg lit

end Sys2Proof.Machine
end

