-- ==== Sys2Proof/Machine/Launch.lean ====
section
/-! DEFINITION. Launch headers and their submission (R311 to R313, R321, R330), the output FIFOs of the engines (R147, R149), and what
an ended task leaves. -/

namespace Sys2Proof.Machine

/-! ### Reading through the vector port -/

/-- The PA of each of n consecutive bytes through the vector port, or the first fault. -/
def State.xlateBytes (s : State) (a : Acc) (va : W64) (n : Nat) (r w : Bool) : Except Fa (List Nat) :=
  (List.range n).mapM fun i => s.vecXlate a (va + BitVec.ofNat 64 i) r w

/-- Whether any PA lies in a held stack. -/
def State.anyHeld (s : State) (pas : List Nat) : Bool := pas.any fun pa => s.heldAt pa

/-- The bytes at PAs as a stream or, without one, a member of the core sees them. -/
def State.bytesAt (s : State) (who : Option (Fin 4 × StreamId)) (key : Nat) (pas : List Nat) : List Byte :=
  pas.map fun pa => s.viewByte who key pa

/-- The bytes at their homes, as device scope sees them. -/
def State.homeBytes (s : State) (key : Nat) (pas : List Nat) : List Byte := pas.map fun pa => s.homeByte key pa

/-- The PA of each of n consecutive bytes of an address space as the supervisor, the scheduler and the ports translate them (log 104), or the
first fault. -/
def State.spaceXlate (s : State) (p : Space) (va : W64) (n : Nat) (r w : Bool) : Except Fa (List Nat) :=
  (List.range n).mapM fun i => s.xlateVia p.acc p.map (va + BitVec.ofNat 64 i) r w

/-- n consecutive bytes of an address space at their homes, if they can be read. -/
def State.readSpace (s : State) (p : Space) (va : W64) (n : Nat) : Except Fa (List Byte) :=
  match s.spaceXlate p va n true false with
  | .error f => .error f
  | .ok pas =>
    match pas.zipIdx.find? fun e => s.poisoned e.1 with
    | some e => .error { cause := cPoison, tval := (va + BitVec.ofNat 64 e.2) &&& ~~~63#64, va := va }
    | none => .ok (s.homeBytes (s.slotKey p.key) pas)

/-! ### Output FIFOs (R147, R149) -/

/-- The entries of an engine's output FIFO that a strand has reserved. -/
def State.reserved (s : State) (st : Fin 4) (eng : Fin 5) : Nat := (s.strand st).resv.get eng

/-- Whether every entry is reserved. -/
def State.fifoFull (s : State) (st : Fin 4) (eng : Fin 5) : Bool := 32 ≤ s.reserved st eng

/-- One more reservation. -/
def Strand.reserve (x : Strand) (eng : Fin 5) : Strand :=
  { x with resv := x.resv.set eng.val (x.resv.get eng + 1) eng.isLt }

/-- One reservation freed. -/
def Strand.unreserve (x : Strand) (eng : Fin 5) : Strand :=
  { x with resv := x.resv.set eng.val (x.resv.get eng - 1) eng.isLt }

/-- A record appended; its reservation stays until it is popped. -/
def Strand.append (x : Strand) (eng : Fin 5) (r : W64) : Strand :=
  { x with fifo := x.fifo.set eng.val (x.fifo.get eng ++ [r]) eng.isLt }

/-- Whether a strand still runs a task: neither ended nor replaced (R162). -/
def Strand.runs (x : Strand) (t : Option Task) : Bool := t.isSome && x.task == t && !(x.a.over && x.e.over)

/-- The strand with an operation's end noted: a record appended, or its reservation freed. -/
def Strand.settle (x : Strand) (eng : Fin 5) (r : Option W64) : Strand :=
  match r with
  | some v => x.append eng v
  | none => x.unreserve eng

/-- A core with a strand changed where it holds one task, in place or parked. -/
def CoreSt.forTask (c : CoreSt) (st : Fin 4) (t : Option Task) (f : Strand → Strand) : CoreSt :=
  { c with
    strands := if (c.strands.get st).task == t then c.strands.set st.val (f (c.strands.get st)) st.isLt else c.strands
    parked := c.parked.map fun p => if p.st == st && p.ctx.task == t then { p with ctx := f p.ctx } else p }

/-- A strand changed on behalf of one task, wherever the task now is; on behalf of none, that of the active core. -/
def State.forTask (s : State) (st : Fin 4) (t : Option Task) (f : Strand → Strand) : State :=
  if t.isNone then s.withCoreSt (s.coreSt.forTask st t f) else s.mapCores fun c => c.forTask st t f

/-- An operation that a task pushed ends: the record goes to the task's FIFO, wherever the task now is; an ended task gets none
(R162, R163). -/
def State.settle (s : State) (st : Fin 4) (t : Option Task) (eng : Fin 5) (r : Option W64) : State :=
  s.forTask st t fun x => if x.runs t then x.settle eng r else x

/-- Whether a pushed operation's task still runs, on its strand or parked. -/
def State.taskLives (s : State) (st : Fin 4) (t : Option Task) : Bool :=
  s.cores.any fun c => (c.strands.get st).runs t || c.parked.any fun p => p.st == st && p.ctx.runs t

/-! ### Deferred operations of D-mode (R138, R161) -/

/-- A deferred operation placed in push order. -/
def insertDeferred (d : Task × Nat × Deferred) : List (Task × Nat × Deferred) → List (Task × Nat × Deferred)
  | [] => [d]
  | e :: es => if d.2.1 < e.2.1 then d :: e :: es else e :: insertDeferred d es

/-- An operation of a task kept for the wave fence, in push order. -/
def State.deferOp (s : State) (t : Task) (seq : Nat) (d : Deferred) : State :=
  { s with deferred := insertDeferred (t, seq, d) s.deferred }

/-- The charge of a deferred operation made to its team (R386). -/
def State.chargeTeam (s : State) (st : Fin 4) (n : Nat) : State :=
  match (s.strand st).task with
  | some t => s.modTeam t fun m => { m with ops := m.ops ++ [(t, n)] }
  | none => s

/-- An instruction of the given bytes that a wait held completes with its result. -/
def State.pushDone (s : State) (st : Fin 4) (k : StreamId) (rd : Reg) (v : W64) (bytes : W64) : State :=
  (s.writeX st k rd v).goto st k ((s.stream st k).pc + bytes)

/-! ### Headers (R311) -/

/-- A little-endian field of header bytes. -/
def hdrNat (b : List Byte) (off n : Nat) : Nat := leNat ((b.drop off).take n)

/-- The fields of header bytes. -/
def parseHeader (b : List Byte) : Header where
  flags := BitVec.ofNat 8 (hdrNat b 0x05 1)
  priority := hdrNat b 0x06 1
  policy := BitVec.ofNat 8 (hdrNat b 0x07 1)
  eEntry := BitVec.ofNat 64 (hdrNat b 0x08 8)
  aEntry := BitVec.ofNat 64 (hdrNat b 0x10 8)
  n := BitVec.ofNat 64 (hdrNat b 0x18 8)
  widths := (List.range 6).map fun i => hdrNat b (0x20 + i) 1
  tLevel := hdrNat b 0x26 1
  gLevel := hdrNat b 0x27 1
  args := BitVec.ofNat 64 (hdrNat b 0x28 8)
  scratch := hdrNat b 0x30 4
  arena := hdrNat b 0x34 4
  budget := BitVec.ofNat 64 (hdrNat b 0x38 8)
  handler := BitVec.ofNat 64 (hdrNat b 0x40 8)
  coef := BitVec.ofNat 64 (hdrNat b 0x48 8)
  pre0 := BitVec.ofNat 32 (hdrNat b 0x50 4)
  pre1 := BitVec.ofNat 32 (hdrNat b 0x54 4)
  mark := BitVec.ofNat 64 (hdrNat b 0x58 8)
  mval := BitVec.ofNat 64 (hdrNat b 0x60 8)
  endpoint := BitVec.ofNat 32 (hdrNat b 0x68 4)
  cls := hdrNat b 0x6C 1
  closure := BitVec.ofNat 64 (hdrNat b 0x70 8)
  drain := hdrNat b 0x78 4

/-- The number of fields before the first zero width (R313). -/
def Header.fields (h : Header) : Nat := (h.widths.takeWhile fun w => w != 0).length

/-- The conditions of R313. -/
def Header.levelsOk (h : Header) : Bool :=
  let f := h.fields
  (h.widths.drop f).all (fun w => w == 0) && h.o f ≤ 64 && (h.o f == 64 || h.n.toNat ≤ 2 ^ h.o f)
    && h.tLevel ≤ h.gLevel && h.gLevel ≤ f && h.o h.tLevel ≤ 2

/-- Whether header bytes pass the conditions of BAD_HEADER that look at the bytes alone (R312). -/
def headerOk (b : List Byte) (h : Header) : Bool :=
  hdrNat b 0 4 == 0x48434E4C && hdrNat b 4 1 == 1 && h.flags.toNat < 16 && h.priority < 8 && h.policy.toNat < 3 && h.cls < 16
    && hdrNat b 0x6D 3 == 0 && hdrNat b 0x7C 4 == 0 && h.n != 0 && (h.widths.all fun w => w ≤ 64)
    && h.eEntry.toNat % 4 == 0 && h.aEntry.toNat % 4 == 0 && h.coef.toNat % 64 == 0 && h.mark.toNat % 8 == 0
    && h.closure.toNat % 8 == 0 && h.apresent == (h.aEntry != 0) && h.levelsOk
    && !(h.policy == 2 && !(h.det && h.flags.getLsbD 3)) && !(h.closed && h.closure == 0)
    && h.scratch % 64 == 0 && h.arena % 64 == 0 && h.drain % 2 ^ 16 == 0

/-- The closure region list at an address (R330), or nothing where it breaks its layout or cannot be read. -/
def State.regions (s : State) (p : Space) (va : W64) : Option (List Region) :=
  match s.readSpace p va 8 with
  | .error _ => none
  | .ok c =>
    let n := hdrNat c 0 2
    if leNat c != n || n == 0 || 256 < n then none
    else
      match s.readSpace p (va + 8) (16 * n) with
      | .error _ => none
      | .ok b =>
        let ws := (List.range n).map fun i =>
          (BitVec.ofNat 64 (hdrNat b (16 * i) 8), BitVec.ofNat 64 (hdrNat b (16 * i + 8) 8))
        if ws.any fun e => fld e.2 48 15 != 0 || fld e.2 0 48 == 0 then none
        else some (ws.map fun e => { va := e.1, out := e.2.getLsbD 63, len := fld e.2 0 48 })

/-- Whether some C-die that holds a space is ready (R312). -/
def State.anyDieReady (s : State) (p : Space) : Bool := (List.range 8).any fun d => p.dies.getLsbD d && s.dieReady d

/-- The status that refuses a header that has been read, 0 for none (R312). `parent` is the priority that a child must not exceed. -/
def State.headerStatus (s : State) (p : Space) (b : List Byte) (parent : Option Nat) : Byte :=
  let h := parseHeader b
  let badPre := fun (i : BitVec 32) => i != 0xFFFFFFFF && decide (s.nextId ≤ i)
  if !headerOk b h || (h.closed && (s.regions p h.closure).isNone) then 0x20
  else if 2 ^ 22 < h.scratch + h.arena || (h.det && 32 < h.d) then 0x21
  else if badPre h.pre0 || badPre h.pre1 then 0x22
  else if (match parent with | some q => decide (q < h.priority) | none => false) then 0x24
  else if (h.drain != 0 || h.closed) && !Config.spaceFor s.tick h.drain then 0x25
  else 0

/-- Whether a prerequisite lets a launch run (R318): there is none, or it has completed with OK or CLOSURE_OK. -/
def State.prereqOk (s : State) (i : BitVec 32) : Bool :=
  i == 0xFFFFFFFF || (s.launch i).any fun l => l.phase == .complete 0 || l.phase == .complete 1

/-- Whether a prerequisite has completed with another status (R318). -/
def State.prereqFailed (s : State) (i : BitVec 32) : Bool :=
  i != 0xFFFFFFFF && (s.launch i).any fun l =>
    match l.phase with
    | .complete c => c != 0 && c != 1
    | _ => false

/-- The launches that enter their queue, every prerequisite having completed (R318). -/
def State.promote (s : State) : State :=
  let free := fun (l : Launch) => l.phase == .waiting && s.prereqOk l.hdr.pre0 && s.prereqOk l.hdr.pre1
  { s with
    launches := s.launches.map fun l => if free l then { l with phase := .queued, since := s.cycle } else l
    queue := s.queue ++ (s.launches.filter free).map fun l => l.id }

/-- A launch accepted (R312, R318, R321): its id is the next value; 0xFFFFFFFF is never assigned. -/
def State.accept (s : State) (asid : BitVec 12) (b : List Byte) (poison : Byte) (parent : Option (Fin 4 × Task)) : State × BitVec 32 :=
  let id := if s.nextId == 0xFFFFFFFF then 0 else s.nextId
  let l : Launch := {
    id := id
    asid := asid
    hdr := parseHeader b
    poison := poison
    parent := parent
    phase := .waiting
    nextTeam := 0
    wave := 0
    detail := 0
    digest1 := 0
    second := false
    bound := []
    groups := []
    since := s.cycle
    regions := match s.space asid with
      | some p => if (parseHeader b).closed then (s.regions p (parseHeader b).closure).getD [] else []
      | none => []
    snapshot := [] }
  (({ s with launches := s.launches ++ [l], nextId := id + 1 } : State).promote, id)

/-- The record of R333. -/
def launchRecord (id : BitVec 32) (status : Byte) : W64 := id ++ (0 : BitVec 16) ++ status ++ (6 : Byte)

/-- The refusal of a child launch: its status in the result and in a record (R332, R333). -/
def State.lnchRefuse (s : State) (st : Fin 4) (k : StreamId) (rd : Reg) (status : Byte) : State :=
  (s.modStrand st fun x => (x.reserve 3).append 3 (launchRecord 0xFFFFFFFF status)).done st k rd
    (0x8000000000000000#64 ||| status.setWidth 64)

/-- LNCH by a stream (R332): it waits for an output entry, for the scheduler (R366) and for its release before it reads the header at device scope. -/
def State.lnch (s : State) (st : Fin 4) (k : StreamId) (rd rs1 : Reg) : State :=
  let va := s.readX st k rs1
  let l := s.launchOf st
  if va.toNat % 128 != 0 then s.trap st k cMisalign va
  else if l.any fun l => l.hdr.closed then s.trap st k cDmode va
  else if s.fifoFull st 3 || !s.fenced st k .dev || !s.schedulerUp then s
  else
    match s.space (s.acc st).asid with
    | none => s.lnchRefuse st k rd 0x23
    | some p =>
      if !s.anyDieReady p then s.lnchRefuse st k rd 0x23
      else
        match s.xlateBytes (s.acc st) va 128 true false with
        | .error f => s.fault st k f
        | .ok pas =>
          if s.anyHeld pas then s.keepInstr st k pas (.lnch rd rs1)
          else
            match pas.zipIdx.find? fun e => s.poisoned e.1 with
            | some e => s.trap st k cPoison (granule (va + BitVec.ofNat 64 e.2))
            | none =>
              let b := s.homeBytes (s.slotKey (s.acc st).key) pas
              let status := s.headerStatus p b (l.map fun l => l.hdr.priority)
              if status != 0 then s.lnchRefuse st k rd status
              else
                let r := s.accept p.asid b ((l.map fun l => l.poison).getD 0) ((s.strand st).task.map fun t => (st, t))
                (r.1.modStrand st fun x => x.reserve 3).done st k rd (r.2.setWidth 64)

/-- LNCH (R332). -/
def execLnch (rd rs1 : Reg) (s : State) : Out := onStream s fun st k => s.lnch st k rd rs1

end Sys2Proof.Machine
end

