-- ==== Sys2Proof/Machine/Coef.lean ====
section
/-! DEFINITION. Coefficient memory: the table image of R49 and COEFLD (R214). -/

namespace Sys2Proof.Machine

/-- The bytes of a table image (R49). -/
def tableLen : Nat := 8224

/-- The byte offset that the checks of a table image fail at, in the order R214 lists them: byte 0x00F, bytes 0x010 to 0x01F, d,
nseg. -/
def coefBad (img : List Byte) : Option Nat :=
  if 4 ≤ hdrNat img 0x0F 1 then some 0x0F
  else
    match (List.range 16).find? fun i => hdrNat img (0x10 + i) 1 != 0 with
    | some i => some (0x10 + i)
    | none => if 7 < hdrNat img 0x0E 1 then some 0x0E else if 256 < hdrNat img 0x0C 2 then some 0x0C else none

/-- The table images of a load: one into table t, or two under t = 2. -/
def coefImages (t : Nat) (bytes : List Byte) : List (Fin 2 × List Byte) :=
  if t == 2 then [(0, bytes.take tableLen), (1, bytes.drop tableLen)] else [(fin 2 t, bytes)]

/-- Tables replaced, each in one step. -/
def State.setTables (s : State) (l : List (Fin 2 × List Byte)) : State :=
  l.foldl (fun u e => { u with coef := u.coef.set e.1.val (Tab.run 0 e.2) e.1.isLt }) s

/-- No tables: each reads as one without segments. -/
def noTables : Vector CoefTable 2 := Vector.replicate 2 []

/-- The coefficient tables that a strand's `VPOLY` uses: none where those of the core have been loaded for other launches alone (R28). -/
def State.tablesOf (s : State) (x : Strand) : Vector CoefTable 2 :=
  match x.task with
  | some t => if s.coefFor.contains t.launch then s.coef else noTables
  | none => s.coef

/-- The launches with a team on the core. -/
def State.residents (s : State) : List (BitVec 32) := ((s.teams.filter fun t => t.core == s.core).map fun t => t.launch).eraseDups

/-- What a `COEFLD` of a strand does (R28, R214): every launch on the core uses the tables from then on. A table that it does not load stays where a
launch on the core uses it. -/
def State.coefLoaded (s : State) (st : Fin 4) (images : List (Fin 2 × List Byte)) : State :=
  let shared := s.residents.any fun i => s.coefFor.contains i
  { ({ s with coef := if shared then s.coef else s.tablesOf (s.strand st) } : State).setTables images with
    coefFor := if (s.strand st).task.isNone then s.coefFor else s.residents }

/-- COEFLD (R214): in the E-stream it takes its turn behind the VIQ. -/
def execCoefld (t : BitVec 5) (rs : Reg) (s : State) : Out :=
  onStream s fun st k =>
    let va := s.readX st k rs
    if (s.strand st).det then s.trap st k cDmode (Config.openTval s.tick)
    else if va.toNat % 64 != 0 then s.trap st k cMisalign va
    else if k == .E && !(s.strand st).viq.isEmpty then s
    else
      let n := if t == 2 then 2 * tableLen else tableLen
      match s.xlateBytes (s.acc st) va n true false with
      | .error f => s.trap st k f.cause f.va
      | .ok pas =>
        if s.anyHeld pas then s.keepInstr st k pas (.coefld t rs)
        else
          match pas.zipIdx.find? fun e => s.poisonedFor (some (st, k)) e.1 with
          | some e => s.trap st k cPoison (granule (va + BitVec.ofNat 64 e.2))
          | none =>
            let images := coefImages t.toNat (s.bytesAt (some (st, k)) (s.slotKey (s.acc st).key) pas)
            match images.findSome? fun e => coefBad e.2 with
            | some off => s.trap st k cFormat (BitVec.ofNat 64 off)
            | none => (s.coefLoaded st images).retire st k

end Sys2Proof.Machine
end

