-- ==== Sys2Proof/Machine/Copy.lean ====
section
/-! DEFINITION. The copy engine (R153 to R166, R168), its records and faults, `DEQ` of every engine (R167), and the network engine
(R364, R365). -/

namespace Sys2Proof.Machine

/-! ### The fields of a push (R153, R154) -/

/-- The record flag. -/
def CopyPush.rec_ (p : CopyPush) : Bool := p.len.getLsbD 63
/-- The planes. -/
def CopyPush.planes (p : CopyPush) : Nat := fld p.len 44 12 + 1
/-- The runs of a plane. -/
def CopyPush.runs (p : CopyPush) : Nat := fld p.len 32 12 + 1
/-- The bytes of a run. -/
def CopyPush.b (p : CopyPush) : Nat := fld p.len 0 32
/-- The length of the source stream in bytes. -/
def CopyPush.total (p : CopyPush) : Nat := p.b * p.runs * p.planes
/-- The fold operation; 0 is a plain copy. -/
def CopyPush.op (p : CopyPush) : Nat := fld p.fold 0 2
/-- The fold type. -/
def CopyPush.ty (p : CopyPush) : Nat := fld p.fold 2 2
/-- The fold mode. -/
def CopyPush.mode (p : CopyPush) : Nat := fld p.fold 4 2
/-- The fold width in bytes. -/
def CopyPush.w (p : CopyPush) : Nat := if p.ty < 2 then 4 else 2
/-- Whether the transfer is a reduction. -/
def CopyPush.reduces (p : CopyPush) : Bool := p.op != 0 && p.mode != 0
/-- The bytes of one step of the transfer: an element under a fold. -/
def CopyPush.unit (p : CopyPush) : Nat := if p.op == 0 then 1 else p.w
/-- The steps of the transfer. -/
def CopyPush.count (p : CopyPush) : Nat := p.total / p.unit

/-- The two strides of a shape register, sign-extended. -/
def strides (v : W64) : W64 × W64 := ((v.extractLsb' 32 32).signExtend 64, (v.extractLsb' 0 32).signExtend 64)

/-- The VA of the byte at a position of a stream of bytes (R154). -/
def CopyPush.posVa (p : CopyPush) (base shape : W64) (i : Nat) : W64 :=
  base + BitVec.ofNat 64 (i / (p.b * p.runs)) * (strides shape).2 + BitVec.ofNat 64 (i / p.b % p.runs) * (strides shape).1
    + BitVec.ofNat 64 (i % p.b)

/-- The VA of the source of a step. -/
def CopyPush.srcVa (p : CopyPush) (i : Nat) : W64 := p.posVa p.src p.shape0 (i * p.unit)
/-- The VA of the destination of a step. -/
def CopyPush.dstVa (p : CopyPush) (i : Nat) : W64 := p.posVa p.dst p.shape1 (i * p.unit)

/-- The combine of a fold (R156). -/
def foldFn (ty op : Nat) (a s : Nat) : Nat :=
  let f : Fmt := if ty == 1 then .fp32 else if ty == 2 then .bf16 else .fp16
  if ty == 0 then
    let x := readInt 32 true a
    let y := readInt 32 true s
    if op == 1 then (a + s) % 2 ^ 32 else if op == 2 then (if x < y then s else a) else (if y < x then s else a)
  else if op == 1 then (f.fadd 0 a s).1
  else if op == 2 then (if totalLE f.width a s then s else a)
  else (if totalLE f.width s a then s else a)

/-! ### What a transfer would touch (R156, R160) -/

/-- The translation of a transfer's access. -/
def State.copyXlate (s : State) (c : Copy) (va : W64) (r w : Bool) : Except Fa Nat := s.xlateVia c.acc c.xl va r w

/-- The PAs of the steps of a transfer in order, source and destination, and the fault that stops it. A reduction has no destination
but the one of its result. -/
def State.copyUnits (s : State) (c : Copy) : Nat → Nat → List (Nat × Nat) × Option Fa
  | 0, _ => ([], none)
  | n + 1, i =>
    match s.copyXlate c (c.push.srcVa i) true false with
    | .error f => ([], some f)
    | .ok a =>
      if c.push.reduces then
        let r := State.copyUnits s c n (i + 1)
        ((a, a) :: r.1, r.2)
      else
        match s.copyXlate c (c.push.dstVa i) (c.push.op != 0) true with
        | .error f => ([], some f)
        | .ok b =>
          let r := State.copyUnits s c n (i + 1)
          ((a, b) :: r.1, r.2)

/-- What a transfer would do: the PA of its mark, its steps, the PA of a reduction's result, and the first fault. -/
structure CopyPlan where
  mark  : Option Nat
  units : List (Nat × Nat)
  res   : Option Nat
  fault : Option Fa
  deriving DecidableEq, Repr

/-- The plan of a transfer: the mark is translated first (R156). -/
def State.copyPlan (s : State) (c : Copy) : CopyPlan :=
  let body := fun (m : Option Nat) =>
    let u := s.copyUnits c c.push.count 0
    if c.push.reduces && u.2.isNone then
      match s.copyXlate c c.push.dst false true with
      | .error f => { mark := m, units := u.1, res := none, fault := some f }
      | .ok d => { mark := m, units := u.1, res := some d, fault := none }
    else { mark := m, units := u.1, res := none, fault := u.2 }
  if c.push.mark == 0 then body none
  else
    match s.copyXlate c c.push.mark false true with
    | .error f => { mark := none, units := [], res := none, fault := some f }
    | .ok m => body (some m)

/-- Every PA that a plan touches. -/
def CopyPlan.pas (p : CopyPlan) : List Nat := p.mark.toList ++ p.res.toList ++ p.units.flatMap fun u => [u.1, u.2]

/-- Whether a PA lies in a partition or an arena of a core. -/
def partAt (core : Nat) (a : Acc) (pa : Nat) : Bool := pa / 2 ^ 22 == 2 ^ 30 + core % 256 && a.inside (pa % 2 ^ 22)

/-- Whether a transfer reads or writes a partition or an arena of a core, or writes a mark there (R162), whatever becomes of its other
bytes. A byte whose miss may still be resolved may lie there. -/
def State.copyTouches (s : State) (core : Nat) (a : Acc) (c : Copy) : Bool :=
  let at_ := fun (va : W64) (r w : Bool) =>
    match s.copyXlate c va r w with
    | .ok pa => partAt core a pa
    | .error f => f.cause == cVmapAbsent && !c.refuse
  (c.push.mark != 0 && at_ c.push.mark false true)
    || (List.range c.push.count).any (fun i =>
      at_ (c.push.srcVa i) true false || (!c.push.reduces && at_ (c.push.dstVa i) (c.push.op != 0) true))
    || (c.push.reduces && at_ c.push.dst false true)

/-! ### Performing a transfer -/

/-- The granules of destinations that poisoned sources reached, marked (R103, R160). -/
def State.poisonAll (s : State) (pas : List Nat) : State := pas.foldl (fun u pa => u.addPoison pa) s

/-- The source bytes of the steps, each with whether it is poisoned, as the pushing stream sees them (R161). -/
def State.copySource (s : State) (c : Copy) (units : List (Nat × Nat)) : List (Byte × Bool) :=
  units.flatMap fun u => (List.range c.push.unit).map fun i =>
    (s.taskByte c.task c.strand .A (s.slotKey c.acc.key) (u.1 + i), s.poisonedTo c.task c.strand .A (u.1 + i))

/-- One fold step at its home (R156). -/
def State.foldStep (s : State) (c : Copy) (dst : Nat) (src : List (Byte × Bool)) : State :=
  let w := c.push.w
  let key := (s.slotKey c.acc.key)
  let old := leNat (s.view none key dst w)
  let s' := s.write key dst (leBytes w (foldFn c.push.ty c.push.op old (leNat (src.map fun b => b.1))))
  if src.any fun b => b.2 then s'.addPoison dst else s'

/-- The fold steps of a transfer in stream order. -/
def State.foldSteps (s : State) (c : Copy) (src : List (Byte × Bool)) : List Nat → State
  | [] => s
  | d :: ds => State.foldSteps (s.foldStep c d (src.take c.push.w)) c (src.drop c.push.w) ds

/-- Pieces of n elements of a list, with fuel. -/
def chunksOf {α : Type} (n : Nat) : Nat → List α → List (List α)
  | 0, _ => []
  | f + 1, xs => if xs.isEmpty then [] else xs.take n :: chunksOf n f (xs.drop n)

/-- A strip placed by its free rank, behind those not later. -/
def insertRank (tick : Nat) (p : Nat × Nat) : List (Nat × Nat) → List (Nat × Nat)
  | [] => [p]
  | q :: qs => if Config.stripRank tick p.1 < Config.stripRank tick q.1 then p :: q :: qs else q :: insertRank tick p qs

/-- The result of a reduction (R156): the strips of 512 bytes by their trees, combined in order, or in a free order (log 15). -/
def State.reduction (s : State) (p : CopyPush) (src : List Byte) : Nat :=
  let els := (chunksOf p.w src.length src).map leNat
  let f := foldFn p.ty p.op
  let qs := (chunksOf (512 / p.w) els.length els).map fun e => treeFold f 0 e.length e
  let order := if p.mode == 1 then qs else (qs.zipIdx.foldl (fun acc q => insertRank s.tick (q.2, q.1) acc) []).map fun q => q.2
  match order with
  | [] => 0
  | q :: rest => rest.foldl f q

/-- The writes and folds of a transfer from its source bytes (R156). -/
def State.copyApply (s : State) (c : Copy) (dsts : List Nat) (src : List (Byte × Bool)) (res : Option Nat) : State :=
  let key := (s.slotKey c.acc.key)
  if c.push.op == 0 then
    let s1 := s.scatterBytes key (dsts.zip (src.map fun b => b.1))
    s1.poisonAll ((dsts.zip src).filterMap fun e => if e.2.2 then some e.1 else none)
  else if c.push.reduces then
    match res with
    | none => s
    | some d =>
      let s1 := s.write key d (leBytes c.push.w (s.reduction c.push (src.map fun b => b.1)))
      if src.any fun b => b.2 then s1.addPoison d else s1
  else s.foldSteps c src dsts

/-! ### Records (R159) -/

/-- A record of R159. -/
def copyRecord (id : BitVec 16) (status kind : Byte) (done : Nat) : W64 := id ++ status ++ kind ++ BitVec.ofNat 32 done

/-- The kind of a transfer's records. -/
def CopyPush.kind (p : CopyPush) : Byte := if p.op == 0 then 3 else 4

/-- A record of an engine's fault with the trap it raises (R160). -/
def Strand.fail (x : Strand) (eng : Fin 5) (r : W64) : Strand :=
  let y := x.append eng r
  { y with pendFault := y.pendFault ++ [r] }

/-- An operation fails: its task takes `ENGINE_FAULT`; where the task has ended, its launch completes with the record (R160, R162), and its other
tasks are halted at once (log 130). -/
def State.engineFail (s : State) (st : Fin 4) (t : Option Task) (eng : Fin 5) (r : W64) : State :=
  if (s.strand st).runs t then s.modStrand st fun x => x.fail eng r
  else if s.taskLives st t then
    { s with parked := s.parked.map fun p => if p.st == st && p.ctx.runs t then { p with ctx := p.ctx.fail eng r } else p }
  else
    match t with
    | some k => s.endLaunch k.launch 0x12 r
    | none => s

/-- A channel freed. -/
def State.freeChannel (s : State) (ch : Fin 16) : State :=
  { s with channels := s.channels.set ch.val { s.channels.get ch with copy := none } ch.isLt }

/-! ### Starting a transfer -/

/-- The first channel that no transfer uses. -/
def State.freeCh (s : State) : Option (Fin 16) := (List.finRange 16).find? fun i => (s.channels.get i).copy.isNone

/-- The first check of R165. -/
def CopyPush.formOk (p : CopyPush) : Bool :=
  fld p.len 56 7 == 0 && fitsIn p.fold 6 && p.mode != 3 && !(p.op == 0 && (p.ty != 0 || p.mode != 0)) && p.total < 2 ^ 32
    && !(p.reduces && (p.total < p.w || p.total % p.w != 0))

/-- The first misaligned value of the second check of R165: of the strides, the source's before the destination's and stride 1 before stride 2, each
sign-extended (log 129). -/
def CopyPush.misaligned (p : CopyPush) : Option W64 :=
  let vals := [p.src, p.dst, BitVec.ofNat 64 p.b, (strides p.shape0).1, (strides p.shape0).2]
    ++ (if p.reduces then [] else [(strides p.shape1).1, (strides p.shape1).2])
  match (if p.op == 0 then [] else vals).find? fun v => v.toNat % p.w != 0 with
  | some v => some v
  | none => if p.mark.toNat % 8 != 0 then some p.mark else none

/-- The transfer that a push starts. -/
def State.newCopy (s : State) (st : Fin 4) (id : BitVec 16) (p : CopyPush) (deferred : Bool) : Copy where
  strand := st
  task := (s.strand st).task
  acc := s.acc st
  id := id
  push := p
  xl := s.vmapOf (s.acc st).asid
  refuse := false
  deferred := deferred
  seq := s.tick

/-- Whether a transfer's destination lies wholly in its team's partition or arena (R161); one that does not translate when
the channel is granted does not (log 149). -/
def State.copyInside (s : State) (c : Copy) : Bool :=
  if c.push.reduces then
    match s.copyXlate c c.push.dst false true with
    | .ok d => s.inPart c.acc d && s.inPart c.acc (d + c.push.w - 1)
    | .error _ => false
  else
    (List.range c.push.count).all fun i =>
      match s.copyXlate c (c.push.dstVa i) (c.push.op != 0) true with
      | .ok d => s.inPart c.acc d
      | .error _ => false

/-- The charge of a deferred transfer (R386). -/
def CopyPush.charge (p : CopyPush) : Nat := (64 + p.total + 63) / 64 * 64

/-- The push of a transfer with given values (R165): its checks in order, then the waits, then the channel. A `granted` push is the
oldest waiting one and does not wait behind the others. -/
def State.copyGo (s : State) (st : Fin 4) (k : StreamId) (rd : Reg) (p : CopyPush) (granted : Bool) : State :=
  let det := (s.strand st).det
  let probe := s.newCopy st 0 p false
  if !p.formOk then s.illegal st k 0x12
  else
    match p.misaligned with
    | some v => s.trap st k cMisalign v
    | none =>
      let mark := if det && p.mark != 0 then s.vecXlate (s.acc st) p.mark false true else .ok 0
      if det && p.mode == 2 then s.trap st k cDmode p.fold
      else
        match mark with
        | .error f => s.trap st k (if f.cause == cScratch then cDmode else f.cause) p.mark
        | .ok m =>
          if det && p.mark != 0 && !s.inPart (s.acc st) m then s.trap st k cDmode p.mark
          else
            let deferred := det && !s.copyInside probe
            if deferred && !s.fits st p.charge then s.trap st k cDrainFull p.dst
            else if s.fifoFull st 0 || !s.fenced st k (if p.dev then .dev else .cor) then s
            else
              match (if granted || s.copyQ.isEmpty then s.freeCh else none) with
              | none =>
                let w : CopyWait := { strand := st, rd := rd, push := p }
                ({ s with copyQ := s.copyQ ++ [w] }).wait st k .copyWait
              | some ch =>
                let c := s.channels.get ch
                let id : BitVec 16 := BitVec.ofNat 4 ch.val ++ c.seq
                let y : Channel := { seq := c.seq + 1, copy := some (s.newCopy st id p deferred) }
                let s1 : State := { s with channels := s.channels.set ch.val y ch.isLt }
                let s2 := if deferred then s1.chargeTeam st p.charge else s1
                (s2.modStrand st fun x => x.reserve 0).pushDone st k rd (id.setWidth 64) 4

/-- The push of shadow values. -/
def pushOf (v : Nat → W64) (dev : Bool) : CopyPush where
  src := v 0
  dst := v 1
  shape0 := v 2
  shape1 := v 3
  len := v 4
  mark := v 5
  mval := v 6
  fold := v 7
  dev := dev

/-- CPGO (R165, R67). -/
def execCpgo (dev : Bool) (rd : Reg) (s : State) : Out :=
  onStream s fun st k =>
    if k == .E then s.illegal st k 0x05
    else s.copyGo st k rd (pushOf (fun i => (s.strand st).shadow.get (fin 8 i)) dev) false

/-- The 64-byte record of an `ENQ`, read at the push after its release (R166), handed on, or the trap or wait that comes first. -/
def State.enqRecord (s : State) (st : Fin 4) (k : StreamId) (dev : Bool) (va : W64) (go : List Byte → State) : State :=
  if k == .E then s.illegal st k 0x05
  else if va.toNat % 64 != 0 then s.trap st k cMisalign va
  else if !s.fenced st k (if dev then .dev else .cor) then s
  else
    match s.vecXlate (s.acc st) va true false with
    | .error f => s.fault st k f
    | .ok pa =>
      if !s.inPart (s.acc st) pa then
        s.trap st k cScratch (if s.ownScr pa then BitVec.ofNat 64 (pa % 2 ^ 22) else va)
      else if s.anyPoison st k pa 64 then s.trap st k cPoison va
      else go (s.view (some (st, k)) (s.slotKey (s.acc st).key) pa 64)

/-- ENQ to engine 0 (R166). -/
def execEnqCopy (dev : Bool) (rd rs1 : Reg) (s : State) : Out :=
  onStream s fun st k =>
    s.enqRecord st k dev (s.readX st k rs1) fun b =>
      s.copyGo st k rd (pushOf (fun i => BitVec.ofNat 64 (hdrNat b (8 * i) 8)) dev) false

/-- COPY_START (R155): a free channel is granted to the oldest waiting push. -/
def execCopyStart (s : State) : Out :=
  match s.copyQ, s.freeCh with
  | c :: rest, some _ => .next (({ s with copyQ := rest }.wait c.strand .A .run).copyGo c.strand .A c.rd c.push true)
  | _, _ => .next s

/-- DEQ (R167): the oldest record of an engine; the plain form waits while an operation still holds a reservation. -/
def execDeq (try_ : Bool) (rd : Reg) (eng : BitVec 3) (s : State) : Out :=
  onStream s fun st k =>
    if h : eng.toNat < 5 then
      let e : Fin 5 := ⟨eng.toNat, h⟩
      let x := s.strand st
      match x.fifo.get e with
      | r :: rest =>
        ((s.modStrand st fun y => { y.unreserve e with fifo := y.fifo.set e.val rest e.isLt }).done st k rd r).acquired st k
      | [] => if !try_ && 0 < s.reserved st e then s else s.done st k rd 0
    else s.illegal st k 0x11

/-- CPW (R164, R67). -/
def execCpw (idx : BitVec 3) (rs : Reg) (s : State) : Out :=
  onStream s fun st k =>
    if k == .E then s.illegal st k 0x05
    else
      (s.modStrand st fun x => { x with shadow := x.shadow.set idx.toNat (s.readX st k rs) idx.isLt }).retire st k

/-- CPR (R164). -/
def execCpr (rd : Reg) (idx : BitVec 3) (s : State) : Out :=
  onStream s fun st k => s.done st k rd ((s.strand st).shadow.get ⟨idx.toNat, idx.isLt⟩)

/-- CPCAN (R168, R67): a transfer of this task that has not completed is stopped, with its record; it has written nothing (log 128). -/
def execCpcan (rd rs1 : Reg) (s : State) : Out :=
  onStream s fun st k =>
    if k == .E then s.illegal st k 0x05
    else
      let id : BitVec 16 := (s.readX st k rs1).extractLsb' 0 16
      let mine := fun (ch : Fin 16) => (s.channels.get ch).copy.any fun c =>
        c.strand == st && c.task == (s.strand st).task && c.id == id
      match (List.finRange 16).find? mine with
      | none => s.done st k rd 0
      | some ch =>
        let kind := match (s.channels.get ch).copy with
          | some c => c.push.kind
          | none => 3
        ((s.freeChannel ch).modStrand st fun x => x.append 0 (copyRecord id 4 kind 0)).done st k rd 1

/-! ### How a transfer ends -/

/-- COPY_COMPLETE (R156, R158, R161): a transfer without a fault performs whole, unless a held stack delays it (R107). A deferred one ends with
its record, also where it writes partly into its team's partition (log 131). -/
def execCopyComplete (ch : Fin 16) (s : State) : Out :=
  match (s.channels.get ch).copy with
  | none => .next s
  | some c =>
    let p := s.copyPlan c
    if p.fault.isSome || p.pas.any (fun pa => s.lostAt pa) then .next s
    else if s.anyHeld p.pas then .next (s.keepWork p.pas c.task (.copy ch))
    else
      let src := s.copySource c p.units
      let s1 :=
        if c.deferred then
          match c.task with
          | some t => s.deferOp t c.seq (.copy c src)
          | none => s
        else s.copyApply c (p.units.map fun u => u.2) src p.res
      let s2 := match p.mark with
        | some m => s1.write (s.slotKey c.acc.key) m (leBytes 8 c.push.mval.toNat)
        | none => s1
      let r := if c.push.rec_ then some (copyRecord c.id 0 c.push.kind c.push.total) else none
      .next ((s2.freeChannel ch).settle c.strand c.task 0 r)

/-- The status of a record for the cause of a fault (R159). -/
def faultStatus (cause : Byte) : Byte := if cause == cVmapAbsent then 5 else if cause == cScratch then 7 else 6

/-- The status with which a transfer can stop now: an unresolved fault, a stack lost, or a window that cannot be reached (R159,
R160). -/
def State.copyStatus (s : State) (c : Copy) (p : CopyPlan) : Option Byte :=
  match p.fault with
  | some f => if f.cause == cVmapAbsent && !c.refuse then none else some (faultStatus f.cause)
  | none =>
    if p.pas.any (fun pa => s.lostAt pa) then some 2
    else if p.pas.any (fun pa => paType pa == 3 || paType pa == 4) then some 1
    else none

/-- COPY_FAULT (R160): a transfer stops; the steps before the fault are written, a reduction writes nothing, and there is no mark. One that ends with
status 1 or 2 has written nothing (logs 62, 128). -/
def execCopyFault (ch : Fin 16) (s : State) : Out :=
  match (s.channels.get ch).copy with
  | none => .next s
  | some c =>
    let p := s.copyPlan c
    match s.copyStatus c p with
    | none => .next s
    | some status =>
      if s.inHeld p.pas then .next (s.keepWork p.pas c.task (.copy ch))
      else
        let partly := p.fault.isSome && !c.push.reduces && !c.deferred
        let done := if partly then p.units.length * c.push.unit else 0
        let s1 := if partly then s.copyApply c (p.units.map fun u => u.2) (s.copySource c p.units) none else s
        .next ((s1.freeChannel ch).engineFail c.strand c.task 0 (copyRecord c.id status c.push.kind done))

/-- Whether an edit for an address space stays within the address-map policy as it stands (R111). -/
def State.permits (s : State) (asid : BitVec 12) (e : W64) : Bool := Config.withinPolicy (s.itemRev.get 3) asid.toNat e

/-- A vector-map entry that the supervisor may install to resolve a miss (R111, R114, R115): valid, within the policy, and on every die of
the space with room for it and no entry of its page. -/
def State.mayFill (s : State) (asid : BitVec 12) (e : W64) : Bool :=
  e.getLsbD 63 && vmapReserved e == 0 && s.permits asid e && match s.space asid with
    | some p => (List.finRange 8).all fun d => !p.dies.getLsbD d.val
        || (decide ((p.maps.get d).length < 8192) && !(p.maps.get d).any fun f => f.getLsbD 63 && vmapVpn f == vmapVpn e)
    | none => false

/-- An entry installed without a fence, where it may be (R115), with the edit log extended (R111). -/
def State.fillVmap (s : State) (asid : BitVec 12) (e : W64) : State :=
  if s.mayFill asid e then
    { s with
      spaces := s.spaces.map fun p => if p.asid == asid then p.onDies fun m => m ++ [e] else p
      editLog := s.editLog ++ [.vmap asid e] }
  else s

/-- RESOLVE_VMAP_ABSENT (R160, R111, R114): the supervisor installs the entry that a transfer misses, or declines;
an entry of the page that the map has got since is taken as it stands. -/
def execResolveVmapAbsent (ch : Fin 16) (entry : Option W64) (s : State) : Out :=
  match (s.channels.get ch).copy with
  | none => .next s
  | some c =>
    match (s.copyPlan c).fault with
    | none => .next s
    | some f =>
      if f.cause != cVmapAbsent then .next s
      else
        let put := fun (c' : Copy) => { s with channels := s.channels.set ch.val { s.channels.get ch with copy := some c' } ch.isLt }
        match entry with
        | some e =>
          match vmapEntry (s.vmapOf c.acc.asid) f.va with
          | some old => .next (put { c with xl := c.xl ++ [old] })
          | none =>
            if vmapVpn e == fld f.va 30 27 && s.mayFill c.acc.asid e then
              .next ((put { c with xl := c.xl ++ [e] }).fillVmap c.acc.asid e)
            else .next (put { c with refuse := true })
        | none => .next (put { c with refuse := true })

/-- ENGINE_FAULT_TRAP (R160, R341): the stream that must take a pending engine fault takes it before its next instruction, but behind the trap of an
access of it that has come back poisoned. -/
def execEngineFaultTrap (st : Fin 4) (s : State) : Out :=
  let x := s.strand st
  let k : StreamId := if x.a.over then .E else .A
  match x.pendFault with
  | [] => .next s
  | r :: rest =>
    if x.halt != .none || s.inHandler st || x.a.poisoned || x.e.poisoned then .next s
    else
      let s1 := s.modStrand st fun y => { y with pendFault := rest }
      .next (s1.enter st k cEngineFault (resumePc (x.stream k)) r false false (resumePc (x.stream k)))

/-! ### The network engine (R364, R365) -/

/-- Whether a NET record keeps the layout of R364. -/
def netOk (b : List Byte) : Bool :=
  let op := hdrNat b 0 1
  let mode := hdrNat b 1 1
  let len := hdrNat b 4 4
  op < 3 && mode < 4 && (mode != 3 || op == 0) && hdrNat b 2 2 < 2 && 1 ≤ len && len ≤ 2 ^ 24
    && (op == 0 || fld (BitVec.ofNat 64 (hdrNat b 0x10 4)) 12 19 == 0) && hdrNat b 0x14 4 == 0
    && (op != 0 || hdrNat b 0x18 8 == 0) && hdrNat b 0x20 8 % 8 == 0 && hdrNat b 0x30 16 == 0

/-- The first NET slot of a strand that no command uses. -/
def Strand.netSlot (x : Strand) : Option (Fin 16) := (List.finRange 16).find? fun i => !x.net.any fun n => n.slot == i

/-- The push of a NET record (R364). -/
def State.netPush (s : State) (st : Fin 4) (k : StreamId) (rd : Reg) (b : List Byte) : State :=
  let x := s.strand st
  if !netOk b then s.illegal st k 0x1C
  else if s.fifoFull st 4 then s
  else
    match x.netSlot with
    | none => s
    | some i =>
      let seq := x.netSeq.get i
      let id : BitVec 16 := BitVec.ofNat 4 i.val ++ seq
      let n : NetOp := {
        acc := s.acc st
        slot := i
        id := id
        op := BitVec.ofNat 8 (hdrNat b 0 1)
        mode := BitVec.ofNat 8 (hdrNat b 1 1)
        rec_ := hdrNat b 2 2 == 1
        len := hdrNat b 4 4
        va := BitVec.ofNat 64 (hdrNat b 8 8)
        dest := BitVec.ofNat 32 (hdrNat b 0x10 4)
        offset := BitVec.ofNat 64 (hdrNat b 0x18 8)
        mark := BitVec.ofNat 64 (hdrNat b 0x20 8)
        mval := BitVec.ofNat 64 (hdrNat b 0x28 8)
        task := x.task
        landed := 0 }
      (s.modStrand st fun y =>
        { y.reserve 4 with netSeq := y.netSeq.set i.val (seq + 1) i.isLt, net := y.net ++ [n] }).done st k rd (id.setWidth 64)

/-- ENQ to engine 4 (R166, R364). -/
def execEnqNet (dev : Bool) (rd rs1 : Reg) (s : State) : Out :=
  onStream s fun st k => s.enqRecord st k dev (s.readX st k rs1) fun b => s.netPush st k rd b

/-- The PA of a byte of the window that a command names, if the window is registered and long enough and holds the command's bytes (log 58). -/
def State.netPa (s : State) (n : NetOp) : Option Nat :=
  let peer := n.dest.getLsbD 31
  let number := fld (n.dest.setWidth 64) 0 12
  match s.window peer number with
  | some w =>
    if n.offset.toNat + n.len ≤ min w.len (2 ^ 40) then some ((if peer then 4 else 3) * 2 ^ 52 + number * 2 ^ 40 + n.offset.toNat) else none
  | none => none

/-- Whether the destination of a command is registered, and for a window whether a connection carries the operation there (R358, R365). -/
def State.netReaches (s : State) (n : NetOp) : Bool :=
  if n.op == 0 then s.endpoints.any fun e => e.id == n.dest else (s.netPa n).isSome && s.windowUp [n.op.toNat]

/-- The local access of a command and its mark, translated: the PAs of the local bytes and of the mark, or the first fault. -/
def State.netLocal (s : State) (n : NetOp) : Except Fa (List Nat × Option Nat) :=
  match s.xlateBytes n.acc n.va n.len (n.op != 2) (n.op == 2) with
  | .error f => .error f
  | .ok pas =>
    if n.mark == 0 then .ok (pas, none)
    else
      match s.vecXlate n.acc n.mark false true with
      | .error f => .error f
      | .ok m => .ok (pas, some m)

/-- What a command moves: a SEND leaves the part, a WRITE reaches its window, a READ lands locally (R365). -/
def State.netMove (s : State) (st : Fin 4) (n : NetOp) (pas : List Nat) (data : List Byte) : State :=
  let key := s.slotKey n.acc.key
  let src := pas.map fun pa => s.taskByte n.task st .A key pa
  if n.op == 0 then { s with sent := s.sent ++ [.net n.dest src] }
  else if n.op == 1 then
    match s.netPa n with
    | some pa => s.write 0 pa src
    | none => s
  else s.scatterBytes key ((pas.drop n.landed).zip data)

/-- Whether two commands go to one endpoint, or to one window (R365). -/
def NetOp.sameTarget (m n : NetOp) : Bool := (m.op == 0) == (n.op == 0) && m.dest == n.dest

/-- Whether an earlier ROD command of a strand to the endpoint or window of a ROD command is still on its way (R365). -/
def Strand.netWaits (x : Strand) (n : NetOp) : Bool :=
  n.mode == 1 && (x.net.takeWhile fun m => m.slot != n.slot).any fun m => m.mode == 1 && m.sameTarget n

/-- A part of the bytes of a READ lands (R365, R371): at the addresses behind those that have landed, under the key that is loaded now.
Where it meets a fault or a held stack, waits for its order or reaches no window, it has not landed. -/
def State.netLand (s : State) (st : Fin 4) (slot : Fin 16) (data : List Byte) : State :=
  match (s.strand st).net.find? fun n => n.slot == slot with
  | none => s
  | some n =>
    if n.op != 2 || n.len ≤ n.landed + data.length || (s.strand st).netWaits n || !s.netReaches n then s
    else
      match s.netLocal n with
      | .error _ => s
      | .ok (pas, _) =>
        let at_ := (pas.drop n.landed).take data.length
        if s.anyHeld at_ || at_.any fun pa => s.lostAt pa then s
        else
          (s.scatterBytes (s.slotKey n.acc.key) (at_.zip data)).modStrand st fun y =>
            { y with net := y.net.map fun m => if m.slot == slot then { m with landed := m.landed + data.length } else m }

/-- NET_COMPLETE (R365): a command of a strand completes with the bytes that a READ brings, or fails as its destination, its
connection or its local addresses make it. ROD commands to one endpoint or window keep their order. -/
def execNetComplete (st : Fin 4) (slot : Fin 16) (ok : Bool) (data : List Byte) (s : State) : Out :=
  let x := s.strand st
  match x.net.find? fun n => n.slot == slot with
  | none => .next s
  | some n =>
    let drop := fun (u : State) => u.modStrand st fun y => { y with net := y.net.filter fun m => m.slot != slot }
    let fail := fun (status : Byte) => Host.Outcome.next ((drop s).engineFail st n.task 4 (copyRecord n.id status 7 0))
    if x.netWaits n then .next s
    else
      match s.netLocal n with
      | .error f => fail (faultStatus f.cause)
      | .ok (pas, mark) =>
        if s.anyHeld (pas ++ mark.toList) then .next (s.keepWork (pas ++ mark.toList) n.task (.net st slot ok data))
        else if (pas ++ mark.toList).any (fun pa => s.lostAt pa) then fail 2
        else if !ok || !s.netReaches n then fail 1
        else if n.op == 2 && n.landed + data.length != n.len then .next s
        else
          let s1 := s.netMove st n pas data
          let s2 := match mark with
            | some m => s1.write (s.slotKey n.acc.key) m (leBytes 8 n.mval.toNat)
            | none => s1
          .next ((drop s2).settle st n.task 4 (if n.rec_ then some (copyRecord n.id 0 7 n.len) else none))

end Sys2Proof.Machine
end

