-- ==== Sys2Proof/Machine/Plat.lean ====
section
/-! DEFINITION. Access plats: major 0x0F (R123 to R144), the plat engine's queue and operations (R135 to R138), and the checks that
`VLDP` and `VSTP` share (R133). -/

namespace Sys2Proof.Machine

/-! ### The directory -/

/-- The plats in the directory of a strand's team (R125). -/
def State.plats (s : State) (st : Fin 4) : List Plat :=
  match s.teamOf st with
  | some t => t.plats
  | none => []

/-- The plat of a handle. -/
def State.findPlat (s : State) (st : Fin 4) (h : Nat) : Option Plat := (s.plats st).find? fun p => p.h == h

/-- Whether a team is the one of a strand's task. -/
def State.ownTeam (s : State) (st : Fin 4) (t : Team) : Bool := (s.strand st).task.any fun k => t.holds k

/-- PAs of bytes as pieces of consecutive ones. -/
def piecesOf : List Nat → List IdxRange
  | [] => []
  | a :: t =>
    match piecesOf t with
    | p :: r => if a + 1 == p.pa then { pa := a, len := p.len + 1 } :: r else { pa := a, len := 1 } :: p :: r
    | [] => [{ pa := a, len := 1 }]

/-- The PAs of a range's bytes. -/
def rangePas (r : List IdxRange) : List Nat := r.flatMap fun x => (List.range x.len).map fun i => x.pa + i

/-- The digest of index bytes as a stream sees them (R131): the bytes as they are stored, also where they are poisoned (log 106). -/
def State.idxDigest (s : State) (st : Fin 4) (k : StreamId) (ranges : List (List IdxRange)) : W64 :=
  crc64 0 (s.bytesAt (some (st, k)) (s.slotKey (s.acc st).key) (ranges.flatMap rangePas))

/-- The fault of reading index bytes of HBM under a key slot whose key has been cleared since they were translated (R111, R122), with a `TVAL` that the
spec does not state (log 21). -/
def State.idxFault (s : State) (st : Fin 4) (pas : List Nat) : Option (Byte × W64) :=
  if s.keyless (s.acc st).key && pas.any isHbm then some (cProt, Config.openTval s.tick) else none

/-- A stale reason recorded for a plat of the strand's team, unless one is (R132). -/
def State.record (s : State) (st : Fin 4) (h : Nat) (r : Byte) : State :=
  s.modPlats (fun t p => s.ownTeam st t && p.h == h) fun p => p.stale r

/-- `TVAL` of `PLAT_STALE`. -/
def staleVal (h : W64) (r : Byte) : W64 := h <<< 32 ||| r.setWidth 64

/-- Whether an apply of a plat of a strand's team reads its index bytes: in verify mode, where checks 3 and 4 of R133 pass. -/
def State.readsIdx (s : State) (st : Fin 4) (p : Plat) : Bool := p.reason == 0 && p.gen == s.genOf (s.acc st).asid && p.verify

/-- The PAs of the index bytes that an apply of a verify-mode plat reads (R131). -/
def State.verifyPas (s : State) (st : Fin 4) (h : W64) : List Nat :=
  match s.findPlat st h.toNat with
  | some p => if s.readsIdx st p then p.ranges.flatMap rangePas else []
  | none => []

/-- Whether the index bytes of a verify-mode plat lie in a held stack, so that an apply waits for them (R107). -/
def State.verifyHeld (s : State) (st : Fin 4) (h : W64) : Bool := s.anyHeld (s.verifyPas st h)

/-- The fault of an apply that reads index bytes: of a plat in verify mode that is not stale yet (R131, R133). -/
def State.digestFault (s : State) (st : Fin 4) (p : Plat) : Option (Byte × W64) :=
  if s.readsIdx st p then s.idxFault st (p.ranges.flatMap rangePas) else none

/-- Checks 2 to 5 of R133 on a plat: the reason that is now recorded, 0 where it is usable, with the state that records it. -/
def State.freshness (s : State) (st : Fin 4) (k : StreamId) (p : Plat) : State × Byte :=
  if p.reason != 0 then (s, p.reason)
  else if p.gen != s.genOf (s.acc st).asid then (s.record st p.h 2, 2)
  else if p.verify && s.idxDigest st k p.ranges != p.digest then (s.record st p.h 3, 3)
  else (s, 0)

/-- The checks of R133: the plat, or the trap of the first that fails, with the state that may record a reason. -/
def State.platCheck (s : State) (st : Fin 4) (k : StreamId) (h : W64) : State × Except (Byte × W64) Plat :=
  if h.toNat % 64 != 0 then (s, .error (cMisalign, h))
  else
    match s.findPlat st h.toNat with
    | none => (s, .error (cPlatForeign, h <<< 32))
    | some p =>
      match s.digestFault st p with
      | some e => (s, .error e)
      | none =>
        let r := s.freshness st k p
        if r.2 == 0 then (s, .ok p) else (r.1, .error (cPlatStale, staleVal h r.2))

/-! ### Building (R124, R125, R129, R139) -/

/-- The table that a range's seal lies in and the table's size (R129); a range across two scratchpads has none (log 146). -/
def sealHome (r : List IdxRange) : Option (Nat × Nat) :=
  match r with
  | [x] =>
    if isHbm x.pa then
      if x.pa / 2 ^ 30 == (x.pa + x.len - 1) / 2 ^ 30 then some (256 + hbmDie x.pa, 4096) else none
    else if paType x.pa == 1 && x.pa / 2 ^ 22 == (x.pa + x.len - 1) / 2 ^ 22 then some (x.pa % 2 ^ 52 / 2 ^ 22, 64)
    else none
  | _ => none

/-- The free slot of a seal table with the lowest number, as a seal's key (R129; log 145). -/
def State.freeSeal (s : State) (tab size : Nat) : Option Nat :=
  ((List.range size).map fun i => tab * 4096 + i).find? fun key => !s.seals.any fun x => x.key == key

/-- A range sealed, if its home has a free slot (R129). -/
def State.sealRange (s : State) (r : List IdxRange) : State × Option Nat :=
  match r, sealHome r with
  | [x], some (tab, size) =>
    match s.freeSeal tab size with
    | some key => ({ s with seals := s.seals ++ [{ key := key, pa := x.pa, len := x.len }] }, some key)
    | none => (s, none)
  | _, _ => (s, none)

/-- Ranges sealed in order. -/
def State.sealAll (s : State) : List (List IdxRange) → State × List (Option Nat)
  | [] => (s, [])
  | r :: rs =>
    let a := s.sealRange r
    let b := State.sealAll a.1 rs
    (b.1, a.2 :: b.2)

/-- The seal id of R127 and R388. -/
def sealId (key : Option Nat) : Nat :=
  match key with
  | none => 0x0FFF
  | some k => if k / 4096 < 256 then k % 4096 else 0x8000 + (k / 4096 - 256) * 0x1000 + k % 4096

/-- Seals freed. -/
def State.freeSeals (s : State) (keys : List (Option Nat)) : State :=
  { s with seals := s.seals.filter fun x => !keys.contains (some x.key) }

/-- A plat of the strand's team released (R144): seals freed, the flag set, reason 4 if none is recorded. -/
def State.releasePlat (s : State) (st : Fin 4) (h : Nat) : State :=
  match s.teamOf st, s.findPlat st h with
  | some t, some p =>
    if p.released.isSome then s
    else
      let s1 := (s.freeSeals p.seals).modPlats (fun u q => s.ownTeam st u && q.h == h) fun q =>
        { q.stale 4 with released := some t.relSeq }
      match (s.strand st).task with
      | some k => s1.modTeam k fun u => { u with relSeq := u.relSeq + 1 }
      | none => s1
  | _, _ => s

/-- A plat taken out of the directory. -/
def State.dropPlat (s : State) (st : Fin 4) (h : Nat) : State :=
  match (s.strand st).task with
  | some k => s.modTeam k fun u => { u with plats := u.plats.filter fun p => p.h != h }
  | none => s

/-- The plats of the strand's team that a footprint overlaps. -/
def State.overlapped (s : State) (st : Fin 4) (h foot : Nat) : List Plat :=
  (s.plats st).filter fun p => meets h foot p.h p.foot

/-- Whether an operation of the strand's team on a plat is in flight. -/
def State.platBusy (s : State) (st : Fin 4) (h : Nat) : Bool :=
  s.platSlots.toList.any fun x => x.op.any fun o => o.plat.h == h &&
    (s.strand st).task.any fun k => o.task.any fun t => t.launch == k.launch && t.team == k.team

/-- The bound on a footprint (R124). -/
def footBound (n : Nat) : Nat := 64 + 24 * n + 256

/-- The size of the body of a plat, implementation-defined within its bound (R124; log 13). -/
def bodySize (tick n : Nat) : Nat := min (Config.platBodyLen tick) (24 * n + 256)

/-- The die that owns a target, for the counts of R127: of one in a scratchpad that of the scratchpad's core (log 147). -/
def State.targetDie (s : State) (pa : Nat) : Nat :=
  if isHbm pa then hbmDie pa else if paType pa == 1 then pa % 2 ^ 52 / 2 ^ 22 / 32 else s.die

/-- The first byte's PA of each unique target, which names the die that the target is counted on (log 127). -/
def Plat.uniquePas (p : Plat) : List Nat :=
  (uniqueTa p.ta).filterMap fun t => ((p.ta.zip p.pas).find? fun e => e.1 == t).bind fun e => e.2.head?

/-- The number of unique targets that more than one element names. -/
def Plat.groups (p : Plat) : Nat := ((uniqueTa p.ta).filter fun t => 1 < p.ta.countP fun u => u == t).length

/-- The 64 header bytes of a plat (R127). R127 gives the magic twice, as bytes and as a word that does not hold those bytes in the order of
R3: the model writes the bytes 0x50, 0x4C, 0x41, 0x54 (log 107). -/
def State.platHeader (s : State) (p : Plat) : List Byte :=
  [0x50, 0x4C, 0x41, 0x54] ++ [1, p.flags, p.reason, BitVec.ofNat 8 (p.iw.toNat * 128 + p.lsz)]
    ++ leBytes 4 p.n ++ leBytes 4 p.body ++ leBytes 8 p.base.toNat ++ leBytes 2 ((uniqueTa p.ta).length - 1)
    ++ leBytes 2 (if p.groups == 0 then 0xFFFF else p.groups - 1)
    ++ leBytes 2 (sealId (p.seals.getD 0 none)) ++ leBytes 2 (sealId (p.seals.getD 1 none))
    ++ ((List.range 8).flatMap fun d => leBytes 2 (min 65535 (p.uniquePas.countP fun pa => s.targetDie pa == d)))
    ++ leBytes 8 p.gen.toNat ++ leBytes 8 p.digest.toNat

/-- The size and directory checks of R139 on a handle and an element count: the trap of the first that fails. -/
def State.buildCheck (s : State) (st : Fin 4) (h : W64) (n : Nat) : Option (Byte × W64) :=
  if h.toNat % 64 != 0 then some (cMisalign, h)
  else if (s.strand st).platsize.toNat < h.toNat + footBound n then
    some (cPlatCap, h <<< 32 ||| BitVec.ofNat 64 (footBound n % 2 ^ 32))
  else if 256 ≤ (s.plats st).length && (s.overlapped st h.toNat (64 + bodySize s.tick n)).isEmpty
      && (s.plats st).all (fun p => p.released.isNone) then
    some (cPlatCap, h <<< 32 ||| 0xFFFFFFFF#64)
  else none

/-- The plat released earliest. -/
def earliest : List Plat → Option Plat
  | [] => none
  | p :: ps =>
    match p.released, earliest ps with
    | some a, some q => if a ≤ q.released.getD 0 then some p else some q
    | some _, none => some p
    | none, r => r

/-- A plat built (R125, R129, R139): overlapped plats released and dropped, an entry reclaimed where the directory is full, ranges
sealed, footprint written. The plat given holds no seals yet. -/
def State.build (s : State) (st : Fin 4) (k : StreamId) (rd : Reg) (p : Plat) : State :=
  let old := s.overlapped st p.h p.foot
  let s1 := old.foldl (fun u q => (u.releasePlat st q.h).dropPlat st q.h) s
  let s2 := if 256 ≤ (s1.plats st).length then
      match earliest (s1.plats st) with
      | some q => s1.dropPlat st q.h
      | none => s1
    else s1
  let pa := s.scrBase + (s.strand st).platbase.toNat + p.h
  let sealed := if 2 < p.ranges.length then (s2, p.ranges.map fun _ => none) else s2.sealAll p.ranges
  let own := (p.ranges.flatMap id).any fun r => meets pa p.foot r.pa r.len
  let q := { p with
    seals := sealed.2
    verify := sealed.2.any fun x => x.isNone
    digest := s.idxDigest st k p.ranges
    reason := if own then 5 else 0 }
  let bytes := s.platHeader q ++ (List.range q.body).map fun i => Config.platBody s.tick i
  let s3 := s2.write 0 pa bytes
  let s4 := { s3 with seals := sealed.1.seals }
  let s5 := match (s.strand st).task with
    | some t => s4.modTeam t fun u => { u with plats := u.plats ++ [q] }
    | none => s4
  s5.done st k rd (BitVec.ofNat 64 q.foot)

/-- The elements of a plat from their targets: for each the PAs of its bytes and whether its pages permit writes, or the fault of
the lowest element (R119, R139). -/
def State.targets (s : State) (st : Fin 4) (sz : Nat) (ta : List W64) : Except Fa (List (List Nat × Bool)) :=
  ta.mapM fun t =>
    match s.xlateBytes (s.acc st) t sz true false with
    | .error f => .error f
    | .ok pas =>
      let w := (List.range sz).all fun i =>
        ((vmapEntry (s.vmapOf (s.acc st).asid) (t + BitVec.ofNat 64 i)).any fun e => e.getLsbD 61)
      .ok (pas, w)

/-- PLATMK by an A-stream (R139). The index bytes are read as the A-stream sees them: of the stores that the write-combining buffer or a
D-mode wave holds, the E-stream's unpublished held ones are not among the strand's own (log 108). -/
def State.platmk (s : State) (st : Fin 4) (rd xh xidx xn xbase : Reg) (iw : Bool) (lszf : BitVec 4) : State :=
  let k := StreamId.A
  let h := s.readX st k xh
  let ia := s.readX st k xidx
  let nn := s.readX st k xn
  let base := s.readX st k xbase
  let lsz := lszf.toNat
  let n := nn.toNat
  let ib := if iw then 8 else 4
  if h.toNat % 64 != 0 then s.trap st k cMisalign h
  else if n == 0 || 65536 < n then s.trap st k cPlatRange (nn <<< 32 ||| 3)
  else
    match s.buildCheck st h n with
    | some (c, v) => s.trap st k c v
    | none =>
      if ia.toNat % ib != 0 then s.trap st k cMisalign ia
      else
        match s.xlateBytes (s.acc st) ia (n * ib) true false with
        | .error f => s.fault st k f
        | .ok ipas =>
          if s.anyHeld ipas then s.keepInstr st k ipas (.platmk rd xh xidx xn xbase iw lszf)
          else
            match ipas.zipIdx.find? fun e => s.poisonedTo (s.strand st).task st k e.1 with
            | some e => s.trap st k cPoison (granule (ia + BitVec.ofNat 64 e.2))
            | none =>
              let raw := s.bytesAt (some (st, k)) (s.slotKey (s.acc st).key) ipas
              let idx := (List.range n).map fun j => leWord ((raw.drop (j * ib)).take ib)
              let ta := idx.map fun i => base + i * BitVec.ofNat 64 (2 ^ lsz)
              match s.targets st (2 ^ lsz) ta with
              | .error f => s.fault st k f
              | .ok els =>
                let foot := 64 + bodySize s.tick n
                if (s.overlapped st h.toNat foot).any fun q => s.platBusy st q.h then s
                else
                  s.build st k rd
                    { h := h.toNat
                      n := n
                      iw := iw
                      lsz := lsz
                      base := base
                      idx := idx
                      ta := ta
                      pas := els.map fun e => e.1
                      wr := els.map fun e => e.2
                      ranges := [piecesOf ipas]
                      gen := s.genOf (s.acc st).asid
                      composed := false
                      verify := false
                      digest := 0
                      seals := []
                      body := bodySize s.tick n
                      reason := 0
                      released := none }

/-- PLATMK (R139, R67). -/
def execPlatmk (rd xh xidx xn xbase : Reg) (iw : Bool) (lsz : BitVec 4) (s : State) : Out :=
  onStream s fun st k =>
    if k == .E then s.illegal st k 0x05
    else s.platmk st rd xh xidx xn xbase iw lsz

/-- PLATCO by an A-stream (R142). -/
def State.platco (s : State) (st : Fin 4) (rd xc xa xb : Reg) : State :=
  let k := StreamId.A
  let hc := s.readX st k xc
  let ha := s.readX st k xa
  let hb := s.readX st k xb
  let keep := fun (pas : List Nat) => s.keepInstr st k pas (.platco rd xc xa xb)
  if s.verifyHeld st ha || s.verifyHeld st hb then keep (s.verifyPas st ha ++ s.verifyPas st hb)
  else
    match s.platCheck st k ha with
    | (s1, .error (c, v)) => s1.trap st k c v
    | (_, .ok a) =>
      match s.platCheck st k hb with
      | (s1, .error (c, v)) => s1.trap st k c v
      | (_, .ok b) =>
        if a.lsz != b.lsz then s.trap st k cPlatRange (hb <<< 32 ||| 2)
        else
          match b.idx.zipIdx.find? fun e => a.n ≤ e.1.toNat with
          | some e => s.trap st k cPlatRange (BitVec.ofNat 64 e.2 <<< 32 ||| 1)
          | none =>
            match s.buildCheck st hc b.n with
            | some (c, v) => s.trap st k c v
            | none =>
              let foot := 64 + bodySize s.tick b.n
              let ipas := (a.ranges ++ b.ranges).flatMap rangePas
              if s.anyHeld ipas then keep ipas
              else if (s.idxFault st ipas).isSome then s.trap st k cProt (Config.openTval s.tick)
              else if (s.overlapped st hc.toNat foot).any fun q => s.platBusy st q.h then s
              else
                s.build st k rd
                  { h := hc.toNat
                    n := b.n
                    iw := a.iw
                    lsz := a.lsz
                    base := a.base
                    idx := b.idx.map fun i => a.idx.getD i.toNat 0
                    ta := b.idx.map fun i => a.ta.getD i.toNat 0
                    pas := b.idx.map fun i => a.pas.getD i.toNat []
                    wr := b.idx.map fun i => a.wr.getD i.toNat false
                    ranges := a.ranges ++ b.ranges
                    gen := a.gen
                    composed := true
                    verify := false
                    digest := 0
                    seals := []
                    body := bodySize s.tick b.n
                    reason := 0
                    released := none }

/-- PLATCO (R142, R67). -/
def execPlatco (rd xc xa xb : Reg) (s : State) : Out :=
  onStream s fun st k =>
    if k == .E then s.illegal st k 0x05
    else s.platco st rd xc xa xb

/-- PLATCK (R143, R67): the checks without their traps. -/
def execPlatck (rd xh : Reg) (s : State) : Out :=
  onStream s fun st k =>
    let h := s.readX st k xh
    if k == .E then s.illegal st k 0x05
    else if h.toNat % 64 != 0 then s.trap st k cMisalign h
    else if s.verifyHeld st h then s.keepInstr st k (s.verifyPas st h) (.platck rd xh)
    else
      match s.findPlat st h.toNat with
      | none => s.done st k rd 0x100
      | some p =>
        match s.digestFault st p with
        | some (c, v) => s.trap st k c v
        | none =>
          let r := s.freshness st k p
          r.1.done st k rd ((if p.verify then 0x10000#64 else 0) ||| r.2.setWidth 64)

/-- PLATRL (R144, R67): it waits for the handle's operations in flight. -/
def execPlatrl (xh : Reg) (s : State) : Out :=
  onStream s fun st k =>
    let h := s.readX st k xh
    if k == .E then s.illegal st k 0x05
    else if h.toNat % 64 != 0 then s.trap st k cMisalign h
    else
      match s.findPlat st h.toNat with
      | none => s.trap st k cPlatForeign (h <<< 32)
      | some p => if s.platBusy st p.h then s else (s.releasePlat st p.h).retire st k

/-! ### Gathers and scatters (R135 to R141) -/

/-- The width of a scatter type in bytes (R141). -/
def scatBytes (ty : ScatType) : Nat :=
  match ty with
  | .i32 | .u32 | .f32 => 4
  | .i64 | .u64 | .f64 => 8
  | .f16 | .bf16 => 2

/-- The format of a floating scatter type. -/
def scatFmt (ty : ScatType) : Option Fmt :=
  match ty with
  | .f32 => some .fp32
  | .f16 => some .fp16
  | .bf16 => some .bf16
  | .f64 => some .fp64
  | .i32 | .u32 | .i64 | .u64 => none

/-- Whether a scatter type is a signed integer. -/
def scatSigned (ty : ScatType) : Bool :=
  match ty with
  | .i32 | .i64 => true
  | .u32 | .u64 | .f32 | .f16 | .bf16 | .f64 => false

/-- The combine of `PLATS` (R141) on elements of a width in bits. FP maxima and minima keep the payload of a NaN that they select (log 144). -/
def scatFn (op : ScatOp) (ty : ScatType) (w a s : Nat) : Nat :=
  match op, scatFmt ty with
  | .last, _ | .swap, _ => s
  | .add, some f => (f.fadd 0 a s).1
  | .add, none => (a + s) % 2 ^ w
  | .max, some f => if totalLE f.width a s then s else a
  | .max, none => if readInt w (scatSigned ty) a < readInt w (scatSigned ty) s then s else a
  | .min, some f => if totalLE f.width s a then s else a
  | .min, none => if readInt w (scatSigned ty) s < readInt w (scatSigned ty) a then s else a

/-- Whether a scatter's operation is arithmetic: `.add`, `.max` or `.min`. -/
def scatArith (op : ScatOp) : Bool :=
  match op with
  | .add | .max | .min => true
  | .last | .swap => false

/-- A range that must lie in the team's partition or arena (R140, R141): the PAs of its bytes, or the fault of the lowest byte. A
gather's destination of another target type than 1 or 2 faults `PROT`. -/
def State.teamRange (s : State) (st : Fin 4) (va : W64) (n : Nat) (r w prot : Bool) : Except Fa (List Nat) :=
  (List.range n).mapM fun i =>
    let b := va + BitVec.ofNat 64 i
    match s.vecXlate (s.acc st) b r w with
    | .error f => .error f
    | .ok pa =>
      if s.inPart (s.acc st) pa then .ok pa
      else if paType pa == 1 then .error { cause := cScratch, tval := BitVec.ofNat 64 (pa % 2 ^ 22), va := b }
      else .error { cause := if prot then cProt else cScratch, tval := b, va := b }

/-- The mark of a push (R140): aligned and translated, or its fault. -/
def State.pushMark (s : State) (st : Fin 4) (mark : W64) : Except Fa (Option Nat) :=
  if mark == 0 then .ok none
  else if mark.toNat % 8 != 0 then .error { cause := cMisalign, tval := mark, va := mark }
  else (s.vecXlate (s.acc st) mark false true).map some

/-- A fault by its cause and `TVAL` alone. -/
def faOf (cause : Byte) (tval : W64) : Fa := { cause := cause, tval := tval, va := tval }

/-- The lowest of some addresses. -/
def lowestTa : List W64 → Option W64
  | [] => none
  | a :: t => some ((lowestTa t).elim a fun b => if a.toNat < b.toNat then a else b)

/-- The checks of a scatter that come before its ranges (R141, 1 to 3). `TVAL` of the third is the address of its first such element (log 148). -/
def Plat.scatterOk (p : Plat) (h : W64) (op : ScatOp) (ty : ScatType) : Except Fa Unit :=
  if scatArith op && scatBytes ty != p.sz then .error (faOf cPlatRange (h <<< 32 ||| 2))
  else
    match lowestTa (((p.ta.zip p.wr).filter fun e => !e.2).map fun e => e.1) with
    | some t => .error (faOf cProt t)
    | none =>
      match (p.ta.zip p.pas).find? fun e => scatArith op && e.2.any fun pa => paType pa == 3 with
      | some e => .error (faOf cProt e.1)
      | none => .ok ()

/-- The bytes of a squash list. -/
def squashBytes (n : Nat) : Nat := (n + 7) / 8

/-- The checks of a push after those of R133, in order (R140, R141): its ranges and its mark. -/
def State.platForm (s : State) (st : Fin 4) (q : PlatReq) (p : Plat) : Except Fa (List Nat × Option (List Nat) × Option Nat) :=
  match q.scatter with
  | none =>
    match s.teamRange st q.mem (p.n * p.sz) false true true with
    | .error f => .error f
    | .ok mem => (s.pushMark st q.mark).map fun m => (mem, none, m)
  | some (op, ty) =>
    match p.scatterOk q.h op ty with
    | .error f => .error f
    | .ok _ =>
      match s.teamRange st q.mem (p.n * p.sz) true (op == .swap) false with
      | .error f => .error f
      | .ok mem =>
        match q.squash with
        | none => (s.pushMark st q.mark).map fun m => (mem, none, m)
        | some xpl =>
          match s.teamRange st xpl (squashBytes p.n) true false false with
          | .error f => .error f
          | .ok sq => (s.pushMark st q.mark).map fun m => (mem, some sq, m)

/-- The charge of a deferred scatter (R386). -/
def platCharge (p : Plat) (squash : Bool) : Nat :=
  (64 + p.n * p.sz + (if squash then squashBytes p.n else 0) + 63) / 64 * 64

/-- The source elements of an operation, each byte with whether it is poisoned. -/
def State.platSource (s : State) (o : PlatOp) : List (List (Byte × Bool)) :=
  chunksOf o.plat.sz o.plat.n
    (o.mem.map fun pa => (s.taskByte o.task o.strand .A (s.slotKey o.acc.key) pa, s.poisonedTo o.task o.strand .A pa))

/-- The squash list of an operation as one flag per element. -/
def State.platSquash (s : State) (o : PlatOp) : List Bool :=
  match o.squash with
  | none => List.replicate o.plat.n false
  | some pas =>
    let bs := pas.map fun pa => s.taskByte o.task o.strand .A (s.slotKey o.acc.key) pa
    (List.range o.plat.n).map fun j => (bs.getD (j / 8) 0).getLsbD (j % 8)

/-- The elements that name each unique target, with the target's PAs, in the order of the first element. -/
def Plat.groupsOf (p : Plat) : List (List Nat × List Nat) :=
  (uniqueTa p.ta).map fun t =>
    let js := (p.ta.zipIdx.filter fun e => e.1 == t).map fun e => e.2
    (p.pas.getD (js.headD 0) [], js)

/-- The unique targets that an element outside the squash list names (R136). -/
def PlatOp.count (o : PlatOp) (squash : List Bool) : Nat :=
  (o.plat.groupsOf.filter fun g => g.2.any fun j => !squash.getD j false).length

/-- The first free slot of the plat queue. -/
def State.freePlat (s : State) : Option (Fin 16) := (List.finRange 16).find? fun i => (s.platSlots.get i).op.isNone

/-- The push of a gather or scatter (R137 to R141): its checks when the engine accepts it, its waits, and its slot. A `granted` push
is the oldest waiting one. -/
def State.platGo (s : State) (st : Fin 4) (q : PlatReq) (granted : Bool) : State :=
  let k := StreamId.A
  if s.verifyHeld st q.h then s
  else
    match s.platCheck st k q.h with
    | (s1, .error (c, v)) => s1.trap st k c v
    | (_, .ok p) =>
      match s.platForm st q p with
      | .error f => s.trap st k f.cause f.tval
      | .ok (mem, sq, mark) =>
        let deferred := (s.strand st).det && q.scatter.isSome && !(p.pas.flatMap id).all fun pa => s.inPart (s.acc st) pa
        let charge := platCharge p sq.isSome
        if deferred && !s.fits st charge then s.trap st k cDrainFull q.h
        else if s.fifoFull st 1 || !s.fenced st k (if q.dev then .dev else .cor) then s
        else
          match (if granted || s.platQ.isEmpty then s.freePlat else none) with
          | none => ({ s with platQ := s.platQ ++ [q] }).wait st k .platWait
          | some i =>
            let x := s.platSlots.get i
            let id : BitVec 16 := BitVec.ofNat 4 i.val ++ x.seq
            let o : PlatOp := {
              strand := st
              task := (s.strand st).task
              acc := s.acc st
              opid := id
              scatter := q.scatter
              plat := p
              mem := mem
              squash := sq
              mark := mark
              mval := q.mval
              deferred := deferred
              captured := 0
              seq := s.tick }
            let sq := s.platSquash o
            let o := { o with captured := o.count sq }
            let s1 : State := { s with platSlots := s.platSlots.set i.val { seq := x.seq + 1, op := some o } i.isLt }
            let s2 := match deferred, o.task with
              | true, some t => (s1.chargeTeam st charge).deferOp t o.seq (.scatter o (s.platSource o) sq)
              | _, _ => s1
            (s2.modStrand st fun y => y.reserve 1).pushDone st k q.rd (id.setWidth 64) 12

/-- PLATG (R140, R67). -/
def execPlatg (dev : Bool) (rd xh xdst xmark xval : Reg) (s : State) : Out :=
  onStream s fun st k =>
    if k == .E then s.illegal st k 0x05
    else if s.verifyHeld st (s.readX st k xh) then
      s.keepInstr st k (s.verifyPas st (s.readX st k xh)) (.platg dev rd xh xdst xmark xval)
    else
      s.platGo st
        { strand := st
          rd := rd
          dev := dev
          scatter := none
          h := s.readX st k xh
          mem := s.readX st k xdst
          squash := none
          mark := s.readX st k xmark
          mval := s.readX st k xval } false

/-- PLATS (R141, R67). -/
def execPlats (dev : Bool) (op : ScatOp) (ty : ScatType) (pl : Bool) (xpl rd xh xsrc xmark xval : Reg) (s : State) : Out :=
  onStream s fun st k =>
    if k == .E then s.illegal st k 0x05
    else if s.verifyHeld st (s.readX st k xh) then
      s.keepInstr st k (s.verifyPas st (s.readX st k xh)) (.plats dev op ty pl xpl rd xh xsrc xmark xval)
    else
      s.platGo st
        { strand := st
          rd := rd
          dev := dev
          scatter := some (op, ty)
          h := s.readX st k xh
          mem := s.readX st k xsrc
          squash := if pl then some (s.readX st k xpl) else none
          mark := s.readX st k xmark
          mval := s.readX st k xval } false

/-- PLAT_OP_START (R137): a free slot takes the oldest waiting push. -/
def execPlatOpStart (s : State) : Out :=
  match s.platQ, s.freePlat with
  | q :: rest, some _ => .next (({ s with platQ := rest }.wait q.strand .A .run).platGo q.strand q true)
  | _, _ => .next s

/-! ### How an operation ends (R136) -/

/-- One step of a scatter at the home of a unique target (R141): the elements that contribute, in order. -/
def State.scatterTarget (s : State) (o : PlatOp) (op : ScatOp) (ty : ScatType) (src : List (List (Byte × Bool)))
    (pas js : List Nat) : State :=
  if js.isEmpty then s
  else
    let sz := o.plat.sz
    let key := (s.slotKey o.acc.key)
    let oldBs := s.bytesAt none key pas
    let bytes := fun (j : Nat) => src.getD j []
    let a := js.foldl (fun a j => scatFn op ty (8 * sz) a (leNat ((bytes j).map fun b => b.1))) (leNat oldBs)
    let bad := if scatArith op then (pas.any fun pa => s.poisoned pa) || js.any (fun j => (bytes j).any fun b => b.2)
      else (bytes (js.getLastD 0)).any fun b => b.2
    let oldBad := pas.any fun pa => s.poisoned pa
    let s1 := s.scatterBytes key (pas.zip (leBytes sz a))
    let s2 := if bad then s1.poisonAll pas else s1
    if op == .swap then
      js.foldl (fun u j =>
        let dst := (o.mem.drop (j * sz)).take sz
        let v := u.scatterBytes key (dst.zip oldBs)
        if oldBad then v.poisonAll dst else v) s2
    else s2

/-- A scatter performed (R141). -/
def State.scatterAll (s : State) (o : PlatOp) (src : List (List (Byte × Bool))) (squash : List Bool) : State :=
  match o.scatter with
  | none => s
  | some (op, ty) =>
    o.plat.groupsOf.foldl (fun u g => u.scatterTarget o op ty src g.1 (g.2.filter fun j => !squash.getD j false)) s

/-- A gather performed (R140). A destination that overlaps targets of the gather itself receives what they held before it (log 109). -/
def State.gatherAll (s : State) (o : PlatOp) : State :=
  let key := s.slotKey o.acc.key
  let src := o.plat.pas.flatMap id
  let s1 := s.scatterBytes key (o.mem.zip (src.map fun pa => s.taskByte o.task o.strand .A key pa))
  s1.poisonAll ((o.mem.zip src).filterMap fun e => if s.poisonedTo o.task o.strand .A e.2 then some e.1 else none)

/-- Every PA that an operation touches; a deferred one has its mark left alone. -/
def PlatOp.touches (o : PlatOp) : List Nat :=
  o.mark.toList ++ if o.deferred then [] else o.mem ++ (o.plat.pas.flatMap id) ++ o.squash.getD []

/-- The record of a plat operation (R136). -/
def platRecord (o : PlatOp) (status : Byte) (done : Nat) : W64 :=
  copyRecord o.opid status (if o.scatter.isSome then 2 else 1) done

/-- A slot of the plat queue freed. -/
def State.freeSlot (s : State) (i : Fin 16) : State :=
  { s with platSlots := s.platSlots.set i.val { s.platSlots.get i with op := none } i.isLt }

/-- Whether a plat operation would reach HBM under a key slot whose key has been cleared since its plat was built (R111, R122). -/
def State.platKeyless (s : State) (o : PlatOp) : Bool := s.keyless o.acc.key && o.touches.any isHbm

/-- An operation's end: the mark and the record (R136), or a failure without a mark. `reach` says whether the windows it names can be
reached, and a held stack delays it (R107). An operation that fails has completed no target (log 110), and one whose key slot has been cleared has status
6 (log 132). -/
def State.platEnd (s : State) (i : Fin 16) (o : PlatOp) (reach : Bool) (perform : State) (status : Byte) (done : Nat) : State :=
  let pas := o.touches
  if s.inHeld pas then s.keepWork pas o.task (if o.scatter.isSome then .scatter i reach else .gather i reach)
  else if s.platKeyless o then (s.freeSlot i).engineFail o.strand o.task 1 (platRecord o (faultStatus cProt) 0)
  else if pas.any fun pa => s.lostAt pa then (s.freeSlot i).engineFail o.strand o.task 1 (platRecord o 2 0)
  else if pas.any fun pa => s.unreachable pa || (!reach && (paType pa == 3 || paType pa == 4)) then
    (s.freeSlot i).engineFail o.strand o.task 1 (platRecord o 1 0)
  else
    let s1 := match o.mark with
      | some m => perform.write (s.slotKey o.acc.key) m (leBytes 8 o.mval.toNat)
      | none => perform
    (s1.freeSlot i).settle o.strand o.task 1 (some (platRecord o status done))

/-- PLAT_GATHER_COMPLETE (R136, R140). -/
def execPlatGatherComplete (slot : Fin 16) (reach : Bool) (s : State) : Out :=
  match (s.platSlots.get slot).op with
  | none => .next s
  | some o =>
    if o.scatter.isSome then .next s
    else .next (s.platEnd slot o reach (s.gatherAll o) 0 (uniqueTa o.plat.ta).length)

/-- PLAT_SCATTER_COMPLETE (R136, R138, R141): performed, or left to the wave fence with status 3. -/
def execPlatScatterComplete (slot : Fin 16) (reach : Bool) (s : State) : Out :=
  match (s.platSlots.get slot).op with
  | none => .next s
  | some o =>
    if o.scatter.isNone then .next s
    else if o.deferred then .next (s.platEnd slot o reach s 3 o.captured)
    else .next (s.platEnd slot o reach (s.scatterAll o (s.platSource o) (s.platSquash o)) 0 (uniqueTa o.plat.ta).length)

end Sys2Proof.Machine
end

