-- ==== Sys2Proof/Machine/Flags.lean ====
section
/-! DEFINITION. The flag registers: `SFCTL` of each stream (R78) and `VSTATUS` of each strand (R77, R79, R89), and how results set
their bits. -/

namespace Sys2Proof.Machine

/-- The scalar rounding mode (R78). -/
def sfRm (sfctl : W64) : BitVec 3 := sfctl.extractLsb' 5 3

/-- IEEE flags ORed into the stream's `SFCTL` (R78, R285). -/
def Stream.orFlags (t : Stream) (f : Flags) : Stream := { t with sfctl := t.sfctl ||| f.setWidth 64 }

/-- IEEE flags of a scalar instruction. -/
def State.scalarFlags (s : State) (st : Fin 4) (k : StreamId) (f : Flags) : State := s.modStream st k fun t => t.orFlags f

/-- SCHI: a produced scale code was clamped to +120 (R77, R89). -/
def bitSchi : W64 := 0x40
/-- SCLOW: a produced scale code was clamped to −120 (R77, R89). -/
def bitSclow : W64 := 0x20

/-- Sticky bits of `VSTATUS` set. -/
def Strand.orStatus (x : Strand) (v : W64) : Strand := { x with vstatus := x.vstatus ||| v }

/-- QNEED written (R77, R206). -/
def Strand.setQneed (x : Strand) (n : Nat) : Strand :=
  { x with vstatus := (x.vstatus &&& ~~~(0xFFFF0000#64)) ||| (BitVec.ofNat 16 n).setWidth 64 <<< 16 }

end Sys2Proof.Machine
end

