-- ==== Sys2Proof/Machine/Vector.lean ====
section
/-! DEFINITION. What the vector instructions share when they commit: the element loop of R196, its floating-point form (R76, R81,
R200), predicates as destinations (R202), and the answer of a commit (R197). -/

namespace Sys2Proof.Machine

/-- What an entry does when it is the oldest and issues (R197): the strand with its destinations, flags and, for a scalar destination,
the value of it; or a trap at the VCP, with the strand as it stands then. -/
inductive VRes where
  | done (x : Strand) (rd : W64)
  | trap (x : Strand) (cause : Byte) (tval : W64)
  deriving DecidableEq, Repr

/-- The rows of an entry's grant. -/
def VEntry.rows (e : VEntry) : Nat := e.vlr.toNat
/-- The columns of an entry's grant. -/
def VEntry.cols (e : VEntry) : Nat := e.vlc.toNat
/-- The element width of an entry. -/
def VEntry.sew (e : VEntry) : Nat := vtSew e.vtype
/-- Word 0 of an entry. -/
def VEntry.w0 (e : VEntry) : W32 := e.words.headD 0

/-- A `FORMAT` trap with the `TVAL` of R81. -/
def Strand.badFormat (x : Strand) (e : VEntry) : VRes := .trap x cFormat (x.formatVal e.vtype)

/-- An `ILLEGAL` trap of an entry with a subcode. -/
def Strand.badEntry (x : Strand) (e : VEntry) (sub : Byte) : VRes := .trap x cIllegal (illVal sub e.w0)

/-- Every element (r, c) of a grant in increasing row and column. -/
def gridOf (rows cols : Nat) : List (Nat × Nat) :=
  (List.range rows).flatMap fun r => (List.range cols).map fun c => (r, c)

/-- The active elements of an entry in increasing row and column (R12). -/
def Strand.actives (x : Strand) (e : VEntry) (m : Ext) : List (Nat × Nat) :=
  (gridOf e.rows e.cols).filter fun p => x.active m p.1 p.2

/-- The element loop of R196 at a width: `f` on active elements, zero on inactive ones under `.z`. -/
def Strand.lanes (x : Strand) (e : VEntry) (o : VOp) (m : Ext) (w : Nat) (f : Nat → Nat → Nat × Flags) : VRes :=
  let p := x.writeGroup o.vd w e.rows e.cols fun r c =>
    if x.active m r c then some (f r c) else if m.zero then some (0, 0) else none
  .done (p.1.orFlags p.2) 0

/-- The element loop of an instruction that moves or computes bits at SEW and sets no flag. -/
def Strand.bitLanes (x : Strand) (e : VEntry) (o : VOp) (m : Ext) (f : Nat → Nat → Nat) : VRes :=
  x.lanes e o m e.sew fun r c => (f r c, 0)

/-- The same for a function of vs1, vs2 and the old destination. -/
def Strand.intLanes (x : Strand) (e : VEntry) (o : VOp) (m : Ext) (f : Nat → Nat → Nat → Nat) : VRes :=
  x.bitLanes e o m fun r c =>
    f (x.src o.vs1 m.rep1 e.sew r c) (x.src o.vs2 m.rep2 e.sew r c) (elem (x.readRow o.vd r) e.sew c)

/-- The element loop of R200: inputs under daz, results under ftz, in the format of `VTYPE` or a `FORMAT` trap. -/
def Strand.fpLanes (x : Strand) (e : VEntry) (o : VOp) (m : Ext) (f : Fmt → BitVec 3 → Nat → Nat → Nat → Nat × Flags) : VRes :=
  match vtFp e.vtype with
  | none => x.badFormat e
  | some t =>
    let inp := fun (s : Spec) (q : Rep) (r c : Nat) => t.dazBits (vtDaz e.vtype) (x.src s q t.width r c)
    x.lanes e o m t.width fun r c =>
      t.ftzBits (vtFtz e.vtype)
        (f t (vecRm e.vtype m.rnd) (inp o.vs1 m.rep1 r c) (inp o.vs2 m.rep2 r c) (inp m.vs3 .none r c))

/-- The element loop of an instruction that reads raw FP bits of vs1 and vs2. -/
def Strand.rawLanes (x : Strand) (e : VEntry) (o : VOp) (m : Ext) (f : Fmt → Nat → Nat → Nat × Flags) : VRes :=
  match vtFp e.vtype with
  | none => x.badFormat e
  | some t => x.lanes e o m t.width fun r c => f t (x.src o.vs1 m.rep1 t.width r c) (x.src o.vs2 m.rep2 t.width r c)

/-- Bits of a predicate written over the grant (R202): `f` on active elements, cleared on inactive ones under `.z`. -/
def Strand.predLanes (x : Strand) (e : VEntry) (o : VOp) (m : Ext) (f : Nat → Nat → Bool × Flags) : VRes :=
  let pd : BitVec 4 := o.vd.setWidth 4
  let res := (gridOf e.rows e.cols).foldl (fun (acc : Pred × Flags) p =>
      if x.active m p.1 p.2 then
        let b := f p.1 p.2
        (setPredBit acc.1 p.1 p.2 b.1, acc.2 ||| b.2)
      else if m.zero then (setPredBit acc.1 p.1 p.2 false, acc.2)
      else acc)
    (x.p.get ⟨pd.toNat, pd.isLt⟩, 0)
  .done ((x.writePred pd res.1).orFlags res.2) 0

/-- One element of a group written, whatever the grant (R209). -/
def Strand.setAt (x : Strand) (spec : Spec) (w r c v : Nat) : Strand := x.writeRow spec r (setElem (x.readRow spec r) w c v)

/-! ### How an entry leaves the queue (R197) -/

/-- The destination group of a form that shifts the last-result file; of `EPTK.fin` the second (R232). -/
def destOf (f : VForm) : Spec :=
  match f with
  | .vec 0x1B 5 o _ _ => o.vs2
  | .vec _ _ o _ _ => o.vd
  | .row _ _ _ _ _ _ _ _ _ => 0

/-- The fields of a form that name sources, each with its kind; `VMAC` also reads its destination (R177, R195; log 10). -/
def formSources (f : VForm) : List (Kind × Spec) :=
  match f with
  | .row func _ _ _ _ _ _ vX _ => if func == 1 || func == 2 then [(.src, vX)] else []
  | .vec maj f3 o x _ =>
    match vShape maj f3 x.fx with
    | none => []
    | some u => [(u.vs1, o.vs1), (u.vs2, o.vs2), (u.vs3, x.vs3)] ++ if maj == 0x14 && f3 == 6 then [(.src, o.vd)] else []

/-- The first vector registers of the groups that a form reads: the reads that ask a bank for a port (R177; log 150). -/
def vregSources (f : VForm) : List Nat :=
  ((formSources f).filter fun p => (p.1 == .src || p.1 == .vreg) && decide (p.2.toNat < 64)).map fun p => p.2.toNat

/-! ### The register banks (R177, R194) -/

/-- The reads that an issue group asks of a bank in one step: row r of each operand group. -/
def bankReads (g : List BankUse) (r b : Nat) : Nat :=
  (g.map fun u => if r < u.rows then u.srcs.countP fun v => (v + r) % 8 == b else 0).sum

/-- The cycles that a step adds: a bank serves two reads in a cycle. -/
def addedCycles (g : List BankUse) (r : Nat) : Nat := ((List.range 8).map fun b => (bankReads g r b + 1) / 2 - 1).foldl max 0

/-- The cycles that an issue group adds in all of its steps. -/
def groupCycles (g : List BankUse) : Nat := ((List.range 16).map fun r => addedCycles g r).sum

/-- The strand after an instruction has taken its place in an issue group of up to three (R177): `BANKSER` grows by the cycles that it adds.
Which instructions form a group is open (log 10). -/
def Strand.bankStep (x : Strand) (e : VEntry) (now : Nat) : Strand :=
  let u : BankUse := { rows := vtG e.vtype, srcs := vregSources e.form }
  let old := if x.group.length < 3 && Config.joins now then x.group else []
  { x with group := old ++ [u], bankser := x.bankser + BitVec.ofNat 64 (groupCycles (old ++ [u]) - groupCycles old) }

/-! ### Registers that hold poisoned data (R370) -/

/-- The single vector registers that a form reads: the scale and the bias row of an `ARD` (R230). -/
def rowSources (f : VForm) : List Nat :=
  ((formSources f).filter fun p => p.1 == .row && decide (p.2.toNat < 64)).map fun p => p.2.toNat

/-- Whether an instruction reads scale codes from v63 (R87, R88): `MMA`, `RMFIRE` and `RMMUL` of the narrow class, `DQNT`, and `QNT` that keeps its codes. -/
def readsScale (e : VEntry) : Bool :=
  match e.form with
  | .vec maj f3 _ m _ => (maj == 0x1B && f3 == 0 && vtKind e.vtype == 2) || (maj == 0x18 && (f3 == 3 || (f3 == 1 && m.fx.getLsbD 0)))
  | .row func _ _ _ _ _ _ _ _ => (func == 1 || func == 2) && vtKind e.vtype == 2

/-- Some rows of a group of sources, as `Strand.bad` numbers them: v0 to v63, and the rows of l0 from 80 and of l1 from 96 on (R174). -/
def badRows (spec : Spec) (g : Nat) : List Nat :=
  let n := spec.toNat
  let at_ := fun (b : Nat) => (List.range g).map fun r => b + r
  if n < 64 then at_ n else if n == 0x60 then at_ 80 else if n == 0x61 then at_ 96 else []

/-- The registers of the frame that an instruction reads: v0 to v63, p0 to p15 from 64 on, and the rows of l0 and l1. -/
def frameReads (e : VEntry) : List Nat :=
  let preds := ((formSources e.form).filter fun p => p.1 == .pred).map fun p => 64 + p.2.toNat
  let gov := match e.form with
    | .vec _ _ _ x _ => if x.p == 0 then [] else [64 + x.p.toNat]
    | .row _ _ _ _ _ _ _ _ _ => []
  (((formSources e.form).filter fun p => p.1 == .src || p.1 == .vreg).flatMap fun p => badRows p.2 (vtG e.vtype))
    ++ rowSources e.form ++ preds ++ gov ++ if readsScale e then [63] else []

/-- Whether an instruction would read a register that holds poisoned data. -/
def Strand.readsBad (x : Strand) (e : VEntry) : Bool := (frameReads e).any fun v => x.bad.contains v

/-- The registers that hold poisoned data after a form has shifted the last-result file (R174): l0 takes the poison of the destination group's rows,
and l1 that of l0. -/
def shiftBad (f : VForm) (g : Nat) (bad : List Nat) : List Nat :=
  let regs := bad.filter fun b => b < 80
  let rowsOf := fun (base : Nat) (spec : Spec) =>
    (List.range g).filterMap fun r => if spec.toNat < 64 && regs.contains (spec.toNat + r) then some (base + r) else none
  match shiftCount f, f with
  | 0, _ => bad
  | 1, _ => regs ++ rowsOf 80 (destOf f) ++ (bad.filter fun b => decide (80 ≤ b) && decide (b < 96)).map fun b => b + 16
  | _, .vec _ _ o _ _ => regs ++ rowsOf 80 (destOf f) ++ rowsOf 96 o.vd
  | _, .row _ _ _ _ _ _ _ _ _ => regs

/-- The strand when its oldest entry commits, its results written (R174, R177, R197, R198): the entry leaves the queue, the last-result
file shifts, a scalar destination is written and the front end goes on. -/
def Strand.commit (x : Strand) (e : VEntry) (rd : W64) (now : Nat) : Strand :=
  let y := { x.bankStep e now with viq := x.viq.drop 1 }
  let z := if shiftsLast e.form then y.shiftLast (destOf e.form) (vtG e.vtype) else y
  match scalarDest e.form with
  | none => z
  | some r =>
    { z with e := { z.e.writeX r rd with status := if z.e.status == .hold then .run else z.e.status, age := now } }

/-- The oldest entry of a strand commits, leaving the strand `y`. -/
def State.finish (s : State) (st : Fin 4) (e : VEntry) (y : Strand) (rd : W64) : State :=
  s.modStrand st fun _ => y.commit e rd s.tick

/-- What an entry answers put into effect. -/
def State.settleEntry (s : State) (st : Fin 4) (e : VEntry) (r : VRes) : State :=
  match r with
  | .done y rd => s.finish st e y rd
  | .trap y c v => (s.modStrand st fun _ => y).vecTrap st c v

end Sys2Proof.Machine
end

