-- ==== Sys2Proof/Machine/Vconv.lean ====
section
/-! DEFINITION. Conversions and narrow codes: major 0x18 (R203 to R207), each with its front end and its commit. -/

namespace Sys2Proof.Machine

/-! ### VCVT (R203) -/

/-- A type of `VCVT`: FP, or an integer of a width and signedness. -/
inductive CvtType where
  | fp (f : Fmt)
  | int (w : Nat) (isSigned : Bool)
  deriving DecidableEq, Repr

/-- The type of a code; the reserved codes 14 and 15 do not decode. -/
def cvtType (code : Nat) : CvtType :=
  match code with
  | 0 => .fp .fp32
  | 1 => .fp .fp16
  | 2 => .fp .bf16
  | 3 => .fp .fp64
  | 4 => .int 8 true
  | 5 => .int 8 false
  | 6 => .int 16 true
  | 7 => .int 16 false
  | 8 => .int 32 true
  | 9 => .int 32 false
  | 10 => .int 64 true
  | 11 => .int 64 false
  | 12 => .int 4 true
  | _ => .int 4 false

/-- The width of a type. -/
def CvtType.width (t : CvtType) : Nat :=
  match t with
  | .fp f => f.width
  | .int w _ => w

/-- One conversion (R86, R203). -/
def cvtElem (src dst : CvtType) (rm : BitVec 3) (daz ftz sat : Bool) (b : Nat) : Nat × Flags :=
  match src, dst with
  | .fp f, .fp g => g.ftzBits ftz (f.toFmt g rm (f.dazBits daz b))
  | .fp f, .int w s =>
    let r := (f.decode (f.dazBits daz b)).toInt rm w s
    (lowBits w r.1, r.2)
  | .int w s, .fp g => g.ftzBits ftz (g.ofInt rm (readInt w s b))
  | .int w s, .int w' s' =>
    let v := readInt w s b
    (lowBits w' (if sat then clampInt (intRange w' s') v else v), 0)

/-- VCVT at its commit (R203): each row of vs1 at the source width, each row of vd at the destination width. -/
def commitVcvt (x : Strand) (e : VEntry) (o : VOp) (m : Ext) : VRes :=
  let src := cvtType (m.fx.extractLsb' 0 4).toNat
  let dst := cvtType (m.fx.extractLsb' 4 4).toNat
  if 8192 < e.cols * max src.width dst.width then x.badFormat e
  else
    x.lanes e o m dst.width fun r c =>
      cvtElem src dst (vecRm e.vtype m.rnd) (vtDaz e.vtype) (vtFtz e.vtype) m.sat (x.src o.vs1 m.rep1 src.width r c)

/-! ### The checks of QNT, QNTE and DQNT (R204) -/

/-- The narrow format of an entry. -/
def Strand.narrow (x : Strand) (e : VEntry) : Narrow := Narrow.ofReg (x.fr.get (vtFmt e.vtype))

/-- Whether a group operand includes v63. -/
def meetsV63 (g : Nat) (s : Spec) : Bool := decide (s.toNat < 0x40) && decide (0x40 ≤ s.toNat + g)

/-- The checks of R204, in order, and the block bound of R88: the trap of the first that fails. -/
def Strand.quantCheck (x : Strand) (e : VEntry) (o : VOp) (m : Ext) (esc : Bool) : Option VRes :=
  let f := x.narrow e
  let co := e.xs.toNat
  let g := vtG e.vtype
  if !x.narrowOk e.vtype || (esc && !f.esc) then some (x.badFormat e)
  else if 256 < e.cols then some (x.badFormat e)
  else if co % f.blk != 0 || 8192 / e.sew < co + e.cols then
    some (.trap x cFormat ((e.xs.extractLsb' 0 32 ++ e.vtype.extractLsb' 0 32 : BitVec 64)))
  else if meetsV63 g o.vd || meetsV63 g o.vs1 then some (x.badEntry e 0x13)
  else if 3 < m.tix.toNat then some (x.badEntry e 0x03)
  else if (x.actives e m).any fun p => 64 ≤ (co + p.2) / f.blk then some (x.badFormat e)
  else none

/-- The scale code of a block as a byte of v63. -/
def Strand.blockCode (x : Strand) (f : Narrow) (co r c : Nat) : Byte := x.v63Byte (r * 64 + (co + c) / f.blk)

/-- The `SCALECODE` check of R87 on the codes of active elements, in increasing row and column. -/
def Strand.scaleCheck (x : Strand) (e : VEntry) (m : Ext) (f : Narrow) (co : Nat) : Option VRes :=
  match (x.actives e m).find? fun p => !scaleValid (x.blockCode f co p.1 p.2) with
  | some p =>
    some (.trap x cScalecode ((x.blockCode f co p.1 p.2).setWidth 64 ||| BitVec.ofNat 64 ((p.1 * 64 + (co + p.2) / f.blk) * 2 ^ 16)))
  | none => none

/-! ### Quantising (R205, R206) -/

/-- The least e with a magnitude m * 2^k at most F * 2^e. -/
def Narrow.leastScale (f : Narrow) (m : Nat) (k : Int) : Int :=
  let big := f.maxVal
  let c : Int := (bitLen m : Int) - bitLen big.1 + k - big.2
  if magGt m k big.1 (big.2 + c) then c + 1 else c

/-- The FP32 magnitude bits of an element. -/
def mag32 (b : Nat) : Nat := b % 2 ^ 31

/-- The elements of one block: those active in row r with the block's columns. -/
def Strand.blockOf (x : Strand) (e : VEntry) (m : Ext) (f : Narrow) (co r b : Nat) : List Nat :=
  (List.range e.cols).filter fun c => (co + c) / f.blk == b && x.active m r c

/-- The code that a block gets from the largest finite magnitude among its elements, with the sticky bits of R89. -/
def Narrow.scaleOf (f : Narrow) (mags : List Nat) : Int × W64 :=
  let amax := mags.foldl max 0
  if amax == 0 then (-128, 0)
  else
    match Fmt.fp32.decode amax with
    | .fin _ m k =>
      let c := f.leastScale m k
      if c < -120 then (-120, bitSclow) else if 120 < c then (120, bitSchi) else (c, 0)
    | _ => (-128, 0)

/-- Whether `QNTE` elects an element (R205); `QNT` elects none. -/
def elected (tau : Option Nat) (b : Nat) : Bool :=
  match tau with
  | some t => decide (0x7F800000 ≤ mag32 b) || decide (t < mag32 b)
  | none => false

/-- One element's code and flags under its block's code. -/
def Narrow.quantElem (f : Narrow) (rm : BitVec 3) (code : Int) (tau : Option Nat) (b : Nat) : Nat × Flags :=
  if elected tau b then (f.escCode, 0)
  else
    let nv : Flags := if tau.isNone && Fmt.fp32.isNan b then flagNV else 0
    if code == -128 then (0, nv)
    else
      let r := f.convert rm ((Fmt.fp32.decode b).scale (-code))
      (r.1, r.2 ||| nv)

/-- `QNT` and `QNTE` once their checks have passed: the codes, the scale bytes, the flags (R205). -/
def Strand.quantise (x : Strand) (e : VEntry) (o : VOp) (m : Ext) (keep : Bool) (tau : Option Nat) : Strand :=
  let f := x.narrow e
  let co := e.xs.toNat
  let val := fun (r c : Nat) => Fmt.fp32.dazBits (vtDaz e.vtype) (x.src o.vs1 m.rep1 32 r c)
  let scale := fun (r b : Nat) =>
    if keep then ((x.v63Byte (r * 64 + b)).toInt, (0 : W64))
    else
      f.scaleOf (((x.blockOf e m f co r b).filter fun c => !elected tau (val r c) && mag32 (val r c) < 0x7F800000).map
        fun c => mag32 (val r c))
  let blocks := ((x.actives e m).map fun p => (p.1, (co + p.2) / f.blk)).eraseDups
  let codes := blocks.map fun p => (p, scale p.1 p.2)
  let codeOf := fun (r b : Nat) =>
    match codes.find? fun q => q.1 == (r, b) with
    | some q => q.2.1
    | none => -128
  let w := x.writeGroup o.vd e.sew e.rows (co + e.cols) fun r n =>
    if n < co then none
    else if x.active m r (n - co) then
      some (f.quantElem (vecRm e.vtype m.rnd) (codeOf r (n / f.blk)) tau (val r (n - co)))
    else if m.zero then some (0, 0) else none
  let y := if keep then w.1
    else codes.foldl (fun u q => u.setAt 63 8 0 (q.1.1 * 64 + q.1.2) (lowBits 8 q.2.1)) w.1
  (y.orFlags w.2).orStatus (codes.foldl (fun a q => a ||| q.2.2) 0)

/-- QNT at its commit (R204, R205). -/
def commitQnt (x : Strand) (e : VEntry) (o : VOp) (m : Ext) : VRes :=
  let keep := m.fx.getLsbD 0
  match x.quantCheck e o m false with
  | some t => t
  | none =>
    match (if keep then x.scaleCheck e m (x.narrow e) e.xs.toNat else none) with
    | some t => t
    | none => .done (x.quantise e o m keep none) 0

/-- An entry inserted into an outlier list in increasing position. -/
def insertOl (n : OlEntry) : List OlEntry → List OlEntry
  | [] => [n]
  | a :: t => if n.pos < a.pos then n :: a :: t else a :: insertOl n t

/-- The position of an element of a strip in an outlier list (R90). -/
def olPos (co r c : Nat) : BitVec 32 := BitVec.ofNat 32 (r * 2048 + co + c)

/-- QNTE at its commit (R204 to R206). -/
def commitQnte (x : Strand) (e : VEntry) (o : VOp) (m : Ext) : VRes :=
  let co := e.xs.toNat
  let tau : W32 := e.xs2.extractLsb' 0 32
  match x.quantCheck e o m true with
  | some t => t
  | none =>
    if Fmt.fp32.isNan tau.toNat || (tau.msb && mag32 tau.toNat != 0) then .trap x cFormat (tau.setWidth 64)
    else
      let t := some (mag32 tau.toNat)
      let act := x.actives e m
      let k : Fin 4 := fin 4 m.tix.toNat
      let old := (x.k.get k).filter fun n => !act.any fun p => olPos co p.1 p.2 == n.pos
      let new := (act.filter fun p => elected t (Fmt.fp32.dazBits (vtDaz e.vtype) (x.src o.vs1 m.rep1 32 p.1 p.2))).map fun p =>
        { pos := olPos co p.1 p.2, val := BitVec.ofNat 32 (x.src o.vs1 m.rep1 32 p.1 p.2) }
      let n := old.length + new.length
      if 64 < n then .trap (x.setQneed n) cOlOverflow (BitVec.ofNat 64 n)
      else
        let y := x.quantise e o m false t
        .done { y with k := y.k.set k.val (new.foldl (fun l a => insertOl a l) old) k.isLt } 0

/-! ### Dequantising (R207) -/

/-- The least of some positions. -/
def leastOf : List Nat → Option Nat
  | [] => none
  | a :: t => some (t.foldl min a)

/-- The positions of a list within a region that do not rise strictly. -/
def olDisorder : List Nat → List Nat
  | a :: b :: t => (if a < b then [] else [b]) ++ olDisorder (b :: t)
  | _ => []

/-- The check of R92 of a list against the positions of a region's escaped elements: the least offending position. -/
def olCheck (list : List OlEntry) (inside : Nat → Bool) (escaped : List Nat) : Option Nat :=
  let ps := (list.map fun n => n.pos.toNat).filter inside
  leastOf (olDisorder ps ++ (ps.filter fun p => !escaped.contains p) ++ escaped.filter fun p => !ps.contains p)

/-- DQNT at its commit (R204, R207): every check before any effect, the least offending position named. -/
def commitDqnt (x : Strand) (e : VEntry) (o : VOp) (m : Ext) : VRes :=
  let f := x.narrow e
  let co := e.xs.toNat
  let useList := m.fx.getLsbD 0
  match x.quantCheck e o m false with
  | some t => t
  | none =>
    match x.scaleCheck e m f co with
    | some t => t
    | none =>
      let list := if useList then x.k.get (fin 4 m.tix.toNat) else []
      let val := fun (r c : Nat) => f.decode (x.src o.vs1 m.rep1 e.sew r (co + c))
      let entry := fun (r c : Nat) => list.find? fun n => n.pos == olPos co r c
      let place := fun (p : Nat × Nat) => p.1 * 2048 + co + p.2
      let act := x.actives e m
      if 64 < list.length then .trap x cOlMismatch (BitVec.ofNat 64 list.length)
      else
        match olCheck list (fun n => act.any fun p => place p == n) ((act.filter fun p => val p.1 p.2 == .escape).map place) with
        | some pos => .trap x cOlMismatch (BitVec.ofNat 64 pos)
        | none =>
          x.lanes e o m 32 fun r c =>
            match val r c with
            | .escape => (((entry r c).map fun n => n.val.toNat).getD 0, 0)
            | .num v =>
              let code := (x.blockCode f co r c).toInt
              if code == -128 then (0, 0)
              else
                Fmt.fp32.ftzBits (vtFtz e.vtype) (Fmt.fp32.pack (vecRm e.vtype m.rnd) (v.scale code))

/-! ### The front end -/

/-- VCVT at the front end (R203, R277). -/
def execVcvt (o : VOp) (s : State) : Out := onStream s fun st k => s.frontEnd st k (.vec 0x18 0 o Ext.base none)
/-- VCVT with its extended words at the front end (R203, R277). -/
def execVcvtExt (o : VOp) (x : Ext) (s : State) : Out := onStream s fun st k => s.frontEnd st k (.vec 0x18 0 o x none)
/-- QNT at the front end (R204, R277). -/
def execQnt (o : VOp) (x : Ext) (s : State) : Out := onStream s fun st k => s.frontEnd st k (.vec 0x18 1 o x none)
/-- QNTE at the front end (R204, R277). -/
def execQnte (o : VOp) (x : Ext) (s : State) : Out := onStream s fun st k => s.frontEnd st k (.vec 0x18 2 o x none)
/-- DQNT at the front end (R204, R277). -/
def execDqnt (o : VOp) (x : Ext) (s : State) : Out := onStream s fun st k => s.frontEnd st k (.vec 0x18 3 o x none)

end Sys2Proof.Machine
end

