-- ==== Sys2Proof/Machine/Mat.lean ====
section
/-! DEFINITION. The matrix engine: major 0x1B (R216 to R235) with the sums of R93 and R94, its queue (R218, R219), the events of its
turn, and the ownership of a core's matrix state (R220, R221). -/

namespace Sys2Proof.Machine

/-! ### Tiles (R216) -/

/-- The key of Acc[i, j] of a tile. -/
def accKey (t i j : Nat) : Nat := (t * 128 + i) * 128 + j

/-- The bits of Acc[i, j] of a tile. -/
def Matrix.acc (m : Matrix) (t i j : Nat) : Nat := (m.tiles.get (accKey t i j)).toNat

/-- The matrix state of the core changed. -/
def State.modMat (s : State) (f : Matrix → Matrix) : State := { s with mat := f s.mat }

/-- Row i of a tile written from a column on. -/
def Matrix.putRow (m : Matrix) (t i j : Nat) (vals : List (BitVec 32)) : Matrix :=
  { m with tiles := m.tiles.splice (accKey t i j) vals }

/-- One element of a tile written. -/
def Matrix.put (m : Matrix) (t i j v : Nat) : Matrix := m.putRow t i j [BitVec.ofNat 32 v]

/-- Whether a deep part that has not landed keeps a tile (R252). -/
def State.tileBusy (s : State) (t : Nat) : Bool := s.mat.deep.any fun d => d.aJ == t && !d.ready

/-! ### Classes and values (R225, R85, R93) -/

/-- The class of `VTYPE` (R225). -/
def Strand.mclass (x : Strand) (vtype : W64) : Option MClass :=
  match vtKind vtype, fld vtype 0 3 with
  | 2, _ => if x.narrowOk vtype then some .narrow else none
  | 0, 1 => some .int8
  | 0, 2 => some .fp16
  | 1, 2 => some .bf16
  | _, _ => none

/-- The format register that a class copies. -/
def Strand.frOf (x : Strand) (cls : MClass) (vtype : W64) : W64 :=
  match cls with
  | .narrow => x.fr.get (vtFmt vtype)
  | .int8 | .fp16 | .bf16 => 0

/-- The value of an element of a class (R85, R93: daz reads subnormal FP16 and BF16 as zeros). -/
def classVal (cls : MClass) (fr : W64) (daz : Bool) (code : Nat) : NVal :=
  match cls with
  | .narrow => (Narrow.ofReg fr).decode code
  | .int8 => .num (Num.ofInt false (readInt 8 true code) 0)
  | .fp16 => .num (Fmt.fp16.decode (Fmt.fp16.dazBits daz code))
  | .bf16 => .num (Fmt.bf16.decode (Fmt.bf16.dazBits daz code))

/-- A value under its block's scale code (R87). An escaped element stays one, also in a block of code −128, whose other elements are zero. -/
def scaled (v : NVal) (code : Int) : NVal :=
  match v with
  | .escape => .escape
  | .num x => if code == -128 then .num (.fin false 0 0) else .num (x.scale code)

/-- An element of captured A rows. -/
def aCode (rows : List Row) (w r c : Nat) : Nat := elem (rows.getD r 0) w c

/-- The decoded, scaled A element (r, c) of captured rows, with the captured v63. -/
def aVal (cls : MClass) (fr : W64) (daz : Bool) (rows : List Row) (v63 : Row) (w r c : Nat) : NVal :=
  let v := classVal cls fr daz (aCode rows w r c)
  match cls with
  | .narrow => scaled v (BitVec.ofNat 8 (elem v63 8 (r * 64 + c / (Narrow.ofReg fr).blk))).toInt
  | .int8 | .fp16 | .bf16 => v

/-- The decoded, scaled B element (k, j) of a slot. -/
def Slot.bVal (b : Slot) (daz : Bool) (k j : Nat) : NVal :=
  let v := classVal b.cls b.fr daz (b.data.get (j * 2048 + k)).toNat
  match b.cls with
  | .narrow => scaled v (b.scales.get (j * 128 + k / (Narrow.ofReg b.fr).blk)).toInt
  | .int8 | .fp16 | .bf16 => v

/-! ### The sum of R93 -/

/-- The exact sum S of R93 and R94. -/
def mmaSum (na : Bool) (n : Nat) (a b : Nat → NVal) : Exact :=
  (List.range n).foldl (fun s k =>
    match a k, b k with
    | .num x, .num y => s.push (if na then (Num.mul x y).neg else Num.mul x y)
    | _, _ => s) Exact.zero

/-- One rounding point of R93: t becomes Fl(RNE32(t + x)). -/
def mmaStep (ftz : Bool) (t : Nat × Flags) (x : Num) : Nat × Flags :=
  let r := Fmt.fp32.ftzBits ftz (Fmt.fp32.pack 0 (Num.add 0 (Fmt.fp32.decode t.1) x))
  (r.1, t.2 ||| r.2)

/-- The result of R93 for one output element: `la` are the row's entries of the A list and `lb` the column's of the B list, as K index
and FP32 bits in list order. -/
def mmaElem (ftz na : Bool) (n acc : Nat) (a b : Nat → NVal) (la lb : List (Nat × Nat)) : Nat × Flags :=
  let sgn := fun (x : Num) => if na then x.neg else x
  let s := mmaSum na n a b
  let t1 := if s.isZero then (acc, 0) else mmaStep ftz (acc, 0) s.val
  let t2 := la.foldl (fun t e =>
    let bv := match b e.1 with
      | .num y => y
      | .escape => Fmt.fp32.decode (((lb.find? fun q => q.1 == e.1).map fun q => q.2).getD 0)
    mmaStep ftz t (sgn (Num.mul (Fmt.fp32.decode e.2) bv))) t1
  lb.foldl (fun t e =>
    match a e.1 with
    | .num x => mmaStep ftz t (sgn (Num.mul x (Fmt.fp32.decode e.2)))
    | .escape => t) t2

/-! ### The queue (R218, R219) -/

/-- The slot as the last entry queued for it leaves it (R218, R233). -/
def State.slotView (s : State) (i : Nat) : Slot :=
  s.mat.mq.foldl (fun b q =>
    match q.ent.form with
    | .vec 0x1B 1 o _ _ => if o.vd.toNat == i then q.slot.getD b else b
    | .vec 0x1B 6 o x _ => if o.vs2.toNat == i && x.fx.extractLsb' 0 2 == 2 then { b with loaded := false, pin := none } else b
    | _ => b) (s.mat.slots.get (fin 16 i))

/-- The depth of an epilogue state as the last entry queued for it leaves it (R231, R232). -/
def State.epiDepth (s : State) (st : Fin 4) (t row : Nat) : Nat :=
  s.mat.mq.foldl (fun d q =>
    match q.ent.form with
    | .vec 0x1B 5 _ x _ =>
      if q.task == (s.strand st).task && (x.fx.extractLsb' 0 4).toNat == t && decide (16 * x.tix.toNat ≤ row)
          && decide (row < 16 * x.tix.toNat + q.ent.rows) then (x.fx.extractLsb' 4 3).toNat + 1 else d
    | _ => d)
    (((s.mat.epi.find? fun e => e.task == (s.strand st).task && e.tile == t && e.row == row).map fun e => e.depth).getD 0)

/-- What a queued instruction captures (R226, R229): the rows of its vector source, v63, a format register and a predicate. -/
def Strand.matEntry (x : Strand) (st : Fin 4) (e : VEntry) (vs1 : Spec) (fr : W64) (list : List OlEntry) (pred : Pred)
    (slot : Option Slot) : MatEntry where
  strand := st
  task := x.task
  ent := e
  rows := (List.range (vtG e.vtype)).map fun r => x.readRow vs1 r
  scale := x.v.get 63
  list := list
  fr := fr
  pred := pred
  slot := slot
  steps := 0

/-- An instruction accepted into the engine's queue, which commits it (R219). -/
def State.acceptMat (s : State) (st : Fin 4) (e : VEntry) (q : MatEntry) : State :=
  (s.modMat fun m => { m with mq := m.mq ++ [q] }).finish st e (s.strand st) 0

/-- A trap of a matrix instruction. -/
def State.matTrap (s : State) (st : Fin 4) (e : VEntry) (cause : Byte) (tval : W64) : State :=
  s.settleEntry st e (.trap (s.strand st) cause tval)

/-- `ILLEGAL` of a matrix instruction with a subcode. -/
def State.matIllegal (s : State) (st : Fin 4) (e : VEntry) (sub : Byte) : State := s.settleEntry st e ((s.strand st).badEntry e sub)

/-- `FORMAT` of a matrix instruction with the `TVAL` of R81. -/
def State.matFormat (s : State) (st : Fin 4) (e : VEntry) : State := s.settleEntry st e ((s.strand st).badFormat e)

/-! ### MMA (R225, R226) -/

/-- The first invalid A scale code that elements of the grant with column below K use, lowest byte first: code and byte index. -/
def Strand.badScaleA (x : Strand) (fr : W64) (rows n : Nat) : Option (Byte × Nat) :=
  let nq := (n + (Narrow.ofReg fr).blk - 1) / (Narrow.ofReg fr).blk
  ((gridOf rows nq).map fun p => (x.v63Byte (p.1 * 64 + p.2), p.1 * 64 + p.2)).find? fun p => !scaleValid p.1

/-- The first invalid B scale code for rows below K. -/
def Slot.badScale (b : Slot) (n : Nat) : Option (Byte × Nat) :=
  let nq := (n + (Narrow.ofReg b.fr).blk - 1) / (Narrow.ofReg b.fr).blk
  ((gridOf b.nn nq).map fun p => (b.scales.get (p.1 * 128 + p.2), p.1 * 128 + p.2)).find? fun p => !scaleValid p.1

/-- `TVAL` of `SCALECODE` (R87). -/
def scaleVal (p : Byte × Nat) (side : Nat) : W64 := p.1.setWidth 64 ||| BitVec.ofNat 64 (p.2 * 2 ^ 16 + side * 2 ^ 32)

/-- Whether an active column of a narrow A operand lies in a block of 64 or more (R88). -/
def blockBeyond (fr : W64) (rows n : Nat) : Bool := decide (0 < rows) && decide (0 < n) && decide (64 ≤ (n - 1) / (Narrow.ofReg fr).blk)

/-- The checks 6 and 7 of R225 on a narrow A operand: the cause and `TVAL` of the first that fails. -/
def Strand.mmaScales (x : Strand) (e : VEntry) (fr : W64) (b : Slot) : Option (Byte × W64) :=
  if blockBeyond fr e.rows e.cols then some (cFormat, x.formatVal e.vtype)
  else
    match x.badScaleA fr e.rows e.cols, b.badScale e.cols with
    | some p, _ => some (cScalecode, scaleVal p 0)
    | none, some p => some (cScalecode, scaleVal p 1)
    | none, none => none

/-- The positions of the escaped elements of an A operand. -/
def Strand.escapes (x : Strand) (e : VEntry) (cls : MClass) (fr : W64) (vs1 : Spec) : List Nat :=
  if cls != .narrow then []
  else
    ((gridOf e.rows e.cols).filter fun p => (Narrow.ofReg fr).decode (elem (x.readRow vs1 p.1) e.sew p.2) == .escape).map
      fun p => p.1 * 2048 + p.2

/-- The checks 6 to 8 of R225: the cause and `TVAL` of the first that fails. -/
def Strand.mmaData (x : Strand) (e : VEntry) (cls : MClass) (fr : W64) (vs1 : Spec) (b : Slot) (list : List OlEntry) :
    Option (Byte × W64) :=
  match (if cls == .narrow then x.mmaScales e fr b else none) with
  | some r => some r
  | none =>
    if 64 < list.length then some (cOlMismatch, BitVec.ofNat 64 list.length)
    else
      (olCheck list (fun n => decide (n / 2048 < e.rows) && decide (n % 2048 < e.cols)) (x.escapes e cls fr vs1)).map
        fun n => (cOlMismatch, BitVec.ofNat 64 n)

/-- MMA when it issues (R225): its checks in order, then the acceptance. -/
def State.mma (s : State) (st : Fin 4) (e : VEntry) (o : VOp) (m : Ext) : State :=
  let x := s.strand st
  if 12 ≤ o.vd.toNat || 16 ≤ o.vs2.toNat || 8 ≤ m.tix.toNat then s.matIllegal st e 0x14
  else
    match x.mclass e.vtype with
    | none => s.matFormat st e
    | some cls =>
      let fr := x.frOf cls e.vtype
      let b := s.slotView o.vs2.toNat
      let list := if m.fx.getLsbD 2 then x.k.get (fin 4 (m.fx.extractLsb' 0 2).toNat) else []
      if cls == .narrow && meetsV63 (vtG e.vtype) o.vs1 then s.matIllegal st e 0x13
      else if !b.loaded then s.matTrap st e cFormat (0x8000000000000000#64 ||| BitVec.ofNat 64 o.vs2.toNat)
      else if b.cls != cls || b.kk < e.cols then s.matFormat st e
      else
        match x.mmaData e cls fr o.vs1 b list with
        | some (c, v) => s.matTrap st e c v
        | none => s.acceptMat st e (x.matEntry st e o.vs1 fr list 0 none)

/-- The tile rows that an accepted MMA writes, with its flags (R226); one that pre-emption has stopped goes on with the tile of its progress
record (R223). -/
def Matrix.mmaRow (mt : Matrix) (q : MatEntry) (o : VOp) (m : Ext) (i : Nat) : List (Nat × Flags) :=
  let b := q.slot.getD (mt.slots.get (fin 16 o.vs2.toNat))
  let cls := b.cls
  let vt := q.ent.vtype
  let daz := vtDaz vt
  let la := (q.list.filter fun n => n.pos.toNat / 2048 == i && n.pos.toNat % 2048 < q.ent.cols).map
    fun n => (n.pos.toNat % 2048, n.val.toNat)
  (List.range b.nn).map fun j =>
    let lb := (b.list.filter fun n => n.pos.toNat % 128 == j && n.pos.toNat / 128 < q.ent.cols).map
      fun n => (n.pos.toNat / 128, n.val.toNat)
    let old := if m.ad then 0 else Fmt.fp32.dazBits daz (mt.acc o.vd.toNat (16 * m.tix.toNat + i) j)
    mmaElem (vtFtz vt) m.na q.ent.cols old (fun k => aVal cls q.fr daz q.rows q.scale q.ent.sew i k) (fun k => b.bVal daz k j) la lb

/-- An accepted MMA at its turn (R226): the tile rows written and the flags ORed. With K = 0 and no `.ad` the tile keeps its bits. -/
def State.mmaRun (s : State) (q : MatEntry) (o : VOp) (m : Ext) : State :=
  if q.ent.cols == 0 && !m.ad then s
  else
    let rows := (List.range q.ent.rows).map fun i => (i, s.mat.mmaRow q o m i)
    let s1 := s.modMat fun mt =>
      rows.foldl (fun u r => u.putRow o.vd.toNat (16 * m.tix.toNat + r.1) 0 (r.2.map fun v => BitVec.ofNat 32 v.1)) mt
    s1.forTask q.strand q.task fun x => x.orFlags (rows.foldl (fun a r => r.2.foldl (fun a v => a ||| v.2) a) 0)

/-! ### BLD (R227) -/

/-- The element offset of (k, j) by a shape record's strides. -/
def shapeOff (sh : W64) (k j : Nat) : Int :=
  (k : Int) * readInt 16 true (fld sh 32 16) + (j : Int) * readInt 16 true (fld sh 48 16)

/-- The VA of a tile element and, at SEW 4, its nibble. -/
def tileVa (a sh : W64) (w k j : Nat) : W64 × Nat :=
  let off := shapeOff sh k j
  if w == 4 then (a + BitVec.ofInt 64 (off / 2), (off % 2).toNat) else (a + BitVec.ofInt 64 (off * (w / 8 : Nat)), 0)

/-- n bytes through the vector port as an E-stream reads them, without a held stack, or the fault (R115, R103). -/
def State.portRead (s : State) (a : Acc) (who : Option (Fin 4 × StreamId)) (va : W64) (n : Nat) : Except Fa Nat :=
  match s.xlateBytes a va n true false with
  | .error f => .error f
  | .ok pas =>
    if pas.any fun pa => s.poisonedFor who pa then .error { cause := cPoison, tval := va &&& ~~~63#64, va := va }
    else .ok (leNat (s.bytesAt who (s.slotKey a.key) pas))

/-- Whether n bytes lie partly in a held stack. -/
def State.portHeld (s : State) (a : Acc) (va : W64) (n : Nat) : Bool :=
  match s.xlateBytes a va n true false with
  | .ok pas => s.anyHeld pas
  | .error _ => false

/-- What a `BLD` names: class, width, format copy, tile address and shape, scale and list addresses. -/
structure BldSrc where
  cls : MClass
  sew : BitVec 3
  fr  : W64
  a   : W64
  sh  : W64
  scl : Option W64
  ol  : Option W64
  deriving DecidableEq, Repr

/-- The width of a tile's elements in bits. -/
def BldSrc.w (b : BldSrc) : Nat := 4 * 2 ^ b.sew.toNat
/-- The rows of the tile. -/
def BldSrc.kk (b : BldSrc) : Nat := fld b.sh 0 16
/-- The columns of the tile. -/
def BldSrc.nn (b : BldSrc) : Nat := fld b.sh 16 16
/-- The k-blocks of the tile. -/
def BldSrc.nb (b : BldSrc) : Nat := (b.kk + (Narrow.ofReg b.fr).blk - 1) / (Narrow.ofReg b.fr).blk

/-- The ranges that a `BLD` reads in order before its list: address and bytes. -/
def BldSrc.ranges (b : BldSrc) : List (W64 × Nat) :=
  ((gridOf b.kk b.nn).map fun p => ((tileVa b.a b.sh b.w p.1 p.2).1, max 1 (b.w / 8)))
    ++ (match b.cls, b.scl with
        | .narrow, some va => (List.range (b.nn * b.nb)).map fun i => (va + BitVec.ofNat 64 i, 1)
        | _, _ => [])
    ++ (match b.ol with
        | some va => [(va, 8)]
        | none => [])

/-- The tile's elements by key. -/
def State.bldData (s : State) (a : Acc) (who : Option (Fin 4 × StreamId)) (b : BldSrc) : Except Fa (List (Nat × Nat)) :=
  (gridOf b.kk b.nn).mapM fun p =>
    let t := tileVa b.a b.sh b.w p.1 p.2
    (s.portRead a who t.1 (max 1 (b.w / 8))).map fun v => (p.2 * 2048 + p.1, if b.w == 4 then v / 2 ^ (4 * t.2) % 16 else v)

/-- The scale codes by key. -/
def State.bldScales (s : State) (a : Acc) (who : Option (Fin 4 × StreamId)) (b : BldSrc) : Except Fa (List (Nat × Nat)) :=
  match b.cls, b.scl with
  | .narrow, some va =>
    (gridOf b.nn b.nb).mapM fun p =>
      (s.portRead a who (va + BitVec.ofNat 64 (p.1 * b.nb + p.2)) 1).map fun v => (p.1 * 128 + p.2, v)
  | _, _ => .ok []

/-- The list of a count of entries. -/
def State.bldList (s : State) (a : Acc) (who : Option (Fin 4 × StreamId)) (va : W64) (cnt : Nat) : Except Fa (List OlEntry) :=
  (List.range cnt).mapM fun i =>
    (s.portRead a who (va + 8 + BitVec.ofNat 64 (8 * i)) 8).map fun v =>
      { pos := BitVec.ofNat 32 (v % 2 ^ 32), val := BitVec.ofNat 32 (v / 2 ^ 32) }

/-- A list of a tile refused (R92): the position, or the count above the limit, with bit 32 set for B. -/
def listFault {α : Type} (n : Nat) : Except Fa α := .error (faOf cOlMismatch (BitVec.ofNat 64 (2 ^ 32 + n % 2 ^ 32)))

/-- The slot that a `BLD` reads, or the fault (R227): a mismatch of the list names its position with bit 32 set (R92). -/
def State.bldRead (s : State) (a : Acc) (who : Option (Fin 4 × StreamId)) (b : BldSrc) : Except Fa Slot := do
  let data ← s.bldData a who b
  let scales ← s.bldScales a who b
  let cnt ← match b.ol with
    | some va => s.portRead a who va 8
    | none => .ok 0
  let list ← if 256 < cnt then listFault cnt else s.bldList a who (b.ol.getD 0) cnt
  let esc := if b.cls == .narrow then
      (data.filter fun p => (Narrow.ofReg b.fr).decode p.2 == .escape).map fun p => p.1 % 2048 * 128 + p.1 / 2048
    else []
  match olCheck list (fun n => decide (n / 128 < b.kk) && decide (n % 128 < b.nn)) esc with
  | some n => listFault n
  | none =>
    .ok {
      loaded := true
      cls := b.cls
      sew := b.sew
      fr := b.fr
      kk := b.kk
      nn := b.nn
      pin := none
      rowmap := false
      src := b.a
      shape := b.sh
      scl := b.scl
      ol := b.ol
      data := data.foldl (fun t p => Tab.set t p.1 (BitVec.ofNat 16 p.2)) []
      scales := scales.foldl (fun t p => Tab.set t p.1 (BitVec.ofNat 8 p.2)) []
      list := list }

/-- Whether a `BLD` would read a held stack. -/
def State.bldHeld (s : State) (st : Fin 4) (b : BldSrc) : Bool :=
  let a := s.acc st
  (b.ranges.any fun r => s.portHeld a r.1 r.2)
    || match b.ol with
      | some va =>
        match s.portRead a (some (st, .E)) va 8 with
        | .ok cnt => decide (cnt ≤ 256) && s.portHeld a va (8 + 8 * cnt)
        | .error _ => false
      | none => false

/-- The PAs of n bytes that translate. -/
def State.portPas (s : State) (a : Acc) (va : W64) (n : Nat) : List Nat := ((s.xlateBytes a va n true false).toOption).getD []

/-- The PAs that a `BLD` reads, as far as they translate. -/
def State.bldPas (s : State) (st : Fin 4) (b : BldSrc) : List Nat :=
  let a := s.acc st
  (b.ranges.flatMap fun r => s.portPas a r.1 r.2)
    ++ match b.ol with
      | some va =>
        match s.portRead a (some (st, .E)) va 8 with
        | .ok cnt => if cnt ≤ 256 then s.portPas a va (8 + 8 * cnt) else []
        | .error _ => []
      | none => []

/-- The slot of an accepted `BLD` with the pin that the slot has. -/
def keepPin (new old : Slot) : Slot := { new with pin := old.pin }

/-- BLD when it issues (R227): every read fault is taken by VA. -/
def State.bld (s : State) (st : Fin 4) (e : VEntry) (o : VOp) : State :=
  let x := s.strand st
  if 16 ≤ o.vd.toNat then s.matIllegal st e 0x14
  else
    match x.mclass e.vtype with
    | none => s.matFormat st e
    | some cls =>
      let sh := e.xs2
      let scl := if o.vs1.setWidth 5 == (0 : BitVec 5) then none else some e.xscl
      let ol := if o.vs2.setWidth 5 == (0 : BitVec 5) then none else some e.xol
      let b : BldSrc := {
        cls := cls
        sew := e.vtype.extractLsb' 0 3
        fr := x.frOf cls e.vtype
        a := e.xs
        sh := sh
        scl := scl
        ol := ol }
      if b.nn < 1 || 128 < b.nn || b.kk < 1 || 8192 / e.sew < b.kk then s.matTrap st e cFormat sh
      else if cls != .narrow && (scl.isSome || ol.isSome) then s.matFormat st e
      else if 8 ≤ e.sew && e.xs.toNat % (e.sew / 8) != 0 then s.matTrap st e cMisalign e.xs
      else if ol.isSome && e.xol.toNat % 8 != 0 then s.matTrap st e cMisalign e.xol
      else if (s.slotView o.vd.toNat).rowmap then s.matTrap st e cRowMap (BitVec.ofNat 64 o.vd.toNat)
      else if s.bldHeld st b then s.keepEntry st (s.bldPas st b)
      else
        match s.bldRead (s.acc st) (some (st, .E)) b with
        | .error f => s.matTrap st e f.cause (if f.cause == cOlMismatch || f.cause == cPoison then f.tval else f.va)
        | .ok slot => s.acceptMat st e (x.matEntry st e 0 b.fr [] 0 (some (keepPin slot (s.slotView o.vd.toNat))))

/-! ### AZERO and AWR (R228, R229) -/

/-- AZERO when it issues (R228). -/
def State.azero (s : State) (st : Fin 4) (e : VEntry) (o : VOp) : State :=
  if 12 ≤ o.vd.toNat then s.matIllegal st e 0x14
  else if 128 < e.xs.toNat + e.xs2.toNat then s.matIllegal st e 0x15
  else s.acceptMat st e ((s.strand st).matEntry st e 0 0 [] 0 none)

/-- AZERO at its turn. -/
def State.azeroRun (s : State) (q : MatEntry) (o : VOp) : State :=
  let a := accKey o.vd.toNat q.ent.xs.toNat 0
  s.modMat fun m => { m with tiles := m.tiles.clear a (a + 128 * q.ent.xs2.toNat) }

/-- Whether a source class of `AWR`, or a destination class of `ARD` that is not narrow, is allowed (R229, R230). -/
def epiOk (e : VEntry) (m : Ext) : Bool :=
  if m.fx.getLsbD 6 then 1 ≤ fld e.vtype 0 3 else (vtFp e.vtype).isSome

/-- The predicate that governs an instruction, as a value. -/
def Strand.predVal (x : Strand) (m : Ext) : Pred := if m.p == 0 then -1 else x.p.get ⟨m.p.toNat, m.p.isLt⟩

/-- AWR when it issues (R229). -/
def State.awr (s : State) (st : Fin 4) (e : VEntry) (o : VOp) (m : Ext) : State :=
  let x := s.strand st
  if 12 ≤ (m.fx.extractLsb' 0 4).toNat || 8 ≤ m.tix.toNat then s.matIllegal st e 0x14
  else if !epiOk e m || 128 < e.cols then s.matFormat st e
  else s.acceptMat st e (x.matEntry st e o.vs1 0 [] (x.predVal m) none)

/-- Whether an element is active by a captured predicate (R12). -/
def activeBy (pred : Pred) (m : Ext) (r c : Nat) : Bool := m.p == 0 || (pred.getLsbD (r * 2048 + c) != m.inv)

/-- A source element of `AWR` as FP32 (R229). -/
def awrVal (vt : W64) (m : Ext) (b : Nat) : Nat × Flags :=
  let rm := vecRm vt m.rnd
  let r := if m.fx.getLsbD 6 then Fmt.fp32.ofInt rm (readInt (vtSew vt) (!m.fx.getLsbD 7) b)
    else
      match vtFp vt with
      | some f => f.toFmt .fp32 rm (f.dazBits (vtDaz vt) b)
      | none => (0, 0)
  Fmt.fp32.ftzBits (vtFtz vt) r

/-- AWR at its turn: the elements written and the flags ORed. -/
def State.awrRun (s : State) (q : MatEntry) (m : Ext) : State :=
  let t := (m.fx.extractLsb' 0 4).toNat
  let vt := q.ent.vtype
  let res := (gridOf q.ent.rows q.ent.cols).foldl (fun (u : Matrix × Flags) p =>
      let row := 16 * m.tix.toNat + p.1
      if activeBy q.pred m p.1 p.2 then
        let v := awrVal vt m (elemAt (q.rows.getD p.1 0) (vtSew vt) (Rep.col m.rep1 p.2))
        (u.1.put t row p.2 v.1, u.2 ||| v.2)
      else if m.zero then (u.1.put t row p.2 0, u.2)
      else u) (s.mat, 0)
  ({ s with mat := res.1 }).forTask q.strand q.task fun x => x.orFlags res.2

/-! ### ARD (R230) -/

/-- The converted value of one tile element (R230). -/
def ardVal (x : Strand) (vt : W64) (o : VOp) (m : Ext) (acc c : Nat) : Nat × Flags :=
  let f := Fmt.fp32
  let rm := vecRm vt m.rnd
  let daz := vtDaz vt
  let row := fun (s : Spec) (q : Rep) => f.decode (f.dazBits daz (x.src s q 32 0 c))
  let x0 := f.decode (f.dazBits daz acc)
  let x1 := if m.fx.getLsbD 4 then Num.mul x0 (row o.vs1 m.rep1) else x0
  let x2 := if m.fx.getLsbD 5 then Num.add rm x1 (row o.vs2 m.rep2) else x1
  if m.fx.getLsbD 6 then
    let r := x2.toInt rm (vtSew vt) (!m.fx.getLsbD 7)
    (lowBits (vtSew vt) r.1, r.2)
  else
    match vtFp vt with
    | some g => g.ftzBits (vtFtz vt) (g.pack rm x2)
    | none => (0, 0)

/-- ARD (R230): its checks when it issues; it reaches its turn once nothing is queued before it and its tile has its deep part. -/
def State.ard (s : State) (st : Fin 4) (e : VEntry) (o : VOp) (m : Ext) : State :=
  let x := s.strand st
  let t := (m.fx.extractLsb' 0 4).toNat
  if 12 ≤ t || 8 ≤ m.tix.toNat then s.matIllegal st e 0x14
  else if !epiOk e m || vtKind e.vtype == 2 || 128 < e.cols then s.matFormat st e
  else if !s.mat.mq.isEmpty || s.tileBusy t then s
  else
    s.settleEntry st e
      (x.lanes e o m e.sew fun r c => ardVal x e.vtype o m (s.mat.acc t (16 * m.tix.toNat + r) c) c)

/-! ### EPTK (R231, R232) -/

/-- Whether an entry ranks above another: Key of R95 greater first, then the lower column (R231). -/
def epiAbove (a b : BitVec 32 × BitVec 32) : Bool :=
  let ka := totalKey 32 a.1.toNat
  let kb := totalKey 32 b.1.toNat
  decide (kb < ka) || (ka == kb && decide (a.2 < b.2))

/-- An entry inserted by rank, behind those that it does not rank above. -/
def epiInsert (n : BitVec 32 × BitVec 32) : List (BitVec 32 × BitVec 32) → List (BitVec 32 × BitVec 32)
  | [] => [n]
  | a :: t => if epiAbove n a then n :: a :: t else a :: epiInsert n t

/-- The entries of a row's state once its columns have been added (R232). -/
def Matrix.epiStep (mt : Matrix) (w : Option Task) (t k cb row cols : Nat) : List (BitVec 32 × BitVec 32) :=
  let old := if cb == 0 then [] else
    ((mt.epi.find? fun e => e.task == w && e.tile == t && e.row == row).map fun e => e.ents).getD []
  (List.range cols).foldl (fun l c => (epiInsert (BitVec.ofNat 32 (mt.acc t row c), BitVec.ofNat 32 (cb + c)) l).take k) old

/-- The states of the rows of an `EPTK` (R232). -/
def Matrix.eptk (mt : Matrix) (w : Option Task) (e : VEntry) (m : Ext) : Matrix :=
  let t := (m.fx.extractLsb' 0 4).toNat
  let k := (m.fx.extractLsb' 4 3).toNat + 1
  let rows := (List.range e.rows).map fun r => 16 * m.tix.toNat + r
  let new := rows.map fun row =>
    { task := w, tile := t, row := row, depth := k, ents := mt.epiStep w t k e.xs.toNat row e.cols : EpiRow }
  { mt with epi := (mt.epi.filter fun q => !(q.task == w && q.tile == t && rows.contains q.row)) ++ new }

/-- The index or score elements of `.fin` written over the rows of a group (R232). -/
def Strand.epiWrite (x : Strand) (mt : Matrix) (e : VEntry) (m : Ext) (spec : Spec) (score : Bool) : Strand :=
  let t := (m.fx.extractLsb' 0 4).toNat
  let k := (m.fx.extractLsb' 4 3).toNat + 1
  (gridOf e.rows k).foldl (fun y p =>
    let ents := ((mt.epi.find? fun q => q.task == x.task && q.tile == t && q.row == 16 * m.tix.toNat + p.1).map
      fun q => q.ents).getD []
    let v := match ents[p.2]? with
      | some n => if score then n.1.toNat else n.2.toNat
      | none => if score then 0xFFC00000 else 0xFFFFFFFF
    y.setAt spec 32 p.1 p.2 v) x

/-- EPTK (R232): accepted, or under `.fin` performed once its turn has come. -/
def State.eptk (s : State) (st : Fin 4) (e : VEntry) (o : VOp) (m : Ext) : State :=
  let x := s.strand st
  let t := (m.fx.extractLsb' 0 4).toNat
  let k := (m.fx.extractLsb' 4 3).toNat + 1
  if 12 ≤ t || 8 ≤ m.tix.toNat then s.matIllegal st e 0x14
  else if 128 < e.cols then s.matFormat st e
  else if 2 ^ 32 < e.xs.toNat + e.cols then s.matIllegal st e 0x15
  else if e.xs != 0 && (List.range e.rows).any fun r => s.epiDepth st t (16 * m.tix.toNat + r) != k then s.matIllegal st e 0x16
  else if m.fx.getLsbD 7 then
    if !s.mat.mq.isEmpty || s.tileBusy t then s
    else
      let mt := s.mat.eptk x.task e m
      let y := (x.epiWrite mt e m o.vd false).shiftLast o.vd (vtG e.vtype)
      ({ s with mat := mt }).settleEntry st e (.done (y.epiWrite mt e m o.vs2 true) 0)
  else s.acceptMat st e (x.matEntry st e 0 0 [] 0 none)

/-! ### BSLOT (R233) -/

/-- The word of `.query` (R233). -/
def Slot.query (b : Slot) : W64 :=
  BitVec.ofNat 64 (b.list.length * 2 ^ 32 + b.kk * 2 ^ 16 + b.nn * 2 ^ 8 + b.sew.toNat * 2 ^ 5
    + (b.cls == .narrow).toNat * 16 + b.rowmap.toNat * 8 + b.pin.isSome.toNat * 2 + b.loaded.toNat)

/-- BSLOT when it issues (R233); `.query` performs once its turn has come. -/
def State.bslot (s : State) (st : Fin 4) (e : VEntry) (o : VOp) (m : Ext) : State :=
  let x := s.strand st
  let op := m.fx.extractLsb' 0 2
  if 16 ≤ o.vs2.toNat then s.matIllegal st e 0x14
  else if op == 3 then
    if !s.mat.mq.isEmpty then s else s.settleEntry st e (.done x (s.mat.slots.get (fin 16 o.vs2.toNat)).query)
  else if (s.slotView o.vs2.toNat).rowmap then s.matTrap st e cRowMap (BitVec.ofNat 64 o.vs2.toNat)
  else s.acceptMat st e (x.matEntry st e 0 0 [] 0 none)

/-- The slots with one changed. -/
def Matrix.modSlot (mt : Matrix) (i : Nat) (f : Slot → Slot) : Matrix :=
  { mt with slots := mt.slots.set (fin 16 i).val (f (mt.slots.get (fin 16 i))) (fin 16 i).isLt }

/-- A slot after `.release` (R233): the tile, scales and list become undefined (log 14). -/
def Slot.released (b : Slot) (now : Nat) : Slot :=
  { b with
    pin := none
    loaded := false
    data := Tab.run 0 ((List.range 262144).map (Config.slotData now))
    scales := Tab.run 0 ((List.range 16384).map (Config.slotScale now))
    list := (List.range 256).filterMap fun i =>
      (Config.slotOutlier now i).map fun v => { pos := v.extractLsb' 0 32, val := v.extractLsb' 32 32 } }

/-- BSLOT without a scalar destination at its turn. -/
def State.bslotRun (s : State) (q : MatEntry) (o : VOp) (m : Ext) : State :=
  s.modMat fun mt => mt.modSlot o.vs2.toNat fun b =>
    match m.fx.extractLsb' 0 2 with
    | 0 => if b.pin.isSome then b else { b with pin := mt.owner.orElse fun _ => some 0 }
    | 1 => { b with pin := none }
    | _ => b.released (s.tick + q.strand.val)

/-! ### Ownership (R220, R221, R223) -/

/-- The `BLD` source that a slot records (R217). -/
def Slot.source (b : Slot) : BldSrc where
  cls := b.cls
  sew := b.sew
  fr := b.fr
  a := b.src
  sh := b.shape
  scl := b.scl
  ol := b.ol

/-- Whether a resumption reloads a slot (R223). -/
def Slot.reloads (b : Slot) : Bool := b.loaded && b.pin.isNone && !b.rowmap

/-- The number of the K steps of an MMA: passes of up to 128 values of k (R223). -/
def MatEntry.kSteps (q : MatEntry) : Nat := (q.ent.cols + 127) / 128

/-- The progress record of an MMA that has begun keeps the tile that it has read, so that it writes the bits that it would have written
(R223; log 112). -/
def Matrix.keepPart (mt : Matrix) : Matrix :=
  { mt with mq := mt.mq.map fun q =>
      match q.ent.form with
      | .vec 0x1B 0 o _ _ => if q.steps == 0 || q.slot.isSome then q else { q with slot := some (mt.slots.get (fin 16 o.vs2.toNat)) }
      | _ => q }

/-- Every unpinned loaded slot reloaded from its recorded source, with the rights of a resuming strand; one whose reload faults is left
unloaded (R223). -/
def State.reloadSlots (s : State) (st : Fin 4) : State :=
  s.modMat fun mt =>
    { mt.keepPart with slots := mt.slots |> mapVec fun b =>
        if b.reloads then
          match s.bldRead (s.acc st) (some (st, .E)) b.source with
          | .ok n => n
          | .error _ => { b with loaded := false }
        else b }

/-- Whether a reload waits for a held stack (R107). -/
def State.reloadHeld (s : State) (st : Fin 4) (mt : Matrix) : Bool := mt.slots.toList.any fun b => b.reloads && s.bldHeld st b.source

/-- The core's matrix state taken for the launch of a strand, or none where it must wait. A launch whose state was saved gets it back
first (R221, R223). -/
def State.own (s : State) (st : Fin 4) : Option State :=
  match (s.strand st).task with
  | none => some s
  | some t =>
    match s.mat.owner with
    | some l => if l == t.launch then some s else none
    | none =>
      match s.savedMat.find? fun p => p.1 == t.launch with
      | some p =>
        if s.reloadHeld st p.2 then none
        else
          let s1 : State := { s with mat := { p.2 with owner := some t.launch },
                                     savedMat := s.savedMat.filter fun q => q.1 != t.launch }
          some (s1.reloadSlots st)
      | none => some (s.modMat fun m => { m with owner := some t.launch })

/-! ### Turns -/

/-- A matrix instruction of major 0x1B when it issues, once its launch owns the core (R220). -/
def State.matIssue (s : State) (st : Fin 4) (e : VEntry) (f3 : Nat) (o : VOp) (m : Ext) : State :=
  match s.own st with
  | none => s
  | some s1 =>
    match f3 with
    | 0 => s1.mma st e o m
    | 1 => s1.bld st e o
    | 2 => s1.azero st e o
    | 3 => s1.ard st e o m
    | 4 => s1.awr st e o m
    | 5 => s1.eptk st e o m
    | _ => s1.bslot st e o m

/-- The head of the engine's queue removed. -/
def State.popMat (s : State) : State := s.modMat fun m => { m with mq := m.mq.drop 1 }

/-! ### The front end -/

/-- MMA at the front end (R226, R277). -/
def execMma (o : VOp) (x : Ext) (s : State) : Out := onStream s fun st k => s.frontEnd st k (.vec 0x1B 0 o x none)
/-- BLD at the front end (R227, R277). -/
def execBld (o : VOp) (x : Ext) (s : State) : Out := onStream s fun st k => s.frontEnd st k (.vec 0x1B 1 o x none)
/-- AZERO at the front end (R228, R277). -/
def execAzero (o : VOp) (x : Ext) (s : State) : Out := onStream s fun st k => s.frontEnd st k (.vec 0x1B 2 o x none)
/-- ARD at the front end (R230, R277). -/
def execArd (o : VOp) (x : Ext) (s : State) : Out := onStream s fun st k => s.frontEnd st k (.vec 0x1B 3 o x none)
/-- AWR at the front end (R229, R277). -/
def execAwr (o : VOp) (x : Ext) (s : State) : Out := onStream s fun st k => s.frontEnd st k (.vec 0x1B 4 o x none)
/-- EPTK at the front end (R232, R277). -/
def execEptk (o : VOp) (x : Ext) (s : State) : Out := onStream s fun st k => s.frontEnd st k (.vec 0x1B 5 o x none)
/-- A `BSLOT` at the front end (R233, R277). -/
def bslotFront (s : State) (slot : Spec) (op : BitVec 8) (xd : Reg) : Out :=
  onStream s fun st k =>
    s.frontEnd st k (.vec 0x1B 6 { vd := 0, vs1 := 0, vs2 := slot } { Ext.base with xs2 := xd, fx := op } none)

/-- BSLOT.pin (R233). -/
def execBslotPin (slot : Spec) (s : State) : Out := bslotFront s slot 0 0
/-- BSLOT.unpin (R233). -/
def execBslotUnpin (slot : Spec) (s : State) : Out := bslotFront s slot 1 0
/-- BSLOT.release (R233). -/
def execBslotRelease (slot : Spec) (s : State) : Out := bslotFront s slot 2 0
/-- BSLOT.query (R233). -/
def execBslotQuery (rd : Reg) (slot : Spec) (s : State) : Out := bslotFront s slot 3 rd

end Sys2Proof.Machine
end

