-- ==== Sys2Proof/Machine/Row.lean ====
section
/-! DEFINITION. The row engine: major 0x1C (R236 to R255): binding a row map, firing counts, the split product and its join,
migration, ageing and the query. -/

namespace Sys2Proof.Machine

/-! ### Maps and their addresses -/

/-- The row map of an entry. -/
def Matrix.map (mt : Matrix) (m : BitVec 4) : Option RowMap := mt.maps.get ⟨m.toNat, m.isLt⟩

/-- The row map of an entry changed. -/
def Matrix.setMap (mt : Matrix) (m : BitVec 4) (r : Option RowMap) : Matrix :=
  { mt with maps := mt.maps.set m.toNat r m.isLt }

/-- `TVAL` of `ROW_MAP` (R249). -/
def rowVal (sub : Nat) (m : BitVec 4) (at_ : Nat) : W64 := BitVec.ofNat 64 (sub + m.toNat * 2 ^ 8 + at_ % 2 ^ 32 * 2 ^ 32)

/-- The PAs of n bytes from a VA through a map's bind-time translations. -/
def RowMap.pas (r : RowMap) (va : W64) (n : Nat) : List Nat := (List.range n).map fun i => r.pa (va + BitVec.ofNat 64 i).toNat

/-- What the key slot of a map encrypts with now (R110). -/
def State.mapKey (s : State) (r : RowMap) : Nat := s.slotKey (BitVec.ofNat 6 r.key)

/-- Bytes read for a map, as a little-endian number. -/
def State.mapRead (s : State) (r : RowMap) (va : W64) (n : Nat) : Nat := leNat (s.bytesAt none (s.mapKey r) (r.pas va n))

/-- The VA of row k of the panel. -/
def RowMap.rowVa (r : RowMap) (k : Nat) : W64 := r.wa + BitVec.ofNat 64 (k * r.stride)

/-- The k-blocks of the panel (R236). -/
def RowMap.nb (r : RowMap) : Nat := (r.kk + (Narrow.ofReg r.fmt).blk - 1) / (Narrow.ofReg r.fmt).blk

/-- The code of panel element (k, j) in memory. -/
def State.panelCode (s : State) (r : RowMap) (k j : Nat) : Nat :=
  if r.bits == 4 then s.mapRead r (r.rowVa k + BitVec.ofNat 64 (j / 2)) 1 / 2 ^ (4 * (j % 2)) % 16
  else s.mapRead r (r.rowVa k + BitVec.ofNat 64 (j * (r.bits / 8))) (r.bits / 8)

/-- The scale code of panel element (k, j) in memory (R236). -/
def State.panelScale (s : State) (r : RowMap) (k j : Nat) : Byte :=
  if r.cls == .narrow && r.scaleA != 0 then
    BitVec.ofNat 8 (s.mapRead r (r.scaleA + BitVec.ofNat 64 (j * r.nb + k / (Narrow.ofReg r.fmt).blk)) 1)
  else 0

/-- A weight under its scale code (R87); an invalid code traps before its weight is used. -/
def weightVal (cls : MClass) (fr : W64) (daz : Bool) (code : Nat) (scale : Byte) : Num :=
  match (match cls with
    | .narrow => scaled (classVal cls fr daz code) scale.toInt
    | .int8 | .fp16 | .bf16 => classVal cls fr daz code) with
  | .num x => x
  | .escape => .fin false 0 0

/-- The VAs that a row's panel bytes and scale codes lie at. -/
def RowMap.rowRanges (r : RowMap) (k : Nat) : List (W64 × Nat) :=
  (r.rowVa k, r.rowBytes)
    :: if r.cls == .narrow && r.scaleA != 0 then
        (List.range r.nn).map fun j => (r.scaleA + BitVec.ofNat 64 (j * r.nb + k / (Narrow.ofReg r.fmt).blk), 1)
      else []

/-- The PAs of ranges. -/
def RowMap.pasOf (r : RowMap) (l : List (W64 × Nat)) : List Nat := l.flatMap fun p => r.pas p.1 p.2

/-- The granule of the first byte of ranges that is poisoned, by VA (R337). -/
def State.mapPoison (s : State) (r : RowMap) (l : List (W64 × Nat)) : Option W64 :=
  l.findSome? fun p => ((r.pas p.1 p.2).zipIdx.find? fun q => s.poisoned q.1).map fun q => (p.1 + BitVec.ofNat 64 q.2) &&& ~~~63#64

/-- The first byte of ranges that lies in HBM while the map's key slot holds no key, by VA: an access there faults (R111, R122). -/
def State.mapKeyless (s : State) (r : RowMap) (l : List (W64 × Nat)) : Option W64 :=
  if s.keyless (BitVec.ofNat 6 r.key) then
    l.findSome? fun p => ((r.pas p.1 p.2).zipIdx.find? fun q => isHbm q.1).map fun q => p.1 + BitVec.ofNat 64 q.2
  else none

/-- The fault that ranges which a map reads raise: of a cleared key slot, then of poison. -/
def State.mapFault (s : State) (r : RowMap) (l : List (W64 × Nat)) : Option (Byte × W64) :=
  match s.mapKeyless r l with
  | some va => some (cProt, va)
  | none => (s.mapPoison r l).map fun va => (cPoison, va)

/-- The first invalid scale code among those of some panel rows, lowest byte first (R87): `code` gives the code of element (k, j). -/
def RowMap.badCode (r : RowMap) (ks : List Nat) (code : Nat → Nat → Byte) : Option (Byte × Nat) :=
  if r.cls != .narrow || r.scaleA == 0 then none
  else
    let all := (List.range r.nn).flatMap fun j => (List.range r.nb).flatMap fun q =>
      (ks.filter fun k => k / (Narrow.ofReg r.fmt).blk == q).map fun k => (code k j, j * r.nb + q)
    all.find? fun p => !scaleValid p.1

/-! ### The descriptor (R236, R249) -/

/-- A number of the descriptor. -/
def descNat (b : List Byte) (off n : Nat) : Nat := leNat ((b.drop off).take n)

/-- The class field of a descriptor. -/
def descClass (b : List Byte) : MClass :=
  match descNat b 5 1 / 8 % 4 with
  | 0 => .narrow
  | 1 => .int8
  | 2 => .fp16
  | _ => .bf16

/-- Whether byte 0x05 is a class with a matching width. -/
def descClassOk (b : List Byte) : Bool :=
  let c := descNat b 5 1
  let sew := c % 8
  decide (c < 32) && match descClass b with
    | .narrow => sew == if descNat b 0x14 4 % 16 ≤ 4 then 0 else 1
    | .int8 => sew == 1
    | .fp16 | .bf16 => sew == 2

/-- The element width of a descriptor in bits. -/
def descBits (b : List Byte) : Nat := 4 * 2 ^ (descNat b 5 1 % 8)

/-- The fields outside their ranges and the reserved bytes that are not zero, by offset in increasing order (R236). -/
def descBad (b : List Byte) : List Nat :=
  let fmt := descNat b 0x14 4
  let narrow := descClass b == .narrow
  let n := descNat b 0x0C 2
  let k := descNat b 8 4
  let no := fun (c : Bool) (o : Nat) => if c then [] else [o]
  no (descClassOk b) 5
    ++ no (descNat b 6 1 < 16 || descNat b 6 1 == 0xFF) 6
    ++ no (descNat b 7 1 < 16) 7
    ++ no (decide (1 ≤ k) && decide (k ≤ 8192 / descBits b)) 8
    ++ no (decide (1 ≤ n) && decide (n ≤ 128)) 0x0C
    ++ no (decide (descNat b 0x10 4 ≤ k) && (descNat b 6 1 != 0xFF || descNat b 0x10 4 == 0)) 0x10
    ++ no (if narrow then frLegal (BitVec.ofNat 64 fmt) && fmt / 2 ^ 18 % 2 == 0 else fmt == 0) 0x14
    ++ no (decide ((n * descBits b + 7) / 8 ≤ descNat b 0x20 4)) 0x20
    ++ (List.range 4).filterMap (fun i => if descNat b (0x24 + i) 1 == 0 then none else some (0x24 + i))
    ++ no (narrow || descNat b 0x28 8 == 0) 0x28
    ++ (List.range 56).filterMap fun i => if descNat b (0x48 + i) 1 == 0 then none else some (0x48 + i)

/-- The map that a descriptor describes, without its list and translations. -/
def descMap (b : List Byte) (launch : BitVec 32) (a : Acc) : RowMap where
  launch := launch
  asid := a.asid
  key := a.key.toNat
  cls := descClass b
  sew := BitVec.ofNat 3 (descNat b 5 1)
  slot := if descNat b 6 1 == 0xFF then none else some (descNat b 6 1)
  shift := descNat b 7 1
  kk := descNat b 8 4
  nn := descNat b 0x0C 2
  margin := descNat b 0x0E 2
  cap := descNat b 0x10 4
  fmt := BitVec.ofNat 64 (descNat b 0x14 4 % 2 ^ 24)
  wa := BitVec.ofNat 64 (descNat b 0x18 8)
  stride := descNat b 0x20 4
  scaleA := BitVec.ofNat 64 (descNat b 0x28 8)
  countA := BitVec.ofNat 64 (descNat b 0x30 8)
  listA := BitVec.ofNat 64 (descNat b 0x38 8)
  deepA := BitVec.ofNat 64 (descNat b 0x40 8)
  list := []
  stale := []
  pending := []
  gen := 0
  sealKey := none
  fixed := []
  xl := []

/-- The bytes of the weight range. -/
def RowMap.panelLen (r : RowMap) : Nat := r.kk * r.stride

/-- The ranges besides the panel that a map translates at its bind, each with whether it is written: counters, list, scale codes,
fixed-deep bitmap (R250). -/
def RowMap.ranges (r : RowMap) : List (W64 × Nat × Bool) :=
  [(r.countA, 2 * r.kk, true), (r.listA, 4 * r.cap, true)]
    ++ (if r.cls == .narrow && r.scaleA != 0 then [(r.scaleA, r.nn * r.nb, false)] else [])
    ++ (if r.deepA != 0 then [(r.deepA, (r.kk + 7) / 8, false)] else [])

/-- The pieces of 4 MiB of a range with their frames. -/
def framesOf (va : W64) (pas : List Nat) : List (Nat × Nat) :=
  (pas.zipIdx.map fun p => ((va + BitVec.ofNat 64 p.2).toNat / 2 ^ 22, p.1 / 2 ^ 22)).eraseDups

/-- The pieces of 4 MiB of a range within one page, whose first and last VA and first PA are given. -/
def pageFrames (va last pa : Nat) : List (Nat × Nat) :=
  (List.range (last / 2 ^ 22 - va / 2 ^ 22 + 1)).map fun i => (va / 2 ^ 22 + i, pa / 2 ^ 22 + i)

/-- The translations of a map, or its first fault; `none` says that the weight range is not HBM within one page (R245). -/
def State.mapXlate (s : State) (a : Acc) (r : RowMap) : Except Fa (Option (List (Nat × Nat) × List Nat × List Nat)) :=
  let last := (r.wa + BitVec.ofNat 64 (r.panelLen - 1)).toNat
  match s.vecXlate a r.wa true false with
  | .error f => .error f
  | .ok pa =>
    if r.wa.toNat / 2 ^ 30 != last / 2 ^ 30 || !isHbm pa then .ok none
    else
      match s.vecXlate a (BitVec.ofNat 64 last) true false, r.ranges.mapM fun g => s.xlateBytes a g.1 g.2.1 true g.2.2 with
      | .error f, _ => .error f
      | _, .error f => .error f
      | .ok _, .ok l =>
        .ok (some ((pageFrames r.wa.toNat last pa ++ (r.ranges.zip l).flatMap fun g => framesOf g.1.1 g.2).eraseDups,
          l.getD 0 [], l.getD 1 []))

/-- Whether any of some PAs lies in a weight range. -/
def RowMap.overlaps (r : RowMap) (pas : List Nat) : Bool :=
  let a := r.pa r.wa.toNat
  pas.any fun pa => decide (a ≤ pa) && decide (pa < a + r.panelLen)

/-- The rows that are fixed deep (R246): by the bitmap, or with a byte in a frame registered for a peer's direct writes. -/
def State.fixedDeep (s : State) (r : RowMap) : List Nat :=
  (List.range r.kk).filter fun k =>
    (r.deepA != 0 && (s.mapRead r (r.deepA + BitVec.ofNat 64 (k / 8)) 1).testBit (k % 8))
      || (List.range r.rowBytes).any fun i => s.windows.any fun w => w.pinned.contains ((r.rowPa k + i) / 4096)

/-- The resident list in memory: C entries (R236). -/
def State.mapList (s : State) (r : RowMap) : List (Option Nat) :=
  (List.range r.cap).map fun p =>
    let v := s.mapRead r (r.listA + BitVec.ofNat 64 (4 * p)) 4
    if v == 0xFFFFFFFF then none else some v

/-- The first row of a list that R249 refuses (0x06). -/
def listBad (kk : Nat) (fixed : List Nat) : List (Option Nat) → List Nat → Option Nat
  | [], _ => none
  | none :: t, seen => listBad kk fixed t seen
  | some k :: t, seen => if kk ≤ k || seen.contains k || fixed.contains k then some k else listBad kk fixed t (k :: seen)

/-! ### Resident rows -/

/-- One row copied from memory into a position of the map's slot. -/
def State.placeRow (s : State) (r : RowMap) (b : Slot) (p k : Nat) : Slot :=
  (List.range r.nn).foldl (fun u j =>
    { u with
      data := Tab.set u.data (j * 2048 + p) (BitVec.ofNat 16 (s.panelCode r k j))
      scales := Tab.set u.scales (j * 2048 + p) (s.panelScale r k j) }) b

/-- Rows placed in positions. -/
def State.placeRows (s : State) (r : RowMap) (b : Slot) (l : List (Nat × Nat)) : Slot :=
  l.foldl (fun u e => s.placeRow r u e.1 e.2) b

/-- The positions of a list that hold a row. -/
def listed (l : List (Option Nat)) : List (Nat × Nat) := l.zipIdx.filterMap fun e => e.1.map fun k => (e.2, k)

/-- The valid positions of a map with their rows, in increasing position: neither empty nor stale (R241). -/
def RowMap.valid (r : RowMap) : List (Nat × Nat) := (listed r.list).filter fun e => !r.stale.getD e.1 false

/-- The slot of a map as it begins: held, without a complete tile. -/
def RowMap.slotInit (r : RowMap) : Slot :=
  { Slot.reset with cls := r.cls, sew := r.sew, fr := r.fmt, kk := r.cap, nn := r.nn, rowmap := true, src := r.wa }

/-- A row map entry and its slot written, with the rows as a stream sees them in a state `v`. -/
def State.bindMap (s v : State) (m : BitVec 4) (r : RowMap) : State :=
  s.modMat fun mt =>
    let mt1 := mt.setMap m (some r)
    match r.slot with
    | some i => mt1.modSlot i fun _ => v.placeRows r r.slotInit r.valid
    | none => mt1

/-! ### Flushes (R239) -/

/-- The PA of a row's counter. -/
def RowMap.counterVa (r : RowMap) (k : Nat) : W64 := r.countA + BitVec.ofNat 64 (2 * k)

/-- Every counter updated by a function of its row and value. -/
def State.counters (s : State) (r : RowMap) (ks : List Nat) (f : Nat → Nat → Nat) : State :=
  ks.foldl (fun u k =>
    u.scatterBytes (u.mapKey r) ((r.pas (r.counterVa k) 2).zip (leBytes 2 (f k (u.mapRead r (r.counterVa k) 2))))) s

/-- The counters that a flush updates. -/
def RowMap.pendingVas (r : RowMap) : List (W64 × Nat) := r.pending.map fun e => (r.counterVa e.1, 2)

/-- Pending counts added to the counters in memory, saturating, and cleared. Counters in HBM under a cleared key slot are not reached: the
counts that an engine flushes there are lost (R111; log 137). -/
def State.flush (s : State) (m : BitVec 4) (r : RowMap) : State :=
  let s1 := if (s.mapKeyless r r.pendingVas).isSome then s else
    s.counters r (r.pending.map fun e => e.1) fun k v => min 65535 (v + (r.pending.get k).toNat)
  s1.modMat fun mt =>
    match mt.map m with
    | some q => mt.setMap m (some { q with pending := [] })
    | none => mt

/-- The PAs of a map's counters, of its list and of other ranges. -/
def State.mapPas (_s : State) (r : RowMap) (l : List (W64 × Nat)) : List Nat :=
  r.pasOf ((r.countA, 2 * r.kk) :: (r.listA, 4 * r.cap) :: l)

/-- Whether a map's counters, or other ranges it names, lie partly in a held stack. -/
def State.mapHeld (s : State) (r : RowMap) (l : List (W64 × Nat)) : Bool := s.anyHeld (s.mapPas r l)

/-- A map unbound (R250): flushed, its seal freed, its slot unloaded. -/
def State.unbind (s : State) (m : BitVec 4) (r : RowMap) : State :=
  let s1 := (s.flush m r).freeSeals [r.sealKey]
  s1.modMat fun mt =>
    let mt1 := mt.setMap m none
    match r.slot with
    | some i => mt1.modSlot i fun _ => Slot.reset
    | none => mt1

/-- The resident list written to RL, empty and stale positions as 0xFFFF_FFFF. -/
def State.writeList (s : State) (r : RowMap) : State :=
  let bytes := (r.list.zip r.stale).flatMap fun e =>
    leBytes 4 (match e.1 with
      | some k => if e.2 then 0xFFFFFFFF else k
      | none => 0xFFFFFFFF)
  s.scatterBytes (s.mapKey r) ((r.pas r.listA (4 * r.cap)).zip bytes)

/-! ### The checks of every function (R252, check 1) -/

/-- Why a map cannot be used: not bound by the owning launch, or bound under another generation. -/
def State.mapCheck (s : State) (st : Fin 4) (m : BitVec 4) (gen : Bool) : Except (Byte × W64) RowMap :=
  match s.mat.map m with
  | none => .error (cRowMap, rowVal 7 m 0)
  | some r =>
    if (s.strand st).task.any fun t => t.launch != r.launch then .error (cRowMap, rowVal 7 m 0)
    else if gen && s.genOf r.asid != r.gen then .error (cRowMap, rowVal 8 m 0)
    else .ok r

/-- A row instruction that answers with a scalar, or without one. -/
def State.rowDone (s : State) (st : Fin 4) (e : VEntry) (rd : W64) : State := s.finish st e (s.strand st) rd

/-! ### RMBIND (R250) -/

/-- Everything a bind reads beyond its descriptor: the map with list, translations and fixed rows, or the trap. -/
def State.bindRead (s : State) (a : Acc) (r0 : RowMap) (m : BitVec 4) (desc : W64) : Except (Byte × W64) RowMap :=
  if desc.toNat % 128 != 0 then .error (cRowMap, rowVal 3 m 0)
  else if r0.countA.toNat % 2 != 0 then .error (cRowMap, rowVal 3 m 0x30)
  else if r0.listA.toNat % 4 != 0 then .error (cRowMap, rowVal 3 m 0x38)
  else
    match s.mapXlate a r0 with
    | .error f => .error (f.cause, f.tval)
    | .ok none => .error (cRowMap, rowVal 3 m 0x18)
    | .ok (some (xl, cpas, lpas)) =>
      let r1 := { r0 with xl := xl, gen := s.genOf r0.asid }
      if r1.overlaps cpas then .error (cRowMap, rowVal 3 m 0x30)
      else if r1.overlaps lpas then .error (cRowMap, rowVal 3 m 0x38)
      else
        let deep := if r1.deepA == 0 then [] else [(r1.deepA, (r1.kk + 7) / 8)]
        match s.mapPoison r1 ((r1.listA, 4 * r1.cap) :: deep) with
        | some va => .error (cPoison, va)
        | none => .ok { r1 with list := s.mapList r1, stale := List.replicate r1.cap false, fixed := s.fixedDeep r1 }

/-- The checks 0x04 to 0x07 on a map that has been read (0x05 for a slot that is pinned or that another entry's map holds), and the reads of its
resident rows: the key of its seal, or the trap. -/
def State.bindCheck (s : State) (r : RowMap) (m : BitVec 4) : Except (Byte × W64) Nat :=
  match s.freeSeal (256 + hbmDie (r.pa r.wa.toNat)) 4096 with
  | none => .error (cRowMap, rowVal 4 m 0)
  | some key =>
    if r.slot.any fun i => (s.mat.slots.get (fin 16 i)).pin.isSome
        || ((s.mat.slots.get (fin 16 i)).rowmap && !((s.mat.map m).any fun g => g.slot == some i)) then
      .error (cRowMap, rowVal 5 m 6)
    else
      match listBad r.kk r.fixed r.list [] with
      | some k => .error (cRowMap, rowVal 6 m k)
      | none =>
        if (s.mat.map m).isSome then .error (cRowMap, rowVal 7 m 0)
        else
          match s.mapPoison r ((listed r.list).flatMap fun e => r.rowRanges e.2) with
          | some va => .error (cPoison, va)
          | none => .ok key

/-- RMBIND once its turn has come. It reads what the E-stream sees, as `BLD` does, its own held stores included (R118, R304). -/
def State.rmbind (s : State) (st : Fin 4) (e : VEntry) (m : BitVec 4) : State :=
  let a := s.acc st
  match s.xlateBytes a e.xs 128 true false with
  | .error f => s.matTrap st e f.cause f.tval
  | .ok pas =>
    if s.anyHeld pas then s.keepEntry st pas
    else
      match pas.zipIdx.find? fun p => s.poisonedFor (some (st, .E)) p.1 with
      | some p => s.matTrap st e cPoison ((e.xs + BitVec.ofNat 64 p.2) &&& ~~~63#64)
      | none =>
        let b := s.bytesAt (some (st, .E)) (s.slotKey a.key) pas
        let launch := ((s.strand st).task.map fun t => t.launch).getD 0
        if descNat b 0 4 != 0x4D574F52 then s.matTrap st e cRowMap (rowVal 1 m 0)
        else if descNat b 4 1 != 1 then s.matTrap st e cRowMap (rowVal 1 m 4)
        else
          match descBad b with
          | o :: _ => s.matTrap st e cRowMap (rowVal 2 m o)
          | [] =>
            let v := s.asSeen st .E
            match v.bindRead a (descMap b launch a) m e.xs with
            | .error f => s.matTrap st e f.1 f.2
            | .ok r =>
              let parts := (r.wa, r.panelLen) :: (r.ranges.map fun g => (g.1, g.2.1))
              if s.mapHeld r parts then s.keepEntry st (s.mapPas r parts)
              else
                match v.bindCheck r m with
                | .error f => s.matTrap st e f.1 f.2
                | .ok key =>
                  let sl : Seal := { key := key, pa := r.pa r.wa.toNat, len := r.panelLen }
                  let s1 := { s with seals := s.seals ++ [sl] }
                  (s1.bindMap v m { r with sealKey := some key }).rowDone st e (BitVec.ofNat 64 (listed r.list).length)

/-- RMBIND.unbind once its turn has come. -/
def State.rmunbind (s : State) (st : Fin 4) (e : VEntry) (m : BitVec 4) : State :=
  match s.mapCheck st m false with
  | .error (c, v) => s.matTrap st e c v
  | .ok r =>
    if s.mapHeld r [] then s.keepEntry st (s.mapPas r [])
    else
      match s.mapKeyless r r.pendingVas with
      | some va => s.matTrap st e cProt va
      | none => (s.unbind m r).rowDone st e 0

/-! ### A operands (R251, R252) -/

/-- The checks 2 and 3 of R252, then those of R88 and R87: the trap of the first that fails. -/
def Strand.rowOperand (x : Strand) (e : VEntry) (r : RowMap) : Option (Byte × W64) :=
  let bad := some (cFormat, x.formatVal e.vtype)
  if x.mclass e.vtype != some r.cls then bad
  else if e.cols != r.kk then bad
  else if r.cls != .narrow then none
  else
    let fr := x.frOf r.cls e.vtype
    if blockBeyond fr e.rows e.cols then bad
    else (x.badScaleA fr e.rows e.cols).map fun p => (cScalecode, scaleVal p 0)

/-- Whether an activation fires (R238): it is not zero. -/
def Num.fires (x : Num) : Bool :=
  match x with
  | .nan _ | .inf _ => true
  | .fin _ m _ => m != 0

/-- The value that decides whether element (i, k) of an A operand of format `fr` fires: one in a block of code −128 does not (R238). -/
def fireVal (cls : MClass) (fr : W64) (v63 : Row) (val : Nat → Nat → NVal) (i k : Nat) : NVal :=
  if cls == .narrow && elem v63 8 (i * 64 + k / (Narrow.ofReg fr).blk) == 0x80 then .num (.fin false 0 0) else val i k

/-- The firings of row k of the map among the token rows; that of an escaped element is free (log 25). -/
def firesOf (now : Nat) (e : VEntry) (val : Nat → Nat → NVal) (k : Nat) : Nat :=
  ((List.range e.rows).filter fun i =>
    match val i k with
    | .num x => x.fires
    | .escape => Config.escapeFires now i k).length

/-- RMFIRE when it issues (R251): the pending counts of every row. -/
def State.rmfire (s : State) (st : Fin 4) (e : VEntry) (vX : Spec) (m : BitVec 4) : State :=
  let x := s.strand st
  match s.mapCheck st m false with
  | .error (c, v) => s.matTrap st e c v
  | .ok r =>
    match x.rowOperand e r with
    | some (c, v) => s.matTrap st e c v
    | none =>
      let rows := (List.range (vtG e.vtype)).map fun i => x.readRow vX i
      let fr := x.frOf r.cls e.vtype
      let val := fireVal r.cls fr (x.v.get 63) (aVal r.cls fr (vtDaz e.vtype) rows (x.v.get 63) e.sew)
      let pend := (List.range r.kk).foldl (fun (t : Tab 32) k =>
        Tab.set t k (BitVec.ofNat 32 (min (2 ^ 32 - 1) ((t.get k).toNat + firesOf s.tick e val k)))) r.pending
      (s.modMat fun mt => mt.setMap m (some { r with pending := pend })).rowDone st e 0

/-! ### RMMUL and RMJOIN (R241, R242, R252, R253) -/

/-- Whether a strand has an `RMMUL` to a deep tile that is queued or not joined (R252, R253). -/
def State.unjoined (s : State) (st : Fin 4) (aJ : Nat) : Bool :=
  (s.mat.deep.any fun d => d.ent.task == (s.strand st).task && d.aJ == aJ)
    || s.mat.mq.any fun q => q.task == (s.strand st).task && match q.ent.form with
      | .row 2 _ _ _ _ j _ _ _ => j.toNat == aJ
      | _ => false

/-- Whether a pair of tiles is refused (R248). -/
def tilesBad (aT aJ : BitVec 4) : Bool := decide (12 ≤ aT.toNat) || decide (12 ≤ aJ.toNat) || aT == aJ

/-- A map whose stale positions have been dropped from its list (R247). -/
def RowMap.dropStale (r : RowMap) : RowMap :=
  { r with
    list := (r.list.zip r.stale).map fun p => if p.2 then none else p.1
    stale := r.stale.map fun _ => false }

/-- The activations of a captured `RMMUL`. -/
def MatEntry.act (q : MatEntry) (r : RowMap) (i k : Nat) : NVal :=
  aVal r.cls q.fr (vtDaz q.ent.vtype) q.rows q.scale q.ent.sew i k

/-- Whether some token row of a captured `RMMUL` fires a row of the map. -/
def MatEntry.firesRow (q : MatEntry) (r : RowMap) (k : Nat) : Bool :=
  (List.range q.ent.rows).any fun i =>
    match q.act r i k with
    | .num x => x.fires
    | .escape => false

/-- The first invalid code that an `RMMUL` would use (R87; log 24): those of the slot's copies for the resident rows, those in memory for the
deep rows that fire. -/
def State.rowCode (s : State) (r : RowMap) (q : MatEntry) : Option (Byte × Nat) :=
  let d := r.dropStale
  let b := s.mat.slots.get (fin 16 (r.slot.getD 0))
  let pos := fun (k : Nat) => (d.valid.find? fun e => e.2 == k).map fun e => e.1
  r.badCode ((List.range r.kk).filter fun k => (pos k).isSome || q.firesRow r k) fun k j =>
    match pos k with
    | some p => b.scales.get (j * 2048 + p)
    | none => s.panelScale r k j

/-- The scale codes in memory that an `RMMUL` reads when it issues: those of the deep rows that fire. -/
def RowMap.codeRanges (r : RowMap) (q : MatEntry) : List (W64 × Nat) :=
  ((List.range r.kk).filter fun k => q.firesRow r k && !r.dropStale.valid.any fun e => e.2 == k).flatMap fun k => (r.rowRanges k).drop 1

/-- RMMUL when it issues (R252): a push to engine 2, which waits while every entry of its FIFO is reserved (R149), and a release at core
scope, which waits for the stores of the E-stream that a held stack keeps (R148). -/
def State.rmmul (s : State) (st : Fin 4) (e : VEntry) (aJ aT : BitVec 4) (vX : Spec) (m : BitVec 4) : State :=
  let x := s.strand st
  if tilesBad aT aJ then s.matIllegal st e 0x14
  else
    match s.mapCheck st m true with
    | .error (c, v) => s.matTrap st e c v
    | .ok r =>
      match x.rowOperand e r with
      | some (c, v) => s.matTrap st e c v
      | none =>
        let fr := x.frOf r.cls e.vtype
        match leastOf (x.escapes e r.cls fr vX) with
        | some p => s.matTrap st e cOlMismatch (BitVec.ofNat 64 p)
        | none =>
          if s.unjoined st aJ.toNat then s.matTrap st e cRowMap (rowVal 9 m 0)
          else
            let q := x.matEntry st e vX fr [] 0 none
            match s.mapKeyless r (r.codeRanges q), s.rowCode r q with
            | some va, _ => s.matTrap st e cProt va
            | none, some p => s.matTrap st e cScalecode (scaleVal p 1)
            | none, none => if s.fifoFull st 2 || s.stackHolds st .E then s else (s.modStrand st fun y => y.reserve 2).acceptMat st e q

/-- The rows of the resident part (R241). -/
def Matrix.residentRow (mt : Matrix) (q : MatEntry) (r : RowMap) (ad : Bool) (t row i : Nat) : List (Nat × Flags) :=
  let b := mt.slots.get (fin 16 (r.slot.getD 0))
  let daz := vtDaz q.ent.vtype
  let pos := r.valid
  let at_ := fun (n : Nat) => pos.getD n (0, 0)
  (List.range r.nn).map fun j =>
    let old := if ad then 0 else Fmt.fp32.dazBits daz (mt.acc t row j)
    mmaElem (vtFtz q.ent.vtype) false pos.length old (fun n => q.act r i (at_ n).2)
      (fun n => .num (weightVal r.cls r.fmt daz (b.data.get (j * 2048 + (at_ n).1)).toNat (b.scales.get (j * 2048 + (at_ n).1))))
      [] []

/-- An accepted RMMUL at its turn (R241, R252): stale rows taken deep, the resident part written, the deep rows dispatched. -/
def State.rmmulRun (s : State) (q : MatEntry) (ad : Bool) (aJ aT : BitVec 4) (m : BitVec 4) (row0 : Nat) : State :=
  match s.mat.map m with
  | none => s.forTask q.strand q.task fun x => x.unreserve 2
  | some r0 =>
    let r := r0.dropStale
    let t := aT.toNat
    let res := if r.valid.isEmpty && !ad then [] else
      (List.range q.ent.rows).map fun i => (i, s.mat.residentRow q r ad t (row0 + i) i)
    let d : DeepPart := {
      strand := q.strand
      aT := t
      aJ := aJ.toNat
      row0 := row0
      ent := q
      map := r
      ks := (List.range r.kk).filter fun k => !r.valid.any fun e => e.2 == k
      flagsR := res.foldl (fun a p => p.2.foldl (fun a v => a ||| v.2) a) 0
      flagsD := 0
      lost := false
      told := false
      fault := none
      code := none
      ready := false }
    s.modMat fun mt =>
      let mt1 := mt.setMap m (some r)
      let mt2 := res.foldl (fun u p => u.putRow t (row0 + p.1) 0 (p.2.map fun v => BitVec.ofNat 32 v.1)) mt1
      { mt2 with deep := mt2.deep ++ [d] }

/-- The deep rows that some token row fires. -/
def DeepPart.fired (d : DeepPart) : List Nat :=
  d.ks.filter fun k => d.ent.firesRow d.map k

/-- One element of the deep part (R241): one rounding per fired row in increasing k. -/
def State.deepElem (s : State) (d : DeepPart) (fired : List Nat) (i j : Nat) : Nat × Flags :=
  let vt := d.ent.ent.vtype
  let f := Fmt.fp32
  let q := fired.foldl (fun (t : Nat × Flags) k =>
    match d.ent.act d.map i k with
    | .num x =>
      if x.fires then
        let w := weightVal d.map.cls d.map.fmt (vtDaz vt) (s.panelCode d.map k j) (s.panelScale d.map k j)
        let r := f.pack 0 (Num.add 0 (f.decode t.1) (Num.mul x w))
        (r.1, t.2 ||| r.2)
      else t
    | .escape => t) (0, 0)
  let r := f.ftzBits (vtFtz vt) (q.1, 0)
  (r.1, q.2 ||| r.2)

/-- A deep part as it lands in a matrix state: the tile rows of aJ and the part, or what went wrong (R252, R253). Nothing is read under a
cleared key slot (R111, R122). -/
def State.landDeep (s : State) (mt : Matrix) (d : DeepPart) : Matrix × DeepPart :=
  let fired := d.fired
  let ranges := fired.flatMap fun k => d.map.rowRanges k
  let rows := if (s.mapKeyless d.map ranges).isSome then [] else
    (List.range d.ent.ent.rows).map fun i => (i, (List.range d.map.nn).map fun j => s.deepElem d fired i j)
  (rows.foldl (fun u p => u.putRow d.aJ (d.row0 + p.1) 0 (p.2.map fun v => BitVec.ofNat 32 v.1)) mt,
    { d with
      ready := true
      flagsD := rows.foldl (fun a p => p.2.foldl (fun a v => a ||| v.2) a) 0
      lost := (d.map.pasOf ranges).any fun pa => s.lostAt pa
      fault := s.mapFault d.map ranges
      code := (d.map.badCode fired (s.panelScale d.map)).map fun p => scaleVal p 1 })

/-- RMJOIN (R242, R253): it waits for its turn, for its deep part and for those of other strands on their way to its tiles (R252). A lost part
appends one record and traps with it. -/
def State.rmjoin (s : State) (st : Fin 4) (e : VEntry) (aJ aT : BitVec 4) : State :=
  let x := s.strand st
  if tilesBad aT aJ then s.matIllegal st e 0x14
  else if !s.unjoined st aJ.toNat then s.matTrap st e cRowMap (rowVal 9 0 0)
  else if !s.mat.mq.isEmpty then s
  else
    match s.mat.deep.find? fun d => d.ent.task == x.task && d.aJ == aJ.toNat with
    | none => s
    | some d =>
      if !d.ready || s.tileBusy aT.toNat || s.tileBusy aJ.toNat then s
      else if d.lost then
        let r := copyRecord 0 2 5 0
        let s1 := if d.told then s else
          (s.modStrand st fun y => y.append 2 r).modMat fun mt =>
            { mt with deep := mt.deep.map fun g => if g.ent.task == x.task && g.aJ == aJ.toNat then { g with told := true } else g }
        s1.matTrap st e cEngineFault r
      else
        match d.fault, d.code with
        | some f, _ => s.matTrap st e f.1 f.2
        | none, some v => s.matTrap st e cScalecode v
        | none, none =>
          let res := (gridOf d.ent.ent.rows d.map.nn).foldl (fun (u : Matrix × Flags) p =>
            let row := d.row0 + p.1
            let v := mmaStep (vtFtz e.vtype) (s.mat.acc aT.toNat row p.2, 0)
              (Fmt.fp32.decode (s.mat.acc aJ.toNat row p.2))
            (u.1.put aT.toNat row p.2 v.1, u.2 ||| v.2)) (s.mat, 0)
          let s1 : State := { s with mat := { res.1 with deep := res.1.deep.filter fun g => !(g.ent.task == x.task && g.aJ == aJ.toNat) } }
          s1.settleEntry st e (.done ((x.unreserve 2).orFlags (d.flagsR ||| d.flagsD ||| res.2)) 0)

/-! ### RMMIG, RMAGE, RMQRY (R243, R254) -/

/-- Whether row a ranks above row b by counter, then by the lower index. -/
def rowAbove (cnt : Nat → Nat) (a b : Nat) : Bool := decide (cnt b < cnt a) || (cnt a == cnt b && decide (a < b))

/-- A row inserted in rank order. -/
def rankInsert (cnt : Nat → Nat) (k : Nat) : List Nat → List Nat
  | [] => [k]
  | a :: t => if rowAbove cnt k a then k :: a :: t else a :: rankInsert cnt k t

/-- The lowest-ranked position of a list: the first empty one, else that of the resident row of lowest rank. -/
def lowestPos (cnt : Nat → Nat) (l : List (Option Nat)) : Option (Nat × Option Nat) :=
  match l.zipIdx.find? fun e => e.1.isNone with
  | some e => some (e.2, none)
  | none =>
    (listed l).foldl (fun (b : Option (Nat × Option Nat)) e =>
      match b with
      | some (_, some k) => if rowAbove cnt k e.2 then some (e.1, some e.2) else b
      | _ => some (e.1, some e.2)) none

/-- The promotions of R243: candidates in rank order. -/
def migrate (cnt : Nat → Nat) (h : Nat) : List Nat → List (Option Nat) → List (Option Nat)
  | [], l => l
  | d :: cand, l =>
    match lowestPos cnt l with
    | none => l
    | some (p, none) => if h ≤ cnt d then migrate cnt h cand (l.set p (some d)) else l
    | some (p, some k) =>
      if cnt k + h ≤ cnt d && rowAbove cnt d k then migrate cnt h cand (l.set p (some d)) else l

/-- The list that RMMIG leaves, given the counters after the flush. -/
def RowMap.migrated (r : RowMap) (cnt : Nat → Nat) (fixed : List Nat) : List (Option Nat) :=
  let l0 := (r.list.zip r.stale).map fun e =>
    match e.1 with
    | some k => if e.2 || fixed.contains k then none else some k
    | none => none
  let cand := ((List.range r.kk).filter fun k => !l0.contains (some k) && !fixed.contains k).foldl
    (fun l k => rankInsert cnt k l) []
  migrate cnt r.margin cand l0

/-- Whether a position's content changes: another row, or a fresh copy of a stale one. -/
def changedAt (r : RowMap) (new : List (Option Nat)) (p : Nat) : Bool :=
  r.list.getD p none != new.getD p none || (r.stale.getD p false && (new.getD p none).isSome)

/-- RMMIG once its turn has come (R243, R254). The rows and the fixed-deep bitmap are read as the E-stream sees them (R118, R304). -/
def State.rmmig (s : State) (st : Fin 4) (e : VEntry) (m : BitVec 4) : State :=
  match s.mapCheck st m true with
  | .error (c, v) => s.matTrap st e c v
  | .ok r =>
    let deep := if r.deepA == 0 then [] else [(r.deepA, (r.kk + 7) / 8)]
    let v := s.asSeen st .E
    let fixed := v.fixedDeep r
    let cnt := fun (k : Nat) => min 65535 (s.mapRead r (r.counterVa k) 2 + (r.pending.get k).toNat)
    let new := r.migrated cnt fixed
    let fresh := (listed new).filter fun p => changedAt r new p.1
    let reads := fresh.flatMap fun p => r.rowRanges p.2
    if s.mapHeld r (deep ++ reads) then s.keepEntry st (s.mapPas r (deep ++ reads))
    else
      match s.mapKeyless r [(r.listA, 4 * r.cap)], v.mapFault r ((r.countA, 2 * r.kk) :: deep ++ reads) with
      | _, some f => s.matTrap st e f.1 f.2
      | some va, none => s.matTrap st e cProt va
      | none, none =>
        let r1 := { r with list := new, stale := new.map fun _ => false, fixed := fixed, pending := [] }
        let s1 := s.flush m r
        let s2 := s1.modMat fun mt =>
          let mt1 := mt.setMap m (some r1)
          match r.slot with
          | some i => mt1.modSlot i fun b => v.placeRows r b fresh
          | none => mt1
        (s2.writeList r1).rowDone st e (BitVec.ofNat 64 ((List.range r.cap).filter (changedAt r new)).length)

/-- RMAGE once its turn has come (R254). -/
def State.rmage (s : State) (st : Fin 4) (e : VEntry) (m : BitVec 4) : State :=
  match s.mapCheck st m true with
  | .error (c, v) => s.matTrap st e c v
  | .ok r =>
    if s.mapHeld r [] then s.keepEntry st (s.mapPas r [])
    else
      match s.mapFault r [(r.countA, 2 * r.kk)] with
      | some f => s.matTrap st e f.1 f.2
      | none => ((s.flush m r).counters r (List.range r.kk) fun _ v => v / 2 ^ r.shift).rowDone st e 0

/-- RMQRY once its turn has come (R254). -/
def State.rmqry (s : State) (st : Fin 4) (e : VEntry) (m : BitVec 4) : State :=
  match s.mapCheck st m true with
  | .error (c, v) => s.matTrap st e c v
  | .ok r =>
    if s.mapHeld r [] then s.keepEntry st (s.mapPas r [])
    else
      match s.mapKeyless r [(r.listA, 4 * r.cap)], s.mapFault r [(r.countA, 2 * r.kk)] with
      | _, some f => s.matTrap st e f.1 f.2
      | some va, none => s.matTrap st e cProt va
      | none, none =>
        let stale := ((listed r.list).filter fun p => r.stale.getD p.1 false).length
        ((s.flush m r).writeList r).rowDone st e (BitVec.ofNat 64 (r.valid.length + stale * 2 ^ 32))

/-! ### Turns and the front end -/

/-- A row instruction when it issues, once its launch owns the core (R220). Those that commit when their writes are done wait until
nothing is queued before them (R218). -/
def State.rowIssue (s : State) (st : Fin 4) (e : VEntry) (func : Nat) (var : Bool) (aJ aT : BitVec 4) (vX : Spec) (m : BitVec 4) : State :=
  match s.own st with
  | none => s
  | some s1 =>
    let turn := s1.mat.mq.isEmpty
    match func with
    | 0 => if !turn then s else if var then s1.rmunbind st e m else s1.rmbind st e m
    | 1 => s1.rmfire st e vX m
    | 2 => s1.rmmul st e aJ aT vX m
    | 3 => s1.rmjoin st e aJ aT
    | 4 => if !turn then s else s1.rmmig st e m
    | 5 => if !turn then s else s1.rmage st e m
    | _ => if !turn then s else s1.rmqry st e m

/-- A row instruction at the front end (R248, R277). -/
def rowFront (s : State) (func : Nat) (var : Bool) (rd rs1 : Reg) (row0 : BitVec 3) (aJ aT : BitVec 4) (vX : Spec) (m : BitVec 4) :
    Out :=
  onStream s fun st k => s.frontEnd st k (.row func var rd rs1 row0 aJ aT vX m)

/-- RMBIND (R250). -/
def execRmbind (rd rs1 : Reg) (m : BitVec 4) (s : State) : Out := rowFront s 0 false rd rs1 0 0 0 0 m
/-- RMBIND.unbind (R250). -/
def execRmbindUnbind (m : BitVec 4) (s : State) : Out := rowFront s 0 true 0 0 0 0 0 0 m
/-- RMFIRE (R251). -/
def execRmfire (vX : Spec) (m : BitVec 4) (s : State) : Out := rowFront s 1 false 0 0 0 0 0 vX m
/-- RMMUL (R252). -/
def execRmmul (ad : Bool) (aT aJ : BitVec 4) (vX : Spec) (m : BitVec 4) (row0 : BitVec 3) (s : State) : Out :=
  rowFront s 2 ad 0 0 row0 aJ aT vX m
/-- RMJOIN (R253). -/
def execRmjoin (aT aJ : BitVec 4) (s : State) : Out := rowFront s 3 false 0 0 0 aJ aT 0 0
/-- RMMIG (R254). -/
def execRmmig (rd : Reg) (m : BitVec 4) (s : State) : Out := rowFront s 4 false rd 0 0 0 0 0 m
/-- RMAGE (R254). -/
def execRmage (m : BitVec 4) (s : State) : Out := rowFront s 5 false 0 0 0 0 0 0 m
/-- RMQRY (R254). -/
def execRmqry (rd : Reg) (m : BitVec 4) (s : State) : Out := rowFront s 6 false rd 0 0 0 0 0 m

end Sys2Proof.Machine
end

