-- ==== Sys2Proof/Machine/Place.lean ====
section
/-! DEFINITION. Teams on the core: which of them run and which are parked, moving a parked context off its strand and back (R345 to
R348), saving the core's matrix state (R221, R223), and the change between confidentiality contexts (R369). -/

namespace Sys2Proof.Machine

/-- Every strand of the core. -/
def allStrands : List (Fin 4) := [0, 1, 2, 3]

/-- The strands that no task is bound to. -/
def State.freeStrands (s : State) : List (Fin 4) := allStrands.filter fun st => (s.strand st).task.isNone

/-! ### Which teams run -/

/-- Whether a strand's task is one of a team. -/
def Strand.onTeam (x : Strand) (t : Team) : Bool := x.task.any fun k => t.holds k

/-- Whether both streams of a strand have ended. -/
def Strand.over (x : Strand) : Bool := x.a.over && x.e.over

/-- The contexts of a team that have been moved off their strands. -/
def State.movedOf (s : State) (t : Team) : List Parked := s.parked.filter fun p => p.ctx.onTeam t

/-- The strands of the core that hold a task of a team. -/
def State.membersOf (s : State) (t : Team) : List (Fin 4) := t.strands.filter fun st => (s.strand st).onTeam t

/-- Whether a team is parked: every task of it that has not ended is halted, and one is. -/
def State.teamParked (s : State) (t : Team) : Bool :=
  !(s.movedOf t).isEmpty
    || ((s.membersOf t).all (fun st => (s.strand st).over || (s.strand st).halt != .none)
        && (s.membersOf t).any fun st => (s.strand st).halt != .none)

/-- Whether a team is on the active core. -/
def State.here (s : State) (t : Team) : Bool := t.core == s.core

/-- Whether a team runs on the active core. -/
def State.teamRuns (s : State) (t : Team) : Bool := s.here t && !s.teamParked t

/-- Whether a team of a launch runs on this core. -/
def State.launchRuns (s : State) (id : BitVec 32) : Bool := s.teams.any fun t => t.launch == id && s.teamRuns t

/-- Whether a team of a launch is parked on this core. -/
def State.launchParked (s : State) (id : BitVec 32) : Bool := s.teams.any fun t => t.launch == id && s.here t && s.teamParked t

/-- The confidentiality context of a strand: its address space and key slot (R369). -/
def Strand.confid (x : Strand) : BitVec 12 × BitVec 6 := (x.aspace.extractLsb' 0 12, x.aspace.extractLsb' 12 6)

/-- The confidentiality context of a team on the core, if a task of it is bound or parked here. -/
def State.teamConfid (s : State) (t : Team) : Option (BitVec 12 × BitVec 6) :=
  match s.membersOf t, s.movedOf t with
  | st :: _, _ => some (s.strand st).confid
  | [], p :: _ => some p.ctx.confid
  | [], [] => none

/-- The scratchpad bytes of a team's launch: partition and arena. -/
def State.teamSize (s : State) (t : Team) : Nat × Nat :=
  match s.launch t.launch with
  | some l => (l.hdr.scratch, l.hdr.arena)
  | none => (0, 0)

/-- The bounds of a team (R152). -/
def State.teamAcc (s : State) (t : Team) : Acc :=
  let c := (s.teamConfid t).getD (0, 0)
  { asid := c.1, key := c.2, spb := t.base, sps := (s.teamSize t).1, plb := t.arena, pls := (s.teamSize t).2 }

/-- Whether an engine of the core has an operation in flight that touches the partition or the arena of a team, which may be on another core,
or that the team has pushed to the plat engine (R126, R162). -/
def State.touching (s : State) (t : Team) (a : Acc) : Bool :=
  let mine := fun (k : Option Task) => k.any fun u => t.holds u
  (s.channels.toList.any fun c => c.copy.any fun y => s.copyTouches t.core a y)
    || (s.platSlots.toList.any fun p => p.op.any fun o =>
        mine o.task || (o.mem ++ o.plat.pas.flatMap id ++ o.squash.getD [] ++ o.mark.toList).any fun pa => partAt t.core a pa)
    || (s.strands.toList.any fun x => x.net.any fun n =>
        match s.netLocal n with
        | .ok (pas, m) => (pas ++ m.toList).any fun pa => partAt t.core a pa
        | .error _ => false)

/-- Whether an engine of any core has such an operation in flight (R126, R162). -/
def State.touched (s : State) (t : Team) : Bool := s.views.any fun v => v.touching t (s.teamAcc t)

/-- The length of a team's run of scratchpad bytes (R317). -/
def State.runLen (s : State) (t : Team) : Nat := t.arena - t.base + (s.teamSize t).2

/-! ### Halting and moving contexts (R345 to R347) -/

/-- A strand halted by pre-emption: each stream before the instruction in which it waits (R338, R345). -/
def Strand.preempt (x : Strand) (h : Halt) : Strand := { x with a := x.a.backOff, e := x.e.backOff, halt := h }

/-- Whether a context is halted for a reason other than pre-emption, whose end lets it go on. -/
def Strand.waits (x : Strand) : Bool :=
  match x.halt with
  | .rerun | .supervisor .. => true
  | .none | .preempted => false

/-- A pre-emption noted for a context that is halted for another reason (R357). -/
def Strand.noted (x : Strand) : Strand := if x.waits then { x with preDue := true } else x

/-- A strand of the core halted, unless its task has ended. Of one that is halted for another reason the pre-emption is noted (R357). -/
def State.preempt (s : State) (st : Fin 4) (h : Halt) : State :=
  let x := s.strand st
  if x.task.isNone || x.over then s
  else
    match x.halt with
    | .none => (s.dropWaits st).modStrand st fun y => y.preempt h
    | .rerun | .supervisor .. => if h == .preempted then s.modStrand st Strand.noted else s
    | .preempted => s

/-- A strand that no task is bound to any more; its vector state and its NET commands in flight stay with it. -/
def Strand.vacate (x : Strand) : Strand := { x.stopped with task := none }

/-- The contexts of a team moved off their strands, which become free (R347). -/
def State.moveTeam (s : State) (t : Team) : State :=
  (s.membersOf t).foldl (fun u st =>
    let p : Parked := { st := st, ctx := { u.strand st with net := [] } }
    ({ u with parked := u.parked ++ [p] }).modStrand st Strand.vacate) s

/-! ### The matrix state (R221) -/

/-- The matrix state that the next owner finds (R221): contents as the last user left them, nothing queued, pinned or bound. -/
def Matrix.handOver (m : Matrix) : Matrix :=
  { m with
    owner := none
    epi := []
    mq := []
    deep := []
    maps := Vector.replicate 16 none
    slots := m.slots |> mapVec fun b =>
      if b.rowmap then { b with rowmap := false, loaded := false, pin := none } else { b with pin := none } }

/-- The matrix state saved with its owning launch; the core then has no owner (R221, R223). -/
def State.saveMat (s : State) : State :=
  match s.mat.owner with
  | none => s
  | some l => { s with savedMat := (s.savedMat.filter fun p => p.1 != l) ++ [(l, s.mat)], mat := s.mat.handOver }

/-- Every matrix state of the core: its own and those that it has saved. -/
def State.mats (s : State) : List Matrix := s.mat :: s.savedMat.map fun e => e.2

/-- The deep parts of some tasks gone from every matrix state of the core. -/
def State.dropDeep (s : State) (sel : Option Task → Bool) : State :=
  let f := fun (mt : Matrix) => { mt with deep := mt.deep.filter fun d => !sel d.ent.task }
  { s with mat := f s.mat, savedMat := s.savedMat.map fun e => (e.1, f e.2) }

/-- MATRIX_STATE_SAVE (R221): once no team of the owning launch runs on the core and at least one is parked. -/
def execMatrixStateSave (s : State) : Out :=
  match s.mat.owner with
  | none => .next s
  | some l => if s.launchParked l && !s.launchRuns l then .next s.saveMat else .next s

/-- Whether a task of a launch on its strand waits to rerun: for the matrix instructions among what it has pushed (R325). -/
def State.rerunsHere (s : State) (id : BitVec 32) : Bool := s.strands.toList.any fun x => x.of id && x.halt == .rerun

/-- Whether pre-emption has stopped the matrix engine: the owning launch's teams on the core are all parked (R223, R346), and none waits to rerun. -/
def State.engineStopped (s : State) : Bool :=
  match s.mat.owner with
  | none => false
  | some l => s.launchParked l && !s.launchRuns l && !s.rerunsHere l

/-! ### The change of confidentiality context (R369) -/

/-- A parked team's partition and arena saved to memory (R347). -/
def State.saveScr (s : State) (t : Team) : State :=
  if s.scrSaved t then s
  else
    let lo := s.scrBase + t.base
    let hi := lo + s.runLen t
    { s with savedScr := s.savedScr ++
        [{ launch := t.launch
           team := t.team
           bytes := (s.mem.range lo hi).map fun p => (p.1 - s.scrBase, p.2)
           poison := (s.poison.filter fun g => decide (lo ≤ 64 * g) && decide (64 * g < hi)).map fun g => g - s.scrBase / 64 }] }

/-- The coefficient tables that a launch uses on the core kept with it, so that it goes on with them (R348; log 113). -/
def State.saveCoef (s : State) (id : BitVec 32) : State :=
  if s.savedCoef.any fun e => e.1 == id then s
  else { s with savedCoef := s.savedCoef ++ [(id, if s.coefFor.contains id then s.coef else noTables)] }

/-- A parked team saved whole to memory: its contexts, its partition and arena, its launch's coefficient tables (R347, R348, R369). -/
def State.saveTeam (s : State) (t : Team) : State := ((s.moveTeam t).saveScr t).saveCoef t.launch

/-- Everything that R369 clears: tiles, slots, epilogue state, register-die frames, operand and last-result files, the scratchpad, the
coefficient memory. -/
def State.clearCore (s : State) : State :=
  { s with
    mat := Matrix.reset
    coef := noTables
    coefFor := []
    mem := s.mem.clear s.scrBase (s.scrBase + 2 ^ 22)
    poison := s.poison.filter fun g => !s.ownScr (64 * g)
    strands := s.strands |> mapVec fun x =>
      { x with
        v := Vector.replicate 64 0
        p := Vector.replicate 16 0
        o := Vector.replicate 8 0
        l0 := List.replicate 16 0
        l1 := List.replicate 16 0
        bad := [] } }

/-- The core taken into a confidentiality context (R317, R369): none while a team of another runs, or while an engine operation touches
what must be saved. -/
def State.switchTo (s : State) (c : BitVec 12 × BitVec 6) : Option State :=
  let others := s.teams.filter fun t => s.here t && s.teamConfid t != some c
  if others.any s.teamRuns then none
  else if s.lastSpace == none || s.lastSpace == some c then some { s with lastSpace := some c }
  else if others.any s.touched then none
  else
    let s1 := (others.foldl State.saveTeam s).saveMat
    some { s1.clearCore with lastSpace := some c }

/-! ### Bringing a context back (R347, R348) -/

/-- The teams of the core whose bytes a run of the scratchpad meets, but one. -/
def State.inRun (s : State) (skip : Option Team) (base len : Nat) : List Team :=
  s.teams.filter fun u => s.here u && some u != skip && !s.scrSaved u && meets base len u.base (s.runLen u)

/-- A run of the scratchpad made free (R347): the parked teams whose bytes it takes are saved. None while one of them runs, or while an
engine operation touches its bytes. -/
def State.clearRun (s : State) (skip : Option Team) (base len : Nat) : Option State :=
  let us := s.inRun skip base len
  if us.any fun u => s.teamRuns u || s.touched u then none else some (us.foldl State.saveScr s)

/-- A team's saved partition and arena written back at the same offsets, with the poison that was in them. -/
def State.restoreScr (s : State) (t : Team) : State :=
  match s.savedScr.find? fun e => e.launch == t.launch && e.team == t.team with
  | none => s
  | some e =>
    let lo := s.scrBase + t.base
    let hi := lo + s.runLen t
    { s with
      mem := e.bytes.foldl (fun m p => m.set (s.scrBase + p.1) p.2) (s.mem.clear lo hi)
      poison := (s.poison.filter fun g => !(decide (lo ≤ 64 * g) && decide (64 * g < hi))) ++ e.poison.map fun g => s.scrBase / 64 + g
      savedScr := s.savedScr.filter fun q => !(q.launch == t.launch && q.team == t.team) }

/-- Whether a team of the core uses coefficient memory for a launch (R28): its header names an image or the tables have been loaded for it,
and they have not left the core. -/
def State.usesCoef (s : State) (t : Team) (id : BitVec 32) : Bool :=
  s.here t && t.launch == id && (s.coefFor.contains id || (s.launch id).any fun l => l.hdr.coef != 0)
    && !s.savedCoef.any fun e => e.1 == id

/-- The resident teams of the core whose launch's tables have not left it (R28, R348). -/
def State.coefResidents (s : State) : List Team := s.teams.filter fun t => s.here t && !s.savedCoef.any fun e => e.1 == t.launch

/-- Whether coefficient memory lets a team of a launch onto the core (R28): no resident team of another launch uses it, or every resident team names
the same image. -/
def State.coefFits (s : State) (l : Launch) : Bool :=
  s.coefResidents.all (fun t => t.launch == l.id || !s.usesCoef t t.launch)
    || s.coefResidents.all fun t => (s.launch t.launch).any fun m => m.hdr.coef == l.hdr.coef

/-- The tables of a launch back in coefficient memory: none while another launch's are in use there (R28, R348; log 113). Where a launch with
the same image uses the tables now there, they are those of both. -/
def State.restoreCoef (s : State) (id : BitVec 32) : Option State :=
  match s.savedCoef.find? fun e => e.1 == id, s.launch id with
  | some e, some l =>
    let rest := s.savedCoef.filter fun q => q.1 != id
    if !s.coefFits l then none
    else if s.teams.any fun t => t.launch != id && s.usesCoef t t.launch then
      some { s with savedCoef := rest, coefFor := s.coefFor ++ [id] }
    else some { s with savedCoef := rest, coef := e.2, coefFor := [id] }
  | _, _ => some s

/-- Whether the stores and the scalar accesses that have been made on a strand have been done, so that its `ASPACE` can be written (R113,
R299, R304): those of a task that has ended are told from another core's by the strand's number alone, which at most delays the write. The held stores
of a context that has been moved off its strand do not count (log 133). -/
def State.bindQuiet (s : State) (st : Fin 4) : Bool :=
  let away := fun (k : Option Task) => k.any fun u => s.teams.any fun t => t.holds u && !s.here t
  !s.wcbHolds st && !(s.posted.any fun p => p.strand == st)
    && !(s.held.any fun h => h.strand == st && s.heldHere h && !s.parked.any fun p => p.ctx.task == some h.task)
    && !s.stks.toList.any fun x => x.queue.any fun q =>
      match q with
      | .line es => es.any fun e => e.strand == st && !away e.task
      | .store a _ t .. | .load a _ t .. | .read a _ t .. | .atomic a _ t .. => a == st && !away t
      | .work .. => false

/-- Whether a strand can take back a context: it is free and quiet, and its `VLCAP` is that of the context (R113, R181). -/
def State.takesBack (s : State) (p : Parked) : Bool :=
  (s.strand p.st).task.isNone && s.bindQuiet p.st && (s.strand p.st).vlcap == p.ctx.vlcap

/-- A context bound to its strand again: the leaves that its streams had cached go with the write of `ASPACE` (R113). -/
def Strand.rebind (x : Strand) (c : Strand) : Strand :=
  { c with
    net := x.net
    netSeq := x.netSeq
    a := { c.a with tlb := [] }
    e := { c.e with tlb := [] } }

/-- The moved contexts of a team bound to their strands again, still halted: none where a strand, its scratchpad bytes, coefficient memory
or the core's confidentiality context are not free. -/
def State.bringBack (s : State) (t : Team) : Option State :=
  let ps := s.movedOf t
  (s.switchTo ((s.teamConfid t).getD (0, 0))).bind fun s1 =>
    (if s1.scrSaved t then (s1.clearRun (some t) t.base (s1.runLen t)).map fun u => u.restoreScr t else some s1).bind fun s2 =>
      if !ps.all s2.takesBack then none
      else
        (s2.restoreCoef t.launch).map fun s3 =>
          let s4 := ps.foldl (fun u p => u.modStrand p.st fun x => x.rebind p.ctx) s3
          { s4 with parked := s4.parked.filter fun p => !p.ctx.onTeam t }

/-- The state in which a strand holds a context that is halted in a way, in place or brought back, with its team's partition and arena in the
scratchpad (R347). -/
def State.atStrand (s : State) (st : Fin 4) (sel : Halt → Bool) : Option State :=
  if (s.strand st).task.isSome && sel (s.strand st).halt then
    match s.teams.find? fun t => (s.strand st).onTeam t with
    | some t => if s.scrSaved t then (s.clearRun (some t) t.base (s.runLen t)).map fun u => u.restoreScr t else some s
    | none => some s
  else
    match s.parked.find? fun p => p.st == st && sel p.ctx.halt with
    | none => none
    | some p =>
      match s.teams.find? fun t => p.ctx.onTeam t with
      | none => none
      | some t => s.bringBack t

/-- The matrix state as a strand's launch needs it to resume (R221, R223): none where it must wait. A pre-empted launch whose state the
core still holds has its unpinned slots reloaded as well. -/
def State.matReady (s : State) (st : Fin 4) (reload : Bool) : Option State :=
  match (s.strand st).task with
  | none => some s
  | some t =>
    if s.mat.owner == some t.launch then
      if reload && !s.launchRuns t.launch then
        if s.reloadHeld st s.mat then none else some (s.reloadSlots st)
      else some s
    else if s.savedMat.any fun p => p.1 == t.launch then
      if s.mat.owner.isSome then none else s.own st
    else some s

/-- A halted context made ready to go on (R345, R348): at its strand, with the results of every access that had left it, and with its
launch's matrix state; or none where it must wait. A pre-emption that was noted meanwhile takes effect now (R357). -/
def State.unpark (s : State) (st : Fin 4) (sel : Halt → Bool) (reload : Bool) : Option State :=
  (s.atStrand st sel).bind fun s1 =>
    if s1.away st .A || s1.away st .E then none
    else
      (s1.matReady st reload).map fun s2 =>
        s2.modStrand st fun x => { x with halt := if x.preDue then .preempted else .none, preDue := false }

end Sys2Proof.Machine
end

