-- ==== Sys2Proof/Machine/SysReg.lean ====
section
/-! DEFINITION. System registers: major 0x0C (R349 to R352), with the waits of `VSTATUS`, `VSTART` and `VFCNT` (R79, R193), the
checks of `VTYPE` (R80) and of the format registers (R83), and the supervisor's writes of the privileged ones (R104, R113, R183). -/

namespace Sys2Proof.Machine

/-- Whether a strand is live (R179): its task is, or one that has been parked and has given the strand up. -/
def State.liveAt (s : State) (i : Fin 4) : Bool := (s.strand i).live || s.parked.any fun p => p.st == i && p.ctx.live

/-- The live strands of the core, counting one strand as live whatever it is (R179, R180). -/
def State.liveWith (s : State) (st : Fin 4) (counted : Bool) : Nat :=
  (([0, 1, 2, 3] : List (Fin 4)).filter fun i => if i == st then counted else s.liveAt i).length

/-- The power cap in lane groups for a number of live strands (R180). -/
def State.powerCap (s : State) (live : Nat) : Nat := max 1 (fld s.pwrlim 0 5 / live)

/-- `PCAPNOW` (R180, R183). Its field shares a table row with `LATSHARE`, whose reset value is 0; the model reads the power cap in force also
right after reset, 16 (log 135: DESIGN CHOICE). -/
def State.pcapNow (s : State) (st : Fin 4) : Nat := if (s.strand st).det then 16 else s.powerCap (s.liveWith st true)

/-- `IVER` (R350); the stepping is free (log 8). -/
def iver : W64 := 0x01000700#64 ||| Config.stepping.setWidth 64

/-- `FEAT` (R350). -/
def feat : W64 := 0x00F60CF4#64

/-- Whether a number names a privileged register (R349). -/
def sysPriv (n : Nat) : Bool := n == 0x041 || n == 0x042 || n == 0x070 || n == 0x080

/-- Whether a number names a read-only register (R349). -/
def sysRo (n : Nat) : Bool :=
  n == 0x001 || n == 0x002 || n == 0x006 || (0x020 ≤ n && n ≤ 0x024) || (0x030 ≤ n && n ≤ 0x033) || n == 0x040 || n == 0x043
    || (0x050 ≤ n && n ≤ 0x052) || n == 0x060 || n == 0x061 || n == 0x071

/-- Whether a number names a register that programs read and write (R349). -/
def sysRw (n : Nat) : Bool :=
  n == 0x000 || (0x003 ≤ n && n ≤ 0x005) || n == 0x007 || (0x010 ≤ n && n ≤ 0x015) || (0x100 ≤ n && n ≤ 0x107)

/-- The value of a register that is not privileged (R349). -/
def State.sysValue (s : State) (st : Fin 4) (k : StreamId) (n : Nat) : W64 :=
  let x := s.strand st
  match n with
  | 0x000 => x.vtype
  | 0x001 => x.vlc.setWidth 64
  | 0x002 => x.vlr.setWidth 64
  | 0x003 => x.vstart
  | 0x004 => BitVec.ofNat 64 x.vfcnt
  | 0x005 => x.vstatus
  | 0x006 => x.vcp
  | 0x007 => (s.stream st k).sfctl
  | 0x010 => x.tcause
  | 0x011 => x.tpc
  | 0x012 => x.tval
  | 0x013 => x.tvec
  | 0x014 => x.tframe
  | 0x015 => x.tstatus
  | 0x020 => x.wid
  | 0x021 => x.teamix
  | 0x022 => x.lnchid
  | 0x023 => x.lcore
  | 0x024 => BitVec.ofNat 64 st.val
  | 0x030 => x.platbase
  | 0x031 => x.platsize
  | 0x032 => x.spbase
  | 0x033 => x.spsize
  | 0x040 => x.latshare
  | 0x043 => BitVec.ofNat 64 (s.pcapNow st)
  | 0x050 => s.cycle
  | 0x051 => (s.stream st k).instret
  | 0x052 => x.bankser
  | 0x060 => iver
  | 0x061 => feat
  | 0x071 => x.dmode
  | n => x.fr.get (fin 8 n)

/-- Whether a matrix form must have completed before `VSTATUS` is read or written (R79, R219): `MMA`, `ARD`, `AWR`, `RMJOIN`. -/
def statusForm (f : VForm) : Bool :=
  match f with
  | .vec maj f3 _ _ _ => maj == 0x1B && (f3 == 0 || f3 == 3 || f3 == 4)
  | .row func _ _ _ _ _ _ _ _ => func == 3

/-- Whether an access to `VSTATUS`, `VSTART` or `VFCNT` waits (R79, R193). -/
def State.sysWaits (s : State) (st : Fin 4) (n : Nat) : Bool :=
  (0x003 ≤ n && n ≤ 0x005 && !(s.strand st).viq.isEmpty)
    || (n == 0x005 && s.mat.mq.any fun e => e.task == (s.strand st).task && statusForm e.ent.form)

/-- The first three checks of R351 with their traps, then what follows them. -/
def State.sysAccess (s : State) (st : Fin 4) (k : StreamId) (n : Nat) (go : State) : State :=
  if !(sysPriv n || sysRo n || sysRw n) then s.illegal st k 0x17
  else if sysPriv n then s.trap st k cPriv (BitVec.ofNat 64 n)
  else if n ≤ 0x006 && k == .A then s.illegal st k 0x05
  else go

/-- A read of a system register (R351, R352). -/
def State.sysRead (s : State) (st : Fin 4) (k : StreamId) (rd : Reg) (n : Nat) : State :=
  s.sysAccess st k n (if s.sysWaits st n then s else s.done st k rd (s.sysValue st k n))

/-- Whether a value has no non-zero reserved bit and no reserved value for the register written (R4, R342, R193, R77, R78). In
`TCAUSE` any cause counts as none reserved (log 140). -/
def sysOk (n : Nat) (v : W64) : Bool :=
  match n with
  | 0x003 => fitsIn v 16
  | 0x004 => fitsIn v 16
  | 0x005 => vstatusOk v
  | 0x007 => sfctlOk v
  | 0x010 => fitsIn v 8
  | 0x013 => fld v 0 2 == 0
  | 0x014 => fld v 0 6 == 0
  | 0x015 => fitsIn v 6
  | _ => true

/-- A register that programs write, written (R349); `VFCNT` changes only by a write of 0, and inh of `TSTATUS` by none. A format register
is read when an instruction commits, so that a write reaches the older instructions that are still in the VIQ (log 95). -/
def State.sysPut (s : State) (st : Fin 4) (k : StreamId) (n : Nat) (v : W64) : State :=
  match n with
  | 0x000 => s.modStrand st fun x => { x with vtype := v }
  | 0x003 => s.modStrand st fun x => { x with vstart := v }
  | 0x004 => if v == 0 then s.modStrand st fun x => { x with mask := 0 } else s
  | 0x005 => s.modStrand st fun x => { x with vstatus := v }
  | 0x007 => s.modStream st k fun t => { t with sfctl := v }
  | 0x010 => s.modStrand st fun x => { x with tcause := v }
  | 0x011 => s.modStrand st fun x => { x with tpc := v }
  | 0x012 => s.modStrand st fun x => { x with tval := v }
  | 0x013 => s.modStrand st fun x => { x with tvec := v }
  | 0x014 => s.modStrand st fun x => { x with tframe := v }
  | 0x015 => s.modStrand st fun x => { x with tstatus := (v &&& ~~~1#64) ||| (x.tstatus &&& 1#64) }
  | n => s.modStrand st fun x => { x with fr := x.fr.set (fin 8 n).val v (fin 8 n).isLt }

/-- A write of a system register (R351, R352). -/
def State.sysWrite (s : State) (st : Fin 4) (k : StreamId) (n : Nat) (v : W64) : State :=
  s.sysAccess st k n
    (if sysRo n then s.illegal st k 0x18
     else if n == 0x000 && !vtypeOk v then s.trap st k cFormat v
     else if 0x100 ≤ n && !frLegal v then s.trap st k cFormat v
     else if !sysOk n v then s.illegal st k 0x19
     else if n == 0x000 && (fld v 0 3 != fld (s.strand st).vtype 0 3 || fld v 9 3 != fld (s.strand st).vtype 9 3) then
       s.illegal st k 0x18
     else if s.sysWaits st n then s
     else (s.sysPut st k n v).retire st k)

/-- SYSR of a register without a row of its own (R352). -/
def execSysr (rd : Reg) (reg : BitVec 11) (s : State) : Out := onStream s fun st k => s.sysRead st k rd reg.toNat
/-- SYSR of `VSTATUS` (R77, R79). -/
def execVstatusRead (rd : Reg) (s : State) : Out := onStream s fun st k => s.sysRead st k rd 0x005
/-- SYSR of `VSTART` (R193). -/
def execVstartRead (rd : Reg) (s : State) : Out := onStream s fun st k => s.sysRead st k rd 0x003
/-- SYSR of `VFCNT` (R193). -/
def execVfcntRead (rd : Reg) (s : State) : Out := onStream s fun st k => s.sysRead st k rd 0x004
/-- SYSW of a register without a row of its own (R352). -/
def execSysw (reg : BitVec 11) (rs : Reg) (s : State) : Out :=
  onStream s fun st k => s.sysWrite st k reg.toNat (s.readX st k rs)
/-- SYSW of `VTYPE` (R80, R351). -/
def execVtypeWrite (rs : Reg) (s : State) : Out := onStream s fun st k => s.sysWrite st k 0x000 (s.readX st k rs)
/-- SYSW of `VSTART` (R193). -/
def execVstartWrite (rs : Reg) (s : State) : Out := onStream s fun st k => s.sysWrite st k 0x003 (s.readX st k rs)
/-- SYSW of `VFCNT` (R193). -/
def execVfcntWrite (rs : Reg) (s : State) : Out := onStream s fun st k => s.sysWrite st k 0x004 (s.readX st k rs)
/-- SYSW of `VSTATUS` (R77, R79). -/
def execVstatusWrite (rs : Reg) (s : State) : Out := onStream s fun st k => s.sysWrite st k 0x005 (s.readX st k rs)
/-- SYSW of a format register (R82, R83). -/
def execFrset (n : BitVec 3) (rs : Reg) (s : State) : Out :=
  onStream s fun st k => s.sysWrite st k (0x100 + n.toNat) (s.readX st k rs)
/-- SYSW of `TSTATUS` (R342, R351). -/
def execTstatusWrite (rs : Reg) (s : State) : Out := onStream s fun st k => s.sysWrite st k 0x015 (s.readX st k rs)

/-! ### Writes of the supervisor -/

/-- Whether the accesses that a write of `ASPACE` waits for have been done (R113); a store held for a wave fence is one in the write-combining
buffer (R304). -/
def State.spaceQuiet (s : State) (st : Fin 4) : Bool :=
  !((s.strand st).viq.any fun e => memForm e.form) && !s.wcbHolds st && !s.stackHolds st .A && !s.stackHolds st .E
    && !(s.posted.any fun p => p.strand == st) && !s.held.any fun h => h.strand == st && s.heldHere h

/-- The reserved bits of `ASPACE` (R112). -/
def aspaceOk (v : W64) : Bool := fld v 18 2 == 0

/-- A supervisor write that holds a reserved value or bit (R4, R183): `ILLEGAL` with subcode 0x19 on the supervisor core. -/
def State.supReserved (s : State) : State := s.supTrap cIllegal (illVal 0x19 0)

/-- A supervisor write of `ASPACE` (R112, R113): it waits for the strand's accesses, and drops its cached leaves. A reserved bit
traps on the supervisor core (R4). -/
def execAspaceWrite (st : Fin 4) (v : W64) (s : State) : Out :=
  if !aspaceOk v then .next s.supReserved
  else if s.spaceQuiet st then
    .next (s.modStrand st fun x => { x with aspace := v, a := { x.a with tlb := [] }, e := { x.e with tlb := [] } })
  else .next s

/-- Whether a strand stands between tasks: no task is bound to it, or its task has executed nothing yet (R181). -/
def Strand.betweenTasks (x : Strand) : Bool := x.task.isNone || (x.a.instret == 0 && x.e.instret == 0 && x.viq.isEmpty)

/-- A supervisor write of `VLCAP` (R181, R183), between tasks only: a value outside 0 to 6 traps on the supervisor core. -/
def execVlcapWrite (st : Fin 4) (v : W64) (s : State) : Out :=
  if 7 ≤ v.toNat then .next s.supReserved
  else if (s.strand st).betweenTasks then .next (s.modStrand st fun x => { x with vlcap := v })
  else .next s

/-- A supervisor write of `PWRLIM` (R183): a value outside 1 to 16 traps on the supervisor core. -/
def execPwrlimWrite (v : W64) (s : State) : Out :=
  if 1 ≤ v.toNat && v.toNat ≤ 16 then .next { s with pwrlim := v } else .next s.supReserved

/-- A stack of the module changed. -/
def State.modStack (s : State) (n : Fin 24) (f : Stack → Stack) : State :=
  { s with stks := s.stks.set n.val (f (s.stks.get n)) n.isLt }

/-- Whether a value of `STKREF` is one that R104 lists. -/
def stkrefOk (v : W64) : Bool := fld v 5 26 == 0 && 6 ≤ fld v 0 5 && fld v 0 5 ≤ 16

/-- The state of the neighbour-refresh generator in test mode: the seed, 0 taken as 1 (R104, R105). -/
def seedOf (v : W64) : W64 := if fld v 32 32 == 0 then 1 else BitVec.ofNat 64 (fld v 32 32)

/-- An MMIO write of `STKREF` (R104): a reserved value returns an error and changes nothing; test written from 0 to 1 restarts the
generator. -/
def execStkrefWrite (n : Fin 24) (v : W64) (s : State) : Out :=
  if stkrefOk v then
    .next (s.modStack n fun x =>
      if v.getLsbD 31 && !x.stkref.getLsbD 31 then { x with stkref := v, gen := seedOf v, steps := 0 } else { x with stkref := v })
  else .next { s with sent := s.sent ++ [.mmioError n.val] }

/-- An MMIO write of `STKECC` (R104): a write of 0 to both fields clears them, any other leaves the counts. -/
def execStkeccWrite (n : Fin 24) (v : W64) (s : State) : Out :=
  if v == 0 then .next (s.modStack n fun x => { x with stkecc := 0 }) else .next s

end Sys2Proof.Machine
end

