-- ==== Sys2Proof/Machine/Setl.lean ====
section
/-! DEFINITION. SETL (R178 to R185) and VPF (R173, R186). -/

namespace Sys2Proof.Machine

/-- The tasks of a whole team of the strand's launch (S of R182). -/
def State.tasksPerTeam (s : State) (st : Fin 4) : Nat :=
  match s.launchOf st with
  | some l => l.hdr.z
  | none => 1

/-- The lane allocation table's share of a strand among a number of live ones (R179). -/
def State.latShare (s : State) (st : Fin 4) (live : Nat) : Nat :=
  let below := (([0, 1, 2, 3] : List (Fin 4)).filter fun i => decide (i < st) && s.liveAt i).length
  16 / live + if below < 16 % live then 1 else 0

/-- The columns that a strand is granted and its share (R182, R185). -/
def State.grant (s : State) (st : Fin 4) (vt : W64) (cols : Nat) : Nat × Nat :=
  let x := s.strand st
  let vis := vismax x.vlcap vt
  if x.det then (min cols vis, 16 / s.tasksPerTeam st)
  else
    let live := s.liveWith st (decide (0 < cols))
    let share := if live == 0 then 0 else s.latShare st live
    let pc := s.powerCap (max 1 live)
    (min (min cols vis) (min (share * 4096 / vtSew vt) (pc * 4096 / vtSew vt)), share)

/-- SETL by an E-stream (R185). -/
def State.setl (s : State) (st : Fin 4) (rd rs1 rs2 : Reg) (vt : W64) : State :=
  if !vtypeOk vt then s.trap st .E cFormat vt
  else
    let rows := (s.readX st .E rs1).toNat
    let g := s.grant st vt (s.readX st .E rs2).toNat
    let s1 := s.modStrand st fun x =>
      { x with
        vtype := vt
        cap := x.vlcap
        vlr := BitVec.ofNat 5 (min rows (vtG vt))
        vlc := BitVec.ofNat 16 g.1
        live := g.1 != 0
        latshare := if g.1 == 0 then 0 else BitVec.ofNat 64 g.2 }
    s1.done st .E rd (BitVec.ofNat 64 g.1)

/-- SETL (R185, R67). -/
def execSetl (rd rs1 rs2 : Reg) (vt : W32) (s : State) : Out :=
  onStream s fun st k => if k == .A then s.illegal st k 0x05 else s.setl st rd rs1 rs2 (vt.setWidth 64)

/-- VPF at its commit (R186): whole rows, whatever the grant. -/
def commitVpf (x : Strand) (e : VEntry) (o : VOp) (_m : Ext) : VRes :=
  .done ((List.range (vtG e.vtype)).foldl (fun y r => y.writeRow o.vd r (x.readRow o.vs1 r)) x) 0

/-- VPF at the front end (R186, R277). -/
def execVpf (od vs1 : Spec) (s : State) : Out :=
  onStream s fun st k => s.frontEnd st k (.vec 0x11 0 { vd := od, vs1 := vs1, vs2 := 0 } Ext.base none)

/-- VPF with its extended words at the front end (R186, R277). -/
def execVpfExt (od vs1 : Spec) (s : State) : Out :=
  onStream s fun st k => s.frontEnd st k (.vec 0x11 0 { vd := od, vs1 := vs1, vs2 := 0 } Ext.base none)

end Sys2Proof.Machine
end

