-- ==== Sys2Proof/Machine/Vfp.lean ====
section
/-! DEFINITION. Vector floating point: majors 0x15 and 0x16 (R200, R201) and the polynomials of `VPOLY` (R98, R213), each with its
front end and its commit. -/

namespace Sys2Proof.Machine

/-! ### Major 0x15 (R200) -/

/-- VFADD at its commit (R200). -/
def commitVfadd (x : Strand) (e : VEntry) (o : VOp) (m : Ext) : VRes := x.fpLanes e o m fun t rm a b _ => t.fadd rm a b
/-- VFSUB at its commit (R200). -/
def commitVfsub (x : Strand) (e : VEntry) (o : VOp) (m : Ext) : VRes := x.fpLanes e o m fun t rm a b _ => t.fsub rm a b
/-- VFMUL at its commit (R200). -/
def commitVfmul (x : Strand) (e : VEntry) (o : VOp) (m : Ext) : VRes := x.fpLanes e o m fun t rm a b _ => t.fmul rm a b
/-- VFMA at its commit (R200): FX[1] negates the product, FX[0] the addend. -/
def commitVfma (x : Strand) (e : VEntry) (o : VOp) (m : Ext) : VRes :=
  x.fpLanes e o m fun t rm a b d => t.ffma rm (m.fx.getLsbD 1) (m.fx.getLsbD 0) a b d
/-- VFDIV at its commit (R200). -/
def commitVfdiv (x : Strand) (e : VEntry) (o : VOp) (m : Ext) : VRes := x.fpLanes e o m fun t rm a b _ => t.fdiv rm a b
/-- VFSQRT at its commit (R200). -/
def commitVfsqrt (x : Strand) (e : VEntry) (o : VOp) (m : Ext) : VRes := x.fpLanes e o m fun t rm a _ _ => t.fsqrt rm a
/-- VFMIN at its commit (R200): minimumNumber, or minimum under FX[0]. -/
def commitVfmin (x : Strand) (e : VEntry) (o : VOp) (m : Ext) : VRes :=
  x.fpLanes e o m fun t _ a b _ => t.minMax false (!m.fx.getLsbD 0) a b
/-- VFMAX at its commit (R200): maximumNumber, or maximum under FX[0]. -/
def commitVfmax (x : Strand) (e : VEntry) (o : VOp) (m : Ext) : VRes :=
  x.fpLanes e o m fun t _ a b _ => t.minMax true (!m.fx.getLsbD 0) a b

/-! ### Major 0x16 (R200, R201) -/

/-- The sign bit of w bits replaced. -/
def withSignBit (w a : Nat) (neg : Bool) : Nat := a % 2 ^ (w - 1) + if neg then 2 ^ (w - 1) else 0

/-- VFSGN at its commit (R201). -/
def commitVfsgn (x : Strand) (e : VEntry) (o : VOp) (m : Ext) : VRes :=
  x.rawLanes e o m fun t a b =>
    let f := m.fx.extractLsb' 0 2
    (withSignBit t.width a (if f == 0 then t.sign b else if f == 1 then !t.sign b else t.sign a != t.sign b), 0)

/-- VFSCL at its commit (R200): vs2 holds integers. Beyond 5,000 places either way the result is the same zero or overflow. -/
def commitVfscl (x : Strand) (e : VEntry) (o : VOp) (m : Ext) : VRes :=
  match vtFp e.vtype with
  | none => x.badFormat e
  | some t =>
    x.lanes e o m t.width fun r c =>
      let a := t.dazBits (vtDaz e.vtype) (x.src o.vs1 m.rep1 t.width r c)
      let k := clampInt (-5000, 5000) (readInt t.width true (x.src o.vs2 m.rep2 t.width r c))
      t.ftzBits (vtFtz e.vtype) (t.pack (vecRm e.vtype m.rnd) ((t.decode a).scale k))

/-- VFCLS at its commit (R201). -/
def commitVfcls (x : Strand) (e : VEntry) (o : VOp) (m : Ext) : VRes := x.rawLanes e o m fun t a _ => (t.classify a, 0)

/-- The sum of `VTWOS` rounded to nearest even, or what the rounding left; NV and OF as the addition sets them (R201). -/
def twoSum (t : Fmt) (err : Bool) (a b : Nat) : Nat × Flags :=
  let sum := Num.add 0 (t.decode a) (t.decode b)
  let s := t.pack 0 sum
  let fl := s.2 &&& (flagNV ||| flagOF)
  if !err then (s.1, fl)
  else
    match t.decode s.1 with
    | .fin n k g => ((t.pack 0 (Num.add 0 sum (.fin (!n) k g))).1, fl)
    | _ => (0, fl)

/-- VTWOS at its commit (R201). -/
def commitVtwos (x : Strand) (e : VEntry) (o : VOp) (m : Ext) : VRes :=
  x.rawLanes e o m fun t a b =>
    twoSum t (m.fx.getLsbD 0) (t.dazBits (vtDaz e.vtype) a) (t.dazBits (vtDaz e.vtype) b)

/-! ### Polynomials (R98, R213) -/

/-- A number of a coefficient table's image at a byte offset (R49). -/
def CoefTable.num (t : CoefTable) (off n : Nat) : Nat := leNat (Tab.read t off n)

/-- One FP32 step rounded to nearest even, with the NV it sets. -/
def poly32 (x : Num) : Nat × Flags :=
  let r := Fmt.fp32.pack 0 x
  (r.1, r.2 &&& flagNV)

/-- x + n * w fused (R98). -/
def polyPoint (x0 w n : Nat) : Nat × Flags :=
  poly32 (Num.fma 0 (.fin false n 0) (Fmt.fp32.decode w) (Fmt.fp32.decode x0))

/-- The segment of R98: q rounded down and clamped; free where q is a NaN (log 22). -/
def polySeg (q nseg : Nat) (free : Nat) : Nat :=
  match Fmt.fp32.decode q with
  | .nan _ => free % nseg
  | .inf neg => if neg then 0 else nseg - 1
  | .fin neg m e => (clampInt (0, nseg - 1) (roundInt 2 neg m e).1).toNat

/-- The Horner steps of R98 from a coefficient down. -/
def polyHorner (c : Nat → Nat) (t : Nat) : Nat → Nat × Flags → Nat × Flags
  | 0, p => p
  | j + 1, p =>
    let r := poly32 (Num.fma 0 (Fmt.fp32.decode p.1) (Fmt.fp32.decode t) (Fmt.fp32.decode (c j)))
    polyHorner c t j (r.1, p.2 ||| r.2)

/-- R98 on one element. A clamp comparison with a NaN x0 or top is false and sets no flag: whether one with a quiet NaN is an invalid operation the
spec does not say (log 136: DESIGN CHOICE). -/
def polyEval (t : CoefTable) (daz ftz : Bool) (bits : Nat) : Nat × Flags :=
  let f := Fmt.fp32
  let x0 := t.num 0 4
  let w := t.num 4 4
  let invw := t.num 8 4
  let nseg := t.num 0x0C 2
  let d := min 7 (t.num 0x0E 1)
  let clamp := t.num 0x0F 1
  if f.isNan bits then (f.canon, if f.isSig bits then flagNV else 0)
  else
    let xa := f.dazBits daz bits
    let top := polyPoint x0 w nseg
    let xb := if clamp % 2 == 1 && Num.lt (f.decode xa) (f.decode x0) then x0 else xa
    let xc := if clamp / 2 % 2 == 1 && Num.lt (f.decode top.1) (f.decode xb) then top.1 else xb
    let dx := poly32 (Num.add 0 (f.decode xc) (f.decode x0).neg)
    let q := poly32 (Num.mul (f.decode dx.1) (f.decode invw))
    let seg := polySeg q.1 nseg (Config.polySegment xc x0 w invw)
    let base := polyPoint x0 w seg
    let u := poly32 (Num.add 0 (f.decode xc) (f.decode base.1).neg)
    let c := fun (j : Nat) => t.num (0x20 + 32 * seg + 4 * j) 4
    let p := polyHorner c u.1 d (c d, top.2 ||| dx.2 ||| q.2 ||| base.2 ||| u.2)
    let v := if f.isNan p.1 then f.canon else p.1
    (if ftz && f.isSub v then f.zeroBits (f.sign v) else v, p.2)

/-- VPOLY at its commit, with the two coefficient tables as they stand (R213). -/
def commitVpoly (coef : Vector CoefTable 2) (x : Strand) (e : VEntry) (o : VOp) (m : Ext) : VRes :=
  let i : Fin 2 := if m.fx.getLsbD 0 then 1 else 0
  let t := coef.get i
  if vtKind e.vtype != 0 || fld e.vtype 0 3 != 3 then x.badFormat e
  else if t.num 0x0C 2 == 0 then .trap x cFormat (BitVec.ofNat 64 i.val)
  else
    x.lanes e o m 32 fun r c => polyEval t (vtDaz e.vtype) (vtFtz e.vtype) (x.src o.vs1 m.rep1 32 r c)

/-! ### The front end -/

/-- VFADD at the front end (R200, R277). -/
def execVfadd (o : VOp) (s : State) : Out := onStream s fun st k => s.frontEnd st k (.vec 0x15 0 o Ext.base none)
/-- VFADD with its extended words at the front end (R200, R277). -/
def execVfaddExt (o : VOp) (x : Ext) (s : State) : Out := onStream s fun st k => s.frontEnd st k (.vec 0x15 0 o x none)
/-- VFSUB at the front end (R200, R277). -/
def execVfsub (o : VOp) (s : State) : Out := onStream s fun st k => s.frontEnd st k (.vec 0x15 1 o Ext.base none)
/-- VFSUB with its extended words at the front end (R200, R277). -/
def execVfsubExt (o : VOp) (x : Ext) (s : State) : Out := onStream s fun st k => s.frontEnd st k (.vec 0x15 1 o x none)
/-- VFMUL at the front end (R200, R277). -/
def execVfmul (o : VOp) (s : State) : Out := onStream s fun st k => s.frontEnd st k (.vec 0x15 2 o Ext.base none)
/-- VFMUL with its extended words at the front end (R200, R277). -/
def execVfmulExt (o : VOp) (x : Ext) (s : State) : Out := onStream s fun st k => s.frontEnd st k (.vec 0x15 2 o x none)
/-- VFMA at the front end (R200, R277). -/
def execVfma (o : VOp) (x : Ext) (s : State) : Out := onStream s fun st k => s.frontEnd st k (.vec 0x15 3 o x none)
/-- VFDIV at the front end (R200, R277). -/
def execVfdiv (o : VOp) (s : State) : Out := onStream s fun st k => s.frontEnd st k (.vec 0x15 4 o Ext.base none)
/-- VFDIV with its extended words at the front end (R200, R277). -/
def execVfdivExt (o : VOp) (x : Ext) (s : State) : Out := onStream s fun st k => s.frontEnd st k (.vec 0x15 4 o x none)
/-- VFSQRT at the front end (R200, R277). -/
def execVfsqrt (o : VOp) (s : State) : Out := onStream s fun st k => s.frontEnd st k (.vec 0x15 5 o Ext.base none)
/-- VFSQRT with its extended words at the front end (R200, R277). -/
def execVfsqrtExt (o : VOp) (x : Ext) (s : State) : Out := onStream s fun st k => s.frontEnd st k (.vec 0x15 5 o x none)
/-- VFMIN at the front end (R200, R277). -/
def execVfmin (o : VOp) (s : State) : Out := onStream s fun st k => s.frontEnd st k (.vec 0x15 6 o Ext.base none)
/-- VFMIN with its extended words at the front end (R200, R277). -/
def execVfminExt (o : VOp) (x : Ext) (s : State) : Out := onStream s fun st k => s.frontEnd st k (.vec 0x15 6 o x none)
/-- VFMAX at the front end (R200, R277). -/
def execVfmax (o : VOp) (s : State) : Out := onStream s fun st k => s.frontEnd st k (.vec 0x15 7 o Ext.base none)
/-- VFMAX with its extended words at the front end (R200, R277). -/
def execVfmaxExt (o : VOp) (x : Ext) (s : State) : Out := onStream s fun st k => s.frontEnd st k (.vec 0x15 7 o x none)
/-- VFSGN at the front end (R201, R277). -/
def execVfsgn (o : VOp) (s : State) : Out := onStream s fun st k => s.frontEnd st k (.vec 0x16 0 o Ext.base none)
/-- VFSGN with its extended words at the front end (R201, R277). -/
def execVfsgnExt (o : VOp) (x : Ext) (s : State) : Out := onStream s fun st k => s.frontEnd st k (.vec 0x16 0 o x none)
/-- VFSCL at the front end (R200, R277). -/
def execVfscl (o : VOp) (s : State) : Out := onStream s fun st k => s.frontEnd st k (.vec 0x16 1 o Ext.base none)
/-- VFSCL with its extended words at the front end (R200, R277). -/
def execVfsclExt (o : VOp) (x : Ext) (s : State) : Out := onStream s fun st k => s.frontEnd st k (.vec 0x16 1 o x none)
/-- VFCLS at the front end (R201, R277). -/
def execVfcls (o : VOp) (s : State) : Out := onStream s fun st k => s.frontEnd st k (.vec 0x16 2 o Ext.base none)
/-- VFCLS with its extended words at the front end (R201, R277). -/
def execVfclsExt (o : VOp) (x : Ext) (s : State) : Out := onStream s fun st k => s.frontEnd st k (.vec 0x16 2 o x none)
/-- VPOLY at the front end (R213, R277). -/
def execVpoly (o : VOp) (s : State) : Out := onStream s fun st k => s.frontEnd st k (.vec 0x16 3 o Ext.base none)
/-- VPOLY with its extended words at the front end (R213, R277). -/
def execVpolyExt (o : VOp) (x : Ext) (s : State) : Out := onStream s fun st k => s.frontEnd st k (.vec 0x16 3 o x none)
/-- VTWOS at the front end (R201, R277). -/
def execVtwos (o : VOp) (s : State) : Out := onStream s fun st k => s.frontEnd st k (.vec 0x16 4 o Ext.base none)
/-- VTWOS with its extended words at the front end (R201, R277). -/
def execVtwosExt (o : VOp) (x : Ext) (s : State) : Out := onStream s fun st k => s.frontEnd st k (.vec 0x16 4 o x none)

end Sys2Proof.Machine
end

