-- ==== Sys2Proof/Machine/Vint.lean ====
section
/-! DEFINITION. Vector integer instructions: majors 0x13 and 0x14 (R199), each with its front end and its commit. Elements are of
SEW bits; nothing rounds and no flag is set (R72). -/

namespace Sys2Proof.Machine

/-! ### Functions of two elements of n bits and, for `VMAC`, the old destination -/

/-- A result wrapped, or clamped to the range of a signedness (R72). -/
def wrapOr (sat sgn : Bool) (n : Nat) (i : Int) : Nat := lowBits n (if sat then clampInt (intRange n sgn) i else i)

/-- Whether FX[0] selects signed. -/
def fxSigned (m : Ext) : Bool := !m.fx.getLsbD 0

/-- VADD at its commit (R199). -/
def commitVadd (x : Strand) (e : VEntry) (o : VOp) (m : Ext) : VRes :=
  let rd := readInt e.sew (fxSigned m)
  x.intLanes e o m fun a b _ => wrapOr m.sat (fxSigned m) e.sew (rd a + rd b)
/-- VSUB at its commit (R199). -/
def commitVsub (x : Strand) (e : VEntry) (o : VOp) (m : Ext) : VRes :=
  let rd := readInt e.sew (fxSigned m)
  x.intLanes e o m fun a b _ => wrapOr m.sat (fxSigned m) e.sew (rd a - rd b)
/-- VMUL at its commit (R199). -/
def commitVmul (x : Strand) (e : VEntry) (o : VOp) (m : Ext) : VRes :=
  let rd := readInt e.sew (fxSigned m)
  x.intLanes e o m fun a b _ => wrapOr m.sat (fxSigned m) e.sew (rd a * rd b)
/-- VMULH at its commit (R199): bits [2n - 1 : n] of the exact product. -/
def commitVmulh (x : Strand) (e : VEntry) (o : VOp) (m : Ext) : VRes :=
  let sa := m.fx.extractLsb' 0 2 != 1
  let sb := m.fx.extractLsb' 0 2 == 0
  x.intLanes e o m fun a b _ => lowBits (2 * e.sew) (readInt e.sew sa a * readInt e.sew sb b) / 2 ^ e.sew
/-- VAND at its commit (R199). -/
def commitVand (x : Strand) (e : VEntry) (o : VOp) (m : Ext) : VRes := x.intLanes e o m fun a b _ => a &&& b
/-- VOR at its commit (R199). -/
def commitVor (x : Strand) (e : VEntry) (o : VOp) (m : Ext) : VRes := x.intLanes e o m fun a b _ => a ||| b
/-- VXOR at its commit (R199). -/
def commitVxor (x : Strand) (e : VEntry) (o : VOp) (m : Ext) : VRes := x.intLanes e o m fun a b _ => a ^^^ b
/-- VMIN at its commit (R199). -/
def commitVmin (x : Strand) (e : VEntry) (o : VOp) (m : Ext) : VRes :=
  let rd := readInt e.sew (fxSigned m)
  x.intLanes e o m fun a b _ => if rd b < rd a then b else a
/-- VMAX at its commit (R199). -/
def commitVmax (x : Strand) (e : VEntry) (o : VOp) (m : Ext) : VRes :=
  let rd := readInt e.sew (fxSigned m)
  x.intLanes e o m fun a b _ => if rd a < rd b then b else a
/-- VSLL at its commit (R199). -/
def commitVsll (x : Strand) (e : VEntry) (o : VOp) (m : Ext) : VRes :=
  x.intLanes e o m fun a b _ => a * 2 ^ (b % e.sew) % 2 ^ e.sew
/-- VSRL at its commit (R199). -/
def commitVsrl (x : Strand) (e : VEntry) (o : VOp) (m : Ext) : VRes :=
  x.intLanes e o m fun a b _ => a / 2 ^ (b % e.sew)
/-- VSRA at its commit (R199). -/
def commitVsra (x : Strand) (e : VEntry) (o : VOp) (m : Ext) : VRes :=
  x.intLanes e o m fun a b _ => lowBits e.sew (readInt e.sew true a / 2 ^ (b % e.sew))
/-- VADDS at its commit (R199). -/
def commitVadds (x : Strand) (e : VEntry) (o : VOp) (m : Ext) : VRes :=
  let rd := readInt e.sew (fxSigned m)
  x.intLanes e o m fun a b _ => wrapOr true (fxSigned m) e.sew (rd a + rd b)
/-- VSUBS at its commit (R199). -/
def commitVsubs (x : Strand) (e : VEntry) (o : VOp) (m : Ext) : VRes :=
  let rd := readInt e.sew (fxSigned m)
  x.intLanes e o m fun a b _ => wrapOr true (fxSigned m) e.sew (rd a - rd b)
/-- VMAC at its commit (R199): the old destination is a source. -/
def commitVmac (x : Strand) (e : VEntry) (o : VOp) (m : Ext) : VRes :=
  let rd := readInt e.sew (fxSigned m)
  x.intLanes e o m fun a b d => wrapOr m.sat (fxSigned m) e.sew (rd d + rd a * rd b)
/-- VABSD at its commit (R199): the exact distance as unsigned bits. -/
def commitVabsd (x : Strand) (e : VEntry) (o : VOp) (m : Ext) : VRes :=
  let rd := readInt e.sew (fxSigned m)
  x.intLanes e o m fun a b _ => (rd a - rd b).natAbs % 2 ^ e.sew

/-! ### The front end -/

/-- VADD at the front end (R199, R277). -/
def execVadd (o : VOp) (s : State) : Out := onStream s fun st k => s.frontEnd st k (.vec 0x13 0 o Ext.base none)
/-- VADD with its extended words at the front end (R199, R277). -/
def execVaddExt (o : VOp) (x : Ext) (s : State) : Out := onStream s fun st k => s.frontEnd st k (.vec 0x13 0 o x none)
/-- VSUB at the front end (R199, R277). -/
def execVsub (o : VOp) (s : State) : Out := onStream s fun st k => s.frontEnd st k (.vec 0x13 1 o Ext.base none)
/-- VSUB with its extended words at the front end (R199, R277). -/
def execVsubExt (o : VOp) (x : Ext) (s : State) : Out := onStream s fun st k => s.frontEnd st k (.vec 0x13 1 o x none)
/-- VMUL at the front end (R199, R277). -/
def execVmul (o : VOp) (s : State) : Out := onStream s fun st k => s.frontEnd st k (.vec 0x13 2 o Ext.base none)
/-- VMUL with its extended words at the front end (R199, R277). -/
def execVmulExt (o : VOp) (x : Ext) (s : State) : Out := onStream s fun st k => s.frontEnd st k (.vec 0x13 2 o x none)
/-- VMULH at the front end (R199, R277). -/
def execVmulh (o : VOp) (s : State) : Out := onStream s fun st k => s.frontEnd st k (.vec 0x13 3 o Ext.base none)
/-- VMULH with its extended words at the front end (R199, R277). -/
def execVmulhExt (o : VOp) (x : Ext) (s : State) : Out := onStream s fun st k => s.frontEnd st k (.vec 0x13 3 o x none)
/-- VAND at the front end (R199, R277). -/
def execVand (o : VOp) (s : State) : Out := onStream s fun st k => s.frontEnd st k (.vec 0x13 4 o Ext.base none)
/-- VAND with its extended words at the front end (R199, R277). -/
def execVandExt (o : VOp) (x : Ext) (s : State) : Out := onStream s fun st k => s.frontEnd st k (.vec 0x13 4 o x none)
/-- VOR at the front end (R199, R277). -/
def execVor (o : VOp) (s : State) : Out := onStream s fun st k => s.frontEnd st k (.vec 0x13 5 o Ext.base none)
/-- VOR with its extended words at the front end (R199, R277). -/
def execVorExt (o : VOp) (x : Ext) (s : State) : Out := onStream s fun st k => s.frontEnd st k (.vec 0x13 5 o x none)
/-- VXOR at the front end (R199, R277). -/
def execVxor (o : VOp) (s : State) : Out := onStream s fun st k => s.frontEnd st k (.vec 0x13 6 o Ext.base none)
/-- VXOR with its extended words at the front end (R199, R277). -/
def execVxorExt (o : VOp) (x : Ext) (s : State) : Out := onStream s fun st k => s.frontEnd st k (.vec 0x13 6 o x none)
/-- VMIN at the front end (R199, R277). -/
def execVmin (o : VOp) (s : State) : Out := onStream s fun st k => s.frontEnd st k (.vec 0x13 7 o Ext.base none)
/-- VMIN with its extended words at the front end (R199, R277). -/
def execVminExt (o : VOp) (x : Ext) (s : State) : Out := onStream s fun st k => s.frontEnd st k (.vec 0x13 7 o x none)
/-- VMAX at the front end (R199, R277). -/
def execVmax (o : VOp) (s : State) : Out := onStream s fun st k => s.frontEnd st k (.vec 0x14 0 o Ext.base none)
/-- VMAX with its extended words at the front end (R199, R277). -/
def execVmaxExt (o : VOp) (x : Ext) (s : State) : Out := onStream s fun st k => s.frontEnd st k (.vec 0x14 0 o x none)
/-- VSLL at the front end (R199, R277). -/
def execVsll (o : VOp) (s : State) : Out := onStream s fun st k => s.frontEnd st k (.vec 0x14 1 o Ext.base none)
/-- VSLL with its extended words at the front end (R199, R277). -/
def execVsllExt (o : VOp) (x : Ext) (s : State) : Out := onStream s fun st k => s.frontEnd st k (.vec 0x14 1 o x none)
/-- VSRL at the front end (R199, R277). -/
def execVsrl (o : VOp) (s : State) : Out := onStream s fun st k => s.frontEnd st k (.vec 0x14 2 o Ext.base none)
/-- VSRL with its extended words at the front end (R199, R277). -/
def execVsrlExt (o : VOp) (x : Ext) (s : State) : Out := onStream s fun st k => s.frontEnd st k (.vec 0x14 2 o x none)
/-- VSRA at the front end (R199, R277). -/
def execVsra (o : VOp) (s : State) : Out := onStream s fun st k => s.frontEnd st k (.vec 0x14 3 o Ext.base none)
/-- VSRA with its extended words at the front end (R199, R277). -/
def execVsraExt (o : VOp) (x : Ext) (s : State) : Out := onStream s fun st k => s.frontEnd st k (.vec 0x14 3 o x none)
/-- VADDS at the front end (R199, R277). -/
def execVadds (o : VOp) (s : State) : Out := onStream s fun st k => s.frontEnd st k (.vec 0x14 4 o Ext.base none)
/-- VADDS with its extended words at the front end (R199, R277). -/
def execVaddsExt (o : VOp) (x : Ext) (s : State) : Out := onStream s fun st k => s.frontEnd st k (.vec 0x14 4 o x none)
/-- VSUBS at the front end (R199, R277). -/
def execVsubs (o : VOp) (s : State) : Out := onStream s fun st k => s.frontEnd st k (.vec 0x14 5 o Ext.base none)
/-- VSUBS with its extended words at the front end (R199, R277). -/
def execVsubsExt (o : VOp) (x : Ext) (s : State) : Out := onStream s fun st k => s.frontEnd st k (.vec 0x14 5 o x none)
/-- VMAC at the front end (R199, R277). -/
def execVmac (o : VOp) (s : State) : Out := onStream s fun st k => s.frontEnd st k (.vec 0x14 6 o Ext.base none)
/-- VMAC with its extended words at the front end (R199, R277). -/
def execVmacExt (o : VOp) (x : Ext) (s : State) : Out := onStream s fun st k => s.frontEnd st k (.vec 0x14 6 o x none)
/-- VABSD at the front end (R199, R277). -/
def execVabsd (o : VOp) (s : State) : Out := onStream s fun st k => s.frontEnd st k (.vec 0x14 7 o Ext.base none)
/-- VABSD with its extended words at the front end (R199, R277). -/
def execVabsdExt (o : VOp) (x : Ext) (s : State) : Out := onStream s fun st k => s.frontEnd st k (.vec 0x14 7 o x none)

end Sys2Proof.Machine
end

