-- ==== Sys2Proof/Machine/Vmem.lean ====
section
/-! DEFINITION. Vector memory: major 0x12 (R187 to R193) and vector access through a plat (R145), with element faults, the fault
record, the mask and the restart element. -/

namespace Sys2Proof.Machine

/-! ### Elements -/

/-- One element of a vector memory instruction: its index, place and VA. -/
structure Elt where
  j  : Nat
  r  : Nat
  c  : Nat
  va : W64
  deriving DecidableEq, Repr

/-- A shape record's signed strides and its bounds: cs, rs, columns, rows. -/
def shapeOf (v : W64) : W64 × W64 × Nat × Nat :=
  ((v.extractLsb' 48 16).signExtend 64, (v.extractLsb' 32 16).signExtend 64, fld v 16 16, fld v 0 16)

/-- The base of an entry's addresses. -/
def memBase (e : VEntry) (disp : Option W64) : W64 := e.xs + disp.getD 0

/-- The address of element (r, c) by the F3 table (R188). -/
def eltVa (e : VEntry) (f3 : Nat) (base : W64) (r c : Nat) : W64 :=
  let j := r * e.cols + c
  if f3 == 1 || f3 == 3 then base + BitVec.ofNat 64 j * e.xs2
  else if f3 == 4 || f3 == 5 then
    let s := shapeOf e.xs2
    base + (BitVec.ofNat 64 r * s.2.1 + BitVec.ofNat 64 c * s.1) * BitVec.ofNat 64 (e.sew / 8)
  else base + BitVec.ofNat 64 (j * e.sew / 8)

/-- Whether element (r, c) lies within the shape of a 2D access. -/
def inShape (e : VEntry) (f3 r c : Nat) : Bool :=
  if f3 == 4 || f3 == 5 then
    let s := shapeOf e.xs2
    decide (r < s.2.2.2) && decide (c < s.2.2.1)
  else true

/-- The element that an entry starts at now: the `VSTART` it captured, or where it goes on once it has begun (R389). -/
def VEntry.start (e : VEntry) : Nat := if e.begun then e.restart.toNat else e.vstart.toNat

/-- The elements of an entry from its start on, in increasing j. -/
def eltsOf (e : VEntry) (f3 : Nat) (base : W64) : List Elt :=
  ((gridOf e.rows e.cols).map fun p => { j := p.1 * e.cols + p.2, r := p.1, c := p.2, va := eltVa e f3 base p.1 p.2 }).filter
    fun t => e.start ≤ t.j

/-- The bit of an element in the fault mask (R171, R190). -/
def maskBit (m : Pred) (r c : Nat) : Bool := m.getLsbD (r * 2048 + c)

/-- The checks 1 to 3 of R188: the trap of the first that fails. -/
def Strand.memCheck (x : Strand) (e : VEntry) (f3 : Nat) (base : W64) : Option VRes :=
  let esz := e.sew / 8
  if (f3 != 0 && f3 != 2) && e.sew == 4 then some (x.badFormat e)
  else if 8 ≤ e.sew && base.toNat % esz != 0 then some (.trap x cMisalign base)
  else if (f3 == 1 || f3 == 3) && e.xs2.toNat % esz != 0 then some (.trap x cMisalign e.xs2)
  else none

/-! ### Faults (R190 to R193) -/

/-- The base of a 1 GiB page. -/
def pageBase (va : W64) : W64 := va &&& ~~~0x3FFFFFFF#64

/-- The fault record of faulting elements in increasing order (R192). -/
def faultRec (bad : List (Elt × Fa)) : FaultRec :=
  match bad with
  | [] => { cause := 0, pages := [], more := false }
  | (_, f) :: _ =>
    let pages := ((bad.filter fun b => b.2.cause == f.cause).map fun b => pageBase b.1.va).eraseDups
    { cause := f.cause, pages := pages.take 8, more := 8 < pages.length }

/-- The strand when its oldest entry has faulted (R190 to R192): the mask, the record and the restart element. -/
def Strand.faulted (x : Strand) (bad : List (Elt × Fa)) (start : Nat) : Strand :=
  { x with
    mask := bad.foldl (fun m b => setPredBit m b.1.r b.1.c true) 0
    frec := faultRec bad
    viq := match x.viq with
      | e :: t => { e with begun := true, restart := BitVec.ofNat 16 start } :: t
      | [] => [] }

/-- The strand when its oldest vector memory instruction has no faulted lane left (R190, R193). -/
def Strand.memDone (x : Strand) : Strand :=
  { x with mask := 0, skip := 0, vflags := 0, frec := { cause := 0, pages := [], more := false }, vstart := 0 }

/-- A fault of the first of faulting elements, as an answer. -/
def faultTrap (x : Strand) (bad : List (Elt × Fa)) (start : Nat) : VRes :=
  match bad with
  | [] => .done x 0
  | (_, f) :: _ => .trap (x.faulted bad start) f.cause f.va

/-! ### Loads -/

/-- One element of a load: its value, or its fault. -/
def State.loadElt (s : State) (st : Fin 4) (w : Nat) (t : Elt) : Except Fa Nat :=
  let n := max 1 (w / 8)
  match s.vecXlate (s.acc st) t.va true false with
  | .error f => .error f
  | .ok pa =>
    if s.anyPoison st .E pa n then .error { cause := cPoison, tval := t.va &&& ~~~63#64, va := t.va }
    else
      let v := leNat (s.view (some (st, .E)) (s.slotKey (s.acc st).key) pa n)
      .ok (if w == 4 then v / 2 ^ (4 * (t.j % 2)) % 16 else v)

/-- The PA of an element that translates. -/
def State.eltPa (s : State) (st : Fin 4) (t : Elt) : Option Nat := (s.vecXlate (s.acc st) t.va true false).toOption

/-- The elements that did not fault written. -/
def Strand.loadWrite (x : Strand) (vd : Spec) (w : Nat) (vals : List (Elt × Except Fa Nat)) : Strand :=
  vals.foldl (fun u v =>
    match v.2 with
    | .ok n => u.setAt vd w v.1.r v.1.c n
    | .error _ => u) x

/-- The faulting elements. -/
def badOf (vals : List (Elt × Except Fa Nat)) : List (Elt × Fa) :=
  vals.filterMap fun v =>
    match v.2 with
    | .ok _ => none
    | .error f => some (v.1, f)

/-- Inactive elements of a load that begins zeroed under `.z`. -/
def Strand.loadZero (x : Strand) (e : VEntry) (vd : Spec) (m : Ext) (inactive : List Elt) : Strand :=
  if m.zero && !e.begun then inactive.foldl (fun u t => u.setAt vd e.sew t.r t.c 0) x else x

/-- A load's answer from its elements' values. -/
def Strand.loadEnd (x : Strand) (e : VEntry) (vd : Spec) (vals : List (Elt × Except Fa Nat)) : VRes :=
  let y := x.loadWrite vd e.sew vals
  match badOf vals with
  | [] => .done y.memDone 0
  | bad => faultTrap y bad e.start

/-- VLD, VLDS and VLD2D when they issue (R188, R190). -/
def State.vload (s : State) (st : Fin 4) (e : VEntry) (f3 : Nat) (o : VOp) (m : Ext) (disp : Option W64) : State :=
  let x := s.strand st
  let base := memBase e disp
  match x.memCheck e f3 base with
  | some r => s.settleEntry st e r
  | none =>
    let elts := eltsOf e f3 base
    let act := fun (t : Elt) => x.active m t.r t.c && inShape e f3 t.r t.c
    let todo := elts.filter fun t => act t && (!e.begun || maskBit x.mask t.r t.c)
    let pas := todo.filterMap fun t => s.eltPa st t
    if s.anyHeld pas then s.keepEntry st pas
    else
      s.settleEntry st e
        ((x.loadZero e o.vd m (elts.filter fun t => !act t)).loadEnd e o.vd (todo.map fun t => (t, s.loadElt st e.sew t)))

/-! ### Stores -/

/-- The bytes of an element of a store and the bits they replace in their bytes: a nibble at SEW 4 (R188). -/
def eltBytes (w j v : Nat) : List Byte × Byte :=
  if w == 4 then ([BitVec.ofNat 8 (v * 2 ^ (4 * (j % 2)))], if j % 2 == 0 then 0x0F else 0xF0)
  else (leBytes (w / 8) v, 0xFF)

/-- Whether an element of a store faults now: its translation, or a charge that does not fit (R305). -/
def State.storeElt (s : State) (st : Fin 4) (w : Nat) (t : Elt) : Except Fa Nat :=
  match s.vecXlate (s.acc st) t.va false true with
  | .error f => .error f
  | .ok pa =>
    if s.holds st pa && !s.fits st (s.lineCharge st .E ((List.range (max 1 (w / 8))).map fun i => pa + i)) then
      .error { cause := cDrainFull, tval := t.va, va := t.va }
    else .ok pa

/-- The elements of a store in increasing j up to the first that faults, with those from there on that fault in the same execution. -/
def State.storeElts (s : State) (st : Fin 4) (w : Nat) (val : Elt → Nat) : List Elt → State × List (Elt × Fa)
  | [] => (s, [])
  | t :: rest =>
    match s.storeElt st w t with
    | .ok pa =>
      let b := eltBytes w t.j (val t)
      State.storeElts (s.vectorStore st pa b.1 b.2) st w val rest
    | .error f =>
      (s, (t, f) :: rest.filterMap fun u =>
        match s.storeElt st w u with
        | .ok _ => none
        | .error g => some (u, g))

/-- The answer of a store with the elements that faulted (R191). -/
def State.storeEnd (s : State) (st : Fin 4) (e : VEntry) (bad : List (Elt × Fa)) : State :=
  let x := s.strand st
  match bad with
  | [] => s.settleEntry st e (.done x.memDone 0)
  | (t, _) :: _ => s.settleEntry st e (faultTrap { x with vstart := BitVec.ofNat 64 t.j } bad t.j)

/-- The granules of the core's own scratchpad that the elements of one store cover whole (R103): their writes are one write of the
instruction. -/
def State.cleanOwn (s : State) (st : Fin 4) (w : Nat) (done : List Elt) : State :=
  s.cleanWhole (done.flatMap fun t =>
    match s.vecXlate (s.acc st) t.va false true with
    | .ok pa => if s.ownScr pa && !s.holds st pa then (List.range (max 1 (w / 8))).map fun i => (pa + i, (eltBytes w t.j 0).2) else []
    | .error _ => [])

/-- Whether an element of a store that is not held lies behind a window that no access reaches now: the store waits (R295, R366; log 126). -/
def State.storeWaits (s : State) (st : Fin 4) (w : Nat) (todo : List Elt) : Bool :=
  todo.any fun t =>
    match s.storeElt st w t with
    | .ok pa => s.unreachable pa && !s.holds st pa
    | .error _ => false

/-- VST, VSTS and VST2D when they issue (R188, R191). -/
def State.vstore (s : State) (st : Fin 4) (e : VEntry) (f3 : Nat) (o : VOp) (m : Ext) (disp : Option W64) : State :=
  let x := s.strand st
  let base := memBase e disp
  match x.memCheck e f3 base with
  | some r => s.settleEntry st e r
  | none =>
    let todo := (eltsOf e f3 base).filter fun t =>
      x.active m t.r t.c && inShape e f3 t.r t.c && !(e.begun && maskBit x.skip t.r t.c)
    let r := s.storeElts st e.sew (fun t => elem (x.readRow o.vs1 t.r) e.sew t.c) todo
    if s.storeWaits st e.sew todo then s
    else (r.1.cleanOwn st e.sew (todo.takeWhile fun t => !r.2.any fun b => b.1 == t)).storeEnd st e r.2

/-! ### Through a plat (R145) -/

/-- The checks of `VLDP` and `VSTP` on a plat, after those of R133. -/
def State.platVec (s : State) (st : Fin 4) (e : VEntry) (p : Plat) (fp : Bool) : Option VRes :=
  let x := s.strand st
  if !(p.pas.flatMap id).all fun pa => s.inPart (s.acc st) pa then
    some (.trap x cPlatRange (e.xs <<< 32 ||| 0x04))
  else if p.sz * 8 != e.sew || (fp && (vtFp e.vtype).isNone) then some (x.badFormat e)
  else none

/-- The place of element j of a plat in the register group. -/
def platElt (e : VEntry) (p : Plat) (j : Nat) : Elt :=
  { j := j, r := j / e.cols, c := j % e.cols, va := p.ta.getD j 0 }

/-- The active elements of a plat from a start on. -/
def Strand.platElts (x : Strand) (e : VEntry) (m : Ext) (p : Plat) (start : Nat) : List Elt :=
  ((List.range (min p.n (e.rows * e.cols))).map (platElt e p)).filter fun t => decide (start ≤ t.j) && x.active m t.r t.c

/-- One element of a `VLDP`. -/
def State.platLoadElt (s : State) (st : Fin 4) (p : Plat) (t : Elt) : Except Fa Nat :=
  let pas := p.pas.getD t.j []
  if pas.any fun pa => s.poisonedTo (s.strand st).task st .E pa then .error { cause := cPoison, tval := t.va &&& ~~~63#64, va := t.va }
  else .ok (leNat (pas.map fun pa => s.viewByte (some (st, .E)) (s.slotKey (s.acc st).key) pa))

/-- The elements of a `VLDP`: those that are inactive, and those that it has still to load. -/
def State.platLoads (s : State) (st : Fin 4) (e : VEntry) (m : Ext) (p : Plat) : List Elt × List Elt :=
  let x := s.strand st
  let act := x.platElts e m p e.start
  ((eltsOf e 0 0).filter fun t => !act.any fun u => u.j == t.j, act.filter fun t => !e.begun || maskBit x.mask t.r t.c)

/-- VLDP when it issues (R145). -/
def State.vldp (s : State) (st : Fin 4) (e : VEntry) (o : VOp) (m : Ext) : State :=
  if s.verifyHeld st e.xs then s.keepEntry st (s.verifyPas st e.xs)
  else
    match s.platCheck st .E e.xs with
    | (s1, .error (c, v)) => s1.settleEntry st e (.trap (s1.strand st) c v)
    | (_, .ok p) =>
      match s.platVec st e p false with
      | some r => s.settleEntry st e r
      | none =>
        let l := s.platLoads st e m p
        s.settleEntry st e
          (((s.strand st).loadZero e o.vd m l.1).loadEnd e o.vd (l.2.map fun t => (t, s.platLoadElt st p t)))

/-- The combine of `VSTP` (R141, R145): FP adds round by RND, with daz, ftz and flags; FP maxima and minima keep the payload of a
NaN that they select (log 144). -/
def vstpFn (e : VEntry) (m : Ext) (a v : Nat) : Nat × Flags :=
  let op := (m.fx.extractLsb' 0 3).toNat
  let cls := (m.fx.extractLsb' 4 2).toNat
  let w := e.sew
  let sgn := cls == 0
  match op, (if cls == 2 then vtFp e.vtype else none) with
  | 0, _ => (v, 0)
  | 1, some t =>
    t.ftzBits (vtFtz e.vtype)
      (t.fadd (vecRm e.vtype m.rnd) (t.dazBits (vtDaz e.vtype) a) (t.dazBits (vtDaz e.vtype) v))
  | 1, none => ((a + v) % 2 ^ w, 0)
  | 2, some t => (if totalLE t.width a v then v else a, 0)
  | 2, none => (if readInt w sgn a < readInt w sgn v then v else a, 0)
  | _, some t => (if totalLE t.width v a then v else a, 0)
  | _, none => (if readInt w sgn v < readInt w sgn a then v else a, 0)

/-- A unique target of a plat: the PAs of its bytes, whether its page permits writes, and its active elements. -/
structure PlatTgt where
  pas : List Nat
  wr  : Bool
  js  : List Elt
  deriving DecidableEq, Repr

/-- One unique target of a `VSTP` (R145): the state and the flags, or the fault. A target that no active element names is written as it is
read, where its page permits that (log 111). -/
def State.platStoreOne (s : State) (st : Fin 4) (e : VEntry) (o : VOp) (m : Ext) (p : Plat) (g : PlatTgt) : Except Fa (State × Flags) :=
  let x := s.strand st
  let key := s.slotKey (s.acc st).key
  let pas := g.pas
  let js := g.js
  match js with
  | [] => .ok (if g.wr then s.scatterBytes key (pas.map fun pa => (pa, s.viewByte (some (st, .E)) key pa)) else s, 0)
  | t :: _ =>
    match js.find? fun u => !p.wr.getD u.j false with
    | some u => .error { cause := cProt, tval := u.va, va := u.va }
    | none =>
      if m.fx.extractLsb' 0 3 != 0 && pas.any fun pa => s.poisonedTo x.task st .E pa then
        .error { cause := cPoison, tval := t.va &&& ~~~63#64, va := t.va }
      else
        let old := leNat (pas.map fun pa => s.viewByte (some (st, .E)) key pa)
        let r := js.foldl (fun (a : Nat × Flags) u =>
            let v := vstpFn e m a.1 (elem (x.readRow o.vs1 u.r) e.sew u.c)
            (v.1, a.2 ||| v.2)) (old, 0)
        .ok (s.scatterBytes key (pas.zip (leBytes p.sz r.1)), r.2)

/-- The unique targets of a `VSTP` in order, each with its index: those done, the flags, and the first that faults with its index. -/
def State.platStore (s : State) (st : Fin 4) (e : VEntry) (o : VOp) (m : Ext) (p : Plat) :
    List (PlatTgt × Nat) → Flags → State × Flags × Option (Nat × List Elt × Fa)
  | [], fl => (s, fl, none)
  | g :: rest, fl =>
    match s.platStoreOne st e o m p g.1 with
    | .ok r => State.platStore r.1 st e o m p rest (fl ||| r.2)
    | .error f => (s, fl, some (g.2, g.1.js, f))

/-- The unique targets that a `VSTP` has still to do, each with its index. -/
def State.platTargets (s : State) (st : Fin 4) (e : VEntry) (m : Ext) (p : Plat) : List (PlatTgt × Nat) :=
  let x := s.strand st
  let act := (x.platElts e m p 0).filter fun t => !(e.begun && maskBit x.skip t.r t.c)
  (p.groupsOf.map fun g =>
    { pas := g.1, wr := p.wr.getD (g.2.headD 0) false, js := act.filter fun t => g.2.contains t.j : PlatTgt }).zipIdx.drop e.start

/-- VSTP when it issues (R145): the flags of the targets that it performs before a fault are ORed into `VSTATUS` when it commits (R79). -/
def State.vstp (s : State) (st : Fin 4) (e : VEntry) (o : VOp) (m : Ext) : State :=
  if s.verifyHeld st e.xs then s.keepEntry st (s.verifyPas st e.xs)
  else
    match s.platCheck st .E e.xs with
    | (s1, .error (c, v)) => s1.settleEntry st e (.trap (s1.strand st) c v)
    | (_, .ok p) =>
      match s.platVec st e p (m.fx.extractLsb' 4 2 == 2) with
      | some r => s.settleEntry st e r
      | none =>
        let r := s.platStore st e o m p (s.platTargets st e m p) (if e.begun then (s.strand st).vflags else 0)
        let y := r.1.strand st
        match r.2.2 with
        | none => r.1.settleEntry st e (.done (y.memDone.orFlags r.2.1) 0)
        | some (i, js, f) =>
          r.1.settleEntry st e (faultTrap { y with vstart := BitVec.ofNat 64 i, vflags := r.2.1 } (js.map fun t => (t, f)) i)

/-! ### Part of an access (R188, R346, R389; log 47) -/

/-- The oldest entry begun, with the element that it goes on from, in an execution that has not faulted and so has no fault record. -/
def Strand.begin (x : Strand) (start : Nat) : Strand :=
  { x with
    frec := { cause := 0, pages := [], more := false }
    viq := match x.viq with
      | e :: t => { e with begun := true, restart := BitVec.ofNat 16 start } :: t
      | [] => [] }

/-- A store that has stopped before an element or a unique target without a fault (R346): `VSTART` names it, and no element is left in the mask of an
earlier execution (R191, R389). -/
def Strand.stoppedAt (x : Strand) (j : Nat) : Strand := { x with vstart := BitVec.ofNat 64 j, mask := 0 }

/-- The first n of a load's elements with every other one that lies at an address of theirs, so that elements at one address agree (R189). -/
def partOf (at_ : Elt → Option Nat) (todo : List Elt) (n : Nat) : List Elt :=
  todo.filter fun t => (todo.take n).any fun u => u == t || (at_ t).any fun pa => at_ u == some pa

/-- Part of what a load has still to do done, without a fault, where more is left (R389): the mask holds that. -/
def State.someLoaded (s : State) (st : Fin 4) (e : VEntry) (vd : Spec) (x : Strand) (todo : List Elt) (vals : List (Elt × Except Fa Nat)) : State :=
  let rest := todo.filter fun t => !vals.any fun v => v.1 == t
  if rest.isEmpty || vals.isEmpty || !(badOf vals).isEmpty then s
  else
    let y := (x.loadWrite vd e.sew vals).begin e.start
    s.modStrand st fun _ => { y with mask := rest.foldl (fun k t => setPredBit k t.r t.c true) 0 }

/-- Some elements that a VLD, VLDS or VLD2D has still to do done. -/
def State.loadPart (s : State) (st : Fin 4) (e : VEntry) (f3 : Nat) (o : VOp) (m : Ext) (disp : Option W64) (n : Nat) : State :=
  let x := s.strand st
  let elts := eltsOf e f3 (memBase e disp)
  let act := fun (t : Elt) => x.active m t.r t.c && inShape e f3 t.r t.c
  let todo := elts.filter fun t => act t && (!e.begun || maskBit x.mask t.r t.c)
  let now := partOf (s.eltPa st) todo n
  if (x.memCheck e f3 (memBase e disp)).isSome || s.anyHeld (now.filterMap fun t => s.eltPa st t) then s
  else s.someLoaded st e o.vd (x.loadZero e o.vd m (elts.filter fun t => !act t)) todo (now.map fun t => (t, s.loadElt st e.sew t))

/-- The first n elements that a VST, VSTS or VST2D has still to do done, without a fault, where more are left (R346): it goes on from the next. -/
def State.storePart (s : State) (st : Fin 4) (e : VEntry) (f3 : Nat) (o : VOp) (m : Ext) (disp : Option W64) (n : Nat) : State :=
  let x := s.strand st
  let todo := (eltsOf e f3 (memBase e disp)).filter fun t =>
    x.active m t.r t.c && inShape e f3 t.r t.c && !(e.begun && maskBit x.skip t.r t.c)
  match (x.memCheck e f3 (memBase e disp)).isSome, todo[n]? with
  | false, some u =>
    let r := s.storeElts st e.sew (fun t => elem (x.readRow o.vs1 t.r) e.sew t.c) (todo.take n)
    if n == 0 || !r.2.isEmpty || s.storeWaits st e.sew (todo.take n) then s
    else (r.1.cleanOwn st e.sew (todo.take n)).modStrand st fun y => (y.begin u.j).stoppedAt u.j
  | _, _ => s

/-- The plat of a vector access that is fresh and passes the checks of R145, and whose index bytes can be read now. -/
def State.platFor (s : State) (st : Fin 4) (e : VEntry) (fp : Bool) : Option Plat :=
  if s.verifyHeld st e.xs then none
  else
    match s.platCheck st .E e.xs with
    | (_, .ok p) => if (s.platVec st e p fp).isSome then none else some p
    | (_, .error _) => none

/-- Some elements that a VLDP has still to do done (R145). -/
def State.vldpPart (s : State) (st : Fin 4) (e : VEntry) (o : VOp) (m : Ext) (n : Nat) : State :=
  match s.platFor st e false with
  | none => s
  | some p =>
    let l := s.platLoads st e m p
    let now := partOf (fun t => (p.pas.getD t.j []).head?) l.2 n
    s.someLoaded st e o.vd ((s.strand st).loadZero e o.vd m l.1) l.2 (now.map fun t => (t, s.platLoadElt st p t))

/-- The first n unique targets that a VSTP has still to do done, without a fault, where more are left (R145, R346). -/
def State.vstpPart (s : State) (st : Fin 4) (e : VEntry) (o : VOp) (m : Ext) (n : Nat) : State :=
  match s.platFor st e (m.fx.extractLsb' 4 2 == 2) with
  | none => s
  | some p =>
    let todo := s.platTargets st e m p
    let r := s.platStore st e o m p (todo.take n) (if e.begun then (s.strand st).vflags else 0)
    if n == 0 || todo.length ≤ n || r.2.2.isSome then s
    else r.1.modStrand st fun y => { (y.begin (e.start + n)).stoppedAt (e.start + n) with vflags := r.2.1 }

/-- Part of the oldest entry of a strand, a vector load or store, is done. -/
def State.elemsPart (s : State) (st : Fin 4) (n : Nat) : State :=
  match (s.strand st).halt, (s.strand st).viq with
  | .none, e :: _ =>
    if e.ill.isSome || (s.strand st).readsBad e then s
    else
      match e.form with
      | .vec 0x12 f3 o m disp =>
        match f3 with
        | 0 | 1 | 4 => s.loadPart st e f3 o m disp n
        | 2 | 3 | 5 => s.storePart st e f3 o m disp n
        | 6 => s.vldpPart st e o m n
        | _ => s.vstpPart st e o m n
      | _ => s
  | _, _ => s

/-! ### The issue -/

/-- Vector memory by F3 when it issues. -/
def State.vmem (s : State) (st : Fin 4) (e : VEntry) (f3 : Nat) (o : VOp) (m : Ext) (disp : Option W64) : State :=
  match f3 with
  | 0 | 1 | 4 => s.vload st e f3 o m disp
  | 2 | 3 | 5 => s.vstore st e f3 o m disp
  | 6 => s.vldp st e o m
  | _ => s.vstp st e o m

/-! ### The front end -/

/-- A vector memory instruction at the front end (R187, R277). -/
def memFront (s : State) (f3 : Nat) (vd vs1 : Spec) (m : MemOp) (rnd : BitVec 3) (fx : BitVec 8) : Out :=
  onStream s fun st k => s.frontEnd st k (.vec 0x12 f3 { vd := vd, vs1 := vs1, vs2 := 0 } (m.ext rnd fx) m.disp)

/-- VLD (R188). -/
def execVld (vd : Spec) (m : MemOp) (s : State) : Out := memFront s 0 vd 0 m 7 0
/-- VLDS (R188). -/
def execVlds (vd : Spec) (m : MemOp) (s : State) : Out := memFront s 1 vd 0 m 7 0
/-- VST (R188). -/
def execVst (vs1 : Spec) (m : MemOp) (s : State) : Out := memFront s 2 0 vs1 m 7 0
/-- VSTS (R188). -/
def execVsts (vs1 : Spec) (m : MemOp) (s : State) : Out := memFront s 3 0 vs1 m 7 0
/-- VLD2D (R188). -/
def execVld2d (vd : Spec) (m : MemOp) (s : State) : Out := memFront s 4 vd 0 m 7 0
/-- VST2D (R188). -/
def execVst2d (vs1 : Spec) (m : MemOp) (s : State) : Out := memFront s 5 0 vs1 m 7 0
/-- VLDP (R145). -/
def execVldp (vd : Spec) (m : MemOp) (s : State) : Out := memFront s 6 vd 0 m 7 0
/-- VSTP (R145). -/
def execVstp (vs1 : Spec) (m : MemOp) (rnd : BitVec 3) (op : PlatStOp) (s : State) : Out := memFront s 7 0 vs1 m rnd op.fx

end Sys2Proof.Machine
end

