-- ==== Sys2Proof/Machine/Vperm.lean ====
section
/-! DEFINITION. Moving elements: major 0x19 (R208), each with its front end and its commit. Bits move unchanged. -/

namespace Sys2Proof.Machine

/-- VMV at its commit (R208). -/
def commitVmv (x : Strand) (e : VEntry) (o : VOp) (m : Ext) : VRes :=
  x.bitLanes e o m fun r c => x.src o.vs1 m.rep1 e.sew r c

/-- VBCAST at its commit (R208). -/
def commitVbcast (x : Strand) (e : VEntry) (o : VOp) (m : Ext) : VRes := x.bitLanes e o m fun _ _ => e.xs.toNat % 2 ^ e.sew

/-- VEXT at its commit (R208): element j, or 0 beyond the grant and where it is not active. -/
def commitVext (x : Strand) (e : VEntry) (o : VOp) (m : Ext) : VRes :=
  let j := e.xs.toNat
  let r := j / e.cols
  let c := j % e.cols
  if j < e.rows * e.cols && x.active m r c then
    .done x (BitVec.ofInt 64 (readInt e.sew (m.fx.getLsbD 0) (elem (x.readRow o.vs1 r) e.sew c)))
  else .done x 0

/-- VINS at its commit (R208): element j alone. -/
def commitVins (x : Strand) (e : VEntry) (o : VOp) (m : Ext) : VRes :=
  let p := x.writeGroup o.vd e.sew e.rows e.cols fun r c =>
    if r * e.cols + c != e.xs.toNat then none
    else if x.active m r c then some (e.xs2.toNat % 2 ^ e.sew, 0)
    else if m.zero then some (0, 0)
    else none
  .done p.1 0

/-- VSLUP at its commit (R208): columns below s are unchanged, even under `.z`. -/
def commitVslup (x : Strand) (e : VEntry) (o : VOp) (m : Ext) : VRes :=
  let s := e.xs.toNat
  let p := x.writeGroup o.vd e.sew e.rows e.cols fun r c =>
    if c < s then none
    else if x.active m r c then some (x.src o.vs1 m.rep1 e.sew r (c - s), 0)
    else if m.zero then some (0, 0)
    else none
  .done p.1 0

/-- VSLDN at its commit (R208). -/
def commitVsldn (x : Strand) (e : VEntry) (o : VOp) (m : Ext) : VRes :=
  let s := e.xs.toNat
  x.bitLanes e o m fun r c => if c + s < e.cols then x.src o.vs1 m.rep1 e.sew r (c + s) else 0

/-- VPERM at its commit (R208). -/
def commitVperm (x : Strand) (e : VEntry) (o : VOp) (m : Ext) : VRes :=
  x.bitLanes e o m fun r c =>
    let i := x.src o.vs2 m.rep2 e.sew r c
    if i < e.cols then x.src o.vs1 m.rep1 e.sew r i else 0

/-- VTRN at its commit (R208); `TVAL` of its trap has the layout of R81 (log 151). -/
def commitVtrn (x : Strand) (e : VEntry) (o : VOp) (m : Ext) : VRes :=
  if vtG e.vtype < e.cols then x.badFormat e
  else x.bitLanes e o m fun r c => x.src o.vs1 m.rep1 e.sew c r

/-! ### The front end -/

/-- VMV at the front end (R208, R277). -/
def execVmv (o : VOp) (s : State) : Out := onStream s fun st k => s.frontEnd st k (.vec 0x19 0 o Ext.base none)
/-- VMV with its extended words at the front end (R208, R277). -/
def execVmvExt (o : VOp) (x : Ext) (s : State) : Out := onStream s fun st k => s.frontEnd st k (.vec 0x19 0 o x none)
/-- VBCAST at the front end (R208, R277). -/
def execVbcast (o : VOp) (x : Ext) (s : State) : Out := onStream s fun st k => s.frontEnd st k (.vec 0x19 1 o x none)
/-- VEXT at the front end (R208, R277). -/
def execVext (o : VOp) (x : Ext) (s : State) : Out := onStream s fun st k => s.frontEnd st k (.vec 0x19 2 o x none)
/-- VINS at the front end (R208, R277). -/
def execVins (o : VOp) (x : Ext) (s : State) : Out := onStream s fun st k => s.frontEnd st k (.vec 0x19 3 o x none)
/-- VSLUP at the front end (R208, R277). -/
def execVslup (o : VOp) (x : Ext) (s : State) : Out := onStream s fun st k => s.frontEnd st k (.vec 0x19 4 o x none)
/-- VSLDN at the front end (R208, R277). -/
def execVsldn (o : VOp) (x : Ext) (s : State) : Out := onStream s fun st k => s.frontEnd st k (.vec 0x19 5 o x none)
/-- VPERM at the front end (R208, R277). -/
def execVperm (o : VOp) (s : State) : Out := onStream s fun st k => s.frontEnd st k (.vec 0x19 6 o Ext.base none)
/-- VPERM with its extended words at the front end (R208, R277). -/
def execVpermExt (o : VOp) (x : Ext) (s : State) : Out := onStream s fun st k => s.frontEnd st k (.vec 0x19 6 o x none)
/-- VTRN at the front end (R208, R277). -/
def execVtrn (o : VOp) (s : State) : Out := onStream s fun st k => s.frontEnd st k (.vec 0x19 7 o Ext.base none)
/-- VTRN with its extended words at the front end (R208, R277). -/
def execVtrnExt (o : VOp) (x : Ext) (s : State) : Out := onStream s fun st k => s.frontEnd st k (.vec 0x19 7 o x none)

end Sys2Proof.Machine
end

