-- ==== Sys2Proof/Machine/Vpred.lean ====
section
/-! DEFINITION. Predicate instructions: major 0x17 (R202), each with its front end and its commit. -/

namespace Sys2Proof.Machine

/-- The six integer conditions of R202. -/
def intCond (c : Nat) (a b : Int) : Bool :=
  match c with
  | 0 => a == b
  | 1 => a != b
  | 2 => decide (a < b)
  | 3 => decide (a ≤ b)
  | 4 => decide (b < a)
  | _ => decide (b ≤ a)

/-- VCMP at its commit (R202). -/
def commitVcmp (x : Strand) (e : VEntry) (o : VOp) (m : Ext) : VRes :=
  let rd := readInt e.sew (!m.fx.getLsbD 3)
  x.predLanes e o m fun r c =>
    (intCond (m.fx.extractLsb' 0 3).toNat (rd (x.src o.vs1 m.rep1 e.sew r c)) (rd (x.src o.vs2 m.rep2 e.sew r c)), 0)

/-- One comparison of `VFCMP`: TO reads raw bits; NV for a signalling NaN, and for any NaN under LT, LE, GT, GE (R202). -/
def vfCond (t : Fmt) (daz : Bool) (cond a b : Nat) : Bool × Flags :=
  if cond == 7 then (totalLE t.width a b, if t.isSig a || t.isSig b then flagNV else 0)
  else t.compare cond (t.dazBits daz a) (t.dazBits daz b)

/-- VFCMP at its commit (R202). -/
def commitVfcmp (x : Strand) (e : VEntry) (o : VOp) (m : Ext) : VRes :=
  match vtFp e.vtype with
  | none => x.badFormat e
  | some t =>
    x.predLanes e o m fun r c =>
      vfCond t (vtDaz e.vtype) (m.fx.extractLsb' 0 3).toNat (x.src o.vs1 m.rep1 t.width r c) (x.src o.vs2 m.rep2 t.width r c)

/-- A predicate register named in a specifier field (R60). -/
def predOf (s : Spec) : BitVec 4 := s.setWidth 4

/-- PLOG at its commit (R202). -/
def commitPlog (x : Strand) (e : VEntry) (o : VOp) (m : Ext) : VRes :=
  x.predLanes e o m fun r c =>
    let a := x.predBit (predOf o.vs1) r c
    let b := x.predBit (predOf o.vs2) r c
    ((match m.fx.toNat with
      | 0 => a && b
      | 1 => a || b
      | 2 => a != b
      | 3 => a && !b
      | _ => !a), 0)

/-- PSET at its commit (R202). -/
def commitPset (x : Strand) (e : VEntry) (o : VOp) (m : Ext) : VRes :=
  x.predLanes e o m fun r c => (m.fx.getLsbD 0 || decide (r * e.cols + c < e.xs.toNat), 0)

/-- The active elements whose ps1 bit is set, as indices j in increasing order (R202). -/
def Strand.hits (x : Strand) (e : VEntry) (o : VOp) (m : Ext) : List Nat :=
  ((x.actives e m).filter fun p => x.predBit (predOf o.vs1) p.1 p.2).map fun p => p.1 * e.cols + p.2

/-- PCNT at its commit (R202). -/
def commitPcnt (x : Strand) (e : VEntry) (o : VOp) (m : Ext) : VRes := .done x (BitVec.ofNat 64 (x.hits e o m).length)

/-- PFIRST at its commit (R202). -/
def commitPfirst (x : Strand) (e : VEntry) (o : VOp) (m : Ext) : VRes :=
  .done x (match x.hits e o m with
    | j :: _ => BitVec.ofNat 64 j
    | [] => -1)

/-- VSEL at its commit (R202): every element of the grant. -/
def commitVsel (x : Strand) (e : VEntry) (o : VOp) (m : Ext) : VRes :=
  let p := x.writeGroup o.vd e.sew e.rows e.cols fun r c =>
    some (if x.active m r c then x.src o.vs1 m.rep1 e.sew r c else x.src o.vs2 m.rep2 e.sew r c, 0)
  .done p.1 0

/-! ### The front end -/

/-- VCMP at the front end (R202, R277). -/
def execVcmp (o : VOp) (s : State) : Out := onStream s fun st k => s.frontEnd st k (.vec 0x17 0 o Ext.base none)
/-- VCMP with its extended words at the front end (R202, R277). -/
def execVcmpExt (o : VOp) (x : Ext) (s : State) : Out := onStream s fun st k => s.frontEnd st k (.vec 0x17 0 o x none)
/-- VFCMP at the front end (R202, R277). -/
def execVfcmp (o : VOp) (s : State) : Out := onStream s fun st k => s.frontEnd st k (.vec 0x17 1 o Ext.base none)
/-- VFCMP with its extended words at the front end (R202, R277). -/
def execVfcmpExt (o : VOp) (x : Ext) (s : State) : Out := onStream s fun st k => s.frontEnd st k (.vec 0x17 1 o x none)
/-- PLOG at the front end (R202, R277). -/
def execPlog (o : VOp) (s : State) : Out := onStream s fun st k => s.frontEnd st k (.vec 0x17 2 o Ext.base none)
/-- PLOG with its extended words at the front end (R202, R277). -/
def execPlogExt (o : VOp) (x : Ext) (s : State) : Out := onStream s fun st k => s.frontEnd st k (.vec 0x17 2 o x none)
/-- PSET at the front end (R202, R277). -/
def execPset (o : VOp) (x : Ext) (s : State) : Out := onStream s fun st k => s.frontEnd st k (.vec 0x17 3 o x none)
/-- PCNT at the front end (R202, R277). -/
def execPcnt (o : VOp) (x : Ext) (s : State) : Out := onStream s fun st k => s.frontEnd st k (.vec 0x17 4 o x none)
/-- PFIRST at the front end (R202, R277). -/
def execPfirst (o : VOp) (x : Ext) (s : State) : Out := onStream s fun st k => s.frontEnd st k (.vec 0x17 5 o x none)
/-- VSEL at the front end (R202, R277). -/
def execVsel (o : VOp) (s : State) : Out := onStream s fun st k => s.frontEnd st k (.vec 0x17 6 o Ext.base none)
/-- VSEL with its extended words at the front end (R202, R277). -/
def execVselExt (o : VOp) (x : Ext) (s : State) : Out := onStream s fun st k => s.frontEnd st k (.vec 0x17 6 o x none)

end Sys2Proof.Machine
end

