-- ==== Sys2Proof/Machine/Vred.lean ====
section
/-! DEFINITION. Reductions, scans, compress and digest: major 0x1A (R96, R97, R209 to R212), each with its front end and its
commit. -/

namespace Sys2Proof.Machine

/-- The values of active elements of vs1 in a list of positions. -/
def Strand.picked (x : Strand) (e : VEntry) (o : VOp) (m : Ext) (ps : List (Nat × Nat)) : List Nat :=
  (ps.filter fun p => x.active m p.1 p.2).map fun p => x.src o.vs1 m.rep1 e.sew p.1 p.2

/-- What a reduction reduces and the row of its result: the whole grant, or each row under FX[4] (R209). -/
def redGroups (e : VEntry) (m : Ext) : List (Nat × List (Nat × Nat)) :=
  if m.fx.getLsbD 4 then (List.range e.rows).map fun r => (r, gridOf 1 e.cols |>.map fun p => (r, p.2))
  else [(0, gridOf e.rows e.cols)]

/-- The shared plan of a reduction: `f` gives the results of columns 0, 1, … and their flags, which are written whatever the grant and
the predicate (R209). -/
def Strand.reduce (x : Strand) (e : VEntry) (o : VOp) (m : Ext) (f : List Nat → List Nat × Flags) : VRes :=
  let res := (redGroups e m).map fun g => (g.1, f (x.picked e o m g.2))
  let y := res.foldl (fun u g => g.2.1.zipIdx.foldl (fun u v => u.setAt o.vd e.sew g.1 v.2 v.1) u) x
  .done (y.orFlags (res.foldl (fun a g => a ||| g.2.2) 0)) 0

/-- The class of a reduction: 0 FP, 1 signed, 2 unsigned (R209). -/
def redClass (m : Ext) : Nat := (m.fx.extractLsb' 1 2).toNat

/-- An addition under daz and ftz (R76, R210). -/
def Fmt.addFlush (t : Fmt) (daz ftz : Bool) (rm : BitVec 3) (a b : Nat) : Nat × Flags :=
  t.ftzBits ftz (t.fadd rm (t.dazBits daz a) (t.dazBits daz b))

/-- A single element as a result: canonical NaN, NV for a signalling one, daz and ftz (R74, R209). -/
def Fmt.alone (t : Fmt) (daz ftz : Bool) (a : Nat) : Nat × Flags := t.ftzBits ftz (t.pack 0 (t.decode (t.dazBits daz a)))

/-- A result with the flags of both operands. -/
def addFl (f : Nat → Nat → Nat × Flags) (a b : Nat × Flags) : Nat × Flags :=
  let r := f a.1 b.1
  (r.1, r.2 ||| a.2 ||| b.2)

/-- The FP sum of R96: the tree or the ordered form. -/
def Fmt.sum (t : Fmt) (ordered daz ftz : Bool) (rm : BitVec 3) (xs : List Nat) : Nat × Flags :=
  let add := addFl (t.addFlush daz ftz rm)
  match xs with
  | [] => (0, 0)
  | [a] => t.alone daz ftz a
  | a :: rest =>
    if ordered then rest.foldl (fun s b => add s (b, 0)) (a, 0)
    else treeFold add (0, 0) xs.length (xs.map fun b => (b, 0))

/-- VREDSUM at its commit (R209). -/
def commitVredsum (x : Strand) (e : VEntry) (o : VOp) (m : Ext) : VRes :=
  if redClass m != 0 then x.reduce e o m fun xs => ([xs.sum % 2 ^ e.sew], 0)
  else
    match vtFp e.vtype with
    | none => x.badFormat e
    | some t =>
      x.reduce e o m fun xs =>
        let r := t.sum (m.fx.getLsbD 0) (vtDaz e.vtype) (vtFtz e.vtype) (vecRm e.vtype m.rnd) xs
        ([r.1], r.2)

/-- The greatest or least integer, 0 over no elements. -/
def intExtreme (isMax sgn : Bool) (n : Nat) (xs : List Nat) : Nat :=
  match xs with
  | [] => 0
  | a :: rest => rest.foldl (fun a b =>
      if isMax then (if readInt n sgn a < readInt n sgn b then b else a) else (if readInt n sgn b < readInt n sgn a then b else a)) a

/-- The greatest or least FP element (R209): by number under daz, or by `TotalOrderLE` of the raw bits. The result is a canonical NaN or
a value under ftz. -/
def Fmt.extreme (t : Fmt) (isMax total daz ftz : Bool) (xs : List Nat) : Nat × Flags :=
  let nv : Flags := if xs.any t.isSig then flagNV else 0
  let best := fun (a b : Nat) => if isMax then (if totalLE t.width a b then b else a) else (if totalLE t.width a b then a else b)
  let ys := if total then xs else (xs.map fun a => t.dazBits daz a).filter fun a => !t.isNan a
  match ys with
  | [] => (t.canon, nv)
  | a :: rest =>
    let w := rest.foldl best a
    let r := t.ftzBits ftz (if t.isNan w then t.canon else w, 0)
    (r.1, r.2 ||| nv)

/-- A maximum or minimum (R209). -/
def Strand.extreme (x : Strand) (e : VEntry) (o : VOp) (m : Ext) (isMax : Bool) : VRes :=
  if redClass m != 0 then x.reduce e o m fun xs => ([intExtreme isMax (redClass m == 1) e.sew xs], 0)
  else
    match vtFp e.vtype with
    | none => x.badFormat e
    | some t =>
      x.reduce e o m fun xs =>
        let r := t.extreme isMax (m.fx.getLsbD 3) (vtDaz e.vtype) (vtFtz e.vtype) xs
        ([r.1], r.2)

/-- VREDMAX at its commit (R209). -/
def commitVredmax (x : Strand) (e : VEntry) (o : VOp) (m : Ext) : VRes := x.extreme e o m true

/-- VREDMIN at its commit (R209). -/
def commitVredmin (x : Strand) (e : VEntry) (o : VOp) (m : Ext) : VRes := x.extreme e o m false

/-- A node of the compensated tree (R97), every operation rounded to nearest even. -/
def Fmt.twoNode (t : Fmt) (daz ftz : Bool) (a b : Nat × Nat × Flags) : Nat × Nat × Flags :=
  let add := t.addFlush daz ftz 0
  let sub := fun (p q : Nat) => t.ftzBits ftz (t.fsub 0 (t.dazBits daz p) (t.dazBits daz q))
  let s := add a.1 b.1
  let bb := sub s.1 a.1
  let s1 := sub s.1 bb.1
  let d1 := sub a.1 s1.1
  let d2 := sub b.1 bb.1
  let e := add d1.1 d2.1
  let u := add a.2.1 b.2.1
  let v := add e.1 u.1
  let hi := add s.1 v.1
  let z := sub hi.1 s.1
  let lo := sub v.1 z.1
  (hi.1, lo.1, a.2.2 ||| b.2.2 ||| s.2 ||| bb.2 ||| s1.2 ||| d1.2 ||| d2.2 ||| e.2 ||| u.2 ||| v.2 ||| hi.2 ||| z.2 ||| lo.2)

/-- The compensated sum (R97). -/
def Fmt.sum2 (t : Fmt) (daz ftz : Bool) (xs : List Nat) : Nat × Nat × Flags :=
  match xs with
  | [] => (0, 0, 0)
  | [a] => let r := t.alone daz ftz a; (r.1, 0, r.2)
  | _ => treeFold (t.twoNode daz ftz) (0, 0, 0) xs.length (xs.map fun b => (b, 0, 0))

/-- VREDCS at its commit (R97, R209): hi to column 0 and lo to column 1. -/
def commitVredcs (x : Strand) (e : VEntry) (o : VOp) (m : Ext) : VRes :=
  match vtFp e.vtype with
  | none => x.badFormat e
  | some t =>
    x.reduce e o m fun xs =>
      let r := t.sum2 (vtDaz e.vtype) (vtFtz e.vtype) xs
      ([r.1, r.2.1], r.2.2)

/-- The running sums of R210 over values in order: for each the value to write. -/
def scanFrom (add : Nat → Nat → Nat × Flags) (ex : Bool) (s : Nat) : List Nat → List Nat × Flags
  | [] => ([], 0)
  | a :: rest =>
    let n := add s a
    let r := scanFrom add ex n.1 rest
    ((if ex then s else n.1) :: r.1, n.2 ||| r.2)

/-- The scan of an addition (R210): active elements in order, restarted for each row under FX[4]. -/
def Strand.scan (x : Strand) (e : VEntry) (o : VOp) (m : Ext) (add : Nat → Nat → Nat × Flags) : VRes :=
  let parts := (redGroups e m).map fun g =>
    let ps := g.2.filter fun p => x.active m p.1 p.2
    let r := scanFrom add (m.fx.getLsbD 0) (e.xs.toNat % 2 ^ e.sew) (x.picked e o m g.2)
    (ps.zip r.1, r.2)
  let vals := parts.flatMap fun p => p.1
  let p := x.writeGroup o.vd e.sew e.rows e.cols fun r c =>
    match vals.find? fun v => v.1 == (r, c) with
    | some v => some (v.2, 0)
    | none => if m.zero then some (0, 0) else none
  .done (p.1.orFlags (parts.foldl (fun a p => a ||| p.2) 0)) 0

/-- VSCAN at its commit (R210). -/
def commitVscan (x : Strand) (e : VEntry) (o : VOp) (m : Ext) : VRes :=
  if redClass m != 0 then x.scan e o m fun s a => ((s + a) % 2 ^ e.sew, 0)
  else
    match vtFp e.vtype with
    | none => x.badFormat e
    | some t => x.scan e o m fun s a => t.addFlush (vtDaz e.vtype) (vtFtz e.vtype) (vecRm e.vtype m.rnd) s a

/-- VCOMP at its commit (R211). -/
def commitVcomp (x : Strand) (e : VEntry) (o : VOp) (m : Ext) : VRes :=
  let vals := x.picked e o m (gridOf e.rows e.cols)
  let p := x.writeGroup o.vd e.sew e.rows e.cols fun r c =>
    match vals[r * e.cols + c]? with
    | some v => some (v, 0)
    | none => if m.zero then some (0, 0) else none
  .done p.1 0

/-- VDIG at its commit (R131, R212). -/
def commitVdig (x : Strand) (e : VEntry) (o : VOp) (m : Ext) : VRes :=
  if e.sew == 4 then x.badFormat e
  else .done x (crc64 e.xs ((x.picked e o m (gridOf e.rows e.cols)).flatMap fun v => leBytes (e.sew / 8) v))

/-! ### The front end -/

/-- VREDSUM at the front end (R209, R277). -/
def execVredsum (o : VOp) (s : State) : Out := onStream s fun st k => s.frontEnd st k (.vec 0x1A 0 o Ext.base none)
/-- VREDSUM with its extended words at the front end (R209, R277). -/
def execVredsumExt (o : VOp) (x : Ext) (s : State) : Out := onStream s fun st k => s.frontEnd st k (.vec 0x1A 0 o x none)
/-- VREDMAX at the front end (R209, R277). -/
def execVredmax (o : VOp) (s : State) : Out := onStream s fun st k => s.frontEnd st k (.vec 0x1A 1 o Ext.base none)
/-- VREDMAX with its extended words at the front end (R209, R277). -/
def execVredmaxExt (o : VOp) (x : Ext) (s : State) : Out := onStream s fun st k => s.frontEnd st k (.vec 0x1A 1 o x none)
/-- VREDMIN at the front end (R209, R277). -/
def execVredmin (o : VOp) (s : State) : Out := onStream s fun st k => s.frontEnd st k (.vec 0x1A 2 o Ext.base none)
/-- VREDMIN with its extended words at the front end (R209, R277). -/
def execVredminExt (o : VOp) (x : Ext) (s : State) : Out := onStream s fun st k => s.frontEnd st k (.vec 0x1A 2 o x none)
/-- VREDCS at the front end (R209, R277). -/
def execVredcs (o : VOp) (s : State) : Out := onStream s fun st k => s.frontEnd st k (.vec 0x1A 3 o Ext.base none)
/-- VREDCS with its extended words at the front end (R209, R277). -/
def execVredcsExt (o : VOp) (x : Ext) (s : State) : Out := onStream s fun st k => s.frontEnd st k (.vec 0x1A 3 o x none)
/-- VSCAN at the front end (R210, R277). -/
def execVscan (o : VOp) (x : Ext) (s : State) : Out := onStream s fun st k => s.frontEnd st k (.vec 0x1A 4 o x none)
/-- VCOMP at the front end (R211, R277). -/
def execVcomp (o : VOp) (s : State) : Out := onStream s fun st k => s.frontEnd st k (.vec 0x1A 5 o Ext.base none)
/-- VCOMP with its extended words at the front end (R211, R277). -/
def execVcompExt (o : VOp) (x : Ext) (s : State) : Out := onStream s fun st k => s.frontEnd st k (.vec 0x1A 5 o x none)
/-- VDIG at the front end (R212, R277). -/
def execVdig (o : VOp) (x : Ext) (s : State) : Out := onStream s fun st k => s.frontEnd st k (.vec 0x1A 6 o x none)

end Sys2Proof.Machine
end

