-- ==== Sys2Proof/Machine/Commit.lean ====
section
/-! DEFINITION. The commit of the oldest entry of a vector instruction queue (R197, R279), and the turns of the matrix engine and of the
row units (R218, R219, R252). -/

namespace Sys2Proof.Machine

/-! ### What each vector instruction does at its commit -/

/-- Integer lanes, major 0x13. -/
def commitMaj13 (x : Strand) (e : VEntry) (f3 : Nat) (o : VOp) (m : Ext) : VRes :=
  match f3 with
  | 0 => commitVadd x e o m
  | 1 => commitVsub x e o m
  | 2 => commitVmul x e o m
  | 3 => commitVmulh x e o m
  | 4 => commitVand x e o m
  | 5 => commitVor x e o m
  | 6 => commitVxor x e o m
  | _ => commitVmin x e o m

/-- Integer lanes, major 0x14. -/
def commitMaj14 (x : Strand) (e : VEntry) (f3 : Nat) (o : VOp) (m : Ext) : VRes :=
  match f3 with
  | 0 => commitVmax x e o m
  | 1 => commitVsll x e o m
  | 2 => commitVsrl x e o m
  | 3 => commitVsra x e o m
  | 4 => commitVadds x e o m
  | 5 => commitVsubs x e o m
  | 6 => commitVmac x e o m
  | _ => commitVabsd x e o m

/-- Floating-point lanes, major 0x15. -/
def commitMaj15 (x : Strand) (e : VEntry) (f3 : Nat) (o : VOp) (m : Ext) : VRes :=
  match f3 with
  | 0 => commitVfadd x e o m
  | 1 => commitVfsub x e o m
  | 2 => commitVfmul x e o m
  | 3 => commitVfma x e o m
  | 4 => commitVfdiv x e o m
  | 5 => commitVfsqrt x e o m
  | 6 => commitVfmin x e o m
  | _ => commitVfmax x e o m

/-- Floating-point lanes, major 0x16. -/
def commitMaj16 (coef : Vector CoefTable 2) (x : Strand) (e : VEntry) (f3 : Nat) (o : VOp) (m : Ext) : VRes :=
  match f3 with
  | 0 => commitVfsgn x e o m
  | 1 => commitVfscl x e o m
  | 2 => commitVfcls x e o m
  | 3 => commitVpoly coef x e o m
  | _ => commitVtwos x e o m

/-- Predicates and compares, major 0x17. -/
def commitMaj17 (x : Strand) (e : VEntry) (f3 : Nat) (o : VOp) (m : Ext) : VRes :=
  match f3 with
  | 0 => commitVcmp x e o m
  | 1 => commitVfcmp x e o m
  | 2 => commitPlog x e o m
  | 3 => commitPset x e o m
  | 4 => commitPcnt x e o m
  | 5 => commitPfirst x e o m
  | _ => commitVsel x e o m

/-- Conversion and quantisation, major 0x18. -/
def commitMaj18 (x : Strand) (e : VEntry) (f3 : Nat) (o : VOp) (m : Ext) : VRes :=
  match f3 with
  | 0 => commitVcvt x e o m
  | 1 => commitQnt x e o m
  | 2 => commitQnte x e o m
  | _ => commitDqnt x e o m

/-- Permutation, major 0x19. -/
def commitMaj19 (x : Strand) (e : VEntry) (f3 : Nat) (o : VOp) (m : Ext) : VRes :=
  match f3 with
  | 0 => commitVmv x e o m
  | 1 => commitVbcast x e o m
  | 2 => commitVext x e o m
  | 3 => commitVins x e o m
  | 4 => commitVslup x e o m
  | 5 => commitVsldn x e o m
  | 6 => commitVperm x e o m
  | _ => commitVtrn x e o m

/-- Reductions and scans, major 0x1A. -/
def commitMaj1A (x : Strand) (e : VEntry) (f3 : Nat) (o : VOp) (m : Ext) : VRes :=
  match f3 with
  | 0 => commitVredsum x e o m
  | 1 => commitVredmax x e o m
  | 2 => commitVredmin x e o m
  | 3 => commitVredcs x e o m
  | 4 => commitVscan x e o m
  | 5 => commitVcomp x e o m
  | _ => commitVdig x e o m

/-- A vector instruction of majors 0x13 to 0x1A at its commit. -/
def State.commitVec (s : State) (x : Strand) (e : VEntry) (maj f3 : Nat) (o : VOp) (m : Ext) : VRes :=
  match maj with
  | 0x13 => commitMaj13 x e f3 o m
  | 0x14 => commitMaj14 x e f3 o m
  | 0x15 => commitMaj15 x e f3 o m
  | 0x16 => commitMaj16 (s.tablesOf x) x e f3 o m
  | 0x17 => commitMaj17 x e f3 o m
  | 0x18 => commitMaj18 x e f3 o m
  | 0x19 => commitMaj19 x e f3 o m
  | _ => commitMaj1A x e f3 o m

/-- The oldest entry of a strand at its issue and commit (R197, R218, R279). -/
def State.commitEntry (s : State) (st : Fin 4) (e : VEntry) : State :=
  match e.form with
  | .row func var _ _ _ aJ aT vX m => s.rowIssue st e func var aJ aT vX m
  | .vec 0x11 _ o m _ => s.settleEntry st e (commitVpf (s.strand st) e o m)
  | .vec 0x12 f3 o m disp => s.vmem st e f3 o m disp
  | .vec 0x1B f3 o m _ => s.matIssue st e f3 o m
  | .vec maj f3 o m _ => s.settleEntry st e (s.commitVec (s.strand st) e maj f3 o m)

/-! ### What a commit does to poison on the register die (R31, R370; log 114) -/

/-- A register of the frame filled with zeros or with ones. -/
def Strand.fillReg (x : Strand) (b : Nat) (ones : Bool) : Strand :=
  if b < 64 then { x with v := x.v.set (fin 64 b).val (if ones then BitVec.allOnes _ else 0) (fin 64 b).isLt }
  else { x with p := x.p.set (fin 16 (b - 64)).val (if ones then BitVec.allOnes _ else 0) (fin 16 (b - 64)).isLt }

/-- Whether the oldest entry, executed whole, overwrites all of a register of the frame: what the register holds then does not depend on what it held. -/
def State.overwrites (s : State) (st : Fin 4) (e : VEntry) (b : Nat) : Bool :=
  let e' : VEntry := { e with begun := false, restart := 0 }
  let after := fun (ones : Bool) =>
    ((s.modStrand st fun x => { x.fillReg b ones with viq := e' :: x.viq.drop 1 }).commitEntry st e').strand st
  if b < 64 then (after false).v.get (fin 64 b) == (after true).v.get (fin 64 b)
  else (after false).p.get (fin 16 (b - 64)) == (after true).p.get (fin 16 (b - 64))

/-- Whether the oldest entry of a strand has committed from one state to another. -/
def committed (x y : Strand) : Bool :=
  y.halt == .none && y.tstatus.getLsbD 0 == x.tstatus.getLsbD 0 && y.viq.length + 1 == x.viq.length

/-- The registers that hold poisoned data once an entry has committed: none that it has overwritten, and those rows of the last-result file that
have taken some (R174). -/
def State.settleBad (t s : State) (st : Fin 4) (e : VEntry) : State :=
  if (s.strand st).bad.isEmpty || !committed (s.strand st) (t.strand st) then t
  else
    let left := (s.strand st).bad.filter fun b => 80 ≤ b || !s.overwrites st e b
    t.modStrand st fun x => { x with bad := shiftBad e.form (vtG e.vtype) left }

/-- VIQ_COMMIT (R197, R279): the oldest entry commits or traps; an entry of an edited frame that fails the checks of its enqueue traps
`ILLEGAL` at the VCP (R354), and one that reads a register with poisoned data traps `POISON` (R370; log 114: its `TVAL` is open). -/
def execViqCommit (st : Fin 4) (s : State) : Out :=
  let x := s.strand st
  match x.viq with
  | [] => .next s
  | e :: _ =>
    if x.halt != .none then .next s
    else
      match e.ill with
      | some sub => .next (s.vecTrap st cIllegal (illVal sub e.w0))
      | none =>
        if x.readsBad e then .next (s.vecTrap st cPoison (Config.openTval s.tick)) else .next (((s.commitEntry st e).settleBad s st e).checkDead st)

/-! ### The matrix engine and the row units -/

/-- The tiles that an entry of the engine's queue reads or writes. -/
def MatEntry.tiles (q : MatEntry) : List Nat :=
  match q.ent.form with
  | .vec _ 0 o _ _ => [o.vd.toNat]
  | .vec _ 2 o _ _ => [o.vd.toNat]
  | .vec _ 4 _ m _ => [(m.fx.extractLsb' 0 4).toNat]
  | .vec _ 5 _ m _ => [(m.fx.extractLsb' 0 4).toNat]
  | .vec _ _ _ _ _ => []
  | .row _ _ _ _ _ aJ aT _ _ => [aJ.toNat, aT.toNat]

/-- MMA_ACCUMULATE (R226): the oldest entry of the queue, a MMA, accumulates. It waits for a deep part into its tile (R252). -/
def execMmaAccumulate (s : State) : Out :=
  match s.mat.mq with
  | [] => .next s
  | q :: _ =>
    match q.ent.form with
    | .vec 0x1B 0 o m _ => if s.engineStopped || q.tiles.any s.tileBusy then .next s else .next (s.popMat.mmaRun q o m)
    | _ => .next s

/-- The effect of an entry that is no MMA at its turn. -/
def State.matRun (s : State) (q : MatEntry) : State :=
  match q.ent.form with
  | .vec _ 1 o _ _ =>
    match q.slot with
    | some b => s.modMat fun mt => mt.modSlot o.vd.toNat fun old => keepPin b old
    | none => s
  | .vec _ 2 o _ _ => s.azeroRun q o
  | .vec _ 4 _ m _ => s.awrRun q m
  | .vec _ 5 _ m _ => s.modMat fun mt => mt.eptk q.task q.ent m
  | .vec _ 6 o m _ => s.bslotRun q o m
  | .row _ ad _ _ row0 aJ aT _ m => s.rmmulRun q ad aJ aT m (16 * row0.toNat)
  | .vec _ _ _ _ _ => s

/-- A saved matrix state in which a launch that has ended still has engine operations in flight, back on a core without an owner, so that they
complete (R324; log 124). -/
def State.reclaim (s : State) : Option State :=
  if s.mat.owner.isSome then none
  else
    (s.savedMat.find? fun e => e.2.mq.any MatEntry.isOp && (s.launch e.1).any fun l => match l.phase with
      | .ending _ => true
      | .waiting | .queued | .running | .complete _ => false).map fun e =>
        { s with mat := { e.2 with owner := some e.1 }, savedMat := s.savedMat.filter fun q => q.1 != e.1 }

/-- MATRIX_ENGINE_TURN (R218, R219): the oldest entry of the queue, if it is no MMA, takes effect. -/
def execMatrixEngineTurn (s : State) : Out :=
  match s.mat.mq with
  | [] => .next (s.reclaim.getD s)
  | q :: _ =>
    match q.ent.form with
    | .vec 0x1B 0 _ _ _ => .next s
    | _ => if s.engineStopped || q.tiles.any s.tileBusy then .next s else .next (s.popMat.matRun q)

/-- Part of the oldest entry of the queue, an MMA, is done: a number of its K steps, of which the last ends it (R223). -/
def State.kStep (s : State) (n : Nat) : State :=
  match s.mat.mq with
  | [] => s
  | q :: t =>
    match q.ent.form with
    | .vec 0x1B 0 _ _ _ =>
      if s.engineStopped || q.tiles.any s.tileBusy || q.kSteps ≤ q.steps + n then s
      else s.modMat fun mt => { mt with mq := { q with steps := q.steps + n } :: t }
    | _ => s

/-- A deep part of a strand into a tile that has not landed. -/
def DeepPart.awaits (d : DeepPart) (st : Fin 4) (aJ : BitVec 4) : Bool := d.strand == st && d.aJ == aJ.toNat && !d.ready

/-- A deep part landed in the matrix state that holds it. -/
def State.landIn (s : State) (mt : Matrix) (d : DeepPart) : Matrix :=
  let r := s.landDeep mt d
  { r.1 with deep := r.1.deep.map fun g => if g == d then r.2 else g }

/-- DEEP_PART_ARRIVAL (R252): the deep part of a strand's split product lands in its tile, once no held stack keeps its weights; that of a
launch whose matrix state is saved lands there (R255). -/
def execDeepPartArrival (st : Fin 4) (aJ : BitVec 4) (s : State) : Out :=
  let find := fun (mt : Matrix) => mt.deep.find? fun d => d.awaits st aJ
  let pas := fun (d : DeepPart) => d.map.pasOf (d.fired.flatMap fun k => d.map.rowRanges k)
  match find s.mat with
  | some d =>
    if s.anyHeld (pas d) then .next (s.keepWork (pas d) d.ent.task (.deep st aJ)) else .next { s with mat := s.landIn s.mat d }
  | none =>
    match s.savedMat.findSome? fun e => (find e.2).map fun d => (e.1, d) with
    | none => .next s
    | some (l, d) =>
      if s.anyHeld (pas d) then .next (s.keepWork (pas d) d.ent.task (.deep st aJ))
      else .next { s with savedMat := s.savedMat.map fun e => if e.1 == l then (e.1, s.landIn e.2 d) else e }

/-- WCB_DRAIN (R299): the stores that the write-combining buffer holds to the line of its oldest entry perform at their homes (log 36). -/
def execWcbDrain (s : State) : Out :=
  match s.wcb.find? fun e => !s.unreachable e.pa with
  | none => .next s
  | some e => .next (s.drainAt e.pa 1)

end Sys2Proof.Machine
end

