-- ==== Sys2Proof/Machine/Team.lean ====
section
/-! DEFINITION. Teams: placing one on the core with the entry state of its tasks (R29, R270, R311 to R317, R323, R342, R350), the
preload (R326), and its retirement (R126, R162, R220). -/

namespace Sys2Proof.Machine

/-! ### The entry state of a task (R29, R270) -/

/-- A stream at task entry (R270): everything zero but x3, x4 and x5. -/
def Stream.entry (pc args wid : W64) (ix now : Nat) (runs : Bool) : Stream :=
  let x0 : Vector W64 32 := Vector.replicate 32 0
  { Stream.reset with
    pc := pc
    x := ((x0.set 3 args).set 4 wid).set 5 (BitVec.ofNat 64 ix)
    status := if runs then .run else .absent
    age := now }

/-- What a task's place gives it: its launch, its team's number and offsets, and its index (R317, R323, R350). -/
structure Seat where
  task  : Task
  hdr   : Header
  core  : Nat
  base  : Nat
  arena : Nat
  deriving DecidableEq, Repr

/-- The WID of a task (R314). -/
def Seat.wid (q : Seat) : W64 := BitVec.ofNat 64 (q.task.team.toNat * q.hdr.z + q.task.ix)

/-- The logical core of a task (R316, R323). -/
def Seat.lc (q : Seat) : Nat := if q.hdr.det then q.task.team.toNat % q.hdr.c else q.core

/-- A strand at task entry: the registers that the launch sets, the reset values of the others, and v0 to v63, p1 to p15 and o0 to o7 as
the strand's last task left them (R29). -/
def Strand.atEntry (x : Strand) (q : Seat) (aspace : W64) (now : Nat) : Strand :=
  { Strand.reset with
    a := Stream.entry (if q.hdr.apresent then q.hdr.aEntry else 0) q.hdr.args q.wid q.task.ix now q.hdr.apresent
    e := Stream.entry q.hdr.eEntry q.hdr.args q.wid q.task.ix now true
    v := x.v
    p := x.p
    o := x.o
    tvec := q.hdr.handler &&& ~~~3#64
    wid := q.wid
    teamix := BitVec.ofNat 64 q.task.ix
    lnchid := q.task.launch.setWidth 64
    lcore := BitVec.ofNat 64 q.lc
    spbase := BitVec.ofNat 64 q.base
    spsize := BitVec.ofNat 64 q.hdr.scratch
    platbase := BitVec.ofNat 64 q.arena
    platsize := BitVec.ofNat 64 q.hdr.arena
    dmode := if q.hdr.det then 1 else 0
    aspace := aspace
    netSeq := x.netSeq
    net := x.net
    task := some q.task }

/-- The value of `ASPACE` that the supervisor writes when it binds a context of a space (R112). -/
def Space.aspace (p : Space) : W64 := p.root.extractLsb' 12 44 ++ (0 : BitVec 2) ++ p.key ++ p.asid

/-! ### TEAM_DISPATCH -/

/-- Whether strand numbers are distinct and no task is bound to them. -/
def State.seatsFree (s : State) : List (Fin 4) → Bool
  | [] => true
  | st :: t => (s.strand st).task.isNone && !t.contains st && s.seatsFree t

/-- Whether a scratchpad run from an offset is aligned and inside (R317). -/
def runInside (base len : Nat) : Bool := base % 64 == 0 && decide (base + len ≤ 2 ^ 22)

/-- Whether the launch's next team may be dispatched at all (R315, R316, R318): it is in its queue or running, and in D-mode of the
wave that runs. -/
def Launch.offers (l : Launch) (team : W64) : Bool :=
  (l.phase == .queued || l.phase == .running) && team.toNat == l.nextTeam && decide (l.nextTeam < l.hdr.teams)
    && (!l.hdr.det || l.nextTeam / l.hdr.c == l.wave)

/-- The die of a core (R15). -/
def coreDie (n : Nat) : Nat := n / 32 % 8

/-- The cores that a D-mode launch which starts on the active core is bound to, in order (R316; log 69): the active core and the others of its
die, then those of the other dies that can run it. -/
def State.bindOrder (s : State) (p : Space) : List Nat :=
  (((List.range 8).map fun i => (s.die + i) % 8).filter fun d => s.dieReady d && p.dies.getLsbD d).flatMap fun d =>
    (List.range 32).map fun j => 32 * d + (s.core + j) % 32

/-- The binding of all the logical cores of a D-mode launch that starts on the active core, or none where it cannot bind them all (R316). -/
def State.binding (s : State) (l : Launch) (p : Space) : Option (List (Nat × Nat)) :=
  let cs := (s.bindOrder p).take l.hdr.c
  if cs.length < l.hdr.c || s.bindOrder p == [] then none else some (cs.zipIdx.map fun e => (e.2, e.1))

/-- The binding of a launch once a team of it has been dispatched to the active core (R316): it stands for the whole launch. Outside D-mode
there is none. -/
def State.boundFor (s : State) (l : Launch) (p : Space) : Option (List (Nat × Nat)) :=
  if !l.hdr.det || !l.bound.isEmpty then some l.bound else s.binding l p

/-- Whether the active core is bound to a team's logical core in D-mode (R317). -/
def State.bindable (s : State) (l : Launch) (p : Space) (team : Nat) : Bool :=
  !l.hdr.det || (s.boundFor l p).any fun b => b.contains (team % l.hdr.c, s.core)

/-- The number of a team's die group (R315). -/
def Header.group (h : Header) (team : Nat) : Nat := team / h.d

/-- Whether a team's die group is on the active core's die, or on none yet (R315). -/
def State.groupFits (s : State) (l : Launch) (team : Nat) : Bool := l.groups.all fun g => g.1 != l.hdr.group team || g.2 == s.die

/-- Whether this core can take a team of a launch (R28, R220, R316, R317), the confidentiality context apart. -/
def State.takes (s : State) (l : Launch) (p : Space) (team : W64) (strands : List (Fin 4)) (base : Nat) : Bool :=
  s.dieReady s.die && p.dies.getLsbD s.die && !strands.isEmpty && strands.length == l.hdr.members team.toNat && s.seatsFree strands
    && strands.all s.bindQuiet && decide (l.hdr.z ≤ s.freeStrands.length) && runInside base (l.hdr.scratch + l.hdr.arena) && s.coefFits l
    && (s.mat.owner == none || s.mat.owner == some l.id)
    && s.bindable l p team.toNat && s.groupFits l team.toNat

/-- The coefficient image of a launch loaded before its first team starts on the core (R311), as `COEFLD` with t = 2 would: none while a
held stack keeps it. An image that cannot be read or fails a check gives the launch no tables (log 40). -/
def State.loadCoef (s : State) (l : Launch) (p : Space) : Option State :=
  if l.hdr.coef == 0 || s.coefFor.contains l.id then some s
  else
    match s.xlateBytes p.acc l.hdr.coef (2 * tableLen) true false with
    | .error _ => some s
    | .ok pas =>
      let images := coefImages 2 (s.homeBytes (s.slotKey p.key) pas)
      if s.anyHeld pas then none
      else if pas.any s.poisoned || (images.findSome? fun e => coefBad e.2).isSome then some s
      else some { s.setTables images with coefFor := (s.coefFor.filter fun i => s.teams.any fun t => s.usesCoef t i) ++ [l.id] }

/-- The PAs of a closure region that can be read. -/
def State.regionPas (s : State) (p : Space) (r : Region) : List Nat :=
  match s.spaceXlate p r.va r.len true false with
  | .ok pas => pas
  | .error _ => []

/-- Step 1 of R331, before the first team of a closure-checked launch: every input region copied, once no held stack keeps any of it. -/
def State.snap (s : State) (l : Launch) (p : Space) : Option (List (Nat × Byte)) :=
  if l.hdr.closed && !l.second && l.nextTeam == 0 then
    let pas := (l.regions.filter fun r => !r.out).flatMap fun r => s.regionPas p r
    if s.anyHeld pas then none else some (pas.map fun pa => (pa, s.homeByte (s.slotKey p.key) pa))
  else some l.snapshot

/-- A team placed on the core, its tasks at their entry state (R317). -/
def State.seat (s : State) (l : Launch) (p : Space) (team : W64) (strands : List (Fin 4)) (base : Nat) : State :=
  let arena := base + l.hdr.scratch
  let t : Team := {
    launch := l.id
    team := team
    core := s.core
    strands := strands
    base := base
    arena := arena
    plats := []
    relSeq := 0
    lines := []
    ops := [] }
  let s1 := { s with teams := s.teams ++ [t] }
  strands.zipIdx.foldl (fun u e =>
    let q : Seat := {
      task := { launch := l.id, team := team, ix := e.2, reruns := 0 }
      hdr := l.hdr
      core := s.core
      base := base
      arena := arena }
    u.modStrand e.1 fun x => x.atEntry q p.aspace s.tick) s1

/-- A launch whose next team has been dispatched to a core. -/
def Launch.dispatched (l : Launch) (snapshot : List (Nat × Byte)) (bound : List (Nat × Nat)) (team core : Nat) (now : W64) : Launch :=
  { l with
    phase := .running
    nextTeam := l.nextTeam + 1
    snapshot := snapshot
    since := now
    bound := bound
    groups := if l.groups.any (fun g => g.1 == l.hdr.group team) then l.groups else l.groups ++ [(l.hdr.group team, coreDie core)] }

/-- The seed of the core for the launches that run on it (R322, R331): that of a second run, else the identity order's. -/
def State.seedNow (s : State) : W64 :=
  match s.teams.findSome? fun t => if s.here t then (s.launch t.launch).filter fun l => l.hdr.closed && l.second else none with
  | some l => BitVec.ofNat 64 (1 + l.digest1.toNat % 23)
  | none => 0

/-- The scratchpad offsets that a run placed as low as it goes can start at: 0 and the ends of the resident teams' runs. -/
def State.bases (s : State) : List Nat := 0 :: (s.teams.filter fun t => s.here t && !s.scrSaved t).map fun t => t.base + s.runLen t

/-- Whether a run of a length is free somewhere on the core, so that no parked team's bytes need to be saved for it (R347). -/
def State.hasRun (s : State) (len : Nat) : Bool := s.bases.any fun b => runInside b len && (s.inRun none b len).isEmpty

/-- A run for a new team: free as it is, or with parked teams' bytes saved where none is (R317, R347). -/
def State.newRun (s : State) (base len : Nat) : Option State :=
  if (s.inRun none base len).isEmpty then some s else if s.hasRun len then none else s.clearRun none base len

/-- Whether a team of a launch that has been pre-empted and has given up its strands waits for this core: it stands at the front of the
launch's place (R320). -/
def State.frontParked (s : State) (l : Launch) : Bool :=
  s.teams.any fun t => t.launch == l.id && s.here t && (s.movedOf t).any fun p => p.ctx.halt == .preempted

/-- Whether a team of a D-mode launch is pre-empted on any core: its wave goes on as a whole, and dispatches nothing before (R320). -/
def State.waveHalted (s : State) (l : Launch) : Bool :=
  l.hdr.det && s.views.any fun v => v.frontParked l || v.strands.toList.any fun x => x.of l.id && x.halt == .preempted

/-- The active core made ready for a launch's next team (R317, R347, R369): parked contexts of another confidentiality context and the bytes
of parked teams saved, and the launch's tables loaded. None where the core cannot take the team now. -/
def State.readyFor (s : State) (l : Launch) (p : Space) (team : W64) (strands : List (Fin 4)) (base : Nat) : Option State :=
  if s.frontParked l || s.waveHalted l then none
  else
    (s.switchTo (p.asid, p.key)).bind fun s1 =>
      if !s1.takes l p team strands base then none
      else (s1.newRun base (l.hdr.scratch + l.hdr.arena)).bind fun s2 => (s2.restoreCoef l.id).bind fun s3 => s3.loadCoef l p

/-- Whether a team of a launch that has been pre-empted could come back to the active core now (R320). -/
def State.canReturn (s : State) (l : Launch) : Bool :=
  s.teams.any fun t => t.launch == l.id && s.here t && (s.movedOf t).any (fun p => p.ctx.halt == .preempted) && (s.bringBack t).isSome

/-- The strands and the lowest run that the launch's next team could have on the active core now, once the core is in its context (R317, R369). -/
def State.seatFor (s : State) (l : Launch) (p : Space) : Option (List (Fin 4) × Nat) :=
  let team := BitVec.ofNat 64 l.nextTeam
  if !l.offers team then none
  else
    (s.switchTo (p.asid, p.key)).bind fun v =>
      let strands := (v.freeStrands.filter v.bindQuiet).take (l.hdr.members l.nextTeam)
      (v.bases.find? fun b => (s.readyFor l p team strands b).isSome).map fun b => (strands, b)

/-- Whether the launch's next team could be placed on the active core now. -/
def State.placeable (s : State) (l : Launch) : Bool := (s.space l.asid).any fun p => (s.seatFor l p).isSome

/-- The launches of a queue that a core is offered to before one of them (R319): those of a higher priority, and those of the same that
come earlier. -/
def goesBefore (prio : BitVec 32 → Nat) (me : BitVec 32) : List (BitVec 32) → List (BitVec 32)
  | [] => []
  | q :: t => if q == me then t.filter fun r => decide (prio me < prio r)
      else if prio me ≤ prio q then q :: goesBefore prio me t else goesBefore prio me t

/-- The priority of a launch. -/
def State.priorityOf (s : State) (id : BitVec 32) : Nat :=
  match s.launch id with
  | some l => l.hdr.priority
  | none => 0

/-- Whether the core is offered to a launch (R319): no launch before it has a team that the core can take. -/
def State.offered (s : State) (id : BitVec 32) : Bool :=
  !(goesBefore s.priorityOf id s.queue).any fun q => (s.launch q).any fun l => s.placeable l || s.canReturn l

/-- The queue after a launch's turn (R319): the launch at the end of it, or gone with its last team dispatched, unless a team of it that has been
pre-empted waits on some core (R320). -/
def State.takeTurn (s : State) (l : Launch) : State :=
  let rest := s.queue.filter fun q => q != l.id
  { s with queue := if decide (l.nextTeam + 1 < l.hdr.teams) || s.views.any (fun v => v.frontParked l) then rest ++ [l.id] else rest }

/-- TEAM_DISPATCH (R317, R319): the launch's next team placed on the active core. -/
def execTeamDispatch (launch : BitVec 32) (team : W64) (strands : List (Fin 4)) (base : Nat) (s : State) : Out :=
  match s.launch launch with
  | none => .next s
  | some l =>
    match s.space l.asid with
    | none => .next s
    | some p =>
      if !l.offers team || !s.offered l.id then .next s
      else
        match s.readyFor l p team strands base, s.snap l p, s.boundFor l p with
        | some s1, some snapshot, some bound =>
          let s2 := ((s1.takeTurn l).seat l p team strands base).modLaunch l.id fun m =>
            m.dispatched snapshot bound team.toNat s.core s.cycle
          .next { s2 with seed := s2.seedNow }
        | _, _, _ => .next s

/-- PRELOAD (R326): it never changes a value, a placement or a completion. -/
def execPreload (s : State) : Out := .next s

/-! ### TEAM_RETIRE -/

/-- Whether the engine still holds work of a team: a queued instruction, or a deep part that has not landed. -/
def State.engineHolds (s : State) (t : Team) : Bool :=
  let mine := fun (k : Option Task) => k.any fun u => t.holds u
  s.mats.any fun mt => (mt.mq.any fun q => mine q.task) || mt.deep.any fun d => !d.ready && mine d.ent.task

/-- Every bound map unbound, pending counts flushed first (R237). -/
def State.unbindAll (s : State) : State :=
  ((List.finRange 16).map fun i => BitVec.ofNat 4 i.val).foldl (fun u m =>
    match u.mat.map m with
    | some r => u.unbind m r
    | none => u) s

/-- Whether a flush of the maps of a launch waits for a held stack. -/
def State.flushHeld (s : State) (id : BitVec 32) : Bool :=
  let held := fun (mt : Matrix) => mt.maps.toList.any fun m => m.any fun r => s.anyHeld (r.pasOf [(r.countA, 2 * r.kk)])
  held s.mat || s.savedMat.any fun p => p.1 == id && held p.2

/-- The matrix state when the last team of a launch leaves the core (R220, R237): its maps unbound and the core without an owner. -/
def State.disown (s : State) (id : BitVec 32) : State :=
  let s1 := if s.mat.owner == none then
      match s.savedMat.find? fun p => p.1 == id with
      | some p => { s with mat := { s.mat with maps := p.2.maps } }
      | none => s
    else s
  if s.mat.owner == some id || s.mat.owner == none then
    let s2 := s1.unbindAll
    { s2 with mat := s2.mat.handOver, savedMat := s2.savedMat.filter fun p => p.1 != id }
  else s1

/-- Whether a team may retire (R126, R162): every task of it has ended, and no operation holds it back. -/
def State.mayRetire (s : State) (t : Team) : Bool :=
  (s.movedOf t).isEmpty && (s.membersOf t).all (fun st => (s.strand st).over && (s.strand st).viq.isEmpty)
    && !s.touched t && !s.engineHolds t

/-- Whether a team is its launch's last on the core. -/
def State.lastHere (s : State) (t : Team) : Bool :=
  !s.teams.any fun u => u.launch == t.launch && u.team != t.team && s.here u

/-- The plats of a team that are not released yet released (R126): their seals freed, the flag and the reason written to their headers. -/
def State.releaseAll (s : State) (t : Team) : State :=
  (s.freeSeals ((t.plats.filter fun p => p.released.isNone).flatMap fun p => p.seals)).modPlats
    (fun u q => u.launch == t.launch && u.team == t.team && q.released.isNone) fun q => { q.stale 4 with released := some t.relSeq }

/-- A team gone: its plats released, its strands free (R126). -/
def State.dropTeam (s : State) (t : Team) : State :=
  ((s.membersOf t).foldl (fun u st => u.modStrand st Strand.vacate) (s.releaseAll t)).dropDeep fun k => k.any fun u => t.holds u

/-- What is kept of a team, and of its launch where no other team of it is on the core, gone. -/
def State.forget (s : State) (t : Team) : State :=
  let s1 := { s with
    teams := s.teams.filter fun v => !(v.launch == t.launch && v.team == t.team)
    savedScr := s.savedScr.filter fun e => !(e.launch == t.launch && e.team == t.team)
    savedCoef := if s.lastHere t then s.savedCoef.filter fun e => e.1 != t.launch else s.savedCoef }
  { s1 with seed := s1.seedNow }

/-- TEAM_RETIRE (R126, R162, R220) of a team of the active core. -/
def execTeamRetire (launch : BitVec 32) (team : W64) (s : State) : Out :=
  match s.teams.find? fun t => t.launch == launch && t.team == team with
  | none => .next s
  | some t =>
    if !s.here t || !s.mayRetire t then .next s
    else if s.lastHere t then
      if s.mat.owner.any (fun l => l != launch) && s.savedMat.any (fun p => p.1 == launch) then .next s
      else if s.flushHeld launch then .next s
      else .next (((s.dropTeam t).disown launch).forget t)
    else .next ((s.dropTeam t).forget t)

end Sys2Proof.Machine
end

