-- ==== Sys2Proof/Machine/Preempt.lean ====
section
/-! DEFINITION. Pre-emption and resumption (R320, R345 to R348), budgets and reruns (R324, R325), and what the supervisor does with a
parked strand (R339). -/

namespace Sys2Proof.Machine

/-! ### Pre-emption -/

/-- Whether a team is one of a D-mode launch. -/
def State.detTeam (s : State) (t : Team) : Bool := (s.launch t.launch).any fun l => l.hdr.det

/-- Every strand of a team halted by pre-emption, on its core; of its contexts that wait off their strands for another reason it is noted (R357). -/
def State.haltTeam (s : State) (t : Team) : State :=
  s.onCore t.core fun v =>
    let u := (v.membersOf t).foldl (fun u st => u.preempt st .preempted) v
    { u with parked := u.parked.map fun p => if p.ctx.onTeam t then { p with ctx := p.ctx.noted } else p }

/-- PREEMPT_REQUEST (R345): every strand of the core halts at an instruction boundary, and with a team of a D-mode launch its whole wave
(R320). -/
def execPreemptRequest (s : State) : Out :=
  let waves := s.teams.filter fun t => s.detTeam t && s.teams.any fun u => u.launch == t.launch && s.here u
  .next (waves.foldl State.haltTeam (allStrands.foldl (fun u st => u.preempt st .preempted) s))

/-- The priority of a team's launch. -/
def State.teamPriority (s : State) (t : Team) : Nat := s.priorityOf t.launch

/-- Whether a task of a team still runs on its core. -/
def State.teamLive (s : State) (t : Team) : Bool :=
  let v := s.switchCore t.core
  v.teamRuns t && (v.membersOf t).any fun st => !(v.strand st).over

/-- Whether a launch waits for a core with its next team, and whether with a team that has been pre-empted (R320). -/
def State.wants (s : State) (l : Launch) : Bool × Bool :=
  (l.offers (BitVec.ofNat 64 l.nextTeam) && !s.waveHalted l, s.views.any fun v => v.frontParked l)

/-- The team that a waiting launch pre-empts (R320): of the lowest priority below its own, the one dispatched most recently. A launch that waits with
pre-empted teams alone pre-empts on a core of theirs. -/
def State.victim (s : State) (l : Launch) : Option Team :=
  let here := fun (t : Team) => (s.wants l).1 || (s.switchCore t.core).frontParked l
  (s.teams.filter fun t => s.teamLive t && here t && decide (s.teamPriority t < l.hdr.priority)).foldl
    (fun (b : Option Team) t =>
      match b with
      | some u => if s.teamPriority t ≤ s.teamPriority u then some t else b
      | none => some t) none

/-- A launch back in the queue (R320): where it has left the queue, it stands before every launch. -/
def State.requeue (s : State) (id : BitVec 32) : State := if s.queue.contains id then s else { s with queue := id :: s.queue }

/-- A team halted on its core and moved off its strands, at the front of its launch's place in the queue, where the launch waits from now on (R320,
R347; log 115). -/
def State.displace (s : State) (t : Team) : State :=
  (((s.haltTeam t).onCore t.core fun v => v.moveTeam t).requeue t.launch).modLaunch t.launch fun m => { m with since := s.cycle }

/-- Whether a context of a team waits for the supervisor or for its rerun, and could go on without the scheduler. -/
def State.teamWaits (s : State) (t : Team) : Bool :=
  let v := s.switchCore t.core
  (v.membersOf t).any (fun st => (v.strand st).waits) || (v.movedOf t).any fun p => p.ctx.waits

/-- The teams that give way with a victim: in D-mode the whole wave, a team that waits for the supervisor or a rerun too (R320). -/
def State.displaced (s : State) (t : Team) : List Team :=
  if s.detTeam t then s.teams.filter fun u => u.launch == t.launch && (s.teamLive u || s.teamWaits u) else [t]

/-- The core cycles of a microsecond (R22: 2.25 GHz). -/
def cyclesPerUs : Nat := 2250

/-- Whether a launch has waited for a core for one quantum, with its next team or with one that has been pre-empted (R320). -/
def State.waitedQuantum (s : State) (l : Launch) : Bool :=
  ((s.wants l).1 || (s.wants l).2)
    && decide (s.quantum * cyclesPerUs ≤ (s.cycle - l.since).toNat)

/-- QUANTUM_EXPIRY (R320): the launch, which has waited for one quantum, takes the strands of its victim. -/
def execQuantumExpiry (launch : BitVec 32) (s : State) : Out :=
  match s.launch launch with
  | none => .next s
  | some l =>
    if !s.waitedQuantum l then .next s
    else
      match s.victim l with
      | none => .next s
      | some t => .next (((s.displaced t).foldl State.displace s).modLaunch l.id fun m => { m with since := s.cycle })

/-- The quantum that the supervisor sets, between 1 and 1,000 microseconds (R320). -/
def State.setQuantum (s : State) (us : Nat) : State := if 1 ≤ us && us ≤ 1000 then { s with quantum := us } else s

/-- The halted context of a strand, in place or moved. -/
def State.haltedAt (s : State) (st : Fin 4) (sel : Halt → Bool) : Option Strand :=
  if (s.strand st).task.isSome && sel (s.strand st).halt then some (s.strand st)
  else (s.parked.find? fun p => p.st == st && sel p.ctx.halt).map fun p => p.ctx

/-- Whether a context is halted by pre-emption. -/
def isPreempted (h : Halt) : Bool := h == .preempted

/-- The pre-empted strands of a team resumed on its core, all or none. -/
def State.resumeTeam (s : State) (t : Team) : Option State :=
  let v := s.switchCore t.core
  ((if (v.movedOf t).any fun p => isPreempted p.ctx.halt then v.bringBack t else some v).bind fun w =>
    (w.membersOf t).foldl (fun (o : Option State) st =>
      o.bind fun u => if isPreempted (u.strand st).halt then u.unpark st isPreempted true else some u) (some w)).map
        fun u => u.switchCore s.core

/-- A core whose contexts of a launch have no pre-emption noted any more. -/
def CoreSt.unnote (c : CoreSt) (id : BitVec 32) : CoreSt :=
  let f := fun (x : Strand) => if x.of id then { x with preDue := false } else x
  { c with strands := c.strands |> mapVec f, parked := c.parked.map fun p => { p with ctx := f p.ctx } }

/-- A D-mode launch resumed as a whole wave (R320): every pre-empted strand of it on every core, or none. A pre-emption that was noted for a context
which waits for another reason is over with it. -/
def State.resumeWave (s : State) (id : BitVec 32) : Option State :=
  ((s.teams.filter fun t => t.launch == id).foldl (fun (o : Option State) t => o.bind fun u => u.resumeTeam t) (some s)).map
    fun u => u.mapCores fun c => c.unnote id

/-- A launch whose last team has been dispatched and which has no pre-empted team left out of the queue again (R319, R320). -/
def State.dequeue (s : State) (id : BitVec 32) : State :=
  match s.launch id with
  | some l => if l.nextTeam < l.hdr.teams || s.views.any (fun v => v.frontParked l) then s else { s with queue := s.queue.filter fun q => q != id }
  | none => s

/-- STRAND_RESUME (R348): a pre-empted strand goes on where it halted, in D-mode with its whole wave (R320). A team that has given up its
strands comes back once the core is offered to its launch (R319). -/
def execStrandResume (st : Fin 4) (s : State) : Out :=
  match (s.haltedAt st isPreempted).bind fun x => x.task with
  | none => .next s
  | some t =>
    if (s.parked.any fun p => p.ctx.task == some t) && !s.offered t.launch then .next s
    else
      match (if (s.launch t.launch).any fun l => l.hdr.det then s.resumeWave t.launch else s.unpark st isPreempted true) with
      | some s1 => .next (s1.dequeue t.launch)
      | none => .next s

/-! ### Budgets (R324, R325) -/

/-- BUDGET (R324): the task takes it on the handler path before its next instruction, in the E-stream, or in the A-stream when the
E-stream has ended (R338). -/
def State.budgetTrap (s : State) (st : Fin 4) (budget : W64) : State :=
  let k : StreamId := if (s.strand st).e.over then .A else .E
  let pc := resumePc (s.stream st k)
  s.enter st k cBudget pc budget false false pc

/-- The kill policy (R324). -/
def State.budgetKill (s : State) (t : Task) : State := s.endLaunch t.launch 0x10 0

/-- BUDGET_EXHAUSTED (R324, R325, R340): the policy of the header, with kill inside a handler and at the fourth exhaustion of a rerun
task. An `ENGINE_FAULT` or a `POISON` that is pending comes first (R341). -/
def execBudgetExhausted (st : Fin 4) (s : State) : Out :=
  let x := s.strand st
  match x.task, s.launchOf st with
  | some t, some l =>
    if l.hdr.budget == 0 || x.over || x.halt != .none then .next s
    else if s.inHandler st || l.hdr.policy == 0 || (l.hdr.policy == 2 && decide (3 ≤ t.reruns)) then .next (s.budgetKill t)
    else if l.hdr.policy == 1 then
      if x.pendFault.isEmpty && !x.a.poisoned && !x.e.poisoned then .next (s.budgetTrap st l.hdr.budget) else .next s
    else .next (s.preempt st .rerun)
  | _, _ => .next s

/-- The held stores and deferred operations of a task discarded, with every charge of it (R325, R386). -/
def State.discardTask (s : State) (t : Task) : State :=
  let s1 := { s with
    held := s.held.filter fun h => h.task != t
    deferred := s.deferred.filter fun d => d.1 != t }
  s1.modTeam t fun m => { m with lines := m.lines.filter fun l => l.1 != t, ops := m.ops.filter fun o => o.1 != t }

/-- Whether an engine operation that a task pushed has not completed, a child launch among them (R147). -/
def State.pushing (s : State) (st : Fin 4) (t : Task) : Bool :=
  let mine := fun (k : Option Task) => k == some t
  (s.channels.toList.any fun c => c.copy.any fun y => mine y.task)
    || (s.platSlots.toList.any fun p => p.op.any fun o => mine o.task)
    || (s.strands.toList.any fun x => x.net.any fun n => mine n.task)
    || (s.mats.any fun mt => (mt.mq.any fun q => mine q.task) || mt.deep.any fun d => !d.ready && mine d.ent.task)
    || s.launches.any fun l => l.parent == some (st, t) && match l.phase with
      | .complete _ => false
      | .waiting | .queued | .running | .ending _ => true

/-- A task started again from its entry state (R325). -/
def State.restartTask (s : State) (st : Fin 4) (t : Task) (l : Launch) : State :=
  let x := s.strand st
  let q : Seat := {
    task := { t with reruns := t.reruns + 1 }
    hdr := l.hdr
    core := s.core
    base := x.spbase.toNat
    arena := x.platbase.toNat }
  ((s.discardTask t).modStrand st fun y => { y.atEntry q y.aspace s.tick with halt := y.halt }).dropDeep fun k => k == some t

/-- TASK_RERUN (R325): once every engine operation that the task pushed has completed; until then the task waits at its strand, with its launch's
matrix state, so that its matrix instructions complete. -/
def execTaskRerun (st : Fin 4) (s : State) : Out :=
  match s.unpark st (fun h => h == .rerun) false with
  | none => .next s
  | some s1 =>
    match (s1.strand st).task, s1.launchOf st with
    | some t, some l =>
      if s1.pushing st t then .next (s1.modStrand st fun x => { x with halt := .rerun, preDue := x.halt == .preempted })
      else .next (s1.restartTask st t l)
    | _, _ => .next s

/-! ### The supervisor (R339) -/

/-- Whether a strand is parked for the supervisor with a cause that a condition admits. -/
def supHalt (ok : Byte → Bool) (h : Halt) : Bool :=
  match h with
  | .supervisor c _ _ _ _ => ok c
  | .none | .preempted | .rerun => false

/-- SUPERVISOR_RETRY (R339, R115, R116): the supervisor resolves a `VMAP_ABSENT` with entries, or has mended the tables of an `SPAGE`,
and the access runs again. It forwards every `PRIV`, and forwards or kills on `POISON`. -/
def execSupervisorRetry (st : Fin 4) (entries : List W64) (s : State) : Out :=
  match s.unpark st (supHalt fun c => c == cVmapAbsent || c == cSpage) false with
  | none => .next s
  | some s1 => .next (entries.foldl (fun u e => u.fillVmap (s1.acc st).asid e) s1)

/-- The poison policy of a strand's launch (R361): whether `POISON` is forwarded. -/
def State.forwardsPoison (s : State) (x : Strand) : Bool :=
  match x.task with
  | some t => (s.launch t.launch).any fun l => l.poison == 1
  | none => false

/-- SUPERVISOR_FORWARD (R339): the strand takes the cause that it was parked for on the handler path, with fwd set. -/
def execSupervisorForward (st : Fin 4) (s : State) : Out :=
  let any := supHalt fun _ => true
  match s.haltedAt st any with
  | none => .next s
  | some x =>
    match x.halt with
    | .supervisor c tpc tval vec k =>
      if c == cPoison && !s.forwardsPoison x then .next s
      else
        match s.unpark st any false with
        | none => .next s
        | some s1 => .next (s1.enter st k c tpc tval vec true (if vec then (s1.strand st).e.pc else tpc))
    | .none | .preempted | .rerun => .next s

/-- SUPERVISOR_KILL (R339): the launch ends TRAPPED; the supervisor kills on `POISON` where the launch's policy says so. -/
def execSupervisorKill (st : Fin 4) (s : State) : Out :=
  match s.haltedAt st (supHalt fun c => c == cPoison) with
  | none => .next s
  | some x =>
    match x.task with
    | none => .next s
    | some t => if s.forwardsPoison x then .next s else .next (s.endLaunch t.launch 0x11 (x.wid <<< 32 ||| cPoison.setWidth 64))

end Sys2Proof.Machine
end

