-- ==== Sys2Proof/Machine/Queue.lean ====
section
/-! DEFINITION. The queues between the streams of a strand: major 0x0B (R272 to R274, R291). -/

namespace Sys2Proof.Machine

/-- Whether a send of an E-stream must wait for its vector memory work, which the entry would release (R274): the entry becomes
available only once that work has committed. -/
def State.sendBusy (s : State) (st : Fin 4) (k : StreamId) : Bool := s.memBusy st k || s.stackHolds st k

/-- QSEND (R291): the A-stream sends on q0 to q3, the E-stream on q4 and q5. -/
def execQsend (q : BitVec 3) (rs : Reg) (s : State) : Out :=
  onStream s fun st k =>
    if (k == .A) != decide (q.toNat < 4) || s.inHandler st then s.illegal st k 0x05
    else if h : q.toNat < 6 then
      let x := s.strand st
      if 16 ≤ (x.q.get ⟨q.toNat, h⟩).length then s.blockOn st k q.toNat true
      else if s.sendBusy st k then s
      else
        (s.modStrand st fun y => { y with q := y.q.set q.toNat (y.q.get ⟨q.toNat, h⟩ ++ [s.readX st k rs]) h }).retire st k
    else s.illegal st k 0x08

/-- QRECV (R291): the E-stream receives from q0 to q3, the A-stream from q4 and q5. -/
def execQrecv (rd : Reg) (q : BitVec 3) (s : State) : Out :=
  onStream s fun st k =>
    if (k == .E) != decide (q.toNat < 4) || s.inHandler st then s.illegal st k 0x05
    else if h : q.toNat < 6 then
      match (s.strand st).q.get ⟨q.toNat, h⟩ with
      | [] => s.blockOn st k q.toNat false
      | v :: vs => ((s.modStrand st fun y => { y with q := y.q.set q.toNat vs h }).done st k rd v).acquired st k
    else s.illegal st k 0x08

/-- QSENDB (R291): the A-stream sends on q6, the E-stream on q7. -/
def execQsendb (q : BitVec 3) (rs : Reg) (s : State) : Out :=
  onStream s fun st k =>
    if (k == .A) != (q == 6) || s.inHandler st then s.illegal st k 0x05
    else
      let b := s.readX st k rs != 0
      if 64 ≤ (s.strand st).qcount q.toNat then s.blockOn st k q.toNat true
      else if s.sendBusy st k then s
      else
        match k with
        | .A => (s.modStrand st fun y => { y with q6 := y.q6 ++ [b] }).retire st k
        | .E => (s.modStrand st fun y => { y with q7 := y.q7 ++ [b] }).retire st k

/-- QCNT (R291): the entries of a queue, without blocking. -/
def execQcnt (rd : Reg) (q : BitVec 3) (s : State) : Out :=
  onStream s fun st k => s.done st k rd (BitVec.ofNat 64 ((s.strand st).qcount q.toNat))

end Sys2Proof.Machine
end

