-- ==== Sys2Proof/Machine/Shake.lean ====
section
/-! DEFINITION. SHAKE256 at 512 bits of output, the hash of the measurements (R367), as FIPS 202 defines it (log 116). -/

namespace Sys2Proof.Machine

/-- The round constants of Keccak-f[1600]. -/
def keccakRc : List W64 :=
  [0x0000000000000001, 0x0000000000008082, 0x800000000000808A, 0x8000000080008000, 0x000000000000808B, 0x0000000080000001,
   0x8000000080008081, 0x8000000000008009, 0x000000000000008A, 0x0000000000000088, 0x0000000080008009, 0x000000008000000A]
  ++ [0x000000008000808B, 0x800000000000008B, 0x8000000000008089, 0x8000000000008003, 0x8000000000008002, 0x8000000000000080,
   0x000000000000800A, 0x800000008000000A, 0x8000000080008081, 0x8000000000008080, 0x0000000080000001, 0x8000000080008008]

/-- The rotation of the lane at x + 5 y. -/
def keccakRot : List Nat :=
  [0, 1, 62, 28, 27, 36, 44, 6, 55, 20, 3, 10, 43] ++ [25, 39, 41, 45, 15, 21, 8, 18, 2, 61, 56, 14]

/-- One round on the 25 lanes. -/
def keccakRound (a : List W64) (rc : W64) : List W64 :=
  let at_ := fun (l : List W64) (x y : Nat) => l.getD (x % 5 + 5 * (y % 5)) 0
  let c := (List.range 5).map fun x => (List.range 5).foldl (fun v y => v ^^^ at_ a x y) 0
  let th := (List.range 25).map fun i => a.getD i 0 ^^^ c.getD ((i + 4) % 5) 0 ^^^ (c.getD ((i + 1) % 5) 0).rotateLeft 1
  let b := (List.range 25).map fun i =>
    let x := (i % 5 + 3 * (i / 5)) % 5
    (at_ th x (i % 5)).rotateLeft (keccakRot.getD (x + 5 * (i % 5)) 0)
  (List.range 25).map fun i =>
    let v := b.getD i 0 ^^^ (~~~at_ b (i % 5 + 1) (i / 5) &&& at_ b (i % 5 + 2) (i / 5))
    if i == 0 then v ^^^ rc else v

/-- Keccak-f[1600]. -/
def keccak (a : List W64) : List W64 := keccakRc.foldl keccakRound a

/-- The bytes of a block of SHAKE256. -/
def shakeRate : Nat := 136

/-- Blocks absorbed. -/
def absorb : Nat → List Byte → List W64 → List W64
  | 0, _, a => a
  | f + 1, bs, a =>
    absorb f (bs.drop shakeRate) (keccak (a.zipIdx.map fun e => e.1 ^^^ leWord (((bs.take shakeRate).drop (8 * e.2)).take 8)))

/-- The 64 bytes of SHAKE256 of a message. -/
def shake256 (m : List Byte) : List Byte :=
  let fill := shakeRate - 1 - m.length % shakeRate
  let pad : List Byte := if fill == 0 then [0x9F] else 0x1F :: List.replicate (fill - 1) 0 ++ [0x80]
  ((absorb (m.length / shakeRate + 1) (m ++ pad) (List.replicate 25 0)).take 8).flatMap fun w => leBytes 8 w.toNat

end Sys2Proof.Machine
end

