-- ==== Sys2Proof/Machine/Fetch.lean ====
section
/-! DEFINITION. Which streams may execute (R269, R338, R345), and the fetch of an instruction through the scalar port (R55, R57, R69),
with the words and leaves that a stream may still hold from earlier fetches. -/

namespace Sys2Proof.Machine

/-- Whether a stream must take a pending engine fault before its next instruction (R160): the A-stream while it runs, else the
E-stream; a handler is not interrupted by it, and `POISON` comes first (R341). -/
def Strand.faultDue (x : Strand) (k : StreamId) : Bool :=
  !x.pendFault.isEmpty && !x.tstatus.getLsbD 0 && (k == if x.a.over then .E else .A) && !(x.stream k).poisoned

/-- Whether a stream may execute its next instruction, or try a blocked one again: its strand is not halted, no handler keeps it
stopped, no engine fault comes first, and it does not wait for an event. -/
def State.runnable (s : State) (st : Fin 4) (k : StreamId) : Bool :=
  let x := s.strand st
  x.halt == .none && (!x.tstatus.getLsbD 0 || (x.tstatus.getLsbD 1 == (k == .A))) && !x.faultDue k &&
    match (x.stream k).status with
    | .run => true
    | .queue _ _ | .poisonDue _ => true
    | .asleep _ | .stackWait .. | .waitRead .. | .copyWait | .platWait | .hold | .ended | .absent => false

/-- What a fetch answers; a word or its page table entry in a held stack blocks it, by the word's VA and the PA that is kept (R107). -/
inductive Fetched where
  | words (ws : List W32)
  | fault (f : Fa)
  | blocked (va : W64) (pa : Nat)
  deriving DecidableEq, Repr

/-- One word through the scalar port: a buffered one if the stream holds it (R57), else the word in memory. -/
def State.fetchWord (s : State) (st : Fin 4) (k : StreamId) (va : W64) : Fetched :=
  match (s.stream st k).ibuf.find? fun e => e.1 == va with
  | some e => .words [e.2]
  | none =>
    match s.scaXlate st k va .fetch with
    | .error f => if f.cause == cHeld then .blocked va f.tval.toNat else .fault f
    | .ok pa =>
      if s.heldAt pa then .blocked va pa
      else if s.anyPoison st k pa 4 then
        .fault { cause := cPoison, tval := va &&& ~~~63#64, va := va }
      else .words [BitVec.ofNat 32 (leNat (s.view (some (st, k)) (s.slotKey (s.acc st).key) pa 4))]

/-- The words after word 0, in order; the first that cannot be fetched decides (R55). -/
def State.fetchMore (s : State) (st : Fin 4) (k : StreamId) (pc : W64) (got : List W32) : Nat → Fetched
  | 0 => .words got
  | n + 1 =>
    match s.fetchWord st k (pc + BitVec.ofNat 64 (4 * got.length)) with
    | .words ws => State.fetchMore s st k pc (got ++ ws) n
    | r => r

/-- All words of the instruction at the stream's PC (R54, R55). -/
def State.fetch (s : State) (st : Fin 4) (k : StreamId) : Fetched :=
  let pc := (s.stream st k).pc
  match s.fetchWord st k pc with
  | .words (w0 :: _) => s.fetchMore st k pc [w0] (wordCount w0 - 1)
  | r => r

/-- The hardware caches the leaf of a VA in a stream's TLB (R116). -/
def State.fillTlb (s : State) (st : Fin 4) (k : StreamId) (va : W64) : State :=
  if !canonical va then s
  else
    match s.walk (s.acc st) va 5 (fld (s.strand st).aspace 20 44 * 2 ^ 12) with
    | .error _ => s
    | .ok (pte, level) =>
      s.modStream st k fun t =>
        { t with tlb := t.tlb ++ [{ vpn := va.toNat / 2 ^ (12 + 9 * level), level := level, pte := pte }] }

/-- The hardware buffers an instruction word of a VA (R57). -/
def State.fillWord (s : State) (st : Fin 4) (k : StreamId) (va : W64) : State :=
  match ({ s with strands := (s.modStream st k fun t => { t with ibuf := [] }).strands }).fetchWord st k va with
  | .words (w :: _) => s.modStream st k fun t => { t with ibuf := (t.ibuf.filter fun e => e.1 != va) ++ [(va, w)] }
  | _ => s

/-! ### Placing one instruction for the next step (log 12) -/

/-- Whether only the A-stream executes the instruction of a word 0 (R67). -/
def aOnly (w0 : W32) : Bool :=
  let maj := (fieldMaj w0).toNat
  let f := (fieldFunc w0).toNat
  maj == 0x0F || (maj == 0x0E && (f == 0 || f == 2 || f == 3 || f == 4))

/-- The PA of the root page table that a placed instruction is translated with. -/
def placeRoot : Nat := 0x1000

/-- The leaf that a placed instruction is translated with: 256 TiB, V R W X U A D, identity. -/
def placeLeaf : Nat := 0xDF

/-- The state with instruction bytes at address 0 of strand 0 and that strand's stream about to fetch them, with every stack ready. -/
def State.place (s : State) (bytes : List Byte) : State :=
  let w0 : W32 := BitVec.ofNat 32 (leNat (bytes.take 4))
  let k : StreamId := if aOnly w0 then .A else .E
  let away := fun (pa : Nat) => decide (placeRoot + 8 ≤ pa)
  let s1 := s.modStrand 0 fun x =>
    { x with aspace := BitVec.ofNat 64 (placeRoot / 2 ^ 12 * 2 ^ 20), halt := .none, tstatus := x.tstatus &&& ~~~1#64,
             pendFault := [] }
  let s2 := s1.modStream 0 k fun t => { t with pc := 0, status := .run, tlb := [], ibuf := [] }
  { s2 with
    agenda := [.stream 0 k]
    mem := (s2.mem.splice 0 bytes).splice placeRoot (leBytes 8 placeLeaf)
    keyTag := (s2.keyTag.set 0 0).set (placeRoot / 64) 0
    posted := []
    poison := s2.poison.filter fun g => away (g * 64)
    wcb := s2.wcb.filter fun e => away e.pa
    held := s2.held.filter fun h => away h.pa
    readiness := Vector.ofFn fun i : Fin 64 => if i.val < 24 then 2 else s2.readiness.get i
    stks := s2.stks |> mapVec fun x => { x with hold := .none, queue := [] } }

end Sys2Proof.Machine
end

