-- ==== Sys2Proof/Machine/Sparse.lean ====
section
/-! DEFINITION. Compressed sparse matrices and the merge unit: SPHDR, SPCNT and SPMRG (R256 to R268). -/

namespace Sys2Proof.Machine

/-! ### The header (R256) -/

/-- The fields of a sparse header. -/
structure SpHdr where
  csc  : Bool
  pb   : Nat
  ib   : Nat
  ty   : Nat
  ez   : Bool
  rows : Nat
  cols : Nat
  nnz  : Nat
  pa   : W64
  ia   : W64
  va   : W64
  deriving DecidableEq, Repr

/-- The width of a value in bytes. -/
def SpHdr.vb (h : SpHdr) : Nat := if h.ty == 1 || h.ty == 2 then 2 else 4
/-- The lines of a matrix. -/
def SpHdr.major (h : SpHdr) : Nat := if h.csc then h.cols else h.rows
/-- The other dimension. -/
def SpHdr.minor (h : SpHdr) : Nat := if h.csc then h.rows else h.cols

/-- The fields of 64 header bytes. -/
def parseSparse (b : List Byte) : SpHdr where
  csc := (hdrNat b 5 1).testBit 0
  pb := if (hdrNat b 5 1).testBit 1 then 8 else 4
  ib := if (hdrNat b 5 1).testBit 2 then 4 else 2
  ty := hdrNat b 6 1
  ez := (hdrNat b 7 1).testBit 1
  rows := hdrNat b 8 4
  cols := hdrNat b 0x0C 4
  nnz := hdrNat b 0x10 8
  pa := BitVec.ofNat 64 (hdrNat b 0x18 8)
  ia := BitVec.ofNat 64 (hdrNat b 0x20 8)
  va := BitVec.ofNat 64 (hdrNat b 0x28 8)

/-- `TVAL` of R258. -/
def spVal (sub opnd wh : Nat) : W64 := BitVec.ofNat 64 (wh % 2 ^ 32 * 2 ^ 32 + opnd * 2 ^ 8 + sub)

/-- Why a sparse instruction stops: the trap of its first failing check, or PAs of which a held stack keeps some. -/
inductive SpStop where
  | trap (cause : Byte) (tval : W64)
  | wait (pas : List Nat)
  deriving DecidableEq, Repr

/-- A `SPARSE_HDR` trap. -/
def spHdr (sub opnd wh : Nat) : SpStop := .trap cSparseHdr (spVal sub opnd wh)

/-- A `SPARSE_ORDER` trap. -/
def spOrder (sub opnd line : Nat) : SpStop := .trap cSparseOrder (spVal sub opnd line)

/-- A condition that must hold. -/
def spNeed (ok : Bool) (e : SpStop) : Except SpStop Unit := if ok then .ok () else .error e

/-- The byte offset of the lowest field that subcode 0x02 names (R258). -/
def spReserved (b : List Byte) : Option Nat :=
  let h := parseSparse b
  let wide := h.ib == 2 && decide (65536 < h.minor)
  let fields : List (Bool × Nat) := [
    (decide (8 ≤ hdrNat b 5 1), 5), (decide (4 ≤ hdrNat b 6 1), 6), (hdrNat b 7 1 / 4 != 0 || hdrNat b 7 1 % 2 == 0, 7),
    (h.rows == 0 || (h.csc && wide), 8), (h.cols == 0 || (!h.csc && wide), 0x0C), (h.pb == 4 && decide (2 ^ 32 ≤ h.nnz), 0x10)]
  let zero := (List.range 16).map fun i => (hdrNat b (0x30 + i) 1 != 0, 0x30 + i)
  ((fields ++ zero).find? fun c => c.1).map fun c => c.2

/-- The checks 0x01 to 0x03 on header bytes, the header's own alignment apart (R258). -/
def spHeaderOk (b : List Byte) (opnd : Nat) : Except SpStop SpHdr := do
  let h := parseSparse b
  spNeed (hdrNat b 0 4 == 0x584D5053) (spHdr 1 opnd 0)
  spNeed (hdrNat b 4 1 == 1) (spHdr 1 opnd 4)
  match spReserved b with
  | some o => throw (spHdr 2 opnd o)
  | none =>
    spNeed (h.pa.toNat % h.pb == 0) (spHdr 3 opnd 0x18)
    spNeed (h.ia.toNat % h.ib == 0) (spHdr 3 opnd 0x20)
    spNeed (h.va.toNat % h.vb == 0) (spHdr 3 opnd 0x28)
    pure h

/-! ### Reading (R261, R262) -/

/-- Bytes of one element or header through the vector port, as the executing stream sees them. -/
def State.spBytes (s : State) (st : Fin 4) (k : StreamId) (va : W64) (n : Nat) : Except SpStop (List Byte) :=
  match s.xlateBytes (s.acc st) va n true false with
  | .error f => .error (.trap f.cause f.va)
  | .ok pas =>
    if s.anyHeld pas then .error (.wait pas)
    else
      match pas.zipIdx.find? fun e => s.poisonedFor (some (st, k)) e.1 with
      | some e => .error (.trap cPoison ((va + BitVec.ofNat 64 e.2) &&& ~~~63#64))
      | none => .ok (s.bytesAt (some (st, k)) (s.slotKey (s.acc st).key) pas)

/-- Element i of an array of n-byte elements. -/
def State.spElem (s : State) (st : Fin 4) (k : StreamId) (base : W64) (n i : Nat) : Except SpStop Nat :=
  (s.spBytes st k (base + BitVec.ofNat 64 (i * n)) n).map leNat

/-- A header read and checked (R258, R265). Its address is checked before anything is read through it (R261). -/
def State.spHeader (s : State) (st : Fin 4) (k : StreamId) (va : W64) (opnd : Nat) : Except SpStop SpHdr := do
  spNeed (va.toNat % 64 == 0) (spHdr 3 opnd 0)
  spHeaderOk (← s.spBytes st k va 64) opnd

/-- Whether a value is zero (R257). -/
def SpHdr.zero (h : SpHdr) (v : Nat) : Bool := if h.ty == 3 then v == 0 else v % 2 ^ (8 * h.vb - 1) == 0

/-- Whether indices strictly increase. -/
def strictly : List Nat → Bool
  | a :: b :: t => decide (a < b) && strictly (b :: t)
  | _ => true

/-- Elements i to i + n − 1 of an array read in order up to the first that stops the instruction, with that stop. -/
def State.spPrefix (s : State) (st : Fin 4) (k : StreamId) (base : W64) (w : Nat) : Nat → Nat → List Nat × Option SpStop
  | _, 0 => ([], none)
  | i, n + 1 =>
    match s.spElem st k base w i with
    | .error e => ([], some e)
    | .ok v => (v :: (s.spPrefix st k base w (i + 1) n).1, (s.spPrefix st k base w (i + 1) n).2)

/-- The stop that a read has met, once what was read before it has passed its checks. -/
def spStopped (o : Option SpStop) : Except SpStop Unit :=
  match o with
  | some e => .error e
  | none => .ok ()

/-- One line read and checked: its pointers by 0x06, then its indices by 0x01 and 0x02, then its values by 0x03 (R258, R261). Under `full`
the first and the last pointer are checked as well. A refusal that an element earns comes before a fault of a later one (R261). -/
def State.spLine (s : State) (st : Fin 4) (k : StreamId) (h : SpHdr) (opnd : Nat) (full : Bool) (l : Nat) :
    Except SpStop (List (Nat × Nat)) := do
  let a ← s.spElem st k h.pa h.pb l
  spNeed (a ≤ h.nnz && !(full && l == 0 && a != 0)) (spHdr 6 opnd l)
  let b ← s.spElem st k h.pa h.pb (l + 1)
  spNeed (a ≤ b && b ≤ h.nnz && !(full && l + 1 == h.major && b != h.nnz)) (spHdr 6 opnd l)
  let idx := s.spPrefix st k h.ia h.ib a (b - a)
  spNeed (strictly idx.1) (spOrder 1 opnd l)
  spNeed (idx.1.all fun i => i < h.minor) (spOrder 2 opnd l)
  spStopped idx.2
  let val := s.spPrefix st k h.va h.vb a (b - a)
  spNeed (h.ez || val.1.all fun v => !h.zero v) (spOrder 3 opnd l)
  spStopped val.2
  pure (idx.1.zip val.1)

/-- Lines f to f + n − 1 in order. -/
def State.spLines (s : State) (st : Fin 4) (k : StreamId) (h : SpHdr) (opnd : Nat) (full : Bool) (f n : Nat) :
    Except SpStop (List (List (Nat × Nat))) :=
  (List.range n).mapM fun i => s.spLine st k h opnd full (f + i)

/-! ### The merge (R259) -/

/-- `Add` of R259. -/
def SpHdr.add (h : SpHdr) (a b : Nat) : Nat :=
  match h.ty with
  | 0 => (Fmt.fp32.fadd 0 a b).1
  | 1 => (Fmt.bf16.fadd 0 a b).1
  | 2 => (Fmt.fp16.fadd 0 a b).1
  | _ => (a + b) % 2 ^ 32

/-- The joined entries of two lines, zeros included, with fuel of both lengths. -/
def SpHdr.join (h : SpHdr) : Nat → List (Nat × Nat) → List (Nat × Nat) → List (Nat × Nat)
  | 0, _, _ => []
  | _, [], b => b
  | _, a, [] => a
  | f + 1, (i, v) :: a, (j, w) :: b =>
    if i < j then (i, v) :: h.join f a ((j, w) :: b)
    else if j < i then (j, w) :: h.join f ((i, v) :: a) b
    else (i, h.add v w) :: h.join f a b

/-- `Merge` of R259. -/
def SpHdr.merge (h : SpHdr) (kz : Bool) (a b : List (Nat × Nat)) : List (Nat × Nat) :=
  (h.join (a.length + b.length) a b).filter fun e => kz || !h.zero e.2

/-- Whether two headers agree (R258, 0x04). -/
def SpHdr.agrees (a b : SpHdr) : Bool := a.csc == b.csc && a.ty == b.ty && a.rows == b.rows && a.cols == b.cols

/-- The checks 0x04 and 0x05 on the headers after A's. -/
def spShape (a : SpHdr) (others : List SpHdr) (f n : Nat) : Except SpStop Unit := do
  match others.zipIdx.find? fun e => !a.agrees e.1 with
  | some e => throw (spHdr 4 (e.2 + 1) 0)
  | none => spNeed (f + n ≤ a.major) (spHdr 5 0 (min (max f a.major) 0xFFFFFFFF))

/-- The merged lines of A and B, each line checked (R258, R266). -/
def State.spMerged (s : State) (st : Fin 4) (k : StreamId) (kz : Bool) (a b : SpHdr) (f n : Nat) :
    Except SpStop (List (List (Nat × Nat))) := do
  let la ← s.spLines st k a 0 false f n
  let lb ← s.spLines st k b 1 false f n
  pure ((la.zip lb).map fun e => a.merge kz e.1 e.2)

/-! ### Writing (R261, R305) -/

/-- Bytes to write from a VA on, with the PA of each. -/
def State.spDest (s : State) (st : Fin 4) (va : W64) (bs : List Byte) : Except SpStop (List (Nat × Byte)) :=
  match s.xlateBytes (s.acc st) va bs.length false true with
  | .error f => .error (.trap f.cause f.va)
  | .ok pas => .ok (pas.zip bs)

/-- The drain-log check of all writes before any (R305), and the wait for a held stack. -/
def State.spRoom (s : State) (st : Fin 4) (k : StreamId) (ws : List (Nat × Byte)) (lowest : W64) : Except SpStop Unit := do
  let held := (ws.map fun w => w.1).filter fun pa => s.holds st pa
  spNeed (s.fits st (s.lineCharge st k held)) (.trap cDrainFull lowest)
  let wait := (ws.map fun w => w.1).filter fun pa => s.heldAt pa && !s.holds st pa
  spNeed wait.isEmpty (.wait wait)

/-- The writes, as stores of the stream (R261). -/
def State.spWrite (s : State) (st : Fin 4) (k : StreamId) (ws : List (Nat × Byte)) : State :=
  (runsOf ws).foldl (fun u r => u.scalarStore st k r.1 r.2) s

/-- The PAs of an array of bytes; a byte that does not translate takes no part (R261). -/
def State.spPhys (s : State) (st : Fin 4) (va : W64) (n : Nat) (w : Bool) : List Nat :=
  (List.range n).filterMap fun i => (s.vecXlate (s.acc st) (va + BitVec.ofNat 64 i) (!w) w).toOption

/-- The PAs of the arrays of an operand that is read. -/
def State.spArrays (s : State) (st : Fin 4) (h : SpHdr) : List Nat :=
  s.spPhys st h.pa ((h.major + 1) * h.pb) false ++ s.spPhys st h.ia (h.nnz * h.ib) false ++ s.spPhys st h.va (h.nnz * h.vb) false

/-- The check 0x08. -/
def State.spOverlap (s : State) (st : Fin 4) (a b c : SpHdr) : Bool :=
  let read := s.spArrays st a ++ s.spArrays st b
  (s.spPhys st c.ia (c.nnz * c.ib) true ++ s.spPhys st c.va (c.nnz * c.vb) true).any fun pa => read.contains pa

/-! ### The instructions -/

/-- A sparse instruction as work that a held stack keeps (R107). -/
def State.spWork (s : State) (st : Fin 4) (k : StreamId) (func : Fin 3) (var : Bool) (rd rs1 rs2 xs xs2 : Reg) : HeldWork :=
  .sparse st k (s.stream st k).pc s.cur.words func var rd rs1 rs2 xs xs2

/-- What a sparse instruction that stops does: a trap, or its place in the queue of a held stack (R107). -/
def State.spStop (s : State) (st : Fin 4) (k : StreamId) (w : HeldWork) (e : SpStop) : State :=
  match e with
  | .trap c v => s.trap st k c v
  | .wait pas => s.keepWork pas (s.strand st).task w

/-- SPHDR (R265). -/
def State.sphdr (s : State) (st : Fin 4) (k : StreamId) (full : Bool) (va : W64) : Except SpStop W64 := do
  let h ← s.spHeader st k va 0
  if full then
    let _ ← s.spLines st k h 0 true 0 h.major
  pure (BitVec.ofNat 64 h.nnz)

/-- The writes of SPCNT (R266). -/
def State.spcnt (s : State) (st : Fin 4) (k : StreamId) (kz : Bool) (dst xa xb xf xn : W64) : Except SpStop (List (Nat × Byte)) := do
  spNeed (dst.toNat % 4 == 0) (.trap cMisalign dst)
  let a ← s.spHeader st k xa 0
  let b ← s.spHeader st k xb 1
  spShape a [b] xf.toNat xn.toNat
  let m ← s.spMerged st k kz a b xf.toNat xn.toNat
  let ws ← s.spDest st dst (m.flatMap fun l => leBytes 4 l.length)
  s.spRoom st k ws dst
  pure ws

/-- The first line of C whose pointers fail 0x06, then the first whose count differs (R258). -/
def spCounts (c : SpHdr) (f : Nat) (ptr : List Nat) (m : List (List (Nat × Nat))) : Except SpStop Unit := do
  let lines := (ptr.zip (ptr.drop 1)).zip m |>.zipIdx
  match lines.find? fun e => !(e.1.1.1 ≤ e.1.1.2 && e.1.1.2 ≤ c.nnz) with
  | some e => throw (spHdr 6 2 (f + e.2))
  | none =>
    match lines.find? fun e => e.1.1.2 - e.1.1.1 != e.1.2.length with
    | some e => throw (spHdr 7 2 (f + e.2))
    | none => pure ()

/-- What SPMRG writes (R267): the entries of each line, the widths of C's indices and values, and its index and value writes. -/
structure SpPlan where
  counts : List Nat
  ib     : Nat
  vb     : Nat
  wi     : List (Nat × Byte)
  wv     : List (Nat × Byte)
  deriving DecidableEq, Repr

/-- What SPMRG writes, once its checks have passed (R267). -/
def State.spmrgPlan (s : State) (st : Fin 4) (k : StreamId) (kz : Bool) (xc xa xb xf xn : W64) : Except SpStop SpPlan := do
  let a ← s.spHeader st k xa 0
  let b ← s.spHeader st k xb 1
  let c ← s.spHeader st k xc 2
  spShape a [b, c] xf.toNat xn.toNat
  let f := xf.toNat
  let m ← s.spMerged st k kz a b f xn.toNat
  let read := s.spPrefix st k c.pa c.pb f (xn.toNat + 1)
  let ptr := read.1
  spNeed (read.2.isNone || ptr.headD 0 ≤ c.nnz) (spHdr 6 2 f)
  spCounts c f ptr m
  spStopped read.2
  let es := m.flatMap id
  let lo := ptr.headD 0
  let iva := c.ia + BitVec.ofNat 64 (lo * c.ib)
  let vva := c.va + BitVec.ofNat 64 (lo * c.vb)
  let wi ← s.spDest st iva (es.flatMap fun e => leBytes c.ib e.1)
  let wv ← s.spDest st vva (es.flatMap fun e => leBytes c.vb e.2)
  spNeed (!s.spOverlap st a b c) (spHdr 8 2 0)
  s.spRoom st k (wi ++ wv) (if iva.toNat ≤ vva.toNat then iva else vva)
  pure { counts := m.map fun l => l.length, ib := c.ib, vb := c.vb, wi := wi, wv := wv }

/-- The writes of SPMRG (R267). -/
def State.spmrg (s : State) (st : Fin 4) (k : StreamId) (kz : Bool) (xc xa xb xf xn : W64) : Except SpStop (List (Nat × Byte)) :=
  (s.spmrgPlan st k kz xc xa xb xf xn).map fun p => p.wi ++ p.wv

/-- The writes of the first n lines of SPMRG. -/
def SpPlan.first (p : SpPlan) (n : Nat) : List (Nat × Byte) :=
  let es := (p.counts.take n).sum
  p.wi.take (es * p.ib) ++ p.wv.take (es * p.vb)

/-- SPHDR (R265): in the E-stream behind its vector memory work (R118). -/
def execSphdr (full : Bool) (rd rs1 : Reg) (s : State) : Out :=
  onStream s fun st k =>
    if s.memBusy st k then s
    else
      match s.sphdr st k full (s.readX st k rs1) with
      | .ok v => s.done st k rd v
      | .error e => s.spStop st k (s.spWork st k 0 full rd rs1 0 0 0) e

/-- The writes of a SPCNT by the registers that it names. -/
def State.spcntRegs (s : State) (st : Fin 4) (k : StreamId) (kz : Bool) (rd rs1 rs2 xs xs2 : Reg) : Except SpStop (List (Nat × Byte)) :=
  s.spcnt st k kz (s.readX st k rd) (s.readX st k rs1) (s.readX st k rs2) (s.readX st k xs) (s.readX st k xs2)

/-- SPCNT (R266). -/
def execSpcnt (kz : Bool) (rd rs1 rs2 xs xs2 : Reg) (s : State) : Out :=
  onStream s fun st k =>
    if s.memBusy st k then s
    else
      match s.spcntRegs st k kz rd rs1 rs2 xs xs2 with
      | .ok ws => (s.spWrite st k ws).retire st k
      | .error e => s.spStop st k (s.spWork st k 1 kz rd rs1 rs2 xs xs2) e

/-- SPMRG (R267). -/
def execSpmrg (kz : Bool) (rd rs1 rs2 xs xs2 : Reg) (s : State) : Out :=
  onStream s fun st k =>
    if s.memBusy st k then s
    else
      match s.spmrg st k kz (s.readX st k rd) (s.readX st k rs1) (s.readX st k rs2) (s.readX st k xs) (s.readX st k xs2) with
      | .ok ws => (s.spWrite st k ws).retire st k
      | .error e => s.spStop st k (s.spWork st k 2 kz rd rs1 rs2 xs xs2) e

/-- The first n lines of a SPCNT or SPMRG written, before the stream has done with the instruction (R261, R263), once it has passed all its
checks; `none` for another instruction and for one that stops. -/
def State.spLinesPart (s : State) (st : Fin 4) (k : StreamId) (n : Nat) (i : Instr) : Option State :=
  if s.memBusy st k then none
  else
    match i with
    | .spcnt kz rd rs1 rs2 xs xs2 =>
      (s.spcntRegs st k kz rd rs1 rs2 xs xs2).toOption.map fun ws => s.spWrite st k (ws.take (4 * n))
    | .spmrg kz rd rs1 rs2 xs xs2 =>
      (s.spmrgPlan st k kz (s.readX st k rd) (s.readX st k rs1) (s.readX st k rs2) (s.readX st k xs) (s.readX st k xs2)).toOption.map
        fun p => s.spWrite st k (p.first n)
    | _ => none

end Sys2Proof.Machine
end

