-- ==== Sys2Proof/Machine/Sys.lean ====
section
/-! DEFINITION. Major 0x0D: NOP, TRAP, TRET, EXIT, BAR, the WAITA conditions, the fences and VMFENCE (R121, R169, R308, R309, R334,
R335, R353 to R356), with the wake and the time limit of a sleeping WAITA. -/

namespace Sys2Proof.Machine

/-- NOP (R355). -/
def execNop (s : State) : Out := onStream s fun st k => s.retire st k

/-- TRAP (R353): USER with X[xs1], the frame's resume PC behind the word. -/
def execTrap (rs1 : Reg) (s : State) : Out :=
  onStream s fun st k => s.trapTo st k cUser (s.readX st k rs1) (s.nextPc st k)

/-- TRET (R354). -/
def execTret (s : State) : Out := onStream s fun st k => s.trapReturn st k

/-- The strand after one of its streams has ended: once both have, the task has ended, its queues are discarded and it is no longer
live (R275, R335, R179). -/
def Strand.endedStream (x : Strand) : Strand :=
  if x.a.over && x.e.over then
    { x with q := Vector.replicate 6 [], q6 := [], q7 := [], live := false, barIn := false, pendFault := [] }
  else x

/-- EXIT by a stream (R335): the E-stream waits for its VIQ. The PC stays at the `EXIT` (R343). An engine fault still pending when
the task ends completes its launch (R160, R162). -/
def State.exitStream (s : State) (st : Fin 4) (k : StreamId) : State :=
  if k == .E && !(s.strand st).viq.isEmpty then s
  else
    let s1 := s.modStrand st fun x => x.modStream k fun t => { t with status := .ended, instret := t.instret + 1 }
    let x := s1.strand st
    let s2 := match x.task, x.pendFault with
      | some t, r :: _ => if x.a.over && x.e.over then s1.endLaunch t.launch 0x12 r else s1
      | _, _ => s1
    (s2.modStrand st Strand.endedStream).checkDead st

/-- EXIT (R335). -/
def execExit (s : State) : Out := onStream s fun st k => s.exitStream st k

/-- Whether a strand meets or has passed a member's next barrier, or its task has ended (R334). -/
def Strand.meetsBar (x : Strand) (t : Task) (passed : Nat) : Bool :=
  !(x.task.any fun u => u.launch == t.launch && u.team == t.team) || (x.a.over && x.e.over) || decide (passed < x.bars)
    || (x.barIn && x.bars == passed)

/-- BAR by an E-stream (R334): it arrives once its earlier accesses have performed at core scope, and leaves once every member of the
team has arrived or ended. -/
def State.bar (s : State) (st : Fin 4) : State :=
  if !s.fenced st .E .cor then s
  else
    let x := s.strand st
    let ok := match x.task with
      | none => true
      | some t => (List.finRange 4).all fun i => i == st || (s.strand i).meetsBar t x.bars
    if ok then ((s.modStrand st fun x => { x with barIn := false, bars := x.bars + 1 }).retire st .E).acquired st .E
    else s.modStrand st fun x => { x with barIn := true }

/-- BAR (R334, R67). -/
def execBar (s : State) : Out :=
  onStream s fun st k =>
    match k with
    | .A => s.illegal st k 0x05
    | .E => s.bar st

/-! ### WAITA (R169) -/

/-- Whether a word satisfies a condition. -/
def WaitCond.holds (c : WaitCond) (m v : W64) : Bool :=
  match c with
  | .eq => m == v
  | .ne => m != v
  | .geu => v.ule m

/-- A `WAITA` that ends: its result in xd, and the next instruction. -/
def State.waitEnd (s : State) (st : Fin 4) (k : StreamId) (rd : Reg) (v : W64) : State :=
  (s.writeX st k rd v).goto st k ((s.stream st k).pc + 4)

/-- A `WAITA` whose word has been read (R169): it ends with 1 and acquires, ends with 0 where its limit has passed, or sleeps. -/
def State.waitSeen (s : State) (st : Fin 4) (k : StreamId) (w : WaitOp) (zero : Bool) (m : W64) : State :=
  if WaitCond.holds w.cond m w.val then (s.waitEnd st k w.rd 1).acquired st k
  else if zero then s.waitEnd st k w.rd 0
  else s.wait st k (.asleep w)

/-- One read of the word of a `WAITA` and its test; `zero` says that its limit has passed. A held stack keeps the read (R107); a
sleeper whose page table entry lies in one sleeps on, and tries again. -/
def State.waitTest (s : State) (st : Fin 4) (k : StreamId) (w : WaitOp) (zero : Bool) : State :=
  match s.scaXlate st k w.va .load with
  | .error f => if f.cause == cHeld && (s.stream st k).status == .asleep w then s else s.fault st k f
  | .ok pa =>
    if s.heldAt pa then
      if s.noPlace pa then s
      else
        let q : WaitOp := { w with sent := s.tick }
        ((s.drainAt pa 8).queueAt pa (.read st k (s.strand st).task q zero pa (s.slotKey (s.acc st).key))).wait st k
          (.waitRead (stackOf pa).val q)
    else if s.anyPoison st k pa 8 then s.trap st k cPoison (granule w.va)
    else s.waitSeen st k w zero (leWord (s.view (some (st, k)) (s.slotKey (s.acc st).key) pa 8))

/-- WAITA by a stream: the first test; a limit of 0 ends it there. -/
def State.waita (s : State) (st : Fin 4) (k : StreamId) (c : WaitCond) (tmo : Bool) (rd rs1 rs2 : Reg) : State :=
  let w : WaitOp := { cond := c, va := s.readX st k rs1, val := s.readX st k rs2, rd := rd, timed := tmo, sent := 0 }
  if s.memBusy st k then s
  else if w.va.toNat % 8 != 0 then s.trap st k cMisalign w.va
  else
    s.waitTest st k w (tmo && s.readX st k rd == 0)

/-- WAITA.eq (R169). -/
def execWaitaEq (_sc : Scope) (tmo : Bool) (rd rs1 rs2 : Reg) (s : State) : Out :=
  onStream s fun st k => s.waita st k .eq tmo rd rs1 rs2
/-- WAITA.ne (R169). -/
def execWaitaNe (_sc : Scope) (tmo : Bool) (rd rs1 rs2 : Reg) (s : State) : Out :=
  onStream s fun st k => s.waita st k .ne tmo rd rs1 rs2
/-- WAITA.geu (R169). -/
def execWaitaGeu (_sc : Scope) (tmo : Bool) (rd rs1 rs2 : Reg) (s : State) : Out :=
  onStream s fun st k => s.waita st k .geu tmo rd rs1 rs2

/-- WAITA_WAKE (R169): a sleeping stream rereads its word and tests it. -/
def execWaitaWake (st : Fin 4) (k : StreamId) (s : State) : Out :=
  match (s.strand st).halt, (s.stream st k).status with
  | .none, .asleep w => .next (s.waitTest st k w false)
  | _, _ => .next s

/-- The limit of a `WAITA` of a task's stream passes while a held stack keeps its read: the word decides when it comes (R169). -/
def StackReq.expire (q : StackReq) (st : Fin 4) (k : StreamId) (task : Option Task) (op : WaitOp) : StackReq :=
  match q with
  | .read a b t w z pa key => .read a b t w (z || (a == st && b == k && t == task && w == op)) pa key
  | .line _ | .store .. | .load .. | .work .. | .atomic .. => q

/-- WAITA_TIMEOUT (R169): the limit of a waiting stream passes; the word is read once more. -/
def execWaitaTimeout (st : Fin 4) (k : StreamId) (s : State) : Out :=
  match (s.strand st).halt, (s.stream st k).status with
  | .none, .asleep w => .next (if w.timed then s.waitTest st k w true else s)
  | .none, .waitRead _ w =>
    .next (if w.timed then { s with stks := s.stks |> mapVec fun x =>
        { x with queue := x.queue.map fun q => q.expire st k (s.strand st).task w } } else s)
  | _, _ => .next s

/-! ### Fences -/

/-- FENCE (R308). -/
def execFence (sc : Scope) (s : State) : Out :=
  onStream s fun st k => if s.fenced st k sc then (s.retire st k).acquired st k else s

/-- The held stores of a stream made visible to its team (R304, R309). -/
def State.publish (s : State) (st : Fin 4) (k : StreamId) : State :=
  { s with held := s.held.map fun h =>
      if h.strand == st && h.stream == k && (s.strand st).task == some h.task then { h with pub := true } else h }

/-- VFENCE (R309): in D-mode the stream's held stores are published, else its stores have left the write-combining buffer. -/
def execVfence (s : State) : Out :=
  onStream s fun st k =>
    if !s.fenced st k .cor then s
    else if (s.strand st).det then ((s.publish st k).retire st k).acquired st k
    else if k == .E && s.wcbHolds st then s
    else (s.retire st k).acquired st k

/-- IFENCE (R356): a core fence, then the stream's fetched words are discarded. -/
def execIfence (s : State) : Out :=
  onStream s fun st k =>
    if s.fenced st k .cor then ((s.modStream st k fun t => { t with ibuf := [] }).retire st k).acquired st k else s

/-! ### VMFENCE (R121) -/

/-- Whether a strand runs in an address space. -/
def Strand.inSpace (x : Strand) (asid : BitVec 12) : Bool := x.aspace.extractLsb' 0 12 == asid

/-- The strands and tasks whose request of a held stack it is. -/
def StackReq.owners (q : StackReq) : List (Option (Fin 4) × Option Task) :=
  match q with
  | .line es => es.map fun e => (some e.strand, e.task)
  | .store st _ t .. | .load st _ t .. | .read st _ t .. | .atomic st _ t .. => [(some st, t)]
  | .work _ t .. => [(none, t)]

/-- Whether a product through a space's row map, which reads by the translations of its bind, is queued for the engine or has a deep part on
its way. -/
def Matrix.rowsIn (m : Matrix) (asid : BitVec 12) : Bool :=
  (m.deep.any fun d => !d.ready && d.map.asid == asid)
    || m.mq.any fun q =>
      match q.ent.form with
      | .row _ _ _ _ _ _ _ _ i => (m.maps.get (fin 16 i.toNat)).any fun r => r.asid == asid
      | .vec _ _ _ _ _ => false

/-- Whether every access that an address space has translated has performed (R121): its stores in the write-combining buffer, the
requests that held stacks keep, its stores and operations held and deferred for a wave fence, its copies, its plat operations and the products
through its row maps. -/
def State.translatedDone (s : State) (asid : BitVec 12) : Bool :=
  let of := fun (st : Option (Fin 4)) (t : Option Task) =>
    match t, st with
    | some u, _ => (s.launch u.launch).any fun l => l.asid == asid
    | none, some i => (s.strand i).inSpace asid
    | none, none => true
  !(s.stks.toList.any fun x => x.queue.any fun q => q.owners.any fun o => of o.1 o.2)
    && !(s.held.any fun h => of none (some h.task)) && !(s.deferred.any fun d => of none (some d.1))
    && s.cores.all fun c =>
      !(c.wcb.any fun e => of (some e.strand) e.task)
        && !c.mat.rowsIn asid && !(c.savedMat.any fun p => p.2.rowsIn asid)
        && !(c.channels.toList.any fun x => x.copy.any fun y => y.acc.asid == asid)
        && !(c.platSlots.toList.any fun p => p.op.any fun o => o.acc.asid == asid)

/-- A strand with the cached leaves of an address space discarded. -/
def Strand.dropTlbs (x : Strand) (asid : BitVec 12) : Strand :=
  if x.inSpace asid then { x with a := { x.a with tlb := [] }, e := { x.e with tlb := [] } } else x

/-- A core with the cached leaves of an address space discarded, also of the contexts parked on it. -/
def CoreSt.dropTlbs (c : CoreSt) (asid : BitVec 12) : CoreSt :=
  { c with
    strands := c.strands |> mapVec fun x => x.dropTlbs asid
    parked := c.parked.map fun p => { p with ctx := p.ctx.dropTlbs asid } }

/-- The cached translations of an address space discarded, and the generation of a resident one advanced (R120, R121). -/
def State.vmfence (s : State) (asid : BitVec 12) : State :=
  { s.mapCores fun c => c.dropTlbs asid with
    gens := if (s.space asid).isSome then s.gens.set asid.toNat (s.genOf asid + 1) else s.gens }

/-- VMFENCE (R121): a strand traps `PRIV`; on a supervisor core an operand of more than 12 bits traps `ILLEGAL`, and the fence waits for the
accesses of the space. -/
def execVmfence (_rs1 : Reg) (s : State) : Out :=
  match s.cur.agent with
  | .stream st k => .next (s.trap st k cPriv 0)
  | .supervisor v =>
    if !fitsIn v 12 then .next (s.supTrap cIllegal (illVal 0x10 s.w0))
    else if s.translatedDone (v.extractLsb' 0 12) then .next (s.vmfence (v.extractLsb' 0 12))
    else .next s

end Sys2Proof.Machine
end

