-- ==== Sys2Proof/Machine/Wave.lean ====
section
/-! DEFINITION. The wave fence of a D-mode launch (R138, R161, R304, R306), the completion of a launch with its mark and its record
(R318, R327, R328, R333), the closure check (R330, R331), and the coalescing of records (R329). -/

namespace Sys2Proof.Machine

/-! ### The wave fence (R306) -/

/-- The held stores of one stream of a task performed at device scope in program order, each with its own bits (R304, R306). Their
seals were checked when they were held (R130). -/
def State.drainHeld (s : State) (hs : List Held) : State :=
  s.putParts (hs.map fun h => (h.key, h.pa, h.byte, h.bits))

/-- The held stores of a launch that one logical core's team made. -/
def State.heldOf (s : State) (l : Launch) (lc : Nat) : List Held :=
  s.held.filter fun h => h.task.launch == l.id && h.task.team.toNat % l.hdr.c == lc

/-- The deferred operations that one logical core's team pushed, in push order. -/
def State.deferredOf (s : State) (l : Launch) (lc : Nat) : List Deferred :=
  ((s.deferred.filter fun d => d.1.launch == l.id && d.1.team.toNat % l.hdr.c == lc).map fun d => d.2.2)

/-- What a deferred copy writes (R161): the PA of each step's destination, or of a reduction's result, or the first fault. Its source has been read, and
is not translated again. -/
def State.deferredPlan (s : State) (c : Copy) : Except Fa (List Nat × Option Nat) :=
  if c.push.reduces then (s.copyXlate c c.push.dst false true).map fun d => ([], some d)
  else ((List.range c.push.count).mapM fun i => s.copyXlate c (c.push.dstVa i) (c.push.op != 0) true).map fun ds => (ds, none)

/-- A deferred scatter or copy performed (R138, R161). A copy whose destination faults writes nothing (log 30), and neither does a scatter
whose key has been cleared (R111; log 30). -/
def State.runDeferred (s : State) (d : Deferred) : State :=
  match d with
  | .scatter o src sq => if s.keyless o.acc.key then s else s.scatterAll o src sq
  | .copy c bytes =>
    match s.deferredPlan c with
    | .error _ => s
    | .ok (units, res) => s.copyApply c units bytes res

/-- The PAs that a deferred operation writes. -/
def State.deferredPas (s : State) (d : Deferred) : List Nat :=
  match d with
  | .scatter o _ _ => o.mem ++ o.plat.pas.flatMap id
  | .copy c _ =>
    match s.deferredPlan c with
    | .error _ => []
    | .ok (units, res) => units ++ res.toList

/-- One logical core's part of the fence, on the core that it is bound to. -/
def State.fenceCore (s : State) (l : Launch) (lc : Nat) : State :=
  s.onCore (l.coreOf lc) fun v =>
    (v.deferredOf l lc).foldl State.runDeferred ((fenceGroups (v.heldOf l lc)).foldl State.drainHeld v)

/-- Whether a wave of a launch has ended: every team of it has been dispatched and has retired; a launch that ends early dispatches
none. -/
def State.waveOver (s : State) (l : Launch) : Bool :=
  !(s.teams.any fun t => t.launch == l.id)
    && match l.phase with
      | .running => decide (min l.hdr.teams ((l.wave + 1) * l.hdr.c) ≤ l.nextTeam) && decide (l.wave * l.hdr.c < l.hdr.teams)
      | .ending _ => true
      | .waiting | .queued | .complete _ => false

/-- The PAs that a wave fence writes. -/
def State.fencePas (s : State) (l : Launch) : List Nat :=
  (List.range l.hdr.c).flatMap fun lc =>
    ((s.heldOf l lc).map fun h => h.pa) ++ (s.deferredOf l lc).flatMap (s.switchCore (l.coreOf lc)).deferredPas

/-- Whether a deferred transfer of a launch is still on its channel (R161): it is one of the wave that pushed it. -/
def State.deferring (s : State) (id : BitVec 32) : Bool :=
  s.cores.any fun c => c.channels.toList.any fun x => x.copy.any fun y => y.deferred && y.task.any fun t => t.launch == id

/-- WAVE_FENCE (R306): after every team of the wave has retired and every transfer that it deferred has read its source; it waits for a held
stack (R107). -/
def execWaveFence (launch : BitVec 32) (s : State) : Out :=
  match s.launch launch with
  | none => .next s
  | some l =>
    if !l.hdr.det || !s.waveOver l || s.deferring l.id || s.anyHeld (s.fencePas l) then .next s
    else
      let s1 := (List.range l.hdr.c).foldl (fun u lc => u.fenceCore l lc) s
      .next ({ s1 with
        held := s1.held.filter fun h => h.task.launch != l.id
        deferred := s1.deferred.filter fun d => d.1.launch != l.id } |>.modLaunch l.id fun m => { m with wave := m.wave + 1, since := s.cycle })

/-! ### When a launch is done (R327) -/

/-- Whether an operation of a launch is in flight on an engine. -/
def State.inFlight (s : State) (id : BitVec 32) : Bool :=
  let mine := fun (k : Option Task) => k.any fun t => t.launch == id
  s.cores.any fun c =>
    (c.channels.toList.any fun x => x.copy.any fun y => mine y.task)
      || (c.platSlots.toList.any fun p => p.op.any fun o => mine o.task)
      || (c.strands.toList.any fun x => x.net.any fun n => mine n.task)
      || (c.mat.mq.any fun q => mine q.task) || (c.mat.deep.any fun d => mine d.ent.task)

/-- Whether a store or an atomic of a launch has not performed at its home. -/
def State.unperformed (s : State) (id : BitVec 32) : Bool :=
  let mine := fun (k : Option Task) => k.any fun t => t.launch == id
  (s.cores.any fun c => c.wcb.any fun e => mine e.task)
    || (s.stks.toList.any fun x => x.queue.any fun q => q.owners.any fun o => mine o.2)
    || (s.held.any fun h => h.task.launch == id) || s.deferred.any fun d => d.1.launch == id

/-- Whether every effect of a launch has performed and every team of it has retired (R327). -/
def State.settled (s : State) (l : Launch) : Bool :=
  !(s.teams.any fun t => t.launch == l.id) && !s.inFlight l.id && !s.unperformed l.id

/-- The status with which a launch completes now, if it does (R318, R327). -/
def State.finalStatus (s : State) (l : Launch) : Option Byte :=
  match l.phase with
  | .waiting => if s.prereqFailed l.hdr.pre0 || s.prereqFailed l.hdr.pre1 then some 0x14 else none
  | .queued => none
  | .running =>
    if l.hdr.teams ≤ l.nextTeam && (!l.hdr.det || l.hdr.teams ≤ l.wave * l.hdr.c) && s.settled l then some 0x00 else none
  | .ending c => if s.settled l then some c else none
  | .complete _ => none

/-! ### Records (R328, R329, R333) -/

/-- The 32 bytes of a completion record (R328). -/
def Completion.bytes (c : Completion) : List Byte :=
  leBytes 4 c.launch.toNat ++ [c.status, c.flags, 0, 0] ++ leBytes 8 c.detail.toNat ++ leBytes 8 c.digest1.toNat ++ leBytes 8 c.digest2.toNat

/-- A completion endpoint. -/
def State.endpoint (s : State) (id : BitVec 32) : Option Endpoint := s.endpoints.find? fun e => e.id == id

/-- The records gathered for one endpoint and class. -/
def State.gatheredOf (s : State) (ep : BitVec 32) (cls : Nat) : List Completion :=
  s.gathered.filter fun c => c.endpoint == ep && c.cls == cls

/-- The gathered records of an endpoint and class sent as one message, in completion order (R329). -/
def State.sendGathered (s : State) (ep : BitVec 32) (cls : Nat) : State :=
  match s.gatheredOf ep cls with
  | [] => s
  | rs => if !s.portUp then s else { s with
      sent := s.sent ++ [.records (rs.map Completion.bytes)]
      gathered := s.gathered.filter fun c => !(c.endpoint == ep && c.cls == cls) }

/-- A completion record on its way (R329): sent at once where the class's window is 0, or with 32 gathered, through a port that is usable; without
one it stays gathered (R366; log 134). A launch that names no registered endpoint sends none. -/
def State.sendRecord (s : State) (c : Completion) : State :=
  match s.endpoint c.endpoint with
  | none => s
  | some e =>
    let s1 := { s with gathered := s.gathered ++ [c] }
    if c.endpoint == 0 then s
    else if e.windows.getD c.cls 0 == 0 || 32 ≤ (s1.gatheredOf c.endpoint c.cls).length then s1.sendGathered c.endpoint c.cls
    else s1

/-- COALESCE_WINDOW_EXPIRY (R329). -/
def execCoalesceWindowExpiry (endpoint : BitVec 32) (cls : BitVec 4) (s : State) : Out :=
  .next (s.sendGathered endpoint cls.toNat)

/-- The completion mark, for every status (R327; log 121): the state with it written, and whether it could not be; or nothing while a stack
holds it. -/
def State.writeMark (s : State) (l : Launch) : Option (State × Bool) :=
  if l.hdr.mark == 0 then some (s, false)
  else
    match s.space l.asid with
    | none => some (s, true)
    | some p =>
      match s.xlateVia p.acc p.map l.hdr.mark false true with
      | .error _ => some (s, true)
      | .ok pa =>
        if s.heldAt pa then none else some (s.write (s.slotKey p.key) pa (leBytes 8 l.hdr.mval.toNat), false)

/-- A launch completes with a status (R327, R328, R333): its mark, its record, its parent's record, and the launches that waited for it. -/
def State.complete (s : State) (l : Launch) (status : Byte) (d1 d2 : W64) : State :=
  match s.writeMark l with
  | none => s
  | some (s1, bad) =>
    let c : Completion := {
      endpoint := l.hdr.endpoint
      cls := l.hdr.cls
      launch := l.id
      status := status
      flags := if bad then 1 else 0
      detail := l.detail
      digest1 := d1
      digest2 := d2 }
    let s2 := (s1.sendRecord c).modLaunch l.id fun m => { m with phase := .complete status }
    let s3 := match l.parent with
      | some (st, t) => s2.settle st (some t) 3 (some (launchRecord l.id status))
      | none => s2
    s3.promote

/-! ### The closure check (R331) -/

/-- Whether a region that the supervisor reads lies in a held stack. -/
def State.regionsHeld (s : State) (l : Launch) (p : Space) : Bool := l.regions.any fun r => s.anyHeld (s.regionPas p r)

/-- The digest of the output regions in list order (R331); where a region cannot be read it is free (log 31). -/
def State.digestOut (s : State) (l : Launch) (p : Space) : W64 :=
  let outs := (l.regions.filter fun r => r.out).map fun r => s.readSpace p r.va r.len
  match outs.mapM fun r => r.toOption with
  | some bs => bs.foldl crc64 0
  | none => Config.openDigest s.tick

/-- What follows the first run of a closure-checked launch (R331, steps 3 and 4): its digest, its inputs restored, and the second run. -/
def State.rerunClosed (s : State) (l : Launch) (p : Space) : State :=
  let d1 := s.digestOut l p
  let s1 := (s.scatterBytes (s.slotKey p.key) l.snapshot).mapCores fun c => { c with coefFor := c.coefFor.filter fun i => i != l.id }
  { s1 with queue := s1.queue ++ [l.id] }.modLaunch l.id fun m => { m with nextTeam := 0, wave := 0, bound := [], groups := [], digest1 := d1, second := true, since := s.cycle }

/-- LAUNCH_COMPLETE (R327, R331). -/
def execLaunchComplete (launch : BitVec 32) (s : State) : Out :=
  match s.launch launch with
  | none => .next s
  | some l =>
    match s.finalStatus l with
    | none => .next s
    | some status =>
      if l.hdr.closed && status == 0 then
        match s.space l.asid with
        | none => .next (s.complete l status l.digest1 0)
        | some p =>
          if s.regionsHeld l p then .next s
          else if !l.second then .next (s.rerunClosed l p)
          else
            let d2 := s.digestOut l p
            .next (s.complete l (if d2 == l.digest1 then 0x01 else 0x02) l.digest1 d2)
      else .next (s.complete l status l.digest1 0)

end Sys2Proof.Machine
end

