-- ==== Sys2Proof/Machine/Uet.lean ====
section
/-! DEFINITION. Ultra Ethernet accesses from outside (R358): writes, reads and atomics to the virtual addresses of an address space that
an open session owns, unreliable packets, and connection setup. -/

namespace Sys2Proof.Machine

/-- The resident space that an open session owns. -/
def State.openSpace (s : State) (asid : BitVec 12) : Option Space :=
  if s.sessions.any fun x => x.asid == asid then s.space asid else none

/-- The PA of each byte of an access from the network, or the access error: only types 0 and 1 are served (R358); the own-scratchpad
alias, which no partition of the network holds, is an access error. -/
def State.uetXlate (s : State) (p : Space) (va : W64) (n : Nat) (r w : Bool) : Except Fa (List Nat) :=
  (List.range n).mapM fun i =>
    let at_ := va + BitVec.ofNat 64 i
    match s.xlateVia p.acc p.map at_ r w with
    | .error f => if f.cause == cScratch then .error { f with cause := cProt, tval := at_ } else .error f
    | .ok pa =>
      if paType pa ≤ 1 then .ok pa else .error { cause := cProt, tval := at_, va := at_ }

/-! ### Edits of the Sv57 tables (R111, R367) -/

/-- An entry of the Sv57 tables of a space. -/
def State.pteAt (s : State) (p : Space) (pa : Nat) : W64 :=
  leWord ((List.range 8).map fun i => s.homeByte (s.slotKey p.key) (pa + i))

/-- Whether an entry is a leaf, and whether it names a further table (R116). -/
def pteLeaf (pte : W64) : Bool := pte.getLsbD 0 && (pte.getLsbD 1 || pte.getLsbD 3)
/-- Whether an entry names a further table (R116). -/
def pteTable (pte : W64) : Bool := pte.getLsbD 0 && !pte.getLsbD 1 && !pte.getLsbD 2 && !pte.getLsbD 3

/-- The tables that the entries of some tables name. -/
def State.nextTables (s : State) (p : Space) (ts : List Nat) : List Nat :=
  (ts.flatMap fun t => (List.range 512).filterMap fun i =>
    let pte := s.pteAt p (t + 8 * i)
    if pteTable pte then some (fld pte 10 44 * 2 ^ 12) else none).eraseDups

/-- The Sv57 tables of a space, from those of a level down: five levels from the root (R116). -/
def State.tables (s : State) (p : Space) : Nat → List Nat → List Nat
  | 0, _ => []
  | n + 1, ts => ts ++ State.tables s p n (s.nextTables p ts)

/-- The leaves of a space's tables that a write from outside has changed (R362, R367), read before and after it: those that stay within the policy
(log 120). -/
def State.leafEdits (s t : State) (p : Space) (pas : List Nat) : List Edit :=
  let slots := (pas.map fun pa => pa / 8 * 8).eraseDups
  let tabs := s.tables p 5 [p.root.toNat]
  (slots.filter fun a => tabs.contains (a / 4096 * 4096)).filterMap fun a =>
    let old := s.pteAt p a
    let new := t.pteAt p a
    if old != new && (pteLeaf old || pteLeaf new) && (!pteLeaf new || s.permits p.asid new) then some (.leaf p.asid a new) else none

/-- A write from outside with the edits of Sv57 leaves that it makes logged (R111, R367). -/
def State.logLeaves (s t : State) (pas : List Nat) : State :=
  { t with editLog := t.editLog ++ s.spaces.flatMap fun p => s.leafEdits t p pas }

/-! ### Accesses from the network -/

/-- The access served for an owned space: its PAs; a held stack keeps it in its queue (R107). -/
def State.onUet (s : State) (q : HeldWork) (asid : BitVec 12) (va : W64) (n : Nat) (r w : Bool) (f : Space → List Nat → State) : Out :=
  match s.openSpace asid with
  | none => .next (s.send (.uetError cProt va))
  | some p =>
    match s.uetXlate p va n r w with
    | .error e => .next (s.send (.uetError e.cause e.tval))
    | .ok pas => if s.anyHeld pas then .next (s.keepOutside pas q) else .next (f p pas)

/-- UET_WRITE (R358, R130). -/
def execUetWrite (asid : BitVec 12) (va : W64) (data : List Byte) (s : State) : Out :=
  s.onUet (.uetWrite asid va data) asid va data.length false true fun p pas =>
    (s.logLeaves (s.scatterBytes (s.slotKey p.key) (pas.zip data)) pas).send .uetAck

/-- The first poisoned byte of an access. -/
def State.firstPoison (s : State) (pas : List Nat) : Option Nat := (pas.zipIdx.find? fun e => s.poisoned e.1).map fun e => e.2

/-- UET_READ (R358): the bytes at their homes. -/
def execUetRead (asid : BitVec 12) (va : W64) (n : Nat) (s : State) : Out :=
  s.onUet (.uetRead asid va n) asid va n true false fun p pas =>
    match s.firstPoison pas with
    | some i => s.send (.uetError cPoison ((va + BitVec.ofNat 64 i) &&& ~~~63#64))
    | none => s.send (.uetData (s.homeBytes (s.slotKey p.key) pas))

/-- The func value of a UET atomic (R101, R310). -/
def UetOp.func (op : UetOp) : Nat :=
  match op with
  | .add => 2
  | .and => 3
  | .or => 4
  | .xor => 5
  | .min => 6
  | .max => 7
  | .minu => 8
  | .maxu => 9
  | .swap => 10
  | .fadd32 => 11
  | .cas => funcCas

/-- One atomic step of the network on n bytes (R310, R358). -/
def State.uetAtomicStep (s : State) (p : Space) (pas : List Nat) (va : W64) (func n : Nat) (v cmp : W64) : State :=
  match s.firstPoison pas with
  | some i => s.send (.uetError cPoison ((va + BitVec.ofNat 64 i) &&& ~~~63#64))
  | none =>
    let pa := pas.headD 0
    let key := s.slotKey p.key
    let s1 := s.drainAt pa n
    let bs := s1.homeBytes key pas
    (s.logLeaves (s1.atomicStep key func n pa (leNat bs) (v.toNat % 2 ^ (8 * n)) (cmp.toNat % 2 ^ (8 * n))) pas).send (.uetData bs)

/-- UET_ATOMIC (R101, R358). -/
def execUetAtomic (asid : BitVec 12) (op : UetOp) (d : Bool) (va : W64) (v cmp : W64) (s : State) : Out :=
  let n := if op == .fadd32 then 4 else atomBytes d
  if va.toNat % n != 0 then .next (s.send (.uetError cMisalign va))
  else s.onUet (.uetAtomic asid op d va v cmp) asid va n true true fun p pas => s.uetAtomicStep p pas va (UetOp.func op) n v cmp

/-- INBOUND_UUD_DROP (R358). -/
def execInboundUudDrop (s : State) : Out := .next { s with uudDropped := s.uudDropped + 1 }

/-- Whether the part supports every feature that a connection asks for (R358): the four delivery modes and the four operations, where unreliable
unordered packets (3) carry NET sends of the device alone, so that a connection with them has no other operation (log 139); sender-based congestion
control; and AES-GCM with 256-bit keys where it carries RCP or a window. -/
def ConnReq.supported (q : ConnReq) : Bool :=
  q.modes.all (fun m => m < 4) && q.ops.all (fun o => o < 4) && (q.ops.all (fun o => o == 0) || q.modes.all fun m => m < 3)
    && !q.credits && !q.other && (if q.guarded then q.keyBits == 256 else q.keyBits == 0 || q.keyBits == 256)

/-- CONNECTION_SETUP (R358): a connection with a feature that the part does not support is refused. -/
def execConnectionSetup (q : ConnReq) (s : State) : Out :=
  if ConnReq.supported q then .next { s.send (.connection true) with conns := s.conns ++ [q] } else .next (s.send (.connection false))

/-- Whether a connection carries RCP (R358, R359): its frames are sends on RUD, under transport security. -/
def ConnReq.carriesRcp (q : ConnReq) : Bool := q.guarded && q.modes.contains 0 && q.ops.contains 0

/-- Whether some connection has been set up with an operation of the table, 0 send, 1 write, 2 read, 3 atomic, and a reliable mode for it (R358). -/
def State.connOp (s : State) (op : Nat) : Bool := s.conns.any fun q => ConnReq.carriesOp q op

end Sys2Proof.Machine
end

