-- ==== Sys2Proof/Machine/Thermal.lean ====
section
/-! DEFINITION. The stacks' holds by critical temperature and what follows them (R107 to R109), the neighbour-refresh generator (R105), the
errors that integrity codes find (R103, R370), device reset (R13, R368), and the readiness of the part's functions (R366). -/

namespace Sys2Proof.Machine

/-- A readiness byte changed. -/
def State.setReady (s : State) (i : Nat) (code : Byte) : State :=
  { s with readiness := s.readiness.set (fin 64 i).val code (fin 64 i).isLt }

/-! ### The hold (R107) -/

/-- STACK_CRITICAL_TEMP (R107): the stack goes into self-refresh. -/
def execStackCriticalTemp (n : Fin 24) (s : State) : Out :=
  match (s.stks.get n).hold with
  | .retired => .next s
  | .none | .refresh _ => .next (s.modStack n fun x => { x with hold := .refresh true })

/-- CRITICAL_TEMP_DEASSERT (R107): the signal deasserts; the stack stays held. -/
def execCriticalTempDeassert (n : Fin 24) (s : State) : Out :=
  match (s.stks.get n).hold with
  | .refresh _ => .next (s.modStack n fun x => { x with hold := .refresh false })
  | .none | .retired => .next s

/-- What an access that has left a stream comes back with: a value, or the VA of the granule that is poisoned. -/
abbrev Answer := Except W64 W64

/-- A stream, or the saved context of one that a trap has moved on, with the answer to its access (R107, R345; log 98): its value counts as an
acquire, and poison is trapped on before the access (R103). -/
def Stream.answered (t : Stream) (rd : Reg) (next : W64) (v : Answer) (now : Nat) : Stream :=
  match t.status, v with
  | .stackWait .., .ok w =>
    let u := t.writeX rd w
    { u with pc := next, instret := t.instret + 1, status := .run, age := now, acq := now + 1 }
  | .stackWait .., .error va => { t with status := .poisonDue va }
  | _, .ok w =>
    match t.owes with
    | some (.waiting r _) => { t with owes := some (.value r w) }
    | some (.value ..) | some (.poison ..) | none => t
  | _, .error va =>
    match t.owes with
    | some (.waiting _ pc) => { t with owes := some (.poison pc va) }
    | some (.value ..) | some (.poison ..) | none => t

/-- The answer to an access of a task's stream. -/
def State.answer (s : State) (st : Fin 4) (k : StreamId) (t : Option Task) (rd : Reg) (next : W64) (v : Answer) : State :=
  s.forTask st t fun x => x.modStream k fun u => u.answered rd next v s.tick

/-- Whether a stream of a task meets poison in n bytes. -/
def State.meetsPoison (s : State) (t : Option Task) (st : Fin 4) (k : StreamId) (pa n : Nat) : Bool :=
  (List.range n).any fun i => s.poisonedTo t st k (pa + i)

/-- A read of a `WAITA` answered: the stream tests the word if it still waits for this very read (R169). -/
def State.serveRead (s : State) (st : Fin 4) (k : StreamId) (t : Option Task) (w : WaitOp) (zero : Bool) (pa key : Nat) : State :=
  if (s.strand st).task != t || (s.stream st k).status != .waitRead (stackOf pa).val w then s
  else if s.meetsPoison t st k pa 8 then s.wait st k (.poisonDue (granule w.va))
  else s.waitSeen st k w zero (leWord ((List.range 8).map fun i => s.taskByte t st k key (pa + i)))

/-- The next state of an answer, and the state itself of an answer without one. -/
def nextOr (s : State) (o : Out) : State :=
  match o with
  | .next t => t
  | .fault _ | .refused _ => s

/-- An instruction that a held stack has kept executed by its stream. -/
def State.redoInstr (s : State) (i : Instr) : State :=
  nextOr s <|
    match i with
    | .tret => execTret s
    | .lnch rd rs1 => execLnch rd rs1 s
    | .platmk rd xh xidx xn xbase iw lsz => execPlatmk rd xh xidx xn xbase iw lsz s
    | .platco rd xc xa xb => execPlatco rd xc xa xb s
    | .platck rd xh => execPlatck rd xh s
    | .platg dev rd xh xdst xmark xval => execPlatg dev rd xh xdst xmark xval s
    | .plats dev op ty pl xpl rd xh xsrc xmark xval => execPlats dev op ty pl xpl rd xh xsrc xmark xval s
    | .coefld t rs => execCoefld t rs s
    | .ld sz rd rs1 imm => execLd sz rd rs1 imm s
    | .ldLit sz rd rs1 lit => execLdLit sz rd rs1 lit s
    | .st sz rs rs1 imm => execSt sz rs rs1 imm s
    | .stLit sz rs rs1 lit => execStLit sz rs rs1 lit s
    | .lda sc d rd rs1 => execLda sc d rd rs1 s
    | .stl sc d rs1 rs2 => execStl sc d rs1 rs2 s
    | .amoAdd sc o d rd rs1 rs2 => execAmoAdd sc o d rd rs1 rs2 s
    | .amoAnd sc o d rd rs1 rs2 => execAmoAnd sc o d rd rs1 rs2 s
    | .amoOr sc o d rd rs1 rs2 => execAmoOr sc o d rd rs1 rs2 s
    | .amoXor sc o d rd rs1 rs2 => execAmoXor sc o d rd rs1 rs2 s
    | .amoMin sc o d rd rs1 rs2 => execAmoMin sc o d rd rs1 rs2 s
    | .amoMax sc o d rd rs1 rs2 => execAmoMax sc o d rd rs1 rs2 s
    | .amoMinu sc o d rd rs1 rs2 => execAmoMinu sc o d rd rs1 rs2 s
    | .amoMaxu sc o d rd rs1 rs2 => execAmoMaxu sc o d rd rs1 rs2 s
    | .amoSwap sc o d rd rs1 rs2 => execAmoSwap sc o d rd rs1 rs2 s
    | .amoFadd32 sc o rd rs1 rs2 => execAmoFadd32 sc o rd rs1 rs2 s
    | .cas sc o d rd rs1 rs2 => execCas sc o d rd rs1 rs2 s
    | .waitaEq sc tmo rd rs1 rs2 => execWaitaEq sc tmo rd rs1 rs2 s
    | .waitaNe sc tmo rd rs1 rs2 => execWaitaNe sc tmo rd rs1 rs2 s
    | .waitaGeu sc tmo rd rs1 rs2 => execWaitaGeu sc tmo rd rs1 rs2 s
    | _ => .next s

/-- An instruction whose page table entry a held stack has kept executed by its stream (R107). -/
def State.redoWords (s : State) (words : List W32) : State :=
  match decodeAccess words with
  | some i => s.redoInstr i
  | none => s

/-- An instruction of the merge unit that a held stack has kept executed by its stream. -/
def State.redoSparse (s : State) (func : Fin 3) (var : Bool) (rd rs1 rs2 xs xs2 : Reg) : State :=
  nextOr s <|
    match func with
    | 0 => execSphdr var rd rs1 s
    | 1 => execSpcnt var rd rs1 rs2 xs xs2 s
    | 2 => execSpmrg var rd rs1 rs2 xs xs2 s

/-- An instruction of a task's stream tried again, if the stream still stands before it. -/
def State.redoAt (s : State) (st : Fin 4) (k : StreamId) (t : Option Task) (pc : W64) (words : List W32) (go : State → State) : State :=
  if (s.strand st).task == t && s.runnable st k && (s.stream st k).pc == pc then
    { go { s with cur := { agent := .stream st k, words := words } } with cur := s.cur }
  else s

/-- Whether a task's stream still stands before an instruction, so that it can be tried again. -/
def State.standsAt (s : State) (st : Fin 4) (k : StreamId) (t : Option Task) (pc : W64) : Bool :=
  (s.strand st).task == t && s.runnable st k && (s.stream st k).pc == pc

/-- The PA of the page table entry that the walk of a VA meets in a held stack. -/
def State.walkStop (s : State) (st : Fin 4) (va : W64) : Option Nat :=
  match s.walk (s.acc st) va 5 (fld (s.strand st).aspace 20 44 * 2 ^ 12) with
  | .error f => if f.cause == cHeld then some f.tval.toNat else none
  | .ok _ => none

/-- A walk that has passed the held entries of some stacks goes on: to the next one, where it takes its place again with the stacks that it has
passed, or to its end with what follows then. -/
def State.walkOn (s : State) (st : Fin 4) (va : W64) (t : Option Task) (w : HeldWork) (passed : List (Fin 24)) (last : State → State) : State :=
  match s.walkStop st va with
  | some pa => s.placeReq (s.heldStacks [pa]) (.work s.core t w (passed ++ stacksOf [pa]) s.keys s.tick)
  | none => last s

/-- Work of the active core that held stacks have kept, done at its place in their queues (R107; log 97). Of a scalar access whose page table
entry was kept, that is the walk alone: the access itself follows it. -/
def State.serveWork (s : State) (t : Option Task) (w : HeldWork) (passed : List (Fin 24)) : State :=
  match w with
  | .viq st => if (s.strand st).task == t then nextOr s (execViqCommit st s) else s
  | .deep st aJ => nextOr s (execDeepPartArrival st aJ s)
  | .copy ch =>
    if (s.channels.get ch).copy.any fun c => c.task == t then
      let u := nextOr s (execCopyComplete ch s)
      if (u.channels.get ch).copy.isSome then nextOr u (execCopyFault ch u) else u
    else s
  | .gather i reach => nextOr s (execPlatGatherComplete i reach s)
  | .scatter i reach => nextOr s (execPlatScatterComplete i reach s)
  | .net st slot ok data => if ok && !s.portUp then s else nextOr s (execNetComplete st slot ok data s)
  | .fetch st k va kept =>
    if (s.strand st).task != t then s
    else
      s.walkOn st va t w passed fun u =>
        if (u.scaXlate st k va .fetch).toOption == some kept then u.fillWord st k va else u.fillTlb st k va
  | .redo st k pc va words =>
    if !s.standsAt st k t pc then s
    else
      s.walkOn st va t w passed fun u =>
        match u.walk (u.acc st) va 5 (fld (u.strand st).aspace 20 44 * 2 ^ 12) with
        | .ok _ => u.fillTlb st k va
        | .error _ => u.redoAt st k t pc words fun v => v.redoWords words
  | .uetWrite asid va data => nextOr s (execUetWrite asid va data s)
  | .uetRead asid va n => nextOr s (execUetRead asid va n s)
  | .uetAtomic asid op d va v cmp => nextOr s (execUetAtomic asid op d va v cmp s)
  | .instr st k pc words i => s.redoAt st k t pc words fun u => u.redoInstr i
  | .sparse st k pc words func var rd rs1 rs2 xs xs2 => s.redoAt st k t pc words fun u => u.redoSparse func var rd rs1 rs2 xs xs2

/-- What follows work that has been done, as a new request: the access whose walk has ended. -/
def State.afterWork (s : State) (t : Option Task) (w : HeldWork) : State :=
  match w with
  | .redo st k pc va words =>
    if !s.keepsWork t w && (tlbHit (s.stream st k).tlb va).isSome then s.redoAt st k t pc words fun u => u.redoWords words else s
  | .viq _ | .deep .. | .copy _ | .gather .. | .scatter .. | .net .. | .fetch .. | .uetWrite .. | .uetRead .. | .uetAtomic .. | .instr .. | .sparse .. => s

/-! ### The queues served (R107, R366; log 97) -/

/-- A stack as a request meets it that is being served: nothing before it, and open, unless retired. -/
def Stack.opened (x : Stack) : Stack :=
  { x with queue := [], hold := match x.hold with
      | .retired => .retired
      | .none | .refresh _ => .none }

/-- The state in which a request with its stacks and the keys of its arrival is served. -/
def State.opened (s : State) (ns : List (Fin 24)) (keys : Vector (Option (BitVec 512)) 64) : State :=
  { s with
    keys := keys
    stks := Vector.ofFn fun n => if ns.contains n then (s.stks.get n).opened else s.stks.get n
    readiness := Vector.ofFn fun i => if decide (i.val < 24) && ns.contains (fin 24 i.val) then 2 else s.readiness.get i }

/-- The stacks of a state as they were before a request was served, with what the request has placed behind what stood there. -/
def State.shutAgain (t s : State) (ns : List (Fin 24)) : State :=
  { t with
    keys := s.keys
    readiness := s.readiness
    stks := Vector.ofFn fun n =>
      let x := t.stks.get n
      if ns.contains n then { x with hold := (s.stks.get n).hold, queue := (s.stks.get n).queue ++ x.queue } else x }

/-- The answers of the network that were given while no port was usable, kept until one is (R366). -/
def State.keepAnswers (t s : State) : State :=
  if t.portUp then t
  else { t with sent := s.sent, outbox := t.outbox ++ t.sent.drop s.sent.length }

/-- One request done, after it has left its queues (R107). -/
def State.serve (s : State) (q : StackReq) : State :=
  match q with
  | .line es => s.putLine es
  | .store _ _ _ pa bs key _ => s.putBytes key pa bs
  | .load st k t n sgn pa rd key next va =>
    s.onCore (s.coreFor t) fun v =>
      v.answer st k t rd next (if v.meetsPoison t st k pa n then .error (granule va)
        else .ok (extend sgn n ((List.range n).map fun i => v.taskByte t st k key (pa + i))))
  | .read st k t w zero pa key => s.onCore (s.coreFor t) fun v => v.serveRead st k t w zero pa key
  | .work core t w ks keys _ =>
    let done := (((s.opened ks keys).onCore core fun v => v.serveWork t w ks).shutAgain s ks).keepAnswers s
    done.onCore core fun v => v.afterWork t w
  | .atomic st k t func n pa arg expect rd key next va =>
    s.onCore (s.coreFor t) fun v =>
      if v.meetsPoison t st k pa n then v.answer st k t rd next (.error (granule va))
      else
        let bs := (List.range n).map fun i => v.homeByte key (pa + i)
        let u := match atomicNew func n (leNat bs) arg.toNat expect.toNat with
          | some w => (v.putBytes key pa (leBytes n w)).markWrite pa n
          | none => v
        u.answer st k t rd next (.ok (extend true n bs))

/-- The stacks that keep a request which stands in the queue of one: work may have its place in several. -/
def State.keptIn (s : State) (n : Fin 24) (q : StackReq) : List (Fin 24) :=
  match q with
  | .work .. => (List.finRange 24).filter fun m => (s.stks.get m).queue.contains q
  | .line _ | .store .. | .load .. | .read .. | .atomic .. => [n]

/-- Whether the request at the head of a stack's queue can be done: none of the stacks that keep it is shut, and it is the head of each. -/
def State.headReady (s : State) (n : Fin 24) (q : StackReq) : Bool :=
  (s.keptIn n q).all fun m => !s.stackShut m && (s.stks.get m).queue.head? == some q

/-- The next request to be served, with a stack at whose head it stands. -/
def State.nextServed (s : State) : Option (Fin 24 × StackReq) :=
  (List.finRange 24).findSome? fun n => (s.stks.get n).queue.head?.bind fun q => if s.headReady n q then some (n, q) else none

/-- The heads of the queues of some stacks gone. -/
def State.popHeads (s : State) (ns : List (Fin 24)) : State :=
  { s with stks := Vector.ofFn fun n => let x := s.stks.get n; if ns.contains n then { x with queue := x.queue.drop 1 } else x }

/-- A number of requests served, each when it stands at the head of the stacks that keep it. -/
def State.serveSome : Nat → State → State
  | 0, s => s
  | f + 1, s =>
    match s.nextServed with
    | none => s
    | some (n, q) => State.serveSome f ((s.popHeads (s.keptIn n q)).serve q)

/-- Everything served that the stacks which are not shut can serve (R107, R366); a walk takes up to five places. -/
def State.serveStacks (s : State) : State := State.serveSome (6 * (s.stks.toList.map fun x => x.queue.length).sum) s

/-- SELF_REFRESH_EXIT (R107, R109): 100 µs after the signal deasserted, the queue is served in its order. -/
def execSelfRefreshExit (n : Fin 24) (s : State) : Out :=
  match (s.stks.get n).hold with
  | .refresh false =>
    let s1 := s.modStack n fun x => { x with hold := .none, event := false }
    .next (if (s.stks.get n).event then s1.setReady n.val 2 else s1).serveStacks
  | .none | .refresh true | .retired => .next s

/-- STACK_HOLD_EVENT (R109): a hold has lasted 4 ms. -/
def execStackHoldEvent (n : Fin 24) (s : State) : Out :=
  match (s.stks.get n).hold with
  | .refresh _ =>
    if (s.stks.get n).event then .next s
    else
      let s1 := (s.modStack n fun x => { x with event := true }).setReady n.val 3
      .next { s1 with sent := s1.sent ++ [.stackHold n.val] }
  | .none | .retired => .next s

/-! ### Retirement (R109) -/

/-- Whether any PA lies in a stack. -/
def inStack (n : Fin 24) (pas : List Nat) : Bool := pas.any fun pa => isHbm pa && stackOf pa == n

/-- The PAs that a plat operation touches. -/
def PlatOp.pas (o : PlatOp) : List Nat := o.mem ++ o.plat.pas.flatMap id ++ o.squash.getD [] ++ o.mark.toList

/-- The PAs that a NET command touches. -/
def State.netPas (s : State) (o : NetOp) : List Nat :=
  match s.netLocal o with
  | .ok (pas, m) => pas ++ m.toList
  | .error _ => []

/-- The launches with a request of an engine of the active core held for a stack: a transfer that cannot complete without it. -/
def State.coreLaunchesAt (s : State) (n : Fin 24) : List (BitVec 32) :=
  let of := fun (t : Option Task) => t.map fun u => u.launch
  let copies := s.channels.toList.filterMap fun c => c.copy.bind fun y => if inStack n (s.copyPlan y).pas then of y.task else none
  let plats := s.platSlots.toList.filterMap fun c => c.op.bind fun o => if inStack n o.pas then of o.task else none
  let nets := s.strands.toList.flatMap fun x => x.net.filterMap fun o => if inStack n (s.netPas o) then of o.task else none
  let deep := s.mats.flatMap fun mt => mt.deep.filterMap fun d =>
    if !d.ready && inStack n (d.map.pasOf (d.fired.flatMap d.map.rowRanges)) then of d.ent.task else none
  copies ++ plats ++ nets ++ deep

/-- The launches with a request held for a stack: in its controller queue, of a core, or of a wave fence that cannot begin without it. -/
def State.launchesAt (s : State) (n : Fin 24) : List (BitVec 32) :=
  let of := fun (t : Option Task) => t.map fun u => u.launch
  let queued := (s.stks.get n).queue.flatMap fun q => q.owners.filterMap fun o => of o.2
  let fencing := (s.launches.filter fun l => l.hdr.det && s.waveOver l && !s.deferring l.id && inStack n (s.fencePas l)).map fun l => l.id
  (queued ++ (s.views.flatMap fun v => v.coreLaunchesAt n) ++ fencing).eraseDups

/-- A request that a retired stack discards (R109): a stream that waits for it gets poisoned data, an access from outside what a retired stack
answers, once no other stack keeps it. -/
def State.discard (n : Fin 24) (s : State) (q : StackReq) : State :=
  match q with
  | .load st k t _ _ _ rd _ next va | .atomic st k t _ _ _ _ _ rd _ next va => s.answer st k t rd next (.error (granule va))
  | .read st k t w _ _ _ => s.onCore (s.coreFor t) fun v =>
      if (v.strand st).task == t && (v.stream st k).status == .waitRead n.val w then v.wait st k (.poisonDue (granule w.va)) else v
  | .work _ _ (.uetWrite ..) .. | .work _ _ (.uetRead ..) .. | .work _ _ (.uetAtomic ..) .. =>
    if s.stks.toList.any fun x => x.queue.contains q then s else s.serve q
  | .line _ | .store .. | .work .. => s

/-- STACK_RETIRE (R109): the supervisor retires a stack after its stack-hold event; what was held for it is discarded, and every launch
with a request there ends STACK_LOST. -/
def execStackRetire (n : Fin 24) (s : State) : Out :=
  if !(s.stks.get n).event then .next s
  else
    let ls := s.launchesAt n
    let s1 := (s.modStack n fun x => { x with hold := .retired, event := false, queue := [] }).setReady n.val 4
    .next (ls.foldl (fun u l => u.endLaunch l 0x13 0) ((s.stks.get n).queue.foldl (State.discard n) s1)).serveStacks

/-! ### The generator (R105) -/

/-- One step of a stack's neighbour-refresh generator (R105). -/
def refreshStep (x0 : W64) : W64 :=
  let x1 := x0 ^^^ (x0 <<< 13)
  let x2 := x1 ^^^ (x1 >>> 7)
  x2 ^^^ (x2 <<< 17)

/-- A new seed of a stack's generator from the hardware random source (R105; log 17). -/
def Stack.reseed (x : Stack) (n : Fin 24) (now : Nat) : Stack := { x with gen := Config.randomSeed (24 * now + n.val), steps := 0 }

/-- A row activate of a stack (R105): the generator takes one step, and tells whether the neighbours are refreshed. Outside test mode every
2^20-th step reseeds it. A refresh changes timing only (R106). -/
def State.activate (s : State) (n : Fin 24) : State :=
  s.modStack n fun x =>
    let g := refreshStep x.gen
    let y := { x with gen := g, steps := x.steps + 1, nbr := g.toNat % 2 ^ fld x.stkref 0 5 == 0 }
    if !x.stkref.getLsbD 31 && 2 ^ 20 ≤ y.steps then y.reseed n s.tick else y

/-- GENERATOR_RESEED (R105): outside test mode, where 2^20 steps have passed under it. -/
def execGeneratorReseed (n : Fin 24) (s : State) : Out :=
  let x := s.stks.get n
  if x.stkref.getLsbD 31 || x.steps < 2 ^ 20 then .next s else .next (s.modStack n fun x => x.reseed n s.tick)

/-! ### Integrity codes (R103, R370) -/

/-- A count that stops at its highest value (R104). -/
def saturate (v : BitVec 32) : BitVec 32 := if v == BitVec.allOnes 32 then v else v + 1

/-- An error of a stack counted (R104). -/
def Stack.countError (x : Stack) (corrected : Bool) : Stack :=
  let hi : BitVec 32 := x.stkecc.extractLsb' 32 32
  let lo : BitVec 32 := x.stkecc.extractLsb' 0 32
  { x with stkecc := if corrected then hi ++ saturate lo else saturate hi ++ lo }

/-- Whether a PA names a byte of HBM or of a scratchpad. -/
def holdsData (pa : Nat) : Bool := decide (pa < 1536 * 2 ^ 30) || (paType pa == 1 && decide (pa % 2 ^ 52 < 2 ^ 30))

/-- An error that an integrity code finds (R31, R103, R370). One that it cannot correct poisons the data: a granule, or a register of a strand's
frame. A flit is sent again up to four times, and a packet whose GCM tag fails is dropped and sent again. -/
def State.eccError (s : State) (site : Site) (corrected : Bool) : State :=
  let mark := fun (u : State) (pa : Nat) => if corrected || !holdsData pa then u else u.addPoison pa
  match site with
  | .stack pa => if !decide (pa < 1536 * 2 ^ 30) then s else mark (s.modStack (stackOf pa) fun x => x.countError corrected) pa
  | .scratch pa => if paType pa == 1 then mark s pa else s
  | .frame st v => if corrected || 80 ≤ v || (s.strand st).bad.contains v then s else s.modStrand st fun x => { x with bad := x.bad ++ [v] }
  | .flit pa retries => if 4 < retries then mark s pa else s
  | .port pa => mark s pa
  | .gcm => s

/-! ### Device reset and readiness -/

/-- DEVICE_RESET (R13, R105, R368): every register at its reset value, the generators reseeded, a staged firmware image applied. What
memory holds stays (log 41). -/
def execDeviceReset (s : State) : Out :=
  .next { State.reset with
    core := s.core
    agenda := s.agenda
    cur := s.cur
    tick := s.tick
    mem := s.mem
    keyTag := s.keyTag
    poison := s.poison
    stks := resetStacks s.tick
    firmware := s.staged.getD s.firmware
    sent := s.sent }

/-- Whether a function's readiness is that of a stack that is held or retired, which follows R109 alone. -/
def State.stackStays (s : State) (i : Nat) : Bool :=
  decide (i < 24) && ((s.stks.get (fin 24 i)).event || (s.stks.get (fin 24 i)).hold == .retired)

/-- What waits for a usable port sent, once one is (R366). -/
def State.flushOutbox (s : State) : State := if s.portUp then { s with sent := s.sent ++ s.outbox, outbox := [] } else s

/-- READINESS_CHANGE (R366): a function goes down, initialises, becomes ready or fails. A stack that becomes ready serves what it has kept
(log 122), and a port what has waited for one. -/
def execReadinessChange (ix : Fin 48) (code : Byte) (s : State) : Out :=
  if (code == 0 || code == 1 || code == 2 || code == 5) && ix.val < 47 && !s.stackStays ix.val then
    .next (s.setReady ix.val code).flushOutbox.serveStacks
  else .next s

end Sys2Proof.Machine
end

