-- ==== Sys2Proof/Machine/Rcp.lean ====
section
/-! DEFINITION. The Rosain Command Protocol (R359 to R363, R366 to R368): frames, sessions, and what the part does with each command kind.
An event holds the fields of one frame. A request that must wait changes nothing, and the step keeps it (R361). -/

namespace Sys2Proof.Machine

/-! ### Frames, sessions and replies (R359, R360) -/

/-- The magic of a frame: bytes 0x52 0x43 0x50 0x46 (R359). -/
def rcpMagic : BitVec 32 := 0x46504352

/-- The most bytes of a body (R359). -/
def rcpBody : Nat := 65520

/-- A frame of RCP 1.0 (R359). -/
def rcpFrame (kind : BitVec 16) (tag : BitVec 32) (body : List Byte) : List Byte :=
  leBytes 4 rcpMagic.toNat ++ [1, 0] ++ leBytes 2 kind.toNat ++ leBytes 4 tag.toNat ++ leBytes 4 body.length ++ body

/-- An open session. -/
def State.session (s : State) (id : Nat) : Option Session := s.sessions.find? fun x => x.id == id

/-- A reply: the request's kind with bit 15 set, its tag, and a body that begins with a status (R359). -/
def State.reply (s : State) (r : Rcp) (kind : BitVec 16) (status : BitVec 32) (body : List Byte) : State :=
  s.send (.reply r.session (rcpFrame (kind ||| 0x8000) r.tag (leBytes 4 status.toNat ++ body)))

/-- A frame dropped and counted (R360). -/
def State.dropFrame (s : State) : State := { s with dropped := s.dropped + 1 }

/-- A frame of a kind: one with another magic (log 117) or of another major version is dropped and counted, one whose body is too long or
not of its kind's length is answered 0x31 (R359, R360). -/
def State.onFrame (s : State) (r : Rcp) (kind : BitVec 16) (fits : Nat → Bool) (f : Option Session → State) : State :=
  if r.magic != rcpMagic || (s.session r.session).any fun x => r.major != x.major then s.dropFrame
  else if rcpBody < r.len.toNat || !fits r.len.toNat then s.reply r kind 0x31 []
  else f (s.session r.session)

/-- A request of an open session served; one without a session is answered 0x32 (R359, R360). -/
def State.serveRcp (s : State) (r : Rcp) (kind : BitVec 16) (fits : Nat → Bool) (f : Session → State) : Out :=
  .next (if (s.session r.session).isNone && r.magic == rcpMagic then s.reply r kind 0x32 []
    else s.onFrame r kind fits fun x => (x.map f).getD s)

/-- SESSION_OPEN by a host whose list is given (R360): the part speaks 1.0 only. Reports that an earlier session of the same number obtained are not the
new one's (R111). -/
def State.openSession (s : State) (r : Rcp) (versions : List (Byte × Byte)) (asid : BitVec 16) : State :=
  if 16 < versions.length || 4096 ≤ asid.toNat || !versions.contains (1, 0) then s.reply r 1 0x31 []
  else
    let x : Session := { id := r.session, major := 1, minor := 0, asid := asid.setWidth 12 }
    let s1 : State := { s with
      sessions := (s.sessions.filter fun y => y.id != r.session) ++ [x]
      measured := s.measured.filter fun m => m.1 != r.session }
    s1.reply r 1 0 [1, 0]

/-- SESSION_OPEN (R360, R361). -/
def execSessionOpen (r : Rcp) (versions : List (Byte × Byte)) (asid : BitVec 16) (s : State) : Out :=
  .next (s.onFrame r 1 (fun _ => true) fun _ => s.openSession r versions asid)

/-- UNKNOWN_KIND (R359): a frame of a kind that R361 does not list. -/
def execUnknownKind (r : Rcp) (kind : BitVec 16) (s : State) : Out :=
  if 1 ≤ kind.toNat && kind.toNat ≤ 9 then .next s else .next (s.onFrame r kind (fun _ => true) fun _ => s.reply r kind 0x30 [])

/-! ### Launches and endpoints -/

/-- A submission that the steps of R312 accept, or the status that refuses it. -/
def State.submit (s : State) (r : Rcp) (x : Session) (hdr : W64) (poison : Byte) : State :=
  let refuse := fun (c : Byte) => s.reply r 2 (c.setWidth 32) []
  match s.space x.asid with
  | none => refuse 0x23
  | some p =>
    if !s.anyDieReady p then refuse 0x23
    else if hdr.toNat % 128 != 0 then refuse 0x20
    else
      match s.readSpace p hdr 128 with
      | .error _ => refuse 0x20
      | .ok b =>
        let status := s.headerStatus p b none
        if status != 0 then refuse status
        else
          let a := s.accept p.asid b poison none
          a.1.reply r 2 0 (leBytes 4 a.2.toNat)

/-- Whether the header of a submission lies in a held stack, so that its read waits (R107). -/
def State.headerHeld (s : State) (x : Session) (hdr : W64) : Bool :=
  match s.space x.asid with
  | none => false
  | some p =>
    match s.spaceXlate p hdr 128 true false with
    | .error _ => false
    | .ok pas => s.anyHeld pas

/-- LAUNCH_SUBMIT (R312, R361): `poison` is the second doubleword of the body, the policy byte with seven bytes that are zero. -/
def execLaunchSubmit (r : Rcp) (hdr : W64) (poison : W64) (s : State) : Out :=
  s.serveRcp r 2 (fun n => n == 16) fun x =>
    if 1 < poison.toNat then s.reply r 2 0x31 [] else if s.headerHeld x hdr then s else s.submit r x hdr (poison.setWidth 8)

/-- ENDPOINT_REG (R329, R361). -/
def execEndpointReg (r : Rcp) (endpoint : BitVec 32) (windows : List Nat) (s : State) : Out :=
  s.serveRcp r 3 (fun _ => true) fun _ =>
    if windows.length != 16 || windows.any fun w => 1000 < w then s.reply r 3 0x31 []
    else
      let e : Endpoint := { id := endpoint, windows := windows }
      let s1 : State := { s with endpoints := (s.endpoints.filter fun y => y.id != endpoint) ++ [e] }
      s1.reply r 3 0 []

/-! ### Windows (R363) -/

/-- Whether the body of WINDOW_REG keeps its layout. -/
def windowOk (q : WindowReq) : Bool :=
  q.window.toNat < 4096 && q.flags.toNat < 8 && q.zeros == 0 && q.len.toNat % 4096 == 0
    && (if q.flags.getLsbD 2 then q.pinLen.toNat % 4096 == 0 else q.pinVa == 0 && q.pinLen == 0)

/-- Whether an access in flight names a window: in the write-combining buffer, held or deferred for a wave fence, left behind by a stream, or in
a plat operation. -/
def State.windowUsed (s : State) (peer : Bool) (number : Nat) : Bool :=
  let at_ := fun (pa : Nat) => paType pa == (if peer then 4 else 3) && pa % 2 ^ 52 / 2 ^ 40 == number
  (s.cores.any fun c => (c.wcb.any fun e => at_ e.pa) || c.platSlots.toList.any fun x => x.op.any fun o => o.pas.any at_)
    || (s.held.any fun h => at_ h.pa) || (s.posted.any fun p => at_ p.pa) || s.deferred.any fun d => (s.deferredPas d.2.2).any at_

/-- The 4 KiB frames of a peer-pinned range of the session's space (R363), or nothing where it is no range of main memory. -/
def State.pinFrames (s : State) (x : Session) (q : WindowReq) : Option (List Nat) :=
  if !q.flags.getLsbD 2 || q.pinLen == 0 then some []
  else
    match s.space x.asid with
    | none => none
    | some p =>
      let offs := (List.range (q.pinLen.toNat / 4096)).map (fun i => 4096 * i) ++ [q.pinLen.toNat - 1]
      let frames := offs.map fun o => (s.xlateVia p.acc p.map (q.pinVa + BitVec.ofNat 64 o) false false).toOption
      if frames.all fun f => f.any isHbm then some ((frames.filterMap fun f => f.map fun pa => pa / 4096).eraseDups) else none

/-- A window installed or removed, with the edit log extended (R111). -/
def State.setWindow (s : State) (q : WindowReq) (pinned : List Nat) : State :=
  let peer := q.flags.getLsbD 0
  let gone := q.flags.getLsbD 1
  let w : Window := { number := q.window.toNat, peer := peer, base := q.base, len := q.len.toNat, pinned := pinned }
  { s with
    windows := (s.windows.filter fun y => !(y.peer == peer && y.number == q.window.toNat)) ++ (if gone then [] else [w])
    editLog := s.editLog ++ [.window peer gone q.window.toNat q.base q.len.toNat] }

/-- WINDOW_REG (R363, R111): removal waits for the accesses in flight; an installation is held to the policy. -/
def execWindowReg (r : Rcp) (q : WindowReq) (s : State) : Out :=
  s.serveRcp r 4 (fun n => n == 40) fun x =>
    if !windowOk q then s.reply r 4 0x31 []
    else if q.flags.getLsbD 1 then
      if s.windowUsed (q.flags.getLsbD 0) q.window.toNat then s else (s.setWindow q []).reply r 4 0 []
    else if !s.permits x.asid q.base then s.reply r 4 0x33 []
    else
      match s.pinFrames x q with
      | none => s.reply r 4 0x31 []
      | some f => (s.setWindow q f).reply r 4 0 []

/-! ### Readiness -/

/-- The readiness map as it is read (R366, R371): a die that reads 2 by itself reads 1 while one of its stacks is not ready. -/
def State.readyMap (s : State) : List Byte :=
  (List.range 64).map fun i =>
    let b := s.readiness.get (fin 64 i)
    if 24 ≤ i && i < 32 && b == 2 && !s.dieReady (i - 24) then 1 else b

/-- READINESS_QUERY (R366). -/
def execReadinessQuery (r : Rcp) (s : State) : Out := s.serveRcp r 5 (fun n => n == 0) fun _ => s.reply r 5 0 s.readyMap

/-! ### Attestation (R111, R367) -/

/-- The bytes of an edit in the edit log (log 118). -/
def Edit.bytes (e : Edit) : List Byte :=
  match e with
  | .vmap asid entry => [0, 0] ++ leBytes 2 asid.toNat ++ leBytes 8 entry.toNat
  | .leaf asid pa pte => [1, 0] ++ leBytes 2 asid.toNat ++ leBytes 8 pa ++ leBytes 8 pte.toNat
  | .window peer removed number base len =>
    [2, BitVec.ofNat 8 (peer.toNat + 2 * removed.toNat)] ++ leBytes 2 number ++ leBytes 8 base.toNat ++ leBytes 8 len

/-- The measured content of an index (R367): the supervisor's firmware, the edit log, or what the part holds outside the module's state. -/
def State.measuredContent (s : State) (index : Nat) : List Byte :=
  match index with
  | 2 => s.firmware
  | 6 => s.editLog.flatMap Edit.bytes
  | _ => Config.measuredItem index (s.itemRev.get (fin 8 index))

/-- Whether a session holds a report of an index that nothing has outdated (R111). -/
def State.hasReport (s : State) (session index : Nat) : Bool := s.measured.contains (session, index)

/-- A key pair installed in a slot (R110, R111): it needs reports of the policy, the repair tables and the key policy. -/
def State.setKey (s : State) (r : Rcp) (slot : BitVec 6) (pair : BitVec 512) : State :=
  if slot == 0 || !(s.hasReport r.session 3 && s.hasReport r.session 4 && s.hasReport r.session 5) then s.reply r 6 0x33 []
  else ({ s with keys := s.keys.set slot.toNat (some pair) slot.isLt }).reply r 6 0 (Config.spdmReply s.tick)

/-- A change of one of the three measured items (R111): reports of them are outdated, loaded keys are cleared, and every open session is
told. -/
def State.policyChange (s : State) (index : Nat) : State :=
  { s with
    measured := s.measured.filter fun m => !(m.2 == 3 || m.2 == 4 || m.2 == 5)
    itemRev := s.itemRev.set (fin 8 index).val (s.tick + 1) (fin 8 index).isLt
    keys := Vector.replicate 64 none
    sent := s.sent ++ s.sessions.map fun x => .measurementChanged x.id }

/-- A report of an index (R367) with the hash of its content: that of index 3 starts the edit log anew. -/
def State.report (s : State) (r : Rcp) (index : Nat) : State :=
  ({ s with
    measured := if s.hasReport r.session index then s.measured else s.measured ++ [(r.session, index)]
    editLog := if index == 3 then [] else s.editLog }).reply r 6 0
      (Config.spdmHead s.tick ++ shake256 (s.measuredContent index) ++ Config.spdmTail s.tick)

/-- SPDM (R111, R367). -/
def execSpdm (r : Rcp) (q : SpdmReq) (s : State) : Out :=
  s.serveRcp r 6 (fun _ => true) fun _ =>
    match q with
    | .measure i => if 1 ≤ i && i ≤ 6 then s.report r i else s.reply r 6 0 (Config.spdmReply s.tick)
    | .setKey slot pair => s.setKey r slot pair
    | .change i => if i == 3 || i == 4 || i == 5 then (s.policyChange i).reply r 6 0 (Config.spdmReply s.tick)
        else s.reply r 6 0 (Config.spdmReply s.tick)
    | .other _ => s.reply r 6 0 (Config.spdmReply s.tick)

/-! ### Firmware (R368) -/

/-- A firmware image received whole (R368): staged for the next device reset if its signature verifies. -/
def State.stage (s : State) (r : Rcp) (image : List Byte) : State :=
  if Config.imageSigned image then ({ s with staged := some image, incoming := [] }).reply r 7 0 []
  else ({ s with incoming := [] }).reply r 7 0x33 []

/-- FW_UPDATE (R368). -/
def execFwUpdate (r : Rcp) (chunk : List Byte) (last : Bool) (s : State) : Out :=
  s.serveRcp r 7 (fun _ => true) fun _ =>
    if last then s.stage r (s.incoming ++ chunk) else ({ s with incoming := s.incoming ++ chunk }).reply r 7 0 []

/-! ### Address spaces (R362) -/

/-- Whether the body of SPACE_SET keeps its layout. -/
def spaceOk (q : SpaceReq) : Bool :=
  q.flags.toNat < 2 && q.key.toNat < 64 && q.zeros == 0 && q.root.toNat % 4096 == 0 && q.root.toNat < 2 ^ 56

/-- Whether a die holds 8 spaces other than one. -/
def State.dieFull (s : State) (asid : BitVec 12) (d : Nat) : Bool :=
  8 ≤ (s.spaces.filter fun p => p.asid != asid && p.dies.getLsbD d).length

/-- Whether a space is idle: no launch of it is queued or unfinished, and no team of it is on a core. -/
def State.spaceIdle (s : State) (asid : BitVec 12) : Bool :=
  (s.launches.all fun l =>
    l.asid != asid || match l.phase with
      | .complete _ => true
      | .waiting | .queued | .running | .ending _ => false)
    && s.cores.all fun c => c.strands.toList.all (fun x => x.task.isNone || !x.inSpace asid) && c.parked.all fun p => !p.ctx.inSpace asid

/-- The map that a die of the mask holds for a space once a request has been served: that of a new space is empty (R362); where the space was resident,
a die keeps what it held, and one that is added takes the same map, so that the dies stay identical (R114; log 42). -/
def keptMap (old : Option Space) (d : Fin 8) : List W64 :=
  match old with
  | some o => if o.dies.getLsbD d.val then o.maps.get d else o.map
  | none => []

/-- A space created or changed (R362; log 42). Its generation is never reset while the part runs (R120). -/
def State.putSpace (s : State) (q : SpaceReq) : State :=
  let asid := q.asid.setWidth 12
  let p : Space := {
    asid := asid
    key := q.key.setWidth 6
    root := q.root
    dies := q.dies
    maps := Vector.ofFn fun d => if q.dies.getLsbD d.val then keptMap (s.space asid) d else [] }
  { s with spaces := (s.spaces.filter fun y => y.asid != asid) ++ [p] }

/-- Whether a request takes a space from a die that holds valid entries for it, which withdraws translations (R120). -/
def State.withdraws (s : State) (asid : BitVec 12) (dies : Byte) : Bool :=
  (s.space asid).any fun p => (List.finRange 8).any fun d => p.dies.getLsbD d.val && !dies.getLsbD d.val && !(p.maps.get d).isEmpty

/-- SPACE_SET (R362, R111): one that withdraws translations runs `VMFENCE` first (R120). -/
def execSpaceSet (r : Rcp) (q : SpaceReq) (s : State) : Out :=
  s.serveRcp r 8 (fun n => n == 16) fun x =>
    let asid := q.asid.setWidth 12
    if !spaceOk q then s.reply r 8 0x31 []
    else if q.asid != x.asid.setWidth 16 then s.reply r 8 0x33 []
    else if q.flags.getLsbD 0 then
      if s.spaceIdle asid && s.translatedDone asid then
        ({ s.vmfence asid with spaces := s.spaces.filter fun y => y.asid != asid }).reply r 8 0 []
      else s
    else if (List.range 8).any fun d => q.dies.getLsbD d && s.dieFull asid d then s.reply r 8 0x31 []
    else if s.keyless (q.key.setWidth 6) then s.reply r 8 0x33 []
    else if !s.withdraws asid q.dies then (s.putSpace q).reply r 8 0 []
    else if s.translatedDone asid then ((s.vmfence asid).putSpace q).reply r 8 0 []
    else s

/-- Whether two of a list of numbers are equal. -/
def anyTwice : List Nat → Bool
  | [] => false
  | a :: t => t.contains a || anyTwice t

/-- The entries of a space after entries are installed: one of the same page is replaced, and one with V = 0 removes it (R362). -/
def installEntry (vmap : List W64) (e : W64) : List W64 :=
  (vmap.filter fun f => vmapVpn f != vmapVpn e) ++ if e.getLsbD 63 then [e] else []

/-- A space with entries installed on every die that it is resident on (R362). -/
def Space.install (p : Space) (entries : List W64) : Space := p.onDies fun m => entries.foldl installEntry m

/-- Whether a map of a space holds more entries than a die has room for (R16, R114). -/
def Space.overfull (p : Space) : Bool := p.maps.toList.any fun m => decide (8192 < m.length)

/-- VMAP_SET (R362, R121), held to the policy but for removals, which name no range (R111): the entries installed once the accesses of the space
have performed, then the fence, then the reply. One that would leave more than 8,192 entries on a die is refused whole with 0x31, which the spec
does not say (log 119). -/
def execVmapSet (r : Rcp) (hdr : W64) (entries : List W64) (s : State) : Out :=
  s.serveRcp r 9 (fun n => n == 8 + 8 * entries.length) fun x =>
    let asid := x.asid
    if fld hdr 32 32 != 0 || fld hdr 16 16 != entries.length || 1024 < entries.length then s.reply r 9 0x31 []
    else if fld hdr 0 16 != asid.toNat || (s.space asid).isNone then s.reply r 9 0x33 []
    else if (entries.any fun e => vmapReserved e != 0) || anyTwice (entries.map vmapVpn) then s.reply r 9 0x31 []
    else if !entries.all fun e => !e.getLsbD 63 || s.permits asid e then s.reply r 9 0x33 []
    else if (s.space asid).any fun p => (p.install entries).overfull then s.reply r 9 0x31 []
    else if !s.translatedDone asid then s
    else
      let s1 : State := { s with
        spaces := s.spaces.map fun p => if p.asid == asid then p.install entries else p
        editLog := s.editLog ++ entries.map fun e => .vmap asid e }
      (s1.vmfence asid).reply r 9 0 []

/-! ### Edits of the Sv57 tables (R111) -/

/-- The supervisor writes a leaf of a space's Sv57 tables, where that stays within the policy (R111): the edit log is extended. A change of a valid
entry runs `VMFENCE` once the accesses of the space have performed (R120); until then the supervisor does not make it. -/
def State.editLeaf (s : State) (asid : BitVec 12) (pa : Nat) (pte : W64) : State :=
  match s.space asid with
  | none => s
  | some p =>
    let old := s.pteAt p pa
    let fence := old.getLsbD 0 && old != pte
    if pa % 8 != 0 || 1536 * 2 ^ 30 ≤ pa || s.heldAt pa || s.keyless p.key || (pteLeaf pte && !s.permits asid pte) then s
    else if fence && !s.translatedDone asid then s
    else
      let t : State := { s.write (s.slotKey p.key) pa (leBytes 8 pte.toNat) with editLog := s.editLog ++ [.leaf asid pa pte] }
      if fence then t.vmfence asid else t

end Sys2Proof.Machine
end

