-- ==== Sys2Proof/Machine/Salu.lean ====
section
/-! DEFINITION. Scalar integer instructions: majors 0x01, 0x02 and 0x03 (R281 to R284). -/

namespace Sys2Proof.Machine

/-! ### Functions of two values (R281), at 64 bits and, for the W32 form, at 32 bits (R282) -/

/-- Signed quotient truncated toward zero; all ones by zero (R281). -/
def divS {w : Nat} (a b : BitVec w) : BitVec w := if b = 0 then -1 else a.sdiv b
/-- Unsigned quotient; all ones by zero. -/
def divU {w : Nat} (a b : BitVec w) : BitVec w := if b = 0 then -1 else a / b
/-- Remainder with the sign of a; a by zero. -/
def remS {w : Nat} (a b : BitVec w) : BitVec w := if b = 0 then a else a.srem b
/-- Unsigned remainder; a by zero. -/
def remU {w : Nat} (a b : BitVec w) : BitVec w := if b = 0 then a else a % b
/-- Left shift by a count modulo the width. -/
def shl {w : Nat} (a b : BitVec w) : BitVec w := a <<< (b.toNat % w)
/-- Right shift with zeros by a count modulo the width. -/
def shr {w : Nat} (a b : BitVec w) : BitVec w := a >>> (b.toNat % w)
/-- Right shift with copies of the sign bit by a count modulo the width. -/
def sar {w : Nat} (a b : BitVec w) : BitVec w := a.sshiftRight (b.toNat % w)
/-- Bits [127:64] of the exact signed product. -/
def mulHS (a b : W64) : W64 := ((a.signExtend 128) * (b.signExtend 128)).extractLsb' 64 64
/-- Bits [127:64] of the exact unsigned product. -/
def mulHU (a b : W64) : W64 := ((a.setWidth 128) * (b.setWidth 128)).extractLsb' 64 64
/-- 1 or 0. -/
def boolWord (b : Bool) : W64 := if b then 1 else 0
/-- Leading zeros, 64 for 0. -/
def clz64 (a : W64) : W64 := BitVec.ofNat 64 (64 - bitLen a.toNat)
/-- Trailing zeros of a number below 2^f, f for 0. -/
def ctzNat : Nat → Nat → Nat
  | 0, _ => 0
  | f + 1, v => if v % 2 == 1 then 0 else 1 + ctzNat f (v / 2)
/-- Trailing zeros, 64 for 0. -/
def ctz64 (a : W64) : W64 := BitVec.ofNat 64 (ctzNat 64 a.toNat)
/-- Bits set. -/
def popc64 (a : W64) : W64 := BitVec.ofNat 64 (popNat 64 a.toNat)

/-- An instruction that computes X[rd] from two registers. -/
def alu (s : State) (rd rs1 rs2 : Reg) (f : W64 → W64 → W64) : Out :=
  onStream s fun st k => s.done st k rd (f (s.readX st k rs1) (s.readX st k rs2))

/-- The same with its W32 form: the low halves, and the 32-bit result sign-extended (R282). -/
def aluW (s : State) (w : Bool) (rd rs1 rs2 : Reg) (f : W64 → W64 → W64) (g : W32 → W32 → W32) : Out :=
  alu s rd rs1 rs2 fun a b => if w then (g (a.setWidth 32) (b.setWidth 32)).signExtend 64 else f a b

/-- An instruction that computes X[rd] from one register. -/
def alu1 (s : State) (rd rs1 : Reg) (f : W64 → W64) : Out :=
  onStream s fun st k => s.done st k rd (f (s.readX st k rs1))

/-! ### Major 0x01 -/

/-- ADD (R281, R282). -/
def execAdd (w : Bool) (rd rs1 rs2 : Reg) (s : State) : Out := aluW s w rd rs1 rs2 (· + ·) (· + ·)
/-- SUB (R281, R282). -/
def execSub (w : Bool) (rd rs1 rs2 : Reg) (s : State) : Out := aluW s w rd rs1 rs2 (· - ·) (· - ·)
/-- AND (R281, R282). -/
def execAnd (w : Bool) (rd rs1 rs2 : Reg) (s : State) : Out := aluW s w rd rs1 rs2 (· &&& ·) (· &&& ·)
/-- OR (R281, R282). -/
def execOr (w : Bool) (rd rs1 rs2 : Reg) (s : State) : Out := aluW s w rd rs1 rs2 (· ||| ·) (· ||| ·)
/-- XOR (R281, R282). -/
def execXor (w : Bool) (rd rs1 rs2 : Reg) (s : State) : Out := aluW s w rd rs1 rs2 (· ^^^ ·) (· ^^^ ·)
/-- SLL (R281, R282). -/
def execSll (w : Bool) (rd rs1 rs2 : Reg) (s : State) : Out := aluW s w rd rs1 rs2 shl shl
/-- SRL (R281, R282). -/
def execSrl (w : Bool) (rd rs1 rs2 : Reg) (s : State) : Out := aluW s w rd rs1 rs2 shr shr
/-- SRA (R281, R282). -/
def execSra (w : Bool) (rd rs1 rs2 : Reg) (s : State) : Out := aluW s w rd rs1 rs2 sar sar
/-- MUL (R281, R282). -/
def execMul (w : Bool) (rd rs1 rs2 : Reg) (s : State) : Out := aluW s w rd rs1 rs2 (· * ·) (· * ·)
/-- DIV (R281, R282). -/
def execDiv (w : Bool) (rd rs1 rs2 : Reg) (s : State) : Out := aluW s w rd rs1 rs2 divS divS
/-- DIVU (R281, R282). -/
def execDivu (w : Bool) (rd rs1 rs2 : Reg) (s : State) : Out := aluW s w rd rs1 rs2 divU divU
/-- REM (R281, R282). -/
def execRem (w : Bool) (rd rs1 rs2 : Reg) (s : State) : Out := aluW s w rd rs1 rs2 remS remS
/-- REMU (R281, R282). -/
def execRemu (w : Bool) (rd rs1 rs2 : Reg) (s : State) : Out := aluW s w rd rs1 rs2 remU remU
/-- MULH (R281). -/
def execMulh (rd rs1 rs2 : Reg) (s : State) : Out := alu s rd rs1 rs2 mulHS
/-- MULHU (R281). -/
def execMulhu (rd rs1 rs2 : Reg) (s : State) : Out := alu s rd rs1 rs2 mulHU
/-- MIN (R281). -/
def execMin (rd rs1 rs2 : Reg) (s : State) : Out := alu s rd rs1 rs2 (fun a b => if a.slt b then a else b)
/-- MAX (R281). -/
def execMax (rd rs1 rs2 : Reg) (s : State) : Out := alu s rd rs1 rs2 (fun a b => if a.slt b then b else a)
/-- MINU (R281). -/
def execMinu (rd rs1 rs2 : Reg) (s : State) : Out := alu s rd rs1 rs2 (fun a b => if a.ult b then a else b)
/-- MAXU (R281). -/
def execMaxu (rd rs1 rs2 : Reg) (s : State) : Out := alu s rd rs1 rs2 (fun a b => if a.ult b then b else a)
/-- SLT (R281). -/
def execSlt (rd rs1 rs2 : Reg) (s : State) : Out := alu s rd rs1 rs2 (fun a b => boolWord (a.slt b))
/-- SLTU (R281). -/
def execSltu (rd rs1 rs2 : Reg) (s : State) : Out := alu s rd rs1 rs2 (fun a b => boolWord (a.ult b))
/-- ROL (R281). -/
def execRol (rd rs1 rs2 : Reg) (s : State) : Out := alu s rd rs1 rs2 (fun a b => a.rotateLeft (b.toNat % 64))
/-- ROR (R281). -/
def execRor (rd rs1 rs2 : Reg) (s : State) : Out := alu s rd rs1 rs2 (fun a b => a.rotateRight (b.toNat % 64))
/-- CLZ (R281). -/
def execClz (rd rs1 : Reg) (s : State) : Out := alu1 s rd rs1 clz64
/-- CTZ (R281). -/
def execCtz (rd rs1 : Reg) (s : State) : Out := alu1 s rd rs1 ctz64
/-- POPC (R281). -/
def execPopc (rd rs1 : Reg) (s : State) : Out := alu1 s rd rs1 popc64

/-! ### Major 0x02 (R283): the immediate is sign-extended, or the literal as it stands (R59) -/

/-- ADDI (R283). -/
def execAddi (rd rs1 : Reg) (imm : BitVec 11) (s : State) : Out := alu1 s rd rs1 fun a => a + imm.signExtend 64
/-- ADDI with a literal (R283, R59). -/
def execAddiLit (rd rs1 : Reg) (lit : W64) (s : State) : Out := alu1 s rd rs1 fun a => a + lit
/-- ANDI (R283). -/
def execAndi (rd rs1 : Reg) (imm : BitVec 11) (s : State) : Out := alu1 s rd rs1 fun a => a &&& imm.signExtend 64
/-- ANDI with a literal (R283, R59). -/
def execAndiLit (rd rs1 : Reg) (lit : W64) (s : State) : Out := alu1 s rd rs1 fun a => a &&& lit
/-- ORI (R283). -/
def execOri (rd rs1 : Reg) (imm : BitVec 11) (s : State) : Out := alu1 s rd rs1 fun a => a ||| imm.signExtend 64
/-- ORI with a literal (R283, R59). -/
def execOriLit (rd rs1 : Reg) (lit : W64) (s : State) : Out := alu1 s rd rs1 fun a => a ||| lit
/-- XORI (R283). -/
def execXori (rd rs1 : Reg) (imm : BitVec 11) (s : State) : Out := alu1 s rd rs1 fun a => a ^^^ imm.signExtend 64
/-- XORI with a literal (R283, R59). -/
def execXoriLit (rd rs1 : Reg) (lit : W64) (s : State) : Out := alu1 s rd rs1 fun a => a ^^^ lit
/-- SLTI (R283). -/
def execSlti (rd rs1 : Reg) (imm : BitVec 11) (s : State) : Out := alu1 s rd rs1 fun a => boolWord (a.slt (imm.signExtend 64))
/-- SLTI with a literal (R283, R59). -/
def execSltiLit (rd rs1 : Reg) (lit : W64) (s : State) : Out := alu1 s rd rs1 fun a => boolWord (a.slt lit)
/-- SLTIU (R283). -/
def execSltiu (rd rs1 : Reg) (imm : BitVec 11) (s : State) : Out := alu1 s rd rs1 fun a => boolWord (a.ult (imm.signExtend 64))
/-- SLTIU with a literal (R283, R59). -/
def execSltiuLit (rd rs1 : Reg) (lit : W64) (s : State) : Out := alu1 s rd rs1 fun a => boolWord (a.ult lit)
/-- ADDPC (R283): the address of word 0 plus the immediate. -/
def execAddpc (rd : Reg) (imm : BitVec 11) (s : State) : Out :=
  onStream s fun st k => s.done st k rd ((s.stream st k).pc + imm.signExtend 64)
/-- ADDPC with a literal (R283, R59). -/
def execAddpcLit (rd : Reg) (lit : W64) (s : State) : Out :=
  onStream s fun st k => s.done st k rd ((s.stream st k).pc + lit)

/-! ### Major 0x03 (R284) -/

/-- SLLI (R284). -/
def execSlli (rd rs1 : Reg) (sh : BitVec 6) (s : State) : Out := alu1 s rd rs1 fun a => a <<< sh.toNat
/-- SRLI (R284). -/
def execSrli (rd rs1 : Reg) (sh : BitVec 6) (s : State) : Out := alu1 s rd rs1 fun a => a >>> sh.toNat
/-- SRAI (R284). -/
def execSrai (rd rs1 : Reg) (sh : BitVec 6) (s : State) : Out := alu1 s rd rs1 fun a => a.sshiftRight sh.toNat
/-- ROLI (R284). -/
def execRoli (rd rs1 : Reg) (sh : BitVec 6) (s : State) : Out := alu1 s rd rs1 fun a => a.rotateLeft sh.toNat
/-- LDI (R284). -/
def execLdi (rd : Reg) (imm : BitVec 11) (s : State) : Out := onStream s fun st k => s.done st k rd (imm.signExtend 64)
/-- LDI with a literal (R284, R59). -/
def execLdiLit (rd : Reg) (lit : W64) (s : State) : Out := onStream s fun st k => s.done st k rd lit

end Sys2Proof.Machine
end

