-- ==== Sys2Proof/Machine/Sfp.lean ====
section
/-! DEFINITION. Scalar floating point: major 0x04 (R285). Operands are the low bits of registers, results are zero-extended, nothing
is flushed, and flags go to `SFCTL`. -/

namespace Sys2Proof.Machine

/-- The format of a precision (R62). -/
def precFmt (p : Prec) : Fmt :=
  match p with
  | .s => .fp32
  | .d => .fp64
  | .h => .fp16
  | .bf => .bf16

/-- The low bits of a register at a width (R285). -/
def low (v : W64) (w : Nat) : Nat := v.toNat % 2 ^ w

/-- The width and signedness of an integer code (R285). -/
def intCode (c : IntCode) : Nat × Bool :=
  match c with
  | .i64 => (64, true)
  | .u64 => (64, false)
  | .i32 => (32, true)
  | .u32 => (32, false)

/-- A result of `SFP` with its flags: X[rd] zero-extended and `SFCTL` (R285). -/
def State.fpDone (s : State) (st : Fin 4) (k : StreamId) (rd : Reg) (r : Nat × Flags) : State :=
  (s.scalarFlags st k r.2).done st k rd (BitVec.ofNat 64 r.1)

/-- The rounding mode of a stream (R75, R78). -/
def State.scalarRm (s : State) (st : Fin 4) (k : StreamId) : BitVec 3 := sfRm (s.stream st k).sfctl

/-- An FP function of two registers. -/
def sfp2 (s : State) (p : Prec) (rd rs1 rs2 : Reg) (f : Fmt → BitVec 3 → Nat → Nat → Nat × Flags) : Out :=
  onStream s fun st k =>
    let m := precFmt p
    s.fpDone st k rd (f m (s.scalarRm st k) (low (s.readX st k rs1) m.width) (low (s.readX st k rs2) m.width))

/-- An FP function of one register. -/
def sfp1 (s : State) (rd rs1 : Reg) (f : BitVec 3 → W64 → Nat × Flags) : Out :=
  onStream s fun st k => s.fpDone st k rd (f (s.scalarRm st k) (s.readX st k rs1))

/-- A comparison as a result. -/
def boolRes (r : Bool × Flags) : Nat × Flags := (r.1.toNat, r.2)

/-- FADD (R285). -/
def execFadd (p : Prec) (rd rs1 rs2 : Reg) (s : State) : Out := sfp2 s p rd rs1 rs2 Fmt.fadd
/-- FSUB (R285). -/
def execFsub (p : Prec) (rd rs1 rs2 : Reg) (s : State) : Out := sfp2 s p rd rs1 rs2 Fmt.fsub
/-- FMUL (R285). -/
def execFmul (p : Prec) (rd rs1 rs2 : Reg) (s : State) : Out := sfp2 s p rd rs1 rs2 Fmt.fmul
/-- FDIV (R285). -/
def execFdiv (p : Prec) (rd rs1 rs2 : Reg) (s : State) : Out := sfp2 s p rd rs1 rs2 Fmt.fdiv
/-- FSQRT (R285). -/
def execFsqrt (p : Prec) (rd rs1 : Reg) (s : State) : Out :=
  sfp1 s rd rs1 fun rm a => (precFmt p).fsqrt rm (low a (precFmt p).width)
/-- FMIN: minimumNumber (R285, R200). -/
def execFmin (p : Prec) (rd rs1 rs2 : Reg) (s : State) : Out := sfp2 s p rd rs1 rs2 fun f _ a b => f.minMax false true a b
/-- FMAX: maximumNumber (R285, R200). -/
def execFmax (p : Prec) (rd rs1 rs2 : Reg) (s : State) : Out := sfp2 s p rd rs1 rs2 fun f _ a b => f.minMax true true a b
/-- A fused product added to the destination register. -/
def sfpFma (s : State) (p : Prec) (np : Bool) (rd rs1 rs2 : Reg) : Out :=
  onStream s fun st k =>
    let m := precFmt p
    s.fpDone st k rd (m.ffma (s.scalarRm st k) np false (low (s.readX st k rs1) m.width) (low (s.readX st k rs2) m.width)
      (low (s.readX st k rd) m.width))
/-- FMA: a × b + X[rd] (R285). -/
def execFma (p : Prec) (rd rs1 rs2 : Reg) (s : State) : Out := sfpFma s p false rd rs1 rs2
/-- FNMA: −(a × b) + X[rd] (R285). -/
def execFnma (p : Prec) (rd rs1 rs2 : Reg) (s : State) : Out := sfpFma s p true rd rs1 rs2
/-- FEQ (R285). -/
def execFeq (p : Prec) (rd rs1 rs2 : Reg) (s : State) : Out := sfp2 s p rd rs1 rs2 fun f _ a b => boolRes (f.compare 0 a b)
/-- FLT (R285). -/
def execFlt (p : Prec) (rd rs1 rs2 : Reg) (s : State) : Out := sfp2 s p rd rs1 rs2 fun f _ a b => boolRes (f.compare 2 a b)
/-- FLE (R285). -/
def execFle (p : Prec) (rd rs1 rs2 : Reg) (s : State) : Out := sfp2 s p rd rs1 rs2 fun f _ a b => boolRes (f.compare 3 a b)
/-- FTOLE (R285, R95). -/
def execFtole (p : Prec) (rd rs1 rs2 : Reg) (s : State) : Out :=
  sfp2 s p rd rs1 rs2 fun f _ a b => ((totalLE f.width a b).toNat, 0)
/-- FCVTI (R285, R86): S32 and U32 results sign- or zero-extended to 64 bits. -/
def execFcvti (p : Prec) (c : IntCode) (rd rs1 : Reg) (s : State) : Out :=
  sfp1 s rd rs1 fun rm a =>
    let r := ((precFmt p).decode (low a (precFmt p).width)).toInt rm (intCode c).1 (intCode c).2
    ((BitVec.ofInt 64 r.1).toNat, r.2)
/-- ICVTF (R285). -/
def execIcvtf (p : Prec) (c : IntCode) (rd rs1 : Reg) (s : State) : Out :=
  sfp1 s rd rs1 fun rm a => (precFmt p).ofInt rm (readInt (intCode c).1 (intCode c).2 a.toNat)
/-- FCVTF (R285, R86): the source precision of the code, the destination p. -/
def execFcvtf (p src : Prec) (rd rs1 : Reg) (s : State) : Out :=
  sfp1 s rd rs1 fun rm a => (precFmt src).toFmt (precFmt p) rm (low a (precFmt src).width)
/-- FCLASS (R285, R201). -/
def execFclass (p : Prec) (rd rs1 : Reg) (s : State) : Out :=
  sfp1 s rd rs1 fun _ a => ((precFmt p).classify (low a (precFmt p).width), 0)

end Sys2Proof.Machine
end

