-- ==== Sys2Proof/Machine/Dispatch.lean ====
section
/-! DEFINITION. The dispatch: one arm per row of the opcode table, each a direct call of that row's meaning. -/

namespace Sys2Proof.Machine

/-- What one step of an instruction or an event does. -/
def exec (i : Instr) (s : State) : Host.Outcome State Fault Refusal :=
  match i with
  | .add w rd rs1 rs2 => Sys2Proof.Machine.execAdd w rd rs1 rs2 s
  | .sub w rd rs1 rs2 => Sys2Proof.Machine.execSub w rd rs1 rs2 s
  | .and w rd rs1 rs2 => Sys2Proof.Machine.execAnd w rd rs1 rs2 s
  | .or w rd rs1 rs2 => Sys2Proof.Machine.execOr w rd rs1 rs2 s
  | .xor w rd rs1 rs2 => Sys2Proof.Machine.execXor w rd rs1 rs2 s
  | .sll w rd rs1 rs2 => Sys2Proof.Machine.execSll w rd rs1 rs2 s
  | .srl w rd rs1 rs2 => Sys2Proof.Machine.execSrl w rd rs1 rs2 s
  | .sra w rd rs1 rs2 => Sys2Proof.Machine.execSra w rd rs1 rs2 s
  | .mul w rd rs1 rs2 => Sys2Proof.Machine.execMul w rd rs1 rs2 s
  | .mulh rd rs1 rs2 => Sys2Proof.Machine.execMulh rd rs1 rs2 s
  | .mulhu rd rs1 rs2 => Sys2Proof.Machine.execMulhu rd rs1 rs2 s
  | .div w rd rs1 rs2 => Sys2Proof.Machine.execDiv w rd rs1 rs2 s
  | .divu w rd rs1 rs2 => Sys2Proof.Machine.execDivu w rd rs1 rs2 s
  | .rem w rd rs1 rs2 => Sys2Proof.Machine.execRem w rd rs1 rs2 s
  | .remu w rd rs1 rs2 => Sys2Proof.Machine.execRemu w rd rs1 rs2 s
  | .min rd rs1 rs2 => Sys2Proof.Machine.execMin rd rs1 rs2 s
  | .max rd rs1 rs2 => Sys2Proof.Machine.execMax rd rs1 rs2 s
  | .minu rd rs1 rs2 => Sys2Proof.Machine.execMinu rd rs1 rs2 s
  | .maxu rd rs1 rs2 => Sys2Proof.Machine.execMaxu rd rs1 rs2 s
  | .slt rd rs1 rs2 => Sys2Proof.Machine.execSlt rd rs1 rs2 s
  | .sltu rd rs1 rs2 => Sys2Proof.Machine.execSltu rd rs1 rs2 s
  | .clz rd rs1 => Sys2Proof.Machine.execClz rd rs1 s
  | .ctz rd rs1 => Sys2Proof.Machine.execCtz rd rs1 s
  | .popc rd rs1 => Sys2Proof.Machine.execPopc rd rs1 s
  | .rol rd rs1 rs2 => Sys2Proof.Machine.execRol rd rs1 rs2 s
  | .ror rd rs1 rs2 => Sys2Proof.Machine.execRor rd rs1 rs2 s
  | .addi rd rs1 imm => Sys2Proof.Machine.execAddi rd rs1 imm s
  | .addiLit rd rs1 lit => Sys2Proof.Machine.execAddiLit rd rs1 lit s
  | .andi rd rs1 imm => Sys2Proof.Machine.execAndi rd rs1 imm s
  | .andiLit rd rs1 lit => Sys2Proof.Machine.execAndiLit rd rs1 lit s
  | .ori rd rs1 imm => Sys2Proof.Machine.execOri rd rs1 imm s
  | .oriLit rd rs1 lit => Sys2Proof.Machine.execOriLit rd rs1 lit s
  | .xori rd rs1 imm => Sys2Proof.Machine.execXori rd rs1 imm s
  | .xoriLit rd rs1 lit => Sys2Proof.Machine.execXoriLit rd rs1 lit s
  | .slti rd rs1 imm => Sys2Proof.Machine.execSlti rd rs1 imm s
  | .sltiLit rd rs1 lit => Sys2Proof.Machine.execSltiLit rd rs1 lit s
  | .sltiu rd rs1 imm => Sys2Proof.Machine.execSltiu rd rs1 imm s
  | .sltiuLit rd rs1 lit => Sys2Proof.Machine.execSltiuLit rd rs1 lit s
  | .addpc rd imm => Sys2Proof.Machine.execAddpc rd imm s
  | .addpcLit rd lit => Sys2Proof.Machine.execAddpcLit rd lit s
  | .slli rd rs1 sh => Sys2Proof.Machine.execSlli rd rs1 sh s
  | .srli rd rs1 sh => Sys2Proof.Machine.execSrli rd rs1 sh s
  | .srai rd rs1 sh => Sys2Proof.Machine.execSrai rd rs1 sh s
  | .ldi rd imm => Sys2Proof.Machine.execLdi rd imm s
  | .ldiLit rd lit => Sys2Proof.Machine.execLdiLit rd lit s
  | .roli rd rs1 sh => Sys2Proof.Machine.execRoli rd rs1 sh s
  | .fadd p rd rs1 rs2 => Sys2Proof.Machine.execFadd p rd rs1 rs2 s
  | .fsub p rd rs1 rs2 => Sys2Proof.Machine.execFsub p rd rs1 rs2 s
  | .fmul p rd rs1 rs2 => Sys2Proof.Machine.execFmul p rd rs1 rs2 s
  | .fdiv p rd rs1 rs2 => Sys2Proof.Machine.execFdiv p rd rs1 rs2 s
  | .fsqrt p rd rs1 => Sys2Proof.Machine.execFsqrt p rd rs1 s
  | .fmin p rd rs1 rs2 => Sys2Proof.Machine.execFmin p rd rs1 rs2 s
  | .fmax p rd rs1 rs2 => Sys2Proof.Machine.execFmax p rd rs1 rs2 s
  | .fma p rd rs1 rs2 => Sys2Proof.Machine.execFma p rd rs1 rs2 s
  | .fnma p rd rs1 rs2 => Sys2Proof.Machine.execFnma p rd rs1 rs2 s
  | .feq p rd rs1 rs2 => Sys2Proof.Machine.execFeq p rd rs1 rs2 s
  | .flt p rd rs1 rs2 => Sys2Proof.Machine.execFlt p rd rs1 rs2 s
  | .fle p rd rs1 rs2 => Sys2Proof.Machine.execFle p rd rs1 rs2 s
  | .ftole p rd rs1 rs2 => Sys2Proof.Machine.execFtole p rd rs1 rs2 s
  | .fcvti p c rd rs1 => Sys2Proof.Machine.execFcvti p c rd rs1 s
  | .icvtf p c rd rs1 => Sys2Proof.Machine.execIcvtf p c rd rs1 s
  | .fcvtf p src rd rs1 => Sys2Proof.Machine.execFcvtf p src rd rs1 s
  | .fclass p rd rs1 => Sys2Proof.Machine.execFclass p rd rs1 s
  | .ld sz rd rs1 imm => Sys2Proof.Machine.execLd sz rd rs1 imm s
  | .ldLit sz rd rs1 lit => Sys2Proof.Machine.execLdLit sz rd rs1 lit s
  | .st sz rs rs1 imm => Sys2Proof.Machine.execSt sz rs rs1 imm s
  | .stLit sz rs rs1 lit => Sys2Proof.Machine.execStLit sz rs rs1 lit s
  | .lda sc d rd rs1 => Sys2Proof.Machine.execLda sc d rd rs1 s
  | .stl sc d rs1 rs2 => Sys2Proof.Machine.execStl sc d rs1 rs2 s
  | .amoAdd sc o d rd rs1 rs2 => Sys2Proof.Machine.execAmoAdd sc o d rd rs1 rs2 s
  | .amoAnd sc o d rd rs1 rs2 => Sys2Proof.Machine.execAmoAnd sc o d rd rs1 rs2 s
  | .amoOr sc o d rd rs1 rs2 => Sys2Proof.Machine.execAmoOr sc o d rd rs1 rs2 s
  | .amoXor sc o d rd rs1 rs2 => Sys2Proof.Machine.execAmoXor sc o d rd rs1 rs2 s
  | .amoMin sc o d rd rs1 rs2 => Sys2Proof.Machine.execAmoMin sc o d rd rs1 rs2 s
  | .amoMax sc o d rd rs1 rs2 => Sys2Proof.Machine.execAmoMax sc o d rd rs1 rs2 s
  | .amoMinu sc o d rd rs1 rs2 => Sys2Proof.Machine.execAmoMinu sc o d rd rs1 rs2 s
  | .amoMaxu sc o d rd rs1 rs2 => Sys2Proof.Machine.execAmoMaxu sc o d rd rs1 rs2 s
  | .amoSwap sc o d rd rs1 rs2 => Sys2Proof.Machine.execAmoSwap sc o d rd rs1 rs2 s
  | .amoFadd32 sc o rd rs1 rs2 => Sys2Proof.Machine.execAmoFadd32 sc o rd rs1 rs2 s
  | .cas sc o d rd rs1 rs2 => Sys2Proof.Machine.execCas sc o d rd rs1 rs2 s
  | .br c rs1 rs2 off => Sys2Proof.Machine.execBr c rs1 rs2 off s
  | .brLit c rs1 rs2 lit => Sys2Proof.Machine.execBrLit c rs1 rs2 lit s
  | .j rd off => Sys2Proof.Machine.execJ rd off s
  | .jLit rd lit => Sys2Proof.Machine.execJLit rd lit s
  | .jr rd rs1 imm => Sys2Proof.Machine.execJr rd rs1 imm s
  | .jrLit rd rs1 lit => Sys2Proof.Machine.execJrLit rd rs1 lit s
  | .brq neg off => Sys2Proof.Machine.execBrq neg off s
  | .brqLit neg lit => Sys2Proof.Machine.execBrqLit neg lit s
  | .qsend q rs => Sys2Proof.Machine.execQsend q rs s
  | .qrecv rd q => Sys2Proof.Machine.execQrecv rd q s
  | .qsendb q rs => Sys2Proof.Machine.execQsendb q rs s
  | .qcnt rd q => Sys2Proof.Machine.execQcnt rd q s
  | .sysr rd reg => Sys2Proof.Machine.execSysr rd reg s
  | .sysw reg rs => Sys2Proof.Machine.execSysw reg rs s
  | .vtypeWrite rs => Sys2Proof.Machine.execVtypeWrite rs s
  | .vstartWrite rs => Sys2Proof.Machine.execVstartWrite rs s
  | .vfcntWrite rs => Sys2Proof.Machine.execVfcntWrite rs s
  | .vstatusWrite rs => Sys2Proof.Machine.execVstatusWrite rs s
  | .vstatusRead rd => Sys2Proof.Machine.execVstatusRead rd s
  | .vstartRead rd => Sys2Proof.Machine.execVstartRead rd s
  | .vfcntRead rd => Sys2Proof.Machine.execVfcntRead rd s
  | .frset n rs => Sys2Proof.Machine.execFrset n rs s
  | .tstatusWrite rs => Sys2Proof.Machine.execTstatusWrite rs s
  | .trap rs1 => Sys2Proof.Machine.execTrap rs1 s
  | .waitaEq sc tmo rd rs1 rs2 => Sys2Proof.Machine.execWaitaEq sc tmo rd rs1 rs2 s
  | .waitaNe sc tmo rd rs1 rs2 => Sys2Proof.Machine.execWaitaNe sc tmo rd rs1 rs2 s
  | .waitaGeu sc tmo rd rs1 rs2 => Sys2Proof.Machine.execWaitaGeu sc tmo rd rs1 rs2 s
  | .fence sc => Sys2Proof.Machine.execFence sc s
  | .vmfence rs1 => Sys2Proof.Machine.execVmfence rs1 s
  | .lnch rd rs1 => Sys2Proof.Machine.execLnch rd rs1 s
  | .enqCopy dev rd rs1 => Sys2Proof.Machine.execEnqCopy dev rd rs1 s
  | .enqNet dev rd rs1 => Sys2Proof.Machine.execEnqNet dev rd rs1 s
  | .deq try_ rd eng => Sys2Proof.Machine.execDeq try_ rd eng s
  | .cpw idx rs => Sys2Proof.Machine.execCpw idx rs s
  | .cpgo dev rd => Sys2Proof.Machine.execCpgo dev rd s
  | .cpcan rd rs1 => Sys2Proof.Machine.execCpcan rd rs1 s
  | .cpr rd idx => Sys2Proof.Machine.execCpr rd idx s
  | .coefld t rs => Sys2Proof.Machine.execCoefld t rs s
  | .platmk rd xh xidx xn xbase iw lsz => Sys2Proof.Machine.execPlatmk rd xh xidx xn xbase iw lsz s
  | .platg dev rd xh xdst xmark xval => Sys2Proof.Machine.execPlatg dev rd xh xdst xmark xval s
  | .plats dev op ty pl xpl rd xh xsrc xmark xval => Sys2Proof.Machine.execPlats dev op ty pl xpl rd xh xsrc xmark xval s
  | .platco rd xc xa xb => Sys2Proof.Machine.execPlatco rd xc xa xb s
  | .platck rd xh => Sys2Proof.Machine.execPlatck rd xh s
  | .platrl xh => Sys2Proof.Machine.execPlatrl xh s
  | .setl rd rs1 rs2 vt => Sys2Proof.Machine.execSetl rd rs1 rs2 vt s
  | .vpf od vs1 => Sys2Proof.Machine.execVpf od vs1 s
  | .vpfExt od vs1 => Sys2Proof.Machine.execVpfExt od vs1 s
  | .vld vd m => Sys2Proof.Machine.execVld vd m s
  | .vlds vd m => Sys2Proof.Machine.execVlds vd m s
  | .vst vs1 m => Sys2Proof.Machine.execVst vs1 m s
  | .vsts vs1 m => Sys2Proof.Machine.execVsts vs1 m s
  | .vld2d vd m => Sys2Proof.Machine.execVld2d vd m s
  | .vst2d vs1 m => Sys2Proof.Machine.execVst2d vs1 m s
  | .vldp vd m => Sys2Proof.Machine.execVldp vd m s
  | .vstp vs1 m rnd op => Sys2Proof.Machine.execVstp vs1 m rnd op s
  | .vadd o => Sys2Proof.Machine.execVadd o s
  | .vaddExt o x => Sys2Proof.Machine.execVaddExt o x s
  | .vsub o => Sys2Proof.Machine.execVsub o s
  | .vsubExt o x => Sys2Proof.Machine.execVsubExt o x s
  | .vmul o => Sys2Proof.Machine.execVmul o s
  | .vmulExt o x => Sys2Proof.Machine.execVmulExt o x s
  | .vmulh o => Sys2Proof.Machine.execVmulh o s
  | .vmulhExt o x => Sys2Proof.Machine.execVmulhExt o x s
  | .vand o => Sys2Proof.Machine.execVand o s
  | .vandExt o x => Sys2Proof.Machine.execVandExt o x s
  | .vor o => Sys2Proof.Machine.execVor o s
  | .vorExt o x => Sys2Proof.Machine.execVorExt o x s
  | .vxor o => Sys2Proof.Machine.execVxor o s
  | .vxorExt o x => Sys2Proof.Machine.execVxorExt o x s
  | .vmin o => Sys2Proof.Machine.execVmin o s
  | .vminExt o x => Sys2Proof.Machine.execVminExt o x s
  | .vmax o => Sys2Proof.Machine.execVmax o s
  | .vmaxExt o x => Sys2Proof.Machine.execVmaxExt o x s
  | .vsll o => Sys2Proof.Machine.execVsll o s
  | .vsllExt o x => Sys2Proof.Machine.execVsllExt o x s
  | .vsrl o => Sys2Proof.Machine.execVsrl o s
  | .vsrlExt o x => Sys2Proof.Machine.execVsrlExt o x s
  | .vsra o => Sys2Proof.Machine.execVsra o s
  | .vsraExt o x => Sys2Proof.Machine.execVsraExt o x s
  | .vadds o => Sys2Proof.Machine.execVadds o s
  | .vaddsExt o x => Sys2Proof.Machine.execVaddsExt o x s
  | .vsubs o => Sys2Proof.Machine.execVsubs o s
  | .vsubsExt o x => Sys2Proof.Machine.execVsubsExt o x s
  | .vmac o => Sys2Proof.Machine.execVmac o s
  | .vmacExt o x => Sys2Proof.Machine.execVmacExt o x s
  | .vabsd o => Sys2Proof.Machine.execVabsd o s
  | .vabsdExt o x => Sys2Proof.Machine.execVabsdExt o x s
  | .vfadd o => Sys2Proof.Machine.execVfadd o s
  | .vfaddExt o x => Sys2Proof.Machine.execVfaddExt o x s
  | .vfsub o => Sys2Proof.Machine.execVfsub o s
  | .vfsubExt o x => Sys2Proof.Machine.execVfsubExt o x s
  | .vfmul o => Sys2Proof.Machine.execVfmul o s
  | .vfmulExt o x => Sys2Proof.Machine.execVfmulExt o x s
  | .vfma o x => Sys2Proof.Machine.execVfma o x s
  | .vfdiv o => Sys2Proof.Machine.execVfdiv o s
  | .vfdivExt o x => Sys2Proof.Machine.execVfdivExt o x s
  | .vfsqrt o => Sys2Proof.Machine.execVfsqrt o s
  | .vfsqrtExt o x => Sys2Proof.Machine.execVfsqrtExt o x s
  | .vfmin o => Sys2Proof.Machine.execVfmin o s
  | .vfminExt o x => Sys2Proof.Machine.execVfminExt o x s
  | .vfmax o => Sys2Proof.Machine.execVfmax o s
  | .vfmaxExt o x => Sys2Proof.Machine.execVfmaxExt o x s
  | .vfsgn o => Sys2Proof.Machine.execVfsgn o s
  | .vfsgnExt o x => Sys2Proof.Machine.execVfsgnExt o x s
  | .vfscl o => Sys2Proof.Machine.execVfscl o s
  | .vfsclExt o x => Sys2Proof.Machine.execVfsclExt o x s
  | .vfcls o => Sys2Proof.Machine.execVfcls o s
  | .vfclsExt o x => Sys2Proof.Machine.execVfclsExt o x s
  | .vpoly o => Sys2Proof.Machine.execVpoly o s
  | .vpolyExt o x => Sys2Proof.Machine.execVpolyExt o x s
  | .vtwos o => Sys2Proof.Machine.execVtwos o s
  | .vtwosExt o x => Sys2Proof.Machine.execVtwosExt o x s
  | .vcmp o => Sys2Proof.Machine.execVcmp o s
  | .vcmpExt o x => Sys2Proof.Machine.execVcmpExt o x s
  | .vfcmp o => Sys2Proof.Machine.execVfcmp o s
  | .vfcmpExt o x => Sys2Proof.Machine.execVfcmpExt o x s
  | .plog o => Sys2Proof.Machine.execPlog o s
  | .plogExt o x => Sys2Proof.Machine.execPlogExt o x s
  | .pset o x => Sys2Proof.Machine.execPset o x s
  | .pcnt o x => Sys2Proof.Machine.execPcnt o x s
  | .pfirst o x => Sys2Proof.Machine.execPfirst o x s
  | .vsel o => Sys2Proof.Machine.execVsel o s
  | .vselExt o x => Sys2Proof.Machine.execVselExt o x s
  | .vcvt o => Sys2Proof.Machine.execVcvt o s
  | .vcvtExt o x => Sys2Proof.Machine.execVcvtExt o x s
  | .qnt o x => Sys2Proof.Machine.execQnt o x s
  | .qnte o x => Sys2Proof.Machine.execQnte o x s
  | .dqnt o x => Sys2Proof.Machine.execDqnt o x s
  | .vmv o => Sys2Proof.Machine.execVmv o s
  | .vmvExt o x => Sys2Proof.Machine.execVmvExt o x s
  | .vbcast o x => Sys2Proof.Machine.execVbcast o x s
  | .vext o x => Sys2Proof.Machine.execVext o x s
  | .vins o x => Sys2Proof.Machine.execVins o x s
  | .vslup o x => Sys2Proof.Machine.execVslup o x s
  | .vsldn o x => Sys2Proof.Machine.execVsldn o x s
  | .vperm o => Sys2Proof.Machine.execVperm o s
  | .vpermExt o x => Sys2Proof.Machine.execVpermExt o x s
  | .vtrn o => Sys2Proof.Machine.execVtrn o s
  | .vtrnExt o x => Sys2Proof.Machine.execVtrnExt o x s
  | .vredsum o => Sys2Proof.Machine.execVredsum o s
  | .vredsumExt o x => Sys2Proof.Machine.execVredsumExt o x s
  | .vredmax o => Sys2Proof.Machine.execVredmax o s
  | .vredmaxExt o x => Sys2Proof.Machine.execVredmaxExt o x s
  | .vredmin o => Sys2Proof.Machine.execVredmin o s
  | .vredminExt o x => Sys2Proof.Machine.execVredminExt o x s
  | .vredcs o => Sys2Proof.Machine.execVredcs o s
  | .vredcsExt o x => Sys2Proof.Machine.execVredcsExt o x s
  | .vscan o x => Sys2Proof.Machine.execVscan o x s
  | .vcomp o => Sys2Proof.Machine.execVcomp o s
  | .vcompExt o x => Sys2Proof.Machine.execVcompExt o x s
  | .vdig o x => Sys2Proof.Machine.execVdig o x s
  | .mma o x => Sys2Proof.Machine.execMma o x s
  | .bld o x => Sys2Proof.Machine.execBld o x s
  | .azero o x => Sys2Proof.Machine.execAzero o x s
  | .ard o x => Sys2Proof.Machine.execArd o x s
  | .awr o x => Sys2Proof.Machine.execAwr o x s
  | .eptk o x => Sys2Proof.Machine.execEptk o x s
  | .bslotPin slot => Sys2Proof.Machine.execBslotPin slot s
  | .bslotUnpin slot => Sys2Proof.Machine.execBslotUnpin slot s
  | .bslotRelease slot => Sys2Proof.Machine.execBslotRelease slot s
  | .bslotQuery rd slot => Sys2Proof.Machine.execBslotQuery rd slot s
  | .rmbind rd rs1 m => Sys2Proof.Machine.execRmbind rd rs1 m s
  | .rmbindUnbind m => Sys2Proof.Machine.execRmbindUnbind m s
  | .rmfire vX m => Sys2Proof.Machine.execRmfire vX m s
  | .rmmul ad aT aJ vX m row0 => Sys2Proof.Machine.execRmmul ad aT aJ vX m row0 s
  | .rmjoin aT aJ => Sys2Proof.Machine.execRmjoin aT aJ s
  | .rmmig rd m => Sys2Proof.Machine.execRmmig rd m s
  | .rmage m => Sys2Proof.Machine.execRmage m s
  | .rmqry rd m => Sys2Proof.Machine.execRmqry rd m s
  | .sphdr full rd rs1 => Sys2Proof.Machine.execSphdr full rd rs1 s
  | .spcnt kz rd rs1 rs2 xs xs2 => Sys2Proof.Machine.execSpcnt kz rd rs1 rs2 xs xs2 s
  | .spmrg kz rd rs1 rs2 xs xs2 => Sys2Proof.Machine.execSpmrg kz rd rs1 rs2 xs xs2 s
  | .nop => Sys2Proof.Machine.execNop s
  | .tret => Sys2Proof.Machine.execTret s
  | .exit => Sys2Proof.Machine.execExit s
  | .bar => Sys2Proof.Machine.execBar s
  | .vfence => Sys2Proof.Machine.execVfence s
  | .ifence => Sys2Proof.Machine.execIfence s
  | .aspaceWrite st v => Sys2Proof.Machine.execAspaceWrite st v s
  | .vlcapWrite st v => Sys2Proof.Machine.execVlcapWrite st v s
  | .pwrlimWrite v => Sys2Proof.Machine.execPwrlimWrite v s
  | .stkrefWrite n v => Sys2Proof.Machine.execStkrefWrite n v s
  | .stkeccWrite n v => Sys2Proof.Machine.execStkeccWrite n v s
  | .waitaWake st k => Sys2Proof.Machine.execWaitaWake st k s
  | .waitaTimeout st k => Sys2Proof.Machine.execWaitaTimeout st k s
  | .copyStart => Sys2Proof.Machine.execCopyStart s
  | .copyComplete ch => Sys2Proof.Machine.execCopyComplete ch s
  | .copyFault ch => Sys2Proof.Machine.execCopyFault ch s
  | .engineFaultTrap st => Sys2Proof.Machine.execEngineFaultTrap st s
  | .platOpStart => Sys2Proof.Machine.execPlatOpStart s
  | .platGatherComplete slot reach => Sys2Proof.Machine.execPlatGatherComplete slot reach s
  | .platScatterComplete slot reach => Sys2Proof.Machine.execPlatScatterComplete slot reach s
  | .viqCommit st => Sys2Proof.Machine.execViqCommit st s
  | .wcbDrain => Sys2Proof.Machine.execWcbDrain s
  | .matrixEngineTurn => Sys2Proof.Machine.execMatrixEngineTurn s
  | .mmaAccumulate => Sys2Proof.Machine.execMmaAccumulate s
  | .deepPartArrival st aJ => Sys2Proof.Machine.execDeepPartArrival st aJ s
  | .preemptRequest => Sys2Proof.Machine.execPreemptRequest s
  | .quantumExpiry launch => Sys2Proof.Machine.execQuantumExpiry launch s
  | .strandResume st => Sys2Proof.Machine.execStrandResume st s
  | .matrixStateSave => Sys2Proof.Machine.execMatrixStateSave s
  | .budgetExhausted st => Sys2Proof.Machine.execBudgetExhausted st s
  | .taskRerun st => Sys2Proof.Machine.execTaskRerun st s
  | .supervisorRetry st entries => Sys2Proof.Machine.execSupervisorRetry st entries s
  | .supervisorForward st => Sys2Proof.Machine.execSupervisorForward st s
  | .supervisorKill st => Sys2Proof.Machine.execSupervisorKill st s
  | .teamDispatch launch team strands base => Sys2Proof.Machine.execTeamDispatch launch team strands base s
  | .preload => Sys2Proof.Machine.execPreload s
  | .teamRetire launch team => Sys2Proof.Machine.execTeamRetire launch team s
  | .waveFence launch => Sys2Proof.Machine.execWaveFence launch s
  | .launchComplete launch => Sys2Proof.Machine.execLaunchComplete launch s
  | .coalesceWindowExpiry endpoint cls => Sys2Proof.Machine.execCoalesceWindowExpiry endpoint cls s
  | .netComplete st slot ok data => Sys2Proof.Machine.execNetComplete st slot ok data s
  | .stackCriticalTemp n => Sys2Proof.Machine.execStackCriticalTemp n s
  | .criticalTempDeassert n => Sys2Proof.Machine.execCriticalTempDeassert n s
  | .selfRefreshExit n => Sys2Proof.Machine.execSelfRefreshExit n s
  | .stackHoldEvent n => Sys2Proof.Machine.execStackHoldEvent n s
  | .stackRetire n => Sys2Proof.Machine.execStackRetire n s
  | .generatorReseed n => Sys2Proof.Machine.execGeneratorReseed n s
  | .deviceReset => Sys2Proof.Machine.execDeviceReset s
  | .readinessChange ix code => Sys2Proof.Machine.execReadinessChange ix code s
  | .sessionOpen r versions asid => Sys2Proof.Machine.execSessionOpen r versions asid s
  | .launchSubmit r hdr poison => Sys2Proof.Machine.execLaunchSubmit r hdr poison s
  | .endpointReg r endpoint windows => Sys2Proof.Machine.execEndpointReg r endpoint windows s
  | .windowReg r q => Sys2Proof.Machine.execWindowReg r q s
  | .readinessQuery r => Sys2Proof.Machine.execReadinessQuery r s
  | .spdm r q => Sys2Proof.Machine.execSpdm r q s
  | .fwUpdate r chunk last => Sys2Proof.Machine.execFwUpdate r chunk last s
  | .spaceSet r q => Sys2Proof.Machine.execSpaceSet r q s
  | .vmapSet r hdr entries => Sys2Proof.Machine.execVmapSet r hdr entries s
  | .uetWrite asid va data => Sys2Proof.Machine.execUetWrite asid va data s
  | .uetRead asid va n => Sys2Proof.Machine.execUetRead asid va n s
  | .uetAtomic asid op d va v cmp => Sys2Proof.Machine.execUetAtomic asid op d va v cmp s
  | .inboundUudDrop => Sys2Proof.Machine.execInboundUudDrop s
  | .resolveVmapAbsent ch entry => Sys2Proof.Machine.execResolveVmapAbsent ch entry s
  | .connectionSetup q => Sys2Proof.Machine.execConnectionSetup q s
  | .unknownKind r kind => Sys2Proof.Machine.execUnknownKind r kind s

end Sys2Proof.Machine
end

