-- ==== Sys2Proof/Machine/Turn.lean ====
section
/-! DEFINITION. The turns of the machine: one instruction of a stream (R69), the plain loads and stores that perform later (R297), the events
of the part and of the outside with the functions that they need to be usable (R366), and the requests of a session in their order (R361). -/

namespace Sys2Proof.Machine

/-! ### Accesses that a stream has left behind (R297; log 100) -/

/-- Two PAs in one doubleword. Aligned scalar accesses meet only there. -/
def sameDouble (a b : Nat) : Bool := a / 8 == b / 8

/-- An access that a stream has left behind performs: a store as a store of its stream, a load with the bytes that its stream sees now. -/
def State.performPosted (s : State) (p : Posted) : State :=
  match p with
  | .store st k pa bs => s.scalarStore st k pa bs
  | .load st k n sgn pa rd _ => s.writeX st k rd (extend sgn n (s.view (some (st, k)) (s.slotKey (s.acc st).key) pa n))

/-- The accesses that some streams have left behind perform, in their order. -/
def State.land (s : State) (sel : Posted → Bool) : State :=
  (s.posted.filter sel).foldl State.performPosted { s with posted := s.posted.filter fun p => !sel p }

/-- The accesses that the streams of a strand have left behind perform. -/
def State.landStrand (s : State) (st : Fin 4) : State := s.land fun p => p.strand == st

/-- Every access left behind performs. -/
def State.landAll (s : State) : State := s.land fun _ => true

/-- One access that a stream has left behind performs. -/
def State.post (s : State) (ix : Nat) : State :=
  match s.posted[ix]? with
  | some p => ({ s with posted := s.posted.eraseIdx ix }).performPosted p
  | none => s

/-- What a stream has left behind. -/
def State.postedBy (s : State) (st : Fin 4) (k : StreamId) : List Posted := s.posted.filter fun p => p.strand == st && p.stream == k

/-- The register that an access left behind will write. -/
def Posted.dest (p : Posted) : Option Reg :=
  match p with
  | .load _ _ _ _ _ rd _ => if rd == 0 then none else some rd
  | .store .. => none

/-- Whether an instruction is one that leaves earlier accesses of its stream unordered (R297, R301): scalar arithmetic, plain loads and stores,
atomics that do not release, branches, a receive, a queue count, `NOP`, `WAITA`. -/
def laxWord (w0 : W32) : Bool :=
  let maj := (fieldMaj w0).toNat
  let f := (fieldFunc w0).toNat
  (1 ≤ maj && maj ≤ 6) || (maj == 7 && f % 16 != 1 && !w0.getLsbD 29) || (8 ≤ maj && maj ≤ 10) || (maj == 0x0B && (f == 1 || f == 3))
    || (maj == 0x0D && (f == 0 || (5 ≤ f && f ≤ 7)))

/-- The VA that a lax instruction reads or writes, if it accesses memory. -/
def State.accessVa (s : State) (st : Fin 4) (k : StreamId) (i : Instr) : Option W64 :=
  match i with
  | .ld _ _ rs1 imm | .st _ _ rs1 imm => some (s.readX st k rs1 + imm.signExtend 64)
  | .ldLit _ _ rs1 lit | .stLit _ _ rs1 lit => some (s.readX st k rs1 + lit)
  | _ =>
    let maj := (fieldMaj s.w0).toNat
    if maj == 7 || maj == 0x0D then some (s.readX st k (fieldRs1 s.w0)) else none

/-- Whether an instruction depends on what its stream has left behind: on a register that a load will write, or on the bytes of an access,
which keep program order (R118, R297). -/
def State.depends (s : State) (st : Fin 4) (k : StreamId) (i : Instr) : Bool :=
  let ps := s.postedBy st k
  let regs := ps.filterMap Posted.dest
  (regs.any fun r => r == fieldRd s.w0 || r == fieldRs1 s.w0 || r == fieldRs2 s.w0)
    || match s.accessVa st k i with
      | none => false
      | some va =>
        match s.scaXlate st k va .load with
        | .error _ => true
        | .ok pa => ps.any fun p => sameDouble p.pa pa

/-- Whether an answer is a next state in which a stream has retired one more instruction than before. -/
def retired (s : State) (st : Fin 4) (k : StreamId) (o : Out) : Bool :=
  match o with
  | .next t => (t.stream st k).instret == (s.stream st k).instret + 1
  | .fault _ | .refused _ => false

/-- Whether an instruction goes ahead of what its strand has left behind: it orders nothing, depends on nothing of it, and retires. -/
def State.passes (s : State) (st : Fin 4) (k : StreamId) (i : Instr) : Bool :=
  laxWord s.w0 && !s.depends st k i && retired s st k (exec i s)

/-- Whether what a stream does reaches its partner: it stops or ends the partner stream, halts the strand, or enters a handler. -/
def State.disturbs (s t : State) (st : Fin 4) (k : StreamId) : Bool :=
  let x := s.strand st
  let y := t.strand st
  x.stream k.other != y.stream k.other || x.halt != y.halt || x.tstatus != y.tstatus || x.task != y.task

/-- The state in which a stream does something: with what it has left behind performed, and with what its partner has left behind where that is
reached too. The streams of a strand share no program order (R298). -/
def State.landFor (s : State) (st : Fin 4) (k : StreamId) (run : State → Out) : State :=
  let own := s.land fun p => p.strand == st && p.stream == k
  if s.posted.isEmpty then s
  else
    match run own with
    | .next t => if own.disturbs t st k then s.landStrand st else own
    | .fault _ | .refused _ => own

/-- The state in which a stream's instruction executes: with what the stream has left behind performed, unless it goes ahead of that. -/
def State.ready (s : State) (st : Fin 4) (k : StreamId) (i : Instr) : State :=
  if s.posted.isEmpty || s.passes st k i then s else s.landFor st k (exec i)

/-- Whether an instruction accesses memory through the scalar port. -/
def accesses (w0 : W32) : Bool :=
  let maj := (fieldMaj w0).toNat
  (5 ≤ maj && maj ≤ 7) || (maj == 0x0D && 5 ≤ (fieldFunc w0).toNat && (fieldFunc w0).toNat ≤ 7)

/-- The access that a plain load or store leaves behind where nothing stops it: it is aligned and translated, touches no held stack, an entry
for it is free (R18), and the load meets no poison. Stores of D-mode are held instead (R304). -/
def State.plain (s : State) (st : Fin 4) (k : StreamId) (i : Instr) : Option Posted :=
  let at_ := fun (n : Nat) (need : Need) => (s.accessVa st k i).bind fun va =>
    if va.toNat % n != 0 then none
    else (s.scaXlate st k va need).toOption.bind fun pa => if s.heldAt pa then none else some (va, pa)
  let load := fun (z : LdSize) (rd : Reg) =>
    (at_ (LdSize.bytes z) .load).bind fun a =>
      if s.anyPoison st k a.2 (LdSize.bytes z) then none else some (Posted.load st k (LdSize.bytes z) (LdSize.isSigned z) a.2 rd a.1)
  let store := fun (z : StSize) (rs : Reg) =>
    (at_ (StSize.bytes z) .store).map fun a => Posted.store st k a.2 (leBytes (StSize.bytes z) (s.readX st k rs).toNat)
  if (s.strand st).det || s.memBusy st k || s.noEntry || s.depends st k i then none
  else
    match i with
    | .ld z rd _ _ | .ldLit z rd _ _ => load z rd
    | .st z rs _ _ | .stLit z rs _ _ => store z rs
    | _ => none

/-! ### One instruction of a stream -/

/-- Whether the instruction that a stream executes needs an entry for a memory request while none is free (R18): it waits until an access that is on
its way has performed. -/
def State.entryWait (s : State) : Bool := accesses s.w0 && s.noEntry

/-- The state in which a stream executes an instruction of the given words. -/
def State.executing (s : State) (st : Fin 4) (k : StreamId) (ws : List W32) : State :=
  { s with cur := { agent := .stream st k, words := ws } }

/-- What a stream does with the instruction that it has fetched; `lazy` says that a plain load or store of it may perform later. -/
def runInstr (s : State) (st : Fin 4) (k : StreamId) (lazy_ : Bool) (i : Instr) : Out :=
  match if lazy_ then s.plain st k i else none with
  | some p => .next (({ s with posted := s.posted ++ [p] }).retire st k)
  | none => if s.entryWait then .next s.landAll else exec i (s.ready st k i)

/-- A stream at an access that has come back poisoned traps there (R103). -/
def State.trapDue (s : State) (st : Fin 4) (k : StreamId) : Option State :=
  match (s.stream st k).status with
  | .poisonDue va => some ((s.landStrand st).trap st k cPoison va)
  | .run | .queue .. | .asleep _ | .stackWait .. | .waitRead .. | .copyWait | .platWait | .hold | .ended | .absent => none

/-- One instruction of a stream (R69): fetch, decode, execute. -/
noncomputable def streamTurn (s : State) (st : Fin 4) (k : StreamId) (lazy_ : Bool) : Out :=
  if !s.runnable st k then .next s
  else
    match s.trapDue st k with
    | some t => .next t
    | none =>
      match s.fetch st k with
      | .blocked va pa => .next (s.keepWork [pa] (s.strand st).task (.fetch st k va pa))
      | .fault f => .next (((s.landStrand st).executing st k []).fault st k f)
      | .words ws =>
        let u := s.executing st k ws
        match decode ws with
        | .ok i => runInstr u st k lazy_ i
        | .error (.code sub) => .next ((u.landStrand st).illegal st k sub)
        | .error .engine => .next ((u.landStrand st).illegal st k (if k == .E then 0x05 else 0x11))
        | .error .short => .next s

/-- A pre-emption that halts a strand (R320, R345): by the launch whose quantum has passed and whose victim's teams it belongs to, else by
a request. -/
def State.preemptNow (s : State) (st : Fin 4) : State :=
  let mine := fun (t : Team) => (s.strand st).task.any fun u => t.holds u
  nextOr s <|
    match s.launches.find? fun l => s.waitedQuantum l && (s.victim l).any fun t => (s.displaced t).any mine with
    | some l => execQuantumExpiry l.id s
    | none => execPreemptRequest s

/-- A pre-emption reaches a stream between the lines of a SPCNT or SPMRG (R263): the first lines, which have passed every check, are
written, and the strand halts before the instruction (log 138). -/
noncomputable def linesTurn (s : State) (st : Fin 4) (k : StreamId) (n : Nat) : State :=
  if !s.runnable st k then s
  else
    match s.fetch st k with
    | .words ws =>
      match decode ws with
      | .ok i =>
        match ((s.landStrand st).executing st k ws).spLinesPart st k n i with
        | some u => u.landAll.preemptNow st
        | none => s
      | .error _ => s
    | .blocked .. | .fault _ => s

/-! ### Events -/

/-- Whether RCP frames reach the part: a port and a supervisor are usable, and a connection carries them (R358, R359, R366). -/
def State.rcpUp (s : State) : Bool := s.portUp && s.supervisorUp && s.conns.any ConnReq.carriesRcp

/-- The session of a request, and none for another event. -/
def Instr.session (i : Instr) : Option Nat :=
  match i with
  | .sessionOpen r .. | .launchSubmit r .. | .endpointReg r .. | .windowReg r .. | .readinessQuery r | .spdm r .. | .fwUpdate r ..
  | .spaceSet r .. | .vmapSet r .. | .unknownKind r .. => some r.session
  | _ => none

/-- Whether the functions that an event needs are usable (R366): the network's ports with a connection for the operation (R358), the scheduler for what it
places, resumes, fences and completes, a supervisor for what it does. Events of the part itself need none. A frame of UNKNOWN_KIND is of no kind that R361
lists. -/
def State.usable (s : State) (i : Instr) : Bool :=
  match i with
  | .launchSubmit .. => s.rcpUp && s.schedulerUp
  | .unknownKind _ kind => s.rcpUp && !(1 ≤ kind.toNat && kind.toNat ≤ 9)
  | .sessionOpen .. | .endpointReg .. | .windowReg .. | .readinessQuery _ | .spdm .. | .fwUpdate .. | .spaceSet .. | .vmapSet .. => s.rcpUp
  | .uetWrite .. => s.portUp && s.connOp 1
  | .uetRead .. => s.portUp && s.connOp 2
  | .uetAtomic .. => s.portUp && s.connOp 3
  | .connectionSetup _ | .inboundUudDrop => s.portUp
  | .netComplete _ _ ok _ => !ok || s.portUp
  | .teamDispatch .. | .teamRetire .. | .waveFence _ | .launchComplete _ | .quantumExpiry _ | .preemptRequest | .strandResume _ | .taskRerun _
  | .budgetExhausted _ | .preload | .coalesceWindowExpiry .. => s.schedulerUp
  | .supervisorRetry .. | .supervisorForward _ | .supervisorKill _ | .resolveVmapAbsent .. | .aspaceWrite .. | .vlcapWrite .. | .pwrlimWrite _
  | .stkrefWrite .. | .stkeccWrite .. | .stackRetire _ => s.supervisorUp
  | _ => true

/-- Whether an event takes place now; that of a session's request is its arrival: a request whose functions are not usable yet is kept (R361). -/
def State.arrives (s : State) (i : Instr) : Bool :=
  match i with
  | .launchSubmit .. => s.rcpUp
  | _ => s.usable i

/-- Whether a request has been served: the part has answered it or dropped its frame (R359, R360). -/
def served (s t : State) : Bool := s.sent.length != t.sent.length || s.dropped != t.dropped

/-- A request of a session (R361): it waits behind those of its session that wait, and one that must wait is kept. -/
def requestTurn (s : State) (id : Nat) (i : Instr) : Out :=
  let kept : Out := .next { s with rcpQ := s.rcpQ ++ [(id, i)] }
  if (s.rcpQ.any fun e => e.1 == id) || !s.usable i then kept
  else
    match exec i s with
    | .next t => if served s t then .next t else kept
    | r => r

/-- The first request of a session that waits is tried again (R361). -/
def rcpTurn (s : State) (id : Nat) : Out :=
  match s.rcpQ.find? fun e => e.1 == id with
  | none => .next s
  | some e =>
    if !s.usable e.2 then .next s
    else
      match exec e.2 s with
      | .next t => .next (if served s t then { t with rcpQ := t.rcpQ.erase e } else t)
      | r => r

/-- An event takes place, if it can. An instruction that a stream fetches is no event. -/
def eventTurn (s : State) (i : Instr) : Out :=
  if !i.isEvent || !s.arrives i then .next s
  else
    match Instr.session i with
    | some id => requestTurn s id i
    | none => exec i s

/-- An act of a supervisor, where one is usable (R366). -/
def State.bySupervisor (s : State) (f : State → State) : State := if s.supervisorUp then f s else s

/-- The state in which a turn takes place: an event or an act from outside comes after what the streams have left behind, but for the turns
of the streams themselves and of their strands' own units, which come after what their own stream has left behind. -/
def State.before (s : State) (t : Turn) : State :=
  match t with
  | .stream .. | .lazy .. | .post _ | .tlbFill .. | .wordFill .. | .lines .. | .event .wcbDrain => s
  | .event (.viqCommit st) => s.landFor st .E (exec (.viqCommit st))
  | .event (.waitaWake st k) => s.landFor st k (exec (.waitaWake st k))
  | .elems st n => s.landFor st .E fun u => .next (u.elemsPart st n)
  | .core _ | .ksteps _ | .event _ | .rcp _ | .netPart .. | .activate _ | .vmfence _ | .remote .. | .ecc .. | .leafEdit .. | .quantum _ => s.landAll

/-- One turn. -/
noncomputable def takeTurn (s0 : State) (t : Turn) : Out :=
  let s := s0.before t
  match t with
  | .core n => .next (s.switchCore n.val)
  | .stream st k => streamTurn s st k false
  | .lazy st k => streamTurn s st k true
  | .post ix => .next (s.post ix)
  | .elems st n => .next (s.elemsPart st n)
  | .ksteps n => .next (s.kStep n)
  | .lines st k n => .next (if s.schedulerUp then linesTurn s st k n else s)
  | .event i => eventTurn s i
  | .rcp id => rcpTurn s id
  | .netPart st slot data => .next (if s.portUp then s.netLand st slot data else s)
  | .tlbFill st k va => .next (s.fillTlb st k va)
  | .wordFill st k va => .next (s.fillWord st k va)
  | .activate n => .next (s.activate n)
  | .vmfence v =>
    if s.supervisorUp then exec (.vmfence 0) { s with cur := { agent := .supervisor v, words := (encode (.vmfence 0)).getD [] } } else .next s
  | .remote pa bs => .next (s.logLeaves (s.remoteWrite pa bs) ((List.range bs.length).map fun i => pa + i))
  | .ecc site corrected => .next (s.eccError site corrected)
  | .leafEdit asid pa pte => .next (s.bySupervisor fun u => u.editLeaf asid pa pte)
  | .quantum us => .next (s.bySupervisor fun u => u.setQuantum us)

end Sys2Proof.Machine
end

