-- ==== Sys2Proof/Machine/Sched.lean ====
section
/-! DEFINITION. Whose turn is next when the agenda is empty (log 4): the stream that R322 picks, and in turn with it the units, the engines and
the scheduler in rotation by the step count, those of the strands by rank; and the cores in rotation. -/

namespace Sys2Proof.Machine

/-- The n-th permutation of a list in lexicographic order (R322). -/
def permAt : Nat → Nat → List (Fin 4) → List (Fin 4)
  | 0, _, _ => []
  | f + 1, n, xs =>
    match xs with
    | [] => []
    | x :: _ =>
      let m := (List.range (xs.length - 1)).foldl (fun a i => a * (i + 1)) 1
      let y := xs.getD (n / m % xs.length) x
      y :: permAt f (n % m) (xs.filter fun z => z != y)

/-- The strands of the core by rank, highest first (R322). -/
def State.ranked (s : State) : List (Fin 4) := permAt 4 (fld s.seed 0 5 % 24) [0, 1, 2, 3]

/-- A stream placed by the age of its fetch, behind those not younger. -/
def State.insertAge (s : State) (p : Fin 4 × StreamId) : List (Fin 4 × StreamId) → List (Fin 4 × StreamId)
  | [] => [p]
  | q :: qs =>
    if (s.stream p.1 p.2).age < (s.stream q.1 q.2).age then p :: q :: qs else q :: s.insertAge p qs

/-- The streams that may execute: the oldest fetch first, then by rank, an E-stream before the A-stream of its strand (R322). -/
def State.streamTurns (s : State) : List (Fin 4 × StreamId) :=
  ((s.ranked.flatMap fun st => [(st, StreamId.E), (st, StreamId.A)]).filter fun p => s.runnable p.1 p.2).foldl
    (fun acc p => s.insertAge p acc) []

/-- Whether a stream's next instruction changes anything of its strand: one that must wait is not ready. -/
noncomputable def State.moves (s : State) (p : Fin 4 × StreamId) : Bool :=
  match streamTurn s p.1 p.2 false with
  | .next t => t.strand p.1 != s.strand p.1
  | .fault _ | .refused _ => true

/-- The stream that the issue arbiter picks: the first that is ready (R322). -/
noncomputable def State.picked (s : State) : Option (Fin 4 × StreamId) := s.streamTurns.find? s.moves

/-- The event of the first matrix queue entry (R218). -/
noncomputable def matTurn (e : MatEntry) : Turn :=
  match e.ent.form with
  | .vec 0x1B 0 _ _ _ => .event .mmaAccumulate
  | _ => .event .matrixEngineTurn

/-- The events of a strand's own units that may take place. -/
noncomputable def State.strandTurns (s : State) (st : Fin 4) : List Turn :=
  let x := s.strand st
  (if x.pendFault.isEmpty then [] else [.event (.engineFaultTrap st)])
    ++ (match x.a.status with | .asleep _ => [.event (.waitaWake st .A)] | _ => [])
    ++ (match x.e.status with | .asleep _ => [.event (.waitaWake st .E)] | _ => [])
    ++ (x.net.filterMap fun n => if n.op == 2 then none else some (.event (.netComplete st n.slot true [])))
    ++ (match x.halt with
        | .none => []
        | .preempted => [.event (.strandResume st)]
        | .rerun => [.event (.taskRerun st)]
        | .supervisor _ _ _ _ _ => [.event (.supervisorForward st), .event (.supervisorKill st)])

/-- The events of the core's engines that may take place. -/
noncomputable def State.engineTurns (s : State) : List Turn :=
  (if s.wcb.isEmpty then [] else [.event .wcbDrain])
    ++ (match s.mat.mq with | e :: _ => [matTurn e] | [] => if s.reclaim.isSome then [.event .matrixEngineTurn] else [])
    ++ (if s.mat.owner.any fun l => s.launchParked l && !s.launchRuns l then [.event .matrixStateSave] else [])
    ++ (((s.mats.flatMap fun m => m.deep).filter fun d => !d.ready).map fun d => .event (.deepPartArrival d.strand (BitVec.ofNat 4 d.aJ)))
    ++ (if s.copyQ.isEmpty then [] else [.event .copyStart])
    ++ ((List.range 16).filterMap fun i => if (s.channels.get (fin 16 i)).copy.isSome then some (.event (.copyComplete (fin 16 i))) else none)
    ++ ((List.range 16).filterMap fun i => if (s.channels.get (fin 16 i)).copy.isSome then some (.event (.copyFault (fin 16 i))) else none)
    ++ (if s.platQ.isEmpty then [] else [.event .platOpStart])
    ++ ((List.range 16).filterMap fun i =>
        match (s.platSlots.get (fin 16 i)).op with
        | some o => some (if o.scatter.isSome then .event (.platScatterComplete (fin 16 i) true)
            else .event (.platGatherComplete (fin 16 i) true))
        | none => none)

/-- Whether a launch has completed. -/
def Launch.isOver (l : Launch) : Bool :=
  match l.phase with
  | .complete _ => true
  | .waiting | .queued | .running | .ending _ => false

/-- The dispatch of a launch's next team to the active core, at the lowest run that it can have. -/
noncomputable def State.dispatchTurn (s : State) (l : Launch) : List Turn :=
  match (s.space l.asid).bind fun p => s.seatFor l p with
  | some (strands, b) => [.event (.teamDispatch l.id (BitVec.ofNat 64 l.nextTeam) strands b)]
  | none => []

/-- The events of one launch that may take place. -/
noncomputable def State.oneLaunchTurns (s : State) (l : Launch) : List Turn :=
  if l.isOver then []
  else
    (if l.hdr.det then [.event (.waveFence l.id)] else []) ++ s.dispatchTurn l
      ++ (if s.waitedQuantum l then [.event (.quantumExpiry l.id)] else []) ++ [.event (.launchComplete l.id)]

/-- The events of the scheduler that may take place (R317 to R329). -/
noncomputable def State.launchTurns (s : State) : List Turn :=
  ((s.teams.filter fun t => t.core == s.core).map fun t => .event (.teamRetire t.launch t.team)) ++ (s.parked.map fun p => .event (.strandResume p.st))
    ++ (s.launches.flatMap fun l => s.oneLaunchTurns l)

/-- The lowest of numbers, if there is one. -/
def lowest : List Nat → Option Nat
  | [] => none
  | a :: t => match lowest t with
    | some b => some (min a b)
    | none => some a

/-- The next core that has left its reset state, in rotation. -/
def State.nextCore (s : State) : Option Nat :=
  match lowest ((s.others.map fun p => p.1).filter fun n => s.core < n) with
  | some n => some n
  | none => lowest (s.others.map fun p => p.1)

/-- Whether a launch has a team to dispatch and its space is held by a die. -/
def State.wantsDie (s : State) (l : Launch) (die : Nat) : Bool :=
  (l.phase == .queued || l.phase == .running) && decide (l.nextTeam < l.hdr.teams)
    && (!l.hdr.det || l.nextTeam / l.hdr.c == l.wave) && (s.space l.asid).any fun p => p.dies.getLsbD die

/-- A core still in its reset state, on a ready die, while a launch has a team that the die may run. -/
def State.freshCore (s : State) : Option Nat :=
  (List.range 256).find? fun n =>
    n != s.core && (!s.others.any fun p => p.1 == n) && s.dieReady (n / 32) && s.launches.any fun l => s.wantsDie l (n / 32)

/-- The VIQ commit that may come next: of the strands whose oldest entry need not wait, the one of the highest rank, which so breaks ties in the
matrix queue (R322). -/
noncomputable def State.commitTurn (s : State) : List Turn :=
  let moves := fun (st : Fin 4) =>
    match Sys2Proof.Machine.takeTurn s (.event (.viqCommit st)) with
    | .next t => t.strand st != s.strand st
    | .fault _ | .refused _ => true
  ((s.ranked.find? fun st => !(s.strand st).viq.isEmpty && moves st).map fun st => Turn.event (.viqCommit st)).toList

/-- Every turn but those of the streams that may come next on the active core when the agenda is empty: those of the strands by rank (R322). -/
noncomputable def State.unitTurns (s : State) : List Turn :=
  s.commitTurn ++ (s.ranked.flatMap fun st => s.strandTurns st) ++ s.engineTurns ++ s.launchTurns ++ (s.rcpQ.map fun e => e.1).eraseDups.map fun i => .rcp i

/-- One of the units' turns, by the step count. -/
noncomputable def State.unitTurn (s : State) : Option Turn := s.unitTurns[(s.tick / 2 + s.tick / 64) % s.unitTurns.length]?

/-- The core that the default schedule makes the active one at this step: twice in 64 steps, the next core in rotation and a fresh one. -/
def State.coreTurn (s : State) : Option Nat :=
  if s.tick % 64 == 63 then s.nextCore else if s.tick % 64 == 31 then s.freshCore else none

/-- The turn of this step: the agenda's first, else the default schedule's: at every second step the stream that the arbiter picks. -/
noncomputable def State.nextTurn (s : State) : Option Turn :=
  match s.agenda with
  | t :: _ => some t
  | [] =>
    match s.coreTurn with
    | some n => some (.core (fin 256 n))
    | none =>
      match s.picked with
      | some p => if s.tick % 2 == 0 || s.unitTurns.isEmpty then some (.stream p.1 p.2) else s.unitTurn
      | none => s.unitTurn

end Sys2Proof.Machine
end

