-- ==== Sys2Proof/Machine/Step.lean ====
section
/-! DEFINITION. One step of the machine: the next turn of the agenda, or of the default schedule, with the counts that every step
advances. -/

namespace Sys2Proof.Machine

/-- The counts that a step advances: the model's step count, and `CYCLE` by a free number of cycles (R350, log 7). -/
def State.advance (s : State) : State :=
  { s with tick := s.tick + 1, cycle := s.cycle + Config.elapsed s.tick, agenda := s.agenda.drop 1 }

/-- One step. -/
noncomputable def step (s : State) : Host.Outcome State Fault Refusal :=
  match s.nextTurn with
  | some t => takeTurn s.advance t
  | none => .next s.advance

/-- A state whose next step fetches and runs the instruction with the given bits (log 12). -/
def State.withFetchWord (s : State) (nbits w : Nat) : State := s.place (leBytes 20 (w % 2 ^ nbits))

end Sys2Proof.Machine
end

