-- ==== Sys2Proof/Machine/Rounding.lean ====
section
/-! DEFINITION. What statements say of floating-point results over the real numbers: the value of finite bits (R73), a real number rounded
once to a format by a mode with its flags (R75, R76), and the rounding points of a matrix element (R93). -/

namespace Sys2Proof.Machine

/-- Whether bits are a finite number of a format (R73). -/
def Fmt.IsFinite (f : Fmt) (b : Nat) : Prop := b < 2 ^ f.width ∧ b / 2 ^ f.mb % 2 ^ f.eb ≠ 2 ^ f.eb - 1

/-- Whether the sign bit of bits of a format is set. -/
def Fmt.IsNeg (f : Fmt) (b : Nat) : Prop := b / 2 ^ (f.eb + f.mb) % 2 = 1

open Classical in
/-- The value of finite bits (R73): sign, biased exponent and fraction; an exponent field of 0 has no leading 1. -/
noncomputable def Fmt.value (f : Fmt) (b : Nat) : ℝ :=
  let sign : ℝ := if f.IsNeg b then -1 else 1
  let x : Nat := b / 2 ^ f.mb % 2 ^ f.eb
  let frac : ℝ := (b % 2 ^ f.mb : Nat) / 2 ^ f.mb
  let bias : ℤ := 2 ^ (f.eb - 1) - 1
  if x = 0 then sign * frac * 2 ^ (1 - bias) else sign * (1 + frac) * 2 ^ ((x : ℤ) - bias)

/-- A magnitude rounded to a whole number by a mode (R75): nearest with ties to even, toward zero, toward −∞, toward +∞, nearest with ties
away from zero; `neg` says that the number is negative. -/
def RoundsTo (mode : BitVec 3) (neg : Prop) (y : ℝ) (n : ℕ) : Prop :=
  let down := (n : ℝ) ≤ y ∧ y < n + 1
  let up := (n : ℝ) - 1 < y ∧ y ≤ n
  (mode = 0 → |y - n| ≤ 1 / 2 ∧ (|y - n| = 1 / 2 → n % 2 = 0))
  ∧ (mode = 1 → down)
  ∧ (mode = 2 → (neg → up) ∧ (¬ neg → down))
  ∧ (mode = 3 → (neg → down) ∧ (¬ neg → up))
  ∧ (mode = 4 → y - n < 1 / 2 ∧ n - y ≤ 1 / 2)

/-- A number other than zero rounded once to a format by a mode, and the flags of that (R75, R76): in units of the last place of its
binade, or of the subnormals, with the flag inexact where the result is another number and underflow where it is inexact and, rounded
with an unbounded exponent, below the least normal number; beyond the format, infinity or the largest finite number of its sign by the
mode, with overflow and inexact. -/
def Fmt.Rounded (f : Fmt) (mode : BitVec 3) (x : ℝ) (r : Nat × Flags) : Prop :=
  let least : ℤ := 2 - 2 ^ (f.eb - 1)
  let top : ℝ := 2 ^ (2 ^ (f.eb - 1) : ℕ)
  ∃ (q : ℤ) (n m : ℕ),
    let q' := max q (least - f.mb)
    let v : ℝ := n * 2 ^ q'
    2 ^ f.mb * (2 : ℝ) ^ q ≤ |x| ∧ |x| < 2 ^ (f.mb + 1) * (2 : ℝ) ^ q
    ∧ RoundsTo mode (x < 0) (|x| / 2 ^ q') n ∧ RoundsTo mode (x < 0) (|x| / 2 ^ q) m
    ∧ (v < top →
        f.IsFinite r.1 ∧ (f.IsNeg r.1 ↔ x < 0) ∧ |f.value r.1| = v
        ∧ (r.2.getLsbD 0 = true ↔ v ≠ |x|)
        ∧ (r.2.getLsbD 1 = true ↔ v ≠ |x| ∧ (m : ℝ) * 2 ^ q < 2 ^ least)
        ∧ r.2.getLsbD 2 = false ∧ r.2.getLsbD 3 = false ∧ r.2.getLsbD 4 = false)
    ∧ (top ≤ v →
        r.2 = 0x05 ∧ (f.IsNeg r.1 ↔ x < 0)
        ∧ (mode = 0 ∨ mode = 4 ∨ (mode = 2 ∧ x < 0) ∨ (mode = 3 ∧ 0 < x) →
            r.1 % 2 ^ (f.eb + f.mb) = (2 ^ f.eb - 1) * 2 ^ f.mb)
        ∧ (mode = 1 ∨ (mode = 2 ∧ 0 < x) ∨ (mode = 3 ∧ x < 0) → r.1 % 2 ^ (f.eb + f.mb) = (2 ^ f.eb - 1) * 2 ^ f.mb - 1))

open Classical in
/-- A result that is the number x rounded once; an exact zero has a sign of its own and sets no flag. -/
def Fmt.Gives (f : Fmt) (mode : BitVec 3) (x : ℝ) (zeroNeg : Prop) (r : Nat × Flags) : Prop :=
  (x ≠ 0 → f.Rounded mode x r) ∧ (x = 0 → r = ((if zeroNeg then 2 ^ (f.eb + f.mb) else 0), 0))

/-- The value of a finite exact number. -/
noncomputable def Num.value (x : Num) : ℝ :=
  match x with
  | .fin neg m e => (if neg then -1 else 1) * m * 2 ^ e
  | .nan _ | .inf _ => 0

/-- Whether an exact number is finite. -/
def Num.IsFinite (x : Num) : Prop := ∃ neg m e, x = .fin neg m e

/-- One rounding point of R93: the FP32 bits t' and flags after a finite number x has been added to the bits t and flags before: rounded once
to nearest, ties to even, and flushed to a zero of its sign, with underflow and inexact, where `ftz` holds and the result is subnormal. -/
def PointOf (ftz : Bool) (t t' : Nat × Flags) (x : ℝ) : Prop :=
  let f := Fmt.fp32
  ∃ r, f.Gives 0 (f.value t.1 + x) False r
    ∧ t' = if ftz = true ∧ r.1 / 2 ^ f.mb % 2 ^ f.eb = 0 ∧ r.1 % 2 ^ f.mb ≠ 0
        then (r.1 / 2 ^ (f.eb + f.mb) * 2 ^ (f.eb + f.mb), t.2 ||| r.2 ||| 0x03) else (r.1, t.2 ||| r.2)

end Sys2Proof.Machine
end

