-- ==== Sys2Proof/Safety.lean ====
section
/-! DEFINITION. The terms that statements are made in: what an instruction leaves alone, what it leaves behind, and the invariants. -/

namespace Sys2Proof.Machine

/-! ### Frames -/

/-- Only one stream of the machine differs. -/
def OnlyStream (s t : State) (st : Fin 4) (k : StreamId) : Prop := t = s.modStream st k fun _ => t.stream st k

/-- Only one strand of the machine differs. -/
def OnlyStrand (s t : State) (st : Fin 4) : Prop := t = s.modStrand st fun _ => t.strand st

/-- Every byte of memory reads as before: at its home, and as every stream and every member of the core sees it, under every key. -/
def SameBytes (s t : State) : Prop :=
  ∀ key pa, t.homeByte key pa = s.homeByte key pa ∧ ∀ who, t.viewByte who key pa = s.viewByte who key pa

/-! ### What a scalar instruction leaves behind -/

/-- The state after a scalar instruction of a stream with a result: X[rd] holds it (x0 reads as zero), the stream goes on at an
address with a value of `SFCTL`, one more instruction has retired, and nothing else of the machine has changed. -/
structure After (s t : State) (st : Fin 4) (k : StreamId) (rd : Reg) (v pc ctl : W64) : Prop where
  result : t.readX st k rd = if rd = 0 then 0 else v
  others : ∀ r, r ≠ rd → t.readX st k r = s.readX st k r
  at_    : (t.stream st k).pc = pc
  flags  : (t.stream st k).sfctl = ctl
  count  : (t.stream st k).instret = (s.stream st k).instret + 1
  goes   : (t.stream st k).status = .run
  only   : OnlyStream s t st k
  bytes  : SameBytes s t

/-- An instruction completes with a result in X[rd], no flag set, and the next instruction in sequence. -/
def Gives (s : State) (st : Fin 4) (k : StreamId) (rd : Reg) (i : Instr) (v : W64) : Prop :=
  ∃ t, exec i s = .next t ∧ After s t st k rd v (s.nextPc st k) (s.stream st k).sfctl

/-- An FP instruction completes with a result, zero-extended, and its flags ORed into `SFCTL`. -/
def GivesFp (s : State) (st : Fin 4) (k : StreamId) (rd : Reg) (i : Instr) (v : W64) (fl : Flags) : Prop :=
  ∃ t, exec i s = .next t ∧ After s t st k rd v (s.nextPc st k) ((s.stream st k).sfctl ||| fl.setWidth 64)

/-- An instruction completes with a result, the stream going on at an address. -/
def GivesAt (s : State) (st : Fin 4) (k : StreamId) (rd : Reg) (i : Instr) (v pc : W64) : Prop :=
  ∃ t, exec i s = .next t ∧ After s t st k rd v pc (s.stream st k).sfctl

/-- An instruction completes without a result, the stream going on at an address. -/
def GoesTo (s : State) (st : Fin 4) (k : StreamId) (i : Instr) (pc : W64) : Prop :=
  ∃ t, exec i s = .next t ∧ After s t st k 0 0 pc (s.stream st k).sfctl

/-! ### Accesses to memory -/

/-- A scalar access of n bytes at a VA that reaches a PA at once: aligned, with no vector memory work of the stream before it,
translated, and in no held stack. -/
structure Reaches (s : State) (st : Fin 4) (k : StreamId) (need : Need) (va : W64) (n pa : Nat) : Prop where
  aligned : va.toNat % n = 0 ∧ pa % n = 0
  free    : s.memBusy st k = false
  xlate   : s.scaXlate st k va need = .ok pa
  awake   : s.heldAt pa = false

/-- A write of n bytes at a PA that meets no seal, no plat and no retired stack, so that it marks nothing but resident rows. -/
structure Plain (s : State) (pa n : Nat) : Prop where
  seals : ∀ x ∈ s.seals, meets pa n x.pa x.len = false
  plats : paType pa = 1 → ∀ t ∈ s.teams, ∀ p ∈ t.plats, meets pa n (platPa t p) p.foot = false
  kept  : s.lostAt pa = false

/-- What a write that performs marks beside the bytes that it writes (R247): resident rows of every matrix state of the machine that it
meets are stale. -/
structure Touched (s t : State) (pa n : Nat) : Prop where
  mat    : t.mat = if isHbm pa then s.mat.touch pa n else s.mat
  saved  : t.savedMat = if isHbm pa then s.savedMat.map fun e => (e.1, e.2.touch pa n) else s.savedMat
  others : t.others = if isHbm pa then s.others.map fun p => (p.1, p.2.touch pa n) else s.others

/-- The state after bytes within one 64-byte line have been written at a PA under a key, the strands being those of `u`: those bytes read
as written under that key, at home and to the core. The stores to that line that the write-combining buffer held have drained before
(R299), so that the other bytes of the line read to the core as before under that key, where those stores were under it too; in HBM the
line is now under that key (R110). Every other line reads as before under every key. The poison of the line is gone only where
the drained stores cover it whole (R103). Beside the strands and the stale marks of resident rows nothing else of the machine has
changed. -/
structure Stored (s t u : State) (key pa : Nat) (bs : List Byte) : Prop extends Touched s t pa bs.length where
  strands : t.strands = u.strands
  inside  : ∀ i (h : i < bs.length), t.homeByte key (pa + i) = bs[i] ∧ t.coreByte key (pa + i) = bs[i]
  line    : (∀ e ∈ s.wcb, e.pa / 64 = pa / 64 → e.key = key ∨ isHbm pa = false) →
              ∀ a, a / 64 = pa / 64 → ¬ (pa ≤ a ∧ a < pa + bs.length) →
                t.homeByte key a = s.coreByte key a ∧ t.coreByte key a = s.coreByte key a
  lines   : ∀ key' a, a / 64 ≠ pa / 64 → t.homeByte key' a = s.homeByte key' a ∧ t.coreByte key' a = s.coreByte key' a
  buffer  : t.wcb = s.wcb.filter fun e => e.pa / 64 != pa / 64
  poison  : ∀ g, g ∈ t.poison ↔ g ∈ s.poison ∧
              ¬ (g = pa / 64 ∧ coversGranule s.wcbBits g = true)
  rest    : t = { s with strands := t.strands, mem := t.mem, keyTag := t.keyTag, poison := t.poison, wcb := t.wcb, mat := t.mat
                         savedMat := t.savedMat, others := t.others }

/-- The state after a D-mode store of bytes within one 64-byte line has been held for a task (R304, R386), the strands being those of `u`:
the bytes follow the held stores, not yet published, the team is charged the line where the stream had not stored to it before, and
beside the strands and the stale marks of resident rows nothing else of the machine, no byte of memory, has changed. -/
structure HeldStore (s t u : State) (st : Fin 4) (k : StreamId) (task : Task) (key pa : Nat) (bs : List Byte) : Prop
    extends Touched s t pa bs.length where
  strands : t.strands = u.strands
  held    : t.held = s.held ++ (List.range bs.length).map fun i =>
              { task := task, strand := st, stream := k, pa := pa + i, byte := bs.getD i 0, bits := 0xFF, key := key, pub := false }
  charged : t.teams = s.teams.map fun m =>
              if m.holds task && !m.lines.contains (task, k, pa / 64) then { m with lines := m.lines ++ [(task, k, pa / 64)] } else m
  rest    : t = { s with strands := t.strands, held := t.held, teams := t.teams, mat := t.mat, savedMat := t.savedMat
                         others := t.others }

/-! ### Traps -/

/-- What entering a handler needs (R338, R340): no handler runs, `TVEC` and `TFRAME` are set, and every line of the frame translates for writing
into the strand's own partition or arena. -/
structure CanEnter (s : State) (st : Fin 4) (lines : List Nat) : Prop where
  outside : (s.strand st).tstatus.getLsbD 0 = false
  vec     : (s.strand st).tvec ≠ 0
  frame   : (s.strand st).tframe ≠ 0
  aligned : (s.strand st).tframe.toNat % 64 = 0
  xlate   : s.frameLines (s.strand st).acc (s.strand st).tframe false true = .ok lines
  inside  : ∀ pa ∈ lines, s.inPart (s.strand st).acc pa = true

/-- What taking a trap on the handler path needs: to be able to enter the handler, and no `POISON` of a stream that is pending and comes
first (R341). -/
structure CanTrap (s : State) (st : Fin 4) (lines : List Nat) : Prop extends CanEnter s st lines where
  clean : (s.strand st).a.poisoned = false ∧ (s.strand st).e.poisoned = false

/-- A strand `y` at its handler after a trap of a stream (R338, R342): the trap registers, an empty VIQ, empty queues and fault mask,
the stream at `TVEC`, and every other register as it was. -/
structure AtHandler (x y : Strand) (k : StreamId) (cause : Byte) (tpc tval : W64) (vec fwd : Bool) : Prop where
  cause_  : y.tcause = cause.setWidth 64
  tpc_    : y.tpc = tpc
  tval_   : y.tval = tval
  inh     : y.tstatus.getLsbD 0 = true
  stream  : y.tstatus.getLsbD 1 = (k == .A)
  aOver   : y.tstatus.getLsbD 2 = x.a.over
  eOver   : y.tstatus.getLsbD 3 = x.e.over
  vector  : y.tstatus.getLsbD 4 = vec
  forward : y.tstatus.getLsbD 5 = fwd
  pc      : (y.stream k).pc = x.tvec
  runs    : (y.stream k).status = .run
  regs    : y.a.x = x.a.x ∧ y.e.x = x.e.x ∧ y.a.sfctl = x.a.sfctl ∧ y.e.sfctl = x.e.sfctl
  partner : (y.stream k.other).pc = match (x.stream k.other).status with
              | .stackWait _ _ next => next
              | _ => (x.stream k.other).pc
  empty   : y.viq = [] ∧ (∀ q, y.q.get q = []) ∧ y.q6 = [] ∧ y.q7 = [] ∧ y.mask = 0
  vectors : y.v = x.v ∧ y.p = x.p ∧ y.o = x.o ∧ y.l0 = x.l0 ∧ y.l1 = x.l1 ∧ y.k = x.k ∧ y.fr = x.fr
  grant   : y.vtype = x.vtype ∧ y.vlr = x.vlr ∧ y.vlc = x.vlc ∧ y.vstart = x.vstart ∧ y.vstatus = x.vstatus
  special : y.tvec = x.tvec ∧ y.tframe = x.tframe ∧ y.aspace = x.aspace ∧ y.wid = x.wid ∧ y.latshare = x.latshare
              ∧ y.vlcap = x.vlcap ∧ y.shadow = x.shadow ∧ y.fifo = x.fifo

/-- A trap that the supervisor takes (R339): the strand is parked with what the trap says, its registers as they were, and one record
goes to the supervisor cores. -/
structure ParkedFor (s t : State) (st : Fin 4) (k : StreamId) (cause : Byte) (tpc tval : W64) : Prop where
  halt   : (t.strand st).halt = .supervisor cause tpc tval false k
  record : ∃ r, t.supRecords = s.supRecords ++ [r] ∧ r.cause = cause ∧ r.tpc = tpc ∧ r.tval = tval ∧ r.strand = s.core * 4 + st.val
  regs   : ∀ j, ((t.strand st).stream j).x = ((s.strand st).stream j).x ∧ ((t.strand st).stream j).pc = ((s.strand st).stream j).pc
  traps  : (t.strand st).tcause = (s.strand st).tcause ∧ (t.strand st).tstatus = (s.strand st).tstatus
  others : ∀ u, u ≠ st → t.strand u = s.strand u
  bytes  : SameBytes s t

/-! ### Vector and matrix instructions -/

/-- What a vector instruction needs to go through the queue alone: the E-stream runs and executes it, its group and modifier checks pass (R61,
R66, R175), the queue is empty, the strand is not halted, and no register that it reads holds poisoned data (R370). -/
structure Ready (s : State) (st : Fin 4) (f : VForm) : Prop where
  agent  : s.cur.agent = .stream st .E
  check  : formCheck (s.strand st).lastRows (s.strand st).vtype (s.strand st).cap f = none
  empty  : (s.strand st).viq = []
  active : (s.strand st).halt = .none
  runs   : (s.stream st .E).status = .run
  sound  : (s.strand st).readsBad ((s.strand st).capture s.cur.words f) = false

/-- An instruction goes through an empty queue: it is enqueued, and its commit leaves the state `u`. -/
def Commits (s : State) (st : Fin 4) (i : Instr) (u : State) : Prop := ∃ t, exec i s = .next t ∧ exec (.viqCommit st) t = .next u

/-- What a committed vector instruction leaves beside its results: the E-stream at the next instruction with one more retired, the
queue empty, the last-result file shifted where the instruction has a destination group (R174), the restart element and the fault mask
cleared by an instruction that accesses memory (R193), and no register changed but those that the instruction's own clauses speak of. -/
structure RegRest (s u : State) (st : Fin 4) (f : VForm) : Prop where
  empty  : (u.strand st).viq = []
  pc     : (u.stream st .E).pc = s.nextPc st .E
  count  : (u.stream st .E).instret = (s.stream st .E).instret + 1
  goes   : (u.stream st .E).status = .run
  flags  : (u.stream st .E).sfctl = (s.stream st .E).sfctl
  others : ∀ r, scalarDest f ≠ some r → u.readX st .E r = s.readX st .E r
  last   : if shiftsLast f then
             (u.strand st).l1 = (s.strand st).l0
             ∧ ((destOf f).toNat < 0x48 →
                 (u.strand st).l0 = (List.range (vtG (s.strand st).vtype)).map fun r => (u.strand st).readRow (destOf f) r)
           else (u.strand st).l1 = (s.strand st).l1 ∧ (u.strand st).l0 = (s.strand st).l0
  start  : if memForm f then (u.strand st).vstart = 0 ∧ (u.strand st).mask = 0 ∧ (u.strand st).skip = 0 ∧ (u.strand st).vflags = 0
           else (u.strand st).vstart = (s.strand st).vstart ∧ (u.strand st).mask = (s.strand st).mask
             ∧ (u.strand st).skip = (s.strand st).skip ∧ (u.strand st).frec = (s.strand st).frec ∧ (u.strand st).vflags = (s.strand st).vflags
  sound  : ∀ b ∈ (u.strand st).bad, b < 80 → b ∈ (s.strand st).bad
  rest   : ∃ e v p o l0 l1 k vstatus bankser group bad vstart mask skip frec vflags, u.strand st =
             { s.strand st with viq := [], e := e, v := v, p := p, o := o, l0 := l0, l1 := l1, k := k, vstatus := vstatus, bankser := bankser
                                group := group, bad := bad, vstart := vstart, mask := mask, skip := skip, frec := frec, vflags := vflags }

/-- The same, with nothing changed outside the strand. -/
structure VecRest (s u : State) (st : Fin 4) (f : VForm) : Prop extends RegRest s u st f where
  only : OnlyStrand s u st

/-- A destination group of v registers, or of operand-file rows that has no more rows than that file. -/
def DestOk (vd : Spec) (rows : Nat) : Prop := vd.toNat < 0x40 ∨ (vd.toNat < 0x48 ∧ rows ≤ 8)

/-- Registers of a strand `y` outside the first rows of a destination group as in `x`. -/
structure KeepsRows (x y : Strand) (vd : Spec) (rows : Nat) : Prop where
  v : ∀ n : Fin 64, ¬ (vd.toNat < 0x40 ∧ ∃ r, r < rows ∧ fin 64 (vd.toNat + r) = n) → y.v.get n = x.v.get n
  o : ∀ n : Fin 8, ¬ (0x40 ≤ vd.toNat ∧ ∃ r, r < rows ∧ fin 8 (vd.toNat - 0x40 + r) = n) → y.o.get n = x.o.get n

/-- The elements of a destination group written over the grant (R172, R196): what is given at an element, or the old element; the columns
beyond the grant and every other register keep their values. -/
structure Wrote (x y : Strand) (vd : Spec) (w rows cols : Nat) (val : Nat → Nat → Option Nat) : Prop where
  grant  : ∀ r c, r < rows → c < cols → (c + 1) * w ≤ 8192 →
             elem (y.readRow vd r) w c = match val r c with
               | some v => v % 2 ^ w
               | none => elem (x.readRow vd r) w c
  beyond : ∀ r c, r < rows → cols ≤ c → (c + 1) * w ≤ 8192 → elem (y.readRow vd r) w c = elem (x.readRow vd r) w c
  keeps  : KeepsRows x y vd rows

/-- The element loop of R196: active elements get their values, inactive ones are zero under `.z` and keep their values without it. -/
def Lanes (x y : Strand) (vd : Spec) (m : Ext) (w : Nat) (val : Nat → Nat → Nat) : Prop :=
  Wrote x y vd w x.vlr.toNat x.vlc.toNat fun r c =>
    if x.active m r c then some (val r c) else if m.zero then some 0 else none

/-- `VSTATUS` ORed with the flags of the active elements (R77, R79). -/
def FlagsOf (x y : Strand) (m : Ext) (fl : Nat → Nat → Flags) : Prop :=
  ∀ b, y.vstatus.getLsbD b = true ↔ (x.vstatus.getLsbD b = true
    ∨ ∃ r c, r < x.vlr.toNat ∧ c < x.vlc.toNat ∧ x.active m r c = true ∧ (fl r c).getLsbD b = true)

/-- A matrix or row instruction finds the engine at rest (R218, R220): the matrix state is its launch's, the engine's queue is empty, no
deep part is on its way and pre-emption has not stopped the engine. -/
structure EngineReady (s : State) (st : Fin 4) : Prop where
  owned  : s.own st = some s
  empty  : s.mat.mq = []
  landed : s.mat.deep = []
  runs   : s.engineStopped = false

/-- An instruction goes through an empty queue into the engine, and the engine's turn `turn` leaves the state `u` (R218, R219). -/
def Engages (s : State) (st : Fin 4) (i turn : Instr) (u : State) : Prop :=
  ∃ t v, exec i s = .next t ∧ exec (.viqCommit st) t = .next v ∧ exec turn v = .next u

/-- The bits of a predicate register written over the grant (R202), where each element of the grant has a bit of its own (R171); every
other bit and register keeps its value, and p0 is not written. -/
structure BitLanes (x y : Strand) (pd : BitVec 4) (m : Ext) (val : Nat → Nat → Bool) : Prop where
  grant  : pd ≠ 0 → ∀ r c, r < x.vlr.toNat → c < x.vlc.toNat → r * 2048 + c < 32768 →
             (∀ r' c', r' < x.vlr.toNat → c' < x.vlc.toNat → r' * 2048 + c' = r * 2048 + c → r' = r ∧ c' = c) →
             (y.p.get ⟨pd.toNat, pd.isLt⟩).getLsbD (r * 2048 + c) =
               if x.active m r c then val r c else if m.zero then false
               else (x.p.get ⟨pd.toNat, pd.isLt⟩).getLsbD (r * 2048 + c)
  beyond : ∀ b, (∀ r c, r < x.vlr.toNat → c < x.vlc.toNat → r * 2048 + c ≠ b) →
             (y.p.get ⟨pd.toNat, pd.isLt⟩).getLsbD b = (x.p.get ⟨pd.toNat, pd.isLt⟩).getLsbD b
  others : ∀ q : Fin 16, q.val ≠ pd.toNat → y.p.get q = x.p.get q
  zero   : pd = 0 → y.p = x.p

/-- The active elements of an operand in one row, in increasing column. -/
def picksOf (x : Strand) (m : Ext) (spec : Spec) (r : Nat) : List Nat :=
  ((List.range x.vlc.toNat).filter fun c => x.active m r c).map fun c => x.src spec m.rep1 (vtSew x.vtype) r c

/-- The active elements of an operand over the whole grant, in increasing row and column. -/
def allPicks (x : Strand) (m : Ext) (spec : Spec) : List Nat := (List.range x.vlr.toNat).flatMap fun r => picksOf x m spec r

/-- A reduction (R209): of the whole grant into row 0, or of each row into that row under FX[4]. The values that `val` gives go to
columns 0, 1, …, whatever the grant and the predicate; every other element keeps its value, and the flags are ORed into `VSTATUS`. -/
structure Reduced (x y : Strand) (o : VOp) (m : Ext) (val : List Nat → List Nat × Flags) : Prop where
  written : ∀ r c, r < (if m.fx.getLsbD 4 then x.vlr.toNat else 1) → (c + 1) * vtSew x.vtype ≤ 8192 →
              let group := if m.fx.getLsbD 4 then picksOf x m o.vs1 r else allPicks x m o.vs1
              elem (y.readRow o.vd r) (vtSew x.vtype) c = match (val group).1[c]? with
                | some v => v % 2 ^ vtSew x.vtype
                | none => elem (x.readRow o.vd r) (vtSew x.vtype) c
  flags   : ∀ b, y.vstatus.getLsbD b = true ↔ (x.vstatus.getLsbD b = true
              ∨ ∃ r, r < (if m.fx.getLsbD 4 then x.vlr.toNat else 1)
                ∧ (val (if m.fx.getLsbD 4 then picksOf x m o.vs1 r else allPicks x m o.vs1)).2.getLsbD b = true)
  keeps   : KeepsRows x y o.vd (if m.fx.getLsbD 4 then x.vlr.toNat else 1)
  preds   : y.p = x.p ∧ y.k = x.k

/-- A vector register file as it was. -/
def SameRows (x y : Strand) : Prop := y.v = x.v ∧ y.o = x.o

/-- A vector instruction traps when it is the oldest of the queue: the strand at its handler, with the instruction's own PC in `TPC`,
its registers as they were (R279, R338). -/
def VecTraps (s : State) (st : Fin 4) (i : Instr) (cause : Byte) (tval : W64) : Prop :=
  ∃ u, Commits s st i u ∧ AtHandler (s.strand st) (u.strand st) .E cause (s.stream st .E).pc tval true false

/-- The entry of the vector instruction queue that an instruction of majors 0x11 to 0x1C asks for, by its major and function (R67). -/
def formOf (i : Instr) : Option VForm :=
  match i with
  | .vpf od vs1 => some (.vec 0x11 0 { vd := od, vs1 := vs1, vs2 := 0 } Ext.base none)
  | .vpfExt od vs1 => some (.vec 0x11 0 { vd := od, vs1 := vs1, vs2 := 0 } Ext.base none)
  | .vld vd m => some (.vec 0x12 0 { vd := vd, vs1 := 0, vs2 := 0 } (m.ext 7 0) m.disp)
  | .vlds vd m => some (.vec 0x12 1 { vd := vd, vs1 := 0, vs2 := 0 } (m.ext 7 0) m.disp)
  | .vst vs1 m => some (.vec 0x12 2 { vd := 0, vs1 := vs1, vs2 := 0 } (m.ext 7 0) m.disp)
  | .vsts vs1 m => some (.vec 0x12 3 { vd := 0, vs1 := vs1, vs2 := 0 } (m.ext 7 0) m.disp)
  | .vld2d vd m => some (.vec 0x12 4 { vd := vd, vs1 := 0, vs2 := 0 } (m.ext 7 0) m.disp)
  | .vst2d vs1 m => some (.vec 0x12 5 { vd := 0, vs1 := vs1, vs2 := 0 } (m.ext 7 0) m.disp)
  | .vldp vd m => some (.vec 0x12 6 { vd := vd, vs1 := 0, vs2 := 0 } (m.ext 7 0) m.disp)
  | .vstp vs1 m rnd op => some (.vec 0x12 7 { vd := 0, vs1 := vs1, vs2 := 0 } (m.ext rnd op.fx) m.disp)
  | .vadd o => some (.vec 0x13 0 o Ext.base none)
  | .vaddExt o x => some (.vec 0x13 0 o x none)
  | .vsub o => some (.vec 0x13 1 o Ext.base none)
  | .vsubExt o x => some (.vec 0x13 1 o x none)
  | .vmul o => some (.vec 0x13 2 o Ext.base none)
  | .vmulExt o x => some (.vec 0x13 2 o x none)
  | .vmulh o => some (.vec 0x13 3 o Ext.base none)
  | .vmulhExt o x => some (.vec 0x13 3 o x none)
  | .vand o => some (.vec 0x13 4 o Ext.base none)
  | .vandExt o x => some (.vec 0x13 4 o x none)
  | .vor o => some (.vec 0x13 5 o Ext.base none)
  | .vorExt o x => some (.vec 0x13 5 o x none)
  | .vxor o => some (.vec 0x13 6 o Ext.base none)
  | .vxorExt o x => some (.vec 0x13 6 o x none)
  | .vmin o => some (.vec 0x13 7 o Ext.base none)
  | .vminExt o x => some (.vec 0x13 7 o x none)
  | .vmax o => some (.vec 0x14 0 o Ext.base none)
  | .vmaxExt o x => some (.vec 0x14 0 o x none)
  | .vsll o => some (.vec 0x14 1 o Ext.base none)
  | .vsllExt o x => some (.vec 0x14 1 o x none)
  | .vsrl o => some (.vec 0x14 2 o Ext.base none)
  | .vsrlExt o x => some (.vec 0x14 2 o x none)
  | .vsra o => some (.vec 0x14 3 o Ext.base none)
  | .vsraExt o x => some (.vec 0x14 3 o x none)
  | .vadds o => some (.vec 0x14 4 o Ext.base none)
  | .vaddsExt o x => some (.vec 0x14 4 o x none)
  | .vsubs o => some (.vec 0x14 5 o Ext.base none)
  | .vsubsExt o x => some (.vec 0x14 5 o x none)
  | .vmac o => some (.vec 0x14 6 o Ext.base none)
  | .vmacExt o x => some (.vec 0x14 6 o x none)
  | .vabsd o => some (.vec 0x14 7 o Ext.base none)
  | .vabsdExt o x => some (.vec 0x14 7 o x none)
  | .vfadd o => some (.vec 0x15 0 o Ext.base none)
  | .vfaddExt o x => some (.vec 0x15 0 o x none)
  | .vfsub o => some (.vec 0x15 1 o Ext.base none)
  | .vfsubExt o x => some (.vec 0x15 1 o x none)
  | .vfmul o => some (.vec 0x15 2 o Ext.base none)
  | .vfmulExt o x => some (.vec 0x15 2 o x none)
  | .vfma o x => some (.vec 0x15 3 o x none)
  | .vfdiv o => some (.vec 0x15 4 o Ext.base none)
  | .vfdivExt o x => some (.vec 0x15 4 o x none)
  | .vfsqrt o => some (.vec 0x15 5 o Ext.base none)
  | .vfsqrtExt o x => some (.vec 0x15 5 o x none)
  | .vfmin o => some (.vec 0x15 6 o Ext.base none)
  | .vfminExt o x => some (.vec 0x15 6 o x none)
  | .vfmax o => some (.vec 0x15 7 o Ext.base none)
  | .vfmaxExt o x => some (.vec 0x15 7 o x none)
  | .vfsgn o => some (.vec 0x16 0 o Ext.base none)
  | .vfsgnExt o x => some (.vec 0x16 0 o x none)
  | .vfscl o => some (.vec 0x16 1 o Ext.base none)
  | .vfsclExt o x => some (.vec 0x16 1 o x none)
  | .vfcls o => some (.vec 0x16 2 o Ext.base none)
  | .vfclsExt o x => some (.vec 0x16 2 o x none)
  | .vpoly o => some (.vec 0x16 3 o Ext.base none)
  | .vpolyExt o x => some (.vec 0x16 3 o x none)
  | .vtwos o => some (.vec 0x16 4 o Ext.base none)
  | .vtwosExt o x => some (.vec 0x16 4 o x none)
  | .vcmp o => some (.vec 0x17 0 o Ext.base none)
  | .vcmpExt o x => some (.vec 0x17 0 o x none)
  | .vfcmp o => some (.vec 0x17 1 o Ext.base none)
  | .vfcmpExt o x => some (.vec 0x17 1 o x none)
  | .plog o => some (.vec 0x17 2 o Ext.base none)
  | .plogExt o x => some (.vec 0x17 2 o x none)
  | .pset o x => some (.vec 0x17 3 o x none)
  | .pcnt o x => some (.vec 0x17 4 o x none)
  | .pfirst o x => some (.vec 0x17 5 o x none)
  | .vsel o => some (.vec 0x17 6 o Ext.base none)
  | .vselExt o x => some (.vec 0x17 6 o x none)
  | .vcvt o => some (.vec 0x18 0 o Ext.base none)
  | .vcvtExt o x => some (.vec 0x18 0 o x none)
  | .qnt o x => some (.vec 0x18 1 o x none)
  | .qnte o x => some (.vec 0x18 2 o x none)
  | .dqnt o x => some (.vec 0x18 3 o x none)
  | .vmv o => some (.vec 0x19 0 o Ext.base none)
  | .vmvExt o x => some (.vec 0x19 0 o x none)
  | .vbcast o x => some (.vec 0x19 1 o x none)
  | .vext o x => some (.vec 0x19 2 o x none)
  | .vins o x => some (.vec 0x19 3 o x none)
  | .vslup o x => some (.vec 0x19 4 o x none)
  | .vsldn o x => some (.vec 0x19 5 o x none)
  | .vperm o => some (.vec 0x19 6 o Ext.base none)
  | .vpermExt o x => some (.vec 0x19 6 o x none)
  | .vtrn o => some (.vec 0x19 7 o Ext.base none)
  | .vtrnExt o x => some (.vec 0x19 7 o x none)
  | .vredsum o => some (.vec 0x1A 0 o Ext.base none)
  | .vredsumExt o x => some (.vec 0x1A 0 o x none)
  | .vredmax o => some (.vec 0x1A 1 o Ext.base none)
  | .vredmaxExt o x => some (.vec 0x1A 1 o x none)
  | .vredmin o => some (.vec 0x1A 2 o Ext.base none)
  | .vredminExt o x => some (.vec 0x1A 2 o x none)
  | .vredcs o => some (.vec 0x1A 3 o Ext.base none)
  | .vredcsExt o x => some (.vec 0x1A 3 o x none)
  | .vscan o x => some (.vec 0x1A 4 o x none)
  | .vcomp o => some (.vec 0x1A 5 o Ext.base none)
  | .vcompExt o x => some (.vec 0x1A 5 o x none)
  | .vdig o x => some (.vec 0x1A 6 o x none)
  | .mma o x => some (.vec 0x1B 0 o x none)
  | .bld o x => some (.vec 0x1B 1 o x none)
  | .azero o x => some (.vec 0x1B 2 o x none)
  | .ard o x => some (.vec 0x1B 3 o x none)
  | .awr o x => some (.vec 0x1B 4 o x none)
  | .eptk o x => some (.vec 0x1B 5 o x none)
  | .bslotPin n => some (.vec 0x1B 6 { vd := 0, vs1 := 0, vs2 := n } { Ext.base with fx := 0 } none)
  | .bslotUnpin n => some (.vec 0x1B 6 { vd := 0, vs1 := 0, vs2 := n } { Ext.base with fx := 1 } none)
  | .bslotRelease n => some (.vec 0x1B 6 { vd := 0, vs1 := 0, vs2 := n } { Ext.base with fx := 2 } none)
  | .bslotQuery rd n => some (.vec 0x1B 6 { vd := 0, vs1 := 0, vs2 := n } { Ext.base with xs2 := rd, fx := 3 } none)
  | .rmbind rd rs1 m => some (.row 0 false rd rs1 0 0 0 0 m)
  | .rmbindUnbind m => some (.row 0 true 0 0 0 0 0 0 m)
  | .rmfire vX m => some (.row 1 false 0 0 0 0 0 vX m)
  | .rmmul ad aT aJ vX m row0 => some (.row 2 ad 0 0 row0 aJ aT vX m)
  | .rmjoin aT aJ => some (.row 3 false 0 0 0 aJ aT 0 0)
  | .rmmig rd m => some (.row 4 false rd 0 0 0 0 0 m)
  | .rmage m => some (.row 5 false 0 0 0 0 0 0 m)
  | .rmqry rd m => some (.row 6 false rd 0 0 0 0 0 m)
  | _ => none

/-! ### Invariants -/

/-- Memory, and the key tags beside it, are in their canonical form. -/
def State.MemOk (s : State) : Prop := Memory.wf s.mem = true ∧ s.keyTag.wf = true

/-! ### Bytes that engines and units write -/

/-- A header byte that the plat engine rewrites when a plat becomes stale or is released (R127). -/
def State.platMark (s : State) (a : Nat) : Prop := ∃ t ∈ s.teams, ∃ p ∈ t.plats, a = platPa t p + 5 ∨ a = platPa t p + 6

/-- Distinct bytes in no held and no retired stack, none of them such a header byte. -/
structure Writable (s : State) (pas : List Nat) : Prop where
  distinct : pas.Nodup
  awake    : ∀ pa ∈ pas, s.heldAt pa = false
  kept     : ∀ pa ∈ pas, s.lostAt pa = false
  apart    : ∀ pa ∈ pas, ¬ s.platMark pa

/-- Bytes written under a key. The lines that they meet are under that key now (R110), and the stores to them that the write-combining
buffer held have drained before (R299): where those were under it too, the other bytes of these lines read under it as the core saw them.
Beside those lines and such header bytes every byte reads as before under every key. -/
structure BytesWritten (s t : State) (key : Nat) (ws : List (Nat × Byte)) : Prop where
  inside  : ∀ w ∈ ws, t.homeByte key w.1 = w.2
  line    : (∀ e ∈ s.wcb, (∃ w ∈ ws, w.1 / 64 = e.pa / 64) → e.key = key ∨ isHbm e.pa = false) →
              ∀ a, a ∉ ws.map (fun w => w.1) → (∃ w ∈ ws, w.1 / 64 = a / 64) → ¬ s.platMark a →
                t.homeByte key a = s.coreByte key a
  outside : ∀ key' a, (∀ w ∈ ws, w.1 / 64 ≠ a / 64) → ¬ s.platMark a → t.homeByte key' a = s.homeByte key' a

/-- A line of C (R259): the indices of A and B in strictly increasing order, a value found on one side only copied, two values added, and
zeros dropped unless they are kept. -/
structure MergeOf (h : SpHdr) (kz : Bool) (a b m : List (Nat × Nat)) : Prop where
  sorted : (m.map fun e => e.1).Pairwise fun i j => i < j
  entry  : ∀ i v, (i, v) ∈ m ↔ ((kz = true ∨ h.zero v = false)
    ∧ (((i, v) ∈ a ∧ i ∉ b.map fun e => e.1) ∨ ((i, v) ∈ b ∧ i ∉ a.map fun e => e.1)
      ∨ ∃ x y, (i, x) ∈ a ∧ (i, y) ∈ b ∧ v = h.add x y))

end Sys2Proof.Machine
end

