-- ==== Sys2Proof/Certificates/Slice0/Obligations.lean ====
section
/-! DEFINITION. The statements for the provers, each from rules of the spec, in the terms of Safety.lean. -/

open Sys2Proof Sys2Proof.Machine

/-! ### Scalar integer instructions -/

/-- R281, R282: every SALU function at 64 bits, in either stream, with its frame; every W32 form, which reads bits [31:0] of a and b and
writes the 32-bit result sign-extended; CLZ, CTZ and POPC, by what their result says of a. -/
def Obligations.ScalarAluResults : Prop :=
  (∀ (s : State) (st : Fin 4) (k : StreamId) (rd rs1 rs2 : Reg), s.cur.agent = .stream st k →
      let a := s.readX st k rs1
      let b := s.readX st k rs2
      Gives s st k rd (.add false rd rs1 rs2) (a + b)
      ∧ Gives s st k rd (.sub false rd rs1 rs2) (a - b)
      ∧ Gives s st k rd (.and false rd rs1 rs2) (a &&& b)
      ∧ Gives s st k rd (.or false rd rs1 rs2) (a ||| b)
      ∧ Gives s st k rd (.xor false rd rs1 rs2) (a ^^^ b)
      ∧ Gives s st k rd (.sll false rd rs1 rs2) (a <<< (b.toNat % 64))
      ∧ Gives s st k rd (.srl false rd rs1 rs2) (a >>> (b.toNat % 64))
      ∧ Gives s st k rd (.sra false rd rs1 rs2) (BitVec.ofInt 64 (a.toInt / 2 ^ (b.toNat % 64)))
      ∧ Gives s st k rd (.mul false rd rs1 rs2) (a * b)
      ∧ Gives s st k rd (.mulh rd rs1 rs2) (BitVec.ofInt 64 (a.toInt * b.toInt / 2 ^ 64))
      ∧ Gives s st k rd (.mulhu rd rs1 rs2) (BitVec.ofNat 64 (a.toNat * b.toNat / 2 ^ 64))
      ∧ Gives s st k rd (.div false rd rs1 rs2) (if b = 0 then BitVec.allOnes 64 else BitVec.ofInt 64 (a.toInt.tdiv b.toInt))
      ∧ Gives s st k rd (.divu false rd rs1 rs2) (if b = 0 then BitVec.allOnes 64 else BitVec.ofNat 64 (a.toNat / b.toNat))
      ∧ Gives s st k rd (.rem false rd rs1 rs2) (if b = 0 then a else BitVec.ofInt 64 (a.toInt.tmod b.toInt))
      ∧ Gives s st k rd (.remu false rd rs1 rs2) (if b = 0 then a else BitVec.ofNat 64 (a.toNat % b.toNat))
      ∧ Gives s st k rd (.min rd rs1 rs2) (if a.toInt ≤ b.toInt then a else b)
      ∧ Gives s st k rd (.max rd rs1 rs2) (if a.toInt ≤ b.toInt then b else a)
      ∧ Gives s st k rd (.minu rd rs1 rs2) (if a.toNat ≤ b.toNat then a else b)
      ∧ Gives s st k rd (.maxu rd rs1 rs2) (if a.toNat ≤ b.toNat then b else a)
      ∧ Gives s st k rd (.slt rd rs1 rs2) (if a.toInt < b.toInt then 1 else 0)
      ∧ Gives s st k rd (.sltu rd rs1 rs2) (if a.toNat < b.toNat then 1 else 0)
      ∧ Gives s st k rd (.rol rd rs1 rs2) (a.rotateLeft (b.toNat % 64))
      ∧ Gives s st k rd (.ror rd rs1 rs2) (a.rotateRight (b.toNat % 64)))
  ∧ (∀ (s : State) (st : Fin 4) (k : StreamId) (rd rs1 rs2 : Reg), s.cur.agent = .stream st k →
      let c : W32 := (s.readX st k rs1).setWidth 32
      let d : W32 := (s.readX st k rs2).setWidth 32
      Gives s st k rd (.add true rd rs1 rs2) (((c + d) : W32).signExtend 64)
      ∧ Gives s st k rd (.sub true rd rs1 rs2) (((c - d) : W32).signExtend 64)
      ∧ Gives s st k rd (.and true rd rs1 rs2) (((c &&& d) : W32).signExtend 64)
      ∧ Gives s st k rd (.or true rd rs1 rs2) (((c ||| d) : W32).signExtend 64)
      ∧ Gives s st k rd (.xor true rd rs1 rs2) (((c ^^^ d) : W32).signExtend 64)
      ∧ Gives s st k rd (.sll true rd rs1 rs2) (((c <<< (d.toNat % 32)) : W32).signExtend 64)
      ∧ Gives s st k rd (.srl true rd rs1 rs2) (((c >>> (d.toNat % 32)) : W32).signExtend 64)
      ∧ Gives s st k rd (.sra true rd rs1 rs2) (((BitVec.ofInt 32 (c.toInt / 2 ^ (d.toNat % 32))) : W32).signExtend 64)
      ∧ Gives s st k rd (.mul true rd rs1 rs2) (((c * d) : W32).signExtend 64)
      ∧ Gives s st k rd (.div true rd rs1 rs2) (((if d = 0 then BitVec.allOnes 32 else BitVec.ofInt 32 (c.toInt.tdiv d.toInt)) : W32).signExtend 64)
      ∧ Gives s st k rd (.divu true rd rs1 rs2) (((if d = 0 then BitVec.allOnes 32 else BitVec.ofNat 32 (c.toNat / d.toNat)) : W32).signExtend 64)
      ∧ Gives s st k rd (.rem true rd rs1 rs2) (((if d = 0 then c else BitVec.ofInt 32 (c.toInt.tmod d.toInt)) : W32).signExtend 64)
      ∧ Gives s st k rd (.remu true rd rs1 rs2) (((if d = 0 then c else BitVec.ofNat 32 (c.toNat % d.toNat)) : W32).signExtend 64))
  ∧ (∀ (s : State) (st : Fin 4) (k : StreamId) (rd rs1 : Reg), s.cur.agent = .stream st k →
      let a := (s.readX st k rs1).toNat
      (∃ n : Nat, n ≤ 64 ∧ a < 2 ^ (64 - n) ∧ (n < 64 → 2 ^ (63 - n) ≤ a) ∧ Gives s st k rd (.clz rd rs1) (BitVec.ofNat 64 n))
      ∧ (∃ n : Nat, n ≤ 64 ∧ a % 2 ^ n = 0 ∧ (n < 64 → a / 2 ^ n % 2 = 1) ∧ Gives s st k rd (.ctz rd rs1) (BitVec.ofNat 64 n))
      ∧ Gives s st k rd (.popc rd rs1) (BitVec.ofNat 64 ((List.range 64).filter fun i => a.testBit i).length))

/-- R283, R59: SALUI with its sign-extended immediate and with a literal. -/
def Obligations.ScalarImmediateResults : Prop :=
  ∀ (s : State) (st : Fin 4) (k : StreamId) (rd rs1 : Reg) (imm : BitVec 11) (lit : W64), s.cur.agent = .stream st k →
    let a := s.readX st k rs1
    Gives s st k rd (.addi rd rs1 imm) (let i := imm.signExtend 64; a + i)
    ∧ Gives s st k rd (.addiLit rd rs1 lit) (let i := lit; a + i)
    ∧ Gives s st k rd (.andi rd rs1 imm) (let i := imm.signExtend 64; a &&& i)
    ∧ Gives s st k rd (.andiLit rd rs1 lit) (let i := lit; a &&& i)
    ∧ Gives s st k rd (.ori rd rs1 imm) (let i := imm.signExtend 64; a ||| i)
    ∧ Gives s st k rd (.oriLit rd rs1 lit) (let i := lit; a ||| i)
    ∧ Gives s st k rd (.xori rd rs1 imm) (let i := imm.signExtend 64; a ^^^ i)
    ∧ Gives s st k rd (.xoriLit rd rs1 lit) (let i := lit; a ^^^ i)
    ∧ Gives s st k rd (.slti rd rs1 imm) (let i := imm.signExtend 64; if a.toInt < i.toInt then 1 else 0)
    ∧ Gives s st k rd (.sltiLit rd rs1 lit) (let i := lit; if a.toInt < i.toInt then 1 else 0)
    ∧ Gives s st k rd (.sltiu rd rs1 imm) (let i := imm.signExtend 64; if a.toNat < i.toNat then 1 else 0)
    ∧ Gives s st k rd (.sltiuLit rd rs1 lit) (let i := lit; if a.toNat < i.toNat then 1 else 0)
    ∧ Gives s st k rd (.addpc rd imm) ((s.stream st k).pc + imm.signExtend 64)
    ∧ Gives s st k rd (.addpcLit rd lit) ((s.stream st k).pc + lit)

/-- R284: SSHI. -/
def Obligations.ScalarShiftResults : Prop :=
  ∀ (s : State) (st : Fin 4) (k : StreamId) (rd rs1 : Reg) (sh : BitVec 6) (imm : BitVec 11) (lit : W64),
    s.cur.agent = .stream st k →
    let a := s.readX st k rs1
    Gives s st k rd (.slli rd rs1 sh) (a <<< sh.toNat)
    ∧ Gives s st k rd (.srli rd rs1 sh) (a >>> sh.toNat)
    ∧ Gives s st k rd (.srai rd rs1 sh) (BitVec.ofInt 64 (a.toInt / 2 ^ sh.toNat))
    ∧ Gives s st k rd (.roli rd rs1 sh) (a.rotateLeft sh.toNat)
    ∧ Gives s st k rd (.ldi rd imm) (imm.signExtend 64)
    ∧ Gives s st k rd (.ldiLit rd lit) lit

/-! ### Scalar floating point -/

/-- R285, R86: every SFP function reads its operands from the low bits of its registers, rounds by `SFCTL.rm`, writes its result
zero-extended and ORs its flags into `SFCTL`; FCVTI converts to the integer code's range and extends the result to 64 bits, ICVTF reads
the source register at the code's width, FCVTF reads it at the source precision; nothing else changes. What the functions of a format that
are named here give is said by `RoundedOnce`. R74: whatever NaNs the inputs held, an arithmetic result that is a NaN is the canonical NaN of its format, FP16 0x7E00, BF16 0x7FC0, FP32 0x7FC0_0000 and FP64
0x7FF8_0000_0000_0000; a signalling NaN input sets the invalid flag. -/
def Obligations.ScalarFpResults : Prop :=
  ((∀ (s : State) (st : Fin 4) (k : StreamId) (p : Prec) (rd rs1 rs2 : Reg), s.cur.agent = .stream st k →
        let f := precFmt p
        let rm : BitVec 3 := (s.stream st k).sfctl.extractLsb' 5 3
        let a := (s.readX st k rs1).toNat % 2 ^ f.width
        let b := (s.readX st k rs2).toNat % 2 ^ f.width
        let d := (s.readX st k rd).toNat % 2 ^ f.width
        let fp := fun (i : Instr) (r : Nat × Flags) => GivesFp s st k rd i (BitVec.ofNat 64 r.1) r.2
        let cmp := fun (i : Instr) (r : Bool × Flags) => GivesFp s st k rd i (if r.1 then 1 else 0) r.2
        fp (.fadd p rd rs1 rs2) (f.fadd rm a b) ∧ fp (.fsub p rd rs1 rs2) (f.fsub rm a b) ∧ fp (.fmul p rd rs1 rs2) (f.fmul rm a b)
        ∧ fp (.fdiv p rd rs1 rs2) (f.fdiv rm a b) ∧ fp (.fsqrt p rd rs1) (f.fsqrt rm a)
        ∧ fp (.fmin p rd rs1 rs2) (f.minMax false true a b) ∧ fp (.fmax p rd rs1 rs2) (f.minMax true true a b)
        ∧ fp (.fma p rd rs1 rs2) (f.ffma rm false false a b d) ∧ fp (.fnma p rd rs1 rs2) (f.ffma rm true false a b d)
        ∧ cmp (.feq p rd rs1 rs2) (f.compare 0 a b) ∧ cmp (.flt p rd rs1 rs2) (f.compare 2 a b)
        ∧ cmp (.fle p rd rs1 rs2) (f.compare 3 a b) ∧ cmp (.ftole p rd rs1 rs2) (totalLE f.width a b, 0)
        ∧ fp (.fclass p rd rs1) (f.classify a, 0))
    ∧ (∀ (s : State) (st : Fin 4) (k : StreamId) (p src : Prec) (c : IntCode) (rd rs1 : Reg), s.cur.agent = .stream st k →
        let f := precFmt p
        let rm : BitVec 3 := (s.stream st k).sfctl.extractLsb' 5 3
        let x := s.readX st k rs1
        let r := (f.decode (x.toNat % 2 ^ f.width)).toInt rm (intCode c).1 (intCode c).2
        GivesFp s st k rd (.fcvti p c rd rs1) (BitVec.ofInt 64 r.1) r.2
        ∧ (let q := f.ofInt rm (match c with
            | .i64 => x.toInt
            | .u64 => x.toNat
            | .i32 => (x.setWidth 32).toInt
            | .u32 => (x.setWidth 32).toNat)
           GivesFp s st k rd (.icvtf p c rd rs1) (BitVec.ofNat 64 q.1) q.2)
        ∧ (let q := (precFmt src).toFmt f rm (x.toNat % 2 ^ (precFmt src).width)
           GivesFp s st k rd (.fcvtf p src rd rs1) (BitVec.ofNat 64 q.1) q.2)))
  ∧ (Fmt.fp16.canon = 0x7E00 ∧ Fmt.bf16.canon = 0x7FC0 ∧ Fmt.fp32.canon = 0x7FC00000 ∧ Fmt.fp64.canon = 0x7FF8000000000000 ∧
    ∀ (p : Prec) (rm : BitVec 3) (a b d : Nat), let f := precFmt p
      a < 2 ^ f.width → b < 2 ^ f.width → d < 2 ^ f.width →
      let clean := fun (r : Nat × Flags) => f.isNan r.1 = true → r.1 = f.canon
      let flags := fun (r : Nat × Flags) (x : Nat) => f.isSig x = true → r.2.getLsbD 4 = true
      clean (f.fadd rm a b) ∧ clean (f.fsub rm a b) ∧ clean (f.fmul rm a b) ∧ clean (f.fdiv rm a b) ∧ clean (f.fsqrt rm a)
      ∧ clean (f.ffma rm false false a b d) ∧ clean (f.ffma rm true false a b d)
      ∧ flags (f.fadd rm a b) a ∧ flags (f.fadd rm a b) b ∧ flags (f.fsub rm a b) a ∧ flags (f.fsub rm a b) b
      ∧ flags (f.fmul rm a b) a ∧ flags (f.fmul rm a b) b ∧ flags (f.fdiv rm a b) a ∧ flags (f.fdiv rm a b) b
      ∧ flags (f.fsqrt rm a) a ∧ flags (f.ffma rm false false a b d) a ∧ flags (f.ffma rm false false a b d) b
      ∧ flags (f.ffma rm false false a b d) d ∧ flags (f.ffma rm true false a b d) a ∧ flags (f.ffma rm true false a b d) b
      ∧ flags (f.ffma rm true false a b d) d
      ∧ (∀ isMax number, clean (f.minMax isMax number a b) ∧ flags (f.minMax isMax number a b) a ∧ flags (f.minMax isMax number a b) b)
      ∧ ∀ src : Prec, ∀ c, let g := precFmt src
          c < 2 ^ g.width → clean (g.toFmt f rm c) ∧ (g.isSig c = true → (g.toFmt f rm c).2.getLsbD 4 = true))


/-! ### Scalar memory accesses -/

/-- R286, R310: a load that reaches its bytes at once writes them, sign- or zero-extended by its size, to X[rd]; nothing else changes. -/
def Obligations.LoadResults : Prop :=
  ∀ (s : State) (st : Fin 4) (k : StreamId) (rd rs1 : Reg) (va : W64) (pa : Nat), s.cur.agent = .stream st k →
    let b := fun (i : Nat) => s.viewByte (some (st, k)) (s.slotKey (s.acc st).key) (pa + i)
    let half := b 1 ++ b 0
    let word := b 3 ++ b 2 ++ half
    let long := b 7 ++ b 6 ++ b 5 ++ b 4 ++ word
    let val := fun (z : LdSize) => match z with
      | .b => (b 0).signExtend 64
      | .bu => (b 0).setWidth 64
      | .h => half.signExtend 64
      | .hu => half.setWidth 64
      | .w => word.signExtend 64
      | .wu => word.setWidth 64
      | .d => long
    let reaches := fun (n : Nat) => Reaches s st k .load va n pa ∧ s.anyPoison st k pa n = false
    (∀ z imm, va = s.readX st k rs1 + imm.signExtend 64 → reaches (LdSize.bytes z) → Gives s st k rd (.ld z rd rs1 imm) (val z))
    ∧ (∀ z lit, va = s.readX st k rs1 + lit → reaches (LdSize.bytes z) → Gives s st k rd (.ldLit z rd rs1 lit) (val z))
    ∧ (∀ sc d, va = s.readX st k rs1 → reaches (if d then 8 else 4) →
      Gives s st k rd (.lda sc d rd rs1) (if d then long else word.signExtend 64))

/-- R286, R310, R299, R304, R386: a store that reaches its bytes at once writes the low bytes of its register there, little-endian, and
changes no other byte of memory and no register. In D-mode, outside the core's own scratchpad, a store that fits the share of its logical
core is held for the wave fence instead, where its team is charged its line, and no byte of memory changes; a held `STL` is
not fenced by what its own stream holds. -/
def Obligations.StoreResults : Prop :=
  ∀ (s : State) (st : Fin 4) (k : StreamId) (rs rs1 : Reg) (va : W64) (pa : Nat), s.cur.agent = .stream st k →
    let key := s.slotKey (s.acc st).key
    let v := s.readX st k rs
    let bytes := fun (n : Nat) => (List.range n).map fun i => v.extractLsb' (8 * i) 8
    let after := s.goto st k (s.nextPc st k)
    let stores := fun (i : Instr) (n : Nat) =>
      (s.holds st pa = false → ∃ t, exec i s = .next t ∧ Stored s t after key pa (bytes n))
      ∧ (s.holds st pa = true → s.storeFits st k pa n = true → ∀ task, (s.strand st).task = some task →
          ∃ t, exec i s = .next t ∧ HeldStore s t after st k task key pa (bytes n))
    (∀ z imm, va = s.readX st k rs1 + imm.signExtend 64 → Reaches s st k .store va (StSize.bytes z) pa → Plain s pa (StSize.bytes z) →
      stores (.st z rs rs1 imm) (StSize.bytes z))
    ∧ (∀ z lit, va = s.readX st k rs1 + lit → Reaches s st k .store va (StSize.bytes z) pa → Plain s pa (StSize.bytes z) →
      stores (.stLit z rs rs1 lit) (StSize.bytes z))
    ∧ (∀ sc d, va = s.readX st k rs1 → Reaches s st k .store va (if d then 8 else 4) pa → Plain s pa (if d then 8 else 4) →
      s.anyPoison st k pa (if d then 8 else 4) = false → s.fenced st k sc = true → stores (.stl sc d rs1 rs) (if d then 8 else 4))

/-- R310, R301, R307: an atomic that reaches its bytes at once returns the old value sign-extended and replaces it by the function of the old
value and the operand; a CAS whose old value is not the expected one writes nothing. An atomic that releases needs its release done;
one that acquires notes its acquire and changes nothing else by it. In D-mode no store to the bytes may be pending, `SWAP` and `CAS` act
on the core's own scratchpad alone, and `FADD32` does not complete. -/
def Obligations.AtomicResults : Prop :=
  ∀ (s : State) (st : Fin 4) (k : StreamId) (rd rs1 rs2 : Reg) (pa : Nat) (sc : Scope) (o : Order) (d : Bool),
    s.cur.agent = .stream st k → (o = .rl ∨ o = .ar → s.fenced st k sc = true) →
    let n := if d then 8 else 4
    let w := 8 * n
    Reaches s st k .store (s.readX st k rs1) n pa → Plain s pa n → s.anyPoison st k pa n = false →
    ((s.strand st).det = true → s.pendingAt pa n = false) →
    let key := s.slotKey (s.acc st).key
    let old := leNat (s.view (some (st, k)) key pa n)
    let arg := (s.readX st k rs2).toNat % 2 ^ w
    let expect := (s.readX st k rd).toNat % 2 ^ w
    let sv : Nat → Int := fun x => if 2 ^ (w - 1) ≤ x then (x : Int) - (2 ^ w : Nat) else (x : Int)
    let done := s.done st k rd (BitVec.ofInt 64 (sv old))
    let ret := if o = .aq ∨ o = .ar then done.acquired st k else done
    let becomes := fun (i : Instr) (new : Nat) => ∃ t, exec i s = .next t ∧ Stored s t ret key pa (leBytes n new)
    becomes (.amoAdd sc o d rd rs1 rs2) ((old + arg) % 2 ^ w)
    ∧ becomes (.amoAnd sc o d rd rs1 rs2) (old &&& arg)
    ∧ becomes (.amoOr sc o d rd rs1 rs2) (old ||| arg)
    ∧ becomes (.amoXor sc o d rd rs1 rs2) (old ^^^ arg)
    ∧ becomes (.amoMin sc o d rd rs1 rs2) (if sv old < sv arg then old else arg)
    ∧ becomes (.amoMax sc o d rd rs1 rs2) (if sv old < sv arg then arg else old)
    ∧ becomes (.amoMinu sc o d rd rs1 rs2) (if old < arg then old else arg)
    ∧ becomes (.amoMaxu sc o d rd rs1 rs2) (if old < arg then arg else old)
    ∧ ((s.strand st).det = false ∨ s.ownScr pa = true →
        becomes (.amoSwap sc o d rd rs1 rs2) arg
        ∧ (old = expect → becomes (.cas sc o d rd rs1 rs2) arg)
        ∧ (old ≠ expect → exec (.cas sc o d rd rs1 rs2) s = .next ret))
    ∧ ((s.strand st).det = false → d = false → paType pa ≠ 3 → paType pa ≠ 4 →
        becomes (.amoFadd32 sc o rd rs1 rs2) (Fmt.fp32.fadd 0 old arg).1)

/-- R286, R310, R169, R337, R339: where a scalar access parks or traps. One whose address is not a multiple of its size traps `MISALIGN` with
`TVAL` its address: every load, store and atomic, and every `WAITA`, whose word is eight bytes. R116, R99, R100, R111, R152: one whose
translation faults parks its strand for the supervisor where the cause is `SPAGE` and takes `PROT` or `SCRATCH_BOUNDS` to its handler where it is that one.
R305: a store of D-mode whose new lines do not fit the share of its logical core traps `DRAIN_FULL`. R103: a load, an atomic, a releasing store or a `WAITA` that reads a
poisoned granule parks the strand with `POISON` and the granule's address. Then what translation on the scalar port answers: `SPAGE` for an address that
is not canonical or whose leaf does not permit the access; `PROT` for a target of a type that no strand reaches, outside the limits of its type, or whose key slot is
cleared; `SCRATCH_BOUNDS` for an offset in neither partition of the strand; else the PA. -/
def Obligations.ScalarAccessTraps : Prop :=
  (∀ (s : State) (st : Fin 4) (k : StreamId) (rd rs rs1 : Reg) (imm : BitVec 11) (lit : W64),
    s.cur.agent = .stream st k → s.memBusy st k = false → (k = .E → (s.strand st).viq = []) →
    let pc := (s.stream st k).pc
    let va := s.readX st k rs1
    -- every form with its address, its size, what it needs of the leaf, and when it reads its bytes at once
    let stores := fun (P : Instr → W64 → Nat → Prop) =>
      (∀ z, P (.st z rs rs1 imm) (va + imm.signExtend 64) (StSize.bytes z) ∧ P (.stLit z rs rs1 lit) (va + lit) (StSize.bytes z))
    let loads := fun (P : Instr → W64 → Nat → Prop) =>
      (∀ z, P (.ld z rd rs1 imm) (va + imm.signExtend 64) (LdSize.bytes z) ∧ P (.ldLit z rd rs1 lit) (va + lit) (LdSize.bytes z))
      ∧ (∀ sc (d : Bool), P (.lda sc d rd rs1) va (if d then 8 else 4))
      ∧ ∀ sc tmo, P (.waitaEq sc tmo rd rs1 rs) va 8 ∧ P (.waitaNe sc tmo rd rs1 rs) va 8 ∧ P (.waitaGeu sc tmo rd rs1 rs) va 8
    let releases := fun (P : Instr → W64 → Nat → Scope → Prop) => ∀ sc (d : Bool), P (.stl sc d rs1 rs) va (if d then 8 else 4) sc
    let atomics := fun (P : Instr → W64 → Nat → Scope → Order → Bool → Bool → Prop) => ∀ sc o (d : Bool), let n := if d then 8 else 4
      P (.amoAdd sc o d rd rs1 rs) va n sc o false false ∧ P (.amoAnd sc o d rd rs1 rs) va n sc o false false
      ∧ P (.amoOr sc o d rd rs1 rs) va n sc o false false ∧ P (.amoXor sc o d rd rs1 rs) va n sc o false false
      ∧ P (.amoMin sc o d rd rs1 rs) va n sc o false false ∧ P (.amoMax sc o d rd rs1 rs) va n sc o false false
      ∧ P (.amoMinu sc o d rd rs1 rs) va n sc o false false ∧ P (.amoMaxu sc o d rd rs1 rs) va n sc o false false
      ∧ P (.amoSwap sc o d rd rs1 rs) va n sc o true false ∧ P (.cas sc o d rd rs1 rs) va n sc o true false
      ∧ P (.amoFadd32 sc o rd rs1 rs) va 4 sc o false true
    let all := fun (P : Need → Instr → W64 → Nat → Prop) =>
      stores (P .store) ∧ loads (P .load) ∧ (releases fun i a n _ => P .store i a n) ∧ atomics fun i a n _ _ _ _ => P .store i a n
    let traps := fun (i : Instr) (cause : Byte) (tval : W64) =>
      ∃ t, exec i s = .next t ∧ AtHandler (s.strand st) (t.strand st) k cause pc tval false false
    let parks := fun (i : Instr) (cause : Byte) (tval : W64) => ∃ t, exec i s = .next t ∧ ParkedFor s t st k cause pc tval
    let poisons := fun (need : Need) (also : Nat → Prop) (i : Instr) (a : W64) (n : Nat) => ∀ pa, a.toNat % n = 0 →
      s.scaXlate st k a need = .ok pa → s.heldAt pa = false → also pa → s.anyPoison st k pa n = true →
      parks i 0x08 (BitVec.ofNat 64 (a.toNat / 64 * 64))
    let full := fun (i : Instr) (a : W64) (n : Nat) => ∀ pa lines, CanTrap s st lines → a.toNat % n = 0 →
      s.scaXlate st k a .store = .ok pa → s.storeFits st k pa n = false → traps i 0x24 a
    (∀ lines, CanTrap s st lines → all fun _ i a n => a.toNat % n ≠ 0 → traps i 0x03 a)
    ∧ (all fun need i a n => ∀ f, a.toNat % n = 0 → s.scaXlate st k a need = .error f →
        (f.cause = 0x06 → parks i 0x06 f.tval)
        ∧ ∀ lines, CanTrap s st lines → f.cause = 0x05 ∨ f.cause = 0x07 → traps i f.cause f.tval)
    ∧ loads (poisons .load fun _ => True)
    ∧ (releases fun i a n sc => poisons .store (fun pa => s.holds st pa = false ∧ s.fenced st k sc = true) i a n)
    ∧ (atomics fun i a n sc o swaps fadd => poisons .store (fun pa => (o = .rl ∨ o = .ar → s.fenced st k sc = true)
        ∧ ((s.strand st).det = true → s.pendingAt pa n = false ∧ fadd = false ∧ (swaps = true → s.ownScr pa = true))
        ∧ (fadd = true → paType pa ≠ 3 ∧ paType pa ≠ 4)) i a n)
    ∧ stores full ∧ releases fun i a n _ => full i a n)
  ∧ ∀ (s : State) (st : Fin 4) (k : StreamId) (va : W64) (need : Need),
      let spage : Except Fa Nat := .error { cause := 0x06, tval := va, va := va }
      let fails := fun (cause : Byte) (tval : W64) => s.scaXlate st k va need = .error { cause := cause, tval := tval, va := va }
      (canonical va = false → s.scaXlate st k va need = spage)
      ∧ ∀ e, canonical va = true → tlbHit (s.stream st k).tlb va = some e →
          let a := s.acc st
          let pa := leafPa e.pte va e.level
          let low := pa % 2 ^ 52
          (leafOk e.pte need = false → s.scaXlate st k va need = spage)
          ∧ (leafOk e.pte need = true →
              (5 ≤ paType pa → fails 0x05 (BitVec.ofNat 64 pa))
              ∧ (paType pa = 0 → 1536 * 2 ^ 30 ≤ low → fails 0x05 (BitVec.ofNat 64 pa))
              ∧ (paType pa = 0 → low < 1536 * 2 ^ 30 → s.keyless a.key = true → fails 0x05 va)
              ∧ (paType pa = 0 → low < 1536 * 2 ^ 30 → s.keyless a.key = false → s.scaXlate st k va need = .ok pa)
              ∧ (paType pa = 1 → 2 ^ 30 ≤ low → fails 0x05 (BitVec.ofNat 64 pa))
              ∧ (paType pa = 1 → low < 2 ^ 30 → s.scaXlate st k va need = .ok pa)
              ∧ (paType pa = 2 → 2 ^ 22 ≤ low → fails 0x05 (BitVec.ofNat 64 pa))
              ∧ (paType pa = 2 → low < 2 ^ 22 → a.inside low = false → fails 0x07 (BitVec.ofNat 64 low))
              ∧ (paType pa = 2 → low < 2 ^ 22 → a.inside low = true → s.scaXlate st k va need = .ok (s.scrBase + low))
              ∧ (paType pa = 3 ∨ paType pa = 4 → match s.window (paType pa == 4) (low / 2 ^ 40) with
                  | some w => if low % 2 ^ 40 < w.len then s.scaXlate st k va need = .ok pa else fails 0x05 (BitVec.ofNat 64 pa)
                  | none => fails 0x05 (BitVec.ofNat 64 pa)))

/-- R103, R110: bytes written at a PA under a key read back under that key; no other byte changes under that key, and no byte of a granule
that the write does not meet under any. -/
def Obligations.ReadAfterWrite : Prop :=
  ∀ (s : State) (key pa : Nat) (bs : List Byte), s.lostAt pa = false → key < 2 ^ 513 →
    (∀ i (h : i < bs.length), (s.putBytes key pa bs).homeByte key (pa + i) = bs[i])
    ∧ (∀ a, ¬ (pa ≤ a ∧ a < pa + bs.length) → (s.putBytes key pa bs).homeByte key a = s.homeByte key a)
    ∧ ∀ key' a, a / 64 < pa / 64 ∨ (pa + bs.length - 1) / 64 < a / 64 → (s.putBytes key pa bs).homeByte key' a = s.homeByte key' a

/-! ### Control flow and queues -/

/-- R287 to R289, R56, R59: BR goes to pc + 4 × offset when its condition holds and to the next instruction when it does not, in both its
forms; J and JR write the next sequential PC to xd and jump; JR computes its target before it writes xd, and traps `MISALIGN` with no
effect where it is not a multiple of 4. -/
def Obligations.ControlTargets : Prop :=
  (∀ (s : State) (st : Fin 4) (k : StreamId) (rs1 rs2 : Reg) (off : BitVec 11) (lit : W64), s.cur.agent = .stream st k →
      let a := s.readX st k rs1
      let b := s.readX st k rs2
      let pc := (s.stream st k).pc
      let goes := fun (c : Cond) (holds : Prop) =>
        (holds → GoesTo s st k (.br c rs1 rs2 off) (pc + 4 * off.signExtend 64) ∧ GoesTo s st k (.brLit c rs1 rs2 lit) (pc + 4 * lit))
        ∧ (¬ holds → GoesTo s st k (.br c rs1 rs2 off) (s.nextPc st k) ∧ GoesTo s st k (.brLit c rs1 rs2 lit) (s.nextPc st k))
      goes .eq (a = b) ∧ goes .ne (a ≠ b) ∧ goes .lt (a.toInt < b.toInt) ∧ goes .ge (b.toInt ≤ a.toInt)
      ∧ goes .ltu (a.toNat < b.toNat) ∧ goes .geu (b.toNat ≤ a.toNat))
  ∧ (∀ (s : State) (st : Fin 4) (k : StreamId) (rd rs1 : Reg) (off : BitVec 19) (imm : BitVec 11) (lit : W64),
      s.cur.agent = .stream st k →
      let pc := (s.stream st k).pc
      let x := s.readX st k rs1
      GivesAt s st k rd (.j rd off) (s.nextPc st k) (pc + 4 * off.signExtend 64)
      ∧ GivesAt s st k rd (.jLit rd lit) (s.nextPc st k) (pc + 4 * lit)
      ∧ ((x + imm.signExtend 64).toNat % 4 = 0 → GivesAt s st k rd (.jr rd rs1 imm) (s.nextPc st k) (x + imm.signExtend 64))
      ∧ ((x + lit).toNat % 4 = 0 → GivesAt s st k rd (.jrLit rd rs1 lit) (s.nextPc st k) (x + lit)))
  ∧ (∀ (s : State) (st : Fin 4) (k : StreamId) (rd rs1 : Reg) (imm : BitVec 11) (lit : W64) (lines : List Nat),
      s.cur.agent = .stream st k → (k = .E → (s.strand st).viq = []) → CanTrap s st lines →
      let traps := fun (i : Instr) (va : W64) =>
        ∃ t, exec i s = .next t ∧ AtHandler (s.strand st) (t.strand st) k 0x03 (s.stream st k).pc va false false
      ((s.readX st k rs1 + imm.signExtend 64).toNat % 4 ≠ 0 → traps (.jr rd rs1 imm) (s.readX st k rs1 + imm.signExtend 64))
      ∧ ((s.readX st k rs1 + lit).toNat % 4 ≠ 0 → traps (.jrLit rd rs1 lit) (s.readX st k rs1 + lit)))

/-- R272, R273, R290, R291: a send that finds room appends X[xs], a branch send whether X[xs] is non-zero; a receive that finds an entry
takes the oldest; QCNT gives the count without blocking; BRQ takes the oldest bit of the stream's inbound branch queue, q6 for the
E-stream and q7 for the A-stream, and branches when the bit is 1, under `.not` when it is 0. A receive and a BRQ acquire what was sent with
the entry (R274, R300). No other queue and no other register changes. R276: when one stream blocks in a queue while the other is blocked too or has ended, with no handler and no VIQ entry, the
strand takes `QDEADLOCK` with the pair's `TVAL`: here a receive on an empty queue. -/
def Obligations.QueueTransfers : Prop :=
  ((∀ (s : State) (st : Fin 4) (k : StreamId) (rs rd : Reg) (q : Fin 6), s.cur.agent = .stream st k →
        let x := s.strand st
        let n : BitVec 3 := BitVec.ofNat 3 q.val
        let v := s.readX st k rs
        (x.tstatus.getLsbD 0 = false → (k = .A ↔ q.val < 4) → (x.q.get q).length < 16 → s.sendBusy st k = false →
          exec (.qsend n rs) s =
            .next ((s.modStrand st fun y => { y with q := y.q.set q.val (y.q.get q ++ [v]) q.isLt }).goto st k (s.nextPc st k)))
        ∧ (∀ head tail, x.tstatus.getLsbD 0 = false → (k = .E ↔ q.val < 4) → x.q.get q = head :: tail →
          exec (.qrecv rd n) s = .next (((s.modStrand st fun y => { y with q := y.q.set q.val tail q.isLt }).done st k rd head).acquired st k))
        ∧ (x.tstatus.getLsbD 0 = false → k = .A → x.q6.length < 64 → s.sendBusy st k = false →
          exec (.qsendb 6 rs) s = .next ((s.modStrand st fun y => { y with q6 := y.q6 ++ [decide (v ≠ 0)] }).goto st k (s.nextPc st k)))
        ∧ (x.tstatus.getLsbD 0 = false → k = .E → x.q7.length < 64 → s.sendBusy st k = false →
          exec (.qsendb 7 rs) s = .next ((s.modStrand st fun y => { y with q7 := y.q7 ++ [decide (v ≠ 0)] }).goto st k (s.nextPc st k)))
        ∧ Gives s st k rd (.qcnt rd n) (BitVec.ofNat 64 (x.q.get q).length)
        ∧ Gives s st k rd (.qcnt rd 6) (BitVec.ofNat 64 x.q6.length) ∧ Gives s st k rd (.qcnt rd 7) (BitVec.ofNat 64 x.q7.length))
    ∧ (∀ (s : State) (st : Fin 4) (k : StreamId) (neg bit : Bool) (rest : List Bool) (off : BitVec 11) (lit : W64),
        s.cur.agent = .stream st k → (s.strand st).tstatus.getLsbD 0 = false →
        (k = .E → (s.strand st).q6 = bit :: rest) → (k = .A → (s.strand st).q7 = bit :: rest) →
        let pc := (s.stream st k).pc
        let popped := s.modStrand st fun x => match k with
          | .E => { x with q6 := rest }
          | .A => { x with q7 := rest }
        let next := fun (o : W64) => (popped.goto st k (if bit = neg then s.nextPc st k else pc + 4 * o)).acquired st k
        exec (.brq neg off) s = .next (next (off.signExtend 64)) ∧ exec (.brqLit neg lit) s = .next (next lit)))
  ∧ (∀ (s : State) (st : Fin 4) (rd : Reg) (q : Fin 4) (lines : List Nat), s.cur.agent = .stream st .E →
      (s.strand st).q.get ⟨q.val, by omega⟩ = [] → (s.strand st).a.status = .ended → (s.strand st).viq = [] →
      (s.strand st).halt = .none → (s.strand st).pendFault = [] → (s.stream st .E).status = .run → CanTrap s st lines →
      ∃ t, exec (.qrecv rd (BitVec.ofNat 3 q.val)) s = .next t
        ∧ AtHandler (s.strand st) (t.strand st) .E 0x20 (s.stream st .E).pc (0x80#64 ||| BitVec.ofNat 64 q.val) false false)


/-! ### System registers -/

/-- R349, R351, R352: SYSR of a register that is neither privileged nor closed to the stream gives its value; reads of `VSTATUS`,
`VSTART` and `VFCNT` only once the strand's VIQ, and for `VSTATUS` its matrix work, are done. Nothing else changes. -/
def Obligations.SystemReads : Prop :=
  ∀ (s : State) (st : Fin 4) (k : StreamId) (rd : Reg), s.cur.agent = .stream st k →
    let x := s.strand st
    let y := s.stream st k
    let reads := fun (n : Nat) (v : W64) => Gives s st k rd (.sysr rd (BitVec.ofNat 11 n)) v
    (k = .E → reads 0x000 x.vtype ∧ reads 0x001 (x.vlc.setWidth 64) ∧ reads 0x002 (x.vlr.setWidth 64) ∧ reads 0x006 x.vcp)
    ∧ reads 0x007 y.sfctl ∧ reads 0x010 x.tcause ∧ reads 0x011 x.tpc ∧ reads 0x012 x.tval ∧ reads 0x013 x.tvec
    ∧ reads 0x014 x.tframe ∧ reads 0x015 x.tstatus ∧ reads 0x020 x.wid ∧ reads 0x021 x.teamix ∧ reads 0x022 x.lnchid
    ∧ reads 0x023 x.lcore ∧ reads 0x024 (BitVec.ofNat 64 st.val) ∧ reads 0x030 x.platbase ∧ reads 0x031 x.platsize
    ∧ reads 0x032 x.spbase ∧ reads 0x033 x.spsize ∧ reads 0x040 x.latshare ∧ reads 0x043 (BitVec.ofNat 64 (s.pcapNow st))
    ∧ reads 0x050 s.cycle ∧ reads 0x051 y.instret ∧ reads 0x052 x.bankser ∧ reads 0x060 iver ∧ reads 0x061 0x00F60CF4
    ∧ reads 0x071 x.dmode ∧ (∀ n : Fin 8, reads (0x100 + n.val) (x.fr.get n))
    ∧ (k = .E → x.viq = [] → Gives s st k rd (.vstartRead rd) x.vstart ∧ Gives s st k rd (.vfcntRead rd) (BitVec.ofNat 64 x.vfcnt))
    ∧ (k = .E → x.viq = [] → s.mat.mq = [] → Gives s st k rd (.vstatusRead rd) x.vstatus)

/-- R349, R351, R4, R80, R83, R342, R193: SYSW of a register that programs write, with a value without a reserved bit or value, replaces
the register and nothing else; inh of `TSTATUS` keeps its value, and `VFCNT` is cleared by a write of 0 and kept by any other. -/
def Obligations.SystemWrites : Prop :=
  ∀ (s : State) (st : Fin 4) (k : StreamId) (rs : Reg), s.cur.agent = .stream st k →
    let v := s.readX st k rs
    let x := s.strand st
    let puts := fun (i : Instr) (f : Strand → Strand) => exec i s = .next ((s.modStrand st f).goto st k (s.nextPc st k))
    let w := fun (n : Nat) => Instr.sysw (BitVec.ofNat 11 n) rs
    (v.toNat < 2 ^ 8 → puts (w 0x010) fun y => { y with tcause := v })
    ∧ (puts (w 0x011) fun y => { y with tpc := v })
    ∧ (puts (w 0x012) fun y => { y with tval := v })
    ∧ (v.toNat % 4 = 0 → puts (w 0x013) fun y => { y with tvec := v })
    ∧ (v.toNat % 64 = 0 → puts (w 0x014) fun y => { y with tframe := v })
    ∧ (v.toNat < 2 ^ 8 → v.toNat / 2 ^ 5 < 5 → puts (w 0x007) fun y => y.modStream k fun t => { t with sfctl := v })
    ∧ (v.toNat < 2 ^ 6 → puts (.tstatusWrite rs) fun y =>
        { y with tstatus := (v &&& 0xFFFFFFFFFFFFFFFE) ||| (y.tstatus &&& 1) })
    ∧ (∀ n : BitVec 3, frLegal v = true → puts (.frset n rs) fun y => { y with fr := y.fr.set n.toNat v n.isLt })
    ∧ (k = .E → vtypeOk v = true → v.extractLsb' 0 3 = x.vtype.extractLsb' 0 3 → v.extractLsb' 9 3 = x.vtype.extractLsb' 9 3 →
        puts (.vtypeWrite rs) fun y => { y with vtype := v })
    ∧ (k = .E → x.viq = [] → v.toNat < 2 ^ 16 → puts (.vstartWrite rs) fun y => { y with vstart := v })
    ∧ (k = .E → x.viq = [] → v = 0 → puts (.vfcntWrite rs) fun y => { y with mask := 0 })
    ∧ (k = .E → x.viq = [] → v ≠ 0 → v.toNat < 2 ^ 16 → puts (.vfcntWrite rs) fun y => y)
    ∧ (k = .E → x.viq = [] → s.mat.mq = [] → vstatusOk v = true → puts (.vstatusWrite rs) fun y => { y with vstatus := v })

/-- R351, R339, R112, R113, R183, R104: an access of a strand to a privileged register, 0x041, 0x042, 0x070 or 0x080, has no effect on
it: the strand is parked for the supervisor with `PRIV` and `TVAL` the register's number; the supervisor's writes set `ASPACE` of a
strand whose accesses are done, `VLCAP` of a strand between tasks (R181), `PWRLIM`, and the control registers of a stack; a reserved value
or bit leaves the register as it was and traps `ILLEGAL` with subcode 0x19 on the supervisor core, whose instruction word is not in the
module: 0 in `TVAL` (log 105). -/
def Obligations.PrivilegedRegisters : Prop :=
  (∀ (s : State) (st : Fin 4) (k : StreamId) (r : Reg) (n : Nat), s.cur.agent = .stream st k →
      n = 0x041 ∨ n = 0x042 ∨ n = 0x070 ∨ n = 0x080 → (k = .E → (s.strand st).viq = []) →
      ∀ i, i = .sysr r (BitVec.ofNat 11 n) ∨ i = .sysw (BitVec.ofNat 11 n) r →
        ∃ t, exec i s = .next t ∧ ParkedFor s t st k 0x02 (s.stream st k).pc (BitVec.ofNat 64 n)
          ∧ (t.strand st).vlcap = (s.strand st).vlcap ∧ (t.strand st).aspace = (s.strand st).aspace
          ∧ t.pwrlim = s.pwrlim ∧ t.seed = s.seed)
  ∧ (∀ (s : State) (st : Fin 4) (n : Fin 24) (v : W64),
      let trapped := { s with supTraps := s.supTraps ++ [{ cause := 0x01, tval := illVal 0x19 0 }] }
      (v.extractLsb' 18 2 = 0 → s.spaceQuiet st = true → exec (.aspaceWrite st v) s = .next (s.modStrand st fun x =>
        { x with aspace := v, a := { x.a with tlb := [] }, e := { x.e with tlb := [] } }))
      ∧ (v.extractLsb' 18 2 ≠ 0 → exec (.aspaceWrite st v) s = .next trapped)
      ∧ (v.toNat ≤ 6 → (s.strand st).betweenTasks = true → exec (.vlcapWrite st v) s = .next (s.modStrand st fun x => { x with vlcap := v }))
      ∧ (6 < v.toNat → exec (.vlcapWrite st v) s = .next trapped)
      ∧ (1 ≤ v.toNat → v.toNat ≤ 16 → exec (.pwrlimWrite v) s = .next { s with pwrlim := v })
      ∧ ((v.toNat = 0 ∨ 16 < v.toNat) → exec (.pwrlimWrite v) s = .next trapped)
      ∧ (stkrefOk v = true → (v.getLsbD 31 && !(s.stks.get n).stkref.getLsbD 31) = false →
        exec (.stkrefWrite n v) s = .next (s.modStack n fun y => { y with stkref := v }))
      ∧ (stkrefOk v = true → v.getLsbD 31 = true → (s.stks.get n).stkref.getLsbD 31 = false →
        exec (.stkrefWrite n v) s = .next (s.modStack n fun y =>
          { y with stkref := v, gen := if v.toNat / 2 ^ 32 = 0 then 1 else BitVec.ofNat 64 (v.toNat / 2 ^ 32), steps := 0 }))
      ∧ (stkrefOk v = false → exec (.stkrefWrite n v) s = .next { s with sent := s.sent ++ [.mmioError n.val] })
      ∧ exec (.stkeccWrite n 0) s = .next (s.modStack n fun y => { y with stkecc := 0 }))


/-! ### Traps and their return -/

/-- R353, R338, R342, R343: TRAP outside a handler takes USER with `TVAL` X[xs1] on the handler path: the trap registers, the stream at
`TVEC`, the frame with its resume PC behind the word at `TFRAME`, and nothing else of memory and no other strand changed. -/
def Obligations.TrapTaken : Prop :=
  ∀ (s : State) (st : Fin 4) (k : StreamId) (rs1 : Reg) (lines : List Nat), s.cur.agent = .stream st k →
    (k = .E → (s.strand st).viq = []) → CanTrap s st lines →
    lines.Nodup → (∀ pa ∈ lines, pa % 64 = 0 ∧ Plain s pa 64) →
    let x := s.strand st
    let v := s.readX st k rs1
    let pc := (s.stream st k).pc
    let apc := if k = .A then s.nextPc st k else resumePc x.a
    let epc := if k = .E then s.nextPc st k else resumePc x.e
    let frame := frameBytes (x.trapRegs k 0x3F pc v false false) apc epc
    ∃ t, exec (.trap rs1) s = .next t ∧ AtHandler x (t.strand st) k 0x3F pc v false false
      ∧ (∀ u, u ≠ st → t.strand u = s.strand u)
      ∧ (∀ j (h : j < lines.length) i, i < 64 → t.homeByte 0 (lines[j] + i) = frame.getD (64 * j + i) 0)
      ∧ ∀ key a, (∀ pa ∈ lines, ¬ (pa ≤ a ∧ a < pa + 64)) → t.homeByte key a = s.homeByte key a

/-- R340, R353, R354: TRAP inside a handler ends the launch as TRAPPED, with the cause in the low byte of its detail and the low half of
the WID in the high half; that the trap registers stand written there is the model's reading (log 73). TRET outside a handler traps `ILLEGAL` 0x1A. -/
def Obligations.MisplacedTraps : Prop :=
  (∀ (s : State) (st : Fin 4) (k : StreamId) (rs1 : Reg) (task : Task) (l : Launch), s.cur.agent = .stream st k →
      (k = .E → (s.strand st).viq = []) → (s.strand st).tstatus.getLsbD 0 = true →
      (s.strand st).task = some task → s.launch task.launch = some l → l.phase = .running →
      ∃ t, exec (.trap rs1) s = .next t
        ∧ t.launch task.launch = some { l with phase := .ending 0x11, detail := ((s.strand st).wid <<< 32) ||| 0x3F }
        ∧ (t.strand st).e.status = .ended ∧ (t.strand st).viq = [] ∧ SameBytes s t
        ∧ (t.strand st).tcause = 0x3F ∧ (t.strand st).tpc = (s.stream st k).pc ∧ (t.strand st).tval = s.readX st k rs1)
  ∧ (∀ (s : State) (st : Fin 4) (k : StreamId) (lines : List Nat), s.cur.agent = .stream st k →
      (k = .E → (s.strand st).viq = []) → CanTrap s st lines →
      ∃ t, exec .tret s = .next t
        ∧ AtHandler (s.strand st) (t.strand st) k 0x01 (s.stream st k).pc ((s.w0 ++ 0x1A#32 : W64)) false false)

/-- R343: where the frame holds what it holds. -/
def Obligations.FrameLayout : Prop :=
  ∀ (x : Strand) (apc epc : W64), x.viq.length ≤ 64 → (∀ q, (x.q.get q).length ≤ 16) → x.q6.length ≤ 64 → x.q7.length ≤ 64 →
    (∀ e ∈ x.viq, e.words.length ≤ 5 ∧ (bldWord (e.words.headD 0) = true → e.words.length ≤ 3)) → x.begun = false →
    let f := frameBytes x apc epc
    f.length = 10240
    ∧ frameWord f 0x00 = x.tstatus ∧ frameWord f 0x08 = x.tcause ∧ frameWord f 0x10 = x.tpc ∧ frameWord f 0x18 = x.tval
    ∧ frameWord f 0x20 = apc ∧ frameWord f 0x28 = epc ∧ frameWord f 0x30 = x.vtype ∧ frameWord f 0x38 = x.vlr.setWidth 64
    ∧ frameWord f 0x40 = x.vlc.setWidth 64 ∧ frameWord f 0x48 = x.vstart ∧ frameWord f 0x58 = x.vstatus
    ∧ frameWord f 0x60 = x.a.sfctl ∧ frameWord f 0x68 = x.e.sfctl ∧ frameWord f 0x70 = BitVec.ofNat 64 x.viq.length
    ∧ (∀ i : Fin 32, frameWord f (0x100 + 8 * i.val) = x.a.x.get i ∧ frameWord f (0x200 + 8 * i.val) = x.e.x.get i)
    ∧ (∀ q : Fin 6, frameNat f (0xC0 + q.val) 1 = (x.q.get q).length
        ∧ ∀ j (h : j < (x.q.get q).length), frameWord f (0x300 + 128 * q.val + 8 * j) = (x.q.get q)[j])
    ∧ (∀ j (h : j < x.viq.length), frameWord f (0x800 + 64 * j) = (x.viq[j]).pc)
    ∧ frameNat f 0x1800 4096 = x.mask.toNat

/-- R354, R343: a frame that a handler has not edited passes the checks of TRET, and TRET brings back what the trap found: both streams
at their resume PCs with their registers, the grant, the queues and `VSTATUS`. -/
def Obligations.TrapRoundTrip : Prop :=
  ∀ (x : Strand) (k : StreamId) (cause : Byte) (tpc tval apc epc : W64) (now later : Nat), x.viq = [] → x.mask = 0 →
    (∀ q, (x.q.get q).length ≤ 16) → x.q6.length ≤ 64 → x.q7.length ≤ 64 → x.vstart.toNat ≤ 32767 → vtypeOk x.vtype = true →
    vstatusOk x.vstatus = true → sfctlOk x.a.sfctl = true → sfctlOk x.e.sfctl = true → x.a.status = .run → x.e.status = .run →
    x.a.owes = none → x.e.owes = none →
    let y := x.trapRegs k cause tpc tval false false
    let f := frameBytes y apc epc
    let h := y.atHandler k now
    let z := h.restore f later
    h.frameOk f = true
    ∧ z.a.pc = apc ∧ z.e.pc = epc ∧ (∀ r, z.a.readX r = x.a.readX r ∧ z.e.readX r = x.e.readX r)
    ∧ z.a.sfctl = x.a.sfctl ∧ z.e.sfctl = x.e.sfctl ∧ z.a.status = .run ∧ z.e.status = .run
    ∧ z.vtype = x.vtype ∧ z.vlr = x.vlr ∧ z.vlc = x.vlc ∧ z.vstart = x.vstart ∧ z.vstatus = x.vstatus ∧ z.latshare = x.latshare
    ∧ z.q = x.q ∧ z.q6 = x.q6 ∧ z.q7 = x.q7 ∧ z.viq = [] ∧ z.mask = 0 ∧ z.v = x.v ∧ z.p = x.p ∧ z.o = x.o
    ∧ z.tstatus.getLsbD 0 = false ∧ z.tcause = cause.setWidth 64 ∧ z.tpc = tpc ∧ z.tval = tval

/-- R354: TRET inside a handler, with a frame that can be read and passes the checks, restores the strand from it. -/
def Obligations.TrapReturns : Prop :=
  ∀ (s : State) (st : Fin 4) (k : StreamId) (lines : List Nat), s.cur.agent = .stream st k →
    let x := s.strand st
    let f := lines.flatMap fun pa => s.view (some (st, k)) (s.slotKey x.acc.key) pa 64
    x.tstatus.getLsbD 0 = true → (k = .E → x.viq = []) → s.away st .A = false → s.away st .E = false →
    s.frameLines x.acc x.tframe true false = .ok lines →
    (∀ pa ∈ lines, s.heldAt pa = false ∧ s.anyPoison st k pa 64 = false) → x.frameOk f = true →
    (x.a.over = false → frameNat f 0x20 8 % 4 = 0) → (x.e.over = false → frameNat f 0x28 8 % 4 = 0) →
    exec .tret s = .next (s.modStrand st fun y => (y.restore f s.tick).modStream k fun t => { t with instret := t.instret + 1 })


/-! ### Waits, fences, barriers and ends -/

/-- R169: a WAITA whose word satisfies its condition ends with 1; one with a limit of 0 that does not, with 0; any other sleeps. A
sleeping stream that rereads a word which satisfies the condition ends with 1; one whose limit passes rereads its word too, and ends with 1
or with 0. R334, R335: BAR
leaves once its stream's accesses have performed at core scope and every other strand's task of the team has arrived or ended, and waits
otherwise; EXIT ends its stream, and with both streams ended discards the strand's queues. -/
def Obligations.WaitsAndExits : Prop :=
  (∀ (s : State) (st : Fin 4) (k : StreamId) (sc : Scope) (tmo : Bool) (rd rs1 rs2 : Reg) (pa : Nat),
      let b := fun (i : Nat) => s.viewByte (some (st, k)) (s.slotKey (s.acc st).key) (pa + i)
      let m : W64 := b 7 ++ b 6 ++ b 5 ++ b 4 ++ b 3 ++ b 2 ++ b 1 ++ b 0
      let meets := fun (c : WaitCond) (v : W64) => match c with
        | .eq => m = v
        | .ne => m ≠ v
        | .geu => v.toNat ≤ m.toNat
      (s.cur.agent = .stream st k → Reaches s st k .load (s.readX st k rs1) 8 pa → s.anyPoison st k pa 8 = false →
        let v := s.readX st k rs2
        let pc := (s.stream st k).pc + 4
        let rule := fun (c : WaitCond) (i : Instr) =>
          (meets c v → GivesAt s st k rd i 1 pc)
          ∧ (¬ meets c v → tmo = true → s.readX st k rd = 0 → GivesAt s st k rd i 0 pc)
          ∧ (¬ meets c v → tmo = false ∨ s.readX st k rd ≠ 0 →
            exec i s = .next (s.wait st k (.asleep { cond := c, va := s.readX st k rs1, val := v, rd := rd, timed := tmo, sent := 0 })))
        rule .eq (.waitaEq sc tmo rd rs1 rs2) ∧ rule .ne (.waitaNe sc tmo rd rs1 rs2) ∧ rule .geu (.waitaGeu sc tmo rd rs1 rs2))
      ∧ (∀ w : WaitOp, (s.stream st k).status = .asleep w → (s.strand st).halt = .none →
        s.scaXlate st k w.va .load = .ok pa → s.heldAt pa = false → s.anyPoison st k pa 8 = false →
        let pc := (s.stream st k).pc + 4
        (meets w.cond w.val → GivesAt s st k w.rd (.waitaWake st k) 1 pc)
        ∧ (w.timed = true → meets w.cond w.val → GivesAt s st k w.rd (.waitaTimeout st k) 1 pc)
        ∧ (w.timed = true → ¬ meets w.cond w.val → GivesAt s st k w.rd (.waitaTimeout st k) 0 pc)))
  ∧ (∀ (s : State) (st : Fin 4) (k : StreamId) (t : Task), s.cur.agent = .stream st k → (s.strand st).task = some t →
      let all := ∀ u, u ≠ st → (s.strand u).meetsBar t (s.strand st).bars = true
      (k = .E → s.fenced st .E .cor = true → all →
        exec .bar s = .next (((s.modStrand st fun x => { x with barIn := false, bars := x.bars + 1 }).goto st .E (s.nextPc st .E)).acquired st .E))
      ∧ (k = .E → s.fenced st .E .cor = true → ¬ all → exec .bar s = .next (s.modStrand st fun x => { x with barIn := true }))
      ∧ (k = .E → (s.strand st).viq ≠ [] → exec .exit s = .next s)
      ∧ ((k = .E → (s.strand st).viq = []) → (s.strand st).pendFault = [] → ((s.strand st).stream k.other).over = true →
        ∃ u, exec .exit s = .next u ∧ ((u.strand st).stream k).status = .ended ∧ ((u.strand st).stream k).pc = (s.stream st k).pc
          ∧ (∀ q, (u.strand st).q.get q = []) ∧ (u.strand st).q6 = [] ∧ (u.strand st).q7 = [] ∧ (u.strand st).live = false
          ∧ OnlyStrand s u st ∧ SameBytes s u)
      ∧ ((k = .E → (s.strand st).viq = []) → ((s.strand st).stream k.other).status = .run →
        ∃ u, exec .exit s = .next u ∧ ((u.strand st).stream k).status = .ended ∧ ((u.strand st).stream k).pc = (s.stream st k).pc
          ∧ (u.strand st).stream k.other = (s.strand st).stream k.other ∧ (u.strand st).q = (s.strand st).q
          ∧ (u.strand st).q6 = (s.strand st).q6 ∧ (u.strand st).q7 = (s.strand st).q7 ∧ (u.strand st).live = (s.strand st).live
          ∧ OnlyStrand s u st ∧ SameBytes s u))

/-- R355, R308, R309, R356: NOP, and a fence whose stream's earlier accesses have performed at its scope, only go on; VFENCE in D-mode
publishes the stream's held stores to its team, and IFENCE discards the stream's fetched words; a fence waits, with no effect, while an
earlier access of its stream has not performed at its scope. R121: VMFENCE on a supervisor core, once the accesses of the space have
performed, discards the leaves that streams of the space, the parked ones too, have cached and advances the generation of a resident space,
and of no other; an operand of more than 12 bits traps `ILLEGAL` 0x10 on that core; on a strand it traps `PRIV`. -/
def Obligations.FencesComplete : Prop :=
  ((∀ (s : State) (st : Fin 4) (k : StreamId) (sc : Scope), s.cur.agent = .stream st k →
        let next := fun (u : State) => (u.goto st k (s.nextPc st k)).acquired st k
        GoesTo s st k .nop (s.nextPc st k)
        ∧ (s.fenced st k sc = true → GoesTo s st k (.fence sc) (s.nextPc st k))
        ∧ (s.fenced st k .cor = true → (s.strand st).det = false → (k = .E → s.wcbHolds st = false) →
          GoesTo s st k .vfence (s.nextPc st k))
        ∧ (s.fenced st k .cor = true → (s.strand st).det = true →
          exec .vfence s = .next (next { s with held := s.held.map fun h =>
            if h.strand == st && h.stream == k && (s.strand st).task == some h.task then { h with pub := true } else h }))
        ∧ (s.fenced st k .cor = true → exec .ifence s = .next (next (s.modStream st k fun t => { t with ibuf := [] }))))
    ∧ (∀ (s : State) (st : Fin 4) (k : StreamId) (sc : Scope), s.cur.agent = .stream st k → s.fenced st k sc = false →
        exec (.fence sc) s = .next s))
  ∧ ((∀ (s : State) (v : W64) (r : Reg), s.cur.agent = .supervisor v →
      let a := v.extractLsb' 0 12
      (v.toNat < 2 ^ 12 → s.translatedDone a = true →
        ∃ t, exec (.vmfence r) s = .next t
          ∧ (∀ st, (s.strand st).inSpace a = true → (t.strand st).a.tlb = [] ∧ (t.strand st).e.tlb = [])
          ∧ (∀ st, (s.strand st).inSpace a = false → t.strand st = s.strand st)
          ∧ (∀ p ∈ t.parked, p.ctx.inSpace a = true → p.ctx.a.tlb = [] ∧ p.ctx.e.tlb = [])
          ∧ t.gens.get a.toNat = s.gens.get a.toNat + (if (s.space a).isSome then 1 else 0)
          ∧ (∀ b : BitVec 12, b ≠ a → t.gens.get b.toNat = s.gens.get b.toNat)
          ∧ t.spaces = s.spaces ∧ SameBytes s t)
      ∧ (2 ^ 12 ≤ v.toNat →
        exec (.vmfence r) s = .next { s with supTraps := s.supTraps ++ [{ cause := 0x01, tval := (s.w0 ++ 0x10#32 : W64) }] }))
    ∧ ∀ (s : State) (st : Fin 4) (k : StreamId) (r : Reg), s.cur.agent = .stream st k → (k = .E → (s.strand st).viq = []) →
      ∃ t, exec (.vmfence r) s = .next t ∧ ParkedFor s t st k 0x02 (s.stream st k).pc 0)

/-- R80, R178 to R180, R182, R185: SETL with a valid `VTYPE` sets `VTYPE`, `VLR` to the lesser of the rows asked for and G, and `VLC` to
the least of the columns asked for, VISMAX and, outside D-mode, what the share and the power cap of the strand hold; with a `VTYPE` that
holds a reserved value or bit it traps `FORMAT` with `TVAL` that value, and changes no grant. -/
def Obligations.SetlResults : Prop :=
  (∀ (s : State) (st : Fin 4) (rd rs1 rs2 : Reg) (vt : W32), s.cur.agent = .stream st .E → vtypeOk (vt.setWidth 64) = true →
      let x := s.strand st
      let rows := (s.readX st .E rs1).toNat
      let cols := (s.readX st .E rs2).toNat
      let sew := 4 * 2 ^ (vt.extractLsb' 0 3).toNat
      let g := 2 ^ (vt.extractLsb' 9 3).toNat
      let vismax := min 8192 (128 * 2 ^ (x.vlcap.extractLsb' 0 3).toNat) / sew
      let others := ([0, 1, 2, 3] : List (Fin 4)).filter fun i => i != st && ((s.strand i).live || s.parked.any fun p => p.st == i && p.ctx.live)
      let a := others.length + 1
      let share := 16 / a + if (others.filter fun i => decide (i < st)).length < 16 % a then 1 else 0
      let pc := max 1 ((s.pwrlim.extractLsb' 0 5).toNat / a)
      let grants := fun (vlc groups : Nat) =>
        exec (.setl rd rs1 rs2 vt) s = .next ((s.modStrand st fun y =>
          { y with vtype := vt.setWidth 64, cap := y.vlcap, vlr := BitVec.ofNat 5 (min rows g), vlc := BitVec.ofNat 16 vlc, live := vlc != 0,
                   latshare := BitVec.ofNat 64 groups }).done st .E rd (BitVec.ofNat 64 vlc))
      (cols = 0 → grants 0 0)
      ∧ (x.dmode.getLsbD 0 = false → 0 < cols → grants (min (min cols vismax) (min (share * 4096 / sew) (pc * 4096 / sew))) share)
      ∧ (x.dmode.getLsbD 0 = true → 0 < cols → grants (min cols vismax) (16 / s.tasksPerTeam st)))
  ∧ (∀ (s : State) (st : Fin 4) (rd rs1 rs2 : Reg) (vt : W32) (lines : List Nat), s.cur.agent = .stream st .E →
      vtypeOk (vt.setWidth 64) = false → (s.strand st).viq = [] → CanTrap s st lines →
      ∃ t, exec (.setl rd rs1 rs2 vt) s = .next t
        ∧ AtHandler (s.strand st) (t.strand st) .E 0x1B (s.stream st .E).pc (vt.setWidth 64) false false)


/-! ### Encoding -/

/-- R54 to R68: the words of a well-formed instruction decode to it, with every operand at every value that its encoding admits. -/
def Obligations.DecodeEncodeRoundTrip : Prop :=
  ∀ (i : Instr) (ws : List W32), i.wf = true → encode i = some ws → decode ws = .ok i

/-- R68: what decodes is well-formed, is no event, and its words are the only ones that decode to it. -/
def Obligations.DecodeIsWellFormed : Prop :=
  ∀ (ws : List W32) (i : Instr), decode ws = .ok i → i.wf = true ∧ i.isEvent = false ∧ encode i = some ws

/-- R54 to R68: words written out from the spec's encodings decode to the instructions that they stand for, and words that fail one
check of R68 are refused with its subcode. -/
def Obligations.DecodeWords : Prop :=
  decode [0#9 ++ 3#5 ++ 2#5 ++ 1#5 ++ 0x01#6 ++ 0#2] = .ok (.add false 1 2 3)
  ∧ decode [1#1 ++ 0#3 ++ 1#5 ++ 6#5 ++ 5#5 ++ 4#5 ++ 0x01#6 ++ 0#2] = .ok (.sub true 4 5 6)
  ∧ decode [0x7FF#11 ++ 0#3 ++ 2#5 ++ 1#5 ++ 0x02#6 ++ 0#2] = .ok (.addi 1 2 0x7FF)
  ∧ decode [0x010#11 ++ 3#3 ++ 2#5 ++ 1#5 ++ 0x05#6 ++ 0#2] = .ok (.ld .d 1 2 0x010)
  ∧ decode [0x008#11 ++ 3#3 ++ 2#5 ++ 9#5 ++ 0x06#6 ++ 0#2] = .ok (.st .d 9 2 0x008)
  ∧ decode [0x004#11 ++ 1#3 ++ 2#5 ++ 3#5 ++ 0x08#6 ++ 0#2] = .ok (.br .ne 3 2 0x004)
  ∧ decode [0x00001#19 ++ 1#5 ++ 0x09#6 ++ 0#2] = .ok (.j 1 0x00001)
  ∧ decode [0#3 ++ 5#7 ++ 4#7 ++ 3#7 ++ 0x13#6 ++ 0#2] = .ok (.vadd { vd := 3, vs1 := 4, vs2 := 5 })
  ∧ decode [0#32] = .error (.code 0x01)
  ∧ decode [0#9 ++ 3#5 ++ 2#5 ++ 1#5 ++ 0x01#6 ++ 1#2, 0#32, 0#32] = .error (.code 0x02)
  ∧ decode [0#1 ++ 7#3 ++ 0#5 ++ 3#5 ++ 2#5 ++ 1#5 ++ 0x01#6 ++ 0#2] = .error (.code 0x03)
  ∧ decode [0#3 ++ 5#7 ++ 4#7 ++ 0x50#7 ++ 0x13#6 ++ 0#2] = .error (.code 0x04)

/-! ### One step -/

/-- R69, R54, R55, R57: where it is the turn of a stream that may execute, holds no buffered words, and whose words in memory at its PC
can all be read, one step runs what they decode to, or takes the `ILLEGAL` of the check that they fail; an event's turn runs the event where
the functions that it needs are usable (R366) and it is no request of a session that must wait (R361). Around the instruction a step
advances the model's counts alone (log 4, log 7). Where its strand has left no plain load or store behind, the instruction runs in
that very state; else what was left behind performs first, but for an instruction that goes ahead of it (R297; log 100). Where every entry
for an outstanding memory request is taken (R18; log 123), an instruction that accesses memory waits while what streams have left behind
performs. -/
def Obligations.StepRunsDecoded : Prop :=
  ∀ (s : State) (rest : List Turn),
    (∀ i, s.agenda = .event i :: rest → i.isEvent = true →
      let a := s.advance.before (.event i)
      (a.usable i = true → Instr.session i = none → step s = exec i a)
      ∧ (∀ t id, a.usable i = true → Instr.session i = some id → (∀ e ∈ a.rcpQ, e.1 ≠ id) → exec i a = .next t → served a t = true →
          step s = .next t)
      ∧ (s.posted = [] → a = s.advance))
    ∧ (∀ (st : Fin 4) (k : StreamId) (w : W32) (ws : List W32) (pas : List Nat),
      s.agenda = .stream st k :: rest →
      let a := s.advance
      let b := a.executing st k (w :: ws)
      a.runnable st k = true → (∀ va, (a.stream st k).status ≠ .poisonDue va) → (a.stream st k).ibuf = [] →
      (w :: ws).length = wordCount w → pas.length = wordCount w →
      (∀ n (h : n < (w :: ws).length) (h' : n < pas.length),
        a.scaXlate st k ((a.stream st k).pc + BitVec.ofNat 64 (4 * n)) .fetch = .ok pas[n] ∧ a.heldAt pas[n] = false
        ∧ a.anyPoison st k pas[n] 4 = false
        ∧ (w :: ws)[n] = BitVec.ofNat 32 (leNat (a.view (some (st, k)) (a.slotKey (a.acc st).key) pas[n] 4))) →
      (∀ i, decode (w :: ws) = .ok i →
        (b.entryWait = false → step s = exec i (b.ready st k i) ∧ (s.posted = [] → step s = exec i b))
        ∧ (b.entryWait = true → step s = .next b.landAll))
      ∧ (∀ sub, decode (w :: ws) = .error (.code sub) → step s = .next ((b.landStrand st).illegal st k sub))
      ∧ (decode (w :: ws) = .error .engine →
          step s = .next ((b.landStrand st).illegal st k (if k = .E then 0x05 else 0x11)))
      ∧ (s.posted = [] → b.landStrand st = b))
    ∧ ∃ tick cycle agenda, s.advance = { s with tick := tick, cycle := cycle, agenda := agenda }

/-! ### Invariants and reset -/

/-- Log 2: every step keeps memory, and the key tags beside it, in their one canonical form. -/
def Obligations.StepKeepsMemory : Prop := ∀ s t : State, s.MemOk → step s = .next t → t.MemOk

/-- Log 2: the memory after reset is in its canonical form. -/
def Obligations.ResetMemory : Prop := State.reset.MemOk ∧ ∀ key pa, State.reset.mem.get pa = 0 ∧ State.reset.keyTag.get key = 0

/-- R13 with the Reset columns of R77, R78, R80, R82, R104, R193, R323, R342 and R350, and R29, R217 and R321: the values after device
reset that the spec gives. -/
def Obligations.ResetValues : Prop :=
  let s := State.reset
  (∀ st : Fin 4,
    let x := s.strand st
    x.vtype = 0 ∧ x.vstatus = 0 ∧ x.vstart = 0 ∧ x.vfcnt = 0 ∧ x.a.sfctl = 0 ∧ x.e.sfctl = 0 ∧ x.a.instret = 0 ∧ x.e.instret = 0
    ∧ (∀ n, x.fr.get n = 0) ∧ x.tcause = 0 ∧ x.tpc = 0 ∧ x.tval = 0 ∧ x.tframe = 0 ∧ x.tstatus = 0
    ∧ x.wid = 0 ∧ x.teamix = 0 ∧ x.lnchid = 0 ∧ x.lcore = 0 ∧ x.dmode = 0
    ∧ x.platbase = 0 ∧ x.platsize = 0 ∧ x.spbase = 0 ∧ x.spsize = 0 ∧ x.latshare = 0 ∧ x.vlcap = 6 ∧ x.bankser = 0 ∧ x.aspace = 0)
  ∧ s.seed = 0 ∧ s.cycle = 0 ∧ s.pwrlim = 16
  ∧ (∀ n : Fin 24, (s.stks.get n).stkref = 0x000000010000000A#64 ∧ (s.stks.get n).stkecc = 0)
  ∧ (∀ n : Fin 16, (s.mat.slots.get n).loaded = false ∧ (s.mat.slots.get n).pin = none)
  ∧ s.nextId = 0

/-! ### Vector and matrix instructions at the front end -/

/-- R277, R178, R198, R68, R69: every instruction of majors 0x11 to 0x1C that the E-stream executes, whose checks pass, while the queue
is not full appends its entry with the PC, words, `VTYPE`, grant and scalar registers of that moment and goes on, or holds the front end
for its scalar destination; a full queue stalls it; in the A-stream, and where a group or modifier check fails, it traps `ILLEGAL`.
Which groups pass the checks, and the column that a replicate modifier reads (R60, R61, R66, R175).
The oldest entry commits under the `VTYPE` and the grant that it captured, whatever the strand's are now (R178, R279): any form of majors
0x11 and 0x13 to 0x1A that commits under them does the same under any others, which it leaves as they are; for `VAND` the result is
written out. -/
def Obligations.VectorFrontEnd : Prop :=
  (∀ (s : State) (st : Fin 4) (k : StreamId) (i : Instr) (f : VForm), s.cur.agent = .stream st k → formOf i = some f →
      let x := s.strand st
      let check := formCheck x.lastRows x.vtype x.cap f
      (k = .E → check = none → x.viq.length < 64 →
        ∃ e t, exec i s = .next t
          ∧ t.strand st = { x with
              viq := x.viq ++ [e]
              e := { x.e with pc := s.nextPc st .E, instret := x.e.instret + 1, age := s.tick
                              status := if (scalarDest f).isSome then .hold else .run } }
          ∧ OnlyStrand s t st
          ∧ e.form = f ∧ e.pc = x.e.pc ∧ e.words = s.cur.words ∧ e.vtype = x.vtype ∧ e.vlr = x.vlr ∧ e.vlc = x.vlc
          ∧ e.begun = false ∧ e.ill = none
          ∧ (∀ maj f3 o m d, f = .vec maj f3 o m d → e.xs = s.readX st .E m.xs ∧ e.xs2 = s.readX st .E m.xs2)
          ∧ (∀ fn var rd rs1 row0 aJ aT vX m, f = .row fn var rd rs1 row0 aJ aT vX m → e.xs = s.readX st .E rs1))
      ∧ (k = .E → check = none → 64 ≤ x.viq.length → exec i s = .next s)
      ∧ (∀ lines, k = .A → CanTrap s st lines →
          ∃ t, exec i s = .next t ∧ AtHandler x (t.strand st) .A 0x01 x.a.pc (illVal 0x05 s.w0) false false)
      ∧ (∀ lines sub, k = .E → check = some sub → x.viq = [] → CanTrap s st lines →
          ∃ t, exec i s = .next t ∧ AtHandler x (t.strand st) .E 0x01 x.e.pc (illVal sub s.w0) false false))
  ∧ (∀ (x : Strand) (spec : Spec) (m : Rep) (w r c : Nat) (last : Nat × Nat) (g : Nat), 0 < g →
      let n := spec.toNat
      (n < 0x40 → (groupOk last g spec = true ↔ n % g = 0))
      ∧ (0x40 ≤ n → n < 0x48 → (groupOk last g spec = true ↔ g ≤ 8 ∧ (n - 0x40) % g = 0))
      ∧ (n = 0x60 → (groupOk last g spec = true ↔ g ≤ last.1))
      ∧ (n = 0x61 → (groupOk last g spec = true ↔ g ≤ last.2))
      ∧ (m.en = false → (c + 1) * w ≤ 8192 → x.src spec m w r c = elem (x.readRow spec r) w c)
      ∧ (m.en = true →
          let seg := 4 ^ m.size.toNat
          let col := m.idx.toNat * seg + c % seg
          (col + 1) * w ≤ 8192 → x.src spec m w r c = elem (x.readRow spec r) w col)
      ∧ (∀ p : BitVec 4, x.predBit 0 r c = true ∧ (p ≠ 0 → x.predBit p r c = (x.p.get ⟨p.toNat, p.isLt⟩).getLsbD (r * 2048 + c))))
  ∧ (∀ (s u' : State) (st : Fin 4) (e : VEntry) (rest : List VEntry) (maj f3 : Nat) (o : VOp) (m : Ext),
      let x := s.strand st
      x.viq = e :: rest → e.form = .vec maj f3 o m none → maj = 0x11 ∨ (0x13 ≤ maj ∧ maj ≤ 0x1A) → x.e.status ≠ .ended →
      exec (.viqCommit st) (s.modStrand st fun y => { y with vtype := e.vtype, vlr := e.vlr, vlc := e.vlc }) = .next u' →
      (u'.strand st).viq = rest → (u'.strand st).tstatus = x.tstatus → (u'.strand st).e.status ≠ .ended →
      ∃ u, exec (.viqCommit st) s = .next u ∧ OnlyStrand s u st
        ∧ u.strand st = { u'.strand st with vtype := x.vtype, vlr := x.vlr, vlc := x.vlc })
  ∧ (∀ (s : State) (st : Fin 4) (e : VEntry) (rest : List VEntry) (o : VOp) (m : Ext),
      let x := s.strand st
      let w := vtSew e.vtype
      x.viq = e :: rest → x.halt = .none → x.a.status = .run → e.ill = none → x.readsBad e = false → e.form = .vec 0x13 4 o m none → DestOk o.vd e.vlr.toNat →
      ∃ u, exec (.viqCommit st) s = .next u ∧ (u.strand st).viq = rest ∧ (u.strand st).vtype = x.vtype ∧ (u.strand st).vlr = x.vlr
        ∧ (u.strand st).vlc = x.vlc ∧ (u.stream st .E).pc = (s.stream st .E).pc
        ∧ Wrote x (u.strand st) o.vd w e.vlr.toNat e.vlc.toNat fun r c =>
            if x.active m r c then some (x.src o.vs1 m.rep1 w r c &&& x.src o.vs2 m.rep2 w r c) else if m.zero then some 0 else none)

/-! ### Vector lanes -/

/-- R199, R72, R196: every integer lane instruction at the commit, element by element, at the width of `VTYPE.sew`; no flag is set. -/
def Obligations.VectorIntegerResults : Prop :=
  ∀ (s : State) (st : Fin 4) (o : VOp) (m : Ext), DestOk o.vd (s.strand st).vlr.toNat →
    let x := s.strand st
    let n := vtSew x.vtype
    let a := fun (r c : Nat) => x.src o.vs1 m.rep1 n r c
    let b := fun (r c : Nat) => x.src o.vs2 m.rep2 n r c
    let d := fun (r c : Nat) => elem (x.readRow o.vd r) n c
    let sg := fun (v : Nat) => if 2 ^ (n - 1) ≤ v then (v : Int) - 2 ^ n else (v : Int)
    let num := fun (v : Nat) => if m.fx.getLsbD 0 then (v : Int) else sg v
    let lo : Int := if m.fx.getLsbD 0 then 0 else -(2 ^ (n - 1) : Int)
    let hi : Int := if m.fx.getLsbD 0 then 2 ^ n - 1 else 2 ^ (n - 1) - 1
    let wrap := fun (i : Int) => (i % 2 ^ n).toNat
    let clamp := fun (i : Int) => wrap (if i < lo then lo else if hi < i then hi else i)
    let fit := fun (i : Int) => if m.sat then clamp i else wrap i
    let one := fun (i : Instr) (val : Nat → Nat → Nat) =>
      ∀ f, formOf i = some f → Ready s st f →
        ∃ u, Commits s st i u ∧ VecRest s u st f ∧ Lanes x (u.strand st) o.vd m n val
          ∧ (u.strand st).p = x.p ∧ (u.strand st).k = x.k ∧ (u.strand st).vstatus = x.vstatus
    let gives := fun (base ext : Instr) (val : Nat → Nat → Nat) => (m = Ext.base → one base val) ∧ one ext val
    gives (.vadd o) (.vaddExt o m) (fun r c => fit (num (a r c) + num (b r c)))
    ∧ gives (.vsub o) (.vsubExt o m) (fun r c => fit (num (a r c) - num (b r c)))
    ∧ gives (.vmul o) (.vmulExt o m) (fun r c => fit (num (a r c) * num (b r c)))
    ∧ gives (.vmulh o) (.vmulhExt o m) (fun r c =>
        let p := (if m.fx.extractLsb' 0 2 = 1 then (a r c : Int) else sg (a r c)) * if m.fx.extractLsb' 0 2 = 0 then sg (b r c) else (b r c : Int)
        wrap (p / 2 ^ n))
    ∧ gives (.vand o) (.vandExt o m) (fun r c => a r c &&& b r c)
    ∧ gives (.vor o) (.vorExt o m) (fun r c => a r c ||| b r c)
    ∧ gives (.vxor o) (.vxorExt o m) (fun r c => a r c ^^^ b r c)
    ∧ gives (.vmin o) (.vminExt o m) (fun r c => if num (b r c) < num (a r c) then b r c else a r c)
    ∧ gives (.vmax o) (.vmaxExt o m) (fun r c => if num (a r c) < num (b r c) then b r c else a r c)
    ∧ gives (.vsll o) (.vsllExt o m) (fun r c => a r c * 2 ^ (b r c % n))
    ∧ gives (.vsrl o) (.vsrlExt o m) (fun r c => a r c / 2 ^ (b r c % n))
    ∧ gives (.vsra o) (.vsraExt o m) (fun r c => wrap (sg (a r c) / 2 ^ (b r c % n)))
    ∧ gives (.vadds o) (.vaddsExt o m) (fun r c => clamp (num (a r c) + num (b r c)))
    ∧ gives (.vsubs o) (.vsubsExt o m) (fun r c => clamp (num (a r c) - num (b r c)))
    ∧ gives (.vmac o) (.vmacExt o m) (fun r c => fit (num (d r c) + num (a r c) * num (b r c)))
    ∧ gives (.vabsd o) (.vabsdExt o m) (fun r c => (num (a r c) - num (b r c)).natAbs)

/-- R200, R201, R75, R76, R79, R213: every floating-point lane instruction at the commit, element by element, in the format of `VTYPE`
with its daz and ftz, and its flags ORed into `VSTATUS`; with another `VTYPE` it traps `FORMAT` (R81). `RoundedOnce` says what the
operations named here give over the real numbers. The tables that a launch's `VPOLY` finds are the model's reading (log 40). -/
def Obligations.VectorFpResults : Prop :=
  ∀ (s : State) (st : Fin 4) (o : VOp) (m : Ext), DestOk o.vd (s.strand st).vlr.toNat →
    let x := s.strand st
    let rm := if m.rnd = 7 then x.vtype.extractLsb' 14 3 else m.rnd
    let one := fun (i : Instr) (w : Nat) (val : Nat → Nat → Nat × Flags) =>
      ∀ f, formOf i = some f → Ready s st f →
        ∃ u, Commits s st i u ∧ VecRest s u st f ∧ Lanes x (u.strand st) o.vd m w (fun r c => (val r c).1)
          ∧ FlagsOf x (u.strand st) m (fun r c => (val r c).2)
          ∧ (u.strand st).p = x.p ∧ (u.strand st).k = x.k
    let gives := fun (base ext : Instr) (w : Nat) (val : Nat → Nat → Nat × Flags) => (m = Ext.base → one base w val) ∧ one ext w val
    (∀ t, vtFp x.vtype = some t →
      let raw1 := fun (r c : Nat) => x.src o.vs1 m.rep1 t.width r c
      let raw2 := fun (r c : Nat) => x.src o.vs2 m.rep2 t.width r c
      let daz := fun (v : Nat) => if x.vtype.getLsbD 13 && t.isSub v then t.zeroBits (t.sign v) else v
      let ftz := fun (p : Nat × Flags) =>
        if x.vtype.getLsbD 12 && t.isSub p.1 then (t.zeroBits (t.sign p.1), p.2 ||| flagUF ||| flagNX) else p
      let a := fun (r c : Nat) => daz (raw1 r c)
      let b := fun (r c : Nat) => daz (raw2 r c)
      let d := fun (r c : Nat) => daz (x.src m.vs3 .none t.width r c)
      let top := 2 ^ (t.width - 1)
      gives (.vfadd o) (.vfaddExt o m) t.width (fun r c => ftz (t.fadd rm (a r c) (b r c)))
      ∧ gives (.vfsub o) (.vfsubExt o m) t.width (fun r c => ftz (t.fsub rm (a r c) (b r c)))
      ∧ gives (.vfmul o) (.vfmulExt o m) t.width (fun r c => ftz (t.fmul rm (a r c) (b r c)))
      ∧ one (.vfma o m) t.width (fun r c => ftz (t.ffma rm (m.fx.getLsbD 1) (m.fx.getLsbD 0) (a r c) (b r c) (d r c)))
      ∧ gives (.vfdiv o) (.vfdivExt o m) t.width (fun r c => ftz (t.fdiv rm (a r c) (b r c)))
      ∧ gives (.vfsqrt o) (.vfsqrtExt o m) t.width (fun r c => ftz (t.fsqrt rm (a r c)))
      ∧ gives (.vfmin o) (.vfminExt o m) t.width (fun r c => ftz (t.minMax false (!m.fx.getLsbD 0) (a r c) (b r c)))
      ∧ gives (.vfmax o) (.vfmaxExt o m) t.width (fun r c => ftz (t.minMax true (!m.fx.getLsbD 0) (a r c) (b r c)))
      ∧ gives (.vfsgn o) (.vfsgnExt o m) t.width (fun r c =>
          let sa := decide (top ≤ raw1 r c % 2 ^ t.width)
          let sb := decide (top ≤ raw2 r c % 2 ^ t.width)
          let sign := if m.fx.extractLsb' 0 2 = 0 then sb else if m.fx.extractLsb' 0 2 = 1 then !sb else sa ^^ sb
          (raw1 r c % top + if sign then top else 0, 0))
      ∧ gives (.vfcls o) (.vfclsExt o m) t.width (fun r c => (t.classify (raw1 r c), 0))
      ∧ gives (.vtwos o) (.vtwosExt o m) t.width (fun r c => twoSum t (m.fx.getLsbD 0) (a r c) (b r c))
      ∧ gives (.vfscl o) (.vfsclExt o m) t.width (fun r c =>
          let k : Int := if top ≤ raw2 r c then (raw2 r c : Int) - 2 ^ t.width else (raw2 r c : Int)
          ftz (t.pack rm ((t.decode (a r c)).scale (if k < -5000 then -5000 else if 5000 < k then 5000 else k)))))
    ∧ (vtKind x.vtype = 0 → fld x.vtype 0 3 = 3 →
        let t := (s.tablesOf x).get (if m.fx.getLsbD 0 then 1 else 0)
        t.num 0x0C 2 ≠ 0 →
        gives (.vpoly o) (.vpolyExt o m) 32 (fun r c => polyEval t (x.vtype.getLsbD 13) (x.vtype.getLsbD 12) (x.src o.vs1 m.rep1 32 r c)))
    ∧ (∀ lines i, i ∈ [Instr.vfaddExt o m, .vfsubExt o m, .vfmulExt o m, .vfma o m, .vfdivExt o m, .vfsqrtExt o m, .vfminExt o m,
          .vfmaxExt o m, .vfsgnExt o m, .vfsclExt o m, .vfclsExt o m, .vtwosExt o m] →
        ∀ f, formOf i = some f → Ready s st f → CanTrap s st lines → vtFp x.vtype = none →
          VecTraps s st i 0x1B (x.formatVal x.vtype))

/-! ### Predicates, conversions, moves and reductions -/

/-- R202, R171, R12, R77: compares and predicate operations write one bit for each active element and set the flags of those elements;
an inactive element's bit is cleared under `.z` and kept without it, and p0 is not written; `PCNT` and `PFIRST` count and find the set
bits of active elements; `VSEL` takes vs1 where an element is active and vs2 where it is not. -/
def Obligations.PredicateResults : Prop :=
  ∀ (s : State) (st : Fin 4) (o : VOp) (m : Ext),
    let x := s.strand st
    let n := vtSew x.vtype
    let rows := x.vlr.toNat
    let cols := x.vlc.toNat
    let a := fun (w r c : Nat) => x.src o.vs1 m.rep1 w r c
    let b := fun (w r c : Nat) => x.src o.vs2 m.rep2 w r c
    let num := fun (v : Nat) => if m.fx.getLsbD 3 = false ∧ 2 ^ (n - 1) ≤ v then (v : Int) - 2 ^ n else (v : Int)
    let runs := fun (i : Instr) (P : State → Prop) => ∀ f, formOf i = some f → Ready s st f →
      ∃ u, Commits s st i u ∧ VecRest s u st f ∧ (u.strand st).k = x.k ∧ P u
    let both := fun (base ext : Instr) (P : State → Prop) => (m = Ext.base → runs base P) ∧ runs ext P
    let bits := fun (val : Nat → Nat → Bool × Flags) (u : State) =>
      BitLanes x (u.strand st) (o.vd.setWidth 4) m (fun r c => (val r c).1) ∧ FlagsOf x (u.strand st) m (fun r c => (val r c).2)
      ∧ SameRows x (u.strand st)
    let hit := fun (r c : Nat) => x.active m r c && x.predBit (o.vs1.setWidth 4) r c
    both (.vcmp o) (.vcmpExt o m) (bits fun r c =>
        (match (m.fx.extractLsb' 0 3).toNat with
          | 0 => decide (num (a n r c) = num (b n r c))
          | 1 => decide (num (a n r c) ≠ num (b n r c))
          | 2 => decide (num (a n r c) < num (b n r c))
          | 3 => decide (num (a n r c) ≤ num (b n r c))
          | 4 => decide (num (b n r c) < num (a n r c))
          | _ => decide (num (b n r c) ≤ num (a n r c)), 0))
    ∧ (∀ t, vtFp x.vtype = some t →
        both (.vfcmp o) (.vfcmpExt o m) (bits fun r c =>
          vfCond t (x.vtype.getLsbD 13) (m.fx.extractLsb' 0 3).toNat (a t.width r c) (b t.width r c)))
    ∧ both (.plog o) (.plogExt o m) (bits fun r c =>
        let p := x.predBit (o.vs1.setWidth 4) r c
        let q := x.predBit (o.vs2.setWidth 4) r c
        (match m.fx.toNat with
          | 0 => p && q
          | 1 => p || q
          | 2 => p ^^ q
          | 3 => p && !q
          | _ => !p, 0))
    ∧ runs (.pset o m) (bits fun r c => (m.fx.getLsbD 0 || decide (r * cols + c < (s.readX st .E m.xs).toNat), 0))
    ∧ runs (.pcnt o m) (fun u => SameRows x (u.strand st) ∧ (u.strand st).p = x.p ∧ (u.strand st).vstatus = x.vstatus
        ∧ u.readX st .E m.xs2 = if m.xs2 = 0 then 0 else
            BitVec.ofNat 64 ((List.range rows).map fun r => ((List.range cols).filter fun c => hit r c).length).sum)
    ∧ runs (.pfirst o m) (fun u => SameRows x (u.strand st) ∧ (u.strand st).p = x.p ∧ (u.strand st).vstatus = x.vstatus
        ∧ (m.xs2 ≠ 0 → (∀ r c, r < rows → c < cols → hit r c = false) → u.readX st .E m.xs2 = BitVec.allOnes 64)
        ∧ (m.xs2 ≠ 0 → ∀ r c, r < rows → c < cols → hit r c = true →
            (∀ r' c', r' < rows → c' < cols → (r' < r ∨ (r' = r ∧ c' < c)) → hit r' c' = false) →
            u.readX st .E m.xs2 = BitVec.ofNat 64 (r * cols + c)))
    ∧ (DestOk o.vd rows → both (.vsel o) (.vselExt o m) (fun u =>
        Wrote x (u.strand st) o.vd n rows cols (fun r c => some (if x.active m r c then a n r c else b n r c))
        ∧ (u.strand st).p = x.p ∧ (u.strand st).vstatus = x.vstatus))

/-- R203, R86, R75, R76: `VCVT` converts each active element between the two types that FX names, rounding, flushing and saturating as
its fields say, unless a row of either type does not hold the grant, where it traps `FORMAT`; R186: `VPF` copies rows of a vector
register into the operand file. -/
def Obligations.ConversionResults : Prop :=
  ∀ (s : State) (st : Fin 4) (o : VOp) (m : Ext), DestOk o.vd (s.strand st).vlr.toNat →
    let x := s.strand st
    let src := cvtType (m.fx.toNat % 16)
    let dst := cvtType (m.fx.toNat / 16)
    let rm := if m.rnd = 7 then x.vtype.extractLsb' 14 3 else m.rnd
    let val := fun (r c : Nat) =>
      let v := x.src o.vs1 m.rep1 src.width r c
      match src, dst with
      | .fp f, .fp g => g.ftzBits (x.vtype.getLsbD 12) (f.toFmt g rm (f.dazBits (x.vtype.getLsbD 13) v))
      | .fp f, .int w sgn =>
        let q := (f.decode (f.dazBits (x.vtype.getLsbD 13) v)).toInt rm w sgn
        ((q.1 % 2 ^ w).toNat, q.2)
      | .int w sgn, .fp g => g.ftzBits (x.vtype.getLsbD 12) (g.ofInt rm (readInt w sgn v))
      | .int w sgn, .int w' sgn' =>
        let q := readInt w sgn v
        (((if m.sat then clampInt (intRange w' sgn') q else q) % 2 ^ w').toNat, 0)
    let runs := fun (i : Instr) => ∀ f, formOf i = some f → Ready s st f →
      (x.vlc.toNat * max src.width dst.width ≤ 8192 →
        ∃ u, Commits s st i u ∧ VecRest s u st f ∧ Lanes x (u.strand st) o.vd m dst.width (fun r c => (val r c).1)
          ∧ FlagsOf x (u.strand st) m (fun r c => (val r c).2) ∧ (u.strand st).p = x.p ∧ (u.strand st).k = x.k)
      ∧ (∀ lines, 8192 < x.vlc.toNat * max src.width dst.width → CanTrap s st lines →
        VecTraps s st i 0x1B (x.formatVal x.vtype))
    (m = Ext.base → runs (.vcvt o)) ∧ runs (.vcvtExt o m)
    ∧ ∀ od vs1 : Spec, 0x40 ≤ od.toNat → od.toNat < 0x48 → vs1.toNat < 0x40 → vtG x.vtype ≤ 8 →
        ∀ i, i = .vpf od vs1 ∨ i = .vpfExt od vs1 → ∀ f, formOf i = some f → Ready s st f →
          ∃ u, Commits s st i u ∧ VecRest s u st f ∧ (u.strand st).v = x.v ∧ (u.strand st).p = x.p ∧ (u.strand st).k = x.k
            ∧ (u.strand st).vstatus = x.vstatus
            ∧ (∀ r, r < vtG x.vtype → (u.strand st).readRow od r = x.readRow vs1 r)
            ∧ KeepsRows x (u.strand st) od (vtG x.vtype)

/-- R204 to R206, R87 to R90: once its checks pass, `QNT` writes for each block with an active element the scale code of the block's
largest finite magnitude to v63, and for each active element the narrow code under its block's scale; with FX[0] it takes the codes of v63
instead; `QNTE` also escapes the elements beyond its threshold and records them in its outlier list. `VSTATUS` is ORed with the flags of the
codes written, NX, UF, OF and NV, and with SCLOW or SCHI where a block's scale code was clamped (R77, R89). The order of the format checks is the
model's reading (log 45). -/
def Obligations.QuantiseResults : Prop :=
  ∀ (s : State) (st : Fin 4) (o : VOp) (m : Ext),
    let x := s.strand st
    let rows := x.vlr.toNat
    let cols := x.vlc.toNat
    let g := vtG x.vtype
    let w := vtSew x.vtype
    let f := Narrow.ofReg (x.fr.get (vtFmt x.vtype))
    let co := (s.readX st .E m.xs).toNat
    let rm := if m.rnd = 7 then x.vtype.extractLsb' 14 3 else m.rnd
    (o.vd.toNat + rows ≤ 63 ∨ (0x40 ≤ o.vd.toNat ∧ o.vd.toNat < 0x48 ∧ rows ≤ 8)) →
    x.narrowOk x.vtype = true → cols ≤ 256 → co % f.blk = 0 → co + cols ≤ 8192 / w →
    meetsV63 g o.vd = false → meetsV63 g o.vs1 = false →
    (∀ r c, r < rows → c < cols → x.active m r c = true → (co + c) / f.blk < 64) →
    let val := fun (r c : Nat) => Fmt.fp32.dazBits (x.vtype.getLsbD 13) (x.src o.vs1 m.rep1 32 r c)
    let big := fun (tau : Option Nat) (r c : Nat) => match tau with
      | some t => decide (0x7F800000 ≤ val r c % 2 ^ 31) || decide (t < val r c % 2 ^ 31)
      | none => false
    let block := fun (r b : Nat) => (List.range cols).filter fun c => (co + c) / f.blk == b && x.active m r c
    let code := fun (tau : Option Nat) (r b : Nat) => (f.scaleOf (((block r b).filter fun c =>
        !big tau r c && decide (val r c % 2 ^ 31 < 0x7F800000)).map fun c => val r c % 2 ^ 31)).1
    let codes := fun (tau : Option Nat) (cd : Nat → Nat → Int) (u : State) =>
      ∀ r c, r < rows → c < cols →
        elem ((u.strand st).readRow o.vd r) w (co + c) =
          if x.active m r c then
            (if big tau r c then f.escCode else (f.quantElem rm (cd r ((co + c) / f.blk)) none (val r c)).1) % 2 ^ w
          else if m.zero then 0 else elem (x.readRow o.vd r) w (co + c)
    let scales := fun (tau : Option Nat) (u : State) =>
      ∀ r b, r < 16 → b < 64 → elem ((u.strand st).v.get 63) 8 (r * 64 + b) =
        if r < rows ∧ block r b ≠ [] then (code tau r b % 2 ^ 8).toNat else elem (x.v.get 63) 8 (r * 64 + b)
    let scaled := fun (tau : Option Nat) (r b : Nat) => (f.scaleOf (((block r b).filter fun c =>
        !big tau r c && decide (val r c % 2 ^ 31 < 0x7F800000)).map fun c => val r c % 2 ^ 31)).2
    let status := fun (tau : Option Nat) (cd : Nat → Nat → Int) (clamped : Nat → Nat → W64) (u : State) =>
      ∀ i, (u.strand st).vstatus.getLsbD i = true ↔ (x.vstatus.getLsbD i = true
        ∨ (∃ r c, r < rows ∧ c < cols ∧ x.active m r c = true ∧ big tau r c = false
            ∧ (f.quantElem rm (cd r ((co + c) / f.blk)) none (val r c)).2.getLsbD i = true)
        ∨ ∃ r b, r < rows ∧ block r b ≠ [] ∧ (clamped r b).getLsbD i = true)
    let runs := fun (i : Instr) (P : State → Prop) => ∀ fm, formOf i = some fm → Ready s st fm →
      ∃ u, Commits s st i u ∧ VecRest s u st fm ∧ (u.strand st).p = x.p ∧ P u
    (m.tix = 0 → m.fx = 0 → runs (.qnt o m) fun u => codes none (code none) u ∧ scales none u ∧ status none (code none) (scaled none) u ∧ (u.strand st).k = x.k)
    ∧ (m.tix = 0 → m.fx = 1 →
        (∀ r c, r < rows → c < cols → x.active m r c = true → scaleValid (x.v63Byte (r * 64 + (co + c) / f.blk)) = true) →
        let kept := fun (r b : Nat) => (x.v63Byte (r * 64 + b)).toInt
        runs (.qnt o m) fun u => codes none kept u ∧ (u.strand st).v.get 63 = x.v.get 63 ∧ status none kept (fun _ _ => 0) u
          ∧ (u.strand st).k = x.k)
    ∧ (f.esc = true → m.tix.toNat ≤ 3 → m.fx = 0 →
        let tau : W32 := (s.readX st .E m.xs2).extractLsb' 0 32
        let t := some (tau.toNat % 2 ^ 31)
        let place := fun (r c : Nat) => BitVec.ofNat 32 (r * 2048 + co + c)
        Fmt.fp32.isNan tau.toNat = false → (tau.msb = false ∨ tau.toNat % 2 ^ 31 = 0) →
        let k : Fin 4 := fin 4 m.tix.toNat
        let act := (gridOf rows cols).filter fun p => x.active m p.1 p.2
        let old := (x.k.get k).filter fun n => !act.any fun p => place p.1 p.2 == n.pos
        let new := (act.filter fun p => big t p.1 p.2).map fun p =>
          ({ pos := place p.1 p.2, val := BitVec.ofNat 32 (x.src o.vs1 m.rep1 32 p.1 p.2) } : OlEntry)
        (old.length + new.length ≤ 64 → runs (.qnte o m) fun u => codes t (code t) u ∧ scales t u ∧ status t (code t) (scaled t) u
          ∧ (∀ n, n ∈ (u.strand st).k.get k ↔ n ∈ old ∨ n ∈ new)
          ∧ ∀ j, j ≠ k → (u.strand st).k.get j = x.k.get j)
        ∧ (∀ lines, 64 < old.length + new.length → CanTrap s st lines →
            ∀ fm, formOf (.qnte o m) = some fm → Ready s st fm →
            ∃ u, Commits s st (.qnte o m) u ∧ (u.strand st).tcause = 0x18 ∧ (u.strand st).tval = BitVec.ofNat 64 (old.length + new.length)
              ∧ fld (u.strand st).vstatus 16 16 = (old.length + new.length) % 65536 ∧ (u.strand st).v = x.v ∧ (u.strand st).k = x.k))

/-- R207, R87, R92: once its checks pass, `DQNT` writes for each active element the value of its narrow code under its block's scale,
rounded to FP32, or the value of its outlier entry where the code is the escape code; an invalid scale code traps `SCALECODE`, and a
narrow format that `VTYPE` does not name `FORMAT`. The order of the format checks is the model's reading (log 45). -/
def Obligations.DequantiseResults : Prop :=
  ∀ (s : State) (st : Fin 4) (o : VOp) (m : Ext) (fm : VForm), formOf (.dqnt o m) = some fm → Ready s st fm →
    let x := s.strand st
    let rows := x.vlr.toNat
    let cols := x.vlc.toNat
    let g := vtG x.vtype
    let w := vtSew x.vtype
    let f := Narrow.ofReg (x.fr.get (vtFmt x.vtype))
    let co := (s.readX st .E m.xs).toNat
    let rm := if m.rnd = 7 then x.vtype.extractLsb' 14 3 else m.rnd
    let val := fun (r c : Nat) => f.decode (x.src o.vs1 m.rep1 w r (co + c))
    let scale := fun (r c : Nat) => x.v63Byte (r * 64 + (co + c) / f.blk)
    let list := if m.fx.getLsbD 0 then x.k.get (fin 4 m.tix.toNat) else []
    (x.narrowOk x.vtype = true → cols ≤ 256 → co % f.blk = 0 → co + cols ≤ 8192 / w → meetsV63 g o.vd = false → meetsV63 g o.vs1 = false →
      m.tix.toNat ≤ 3 → (∀ r c, r < rows → c < cols → x.active m r c = true → (co + c) / f.blk < 64) →
      ((∀ r c, r < rows → c < cols → x.active m r c = true → scaleValid (scale r c) = true) →
        (∀ r c, r < rows → c < cols → x.active m r c = true → val r c ≠ .escape) →
        (∀ n ∈ list, ∀ r c, r < rows → c < cols → x.active m r c = true → n.pos.toNat ≠ r * 2048 + co + c) →
        list.length ≤ 64 → DestOk o.vd rows →
        ∃ u, Commits s st (.dqnt o m) u ∧ VecRest s u st fm ∧ (u.strand st).p = x.p ∧ (u.strand st).k = x.k
          ∧ Lanes x (u.strand st) o.vd m 32 fun r c => match val r c with
            | .num v => if (scale r c).toInt = -128 then 0 else
                (Fmt.fp32.ftzBits (x.vtype.getLsbD 12) (Fmt.fp32.pack rm (v.scale (scale r c).toInt))).1
            | .escape => 0)
      ∧ (∀ lines r c, CanTrap s st lines → r < rows → c < cols → x.active m r c = true → scaleValid (scale r c) = false →
          (∀ r' c', r' < rows → c' < cols → x.active m r' c' = true → (r' < r ∨ (r' = r ∧ c' < c)) → scaleValid (scale r' c') = true) →
          VecTraps s st (.dqnt o m) 0x1A
            ((scale r c).setWidth 64 ||| BitVec.ofNat 64 ((r * 64 + (co + c) / f.blk) * 2 ^ 16)))
      ∧ (∀ r c, r < rows → c < cols → x.active m r c = true → val r c = .escape →
          (∀ r' c', r' < rows → c' < cols → x.active m r' c' = true → scaleValid (scale r' c') = true) →
          (∀ r' c', r' < rows → c' < cols → x.active m r' c' = true → val r' c' = .escape → r' = r ∧ c' = c) →
          DestOk o.vd rows → (c + 1) * 32 ≤ 8192 →
          ∀ v : W32, list = [{ pos := BitVec.ofNat 32 (r * 2048 + co + c), val := v }] →
            ∃ u, Commits s st (.dqnt o m) u ∧ elem ((u.strand st).readRow o.vd r) 32 c = v.toNat))
    ∧ (∀ lines, x.narrowOk x.vtype = false → CanTrap s st lines →
        VecTraps s st (.dqnt o m) 0x1B (x.formatVal x.vtype))

/-- R208, R196: moves. Bits move unchanged: `VMV` element by element, `VBCAST` from a scalar register, `VSLUP` and `VSLDN` by a number of
columns, `VPERM` by an index of each element, `VTRN` across the diagonal; `VINS` writes one element and `VEXT` reads one. -/
def Obligations.MoveResults : Prop :=
  ∀ (s : State) (st : Fin 4) (o : VOp) (m : Ext), DestOk o.vd (s.strand st).vlr.toNat →
    let x := s.strand st
    let n := vtSew x.vtype
    let rows := x.vlr.toNat
    let cols := x.vlc.toNat
    let a := fun (r c : Nat) => x.src o.vs1 m.rep1 n r c
    let xs := (s.readX st .E m.xs).toNat
    let xs2 := (s.readX st .E m.xs2).toNat
    let runs := fun (i : Instr) (P : State → Prop) => ∀ f, formOf i = some f → Ready s st f →
      ∃ u, Commits s st i u ∧ VecRest s u st f ∧ (u.strand st).p = x.p ∧ (u.strand st).k = x.k ∧ (u.strand st).vstatus = x.vstatus ∧ P u
    let lanes := fun (val : Nat → Nat → Nat) (u : State) => Lanes x (u.strand st) o.vd m n val
    let both := fun (base ext : Instr) (P : State → Prop) => (m = Ext.base → runs base P) ∧ runs ext P
    both (.vmv o) (.vmvExt o m) (lanes a)
    ∧ runs (.vbcast o m) (lanes fun _ _ => xs)
    ∧ runs (.vsldn o m) (lanes fun r c => if c + xs < cols then a r (c + xs) else 0)
    ∧ both (.vperm o) (.vpermExt o m) (lanes fun r c =>
        let i := x.src o.vs2 m.rep2 n r c
        if i < cols then a r i else 0)
    ∧ (cols ≤ vtG x.vtype → both (.vtrn o) (.vtrnExt o m) (lanes fun r c => a c r))
    ∧ (∀ lines, vtG x.vtype < cols → CanTrap s st lines → ∀ f, formOf (.vtrnExt o m) = some f → Ready s st f →
        VecTraps s st (.vtrnExt o m) 0x1B (x.formatVal x.vtype))
    ∧ runs (.vslup o m) (fun u => Wrote x (u.strand st) o.vd n rows cols fun r c =>
        if c < xs then none else if x.active m r c then some (a r (c - xs)) else if m.zero then some 0 else none)
    ∧ runs (.vins o m) (fun u => Wrote x (u.strand st) o.vd n rows cols fun r c =>
        if r * cols + c ≠ xs then none else if x.active m r c then some xs2 else if m.zero then some 0 else none)
    ∧ runs (.vext o m) (fun u => SameRows x (u.strand st)
        ∧ (m.xs2 ≠ 0 → (rows * cols ≤ xs → u.readX st .E m.xs2 = 0)
          ∧ ∀ r c, r < rows → c < cols → xs = r * cols + c →
              let v := elem (x.readRow o.vs1 r) n c
              u.readX st .E m.xs2 = if x.active m r c = false then 0
                else if m.fx.getLsbD 0 = true ∧ 2 ^ (n - 1) ≤ v then BitVec.ofInt 64 ((v : Int) - 2 ^ n) else BitVec.ofNat 64 v))

/-- R209 to R212, R96, R97: reductions over the active elements, in the order of rows and columns: integer sums modulo 2^SEW, the greatest
and least element, FP sums by the tree or in order, compensated sums, running sums, compression and the digest; an FP class whose `VTYPE`
names no FP format traps `FORMAT`. Where DAZ and FTZ act inside a sum, and what the `.to` forms do with a NaN, is the model's reading (log
43, log 44). -/
def Obligations.ReductionResults : Prop :=
  ∀ (s : State) (st : Fin 4) (o : VOp) (m : Ext), DestOk o.vd (s.strand st).vlr.toNat →
    let x := s.strand st
    let n := vtSew x.vtype
    let cols := x.vlc.toNat
    let cls := (m.fx.extractLsb' 1 2).toNat
    let daz := x.vtype.getLsbD 13
    let ftz := x.vtype.getLsbD 12
    let rm := if m.rnd = 7 then x.vtype.extractLsb' 14 3 else m.rnd
    let num := fun (v : Nat) => if cls = 1 ∧ 2 ^ (n - 1) ≤ v then (v : Int) - 2 ^ n else (v : Int)
    let runs := fun (i : Instr) (P : State → Prop) => ∀ f, formOf i = some f → Ready s st f →
      ∃ u, Commits s st i u ∧ VecRest s u st f ∧ P u
    let both := fun (base ext : Instr) (P : State → Prop) => (m = Ext.base → runs base P) ∧ runs ext P
    let reduces := fun (val : List Nat → List Nat × Flags) (u : State) => Reduced x (u.strand st) o m val
    let prev := fun (r c : Nat) =>
      let here := ((List.range c).filter fun d => x.active m r d).map fun d => x.src o.vs1 m.rep1 n r d
      if m.fx.getLsbD 4 then here else ((List.range r).flatMap fun q => picksOf x m o.vs1 q) ++ here
    let scans := fun (add : Nat → Nat → Nat × Flags) (u : State) =>
      let before := fun (r c : Nat) => (prev r c).foldl (fun t a => (add t a).1) ((s.readX st .E m.xs).toNat % 2 ^ n)
      let next := fun (r c : Nat) => add (before r c) (x.src o.vs1 m.rep1 n r c)
      Lanes x (u.strand st) o.vd m n (fun r c => if m.fx.getLsbD 0 then before r c else (next r c).1)
      ∧ FlagsOf x (u.strand st) m (fun r c => (next r c).2) ∧ (u.strand st).p = x.p ∧ (u.strand st).k = x.k
    (cls ≠ 0 →
      both (.vredsum o) (.vredsumExt o m) (reduces fun xs => ([xs.sum], 0))
      ∧ runs (.vscan o m) (scans fun t a => ((t + a) % 2 ^ n, 0))
      ∧ ∃ top bot : List Nat → Nat, top [] = 0 ∧ bot [] = 0
        ∧ (∀ xs, xs ≠ [] → (∀ a ∈ xs, a < 2 ^ n) → top xs ∈ xs ∧ bot xs ∈ xs ∧ ∀ a ∈ xs, num a ≤ num (top xs) ∧ num (bot xs) ≤ num a)
        ∧ both (.vredmax o) (.vredmaxExt o m) (reduces fun xs => ([top xs], 0))
        ∧ both (.vredmin o) (.vredminExt o m) (reduces fun xs => ([bot xs], 0)))
    ∧ (∀ t, cls = 0 → vtFp x.vtype = some t →
        both (.vredsum o) (.vredsumExt o m) (reduces fun xs => let r := t.sum (m.fx.getLsbD 0) daz ftz rm xs; ([r.1], r.2))
        ∧ both (.vredmax o) (.vredmaxExt o m) (reduces fun xs => let r := t.extreme true (m.fx.getLsbD 3) daz ftz xs; ([r.1], r.2))
        ∧ both (.vredmin o) (.vredminExt o m) (reduces fun xs => let r := t.extreme false (m.fx.getLsbD 3) daz ftz xs; ([r.1], r.2))
        ∧ both (.vredcs o) (.vredcsExt o m) (reduces fun xs => let r := t.sum2 daz ftz xs; ([r.1, r.2.1], r.2.2))
        ∧ runs (.vscan o m) (scans (t.addFlush daz ftz rm)))
    ∧ both (.vcomp o) (.vcompExt o m) (fun u => (u.strand st).p = x.p ∧ (u.strand st).k = x.k ∧ (u.strand st).vstatus = x.vstatus
        ∧ Wrote x (u.strand st) o.vd n x.vlr.toNat cols fun r c =>
            match (allPicks x m o.vs1)[r * cols + c]? with
            | some v => some v
            | none => if m.zero then some 0 else none)
    ∧ (n ≠ 4 → runs (.vdig o m) fun u => SameRows x (u.strand st) ∧ (u.strand st).p = x.p ∧ (u.strand st).vstatus = x.vstatus
        ∧ u.readX st .E m.xs2 = if m.xs2 = 0 then 0 else
            crc64 (s.readX st .E m.xs) ((allPicks x m o.vs1).flatMap fun v => leBytes (n / 8) v))
    ∧ (∀ lines i, i ∈ [Instr.vredsumExt o m, .vredmaxExt o m, .vredminExt o m, .vscan o m] → cls = 0 → vtFp x.vtype = none →
        CanTrap s st lines → ∀ f, formOf i = some f → Ready s st f → VecTraps s st i 0x1B (x.formatVal x.vtype))

/-! ### Vector memory -/

/-- R187, R188, R190, R193, R145: a vector load that meets no fault writes each active element from its address, little-endian, from the
element in `VSTART` on; elements outside a 2D shape count as inactive. A load through a plat reads each element's target. A base that is
not a multiple of the element size traps `MISALIGN` with `TVAL` the base, and a stride that is not with `TVAL` the stride. R190, R192,
R339: a vector load some of whose elements have no vector-map entry writes every element that does not fault, marks those that do in the
fault mask, which `VFCNT` counts, records the first eight pages in which they lie and whether there are more, and parks the strand for the
supervisor with the load still the oldest of the queue, the first faulting address in `TVAL`. The commit of an access does all that it has left
to do (log 47), and its `TVAL` is the element's VA (log 48): the model's readings. -/
def Obligations.VectorLoadResults : Prop :=
  (∀ (s : State) (st : Fin 4) (vd : Spec) (m : MemOp) (pa : Nat → Nat → Nat), DestOk vd (s.strand st).vlr.toNat →
      let x := s.strand st
      let n := vtSew x.vtype
      let size := max 1 (n / 8)
      let rows := x.vlr.toNat
      let cols := x.vlc.toNat
      let start := fld x.vstart 0 16
      let ext := m.ext 7 0
      let key := s.slotKey (s.acc st).key
      let base := s.readX st .E m.xs + m.disp.getD 0
      let x2 := s.readX st .E m.xs2
      let sext16 := fun (lo : Nat) => (x2.extractLsb' lo 16).signExtend 64
      let word := fun (p : Nat) => leNat ((List.range size).map fun i => s.viewByte (some (st, .E)) key (p + i))
      let value := fun (r c : Nat) =>
        if n = 4 then word (pa r c) / 16 ^ ((r * cols + c) % 2) % 16 else word (pa r c)
      let wrote := fun (shape : Nat → Nat → Bool) (u : State) =>
        (u.strand st).p = x.p ∧ (u.strand st).k = x.k ∧ (u.strand st).vstatus = x.vstatus
        ∧ Wrote x (u.strand st) vd n rows cols fun r c =>
            if r * cols + c < start then none
            else if x.active ext r c && shape r c then some (value r c) else if m.zero then some 0 else none
      let loads := fun (i : Instr) (shape : Nat → Nat → Bool) (va : Nat → Nat → W64) => ∀ f, formOf i = some f → Ready s st f →
        (∀ r c, r < rows → c < cols → start ≤ r * cols + c → x.active ext r c = true → shape r c = true →
          s.vecXlate (s.acc st) (va r c) true false = .ok (pa r c) ∧ s.anyPoison st .E (pa r c) size = false ∧ s.heldAt (pa r c) = false) →
        ∃ u, Commits s st i u ∧ VecRest s u st f ∧ wrote shape u
      let always := fun (_ _ : Nat) => true
      ((n = 4 ∨ base.toNat % size = 0) →
        loads (.vld vd m) always fun r c => base + BitVec.ofNat 64 ((r * cols + c) * n / 8))
      ∧ (n ≠ 4 → base.toNat % size = 0 → x2.toNat % size = 0 →
          loads (.vlds vd m) always fun r c => base + BitVec.ofNat 64 (r * cols + c) * x2)
      ∧ (n ≠ 4 → base.toNat % size = 0 →
          loads (.vld2d vd m) (fun r c => decide (r < fld x2 0 16) && decide (c < fld x2 16 16)) fun r c =>
            base + (BitVec.ofNat 64 r * sext16 32 + BitVec.ofNat 64 c * sext16 48) * BitVec.ofNat 64 (n / 8))
      ∧ (∀ p, s.verifyHeld st (s.readX st .E m.xs) = false → (s.platCheck st .E (s.readX st .E m.xs)).2 = .ok p →
          (∀ a ∈ p.pas.flatMap id, s.inPart (s.acc st) a = true) → p.sz * 8 = n →
          ∀ f, formOf (.vldp vd m) = some f → Ready s st f →
          (∀ r c, r < rows → c < cols → start ≤ r * cols + c → r * cols + c < p.n → x.active ext r c = true →
            ∀ a ∈ p.pas.getD (r * cols + c) [], s.poisonedTo x.task st .E a = false) →
          ∃ u, Commits s st (.vldp vd m) u ∧ VecRest s u st f ∧ (u.strand st).p = x.p ∧ (u.strand st).k = x.k
            ∧ (u.strand st).vstatus = x.vstatus
            ∧ Wrote x (u.strand st) vd n rows cols fun r c =>
                let j := r * cols + c
                if j < start then none
                else if j < p.n ∧ x.active ext r c = true then
                  some (leNat ((p.pas.getD j []).map fun a => s.viewByte (some (st, .E)) key a))
                else if m.zero then some 0 else none)
      ∧ (∀ lines, n ≠ 4 → base.toNat % size ≠ 0 → CanTrap s st lines →
          ∀ i, i ∈ [Instr.vld vd m, .vlds vd m, .vld2d vd m] → ∀ f, formOf i = some f → Ready s st f → VecTraps s st i 0x03 base)
      ∧ (∀ lines, n ≠ 4 → base.toNat % size = 0 → x2.toNat % size ≠ 0 → CanTrap s st lines →
          ∀ f, formOf (.vlds vd m) = some f → Ready s st f → VecTraps s st (.vlds vd m) 0x03 x2))
  ∧ (∀ (s : State) (st : Fin 4) (vd : Spec) (m : MemOp) (pa : Nat → Nat → Nat) (bad : Nat → Nat → Bool), DestOk vd (s.strand st).vlr.toNat →
      let x := s.strand st
      let n := vtSew x.vtype
      let size := max 1 (n / 8)
      let rows := x.vlr.toNat
      let cols := x.vlc.toNat
      let ext := m.ext 7 0
      let base := s.readX st .E m.xs + m.disp.getD 0
      let va := fun (r c : Nat) => base + BitVec.ofNat 64 ((r * cols + c) * n / 8)
      let live := fun (r c : Nat) => r < rows ∧ c < cols ∧ x.active ext r c = true
      ∀ f, formOf (.vld vd m) = some f → Ready s st f → (n = 4 ∨ base.toNat % size = 0) → fld x.vstart 0 16 = 0 → 
      (∀ r c, live r c → s.vecXlate (s.acc st) (va r c) true false =
        if bad r c then .error { cause := 0x04, tval := va r c, va := va r c } else .ok (pa r c)) →
      (∀ r c, live r c → bad r c = false → s.anyPoison st .E (pa r c) size = false ∧ s.heldAt (pa r c) = false) →
      ∀ r₀ c₀, live r₀ c₀ → bad r₀ c₀ = true →
        (∀ r c, live r c → bad r c = true → r₀ * cols + c₀ ≤ r * cols + c) →
        ∃ u, Commits s st (.vld vd m) u
          ∧ (u.strand st).halt = .supervisor 0x04 x.e.pc (va r₀ c₀) true .E
          ∧ (u.strand st).vcp = x.e.pc
          ∧ (∀ r c, live r c → r * 2048 + c < 32768 → bad r c = true → (u.strand st).mask.getLsbD (r * 2048 + c) = true)
          ∧ (∀ b, (∀ r c, live r c → bad r c = true → r * 2048 + c ≠ b) → (u.strand st).mask.getLsbD b = false)
          ∧ (rows ≤ 16 → cols ≤ 2048 →
              (u.strand st).vfcnt = ((gridOf rows cols).filter fun p => x.active ext p.1 p.2 && bad p.1 p.2).length)
          ∧ (u.strand st).frec.cause = 0x04
          ∧ (let pages := (((gridOf rows cols).filter fun p => x.active ext p.1 p.2 && bad p.1 p.2).map fun p =>
                va p.1 p.2 &&& 0xFFFFFFFFC0000000).eraseDups
             (u.strand st).frec.pages = pages.take 8 ∧ (u.strand st).frec.more = decide (8 < pages.length))
          ∧ (∃ e, (u.strand st).viq = [e] ∧ e.form = f ∧ e.begun = true ∧ e.vstart = 0 ∧ e.restart = 0)
          ∧ (∃ rec, u.supRecords = s.supRecords ++ [rec] ∧ rec.cause = 0x04 ∧ rec.tval = va r₀ c₀ ∧ rec.frec = (u.strand st).frec
            ∧ rec.mask = (u.strand st).mask)
          ∧ Wrote x (u.strand st) vd n rows cols fun r c =>
              if x.active ext r c then
                if bad r c then none
                else
                  let v := leNat ((List.range size).map fun i => s.viewByte (some (st, .E)) (s.slotKey (s.acc st).key) (pa r c + i))
                  some (if n = 4 then v / 16 ^ ((r * cols + c) % 2) % 16 else v)
              else if m.zero then some 0 else none)


/-- R187, R188, R191, R193, R299, R145, R141, R304, R386: outside D-mode a vector store that meets no fault writes each active element's bytes,
little-endian, at its address, in increasing element order, so that where elements overlap the last is kept; a 4-bit element replaces its
own nibble. Every other byte of memory reads as before; at home a byte changes only where the core's own scratchpad has pending bits. This is
for a write-combining buffer with room for the lines stored to (R18); one that is full drains first, as `WCB_DRAIN` does. A base or a stride
that is not a multiple of the element size traps `MISALIGN`. A store through a plat leaves in each target the last active element that names
it, or that target combined with them, or the target as it was where none names it. R299, R118: a drain of the write-combining buffer
performs in the order of their acceptance what it holds of one line, and takes it out; what a member of the core sees does not change where
the line was stored to under one key. Which line a `WCB_DRAIN` drains, that of the oldest entry, no rule says: it is the model's choice
(log 36). R304, R386: in D-mode, outside the core's own scratchpad, a store whose new lines fit the share of its logical core is held for the wave fence, byte by byte in
element order and not yet published, its team is charged each new line, and no byte of memory changes. The commit of an access does all that it has left to
do: the model's reading (log 47). -/
def Obligations.VectorStoreResults : Prop :=
  (∀ (s : State) (st : Fin 4) (vs1 : Spec) (m : MemOp) (pa : Nat → Nat → Nat),
      let x := s.strand st
      let n := vtSew x.vtype
      let size := max 1 (n / 8)
      let rows := x.vlr.toNat
      let cols := x.vlc.toNat
      let start := fld x.vstart 0 16
      let ext := m.ext 7 0
      let key := s.slotKey (s.acc st).key
      let base := s.readX st .E m.xs + m.disp.getD 0
      let x2 := s.readX st .E m.xs2
      let sext16 := fun (lo : Nat) => (x2.extractLsb' lo 16).signExtend 64
      let val := fun (r c : Nat) => elem (x.readRow vs1 r) n c
      let stored := fun (live : Nat → Nat → Prop) (u : State) =>
        -- the last element that covers a byte decides it
        (∀ r c, live r c → n ≠ 4 → ∀ i, i < size →
          (∀ r' c', live r' c' → r * cols + c < r' * cols + c' → ¬ (pa r' c' ≤ pa r c + i ∧ pa r c + i < pa r' c' + size)) →
          u.coreByte key (pa r c + i) = BitVec.ofNat 8 (val r c / 2 ^ (8 * i)))
        ∧ (∀ r c, live r c → n = 4 →
          (∀ r' c', live r' c' → r * cols + c < r' * cols + c' → pa r' c' = pa r c → (r' * cols + c') % 2 ≠ (r * cols + c) % 2) →
          (u.coreByte key (pa r c)).toNat / 16 ^ ((r * cols + c) % 2) % 16 = val r c)
        ∧ (∀ key' a, (∀ r c, live r c → ¬ (pa r c ≤ a ∧ a < pa r c + size)) →
          u.coreByte key' a = s.coreByte key' a ∧ (s.ownScr a = false ∨ (∀ e ∈ s.wcb, e.pa ≠ a) → u.homeByte key' a = s.homeByte key' a))
        ∧ u.mat = { s.mat with maps := u.mat.maps } ∧ (∀ q, q ≠ st → u.strand q = s.strand q)
        ∧ (u.strand st).v = x.v ∧ (u.strand st).o = x.o ∧ (u.strand st).p = x.p ∧ (u.strand st).k = x.k
      let stores := fun (i : Instr) (shape : Nat → Nat → Bool) (va : Nat → Nat → W64) => ∀ f, formOf i = some f → Ready s st f →
        let live := fun (r c : Nat) => r < rows ∧ c < cols ∧ start ≤ r * cols + c ∧ x.active ext r c = true ∧ shape r c = true
        (∀ r c, live r c → s.vecXlate (s.acc st) (va r c) false true = .ok (pa r c) ∧ Plain s (pa r c) size
          ∧ pa r c % size = 0 ∧ s.heldAt (pa r c) = false) →
        let lines : List Nat := s.wcb.map (fun e => e.pa / 64) ++ (gridOf rows cols).map (fun p => pa p.1 p.2 / 64)
        let elts := (gridOf rows cols).filter fun p => decide (start ≤ p.1 * cols + p.2) && x.active ext p.1 p.2 && shape p.1 p.2
        let met := (elts.map fun p => pa p.1 p.2 / 64).eraseDups
        let fresh := fun (t : Task) (q : Team) => met.filter fun a => !q.lines.contains (t, .E, a)
        (x.det = false → lines.eraseDups.length ≤ 4096 →
          ∃ u, Commits s st i u ∧ RegRest s u st f ∧ (u.strand st).vstatus = x.vstatus ∧ stored live u)
        ∧ (∀ t q l, x.det = true → x.task = some t → s.teamOf st = some q → s.launchOf st = some l →
          (∀ r c, live r c → s.ownScr (pa r c) = false) → q.charge + 128 * (fresh t q).length ≤ l.hdr.share →
          ∃ u, Commits s st i u ∧ RegRest s u st f ∧ (u.strand st).vstatus = x.vstatus
            ∧ u.held = s.held ++ elts.flatMap (fun p => (List.range size).map fun i =>
                { task := t, strand := st, stream := .E, pa := pa p.1 p.2 + i, key := key, pub := false
                  byte := BitVec.ofNat 8 (if n = 4 then val p.1 p.2 * 16 ^ ((p.1 * cols + p.2) % 2) else val p.1 p.2 / 2 ^ (8 * i))
                  bits := if n = 4 then (if (p.1 * cols + p.2) % 2 = 0 then 0x0F else 0xF0) else 0xFF : Held })
            ∧ u.teams = s.teams.map (fun q' => if q'.holds t then { q' with lines := q'.lines ++ (fresh t q').map fun a => (t, .E, a) } else q')
            ∧ u.mem = s.mem ∧ u.keyTag = s.keyTag ∧ u.wcb = s.wcb ∧ u.poison = s.poison
            ∧ u.mat = { s.mat with maps := u.mat.maps } ∧ ∀ q', q' ≠ st → u.strand q' = s.strand q')
      let always := fun (_ _ : Nat) => true
      ((n = 4 ∨ base.toNat % size = 0) →
        stores (.vst vs1 m) always fun r c => base + BitVec.ofNat 64 ((r * cols + c) * n / 8))
      ∧ (n ≠ 4 → base.toNat % size = 0 → x2.toNat % size = 0 →
          stores (.vsts vs1 m) always fun r c => base + BitVec.ofNat 64 (r * cols + c) * x2)
      ∧ (n ≠ 4 → base.toNat % size = 0 →
          stores (.vst2d vs1 m) (fun r c => decide (r < fld x2 0 16) && decide (c < fld x2 16 16)) fun r c =>
            base + (BitVec.ofNat 64 r * sext16 32 + BitVec.ofNat 64 c * sext16 48) * BitVec.ofNat 64 (n / 8))
      ∧ (∀ lines, n ≠ 4 → base.toNat % size ≠ 0 → CanTrap s st lines →
          ∀ i, i ∈ [Instr.vst vs1 m, .vsts vs1 m, .vst2d vs1 m] → ∀ f, formOf i = some f → Ready s st f → VecTraps s st i 0x03 base)
      ∧ (∀ lines, n ≠ 4 → base.toNat % size = 0 → x2.toNat % size ≠ 0 → CanTrap s st lines →
          ∀ f, formOf (.vsts vs1 m) = some f → Ready s st f → VecTraps s st (.vsts vs1 m) 0x03 x2)
      ∧ (∀ p rnd op, s.verifyHeld st (s.readX st .E m.xs) = false → (s.platCheck st .E (s.readX st .E m.xs)).2 = .ok p →
          (∀ a ∈ p.pas.flatMap id, s.inPart (s.acc st) a = true) → p.sz * 8 = n →
          -- distinct targets in distinct bytes of the scratchpad
          p.ta.length = p.n → p.pas.length = p.n → (∀ j, j < p.n → (p.pas.getD j []).length = p.sz ∧ (p.pas.getD j []).Nodup) →
          (∀ j j', j < p.n → j' < p.n → p.ta[j]? = p.ta[j']? → p.pas.getD j [] = p.pas.getD j' []) →
          (∀ j j', j < p.n → j' < p.n → p.ta[j]? ≠ p.ta[j']? → ∀ a ∈ p.pas.getD j [], a ∉ p.pas.getD j' []) →
          (∀ j, j < p.n → p.wr.getD j false = true) →
          (∀ a ∈ p.pas.flatMap id, s.poisonedTo x.task st .E a = false ∧ Plain s a 1) →
          fld x.vstart 0 16 = 0 → (op = .last ∨ ∃ c, op = .arith 1 c ∧ c.toNat < 2) →
          ∀ f, formOf (.vstp vs1 m rnd op) = some f → Ready s st f →
          ∃ u, Commits s st (.vstp vs1 m rnd op) u ∧ RegRest s u st f ∧ (u.strand st).v = x.v ∧ (u.strand st).o = x.o ∧ (u.strand st).p = x.p
            ∧ (u.strand st).vstatus = x.vstatus
            ∧ ∀ j, j < p.n →
                let old := leNat ((p.pas.getD j []).map fun a => s.viewByte (some (st, .E)) key a)
                let js := (List.range (min p.n (rows * cols))).filter fun q =>
                  p.ta[q]? == p.ta[j]? && x.active ext (q / cols) (q % cols)
                let vals := js.map fun q => val (q / cols) (q % cols)
                leNat ((p.pas.getD j []).map fun a => u.coreByte 0 a) =
                  if js = [] then old
                  else if op = .last then vals.getLastD 0 else (old + vals.sum) % 2 ^ n))
  ∧ (∀ (s : State) (e : WcbEntry) (rest : List WcbEntry), s.wcb = e :: rest → s.heldAt e.pa = false → s.lostAt e.pa = false →
      (∀ d ∈ s.wcb, d.key < 2 ^ 513) →
      let line := e.pa / 64
      ∃ t, exec .wcbDrain s = .next t ∧ t.wcb = s.wcb.filter (fun d => d.pa / 64 != line)
        ∧ t.strands = s.strands ∧ t.mat = s.mat ∧ t.teams = s.teams
        ∧ (∀ key a, a / 64 = line → (∀ d ∈ s.wcb, d.pa / 64 = line → d.key = key) ∨ isHbm a = false → t.coreByte key a = s.coreByte key a)
        ∧ ∀ key a, a / 64 ≠ line → t.homeByte key a = s.homeByte key a ∧ t.coreByte key a = s.coreByte key a)

/-! ### The matrix engine -/

/-- R218, R219, R225 to R229, R93, R94: once their checks pass, `MMA`, `AZERO` and `AWR` are accepted into the engine's queue, and its
turn writes the tile elements that they name and no other, with the flags ORed into `VSTATUS`; a tile that does not exist traps `ILLEGAL`.
`RoundedOnce` says what `mmaElem` gives over the real numbers. That a signalling NaN raises NV is the model's reading (log 49). -/
def Obligations.TileResults : Prop :=
  ∀ (s : State) (st : Fin 4) (o : VOp) (m : Ext), EngineReady s st →
    let x := s.strand st
    let rows := x.vlr.toNat
    let cols := x.vlc.toNat
    let n := vtSew x.vtype
    let daz := x.vtype.getLsbD 13
    let ftz := x.vtype.getLsbD 12
    let d := o.vd.toNat
    let xs := (s.readX st .E m.xs).toNat
    let xs2 := (s.readX st .E m.xs2).toNat
    let t := m.fx.toNat % 16
    let r0 := 16 * m.tix.toNat
    let keeps := fun (u : State) => u.mat.slots = s.mat.slots ∧ u.mat.mq = [] ∧ (u.strand st).v = x.v ∧ (u.strand st).p = x.p
    (∀ f, formOf (.azero o m) = some f → Ready s st f → d < 12 → xs + xs2 ≤ 128 →
      ∃ u, Engages s st (.azero o m) .matrixEngineTurn u ∧ keeps u
        ∧ ∀ q i j, i < 128 → j < 128 → u.mat.acc q i j = if q = d ∧ xs ≤ i ∧ i < xs + xs2 then 0 else s.mat.acc q i j)
    ∧ (∀ f, formOf (.awr o m) = some f → Ready s st f → t < 12 → m.tix.toNat < 8 → r0 + rows ≤ 128 → rows ≤ vtG x.vtype → cols ≤ 128 →
        (if m.fx.getLsbD 6 then 1 ≤ fld x.vtype 0 3 else vtFp x.vtype ≠ none) →
        let val := fun (r c : Nat) => awrVal x.vtype m (x.src o.vs1 m.rep1 n r c)
        ∃ u, Engages s st (.awr o m) .matrixEngineTurn u ∧ keeps u
          ∧ ∀ q i j, i < 128 → j < 128 → u.mat.acc q i j =
              if q = t ∧ r0 ≤ i ∧ i < r0 + rows ∧ j < cols then
                if x.active m (i - r0) j then (val (i - r0) j).1 % 2 ^ 32 else if m.zero then 0 else s.mat.acc q i j
              else s.mat.acc q i j)
    ∧ (∀ f cls, formOf (.mma o m) = some f → Ready s st f → d < 12 → o.vs2.toNat < 16 → m.tix.toNat < 8 → r0 + rows ≤ 128 →
        x.mclass x.vtype = some cls →
        let b := s.mat.slots.get (fin 16 o.vs2.toNat)
        let fr := x.frOf cls x.vtype
        let list := if m.fx.getLsbD 2 then x.k.get (fin 4 (m.fx.toNat % 4)) else []
        (cls = .narrow → meetsV63 (vtG x.vtype) o.vs1 = false) →
        b.loaded = true → b.cls = cls → cols ≤ b.kk → b.nn ≤ 128 → rows ≤ vtG x.vtype → (0 < cols ∨ m.ad = true) →
        x.mmaData (x.capture s.cur.words f) cls fr o.vs1 b list = none →
        let a := fun (i k : Nat) =>
          let v := classVal cls fr daz (elem (x.readRow o.vs1 i) n k)
          if cls = .narrow then scaled v (x.v63Byte (i * 64 + k / (Narrow.ofReg fr).blk)).toInt else v
        let la := fun (i : Nat) => (list.filter fun e => e.pos.toNat / 2048 == i && e.pos.toNat % 2048 < cols).map
          fun e => (e.pos.toNat % 2048, e.val.toNat)
        let lb := fun (j : Nat) => (b.list.filter fun e => e.pos.toNat % 128 == j && e.pos.toNat / 128 < cols).map
          fun e => (e.pos.toNat / 128, e.val.toNat)
        let old := fun (i j : Nat) => if m.ad then 0 else Fmt.fp32.dazBits daz (s.mat.acc d (r0 + i) j)
        let val := fun (i j : Nat) => mmaElem ftz m.na cols (old i j) (a i) (fun k => b.bVal daz k j) (la i) (lb j)
        ∃ u, Engages s st (.mma o m) .mmaAccumulate u ∧ keeps u
          ∧ (∀ q i j, i < 128 → j < 128 → u.mat.acc q i j =
              if q = d ∧ r0 ≤ i ∧ i < r0 + rows ∧ j < b.nn then (val (i - r0) j).1 % 2 ^ 32 else s.mat.acc q i j)
          ∧ ∀ g, (u.strand st).vstatus.getLsbD g = true ↔
              (x.vstatus.getLsbD g = true ∨ ∃ i j, i < rows ∧ j < b.nn ∧ (val i j).2.getLsbD g = true))
    ∧ (∀ lines f i, i ∈ [Instr.mma o m, .azero o m] → formOf i = some f → Ready s st f → 12 ≤ d → 
        CanTrap s st lines → VecTraps s st i 0x01 (illVal 0x14 s.w0))

/-- R227, R230 to R233, R92: `BLD` leaves in its slot what it has read, with the slot's pin; `ARD` reads tile rows into a register group,
and traps `FORMAT` where its destination would be narrow;
`EPTK` keeps the best entries of each row, and under `.fin` writes them out; `BSLOT` pins, unpins, releases and queries a slot. The
contents of a released slot are free (log 14), and which queue an instruction performs in is the model's reading (log 54). -/
def Obligations.SlotAndEpilogueResults : Prop :=
  ∀ (s : State) (st : Fin 4) (o : VOp) (m : Ext), EngineReady s st →
    let x := s.strand st
    let rows := x.vlr.toNat
    let cols := x.vlc.toNat
    let n := vtSew x.vtype
    let xs := (s.readX st .E m.xs).toNat
    let t := m.fx.toNat % 16
    let r0 := 16 * m.tix.toNat
    let k := m.fx.toNat / 16 % 8 + 1
    let slot := fun (u : State) (i : Nat) => u.mat.slots.get (fin 16 i)
    (∀ f cls, formOf (.bld o m) = some f → Ready s st f → o.vd.toNat < 16 → x.mclass x.vtype = some cls → o.vs1 = 0 → o.vs2 = 0 →
      let b : BldSrc := { cls := cls, sew := x.vtype.extractLsb' 0 3, fr := x.frOf cls x.vtype, a := s.readX st .E m.xs,
                          sh := s.readX st .E m.xs2, scl := none, ol := none }
      1 ≤ b.nn → b.nn ≤ 128 → 1 ≤ b.kk → b.kk ≤ 8192 / n → (n = 4 ∨ (s.readX st .E m.xs).toNat % (n / 8) = 0) →
      (slot s o.vd.toNat).rowmap = false → s.bldHeld st b = false →
      ∀ val : Nat → Nat → Nat,
      (∀ i j, i < b.kk → j < b.nn → s.portRead (s.acc st) (some (st, .E)) (tileVa b.a b.sh n i j).1 (max 1 (n / 8)) = .ok (val i j)) →
      let code := fun (i j : Nat) => if n = 4 then val i j / 16 ^ (tileVa b.a b.sh n i j).2 % 16 else val i j
      (∀ i j, i < b.kk → j < b.nn → cls = .narrow → (Narrow.ofReg b.fr).decode (code i j) ≠ .escape) →
      ∃ u, Engages s st (.bld o m) .matrixEngineTurn u
        ∧ (slot u o.vd.toNat).loaded = true ∧ (slot u o.vd.toNat).cls = cls ∧ (slot u o.vd.toNat).kk = b.kk ∧ (slot u o.vd.toNat).nn = b.nn
        ∧ (slot u o.vd.toNat).pin = (slot s o.vd.toNat).pin ∧ (slot u o.vd.toNat).src = b.a ∧ (slot u o.vd.toNat).fr = b.fr
        ∧ (slot u o.vd.toNat).list = []
        ∧ (∀ i j, i < b.kk → j < b.nn → ((slot u o.vd.toNat).data.get (j * 2048 + i)).toNat = code i j % 2 ^ 16)
        ∧ (∀ q, q < 16 → q ≠ o.vd.toNat → slot u q = slot s q) ∧ u.mat.tiles = s.mat.tiles)
    ∧ (∀ f, formOf (.ard o m) = some f → Ready s st f → t < 12 → m.tix.toNat < 8 → cols ≤ 128 → DestOk o.vd rows →
        (if m.fx.getLsbD 6 then vtKind x.vtype ≠ 2 ∧ 1 ≤ fld x.vtype 0 3 else vtFp x.vtype ≠ none) →
        let val := fun (r c : Nat) => ardVal x x.vtype o m (s.mat.acc t (r0 + r) c) c
        ∃ u, Commits s st (.ard o m) u ∧ VecRest s u st f ∧ Lanes x (u.strand st) o.vd m n (fun r c => (val r c).1)
          ∧ FlagsOf x (u.strand st) m (fun r c => (val r c).2) ∧ u.mat = s.mat)
    ∧ (∀ f lines, formOf (.ard o m) = some f → Ready s st f → t < 12 → m.tix.toNat < 8 → CanTrap s st lines →
        128 < cols ∨ (if m.fx.getLsbD 6 then vtKind x.vtype = 2 ∨ fld x.vtype 0 3 = 0 else vtFp x.vtype = none) →
        VecTraps s st (.ard o m) 0x1B (x.formatVal x.vtype))
    ∧ (∀ f row, formOf (.eptk o m) = some f → Ready s st f → m.fx.getLsbD 7 = false → t < 12 → m.tix.toNat < 8 → cols ≤ 128 → xs = 0 →
        r0 ≤ row → row < r0 + rows →
        let cand := fun (c : Nat) => (BitVec.ofNat 32 (s.mat.acc t row c), BitVec.ofNat 32 c)
        ∃ u e, Engages s st (.eptk o m) .matrixEngineTurn u ∧ u.mat.tiles = s.mat.tiles
          ∧ (u.mat.epi.find? fun q => q.task == x.task && q.tile == t && q.row == row) = some e
          ∧ e.depth = k ∧ e.ents.length = min k cols ∧ (∀ a ∈ e.ents, ∃ c, c < cols ∧ a = cand c)
          ∧ (∀ c, c < cols → cand c ∉ e.ents → ∀ a ∈ e.ents, epiAbove a (cand c) = true)
          ∧ e.ents.Pairwise fun a b => epiAbove a b = true)
    ∧ (∀ f, formOf (.eptk o m) = some f → Ready s st f → m.fx.getLsbD 7 = true → t < 12 → m.tix.toNat < 8 → cols ≤ 128 → xs = 0 →
        DestOk o.vd rows → DestOk o.vs2 rows → (o.vd.toNat + rows ≤ o.vs2.toNat ∨ o.vs2.toNat + rows ≤ o.vd.toNat) →
        (o.vd.toNat + rows ≤ 64 ∨ (64 ≤ o.vd.toNat ∧ o.vd.toNat + rows ≤ 72)) →
        (o.vs2.toNat + rows ≤ 64 ∨ (64 ≤ o.vs2.toNat ∧ o.vs2.toNat + rows ≤ 72)) →
        ∃ u, Commits s st (.eptk o m) u ∧ u.mat.tiles = s.mat.tiles ∧ ∀ r, r < rows → ∃ e,
          (u.mat.epi.find? fun q => q.task == x.task && q.tile == t && q.row == r0 + r) = some e
          ∧ ∀ c, c < k →
            elem ((u.strand st).readRow o.vd r) 32 c = (match e.ents[c]? with | some a => a.2.toNat | none => 0xFFFFFFFF)
            ∧ elem ((u.strand st).readRow o.vs2 r) 32 c = (match e.ents[c]? with | some a => a.1.toNat | none => 0xFFC00000))
    ∧ (∀ (rd : Reg) (q : Spec), q.toNat < 16 → (slot s q.toNat).rowmap = false →
        let b := slot s q.toNat
        (∀ f, formOf (.bslotPin q) = some f → Ready s st f → ∀ l, s.mat.owner = some l → b.pin = none →
          ∃ u, Engages s st (.bslotPin q) .matrixEngineTurn u ∧ slot u q.toNat = { b with pin := some l })
        ∧ (∀ f, formOf (.bslotUnpin q) = some f → Ready s st f →
          ∃ u, Engages s st (.bslotUnpin q) .matrixEngineTurn u ∧ slot u q.toNat = { b with pin := none })
        ∧ (∀ f, formOf (.bslotRelease q) = some f → Ready s st f →
          ∃ u, Engages s st (.bslotRelease q) .matrixEngineTurn u ∧ (slot u q.toNat).loaded = false ∧ (slot u q.toNat).pin = none
            ∧ ∀ j, j < 16 → j ≠ q.toNat → slot u j = slot s j)
        ∧ (∀ f, formOf (.bslotQuery rd q) = some f → Ready s st f → rd ≠ 0 → b.nn < 256 → b.kk < 65536 → b.list.length < 65536 →
          ∃ u, Commits s st (.bslotQuery rd q) u ∧ VecRest s u st f ∧ u.mat = s.mat
            ∧ let w := u.readX st .E rd
              fld w 0 1 = b.loaded.toNat ∧ fld w 1 1 = b.pin.isSome.toNat ∧ fld w 3 1 = b.rowmap.toNat
              ∧ fld w 4 1 = (b.cls == .narrow).toNat ∧ fld w 5 3 = b.sew.toNat ∧ fld w 8 8 = b.nn ∧ fld w 16 16 = b.kk
              ∧ fld w 32 16 = b.list.length))

/-! ### The row engine -/

/-- R248 to R254, R236 to R247: binding and unbinding a row map, counting the firings of activations, migrating, ageing and querying it,
for a map that the launch has bound under the present translations. R111: where the key slot that its counters are under is cleared,
ageing and querying it trap `PROT`. The moments at which a map is read are the model's reading (log 51,
log 52). -/
def Obligations.RowMapResults : Prop :=
  ∀ (s : State) (st : Fin 4) (m : BitVec 4) (rd rs1 : Reg) (vX : Spec) (r : RowMap), EngineReady s st →
    let x := s.strand st
    let rows := x.vlr.toNat
    let n := vtSew x.vtype
    let counter := fun (u : State) (k : Nat) => u.mapRead r (r.counterVa k) 2
    let cnt := fun (k : Nat) => min 65535 (counter s k + (r.pending.get k).toNat)
    -- the counters and the list lie apart, where a write marks no plat
    let apart := (List.range r.kk).flatMap (fun k => r.pas (r.counterVa k) 2) ++ r.pas r.listA (4 * r.cap)
    let sound := apart.Nodup ∧ (∀ a ∈ apart, Plain s a 1 ∧ s.heldAt a = false ∧ s.poisoned a = false ∧ ∀ e ∈ s.wcb, e.pa / 64 ≠ a / 64)
      ∧ r.pending.wf = true ∧ (∀ e ∈ r.pending, e.1 < r.kk) ∧ r.list.length = r.cap ∧ r.stale.length = r.cap
      ∧ (∀ k ∈ r.list, ∀ i, k = some i → i < 2 ^ 32) ∧ s.mapHeld r [] = false ∧ s.keyless (BitVec.ofNat 6 r.key) = false
    let after := fun (i : Instr) (P : VForm → State → Prop) => ∀ f, formOf i = some f → Ready s st f →
      ∃ u, Commits s st i u ∧ RegRest s u st f ∧ (u.strand st).v = x.v ∧ (u.strand st).p = x.p ∧ u.mat.tiles = s.mat.tiles ∧ P f u
    (s.mapCheck st m false = .ok r → rows ≤ vtG x.vtype → (∀ f, formOf (.rmfire vX m) = some f →
        x.rowOperand (x.capture s.cur.words f) r = none) →
      after (.rmfire vX m) fun _ u =>
        let fr := x.frOf r.cls x.vtype
        let act := fun (i k : Nat) =>
          let v := classVal r.cls fr (x.vtype.getLsbD 13) (elem (x.readRow vX i) n k)
          let code := x.v63Byte (i * 64 + k / (Narrow.ofReg fr).blk)
          if r.cls = .narrow then if code = 0x80 then .num (.fin false 0 0) else scaled v code.toInt else v
        ∃ r', u.mat.map m = some r' ∧ r' = { r with pending := r'.pending } ∧ u.mat.slots = s.mat.slots
          ∧ ∀ k, k < r.kk → (∀ i, i < rows → act i k ≠ .escape) →
              (r'.pending.get k).toNat = min (2 ^ 32 - 1) ((r.pending.get k).toNat
                + ((List.range rows).filter fun i => match act i k with | .num v => v.fires | .escape => false).length))
    ∧ (s.mapCheck st m true = .ok r → sound →
        after (.rmage m) (fun _ u => ∀ k, k < r.kk → counter u k = cnt k / 2 ^ r.shift)
        ∧ after (.rmqry rd m) (fun _ u =>
            let pos := (List.range r.cap).filter fun p => (r.list.getD p none).isSome
            (rd ≠ 0 → u.readX st .E rd = BitVec.ofNat 64 ((pos.filter fun p => !r.stale.getD p false).length
              + (pos.filter fun p => r.stale.getD p false).length * 2 ^ 32))
            ∧ (∀ k, k < r.kk → counter u k = cnt k)
            ∧ ∀ p, p < r.cap → u.mapRead r (r.listA + BitVec.ofNat 64 (4 * p)) 4 =
                match r.list.getD p none with
                | some k => if r.stale.getD p false then 0xFFFFFFFF else k
                | none => 0xFFFFFFFF)
        ∧ (let deep := if r.deepA == 0 then [] else [(r.deepA, (r.kk + 7) / 8)]
           let new := r.migrated cnt ((s.asSeen st .E).fixedDeep r)
           let reads := ((listed new).filter fun p => changedAt r new p.1).flatMap fun p => r.rowRanges p.2
           s.mapHeld r (deep ++ reads) = false → s.mapPoison r ((r.countA, 2 * r.kk) :: deep ++ reads) = none →
           after (.rmmig rd m) fun _ u =>
             (∃ r', u.mat.map m = some r' ∧ r'.list = new ∧ r'.pending = [] ∧ r'.fixed = (s.asSeen st .E).fixedDeep r)
             ∧ (∀ k, k < r.kk → counter u k = cnt k)
             ∧ (rd ≠ 0 → u.readX st .E rd = BitVec.ofNat 64 ((List.range r.cap).filter fun p => changedAt r new p).length)))
    ∧ (∀ lines i f, i = .rmage m ∨ i = .rmqry rd m → s.mapCheck st m true = .ok r → s.mapHeld r [] = false →
        s.keyless (BitVec.ofNat 6 r.key) = true → 0 < r.kk → (∀ a ∈ r.pas r.countA (2 * r.kk), isHbm a = true) →
        formOf i = some f → Ready s st f → CanTrap s st lines → VecTraps s st i 0x05 r.countA)
    ∧ (s.mapCheck st m false = .ok r → s.mapHeld r [] = false → s.keyless (BitVec.ofNat 6 r.key) = false →
        after (.rmbindUnbind m) fun _ u => u.mat.map m = none ∧ (∀ q ∈ u.seals, some q.key ≠ r.sealKey)
          ∧ ∀ i, r.slot = some i → (u.mat.slots.get (fin 16 i)).rowmap = false ∧ (u.mat.slots.get (fin 16 i)).loaded = false)
    ∧ (∀ (pas : List Nat) (key : Nat), s.xlateBytes (s.acc st) (s.readX st .E rs1) 128 true false = .ok pas → s.anyHeld pas = false →
        (∀ a ∈ pas, s.poisonedFor (some (st, .E)) a = false) →
        let b := s.bytesAt (some (st, .E)) (s.slotKey (s.acc st).key) pas
        let launch := (x.task.map fun t => t.launch).getD 0
        (descNat b 0 4 = 0x4D574F52 → descNat b 4 1 = 1 → descBad b = [] →
          (s.asSeen st .E).bindRead (s.acc st) (descMap b launch (s.acc st)) m (s.readX st .E rs1) = .ok r →
          s.mapHeld r ((r.wa, r.panelLen) :: (r.ranges.map fun g => (g.1, g.2.1))) = false → (s.asSeen st .E).bindCheck r m = .ok key →
          after (.rmbind rd rs1 m) fun _ u =>
            u.mat.map m = some { r with sealKey := some key }
            ∧ u.seals = s.seals ++ [{ key := key, pa := r.pa r.wa.toNat, len := r.panelLen }]
            ∧ (rd ≠ 0 → u.readX st .E rd = BitVec.ofNat 64 (r.list.filter fun e => e.isSome).length)
            ∧ ∀ i, r.slot = some i → (u.mat.slots.get (fin 16 i)).rowmap = true)
        ∧ (∀ lines f, descNat b 0 4 ≠ 0x4D574F52 → formOf (.rmbind rd rs1 m) = some f → Ready s st f → 
            CanTrap s st lines → VecTraps s st (.rmbind rd rs1 m) 0x30 (BitVec.ofNat 64 (1 + m.toNat * 2 ^ 8))))
    ∧ (∀ lines f i, i ∈ [Instr.rmage m, .rmqry rd m, .rmmig rd m, .rmfire vX m, .rmbindUnbind m] → s.mat.map m = none →
        formOf i = some f → Ready s st f → CanTrap s st lines →
        VecTraps s st i 0x30 (BitVec.ofNat 64 (7 + m.toNat * 2 ^ 8)))

/-- R241, R242, R252, R253: an accepted `RMMUL` writes the product over the resident rows into its tile at its turn and dispatches the
rest; the deep part lands in the second tile, one rounding for each fired row; `RMJOIN` adds the two tiles, ORs the flags of both parts,
and frees the entry that `RMMUL` reserved. That the deep weights are read at the arrival is the model's reading (log 53), and so is which
scale codes a product uses, all of them valid here (R87, log 24). -/
def Obligations.SplitProduct : Prop :=
  ∀ (s : State) (st : Fin 4) (m aJ aT : BitVec 4) (vX : Spec) (ad : Bool) (row0 : BitVec 3) (r : RowMap),
    let x := s.strand st
    let rows := x.vlr.toNat
    let n := vtSew x.vtype
    let r0 := 16 * row0.toNat
    let ftz := x.vtype.getLsbD 12
    let daz := x.vtype.getLsbD 13
    aT.toNat < 12 → aJ.toNat < 12 → aT ≠ aJ →
    (EngineReady s st → s.mapCheck st m true = .ok r → s.keyless (BitVec.ofNat 6 r.key) = false → ∀ f, formOf (.rmmul ad aT aJ vX m row0) = some f → Ready s st f →
      x.rowOperand (x.capture s.cur.words f) r = none → x.escapes (x.capture s.cur.words f) r.cls (x.frOf r.cls x.vtype) vX = [] →
      s.rowCode r (x.matEntry st (x.capture s.cur.words f) vX (x.frOf r.cls x.vtype) [] 0 none) = none →
      s.fifoFull st 2 = false → s.stackHolds st .E = false → rows ≤ vtG x.vtype → r0 + rows ≤ 128 → r.nn ≤ 128 → r.list.length = r.stale.length →
      let fr := x.frOf r.cls x.vtype
      let act := fun (i k : Nat) =>
        let v := classVal r.cls fr daz (elem (x.readRow vX i) n k)
        if r.cls = .narrow then scaled v (x.v63Byte (i * 64 + k / (Narrow.ofReg fr).blk)).toInt else v
      let b := s.mat.slots.get (fin 16 (r.slot.getD 0))
      -- the resident positions with their rows, in increasing position
      let pos := (listed r.list).filter fun e => !r.stale.getD e.1 false
      let weight := fun (p j : Nat) => weightVal r.cls r.fmt daz (b.data.get (j * 2048 + p)).toNat (b.scales.get (j * 2048 + p))
      let at_ := fun (q : Nat) => pos.getD q (0, 0)
      let val := fun (i j : Nat) => (mmaElem ftz false pos.length (if ad then 0 else Fmt.fp32.dazBits daz (s.mat.acc aT.toNat (r0 + i) j))
        (fun q => act i (at_ q).2) (fun q => .num (weight (at_ q).1 j)) [] []).1
      ∃ u d, Engages s st (.rmmul ad aT aJ vX m row0) .matrixEngineTurn u ∧ u.mat.deep = [d]
        ∧ d.strand = st ∧ d.aT = aT.toNat ∧ d.aJ = aJ.toNat ∧ d.row0 = r0 ∧ d.ready = false
        ∧ d.ks = (List.range r.kk).filter (fun k => !pos.any fun e => e.2 == k)
        ∧ (u.strand st).resv.get 2 = x.resv.get 2 + 1
        ∧ ∀ q i j, i < 128 → j < 128 → u.mat.acc q i j =
            if q = aT.toNat ∧ r0 ≤ i ∧ i < r0 + rows ∧ j < r.nn ∧ (pos ≠ [] ∨ ad = true) then val (i - r0) j % 2 ^ 32
            else s.mat.acc q i j)
    ∧ (∀ d, s.mat.deep = [d] → d.strand = st → d.aJ = aJ.toNat → d.ready = false →
        d.row0 + d.ent.ent.rows ≤ 128 → d.map.nn ≤ 128 → s.keyless (BitVec.ofNat 6 d.map.key) = false →
        s.anyHeld (d.map.pasOf (d.fired.flatMap fun k => d.map.rowRanges k)) = false →
        ∃ u, exec (.deepPartArrival st aJ) s = .next u ∧ (∃ e, u.mat.deep = [e] ∧ e.ready = true ∧ e.ent = d.ent ∧ e.aJ = d.aJ ∧ e.aT = d.aT)
          ∧ u.strands = s.strands
          ∧ ∀ q i j, i < 128 → j < 128 → u.mat.acc q i j =
              if q = aJ.toNat ∧ d.row0 ≤ i ∧ i < d.row0 + d.ent.ent.rows ∧ j < d.map.nn then
                (s.deepElem d d.fired (i - d.row0) j).1 % 2 ^ 32 else s.mat.acc q i j)
    ∧ (∀ d f, s.own st = some s → s.mat.mq = [] → s.mat.deep = [d] → d.ent.task = x.task → d.aJ = aJ.toNat → d.ready = true →
        d.lost = false → d.fault = none → d.code = none → d.row0 + d.ent.ent.rows ≤ 128 → d.map.nn ≤ 128 →
        formOf (.rmjoin aT aJ) = some f → Ready s st f →
        let sum := fun (i j : Nat) => Fmt.fp32.ftzBits ftz (Fmt.fp32.pack 0
          (Sys2Proof.Machine.Num.add 0 (Fmt.fp32.decode (s.mat.acc aT.toNat i j)) (Fmt.fp32.decode (s.mat.acc aJ.toNat i j))))
        ∃ u, Commits s st (.rmjoin aT aJ) u ∧ u.mat.deep = [] ∧ (u.strand st).resv.get 2 = x.resv.get 2 - 1
          ∧ (∀ q i j, i < 128 → j < 128 → u.mat.acc q i j =
              if q = aT.toNat ∧ d.row0 ≤ i ∧ i < d.row0 + d.ent.ent.rows ∧ j < d.map.nn then (sum i j).1 % 2 ^ 32
              else s.mat.acc q i j)
          ∧ ∀ g, (u.strand st).vstatus.getLsbD g = true ↔ (x.vstatus.getLsbD g = true ∨ d.flagsR.getLsbD g = true ∨ d.flagsD.getLsbD g = true
              ∨ ∃ i j, d.row0 ≤ i ∧ i < d.row0 + d.ent.ent.rows ∧ j < d.map.nn ∧ (sum i j).2.getLsbD g = true))
    ∧ (∀ lines f, s.own st = some s → s.mat.mq = [] → s.mat.deep = [] → CanTrap s st lines →
        formOf (.rmjoin aT aJ) = some f → Ready s st f → VecTraps s st (.rmjoin aT aJ) 0x30 9)

/-! ### Sparse matrices, coefficient memory, the write-combining buffer -/

/-- R256 to R259, R261, R265 to R267: `SPHDR` gives the entry count of a well-formed header and traps on an unknown magic; `SPCNT` writes
the count of each merged line, and `SPMRG` the indices and values of each merged line where C's pointers put them. The order of a header's
checks is the model's reading (log 76). -/
def Obligations.SparseResults : Prop :=
  ∀ (s : State) (st : Fin 4) (k : StreamId) (rd rs1 rs2 xs xs2 : Reg) (kz : Bool), s.cur.agent = .stream st k → s.memBusy st k = false →
    let va := s.readX st k rs1
    let key := s.slotKey (s.acc st).key
    let f := (s.readX st k xs).toNat
    let n := (s.readX st k xs2).toNat
    let lands := fun (va : W64) (pas : List Nat) => ∀ j (h : j < pas.length), s.vecXlate (s.acc st) (va + BitVec.ofNat 64 j) false true = .ok pas[j]
    let writes := fun (i : Instr) (ws : List (Nat × Byte)) =>
      ∃ t, exec i s = .next t ∧ t.strands = (s.goto st k (s.nextPc st k)).strands ∧ BytesWritten s t key ws
    (∀ b, va.toNat % 64 = 0 → s.spBytes st k va 64 = .ok b →
      let shape := hdrNat b 5 1
      let rows := hdrNat b 8 4
      let cols := hdrNat b 0xC 4
      let nnz := hdrNat b 0x10 8
      let minor := if shape % 2 = 1 then rows else cols
      let pw := if shape / 2 % 2 = 1 then 8 else 4
      let iw := if shape / 4 = 1 then 4 else 2
      let vw := if hdrNat b 6 1 = 1 ∨ hdrNat b 6 1 = 2 then 2 else 4
      (hdrNat b 0 4 = 0x584D5053 → hdrNat b 4 1 = 1 → shape < 8 → hdrNat b 6 1 < 4 → (hdrNat b 7 1 = 1 ∨ hdrNat b 7 1 = 3) →
        1 ≤ rows → 1 ≤ cols → (iw = 2 → minor ≤ 65536) → (pw = 4 → nnz < 2 ^ 32) → (∀ i, i < 16 → hdrNat b (0x30 + i) 1 = 0) →
        hdrNat b 0x18 8 % pw = 0 → hdrNat b 0x20 8 % iw = 0 → hdrNat b 0x28 8 % vw = 0 →
        Gives s st k rd (.sphdr false rd rs1) (BitVec.ofNat 64 nnz)
        ∧ ∃ h, s.spHeader st k va 0 = .ok h ∧ h.nnz = nnz ∧ h.major = (if shape % 2 = 1 then cols else rows) ∧ h.minor = minor
            ∧ h.pb = pw ∧ h.ib = iw ∧ h.vb = vw)
      ∧ ∀ lines, hdrNat b 0 4 ≠ 0x584D5053 → (k = .E → (s.strand st).viq = []) → CanTrap s st lines →
          ∃ t, exec (.sphdr false rd rs1) s = .next t ∧ AtHandler (s.strand st) (t.strand st) k 0x28 (s.stream st k).pc 1 false false)
    ∧ (∀ h, s.spHeader st k va 0 = .ok h → (∀ l, l < h.major → ∃ e, s.spLine st k h 0 true l = .ok e) →
        Gives s st k rd (.sphdr true rd rs1) (BitVec.ofNat 64 h.nnz))
    ∧ (∀ (a b : SpHdr) (la lb m : Nat → List (Nat × Nat)), s.spHeader st k va 0 = .ok a → s.spHeader st k (s.readX st k rs2) 1 = .ok b →
        a.agrees b = true → f + n ≤ a.major →
        (∀ i, i < n → s.spLine st k a 0 false (f + i) = .ok (la i) ∧ s.spLine st k b 1 false (f + i) = .ok (lb i)
          ∧ MergeOf a kz (la i) (lb i) (m i)) →
        (s.strand st).det = false → s.fits st 0 = true →
        (∀ pas, (s.readX st k rd).toNat % 4 = 0 → pas.length = 4 * n → lands (s.readX st k rd) pas → Writable s pas →
          writes (.spcnt kz rd rs1 rs2 xs xs2) (pas.zip ((List.range n).flatMap fun i => leBytes 4 (m i).length)))
        ∧ ∀ (c : SpHdr) (ptr : Nat → Nat) (pi pv : List Nat), s.spHeader st k (s.readX st k rd) 2 = .ok c → a.agrees c = true →
          (∀ i, i ≤ n → s.spElem st k c.pa c.pb (f + i) = .ok (ptr i)) → (∀ i, i < n → ptr (i + 1) = ptr i + (m i).length) →
          ptr n ≤ c.nnz → s.spOverlap st a b c = false →
          let es := (List.range n).flatMap m
          pi.length = c.ib * es.length → pv.length = c.vb * es.length →
          lands (c.ia + BitVec.ofNat 64 (ptr 0 * c.ib)) pi → lands (c.va + BitVec.ofNat 64 (ptr 0 * c.vb)) pv → Writable s (pi ++ pv) →
          writes (.spmrg kz rd rs1 rs2 xs xs2)
            (pi.zip (es.flatMap fun e => leBytes c.ib e.1) ++ pv.zip (es.flatMap fun e => leBytes c.vb e.2)))

/-- R49, R214: outside D-mode `COEFLD` replaces the named table, or both under t = 2, by the bytes it reads, in whichever stream once the
queue of the E-stream is empty, and the other table stays where a launch on the core uses it; in a D-mode launch it traps `DMODE_ILLEGAL`.
`TVAL` of the D-mode trap is free (log 21). That the tables are from then on those of every launch on the core, and of no other, is the model's
reading (log 40). -/
def Obligations.CoefficientLoads : Prop :=
  ∀ (s : State) (st : Fin 4) (k : StreamId) (t : BitVec 5) (rs : Reg) (pas : List Nat), s.cur.agent = .stream st k →
    (k = .E → (s.strand st).viq = []) → t.toNat ≤ 2 →
    let n := if t = 2 then 2 * 8224 else 8224
    let b := s.bytesAt (some (st, k)) (s.slotKey (s.acc st).key) pas
    let image := fun (j : Nat) => (b.drop (8224 * j)).take 8224
    let good := fun (img : List Byte) => hdrNat img 0xF 1 < 4 ∧ (∀ i, i < 16 → hdrNat img (0x10 + i) 1 = 0) ∧ hdrNat img 0xE 1 ≤ 7
      ∧ hdrNat img 0xC 2 ≤ 256
    ((s.strand st).det = false → (s.readX st k rs).toNat % 64 = 0 → s.xlateBytes (s.acc st) (s.readX st k rs) n true false = .ok pas →
      s.anyHeld pas = false → (∀ a ∈ pas, s.poisonedFor (some (st, k)) a = false) → good (image 0) → (t = 2 → good (image 1)) →
      ∃ u, exec (.coefld t rs) s = .next u ∧ u = { s.goto st k (s.nextPc st k) with coef := u.coef, coefFor := u.coefFor }
        ∧ u.coefFor = (if (s.strand st).task = none then s.coefFor else s.residents)
        ∧ ∀ (j : Fin 2) (a : Nat), (u.coef.get j).get a =
            if t = 2 then (if a < 8224 then b.getD (8224 * j.val + a) 0 else 0)
            else if j.val = t.toNat then (if a < 8224 then b.getD a 0 else 0) else ((if s.residents.any fun i => s.coefFor.contains i then s.coef else s.tablesOf (s.strand st)).get j).get a)
    ∧ ∀ lines, (s.strand st).det = true → CanTrap s st lines →
        ∃ u v, exec (.coefld t rs) s = .next u ∧ AtHandler (s.strand st) (u.strand st) k 0x23 (s.stream st k).pc v false false


/-! ### The copy and network engines -/

/-- R164, R167, R168: `CPW` and `CPR` write and read the shadow registers; `DEQ` pops the oldest record with its reservation, gives 0
where there is none to come, and its plain form waits for one that is; `CPCAN` stops the transfer that it names, with its record. R153,
R155, R165, R166, R364: a push that passes its checks takes the lowest free channel or network slot, reserves an output entry and gives
the id made of the slot and its sequence count; with none free, or behind a waiting push, it waits, and `COPY_START` grants a free channel
to the oldest that waits. The model's choices here: when a waiting push is checked again (log 62), that the free channel or slot taken is
the lowest (log 101), and that the record of an `ENQ` is read through the vector port (log 63). -/
def Obligations.EnginePushes : Prop :=
  (∀ (s : State) (st : Fin 4) (rd rs : Reg) (dev : Bool), s.cur.agent = .stream st .A →
      let x := s.strand st
      -- what R165 checks of a push, outside D-mode and for one that D-mode does not defer
      let ok := fun (v : State) (q : Fin 4) (p : CopyPush) =>
        p.formOk = true ∧ p.misaligned = none
        ∧ ((v.strand q).det = true → p.mode ≠ 2 ∧ p.mark = 0 ∧ v.copyInside (v.newCopy q 0 p false) = true)
        ∧ v.fifoFull q 0 = false ∧ v.fenced q .A (if p.dev then .dev else .cor) = true
      let lowest := fun (ch : Fin 16) => (s.channels.get ch).copy = none ∧ ∀ j < ch, (s.channels.get j).copy ≠ none
      let granted := fun (q : Fin 4) (rd : Reg) (p : CopyPush) (ch : Fin 16) (t : State) =>
        let id := BitVec.ofNat 4 ch.val ++ (s.channels.get ch).seq
        (∃ c, (t.channels.get ch).copy = some c ∧ c.push = p ∧ c.id = id ∧ c.strand = q ∧ c.task = (s.strand q).task ∧ c.acc = s.acc q)
        ∧ (t.channels.get ch).seq = (s.channels.get ch).seq + 1 ∧ (∀ j, j ≠ ch → t.channels.get j = s.channels.get j)
        ∧ (t.strand q).resv.get 0 = (s.strand q).resv.get 0 + 1 ∧ (rd ≠ 0 → t.readX q .A rd = id.setWidth 64)
        ∧ (t.stream q .A).pc = (s.stream q .A).pc + 4 ∧ (t.stream q .A).status = .run ∧ t.mem = s.mem
      let goes := fun (i : Instr) (p : CopyPush) => ok s st p →
        (∀ ch, s.copyQ = [] → lowest ch → ∃ t, exec i s = .next t ∧ granted st rd p ch t)
        ∧ ((s.copyQ ≠ [] ∨ ∀ ch, (s.channels.get ch).copy ≠ none) → ∃ t, exec i s = .next t
            ∧ t.copyQ = s.copyQ ++ [{ strand := st, rd := rd, push := p }] ∧ (t.stream st .A).status = .copyWait
            ∧ (t.stream st .A).pc = (s.stream st .A).pc ∧ t.channels = s.channels)
      let record := fun (pa : Nat) => (s.readX st .A rs).toNat % 64 = 0 ∧ s.fenced st .A (if dev then .dev else .cor) = true
        ∧ s.vecXlate (s.acc st) (s.readX st .A rs) true false = .ok pa ∧ s.inPart (s.acc st) pa = true ∧ s.anyPoison st .A pa 64 = false
      let b := fun (pa : Nat) => s.view (some (st, .A)) (s.slotKey (s.acc st).key) pa 64
      let word := fun (pa i : Nat) => BitVec.ofNat 64 (leNat (((b pa).drop (8 * i)).take 8))
      goes (.cpgo dev rd) { src := x.shadow.get 0, dst := x.shadow.get 1, shape0 := x.shadow.get 2, shape1 := x.shadow.get 3,
                            len := x.shadow.get 4, mark := x.shadow.get 5, mval := x.shadow.get 6, fold := x.shadow.get 7, dev := dev }
      ∧ (∀ pa, record pa →
          goes (.enqCopy dev rd rs) { src := word pa 0, dst := word pa 1, shape0 := word pa 2, shape1 := word pa 3, len := word pa 4,
                                      mark := word pa 5, mval := word pa 6, fold := word pa 7, dev := dev }
          ∧ ∀ i : Fin 16, netOk (b pa) = true → s.fifoFull st 4 = false → (∀ n ∈ x.net, n.slot ≠ i) → (∀ j < i, ∃ n ∈ x.net, n.slot = j) →
              let id := BitVec.ofNat 4 i.val ++ x.netSeq.get i
              ∃ t n, exec (.enqNet dev rd rs) s = .next t ∧ (t.strand st).net = x.net ++ [n] ∧ n.slot = i ∧ n.id = id ∧ n.task = x.task
                ∧ n.op.toNat = hdrNat (b pa) 0 1 ∧ n.mode.toNat = hdrNat (b pa) 1 1 ∧ n.len = hdrNat (b pa) 4 4 ∧ n.va = word pa 1
                ∧ n.dest.toNat = hdrNat (b pa) 16 4 ∧ n.offset = word pa 3 ∧ n.mark = word pa 4 ∧ n.mval = word pa 5
                ∧ (t.strand st).netSeq.get i = x.netSeq.get i + 1 ∧ (t.strand st).resv.get 4 = x.resv.get 4 + 1
                ∧ (rd ≠ 0 → t.readX st .A rd = id.setWidth 64) ∧ (t.stream st .A).pc = s.nextPc st .A)
      ∧ (∀ c rest ch, s.copyQ = c :: rest → lowest ch → ok ({ s with copyQ := rest }.wait c.strand .A .run) c.strand c.push →
          ∃ t, exec .copyStart s = .next t ∧ t.copyQ = rest ∧ granted c.strand c.rd c.push ch t))
  ∧ (∀ (s : State) (st : Fin 4) (k : StreamId) (rd rs : Reg), s.cur.agent = .stream st k →
      let x := s.strand st
      (∀ idx, k = .A → ∃ t, exec (.cpw idx rs) s = .next t ∧ OnlyStrand s t st
          ∧ t.strand st = { (s.goto st k (s.nextPc st k)).strand st with shadow := (t.strand st).shadow }
          ∧ ∀ j : Fin 8, (t.strand st).shadow.get j = if j.val = idx.toNat then s.readX st k rs else x.shadow.get j)
      ∧ (∀ idx, Gives s st k rd (.cpr rd idx) (x.shadow.get ⟨idx.toNat, idx.isLt⟩))
      ∧ (∀ (try_ : Bool) (e : Fin 5) (eng : BitVec 3), eng.toNat = e.val →
          (∀ r rest, x.fifo.get e = r :: rest →
            ∃ t, exec (.deq try_ rd eng) s = .next t ∧ OnlyStrand s t st
              ∧ t.strand st = { ((s.done st k rd r).acquired st k).strand st with fifo := (t.strand st).fifo, resv := (t.strand st).resv }
              ∧ ∀ j, (t.strand st).fifo.get j = (if j = e then rest else x.fifo.get j)
                  ∧ (t.strand st).resv.get j = if j = e then x.resv.get j - 1 else x.resv.get j)
          ∧ (x.fifo.get e = [] → (try_ = true ∨ x.resv.get e = 0) → Gives s st k rd (.deq try_ rd eng) 0)
          ∧ (x.fifo.get e = [] → try_ = false → 0 < x.resv.get e → exec (.deq try_ rd eng) s = .next s))
      ∧ (k = .A →
          let named := fun (ch : Fin 16) (c : Copy) => (s.channels.get ch).copy = some c ∧ c.strand = st ∧ c.task = x.task
            ∧ c.id = (s.readX st k rs).extractLsb' 0 16
          ((∀ ch c, ¬ named ch c) → Gives s st k rd (.cpcan rd rs) 0)
          ∧ ∀ ch c, named ch c → (∀ ch' c', named ch' c' → ch' = ch) →
              ∃ t, exec (.cpcan rd rs) s = .next t ∧ t.mem = s.mem
                ∧ (∀ j, (t.channels.get j).copy = if j = ch then none else (s.channels.get j).copy)
                ∧ (t.strand st).fifo.get 0 = x.fifo.get 0 ++ [c.id ++ (4 : Byte) ++ (if c.push.op = 0 then 3 else 4 : Byte) ++ (0 : BitVec 32)]
                ∧ (rd ≠ 0 → t.readX st k rd = 1) ∧ (t.stream st k).pc = s.nextPc st k))

/-- R154, R156, R158 to R162: a transfer visits its bytes plane by plane and run by run; it ends with its bytes copied or folded, then its
mark, then its record, for a task that still runs; a fault keeps what precedes it, without the mark, and raises `ENGINE_FAULT`; the
supervisor resolves or refuses a missing entry; the trap of a record is taken by the A-stream, or by the E-stream once that has ended.
R160, R341, R364, R365: a strand takes a pending engine fault as `ENGINE_FAULT` with the record in `TVAL`, in the A-stream, or in the
E-stream once that has ended; a network command of a task that still runs sends, writes or brings its bytes, then writes its mark, and its
slot is free; one whose destination cannot be reached fails with status 1. The model's choices here: a transfer reads all its source
before it writes (log 15), the status of a window out of reach (log 62), the moment at which a network command translates its addresses
(log 63), which entries the address-map policy permits (log 18), that an entry is installed only where the map has room for it (log 119), and how far a
transfer that faults has written (log 128). -/
def Obligations.TransferEnds : Prop :=
  (∀ (s : State) (ch : Fin 16) (c : Copy), (s.channels.get ch).copy = some c → (s.strand c.strand).runs c.task = true →
      let p := c.push
      let x := s.strand c.strand
      let key := s.slotKey c.acc.key
      let freed := fun (t : State) => ∀ j, (t.channels.get j).copy = if j = ch then none else (s.channels.get j).copy
      let record := fun (status : Byte) (done : Nat) => c.id ++ status ++ (if p.op = 0 then 3 else 4 : Byte) ++ BitVec.ofNat 32 done
      let ended := fun (t : State) => freed t ∧ (t.strand c.strand).pendFault = x.pendFault
        ∧ (t.strand c.strand).fifo.get 0 = x.fifo.get 0 ++ (if p.rec_ then [record 0 p.total] else [])
      let src := fun (pa n : Nat) => (List.range n).map fun j => s.taskByte c.task c.strand .A key (pa + j)
      (∀ (base shape : W64) (pl r i : Nat), r < p.runs → i < p.b →
        p.posVa base shape ((pl * p.runs + r) * p.b + i) = base + BitVec.ofNat 64 pl * (shape.extractLsb' 0 32).signExtend 64
          + BitVec.ofNat 64 r * (shape.extractLsb' 32 32).signExtend 64 + BitVec.ofNat 64 i)
      ∧ (∀ (sa da : Nat → Nat) (m : Nat), (∀ i, i < p.count → s.copyXlate c (p.srcVa i) true false = .ok (sa i)) →
          (p.mark ≠ 0 → s.copyXlate c p.mark false true = .ok m) → (∀ i, i < p.count → s.heldAt (sa i) = false ∧ s.lostAt (sa i) = false) →
          let mark := if p.mark = 0 then [] else (List.range 8).map fun j => m + j
          let markBs := if p.mark = 0 then [] else leBytes 8 p.mval.toNat
          ((∀ i, i < p.count → s.copyXlate c (p.dstVa i) (p.op != 0) true = .ok (da i)) → p.reduces = false →
            let dsts := (List.range p.count).flatMap fun i => (List.range p.unit).map fun j => da i + j
            let val := fun (i : Nat) => if p.op = 0 then src (sa i) 1
              else leBytes p.w (foldFn p.ty p.op (leNat (s.view none key (da i) p.w)) (leNat (src (sa i) p.w)))
            Writable s (dsts ++ mark) → (p.op ≠ 0 → ∀ e ∈ s.wcb, e.key = key ∨ isHbm e.pa = false) →
            (c.deferred = false → ∃ t, exec (.copyComplete ch) s = .next t ∧ ended t
              ∧ BytesWritten s t key ((dsts ++ mark).zip ((List.range p.count).flatMap val ++ markBs))
              ∧ (p.op = 0 → ∀ i, i < p.count → s.poisonedTo c.task c.strand .A (sa i) = true → da i / 64 ∈ t.poison))
            ∧ (c.deferred = true → ∃ t d, exec (.copyComplete ch) s = .next t ∧ ended t ∧ (∃ tk, c.task = some tk ∧ (tk, c.seq, d) ∈ t.deferred)
              ∧ BytesWritten s t key (mark.zip markBs)))
          ∧ (p.reduces = true → c.deferred = false → ∀ d, s.copyXlate c p.dst true true = .ok d →
              let dsts := (List.range p.w).map fun j => d + j
              Writable s (dsts ++ mark) → ∃ t, exec (.copyComplete ch) s = .next t ∧ ended t
                ∧ BytesWritten s t key ((dsts ++ mark).zip
                    (leBytes p.w (s.reduction p ((List.range p.count).flatMap fun i => src (sa i) p.w)) ++ markBs)))
          ∧ (∀ i0 f, i0 < p.count → p.op = 0 → c.deferred = false → (∀ i, i < i0 → s.copyXlate c (p.dstVa i) false true = .ok (da i)) →
              s.copyXlate c (p.dstVa i0) false true = .error f →
              (f.cause ≠ 0x04 → Writable s ((List.range i0).map da) → (p.mark ≠ 0 → s.heldAt m = false) →
                let status : Byte := if f.cause = 0x07 then 7 else 6
                ∃ t, exec (.copyFault ch) s = .next t ∧ freed t
                  ∧ BytesWritten s t key ((List.range i0).map fun i => (da i, s.taskByte c.task c.strand .A key (sa i)))
                  ∧ (t.strand c.strand).fifo.get 0 = x.fifo.get 0 ++ [record status i0]
                  ∧ (t.strand c.strand).pendFault = x.pendFault ++ [record status i0])
              ∧ (f.cause = 0x04 →
                  (∀ e, vmapEntry (s.vmapOf c.acc.asid) f.va = none → vmapVpn e = fld f.va 30 27 →
                    let may := e.getLsbD 63 = true ∧ vmapReserved e = 0 ∧ Config.withinPolicy (s.itemRev.get 3) c.acc.asid.toNat e = true
                      ∧ ∃ q, s.space c.acc.asid = some q ∧ ∀ d : Fin 8, q.dies.getLsbD d.val = true → (q.maps.get d).length < 8192
                        ∧ ∀ g ∈ q.maps.get d, ¬ (g.getLsbD 63 = true ∧ vmapVpn g = vmapVpn e)
                    ∃ t, exec (.resolveVmapAbsent ch (some e)) s = .next t ∧ t.mem = s.mem ∧ t.strands = s.strands
                      ∧ (may → (t.channels.get ch).copy = some { c with xl := c.xl ++ [e] } ∧ t.editLog = s.editLog ++ [.vmap c.acc.asid e]
                          ∧ t.spaces = s.spaces.map fun q => if q.asid = c.acc.asid then q.onDies (fun l => l ++ [e]) else q)
                      ∧ (¬ may → (t.channels.get ch).copy = some { c with refuse := true } ∧ t.editLog = s.editLog ∧ t.spaces = s.spaces))
                  ∧ (∀ e old, vmapEntry (s.vmapOf c.acc.asid) f.va = some old →
                    ∃ t, exec (.resolveVmapAbsent ch (some e)) s = .next t ∧ (t.channels.get ch).copy = some { c with xl := c.xl ++ [old] }
                      ∧ t.spaces = s.spaces ∧ t.mem = s.mem ∧ t.strands = s.strands)
                  ∧ ∃ t, exec (.resolveVmapAbsent ch none) s = .next t ∧ (t.channels.get ch).copy = some { c with refuse := true }
                      ∧ t.spaces = s.spaces ∧ t.mem = s.mem ∧ t.strands = s.strands))))
  ∧ (∀ (s : State) (st : Fin 4),
      let x := s.strand st
      let k : StreamId := if x.a.over then .E else .A
      (∀ r rest lines, x.pendFault = r :: rest → x.halt = .none → (x.stream k).status ≠ .absent → (∀ j va, (x.stream j).status ≠ .poisonDue va) →
        CanTrap s st lines →
        let pc := match (x.stream k).status with
          | .stackWait _ _ next => next
          | _ => (x.stream k).pc
        ∃ t, exec (.engineFaultTrap st) s = .next t ∧ AtHandler x (t.strand st) k 0x21 pc r false false
          ∧ (t.strand st).pendFault = rest)
      ∧ (∀ (n : NetOp) (before after : List NetOp) (ok : Bool) (data : List Byte) (pas : List Nat) (mark : Option Nat),
          x.net = before ++ n :: after → (∀ b ∈ before, b.slot ≠ n.slot ∧ ¬ (b.mode = 1 ∧ n.mode = 1 ∧ (b.op = 0 ↔ n.op = 0) ∧ b.dest = n.dest)) →
          (∀ b ∈ after, b.slot ≠ n.slot) → x.runs n.task = true → s.netLocal n = .ok (pas, mark) →
          (∀ a ∈ pas ++ mark.toList, s.heldAt a = false ∧ s.lostAt a = false) →
          let key := s.slotKey n.acc.key
          let marks := mark.toList.flatMap fun m => (List.range 8).map fun j => m + j
          let markBs := mark.toList.flatMap fun _ => leBytes 8 n.mval.toNat
          let src := pas.map fun pa => s.taskByte n.task st .A key pa
          let freed := fun (t : State) => (t.strand st).net = before ++ after
          let ended := fun (t : State) => freed t ∧ (t.strand st).pendFault = x.pendFault ∧ (t.strand st).fifo.get 4 = x.fifo.get 4
            ++ (if n.rec_ then [n.id ++ (0 : Byte) ++ (7 : Byte) ++ BitVec.ofNat 32 n.len] else [])
          let done := fun (ws : List (Nat × Byte)) (key : Nat) (msgs : List Msg) =>
            ∃ t, exec (.netComplete st n.slot ok data) s = .next t ∧ ended t ∧ BytesWritten s t key ws ∧ t.sent = s.sent ++ msgs
          (ok = true → s.netReaches n = true →
            (n.op = 0 → Writable s marks → done (marks.zip markBs) key [.net n.dest src])
            ∧ (n.op = 1 → ∀ pa, s.netPa n = some pa → pas.length = n.len →
                Writable s ((List.range n.len).map (fun j => pa + j) ++ marks) →
                done (((List.range n.len).map (fun j => pa + j) ++ marks).zip (src ++ markBs)) key [])
            ∧ (n.op = 2 → n.landed + data.length = n.len → pas.length = n.len → Writable s (pas ++ marks) →
                done ((pas.drop n.landed ++ marks).zip (data ++ markBs)) key []))
          ∧ ((ok = false ∨ s.netReaches n = false) →
              let r := n.id ++ (1 : Byte) ++ (7 : Byte) ++ (0 : BitVec 32)
              ∃ t, exec (.netComplete st n.slot ok data) s = .next t ∧ freed t ∧ t.mem = s.mem ∧ t.sent = s.sent
                ∧ (t.strand st).fifo.get 4 = x.fifo.get 4 ++ [r] ∧ (t.strand st).pendFault = x.pendFault ++ [r])))


/-! ### Access plats -/

/-- R124, R125, R127, R129, R139, R142 to R144: `PLATMK` builds a plat whose element j targets base + idx[j] × size, inside its footprint,
with its header in memory; `PLATCO` composes two; `PLATCK` reports what an apply would find; `PLATRL` releases. The size and the bytes of
a plat's body are free (log 13). The model's choices here: the bytes of the magic, which R127 gives in two ways (log 107), what `PLATMK` sees of the
stores that a D-mode wave holds (log 108), that a verify-mode digest takes index bytes as they are stored (log 106), and that a cleared key slot
makes their read trap `PROT`, with a free `TVAL` (log 21). -/
def Obligations.PlatResults : Prop :=
  ∀ (s : State) (st : Fin 4) (rd xh x1 x2 x3 : Reg) (iw : Bool) (lsz : BitVec 4) (m : Team), s.cur.agent = .stream st .A →
    s.teamOf st = some m → (∀ u ∈ s.teams, (s.strand st).task.any (fun k => u.holds k) = true → u = m) →
    let h := s.readX st .A xh
    let asid := (s.acc st).asid
    let hdr := s.scrBase + (s.strand st).platbase.toNat + h.toNat
    let fits := fun (n : Nat) => h.toNat % 64 = 0 ∧ h.toNat + (64 + 24 * n + 256) ≤ (s.strand st).platsize.toNat
      ∧ m.plats.length < 256 ∧ s.overlapped st h.toNat (64 + 24 * n + 256) = [] ∧ Writable s ((List.range (64 + 24 * n + 256)).map fun i => hdr + i)
    let built := fun (i : Instr) (n : Nat) (P : Plat → Prop) => ∃ t p, exec i s = .next t ∧ p ∈ t.plats st ∧ p.h = h.toNat ∧ p.n = n ∧ P p
      ∧ p.released = none ∧ p.body ≤ 24 * n + 256 ∧ (rd ≠ 0 → t.readX st .A rd = BitVec.ofNat 64 (64 + p.body))
      ∧ (t.stream st .A).pc = s.nextPc st .A
      ∧ (∀ i, i < 4 → t.homeByte 0 (hdr + i) = (leBytes 4 0x54414C50).getD i 0) ∧ t.homeByte 0 (hdr + 4) = 1
      ∧ t.homeByte 0 (hdr + 5) = p.flags ∧ t.homeByte 0 (hdr + 6) = p.reason
      ∧ (∀ key a, (∀ j, j < 64 + p.body → (hdr + j) / 64 ≠ a / 64) → ¬ s.platMark a → t.homeByte key a = s.homeByte key a)
      ∧ ∀ key a, ¬ (hdr ≤ a ∧ a < hdr + 64 + p.body) → ¬ s.platMark a → t.coreByte key a = s.coreByte key a
    let found := fun (w : W64) (p : Plat) => w.toNat % 64 = 0 ∧ s.findPlat st w.toNat = some p ∧ p.reason = 0 ∧ p.verify = false
      ∧ p.gen = s.genOf asid
    (let ia := s.readX st .A x1
     let n := (s.readX st .A x2).toNat
     let base := s.readX st .A x3
     let ib := if iw then 8 else 4
     let sz := 2 ^ lsz.toNat
     ∀ (ipas : List Nat) (tp : Nat → List Nat), fits n → 1 ≤ n → n ≤ 65536 → ia.toNat % ib = 0 →
       s.xlateBytes (s.acc st) ia (n * ib) true false = .ok ipas → s.anyHeld ipas = false → (∀ a ∈ ipas, s.poisonedTo (s.strand st).task st .A a = false) →
       (∀ a ∈ ipas, ¬ (hdr ≤ a ∧ a < hdr + (64 + 24 * n + 256))) →
       let b := s.bytesAt (some (st, .A)) (s.slotKey (s.acc st).key) ipas
       let idx := fun (j : Nat) => leWord ((b.drop (j * ib)).take ib)
       (∀ j, j < n → s.xlateBytes (s.acc st) (base + idx j * BitVec.ofNat 64 sz) sz true false = .ok (tp j)) →
       built (.platmk rd xh x1 x2 x3 iw lsz) n fun p => p.lsz = lsz.toNat ∧ p.base = base ∧ p.reason = 0 ∧ p.composed = false
         ∧ p.gen = s.genOf asid ∧ p.ta.length = n
         ∧ ∀ j, j < n → p.idx.getD j 0 = idx j ∧ p.ta.getD j 0 = base + idx j * BitVec.ofNat 64 sz ∧ p.pas.getD j [] = tp j)
    ∧ (∀ a b, found (s.readX st .A x1) a → found (s.readX st .A x2) b → fits b.n → a.lsz = b.lsz → (∀ i ∈ b.idx, i.toNat < a.n) →
        b.idx.length = b.n → s.anyHeld ((a.ranges ++ b.ranges).flatMap rangePas) = false →
        built (.platco rd xh x1 x2) b.n fun p => p.lsz = a.lsz ∧ p.base = a.base ∧ p.composed = true ∧ p.gen = a.gen
          ∧ ∀ j, j < b.n → p.ta.getD j 0 = a.ta.getD (b.idx.getD j 0).toNat 0 ∧ p.pas.getD j [] = a.pas.getD (b.idx.getD j 0).toNat [])
    ∧ (h.toNat % 64 = 0 → s.verifyHeld st h = false → s.keyless (s.acc st).key = false →
        (s.findPlat st h.toNat = none → Gives s st .A rd (.platck rd xh) 0x100)
        ∧ ∀ p, s.findPlat st h.toNat = some p →
          let v := if p.verify then 0x10000#64 else 0
          (p.reason ≠ 0 → Gives s st .A rd (.platck rd xh) (v + p.reason.setWidth 64))
          ∧ (p.reason = 0 → p.gen = s.genOf asid →
              (p.verify = true → s.idxDigest st .A p.ranges = p.digest) → Gives s st .A rd (.platck rd xh) v)
          ∧ (p.reason = 0 → p.gen ≠ s.genOf asid →
              ∃ t, exec (.platck rd xh) s = .next t ∧ (rd ≠ 0 → t.readX st .A rd = v + 2) ∧ t.findPlat st h.toNat = some { p with reason := 2 })
          ∧ (p.reason = 0 → p.gen = s.genOf asid → p.verify = true → s.idxDigest st .A p.ranges ≠ p.digest →
              ∃ t, exec (.platck rd xh) s = .next t ∧ (rd ≠ 0 → t.readX st .A rd = v + 3) ∧ t.findPlat st h.toNat = some { p with reason := 3 }))
    ∧ (∀ lines, h.toNat % 64 ≠ 0 → CanTrap s st lines →
        ∃ t, exec (.platck rd xh) s = .next t ∧ AtHandler (s.strand st) (t.strand st) .A 0x03 (s.stream st .A).pc h false false)
    ∧ (∀ lines p, h.toNat % 64 = 0 → s.verifyHeld st h = false → s.findPlat st h.toNat = some p → p.reason = 0 → p.gen = s.genOf asid →
        p.verify = true → s.keyless (s.acc st).key = true → (p.ranges.flatMap rangePas).any isHbm = true → CanTrap s st lines →
        ∃ t v, exec (.platck rd xh) s = .next t ∧ AtHandler (s.strand st) (t.strand st) .A 0x05 (s.stream st .A).pc v false false)
    ∧ (∀ p, h.toNat % 64 = 0 → s.findPlat st h.toNat = some p → (∀ q ∈ m.plats, q.h = p.h → q = p) → s.platBusy st p.h = false →
        p.released = none → s.scrSaved m = false →
        (∀ q ∈ s.seals, meets (platPa m p + 5) 2 q.pa q.len = true → some q.key ∈ p.seals) → ∃ t p', exec (.platrl xh) s = .next t ∧ (t.stream st .A).pc = s.nextPc st .A
          ∧ t.findPlat st h.toNat = some p' ∧ p' = { p with reason := if p.reason = 0 then 4 else p.reason, released := some m.relSeq }
          ∧ t.homeByte 0 (platPa m p + 5) = p'.flags ∧ t.homeByte 0 (platPa m p + 6) = p'.reason
          ∧ ∀ q, q ∈ t.seals ↔ q ∈ s.seals ∧ some q.key ∉ p.seals)

/-- R133, R136, R137, R140, R141: a gather or a scatter through a usable plat takes the lowest free slot of the plat queue, or waits; a
gather ends with every element's target bytes at its place, and a scatter with each unique target combined with the elements that name it
and are not squashed, in order; then the mark and the record of the task that pushed it. The model's choices here: that the free slot taken
is the lowest and that a push waits behind earlier waiting ones (log 101), when a waiting push is checked again (log 62), the order of the
targets (log 15), a gather onto its own targets (log 109) and the done count (log 67). -/
def Obligations.PlatTransfers : Prop :=
  ∀ (s : State) (st : Fin 4),
    let lowest := fun (i : Fin 16) => (s.platSlots.get i).op = none ∧ ∀ j < i, (s.platSlots.get j).op ≠ none
    let ok := fun (v : State) (q : PlatReq) (p : Plat) (form : List Nat × Option (List Nat) × Option Nat) =>
      v.verifyHeld q.strand q.h = false ∧ (v.platCheck q.strand .A q.h).2 = .ok p ∧ v.platForm q.strand q p = .ok form
      ∧ ((v.strand q.strand).det = false ∨ q.scatter = none ∨ ∀ a ∈ p.pas.flatMap id, v.inPart (v.acc q.strand) a = true)
      ∧ v.fifoFull q.strand 1 = false ∧ v.fenced q.strand .A (if q.dev then .dev else .cor) = true
    let taken := fun (q : PlatReq) (p : Plat) (form : List Nat × Option (List Nat) × Option Nat) (i : Fin 16) (t : State) =>
      let id := BitVec.ofNat 4 i.val ++ (s.platSlots.get i).seq
      (∃ o, (t.platSlots.get i).op = some o ∧ o.opid = id ∧ o.plat = p ∧ o.scatter = q.scatter ∧ o.mem = form.1 ∧ o.squash = form.2.1
        ∧ o.mark = form.2.2 ∧ o.mval = q.mval ∧ o.strand = q.strand ∧ o.task = (s.strand q.strand).task ∧ o.deferred = false)
      ∧ (t.platSlots.get i).seq = (s.platSlots.get i).seq + 1 ∧ (∀ j, j ≠ i → t.platSlots.get j = s.platSlots.get j)
      ∧ (t.strand q.strand).resv.get 1 = (s.strand q.strand).resv.get 1 + 1 ∧ (q.rd ≠ 0 → t.readX q.strand .A q.rd = id.setWidth 64)
      ∧ (t.stream q.strand .A).pc = (s.stream q.strand .A).pc + 12 ∧ (t.stream q.strand .A).status = .run ∧ t.mem = s.mem
    let goes := fun (i : Instr) (q : PlatReq) => s.cur.agent = .stream st .A → ∀ p form, ok s q p form →
      (∀ sl, s.platQ = [] → lowest sl → ∃ t, exec i s = .next t ∧ taken q p form sl t)
      ∧ ((s.platQ ≠ [] ∨ ∀ sl, (s.platSlots.get sl).op ≠ none) → ∃ t, exec i s = .next t ∧ t.platQ = s.platQ ++ [q]
          ∧ (t.stream st .A).status = .platWait ∧ (t.stream st .A).pc = (s.stream st .A).pc ∧ t.platSlots = s.platSlots)
    (∀ (dev : Bool) (rd xh xm xmark xval : Reg),
      goes (.platg dev rd xh xm xmark xval)
        { strand := st, rd := rd, dev := dev, scatter := none, h := s.readX st .A xh, mem := s.readX st .A xm, squash := none
          mark := s.readX st .A xmark, mval := s.readX st .A xval }
      ∧ ∀ op ty (pl : Bool) xpl, goes (.plats dev op ty pl xpl rd xh xm xmark xval)
          { strand := st, rd := rd, dev := dev, scatter := some (op, ty), h := s.readX st .A xh, mem := s.readX st .A xm
            squash := if pl then some (s.readX st .A xpl) else none, mark := s.readX st .A xmark, mval := s.readX st .A xval })
    ∧ (∀ q rest p form sl, s.platQ = q :: rest → lowest sl → ok ({ s with platQ := rest }.wait q.strand .A .run) q p form →
        ∃ t, exec .platOpStart s = .next t ∧ t.platQ = rest ∧ taken q p form sl t)
    ∧ (∀ (sl : Fin 16) (reach : Bool) (o : PlatOp), (s.platSlots.get sl).op = some o → (s.strand o.strand).runs o.task = true →
        (∀ a ∈ o.touches, s.heldAt a = false ∧ s.lostAt a = false) → s.platKeyless o = false → (reach = true ∨ ∀ a ∈ o.touches, paType a ≠ 3 ∧ paType a ≠ 4) →
        let key := s.slotKey o.acc.key
        let p := o.plat
        let marks := o.mark.toList.flatMap fun m => (List.range 8).map fun j => m + j
        let markBs := o.mark.toList.flatMap fun _ => leBytes 8 o.mval.toNat
        let byte := fun (pa : Nat) => s.taskByte o.task o.strand .A key pa
        let ended := fun (t : State) (status kind : Byte) (done : Nat) =>
          (∀ j, (t.platSlots.get j).op = if j = sl then none else (s.platSlots.get j).op)
          ∧ (t.strand o.strand).fifo.get 1 = (s.strand o.strand).fifo.get 1 ++ [o.opid ++ status ++ kind ++ BitVec.ofNat 32 done]
          ∧ (t.strand o.strand).pendFault = (s.strand o.strand).pendFault
        let u := (uniqueTa p.ta).length
        (o.scatter = none → o.deferred = false → o.mem.length = (p.pas.flatMap id).length → Writable s (o.mem ++ marks) →
          ∃ t, exec (.platGatherComplete sl reach) s = .next t ∧ ended t 0 1 u
            ∧ BytesWritten s t key ((o.mem ++ marks).zip ((p.pas.flatMap id).map byte ++ markBs)))
        ∧ (∀ op ty, o.scatter = some (op, ty) →
            (o.deferred = true → Writable s marks → ∃ t, exec (.platScatterComplete sl reach) s = .next t ∧ ended t 3 2 o.captured
              ∧ BytesWritten s t key (marks.zip markBs))
            ∧ (o.deferred = false → p.pas.length = p.n → p.ta.length = p.n → (∀ q ∈ p.pas, q.length = p.sz) → o.mem.length = p.n * p.sz →
                let first := fun (a : W64) => (p.ta.idxOf a)
                let pas := fun (a : W64) => p.pas.getD (first a) []
                let named := fun (a : W64) => (List.range p.n).filter fun j => p.ta.getD j 0 == a && !(s.platSquash o).getD j false
                let val := fun (j : Nat) => leNat (((o.mem.drop (j * p.sz)).take p.sz).map byte)
                let old := fun (a : W64) => leNat (s.bytesAt none key (pas a))
                let new := fun (a : W64) => (named a).foldl (fun v j => scatFn op ty (8 * p.sz) v (val j)) (old a)
                let live := (uniqueTa p.ta).filter fun a => !(named a).isEmpty
                let back := if op = .swap then (List.range p.n).filter fun j => !(s.platSquash o).getD j false else []
                let backPas := back.flatMap fun j => (o.mem.drop (j * p.sz)).take p.sz
                Writable s (live.flatMap pas ++ backPas ++ marks) → (∀ e ∈ s.wcb, e.key = key ∨ isHbm e.pa = false) →
                ∃ t, exec (.platScatterComplete sl reach) s = .next t ∧ ended t 0 2 u
                  ∧ BytesWritten s t key ((live.flatMap pas ++ backPas ++ marks).zip
                      (live.flatMap (fun a => leBytes p.sz (new a)) ++ back.flatMap (fun j => s.bytesAt none key (pas (p.ta.getD j 0))) ++ markBs)))))

/-! ### Pre-emption, budgets and the supervisor -/

/-- R221, R320, R345 to R348, R357: a pre-emption request halts every strand that runs, with its registers as they were, and is noted for one
that waits for the supervisor or a rerun; once a launch has waited one quantum, its expiry moves the victim's contexts off their strands; a
resumed strand of a launch outside D-mode goes on with the registers it had; the matrix state is saved with a launch whose teams are all
parked, and its tiles stay as they are. The place of a displaced team in the queue is the model's reading (log 115). -/
def Obligations.PreemptionResults : Prop :=
  ∀ (s : State) (st : Fin 4),
    let x := s.strand st
    let active := fun (x : Strand) => x.task ≠ none ∧ ¬ (x.a.over = true ∧ x.e.over = true) ∧ x.halt = .none
    let same := fun (x y : Strand) => (∀ k, (y.stream k).pc = (x.stream k).pc ∧ (y.stream k).x = (x.stream k).x
        ∧ (y.stream k).sfctl = (x.stream k).sfctl ∧ (y.stream k).instret = (x.stream k).instret)
      ∧ y.v = x.v ∧ y.p = x.p ∧ y.o = x.o ∧ y.k = x.k ∧ y.viq = x.viq ∧ y.q = x.q ∧ y.q6 = x.q6 ∧ y.q7 = x.q7 ∧ y.vtype = x.vtype
      ∧ y.vstatus = x.vstatus ∧ y.mask = x.mask ∧ y.fifo = x.fifo ∧ y.shadow = x.shadow ∧ y.task = x.task
    -- the launch of a task has no matrix state to bring back
    let plain := fun (x : Strand) => ∀ t, x.task = some t → s.mat.owner ≠ some t.launch ∧ ∀ e ∈ s.savedMat, e.1 ≠ t.launch
    -- a launch outside D-mode that the core is offered to
    let may := fun (x : Strand) => x.preDue = false ∧ ∀ t, x.task = some t → s.offered t.launch = true
      ∧ ∀ l, s.launch t.launch = some l → l.hdr.det = false
    -- a task that waits for the supervisor or for its rerun
    let waits := fun (x : Strand) => x.task ≠ none ∧ ¬ (x.a.over = true ∧ x.e.over = true) ∧ x.halt ≠ .none ∧ x.halt ≠ .preempted
    ((∀ p ∈ s.others, p.1 ≠ s.core) → ∃ t, exec .preemptRequest s = .next t ∧ t.mem = s.mem ∧ t.mat = s.mat ∧ t.teams = s.teams
      ∧ ∀ u, (active (s.strand u) → (t.strand u).halt = .preempted ∧ same (s.strand u) (t.strand u))
          ∧ (waits (s.strand u) → t.strand u = { s.strand u with preDue := true })
          ∧ (¬ active (s.strand u) → ¬ waits (s.strand u) → t.strand u = s.strand u))
    ∧ (x.task ≠ none → x.halt = .preempted → s.away st .A = false → s.away st .E = false → plain x → may x →
        (∀ tm ∈ s.teams, x.onTeam tm = true → s.scrSaved tm = false) →
        ∃ t, exec (.strandResume st) s = .next t ∧ t = { s.modStrand st (fun y => { y with halt := .none }) with queue := t.queue }
          ∧ ∀ q ∈ t.queue, q ∈ s.queue)
    ∧ (∀ (p : Parked) (tm : Team), x.task = none → s.parked = [p] → p.st = st → p.ctx.halt = .preempted → s.teams = [tm] →
        p.ctx.onTeam tm = true → s.scrSaved tm = false → (s.lastSpace = none ∨ s.lastSpace = s.teamConfid tm) →
        (∀ k, (p.ctx.stream k).status = .run ∧ (p.ctx.stream k).owes = none) → plain p.ctx → may p.ctx →
        s.bindQuiet st = true → x.vlcap = p.ctx.vlcap → (∀ e ∈ s.savedCoef, e.1 ≠ tm.launch) →
        ∃ t, exec (.strandResume st) s = .next t ∧ same p.ctx (t.strand st) ∧ (t.strand st).halt = .none ∧ t.parked = [] ∧ t.mem = s.mem)
    ∧ (∀ l tm, s.launch l.id = some l → (s.wants l).1 = true ∨ (s.wants l).2 = true → s.quantum * 2250 ≤ (s.cycle - l.since).toNat →
        s.victim l = some tm → tm.core = s.core → (∀ m, s.launch tm.launch = some m → m.hdr.det = false) →
        ∃ t, exec (.quantumExpiry l.id) s = .next t ∧ t.mem = s.mem
          ∧ ∀ u, u ∈ s.membersOf tm → active (s.strand u) → (t.strand u).task = none
              ∧ ∃ p ∈ t.parked, p.st = u ∧ p.ctx.halt = .preempted ∧ same (s.strand u) p.ctx)
    ∧ (∀ l, s.mat.owner = some l → s.launchParked l = true → s.launchRuns l = false →
        ∃ t, exec .matrixStateSave s = .next t ∧ (l, s.mat) ∈ t.savedMat ∧ t.mat.owner = none ∧ t.mat.tiles = s.mat.tiles
          ∧ t.mat.mq = [] ∧ (∀ i : Fin 16, (t.mat.slots.get i).pin = none ∧ t.mat.maps.get i = none)
          ∧ t.strands = s.strands ∧ t.mem = s.mem)

/-- R324, R325, R340: an exhausted budget ends the launch with status 0x10, traps `BUDGET` with the budget in `TVAL`, or halts the task
for a rerun, as the header's policy says, and the fourth exhaustion of a rerun task ends the launch; a rerun task starts again from its
entry state, with its held stores and deferred operations gone. That a budget in a handler ends the launch is the model's reading (log
71). -/
def Obligations.BudgetResults : Prop :=
  ∀ (s : State) (st : Fin 4) (tk : Task) (l : Launch),
    let x := s.strand st
    let k : StreamId := if x.e.over then .A else .E
    x.task = some tk → s.launch tk.launch = some l → l.id = tk.launch → (x.a.over = false ∨ x.e.over = false) →
    let killed := l.phase = .running → ∃ t l', exec (.budgetExhausted st) s = .next t ∧ t.launch l.id = some l' ∧ l'.phase = .ending 0x10
      ∧ (∀ q ∈ t.queue, q ≠ l.id) ∧ (∀ u, (s.strand u).of l.id = true → (t.strand u).over = true) ∧ t.mem = s.mem
    (l.hdr.budget ≠ 0 → x.halt = .none →
      (l.hdr.policy = 0 → killed)
      ∧ (l.hdr.policy = 2 → s.inHandler st = false → 3 ≤ tk.reruns → killed)
      ∧ (s.inHandler st = true → killed)
      ∧ (∀ lines, l.hdr.policy = 1 → x.pendFault = [] → (∀ j va, (x.stream j).status ≠ .poisonDue va) → CanTrap s st lines →
          let pc := match (x.stream k).status with
            | .stackWait _ _ next => next
            | _ => (x.stream k).pc
          ∃ t, exec (.budgetExhausted st) s = .next t ∧ AtHandler x (t.strand st) k 0x22 pc l.hdr.budget false false)
      ∧ (l.hdr.policy = 2 → s.inHandler st = false → tk.reruns < 3 →
          ∃ t, exec (.budgetExhausted st) s = .next t ∧ (t.strand st).halt = .rerun ∧ (t.strand st).task = x.task ∧ t.mem = s.mem
            ∧ ∀ u, u ≠ st → t.strand u = s.strand u))
    ∧ (x.halt = .rerun → x.preDue = false → s.away st .A = false → s.away st .E = false → s.pushing st tk = false → s.mat.owner ≠ some tk.launch →
        (∀ e ∈ s.savedMat, e.1 ≠ tk.launch) → (∀ tm ∈ s.teams, x.onTeam tm = true → s.scrSaved tm = false) →
        ∃ t, exec (.taskRerun st) s = .next t ∧ t.mem = s.mem ∧ (∀ h ∈ t.held, h.task ≠ tk) ∧ (∀ d ∈ t.deferred, d.1 ≠ tk)
          ∧ let y := t.strand st
            y.halt = .none ∧ y.task = some { tk with reruns := tk.reruns + 1 } ∧ y.e.pc = l.hdr.eEntry ∧ y.e.status = .run
            ∧ (l.hdr.apresent = true → y.a.pc = l.hdr.aEntry ∧ y.a.status = .run) ∧ (l.hdr.apresent = false → y.a.status = .absent)
            ∧ (∀ (j : StreamId) (r : Reg), t.readX st j r = if r = 3 then l.hdr.args
                else if r = 4 then BitVec.ofNat 64 (tk.team.toNat * l.hdr.z + tk.ix) else if r = 5 then BitVec.ofNat 64 tk.ix else 0)
            ∧ y.v = x.v ∧ y.p = x.p ∧ y.o = x.o ∧ y.viq = [] ∧ y.vtype = 0 ∧ y.vlc = 0 ∧ y.vstatus = 0 ∧ y.tstatus = 0 ∧ y.aspace = x.aspace)

/-- R111, R115, R339, R340, R361: what the supervisor does with a parked strand: it runs the access again, with an entry for a page that
had none; it forwards the cause to the handler path with fwd set; or on `POISON` under the kill policy it ends the launch TRAPPED. Whether
the policy admits an entry is free (log 18); that it is installed only where the map has room for it (log 119) and which causes an event answers
(log 72) are the model's readings. -/
def Obligations.SupervisorResults : Prop :=
  ∀ (s : State) (st : Fin 4) (tk : Task) (c : Byte) (tpc tval : W64) (vec : Bool) (k : StreamId),
    let x := s.strand st
    x.task = some tk → x.halt = .supervisor c tpc tval vec k → x.preDue = false → s.away st .A = false → s.away st .E = false →
    (s.mat.owner ≠ some tk.launch) → (∀ e ∈ s.savedMat, e.1 ≠ tk.launch) → (∀ tm ∈ s.teams, x.onTeam tm = true → s.scrSaved tm = false) →
    let freed := s.modStrand st fun y => { y with halt := .none }
    ((c = 0x04 ∨ c = 0x06) →
      exec (.supervisorRetry st []) s = .next freed
      ∧ ∀ e,
          let asid := (s.acc st).asid
          let may := e.getLsbD 63 = true ∧ vmapReserved e = 0 ∧ Config.withinPolicy (s.itemRev.get 3) asid.toNat e = true
            ∧ ∃ q, s.space asid = some q ∧ ∀ d : Fin 8, q.dies.getLsbD d.val = true → (q.maps.get d).length < 8192
              ∧ ∀ g ∈ q.maps.get d, ¬ (g.getLsbD 63 = true ∧ vmapVpn g = vmapVpn e)
          ∃ t, exec (.supervisorRetry st [e]) s = .next t ∧ t.strands = freed.strands ∧ t.mem = s.mem
            ∧ (may → t.spaces = (s.spaces.map fun q => if q.asid = asid then q.onDies (fun l => l ++ [e]) else q)
                ∧ t.editLog = s.editLog ++ [.vmap asid e])
            ∧ (¬ may → t.spaces = s.spaces ∧ t.editLog = s.editLog))
    ∧ (∀ lines, (c = 0x08 → s.forwardsPoison x = true) → CanEnter s st lines →
        ∃ t, exec (.supervisorForward st) s = .next t ∧ AtHandler x (t.strand st) k c tpc tval vec true ∧ (t.strand st).halt = .none)
    ∧ (∀ l, c = 0x08 → s.forwardsPoison x = false → s.launch tk.launch = some l → l.phase = .running →
        ∃ t l', exec (.supervisorKill st) s = .next t ∧ t.launch tk.launch = some l' ∧ l'.phase = .ending 0x11
          ∧ l'.detail = (x.wid <<< 32 ||| 8) ∧ (t.strand st).over = true ∧ t.mem = s.mem)

/-! ### Launches, teams and waves -/

/-- R312, R318, R321, R332, R333, R359, R361: `LNCH` and `LAUNCH_SUBMIT` accept a launch whose header passes every check, with the next
id, which is in its queue at once where nothing holds it back; a refused header gives its status, to a child in the result and in a
record. The status of a header is that of the first condition of R312's table, with the levels of R313, that holds of its bytes. The id
after 0xFFFFFFFE and the status where no die holds the space are the model's reading (log 65); whether there is room for a drain log or a
snapshot is the supervisor's choice (`Config.spaceFor`). -/
def Obligations.LaunchSubmissions : Prop :=
  ∀ (s : State) (b : List Byte) (p : Space),
    let id : BitVec 32 := if s.nextId = 0xFFFFFFFF then 0 else s.nextId
    let accepted := fun (t : State) (poison : Byte) (parent : Option (Fin 4 × Task)) => t.nextId = id + 1 ∧ t.mem = s.mem
      ∧ ((∀ l ∈ s.launches, l.id ≠ id) → ∃ l, t.launch id = some l ∧ l.hdr = parseHeader b ∧ l.asid = p.asid ∧ l.poison = poison
          ∧ l.parent = parent ∧ l.nextTeam = 0
          ∧ (hdrNat b 0x50 4 = 0xFFFFFFFF → hdrNat b 0x54 4 = 0xFFFFFFFF → l.phase = .queued ∧ id ∈ t.queue))
    (∀ parent : Option Nat,
      let at_ := hdrNat b
      let w := fun (i : Nat) => at_ (0x20 + i) 1
      let o := fun (f : Nat) => ((List.range (min f 6)).map w).sum
      let t := at_ 0x26 1
      let g := at_ 0x27 1
      let dmode := at_ 5 1 % 2 = 1
      let closure := at_ 5 1 / 2 % 2 = 1
      let levels := ∃ f, f ≤ 6 ∧ (∀ i, i < f → w i ≠ 0) ∧ (∀ i, f ≤ i → i < 6 → w i = 0) ∧ o f ≤ 64 ∧ (o f < 64 → at_ 0x18 8 ≤ 2 ^ o f)
        ∧ t ≤ g ∧ g ≤ f ∧ o t ≤ 2
      let good := at_ 0 4 = 0x48434E4C ∧ at_ 4 1 = 1 ∧ at_ 5 1 < 16 ∧ at_ 6 1 < 8 ∧ at_ 7 1 < 3 ∧ at_ 0x6C 1 < 16 ∧ at_ 0x6D 3 = 0
        ∧ at_ 0x7C 4 = 0 ∧ at_ 0x18 8 ≠ 0 ∧ (∀ i, i < 6 → w i ≤ 64) ∧ at_ 8 8 % 4 = 0 ∧ at_ 0x10 8 % 4 = 0 ∧ at_ 0x48 8 % 64 = 0
        ∧ at_ 0x58 8 % 8 = 0 ∧ at_ 0x70 8 % 8 = 0 ∧ (at_ 5 1 / 4 % 2 = 1 ↔ at_ 0x10 8 ≠ 0) ∧ levels
        ∧ (at_ 7 1 = 2 → dmode ∧ at_ 5 1 / 8 % 2 = 1) ∧ (closure → at_ 0x70 8 ≠ 0 ∧ s.regions p (BitVec.ofNat 64 (at_ 0x70 8)) ≠ none)
        ∧ at_ 0x30 4 % 64 = 0 ∧ at_ 0x34 4 % 64 = 0 ∧ at_ 0x78 4 % 2 ^ 16 = 0
      let big := 2 ^ 22 < at_ 0x30 4 + at_ 0x34 4 ∨ (dmode ∧ 32 < 2 ^ (o g - o t))
      let unknown := ∃ a, (a = at_ 0x50 4 ∨ a = at_ 0x54 4) ∧ a ≠ 0xFFFFFFFF ∧ s.nextId.toNat ≤ a
      let above := ∃ q, parent = some q ∧ q < at_ 6 1
      let noRoom := (at_ 0x78 4 ≠ 0 ∨ closure) ∧ Config.spaceFor s.tick (at_ 0x78 4) = false
      let status := s.headerStatus p b parent
      (¬ good → status = 0x20) ∧ (good → big → status = 0x21) ∧ (good → ¬ big → unknown → status = 0x22)
      ∧ (good → ¬ big → ¬ unknown → above → status = 0x24) ∧ (good → ¬ big → ¬ unknown → ¬ above → noRoom → status = 0x25)
      ∧ (good → ¬ big → ¬ unknown → ¬ above → ¬ noRoom → status = 0))
    ∧ (∀ (st : Fin 4) (k : StreamId) (rd rs1 : Reg) (pas : List Nat), s.cur.agent = .stream st k →
      let va := s.readX st k rs1
      let mine := s.launchOf st
      let status := s.headerStatus p b (mine.map fun l => l.hdr.priority)
      va.toNat % 128 = 0 → (∀ l, mine = some l → l.hdr.closed = false) → s.fifoFull st 3 = false → s.fenced st k .dev = true →
      s.schedulerUp = true → s.space (s.acc st).asid = some p →
      let refused := fun (status : Byte) => ∃ t, exec (.lnch rd rs1) s = .next t ∧ t.launches = s.launches ∧ t.mem = s.mem
        ∧ (rd ≠ 0 → t.readX st k rd = 0x8000000000000000 + status.setWidth 64) ∧ (t.stream st k).pc = s.nextPc st k
        ∧ (t.strand st).fifo.get 3 = (s.strand st).fifo.get 3 ++ [(0xFFFFFFFF : BitVec 32) ++ (0 : BitVec 16) ++ status ++ (6 : Byte)]
        ∧ (t.strand st).resv.get 3 = (s.strand st).resv.get 3 + 1
      (s.anyDieReady p = false → refused 0x23)
      ∧ (s.anyDieReady p = true → s.xlateBytes (s.acc st) va 128 true false = .ok pas → s.anyHeld pas = false →
          (∀ a ∈ pas, s.poisoned a = false) → b = s.homeBytes (s.slotKey (s.acc st).key) pas →
          (status ≠ 0 → refused status)
          ∧ (status = 0 → ∃ t, exec (.lnch rd rs1) s = .next t
              ∧ accepted t ((mine.map fun l => l.poison).getD 0) ((s.strand st).task.map fun t => (st, t))
              ∧ (rd ≠ 0 → t.readX st k rd = id.setWidth 64) ∧ (t.strand st).resv.get 3 = (s.strand st).resv.get 3 + 1
              ∧ (t.stream st k).pc = s.nextPc st k)))
    ∧ (∀ (r : Rcp) (x : Session) (hdr poison : W64), s.session r.session = some x → r.magic = 0x46504352 → r.major = x.major →
        r.len = 16 → poison.toNat ≤ 1 →
        s.space x.asid = some p → s.anyDieReady p = true → hdr.toNat % 128 = 0 → s.readSpace p hdr 128 = .ok b → s.headerHeld x hdr = false →
        let status := s.headerStatus p b none
        (status = 0 → ∃ t, exec (.launchSubmit r hdr poison) s = .next t ∧ accepted t (poison.setWidth 8) none ∧ t.strands = s.strands
          ∧ t.sent = s.sent ++ [.reply r.session (rcpFrame 0x8002 r.tag (leBytes 4 0 ++ leBytes 4 id.toNat))])
        ∧ (status ≠ 0 → ∃ t, exec (.launchSubmit r hdr poison) s = .next t ∧ t.launches = s.launches ∧ t.strands = s.strands ∧ t.mem = s.mem
          ∧ t.sent = s.sent ++ [.reply r.session (rcpFrame 0x8002 r.tag (leBytes 4 status.toNat))]))

/-- R29, R126, R237, R270, R314, R317, R323, R326, R342, R350: a dispatched team's strands stand at task entry, with their places in
`WID`, `TEAMIX`, `LNCHID`, `LCORE` and the bounds, v, p and o registers as they were; a preload changes nothing; a retired team leaves the
core with its strands free, its plats released and its seals gone. `SEED` follows the second run of a closure check (R331). That `TVEC` is
aligned is the model's reading (log 74); the bases of partitions are the dispatcher's choice. -/
def Obligations.TeamResults : Prop :=
  ∀ (s : State) (l : Launch) (team : W64), s.launch l.id = some l →
    (∀ (p : Space) (strands : List (Fin 4)) (base : Nat) (s1 : State), s.space l.asid = some p → l.offers team = true → s.offered l.id = true →
      s.readyFor l p team strands base = some s1 → s.snap l p ≠ none → s.boundFor l p ≠ none →
      ∃ t m, exec (.teamDispatch l.id team strands base) s = .next t ∧ m ∈ t.teams ∧ m.launch = l.id ∧ m.team = team ∧ m.core = s.core
        ∧ m.strands = strands ∧ m.plats = [] ∧ t.mem = s1.mem
        ∧ (∃ l', t.launch l.id = some l' ∧ l'.phase = .running ∧ l'.nextTeam = l.nextTeam + 1 ∧ l'.hdr = l.hdr)
        ∧ (∀ st, st ∉ strands → t.strand st = s1.strand st)
        ∧ (l.hdr.closed = true → l.second = true → (∀ u ∈ s1.teams, u.core = s.core → u.launch = l.id) →
            t.seed = BitVec.ofNat 64 (1 + l.digest1.toNat % 23))
        ∧ ∀ ix (h : ix < strands.length),
            let st := strands[ix]
            let y := t.strand st
            let x := s1.strand st
            let wid : W64 := BitVec.ofNat 64 (team.toNat * l.hdr.z + ix)
            y.task = some { launch := l.id, team := team, ix := ix, reruns := 0 } ∧ y.e.pc = l.hdr.eEntry ∧ y.e.status = .run
            ∧ (l.hdr.apresent = true → y.a.pc = l.hdr.aEntry ∧ y.a.status = .run) ∧ (l.hdr.apresent = false → y.a.status = .absent)
            ∧ (∀ (k : StreamId) (r : Reg), t.readX st k r = if r = 3 then l.hdr.args else if r = 4 then wid
                else if r = 5 then BitVec.ofNat 64 ix else 0)
            ∧ y.wid = wid ∧ y.teamix = BitVec.ofNat 64 ix ∧ y.lnchid = l.id.setWidth 64
            ∧ y.lcore = BitVec.ofNat 64 (if l.hdr.det then team.toNat % l.hdr.c else s.core)
            ∧ y.spbase = BitVec.ofNat 64 base ∧ y.spsize = BitVec.ofNat 64 l.hdr.scratch
            ∧ y.platbase = BitVec.ofNat 64 (base + l.hdr.scratch) ∧ y.platsize = BitVec.ofNat 64 l.hdr.arena
            ∧ y.dmode = (if l.hdr.det then 1 else 0) ∧ y.tvec.toNat = l.hdr.handler.toNat / 4 * 4 ∧ y.tframe = 0
            ∧ y.aspace = p.root.extractLsb' 12 44 ++ (0 : BitVec 2) ++ p.key ++ p.asid
            ∧ y.viq = [] ∧ y.vtype = 0 ∧ y.vlc = 0 ∧ y.vlr = 0 ∧ y.vstatus = 0 ∧ y.tstatus = 0 ∧ y.vlcap = 6 ∧ y.fr = Vector.replicate 8 0
            ∧ y.k = Vector.replicate 4 [] ∧ y.l0 = List.replicate 16 0 ∧ y.l1 = List.replicate 16 0
            ∧ y.v = x.v ∧ y.p = x.p ∧ y.o = x.o)
    ∧ exec .preload s = .next s
    ∧ (∀ m, (s.teams.find? fun t => t.launch == l.id && t.team == team) = some m → m.core = s.core → s.mayRetire m = true →
        (s.lastHere m = true → (s.mat.owner = none ∨ s.mat.owner = some l.id) ∧ s.flushHeld l.id = false) →
        ∃ t, exec (.teamRetire l.id team) s = .next t ∧ (∀ u ∈ t.teams, ¬ (u.launch = l.id ∧ u.team = team))
          ∧ (∀ st, st ∈ s.membersOf m → (t.strand st).task = none)
          ∧ (∀ st, st ∉ s.membersOf m → t.strand st = s.strand st)
          ∧ (∀ q ∈ t.seals, some q.key ∉ (m.plats.filter fun p => p.released.isNone).flatMap fun p => p.seals)
          ∧ (s.lastHere m = true → t.mat.owner = none) ∧ ((∀ u ∈ t.teams, u.core ≠ s.core) → t.seed = 0)
          ∧ (s.lastHere m = false → t.mat = { s.mat with deep := t.mat.deep }
              ∧ (∀ key a, ¬ s.platMark a → t.homeByte key a = s.homeByte key a)
              ∧ ∀ p, m.plats = [p] → p.released = none → s.scrSaved m = false → (∀ u ∈ s.teams, u.launch = l.id → u.team = team → u = m) →
                  (∀ q ∈ s.seals, meets (platPa m p + 5) 2 q.pa q.len = false) →
                  let p' := { p with reason := if p.reason = 0 then 4 else p.reason, released := some m.relSeq }
                  t.homeByte 0 (platPa m p + 5) = p'.flags ∧ t.homeByte 0 (platPa m p + 6) = p'.reason))

/-- R304, R306, R318, R327 to R331, R333: at the wave fence the held bytes reach their homes core by core, task by task, the E-stream's
before the A-stream's, each in program order; a launch whose effects have all performed completes with its mark, its record and its
parent's, and lets waiting launches into their queue; an expired window sends what it has gathered as one message. The record of a run
that ends early is the model's choice and not stated (log 31); that records stay gathered while no port is usable is its choice too (log 134). -/
def Obligations.LaunchEnds : Prop :=
  ∀ (s : State) (l : Launch), s.launch l.id = some l →
    (l.hdr.det = true → s.waveOver l = true → s.deferring l.id = false → (∀ o ∈ s.others, o.1 ≠ s.core) → s.anyHeld (s.fencePas l) = false →
      ∃ t l', exec (.waveFence l.id) s = .next t ∧ t.launch l.id = some l' ∧ l' = { l with wave := l.wave + 1, since := l'.since }
        ∧ (∀ h, h ∈ t.held ↔ h ∈ s.held ∧ h.task.launch ≠ l.id) ∧ (∀ d, d ∈ t.deferred ↔ d ∈ s.deferred ∧ d.1.launch ≠ l.id)
        ∧ t.strands = s.strands
        ∧ ((∀ d ∈ s.deferred, d.1.launch ≠ l.id) → ∀ key pa, s.lostAt pa = false → key < 2 ^ 513 →
            (∀ h ∈ s.held, h.pa / 64 = pa / 64 → h.task.launch = l.id → h.key = key ∨ isHbm pa = false) →
            let order := (List.range l.hdr.c).flatMap fun c => (List.range 4).flatMap fun ix => [StreamId.E, .A].flatMap fun k =>
              s.held.filter fun h => h.task.launch == l.id && h.task.team.toNat % l.hdr.c == c && h.task.ix == ix && h.stream == k
            t.homeByte key pa = (order.filter fun h => h.pa == pa).foldl (fun b h => applyBits b h.byte h.bits) (s.homeByte key pa)))
    ∧ (∀ (p : Space) (pa : Nat), l.hdr.closed = false → l.phase = .running → l.hdr.teams ≤ l.nextTeam → (l.hdr.det = true → l.hdr.teams ≤ l.wave * l.hdr.c) →
        s.settled l = true →
        (l.hdr.mark ≠ 0 → s.space l.asid = some p ∧ s.xlateVia p.acc p.map l.hdr.mark false true = .ok pa) →
        let marks := if l.hdr.mark = 0 then [] else (List.range 8).map fun j => pa + j
        Writable s marks →
        let bytes := fun (c : Completion) => leBytes 4 c.launch.toNat ++ [c.status, c.flags, 0, 0] ++ leBytes 8 c.detail.toNat
          ++ leBytes 8 c.digest1.toNat ++ leBytes 8 c.digest2.toNat
        let rec_ : Completion := { endpoint := l.hdr.endpoint, cls := l.hdr.cls, launch := l.id, status := 0, flags := 0, detail := l.detail
                                   digest1 := l.digest1, digest2 := 0 }
        ∃ t l', exec (.launchComplete l.id) s = .next t ∧ t.launch l.id = some l' ∧ l'.phase = .complete 0
          ∧ BytesWritten s t (s.slotKey p.key) (marks.zip (leBytes 8 l.hdr.mval.toNat))
          ∧ (∀ e, s.endpoint l.hdr.endpoint = some e → l.hdr.endpoint ≠ 0 →
              (e.windows.getD l.hdr.cls 0 = 0 → s.portUp = true →
                t.sent = s.sent ++ [.records ((s.gatheredOf l.hdr.endpoint l.hdr.cls ++ [rec_]).map bytes)])
              ∧ (s.portUp = false → t.sent = s.sent ∧ t.gathered = s.gathered ++ [rec_])
              ∧ (e.windows.getD l.hdr.cls 0 ≠ 0 → (s.gatheredOf l.hdr.endpoint l.hdr.cls).length < 31 →
                  t.sent = s.sent ∧ t.gathered = s.gathered ++ [rec_]))
          ∧ (∀ st tk, l.parent = some (st, tk) → (s.strand st).runs (some tk) = true →
              (t.strand st).fifo.get 3 = (s.strand st).fifo.get 3 ++ [l.id ++ (0 : BitVec 16) ++ (0 : Byte) ++ (6 : Byte)])
          ∧ ∀ w ∈ s.launches, w.id ≠ l.id → w.phase = .waiting → w.hdr.pre0 = l.id → w.hdr.pre1 = 0xFFFFFFFF → l.id ≠ 0xFFFFFFFF → w.id ∈ t.queue)
    ∧ (∀ p, l.hdr.closed = true → l.phase = .running → l.hdr.teams ≤ l.nextTeam → (l.hdr.det = true → l.hdr.teams ≤ l.wave * l.hdr.c) →
        s.settled l = true → s.space l.asid = some p → s.regionsHeld l p = false →
        (l.second = false → Writable s (l.snapshot.map fun e => e.1) →
          ∃ t l', exec (.launchComplete l.id) s = .next t ∧ t.launch l.id = some l' ∧ l'.second = true ∧ l'.nextTeam = 0 ∧ l'.wave = 0
            ∧ l'.phase = .running ∧ l'.digest1 = s.digestOut l p ∧ l.id ∈ t.queue ∧ BytesWritten s t (s.slotKey p.key) l.snapshot)
        ∧ (l.second = true → l.hdr.mark = 0 → ∃ t l', exec (.launchComplete l.id) s = .next t ∧ t.launch l.id = some l'
            ∧ l'.phase = .complete (if s.digestOut l p = l.digest1 then 1 else 2) ∧ t.seed = s.seed))
    ∧ (l.phase = .waiting → (s.prereqFailed l.hdr.pre0 = true ∨ s.prereqFailed l.hdr.pre1 = true) → l.hdr.mark = 0 →
        ∃ t l', exec (.launchComplete l.id) s = .next t ∧ t.launch l.id = some l' ∧ l'.phase = .complete 0x14)
    ∧ (∀ (ep : BitVec 32) (cls : BitVec 4), s.gatheredOf ep cls.toNat ≠ [] → s.portUp = true →
        exec (.coalesceWindowExpiry ep cls) s = .next { s with
          sent := s.sent ++ [.records ((s.gatheredOf ep cls.toNat).map Completion.bytes)]
          gathered := s.gathered.filter fun c => !(c.endpoint == ep && c.cls == cls.toNat) })

/-! ### Stacks, device reset, the host and the network -/

/-- R13, R105, R107, R109, R366, R368: what a stack's critical temperature, its end, the end of self-refresh, a long hold and a retirement
do, and what a stack that is ready again does with the requests that it has kept (log 122); the reseeding of a generator; a change of readiness; and
device reset, which puts every register at its reset value: where the spec gives a register none, that is the model's choice (log 3 for the vector,
tile, slot and coefficient contents, log 5 for the others), and so is what the event resets beside the registers (log 41). Which launches a retirement ends is the model's
reading (log 75). Memory over a device reset is the model's choice and not stated; the generator's value at reset is left out (log 17). -/
def Obligations.StackResults : Prop :=
  ∀ (s : State) (n : Fin 24),
    let x := s.stks.get n
    let ready := fun (t : State) (i : Nat) => (t.readiness.get (fin 64 i)).toNat
    let others := fun (t : State) => ∀ m, m ≠ n → t.stks.get m = s.stks.get m
    -- whether the stack serves its queue once it is no longer held, and whether that holds none but streams' own requests
    let serves := x.event = true ∨ (ready s n.val ≠ 0 ∧ ready s n.val ≠ 1 ∧ ready s n.val ≠ 5)
    let own := ∀ q ∈ x.queue, ∀ core t w ns keys at_, q ≠ .work core t w ns keys at_
    -- no stack has a request that it could serve already
    let idle := s.nextServed = none
    let stays := fun (t : State) => t.strands = s.strands ∧ t.mem = s.mem ∧ t.poison = s.poison ∧ t.teams = s.teams ∧ others t
    (x.hold ≠ .retired → ∃ t, exec (.stackCriticalTemp n) s = .next t ∧ stays t ∧ t.stks.get n = { x with hold := .refresh true })
    ∧ (∀ a, x.hold = .refresh a →
        (∃ t, exec (.criticalTempDeassert n) s = .next t ∧ stays t ∧ t.stks.get n = { x with hold := .refresh false })
        ∧ (x.event = false → ∃ t, exec (.stackHoldEvent n) s = .next t ∧ stays t ∧ t.stks.get n = { x with event := true }
            ∧ ready t n.val = 3 ∧ t.sent = s.sent ++ [.stackHold n.val]))
    ∧ (x.hold = .refresh false → idle → ∃ t, exec (.selfRefreshExit n) s = .next t
        ∧ (x.event = true → ready t n.val = 2)
        ∧ (¬ serves → stays t ∧ t.stks.get n = { x with hold := .none, event := false })
        ∧ (serves → own → others t ∧ t.stks.get n = { x with hold := .none, event := false, queue := [] }
          ∧ (∀ key pa, stackOf pa = n → isHbm pa = true → key < 2 ^ 513 →
              (∀ q ∈ x.queue, (∃ a b c p bs key' at_, q = .store a b c p bs key' at_ ∧ p % 64 + bs.length ≤ 64 ∧ (p / 64 = pa / 64 → key' = key))
                ∨ ∃ es, q = .line es ∧ ∀ e ∈ es, e.pa / 64 = pa / 64 → e.key = key) →
              t.homeByte key pa = x.queue.foldl (fun v q => match q with
                | .store _ _ _ p bs _ _ => if p ≤ pa ∧ pa < p + bs.length then bs.getD (pa - p) 0 else v
                | .line es => es.foldl (fun b e => if e.pa = pa then applyBits b e.byte e.bits else b) v
                | _ => v) (s.homeByte key pa))))
    ∧ (x.event = true → ∃ t, exec (.stackRetire n) s = .next t ∧ ready t n.val = 4
        ∧ (own → idle → others t ∧ t.mem = s.mem ∧ t.stks.get n = { x with hold := .retired, event := false, queue := [] })
        ∧ ∀ l, l.id ∈ s.launchesAt n → s.launch l.id = some l → l.phase = .running →
            ∃ l', t.launch l.id = some l' ∧ l'.phase = .ending 0x13)
    ∧ (x.stkref.getLsbD 31 = false → 2 ^ 20 ≤ x.steps → ∃ t g, exec (.generatorReseed n) s = .next t ∧ stays t
        ∧ t.stks.get n = { x with gen := g, steps := 0 })
    ∧ (∀ (ix : Fin 48) (code : Byte), (code = 0 ∨ code = 1 ∨ code = 2 ∨ code = 5) → ix.val < 47 →
        (∀ h : ix.val < 24, (s.stks.get ⟨ix.val, h⟩).event = false ∧ (s.stks.get ⟨ix.val, h⟩).hold ≠ .retired) → idle →
        ∃ t, exec (.readinessChange ix code) s = .next t ∧ t.readiness.get (fin 64 ix.val) = code
          ∧ ((∀ h : ix.val < 24, code = 2 → (s.stks.get ⟨ix.val, h⟩).queue = []) → t.strands = s.strands ∧ t.mem = s.mem
              -- what has waited for a usable port leaves once one is
              ∧ t.sent = (if t.portUp = true then s.sent ++ s.outbox else s.sent) ∧ t.outbox = if t.portUp = true then [] else s.outbox)
          ∧ (∀ h : ix.val < 24, code = 2 → (s.stks.get ⟨ix.val, h⟩).hold = .none →
              (∀ q ∈ (s.stks.get ⟨ix.val, h⟩).queue, ∀ core t w ns keys at_, q ≠ .work core t w ns keys at_) → (t.stks.get ⟨ix.val, h⟩).queue = [])
          ∧ ∀ j : Fin 64, j.val ≠ ix.val → t.readiness.get j = s.readiness.get j)
    ∧ ∃ t, exec .deviceReset s = .next t ∧ t.strands = State.reset.strands ∧ t.mat = State.reset.mat ∧ t.coef = State.reset.coef
        ∧ t.pwrlim = State.reset.pwrlim ∧ t.seed = 0 ∧ t.launches = [] ∧ t.teams = [] ∧ t.sessions = [] ∧ t.keys = State.reset.keys
        ∧ t.others = [] ∧ (∀ m : Fin 24, { t.stks.get m with gen := Stack.reset.gen } = Stack.reset)
        ∧ (∀ i, s.staged = some i → t.firmware = i) ∧ (s.staged = none → t.firmware = s.firmware)

/-- R111, R121, R358 to R363, R366 to R368: a frame of an open session, of its major version and of its kind's length is served and answered,
with its effect on sessions, endpoints, windows, spaces, vector maps, keys and firmware; a report carries the SHAKE256 hash of what it
measures. The model's choices here: a kind without a meaning is 0x30 with or without a session (log 57), a refused image is answered 0x33
(log 11), a frame with another magic is dropped and counted (log 117), what the edit log holds (log 58, log 118), which edits the policy
permits (log 18), and the hash function's details (log 116). -/
def Obligations.CommandResults : Prop :=
  ∀ (s : State) (r : Rcp),
    -- the reply of R359, byte by byte
    let frame := fun (kind : BitVec 16) (status : BitVec 32) (body : List Byte) => Msg.reply r.session
      ([0x52, 0x43, 0x50, 0x46, 1, 0] ++ leBytes 2 (kind ||| 0x8000).toNat ++ leBytes 4 r.tag.toNat
        ++ leBytes 4 (4 + body.length) ++ leBytes 4 status.toNat ++ body)
    let magic := r.magic = 0x46504352
    let answered := fun (t : State) (kind : BitVec 16) (status : BitVec 32) (body : List Byte) =>
      t.sent = s.sent ++ [frame kind status body] ∧ t.strands = s.strands ∧ t.mem = s.mem
    (∀ versions (asid : BitVec 16), magic → r.len.toNat ≤ 65520 → (∀ x, s.session r.session = some x → r.major = x.major) →
        (versions.length ≤ 16 → asid.toNat < 4096 → (1, 0) ∈ versions → ∃ t, exec (.sessionOpen r versions asid) s = .next t
          ∧ t.session r.session = some { id := r.session, major := 1, minor := 0, asid := asid.setWidth 12 }
          ∧ (∀ m ∈ t.measured, m.1 ≠ r.session) ∧ answered t 1 0 [1, 0])
        ∧ ((1, 0) ∉ versions → ∃ t, exec (.sessionOpen r versions asid) s = .next t ∧ t.sessions = s.sessions ∧ answered t 1 0x31 []))
    ∧ (∀ kind : BitVec 16, 9 < kind.toNat → kind.toNat < 2 ^ 15 → magic → r.len.toNat ≤ 65520 → (∀ x, s.session r.session = some x → r.major = x.major) →
        ∃ t, exec (.unknownKind r kind) s = .next t ∧ answered t kind 0x30 [])
    ∧ (∀ i, i ∈ [Instr.readinessQuery r, .fwUpdate r [] false, .endpointReg r 0 []] →
        (s.session r.session = none → magic → ∃ t, exec i s = .next t ∧ t.dropped = s.dropped ∧ ∃ kind, answered t kind 0x32 [])
        ∧ (¬ magic → exec i s = .next { s with dropped := s.dropped + 1 })
        ∧ ∀ x, s.session r.session = some x → r.major ≠ x.major → exec i s = .next { s with dropped := s.dropped + 1 })
    ∧ (∀ x, s.session r.session = some x → magic → r.major = x.major → r.len.toNat ≤ 65520 →
        (r.len ≠ 0 → ∃ t, exec (.readinessQuery r) s = .next t ∧ t.readiness = s.readiness ∧ answered t 5 0x31 []) ∧
        (∀ ep (ws : List Nat), ws.length = 16 → (∀ w ∈ ws, w ≤ 1000) → ∃ t, exec (.endpointReg r ep ws) s = .next t
            ∧ t.endpoint ep = some { id := ep, windows := ws } ∧ (∀ e, e ≠ ep → t.endpoint e = s.endpoint e) ∧ answered t 3 0 [])
        ∧ (r.len = 0 → ∃ t, exec (.readinessQuery r) s = .next t ∧ ∃ body, answered t 5 0 body ∧ body.length = 64
            ∧ ∀ i, i < 64 → body.getD i 0 = if 24 ≤ i ∧ i < 32 ∧ s.readiness.get (fin 64 i) = 2 ∧ s.dieReady (i - 24) = false then 1
                else s.readiness.get (fin 64 i))
        ∧ (∀ chunk, ∃ t, exec (.fwUpdate r chunk false) s = .next t ∧ t.incoming = s.incoming ++ chunk ∧ t.firmware = s.firmware ∧ answered t 7 0 [])
        ∧ (∀ chunk, let good := Config.imageSigned (s.incoming ++ chunk)
            ∃ t, exec (.fwUpdate r chunk true) s = .next t ∧ t.staged = (if good then some (s.incoming ++ chunk) else s.staged)
              ∧ t.incoming = [] ∧ t.firmware = s.firmware ∧ answered t 7 (if good then 0 else 0x33) [])
        ∧ (∀ q : WindowReq, q.window.toNat < 4096 → q.flags = 0 ∨ q.flags = 1 → q.zeros = 0 → q.len.toNat % 4096 = 0 → q.pinVa = 0 → q.pinLen = 0 →
            r.len = 40 →
            let good := Config.withinPolicy (s.itemRev.get 3) x.asid.toNat q.base
            ∃ t, exec (.windowReg r q) s = .next t ∧ answered t 4 (if good then 0 else 0x33) []
              ∧ t.window (q.flags.getLsbD 0) q.window.toNat = (if good then some
                  { number := q.window.toNat, peer := q.flags.getLsbD 0, base := q.base, len := q.len.toNat, pinned := [] }
                  else s.window (q.flags.getLsbD 0) q.window.toNat)
              ∧ t.editLog = s.editLog ++ (if good then [.window (q.flags.getLsbD 0) false q.window.toNat q.base q.len.toNat] else []))
        ∧ (∀ i, 1 ≤ i → i ≤ 6 → ∃ t pre post, exec (.spdm r (.measure i)) s = .next t ∧ (r.session, i) ∈ t.measured
            ∧ answered t 6 0 (pre ++ shake256 (s.measuredContent i) ++ post) ∧ t.editLog = if i = 3 then [] else s.editLog)
        ∧ (∀ (slot : BitVec 6) (pair : BitVec 512), slot ≠ 0 → (∀ i, i ∈ [3, 4, 5] → (r.session, i) ∈ s.measured) →
            ∃ t body, exec (.spdm r (.setKey slot pair)) s = .next t ∧ answered t 6 0 body
              ∧ ∀ j : Fin 64, t.keys.get j = if j.val = slot.toNat then some pair else s.keys.get j)
        ∧ (∃ t body, exec (.spdm r (.change 3)) s = .next t ∧ t.keys = State.reset.keys ∧ (∀ m ∈ t.measured, m.2 ≠ 3 ∧ m.2 ≠ 4 ∧ m.2 ≠ 5)
            ∧ t.sent = s.sent ++ s.sessions.map (fun y => Msg.measurementChanged y.id) ++ [frame 6 0 body])
        ∧ (∀ q : SpaceReq, q.flags = 0 → q.key.toNat < 64 → q.zeros = 0 → q.root.toNat % 4096 = 0 → q.root.toNat < 2 ^ 56 →
            q.asid = x.asid.setWidth 16 → (q.key = 0 ∨ s.keys.get (fin 64 q.key.toNat) ≠ none) → r.len = 16 →
            (∀ d, d < 8 → q.dies.getLsbD d = true → s.dieFull x.asid d = false) → s.space x.asid = none →
            ∃ t, exec (.spaceSet r q) s = .next t ∧ answered t 8 0 []
              ∧ t.gens = s.gens ∧ ∃ p, t.space x.asid = some p ∧ p.asid = x.asid ∧ p.key = q.key.setWidth 6 ∧ p.root = q.root ∧ p.dies = q.dies
                ∧ ∀ d, p.maps.get d = [])
        ∧ (∀ (hdr : W64) (entries : List W64) (p : Space), fld hdr 32 32 = 0 → fld hdr 16 16 = entries.length → entries.length ≤ 1024 →
            fld hdr 0 16 = x.asid.toNat → s.space x.asid = some p → r.len.toNat = 8 + 8 * entries.length →
            (∀ e ∈ entries, vmapReserved e = 0 ∧ (e.getLsbD 63 = true → Config.withinPolicy (s.itemRev.get 3) x.asid.toNat e = true)) →
            (entries.map vmapVpn).Nodup → (∀ d, (p.maps.get d).length + entries.length ≤ 8192) → s.translatedDone x.asid = true →
            ∃ t p', exec (.vmapSet r hdr entries) s = .next t ∧ t.space x.asid = some p' ∧ t.sent = s.sent ++ [frame 9 0 []]
              ∧ t.editLog = s.editLog ++ entries.map (.vmap x.asid)
              ∧ t.gens.get x.asid.toNat = s.gens.get x.asid.toNat + 1
              ∧ (∀ d : Fin 8, p.dies.getLsbD d.val = true → ∀ va, vmapEntry (p'.maps.get d) va = match entries.find? fun e => vmapVpn e == fld va 30 27 with
                  | some e => if e.getLsbD 63 then some e else none
                  | none => vmapEntry (p.maps.get d) va)
              ∧ (∀ d : Fin 8, p.dies.getLsbD d.val = false → p'.maps.get d = p.maps.get d)
              ∧ ∀ st k, (s.strand st).inSpace x.asid = true → (t.stream st k).tlb = []))

/-- R358: a network access to a space that an open session owns writes, reads or combines the bytes at their homes, and one to any other
space, to a misaligned atomic or to poison is an access error; an unreliable packet is dropped and counted; a connection is answered.
Which targets are served is the model's reading (log 84), and so is that unreliable delivery stands beside no operation but sends (log 139). -/
def Obligations.NetworkAccesses : Prop :=
  ∀ (s : State) (asid : BitVec 12) (va : W64),
    let sends := fun (t : State) (m : Msg) => t.sent = s.sent ++ [m] ∧ t.strands = s.strands
    (s.openSpace asid = none → ∀ data n d (op : UetOp) v cmp, va.toNat % (if op = .fadd32 then 4 else if d then 8 else 4) = 0 →
      ∀ i, i ∈ [Instr.uetWrite asid va data, .uetRead asid va n, .uetAtomic asid op d va v cmp] →
        exec i s = .next { s with sent := s.sent ++ [.uetError 0x05 va] })
    ∧ (∀ (p : Space) (pas : List Nat), s.openSpace asid = some p → s.anyHeld pas = false →
        let key := s.slotKey p.key
        (∀ data, s.uetXlate p va data.length false true = .ok pas → Writable s pas →
          ∃ t, exec (.uetWrite asid va data) s = .next t ∧ sends t .uetAck ∧ BytesWritten s t key (pas.zip data))
        ∧ (∀ n, s.uetXlate p va n true false = .ok pas →
          ((∀ a ∈ pas, s.poisoned a = false) → exec (.uetRead asid va n) s = .next { s with sent := s.sent ++ [.uetData (s.homeBytes key pas)] })
          ∧ ∀ i (h : i < pas.length), (∀ j (h' : j < i), s.poisoned pas[j] = false) → s.poisoned pas[i] = true →
              ∃ e, exec (.uetRead asid va n) s = .next { s with sent := s.sent ++ [.uetError 0x08 e] } ∧ e.toNat = (va + BitVec.ofNat 64 i).toNat / 64 * 64)
        ∧ (∀ (op : UetOp) (d : Bool) (v cmp : W64), let n := if op = .fadd32 then 4 else if d then 8 else 4
            va.toNat % n ≠ 0 → exec (.uetAtomic asid op d va v cmp) s = .next { s with sent := s.sent ++ [.uetError 0x03 va] })
        ∧ (∀ (op : UetOp) (d : Bool) (v cmp : W64), let n := if op = .fadd32 then 4 else if d then 8 else 4
            let w := 8 * n
            va.toNat % n = 0 → s.uetXlate p va n true true = .ok pas → (∀ a ∈ pas, s.poisoned a = false) → Writable s pas →
            pas = (List.range n).map (fun i => pas.headD 0 + i) → (∀ e ∈ s.wcb, ∀ a ∈ pas, e.pa / 64 ≠ a / 64) →
            let old := leNat (s.homeBytes key pas)
            let arg := v.toNat % 2 ^ w
            let sv : Nat → Int := fun x => if 2 ^ (w - 1) ≤ x then (x : Int) - (2 ^ w : Nat) else (x : Int)
            let new := match op with
              | .add => (old + arg) % 2 ^ w
              | .and => old &&& arg
              | .or => old ||| arg
              | .xor => old ^^^ arg
              | .min => if sv old < sv arg then old else arg
              | .max => if sv old < sv arg then arg else old
              | .minu => if old < arg then old else arg
              | .maxu => if old < arg then arg else old
              | .swap => arg
              | .fadd32 => (Fmt.fp32.fadd 0 old arg).1
              | .cas => if old = cmp.toNat % 2 ^ w then arg else old
            ∃ t, exec (.uetAtomic asid op d va v cmp) s = .next t ∧ sends t (.uetData (s.homeBytes key pas))
              ∧ BytesWritten s t key (pas.zip (leBytes n new))))
    ∧ exec .inboundUudDrop s = .next { s with uudDropped := s.uudDropped + 1 }
    ∧ ∀ q : ConnReq,
        let ok := (∀ m ∈ q.modes, m < 4) ∧ (∀ o ∈ q.ops, o < 4) ∧ q.credits = false ∧ q.other = false
          ∧ (q.keyBits = 256 ∨ (q.keyBits = 0 ∧ q.guarded = false)) ∧ ((∀ o ∈ q.ops, o = 0) ∨ ∀ m ∈ q.modes, m < 3)
        (ok → exec (.connectionSetup q) s = .next { s with sent := s.sent ++ [.connection true], conns := s.conns ++ [q] })
        ∧ (¬ ok → exec (.connectionSetup q) s = .next { s with sent := s.sent ++ [.connection false] })

/-! ### Rounding -/

/-- R73, R75, R76, R86, R93, R95, R200 to R202, R285: of finite operands, a sum, difference, product, quotient, square root or fused product and sum is
the exact real number rounded once by the mode, with the flags of that rounding; an exact zero has the sign of IEEE 754-2019, and the
invalid and divide-by-zero cases give what they give. A conversion of FP to FP, of an integer to FP and of FP to an integer is the value
rounded once; out of range an integer saturates with the invalid flag alone. A matrix element is the exact sum of the products that no escape
leaves out, added to the old accumulator value in one rounding to nearest even, then one rounding for each entry of the A list and of the B
list whose other side is no escape. `VPOLY` runs the steps of R98, each rounded to nearest even, where they stay finite. R202, R200, R95, R201: the conditions of a
compare, the least and the greatest of two operands and the total order are those of the numbers that the bits are, with −0 below +0 in the last two
and each NaN in its place; a signalling NaN sets the invalid flag, and any NaN under LT, LE, GT and GE; a class says where a number lies; `VFCMP` reads subnormals as zero under daz, but
for the total order. -/
def Obligations.RoundedOnce : Prop :=
  (∀ (f : Fmt) (mode : BitVec 3) (a b d : Nat), f ∈ [Fmt.fp16, .bf16, .fp32, .fp64] → mode.toNat < 5 →
      f.IsFinite a → f.IsFinite b → f.IsFinite d →
      let x := f.value a
      let y := f.value b
      let z := f.value d
      let infinity := (2 ^ f.eb - 1) * 2 ^ f.mb
      let invalid : Nat × Flags := (infinity + 2 ^ (f.mb - 1), 0x10)
      let sum := fun (p q : Prop) => (p ∧ q) ∨ (mode = 2 ∧ ¬ (p ↔ q))
      let cross := ¬ (f.IsNeg a ↔ f.IsNeg b)
      let sgn : Bool → ℝ := fun c => if c then -1 else 1
      f.Gives mode (x + y) (sum (f.IsNeg a) (f.IsNeg b)) (f.fadd mode a b)
      ∧ f.Gives mode (x - y) (sum (f.IsNeg a) (¬ f.IsNeg b)) (f.fsub mode a b)
      ∧ f.Gives mode (x * y) cross (f.fmul mode a b)
      ∧ (y ≠ 0 → f.Gives mode (x / y) cross (f.fdiv mode a b))
      ∧ (y = 0 → x ≠ 0 → (f.fdiv mode a b).1 % 2 ^ (f.eb + f.mb) = infinity ∧ (f.IsNeg (f.fdiv mode a b).1 ↔ cross)
          ∧ (f.fdiv mode a b).2 = 0x08)
      ∧ (y = 0 → x = 0 → f.fdiv mode a b = invalid)
      ∧ (0 ≤ x → f.Gives mode (Real.sqrt x) (f.IsNeg a) (f.fsqrt mode a))
      ∧ (x < 0 → f.fsqrt mode a = invalid)
      ∧ (∀ np nd : Bool, f.Gives mode (sgn np * (x * y) + sgn nd * z)
          (sum (if np then ¬ cross else cross) (if nd then ¬ f.IsNeg d else f.IsNeg d)) (f.ffma mode np nd a b d)))
  ∧ (∀ (f g : Fmt) (mode : BitVec 3) (a w : Nat) (sg : Bool) (i : Int), f ∈ [Fmt.fp16, .bf16, .fp32, .fp64] →
      g ∈ [Fmt.fp16, .bf16, .fp32, .fp64] → mode.toNat < 5 → f.IsFinite a → 0 < w →
      let x := f.value a
      let lo : Int := if sg then -(2 ^ (w - 1) : Int) else 0
      let hi : Int := if sg then 2 ^ (w - 1) - 1 else 2 ^ w - 1
      g.Gives mode x (f.IsNeg a) (f.toFmt g mode a)
      ∧ g.Gives mode (i : ℝ) False (g.ofInt mode i)
      ∧ ∃ n : ℕ, RoundsTo mode (x < 0) |x| n ∧
          let v : Int := if x < 0 then -(n : Int) else n
          (f.decode a).toInt mode w sg = (if v < lo then (lo, 0x10) else if hi < v then (hi, 0x10) else
            (v, ((f.decode a).toInt mode w sg).2))
          ∧ (lo ≤ v → v ≤ hi → (((f.decode a).toInt mode w sg).2 = 0x01 ∧ (n : ℝ) ≠ |x|) ∨ (((f.decode a).toInt mode w sg).2 = 0 ∧ (n : ℝ) = |x|)))
  ∧ (∀ (t : CoefTable) (daz ftz : Bool) (bits : Nat),
      let f := Fmt.fp32
      let x0 := t.num 0 4
      let w := t.num 4 4
      let nseg := t.num 0x0C 2
      let d := min 7 (t.num 0x0E 1)
      let clamp := t.num 0x0F 1
      let point := fun (n : Nat) => (f.ffma 0 false false (f.ofInt 0 n).1 w x0).1
      let x1 := f.dazBits daz bits
      let x2 := if clamp % 2 = 1 ∧ f.value x1 < f.value x0 then x0 else x1
      let x3 := if clamp / 2 % 2 = 1 ∧ f.value (point nseg) < f.value x2 then point nseg else x2
      let q := (f.fmul 0 (f.fsub 0 x3 x0).1 (t.num 8 4)).1
      let seg := (max 0 (min (nseg - 1 : Int) ⌊f.value q⌋)).toNat
      let u := (f.fsub 0 x3 (point seg)).1
      let c := fun (j : Nat) => t.num (0x20 + 32 * seg + 4 * j) 4
      let p := (List.range d).reverse.foldl (fun p j => (f.ffma 0 false false p u (c j)).1) (c d)
      nseg ≠ 0 → f.IsFinite bits → f.IsFinite x0 → f.IsFinite w → f.IsFinite (point nseg) → f.IsFinite q → f.IsFinite p →
      (polyEval t daz ftz bits).1 = (f.ftzBits ftz (p, 0)).1)
  ∧ (∀ (f : Fmt) (a b : Nat), f ∈ [Fmt.fp16, .bf16, .fp32, .fp64] → a < 2 ^ f.width → b < 2 ^ f.width →
      let high := fun (v : Nat) => v / 2 ^ f.mb % 2 ^ f.eb = 2 ^ f.eb - 1
      let nan := fun (v : Nat) => high v ∧ v % 2 ^ f.mb ≠ 0
      let sig := fun (v : Nat) => nan v ∧ v / 2 ^ (f.mb - 1) % 2 = 0
      let nv : Flags := if sig a ∨ sig b then 0x10 else 0
      -- the number that bits are, an infinity among them
      let num : Nat → EReal := fun v => if high v then (if v / 2 ^ (f.eb + f.mb) % 2 = 1 then ⊥ else ⊤) else (f.value v : EReal)
      let least : ℝ := 2 ^ (2 - 2 ^ (f.eb - 1) : ℤ)
      let x := f.value a
      let le := totalLE f.width a b = true
      (¬ nan a → ¬ nan b →
        f.compare 0 a b = (decide (num a = num b), 0) ∧ f.compare 1 a b = (decide (num a ≠ num b), 0)
        ∧ f.compare 2 a b = (decide (num a < num b), 0) ∧ f.compare 3 a b = (decide (num a ≤ num b), 0)
        ∧ f.compare 4 a b = (decide (num b < num a), 0) ∧ f.compare 5 a b = (decide (num b ≤ num a), 0) ∧ f.compare 6 a b = (false, 0)
        ∧ (le ↔ num a < num b ∨ (num a = num b ∧ (f.IsNeg a ∨ ¬ f.IsNeg b)))
        ∧ ∀ isMax number : Bool, ∃ r, f.minMax isMax number a b = (r, 0) ∧ (r = a ∨ r = b)
            ∧ num r = (if isMax then max (num a) (num b) else min (num a) (num b))
            ∧ (num a = num b → (f.IsNeg r ↔ if isMax then f.IsNeg a ∧ f.IsNeg b else f.IsNeg a ∨ f.IsNeg b)))
      ∧ (nan a ∨ nan b → ∀ cond, cond ≤ 6 →
          f.compare cond a b = (decide (cond = 1 ∨ cond = 6), if 2 ≤ cond ∧ cond ≤ 5 then 0x10 else nv))
      ∧ (nan a → ¬ nan b → (le ↔ f.IsNeg a) ∧ ∀ isMax, f.minMax isMax true a b = (b, nv) ∧ f.minMax isMax false a b = (f.canon, nv))
      ∧ (¬ nan a → nan b → (le ↔ ¬ f.IsNeg b) ∧ ∀ isMax, f.minMax isMax true a b = (a, nv) ∧ f.minMax isMax false a b = (f.canon, nv))
      ∧ (nan a → nan b → (le ↔ if a / 2 ^ (f.eb + f.mb) % 2 = 1 then (f.IsNeg b → b ≤ a) else ¬ f.IsNeg b ∧ a ≤ b)
          ∧ ∀ isMax number, f.minMax isMax number a b = (f.canon, nv))
      ∧ (sig a → f.classify a = 2 ^ 8) ∧ (nan a → ¬ sig a → f.classify a = 2 ^ 9)
      ∧ (high a → ¬ nan a → (f.IsNeg a → f.classify a = 2 ^ 0) ∧ (¬ f.IsNeg a → f.classify a = 2 ^ 7))
      ∧ (f.IsFinite a →
          (x ≤ -least → f.classify a = 2 ^ 1) ∧ (-least < x → x < 0 → f.classify a = 2 ^ 2)
          ∧ (x = 0 → f.IsNeg a → f.classify a = 2 ^ 3) ∧ (x = 0 → ¬ f.IsNeg a → f.classify a = 2 ^ 4)
          ∧ (0 < x → x < least → f.classify a = 2 ^ 5) ∧ (least ≤ x → f.classify a = 2 ^ 6))
      ∧ ∀ daz : Bool,
          let z := fun (v : Nat) => if daz = true ∧ v / 2 ^ f.mb % 2 ^ f.eb = 0 then v / 2 ^ (f.eb + f.mb) * 2 ^ (f.eb + f.mb) else v
          (∀ cond, cond ≤ 6 → vfCond f daz cond a b = f.compare cond (z a) (z b))
          ∧ vfCond f daz 7 a b = (totalLE f.width a b, nv))
  ∧ ∀ (ftz na : Bool) (n acc : Nat) (a b : Nat → NVal),
      let f := Fmt.fp32
      let sgn : ℝ := if na then -1 else 1
      let term := fun (k : Nat) => match a k, b k with
        | .num v, .num w => sgn * (v.value * w.value)
        | _, _ => 0
      let total := ∑ k ∈ Finset.range n, term k
      let elem := fun (la lb : List (Nat × Nat)) => mmaElem ftz na n acc a b la lb
      f.IsFinite acc → (∀ k v, k < n → a k = .num v → v.IsFinite) → (∀ k v, k < n → b k = .num v → v.IsFinite) →
      (total = 0 → elem [] [] = (acc, 0))
      ∧ (total ≠ 0 → PointOf ftz (acc, 0) (elem [] []) total)
      ∧ (∀ la lb k v (bv : ℝ), (∀ p ∈ lb, a p.1 = .escape) → f.IsFinite v → f.IsFinite (elem la lb).1 →
          (∃ w, b k = .num w ∧ w.IsFinite ∧ bv = w.value)
            ∨ (b k = .escape ∧ ∃ w, (lb.find? fun p => p.1 == k) = some (k, w) ∧ f.IsFinite w ∧ bv = f.value w) →
          sgn * (f.value v * bv) ≠ 0 ∨ f.value (elem la lb).1 ≠ 0 →
          PointOf ftz (elem la lb) (elem (la ++ [(k, v)]) lb) (sgn * (f.value v * bv)))
      ∧ ∀ la lb k v, (∀ p ∈ la, b p.1 ≠ .escape) →
          (a k = .escape → elem la (lb ++ [(k, v)]) = elem la lb)
          ∧ (∀ w, a k = .num w → w.IsFinite → f.IsFinite v → f.IsFinite (elem la lb).1 →
              sgn * (w.value * f.value v) ≠ 0 ∨ f.value (elem la lb).1 ≠ 0 →
              PointOf ftz (elem la lb) (elem la (lb ++ [(k, v)])) (sgn * (w.value * f.value v)))
end

