-- ==== Sys2Proof/Laws/Dispatch.lean ====
section
/-! SUPPORT. The dispatch, one equation for each constructor, so that no proof unfolds the whole match. -/

namespace Sys2Proof.Machine

@[simp] theorem exec_add (w : Bool) (rd rs1 rs2 : Reg) (s : State) : exec (.add w rd rs1 rs2) s = execAdd w rd rs1 rs2 s := rfl
@[simp] theorem exec_sub (w : Bool) (rd rs1 rs2 : Reg) (s : State) : exec (.sub w rd rs1 rs2) s = execSub w rd rs1 rs2 s := rfl
@[simp] theorem exec_and (w : Bool) (rd rs1 rs2 : Reg) (s : State) : exec (.and w rd rs1 rs2) s = execAnd w rd rs1 rs2 s := rfl
@[simp] theorem exec_or (w : Bool) (rd rs1 rs2 : Reg) (s : State) : exec (.or w rd rs1 rs2) s = execOr w rd rs1 rs2 s := rfl
@[simp] theorem exec_xor (w : Bool) (rd rs1 rs2 : Reg) (s : State) : exec (.xor w rd rs1 rs2) s = execXor w rd rs1 rs2 s := rfl
@[simp] theorem exec_sll (w : Bool) (rd rs1 rs2 : Reg) (s : State) : exec (.sll w rd rs1 rs2) s = execSll w rd rs1 rs2 s := rfl
@[simp] theorem exec_srl (w : Bool) (rd rs1 rs2 : Reg) (s : State) : exec (.srl w rd rs1 rs2) s = execSrl w rd rs1 rs2 s := rfl
@[simp] theorem exec_sra (w : Bool) (rd rs1 rs2 : Reg) (s : State) : exec (.sra w rd rs1 rs2) s = execSra w rd rs1 rs2 s := rfl
@[simp] theorem exec_mul (w : Bool) (rd rs1 rs2 : Reg) (s : State) : exec (.mul w rd rs1 rs2) s = execMul w rd rs1 rs2 s := rfl
@[simp] theorem exec_mulh (rd rs1 rs2 : Reg) (s : State) : exec (.mulh rd rs1 rs2) s = execMulh rd rs1 rs2 s := rfl
@[simp] theorem exec_mulhu (rd rs1 rs2 : Reg) (s : State) : exec (.mulhu rd rs1 rs2) s = execMulhu rd rs1 rs2 s := rfl
@[simp] theorem exec_div (w : Bool) (rd rs1 rs2 : Reg) (s : State) : exec (.div w rd rs1 rs2) s = execDiv w rd rs1 rs2 s := rfl
@[simp] theorem exec_divu (w : Bool) (rd rs1 rs2 : Reg) (s : State) : exec (.divu w rd rs1 rs2) s = execDivu w rd rs1 rs2 s := rfl
@[simp] theorem exec_rem (w : Bool) (rd rs1 rs2 : Reg) (s : State) : exec (.rem w rd rs1 rs2) s = execRem w rd rs1 rs2 s := rfl
@[simp] theorem exec_remu (w : Bool) (rd rs1 rs2 : Reg) (s : State) : exec (.remu w rd rs1 rs2) s = execRemu w rd rs1 rs2 s := rfl
@[simp] theorem exec_min (rd rs1 rs2 : Reg) (s : State) : exec (.min rd rs1 rs2) s = execMin rd rs1 rs2 s := rfl
@[simp] theorem exec_max (rd rs1 rs2 : Reg) (s : State) : exec (.max rd rs1 rs2) s = execMax rd rs1 rs2 s := rfl
@[simp] theorem exec_minu (rd rs1 rs2 : Reg) (s : State) : exec (.minu rd rs1 rs2) s = execMinu rd rs1 rs2 s := rfl
@[simp] theorem exec_maxu (rd rs1 rs2 : Reg) (s : State) : exec (.maxu rd rs1 rs2) s = execMaxu rd rs1 rs2 s := rfl
@[simp] theorem exec_slt (rd rs1 rs2 : Reg) (s : State) : exec (.slt rd rs1 rs2) s = execSlt rd rs1 rs2 s := rfl
@[simp] theorem exec_sltu (rd rs1 rs2 : Reg) (s : State) : exec (.sltu rd rs1 rs2) s = execSltu rd rs1 rs2 s := rfl
@[simp] theorem exec_clz (rd rs1 : Reg) (s : State) : exec (.clz rd rs1) s = execClz rd rs1 s := rfl
@[simp] theorem exec_ctz (rd rs1 : Reg) (s : State) : exec (.ctz rd rs1) s = execCtz rd rs1 s := rfl
@[simp] theorem exec_popc (rd rs1 : Reg) (s : State) : exec (.popc rd rs1) s = execPopc rd rs1 s := rfl
@[simp] theorem exec_rol (rd rs1 rs2 : Reg) (s : State) : exec (.rol rd rs1 rs2) s = execRol rd rs1 rs2 s := rfl
@[simp] theorem exec_ror (rd rs1 rs2 : Reg) (s : State) : exec (.ror rd rs1 rs2) s = execRor rd rs1 rs2 s := rfl
@[simp] theorem exec_addi (rd rs1 : Reg) (imm : BitVec 11) (s : State) : exec (.addi rd rs1 imm) s = execAddi rd rs1 imm s := rfl
@[simp] theorem exec_addiLit (rd rs1 : Reg) (lit : W64) (s : State) : exec (.addiLit rd rs1 lit) s = execAddiLit rd rs1 lit s := rfl
@[simp] theorem exec_andi (rd rs1 : Reg) (imm : BitVec 11) (s : State) : exec (.andi rd rs1 imm) s = execAndi rd rs1 imm s := rfl
@[simp] theorem exec_andiLit (rd rs1 : Reg) (lit : W64) (s : State) : exec (.andiLit rd rs1 lit) s = execAndiLit rd rs1 lit s := rfl
@[simp] theorem exec_ori (rd rs1 : Reg) (imm : BitVec 11) (s : State) : exec (.ori rd rs1 imm) s = execOri rd rs1 imm s := rfl
@[simp] theorem exec_oriLit (rd rs1 : Reg) (lit : W64) (s : State) : exec (.oriLit rd rs1 lit) s = execOriLit rd rs1 lit s := rfl
@[simp] theorem exec_xori (rd rs1 : Reg) (imm : BitVec 11) (s : State) : exec (.xori rd rs1 imm) s = execXori rd rs1 imm s := rfl
@[simp] theorem exec_xoriLit (rd rs1 : Reg) (lit : W64) (s : State) : exec (.xoriLit rd rs1 lit) s = execXoriLit rd rs1 lit s := rfl
@[simp] theorem exec_slti (rd rs1 : Reg) (imm : BitVec 11) (s : State) : exec (.slti rd rs1 imm) s = execSlti rd rs1 imm s := rfl
@[simp] theorem exec_sltiLit (rd rs1 : Reg) (lit : W64) (s : State) : exec (.sltiLit rd rs1 lit) s = execSltiLit rd rs1 lit s := rfl
@[simp] theorem exec_sltiu (rd rs1 : Reg) (imm : BitVec 11) (s : State) : exec (.sltiu rd rs1 imm) s = execSltiu rd rs1 imm s := rfl
@[simp] theorem exec_sltiuLit (rd rs1 : Reg) (lit : W64) (s : State) : exec (.sltiuLit rd rs1 lit) s = execSltiuLit rd rs1 lit s := rfl
@[simp] theorem exec_addpc (rd : Reg) (imm : BitVec 11) (s : State) : exec (.addpc rd imm) s = execAddpc rd imm s := rfl
@[simp] theorem exec_addpcLit (rd : Reg) (lit : W64) (s : State) : exec (.addpcLit rd lit) s = execAddpcLit rd lit s := rfl
@[simp] theorem exec_slli (rd rs1 : Reg) (sh : BitVec 6) (s : State) : exec (.slli rd rs1 sh) s = execSlli rd rs1 sh s := rfl
@[simp] theorem exec_srli (rd rs1 : Reg) (sh : BitVec 6) (s : State) : exec (.srli rd rs1 sh) s = execSrli rd rs1 sh s := rfl
@[simp] theorem exec_srai (rd rs1 : Reg) (sh : BitVec 6) (s : State) : exec (.srai rd rs1 sh) s = execSrai rd rs1 sh s := rfl
@[simp] theorem exec_ldi (rd : Reg) (imm : BitVec 11) (s : State) : exec (.ldi rd imm) s = execLdi rd imm s := rfl
@[simp] theorem exec_ldiLit (rd : Reg) (lit : W64) (s : State) : exec (.ldiLit rd lit) s = execLdiLit rd lit s := rfl
@[simp] theorem exec_roli (rd rs1 : Reg) (sh : BitVec 6) (s : State) : exec (.roli rd rs1 sh) s = execRoli rd rs1 sh s := rfl
@[simp] theorem exec_fadd (p : Prec) (rd rs1 rs2 : Reg) (s : State) : exec (.fadd p rd rs1 rs2) s = execFadd p rd rs1 rs2 s := rfl
@[simp] theorem exec_fsub (p : Prec) (rd rs1 rs2 : Reg) (s : State) : exec (.fsub p rd rs1 rs2) s = execFsub p rd rs1 rs2 s := rfl
@[simp] theorem exec_fmul (p : Prec) (rd rs1 rs2 : Reg) (s : State) : exec (.fmul p rd rs1 rs2) s = execFmul p rd rs1 rs2 s := rfl
@[simp] theorem exec_fdiv (p : Prec) (rd rs1 rs2 : Reg) (s : State) : exec (.fdiv p rd rs1 rs2) s = execFdiv p rd rs1 rs2 s := rfl
@[simp] theorem exec_fsqrt (p : Prec) (rd rs1 : Reg) (s : State) : exec (.fsqrt p rd rs1) s = execFsqrt p rd rs1 s := rfl
@[simp] theorem exec_fmin (p : Prec) (rd rs1 rs2 : Reg) (s : State) : exec (.fmin p rd rs1 rs2) s = execFmin p rd rs1 rs2 s := rfl
@[simp] theorem exec_fmax (p : Prec) (rd rs1 rs2 : Reg) (s : State) : exec (.fmax p rd rs1 rs2) s = execFmax p rd rs1 rs2 s := rfl
@[simp] theorem exec_fma (p : Prec) (rd rs1 rs2 : Reg) (s : State) : exec (.fma p rd rs1 rs2) s = execFma p rd rs1 rs2 s := rfl
@[simp] theorem exec_fnma (p : Prec) (rd rs1 rs2 : Reg) (s : State) : exec (.fnma p rd rs1 rs2) s = execFnma p rd rs1 rs2 s := rfl
@[simp] theorem exec_feq (p : Prec) (rd rs1 rs2 : Reg) (s : State) : exec (.feq p rd rs1 rs2) s = execFeq p rd rs1 rs2 s := rfl
@[simp] theorem exec_flt (p : Prec) (rd rs1 rs2 : Reg) (s : State) : exec (.flt p rd rs1 rs2) s = execFlt p rd rs1 rs2 s := rfl
@[simp] theorem exec_fle (p : Prec) (rd rs1 rs2 : Reg) (s : State) : exec (.fle p rd rs1 rs2) s = execFle p rd rs1 rs2 s := rfl
@[simp] theorem exec_ftole (p : Prec) (rd rs1 rs2 : Reg) (s : State) : exec (.ftole p rd rs1 rs2) s = execFtole p rd rs1 rs2 s := rfl
@[simp] theorem exec_fcvti (p : Prec) (c : IntCode) (rd rs1 : Reg) (s : State) : exec (.fcvti p c rd rs1) s = execFcvti p c rd rs1 s := rfl
@[simp] theorem exec_icvtf (p : Prec) (c : IntCode) (rd rs1 : Reg) (s : State) : exec (.icvtf p c rd rs1) s = execIcvtf p c rd rs1 s := rfl
@[simp] theorem exec_fcvtf (p src : Prec) (rd rs1 : Reg) (s : State) : exec (.fcvtf p src rd rs1) s = execFcvtf p src rd rs1 s := rfl
@[simp] theorem exec_fclass (p : Prec) (rd rs1 : Reg) (s : State) : exec (.fclass p rd rs1) s = execFclass p rd rs1 s := rfl
@[simp] theorem exec_ld (sz : LdSize) (rd rs1 : Reg) (imm : BitVec 11) (s : State) : exec (.ld sz rd rs1 imm) s = execLd sz rd rs1 imm s := rfl
@[simp] theorem exec_ldLit (sz : LdSize) (rd rs1 : Reg) (lit : W64) (s : State) : exec (.ldLit sz rd rs1 lit) s = execLdLit sz rd rs1 lit s := rfl
@[simp] theorem exec_st (sz : StSize) (rs rs1 : Reg) (imm : BitVec 11) (s : State) : exec (.st sz rs rs1 imm) s = execSt sz rs rs1 imm s := rfl
@[simp] theorem exec_stLit (sz : StSize) (rs rs1 : Reg) (lit : W64) (s : State) : exec (.stLit sz rs rs1 lit) s = execStLit sz rs rs1 lit s := rfl
@[simp] theorem exec_lda (sc : Scope) (d : Bool) (rd rs1 : Reg) (s : State) : exec (.lda sc d rd rs1) s = execLda sc d rd rs1 s := rfl
@[simp] theorem exec_stl (sc : Scope) (d : Bool) (rs1 rs2 : Reg) (s : State) : exec (.stl sc d rs1 rs2) s = execStl sc d rs1 rs2 s := rfl
@[simp] theorem exec_amoAdd (sc : Scope) (o : Order) (d : Bool) (rd rs1 rs2 : Reg) (s : State) : exec (.amoAdd sc o d rd rs1 rs2) s = execAmoAdd sc o d rd rs1 rs2 s := rfl
@[simp] theorem exec_amoAnd (sc : Scope) (o : Order) (d : Bool) (rd rs1 rs2 : Reg) (s : State) : exec (.amoAnd sc o d rd rs1 rs2) s = execAmoAnd sc o d rd rs1 rs2 s := rfl
@[simp] theorem exec_amoOr (sc : Scope) (o : Order) (d : Bool) (rd rs1 rs2 : Reg) (s : State) : exec (.amoOr sc o d rd rs1 rs2) s = execAmoOr sc o d rd rs1 rs2 s := rfl
@[simp] theorem exec_amoXor (sc : Scope) (o : Order) (d : Bool) (rd rs1 rs2 : Reg) (s : State) : exec (.amoXor sc o d rd rs1 rs2) s = execAmoXor sc o d rd rs1 rs2 s := rfl
@[simp] theorem exec_amoMin (sc : Scope) (o : Order) (d : Bool) (rd rs1 rs2 : Reg) (s : State) : exec (.amoMin sc o d rd rs1 rs2) s = execAmoMin sc o d rd rs1 rs2 s := rfl
@[simp] theorem exec_amoMax (sc : Scope) (o : Order) (d : Bool) (rd rs1 rs2 : Reg) (s : State) : exec (.amoMax sc o d rd rs1 rs2) s = execAmoMax sc o d rd rs1 rs2 s := rfl
@[simp] theorem exec_amoMinu (sc : Scope) (o : Order) (d : Bool) (rd rs1 rs2 : Reg) (s : State) : exec (.amoMinu sc o d rd rs1 rs2) s = execAmoMinu sc o d rd rs1 rs2 s := rfl
@[simp] theorem exec_amoMaxu (sc : Scope) (o : Order) (d : Bool) (rd rs1 rs2 : Reg) (s : State) : exec (.amoMaxu sc o d rd rs1 rs2) s = execAmoMaxu sc o d rd rs1 rs2 s := rfl
@[simp] theorem exec_amoSwap (sc : Scope) (o : Order) (d : Bool) (rd rs1 rs2 : Reg) (s : State) : exec (.amoSwap sc o d rd rs1 rs2) s = execAmoSwap sc o d rd rs1 rs2 s := rfl
@[simp] theorem exec_amoFadd32 (sc : Scope) (o : Order) (rd rs1 rs2 : Reg) (s : State) : exec (.amoFadd32 sc o rd rs1 rs2) s = execAmoFadd32 sc o rd rs1 rs2 s := rfl
@[simp] theorem exec_cas (sc : Scope) (o : Order) (d : Bool) (rd rs1 rs2 : Reg) (s : State) : exec (.cas sc o d rd rs1 rs2) s = execCas sc o d rd rs1 rs2 s := rfl
@[simp] theorem exec_br (c : Cond) (rs1 rs2 : Reg) (off : BitVec 11) (s : State) : exec (.br c rs1 rs2 off) s = execBr c rs1 rs2 off s := rfl
@[simp] theorem exec_brLit (c : Cond) (rs1 rs2 : Reg) (lit : W64) (s : State) : exec (.brLit c rs1 rs2 lit) s = execBrLit c rs1 rs2 lit s := rfl
@[simp] theorem exec_j (rd : Reg) (off : BitVec 19) (s : State) : exec (.j rd off) s = execJ rd off s := rfl
@[simp] theorem exec_jLit (rd : Reg) (lit : W64) (s : State) : exec (.jLit rd lit) s = execJLit rd lit s := rfl
@[simp] theorem exec_jr (rd rs1 : Reg) (imm : BitVec 11) (s : State) : exec (.jr rd rs1 imm) s = execJr rd rs1 imm s := rfl
@[simp] theorem exec_jrLit (rd rs1 : Reg) (lit : W64) (s : State) : exec (.jrLit rd rs1 lit) s = execJrLit rd rs1 lit s := rfl
@[simp] theorem exec_brq (neg : Bool) (off : BitVec 11) (s : State) : exec (.brq neg off) s = execBrq neg off s := rfl
@[simp] theorem exec_brqLit (neg : Bool) (lit : W64) (s : State) : exec (.brqLit neg lit) s = execBrqLit neg lit s := rfl
@[simp] theorem exec_qsend (q : BitVec 3) (rs : Reg) (s : State) : exec (.qsend q rs) s = execQsend q rs s := rfl
@[simp] theorem exec_qrecv (rd : Reg) (q : BitVec 3) (s : State) : exec (.qrecv rd q) s = execQrecv rd q s := rfl
@[simp] theorem exec_qsendb (q : BitVec 3) (rs : Reg) (s : State) : exec (.qsendb q rs) s = execQsendb q rs s := rfl
@[simp] theorem exec_qcnt (rd : Reg) (q : BitVec 3) (s : State) : exec (.qcnt rd q) s = execQcnt rd q s := rfl
@[simp] theorem exec_sysr (rd : Reg) (reg : BitVec 11) (s : State) : exec (.sysr rd reg) s = execSysr rd reg s := rfl
@[simp] theorem exec_sysw (reg : BitVec 11) (rs : Reg) (s : State) : exec (.sysw reg rs) s = execSysw reg rs s := rfl
@[simp] theorem exec_vtypeWrite (rs : Reg) (s : State) : exec (.vtypeWrite rs) s = execVtypeWrite rs s := rfl
@[simp] theorem exec_vstartWrite (rs : Reg) (s : State) : exec (.vstartWrite rs) s = execVstartWrite rs s := rfl
@[simp] theorem exec_vfcntWrite (rs : Reg) (s : State) : exec (.vfcntWrite rs) s = execVfcntWrite rs s := rfl
@[simp] theorem exec_vstatusWrite (rs : Reg) (s : State) : exec (.vstatusWrite rs) s = execVstatusWrite rs s := rfl
@[simp] theorem exec_vstatusRead (rd : Reg) (s : State) : exec (.vstatusRead rd) s = execVstatusRead rd s := rfl
@[simp] theorem exec_vstartRead (rd : Reg) (s : State) : exec (.vstartRead rd) s = execVstartRead rd s := rfl
@[simp] theorem exec_vfcntRead (rd : Reg) (s : State) : exec (.vfcntRead rd) s = execVfcntRead rd s := rfl
@[simp] theorem exec_frset (n : BitVec 3) (rs : Reg) (s : State) : exec (.frset n rs) s = execFrset n rs s := rfl
@[simp] theorem exec_tstatusWrite (rs : Reg) (s : State) : exec (.tstatusWrite rs) s = execTstatusWrite rs s := rfl
@[simp] theorem exec_trap (rs1 : Reg) (s : State) : exec (.trap rs1) s = execTrap rs1 s := rfl
@[simp] theorem exec_waitaEq (sc : Scope) (tmo : Bool) (rd rs1 rs2 : Reg) (s : State) : exec (.waitaEq sc tmo rd rs1 rs2) s = execWaitaEq sc tmo rd rs1 rs2 s := rfl
@[simp] theorem exec_waitaNe (sc : Scope) (tmo : Bool) (rd rs1 rs2 : Reg) (s : State) : exec (.waitaNe sc tmo rd rs1 rs2) s = execWaitaNe sc tmo rd rs1 rs2 s := rfl
@[simp] theorem exec_waitaGeu (sc : Scope) (tmo : Bool) (rd rs1 rs2 : Reg) (s : State) : exec (.waitaGeu sc tmo rd rs1 rs2) s = execWaitaGeu sc tmo rd rs1 rs2 s := rfl
@[simp] theorem exec_fence (sc : Scope) (s : State) : exec (.fence sc) s = execFence sc s := rfl
@[simp] theorem exec_vmfence (rs1 : Reg) (s : State) : exec (.vmfence rs1) s = execVmfence rs1 s := rfl
@[simp] theorem exec_lnch (rd rs1 : Reg) (s : State) : exec (.lnch rd rs1) s = execLnch rd rs1 s := rfl
@[simp] theorem exec_enqCopy (dev : Bool) (rd rs1 : Reg) (s : State) : exec (.enqCopy dev rd rs1) s = execEnqCopy dev rd rs1 s := rfl
@[simp] theorem exec_enqNet (dev : Bool) (rd rs1 : Reg) (s : State) : exec (.enqNet dev rd rs1) s = execEnqNet dev rd rs1 s := rfl
@[simp] theorem exec_deq (try_ : Bool) (rd : Reg) (eng : BitVec 3) (s : State) : exec (.deq try_ rd eng) s = execDeq try_ rd eng s := rfl
@[simp] theorem exec_cpw (idx : BitVec 3) (rs : Reg) (s : State) : exec (.cpw idx rs) s = execCpw idx rs s := rfl
@[simp] theorem exec_cpgo (dev : Bool) (rd : Reg) (s : State) : exec (.cpgo dev rd) s = execCpgo dev rd s := rfl
@[simp] theorem exec_cpcan (rd rs1 : Reg) (s : State) : exec (.cpcan rd rs1) s = execCpcan rd rs1 s := rfl
@[simp] theorem exec_cpr (rd : Reg) (idx : BitVec 3) (s : State) : exec (.cpr rd idx) s = execCpr rd idx s := rfl
@[simp] theorem exec_coefld (t : BitVec 5) (rs : Reg) (s : State) : exec (.coefld t rs) s = execCoefld t rs s := rfl
@[simp] theorem exec_platmk (rd xh xidx xn xbase : Reg) (iw : Bool) (lsz : BitVec 4) (s : State) : exec (.platmk rd xh xidx xn xbase iw lsz) s = execPlatmk rd xh xidx xn xbase iw lsz s := rfl
@[simp] theorem exec_platg (dev : Bool) (rd xh xdst xmark xval : Reg) (s : State) : exec (.platg dev rd xh xdst xmark xval) s = execPlatg dev rd xh xdst xmark xval s := rfl
@[simp] theorem exec_plats (dev : Bool) (op : ScatOp) (ty : ScatType) (pl : Bool) (xpl : Reg) (rd xh xsrc xmark xval : Reg) (s : State) : exec (.plats dev op ty pl xpl rd xh xsrc xmark xval) s = execPlats dev op ty pl xpl rd xh xsrc xmark xval s := rfl
@[simp] theorem exec_platco (rd xc xa xb : Reg) (s : State) : exec (.platco rd xc xa xb) s = execPlatco rd xc xa xb s := rfl
@[simp] theorem exec_platck (rd xh : Reg) (s : State) : exec (.platck rd xh) s = execPlatck rd xh s := rfl
@[simp] theorem exec_platrl (xh : Reg) (s : State) : exec (.platrl xh) s = execPlatrl xh s := rfl
@[simp] theorem exec_setl (rd rs1 rs2 : Reg) (vt : W32) (s : State) : exec (.setl rd rs1 rs2 vt) s = execSetl rd rs1 rs2 vt s := rfl
@[simp] theorem exec_vpf (od vs1 : Spec) (s : State) : exec (.vpf od vs1) s = execVpf od vs1 s := rfl
@[simp] theorem exec_vpfExt (od vs1 : Spec) (s : State) : exec (.vpfExt od vs1) s = execVpfExt od vs1 s := rfl
@[simp] theorem exec_vld (vd : Spec) (m : MemOp) (s : State) : exec (.vld vd m) s = execVld vd m s := rfl
@[simp] theorem exec_vlds (vd : Spec) (m : MemOp) (s : State) : exec (.vlds vd m) s = execVlds vd m s := rfl
@[simp] theorem exec_vst (vs1 : Spec) (m : MemOp) (s : State) : exec (.vst vs1 m) s = execVst vs1 m s := rfl
@[simp] theorem exec_vsts (vs1 : Spec) (m : MemOp) (s : State) : exec (.vsts vs1 m) s = execVsts vs1 m s := rfl
@[simp] theorem exec_vld2d (vd : Spec) (m : MemOp) (s : State) : exec (.vld2d vd m) s = execVld2d vd m s := rfl
@[simp] theorem exec_vst2d (vs1 : Spec) (m : MemOp) (s : State) : exec (.vst2d vs1 m) s = execVst2d vs1 m s := rfl
@[simp] theorem exec_vldp (vd : Spec) (m : MemOp) (s : State) : exec (.vldp vd m) s = execVldp vd m s := rfl
@[simp] theorem exec_vstp (vs1 : Spec) (m : MemOp) (rnd : BitVec 3) (op : PlatStOp) (s : State) : exec (.vstp vs1 m rnd op) s = execVstp vs1 m rnd op s := rfl
@[simp] theorem exec_vadd (o : VOp) (s : State) : exec (.vadd o) s = execVadd o s := rfl
@[simp] theorem exec_vaddExt (o : VOp) (x : Ext) (s : State) : exec (.vaddExt o x) s = execVaddExt o x s := rfl
@[simp] theorem exec_vsub (o : VOp) (s : State) : exec (.vsub o) s = execVsub o s := rfl
@[simp] theorem exec_vsubExt (o : VOp) (x : Ext) (s : State) : exec (.vsubExt o x) s = execVsubExt o x s := rfl
@[simp] theorem exec_vmul (o : VOp) (s : State) : exec (.vmul o) s = execVmul o s := rfl
@[simp] theorem exec_vmulExt (o : VOp) (x : Ext) (s : State) : exec (.vmulExt o x) s = execVmulExt o x s := rfl
@[simp] theorem exec_vmulh (o : VOp) (s : State) : exec (.vmulh o) s = execVmulh o s := rfl
@[simp] theorem exec_vmulhExt (o : VOp) (x : Ext) (s : State) : exec (.vmulhExt o x) s = execVmulhExt o x s := rfl
@[simp] theorem exec_vand (o : VOp) (s : State) : exec (.vand o) s = execVand o s := rfl
@[simp] theorem exec_vandExt (o : VOp) (x : Ext) (s : State) : exec (.vandExt o x) s = execVandExt o x s := rfl
@[simp] theorem exec_vor (o : VOp) (s : State) : exec (.vor o) s = execVor o s := rfl
@[simp] theorem exec_vorExt (o : VOp) (x : Ext) (s : State) : exec (.vorExt o x) s = execVorExt o x s := rfl
@[simp] theorem exec_vxor (o : VOp) (s : State) : exec (.vxor o) s = execVxor o s := rfl
@[simp] theorem exec_vxorExt (o : VOp) (x : Ext) (s : State) : exec (.vxorExt o x) s = execVxorExt o x s := rfl
@[simp] theorem exec_vmin (o : VOp) (s : State) : exec (.vmin o) s = execVmin o s := rfl
@[simp] theorem exec_vminExt (o : VOp) (x : Ext) (s : State) : exec (.vminExt o x) s = execVminExt o x s := rfl
@[simp] theorem exec_vmax (o : VOp) (s : State) : exec (.vmax o) s = execVmax o s := rfl
@[simp] theorem exec_vmaxExt (o : VOp) (x : Ext) (s : State) : exec (.vmaxExt o x) s = execVmaxExt o x s := rfl
@[simp] theorem exec_vsll (o : VOp) (s : State) : exec (.vsll o) s = execVsll o s := rfl
@[simp] theorem exec_vsllExt (o : VOp) (x : Ext) (s : State) : exec (.vsllExt o x) s = execVsllExt o x s := rfl
@[simp] theorem exec_vsrl (o : VOp) (s : State) : exec (.vsrl o) s = execVsrl o s := rfl
@[simp] theorem exec_vsrlExt (o : VOp) (x : Ext) (s : State) : exec (.vsrlExt o x) s = execVsrlExt o x s := rfl
@[simp] theorem exec_vsra (o : VOp) (s : State) : exec (.vsra o) s = execVsra o s := rfl
@[simp] theorem exec_vsraExt (o : VOp) (x : Ext) (s : State) : exec (.vsraExt o x) s = execVsraExt o x s := rfl
@[simp] theorem exec_vadds (o : VOp) (s : State) : exec (.vadds o) s = execVadds o s := rfl
@[simp] theorem exec_vaddsExt (o : VOp) (x : Ext) (s : State) : exec (.vaddsExt o x) s = execVaddsExt o x s := rfl
@[simp] theorem exec_vsubs (o : VOp) (s : State) : exec (.vsubs o) s = execVsubs o s := rfl
@[simp] theorem exec_vsubsExt (o : VOp) (x : Ext) (s : State) : exec (.vsubsExt o x) s = execVsubsExt o x s := rfl
@[simp] theorem exec_vmac (o : VOp) (s : State) : exec (.vmac o) s = execVmac o s := rfl
@[simp] theorem exec_vmacExt (o : VOp) (x : Ext) (s : State) : exec (.vmacExt o x) s = execVmacExt o x s := rfl
@[simp] theorem exec_vabsd (o : VOp) (s : State) : exec (.vabsd o) s = execVabsd o s := rfl
@[simp] theorem exec_vabsdExt (o : VOp) (x : Ext) (s : State) : exec (.vabsdExt o x) s = execVabsdExt o x s := rfl
@[simp] theorem exec_vfadd (o : VOp) (s : State) : exec (.vfadd o) s = execVfadd o s := rfl
@[simp] theorem exec_vfaddExt (o : VOp) (x : Ext) (s : State) : exec (.vfaddExt o x) s = execVfaddExt o x s := rfl
@[simp] theorem exec_vfsub (o : VOp) (s : State) : exec (.vfsub o) s = execVfsub o s := rfl
@[simp] theorem exec_vfsubExt (o : VOp) (x : Ext) (s : State) : exec (.vfsubExt o x) s = execVfsubExt o x s := rfl
@[simp] theorem exec_vfmul (o : VOp) (s : State) : exec (.vfmul o) s = execVfmul o s := rfl
@[simp] theorem exec_vfmulExt (o : VOp) (x : Ext) (s : State) : exec (.vfmulExt o x) s = execVfmulExt o x s := rfl
@[simp] theorem exec_vfma (o : VOp) (x : Ext) (s : State) : exec (.vfma o x) s = execVfma o x s := rfl
@[simp] theorem exec_vfdiv (o : VOp) (s : State) : exec (.vfdiv o) s = execVfdiv o s := rfl
@[simp] theorem exec_vfdivExt (o : VOp) (x : Ext) (s : State) : exec (.vfdivExt o x) s = execVfdivExt o x s := rfl
@[simp] theorem exec_vfsqrt (o : VOp) (s : State) : exec (.vfsqrt o) s = execVfsqrt o s := rfl
@[simp] theorem exec_vfsqrtExt (o : VOp) (x : Ext) (s : State) : exec (.vfsqrtExt o x) s = execVfsqrtExt o x s := rfl
@[simp] theorem exec_vfmin (o : VOp) (s : State) : exec (.vfmin o) s = execVfmin o s := rfl
@[simp] theorem exec_vfminExt (o : VOp) (x : Ext) (s : State) : exec (.vfminExt o x) s = execVfminExt o x s := rfl
@[simp] theorem exec_vfmax (o : VOp) (s : State) : exec (.vfmax o) s = execVfmax o s := rfl
@[simp] theorem exec_vfmaxExt (o : VOp) (x : Ext) (s : State) : exec (.vfmaxExt o x) s = execVfmaxExt o x s := rfl
@[simp] theorem exec_vfsgn (o : VOp) (s : State) : exec (.vfsgn o) s = execVfsgn o s := rfl
@[simp] theorem exec_vfsgnExt (o : VOp) (x : Ext) (s : State) : exec (.vfsgnExt o x) s = execVfsgnExt o x s := rfl
@[simp] theorem exec_vfscl (o : VOp) (s : State) : exec (.vfscl o) s = execVfscl o s := rfl
@[simp] theorem exec_vfsclExt (o : VOp) (x : Ext) (s : State) : exec (.vfsclExt o x) s = execVfsclExt o x s := rfl
@[simp] theorem exec_vfcls (o : VOp) (s : State) : exec (.vfcls o) s = execVfcls o s := rfl
@[simp] theorem exec_vfclsExt (o : VOp) (x : Ext) (s : State) : exec (.vfclsExt o x) s = execVfclsExt o x s := rfl
@[simp] theorem exec_vpoly (o : VOp) (s : State) : exec (.vpoly o) s = execVpoly o s := rfl
@[simp] theorem exec_vpolyExt (o : VOp) (x : Ext) (s : State) : exec (.vpolyExt o x) s = execVpolyExt o x s := rfl
@[simp] theorem exec_vtwos (o : VOp) (s : State) : exec (.vtwos o) s = execVtwos o s := rfl
@[simp] theorem exec_vtwosExt (o : VOp) (x : Ext) (s : State) : exec (.vtwosExt o x) s = execVtwosExt o x s := rfl
@[simp] theorem exec_vcmp (o : VOp) (s : State) : exec (.vcmp o) s = execVcmp o s := rfl
@[simp] theorem exec_vcmpExt (o : VOp) (x : Ext) (s : State) : exec (.vcmpExt o x) s = execVcmpExt o x s := rfl
@[simp] theorem exec_vfcmp (o : VOp) (s : State) : exec (.vfcmp o) s = execVfcmp o s := rfl
@[simp] theorem exec_vfcmpExt (o : VOp) (x : Ext) (s : State) : exec (.vfcmpExt o x) s = execVfcmpExt o x s := rfl
@[simp] theorem exec_plog (o : VOp) (s : State) : exec (.plog o) s = execPlog o s := rfl
@[simp] theorem exec_plogExt (o : VOp) (x : Ext) (s : State) : exec (.plogExt o x) s = execPlogExt o x s := rfl
@[simp] theorem exec_pset (o : VOp) (x : Ext) (s : State) : exec (.pset o x) s = execPset o x s := rfl
@[simp] theorem exec_pcnt (o : VOp) (x : Ext) (s : State) : exec (.pcnt o x) s = execPcnt o x s := rfl
@[simp] theorem exec_pfirst (o : VOp) (x : Ext) (s : State) : exec (.pfirst o x) s = execPfirst o x s := rfl
@[simp] theorem exec_vsel (o : VOp) (s : State) : exec (.vsel o) s = execVsel o s := rfl
@[simp] theorem exec_vselExt (o : VOp) (x : Ext) (s : State) : exec (.vselExt o x) s = execVselExt o x s := rfl
@[simp] theorem exec_vcvt (o : VOp) (s : State) : exec (.vcvt o) s = execVcvt o s := rfl
@[simp] theorem exec_vcvtExt (o : VOp) (x : Ext) (s : State) : exec (.vcvtExt o x) s = execVcvtExt o x s := rfl
@[simp] theorem exec_qnt (o : VOp) (x : Ext) (s : State) : exec (.qnt o x) s = execQnt o x s := rfl
@[simp] theorem exec_qnte (o : VOp) (x : Ext) (s : State) : exec (.qnte o x) s = execQnte o x s := rfl
@[simp] theorem exec_dqnt (o : VOp) (x : Ext) (s : State) : exec (.dqnt o x) s = execDqnt o x s := rfl
@[simp] theorem exec_vmv (o : VOp) (s : State) : exec (.vmv o) s = execVmv o s := rfl
@[simp] theorem exec_vmvExt (o : VOp) (x : Ext) (s : State) : exec (.vmvExt o x) s = execVmvExt o x s := rfl
@[simp] theorem exec_vbcast (o : VOp) (x : Ext) (s : State) : exec (.vbcast o x) s = execVbcast o x s := rfl
@[simp] theorem exec_vext (o : VOp) (x : Ext) (s : State) : exec (.vext o x) s = execVext o x s := rfl
@[simp] theorem exec_vins (o : VOp) (x : Ext) (s : State) : exec (.vins o x) s = execVins o x s := rfl
@[simp] theorem exec_vslup (o : VOp) (x : Ext) (s : State) : exec (.vslup o x) s = execVslup o x s := rfl
@[simp] theorem exec_vsldn (o : VOp) (x : Ext) (s : State) : exec (.vsldn o x) s = execVsldn o x s := rfl
@[simp] theorem exec_vperm (o : VOp) (s : State) : exec (.vperm o) s = execVperm o s := rfl
@[simp] theorem exec_vpermExt (o : VOp) (x : Ext) (s : State) : exec (.vpermExt o x) s = execVpermExt o x s := rfl
@[simp] theorem exec_vtrn (o : VOp) (s : State) : exec (.vtrn o) s = execVtrn o s := rfl
@[simp] theorem exec_vtrnExt (o : VOp) (x : Ext) (s : State) : exec (.vtrnExt o x) s = execVtrnExt o x s := rfl
@[simp] theorem exec_vredsum (o : VOp) (s : State) : exec (.vredsum o) s = execVredsum o s := rfl
@[simp] theorem exec_vredsumExt (o : VOp) (x : Ext) (s : State) : exec (.vredsumExt o x) s = execVredsumExt o x s := rfl
@[simp] theorem exec_vredmax (o : VOp) (s : State) : exec (.vredmax o) s = execVredmax o s := rfl
@[simp] theorem exec_vredmaxExt (o : VOp) (x : Ext) (s : State) : exec (.vredmaxExt o x) s = execVredmaxExt o x s := rfl
@[simp] theorem exec_vredmin (o : VOp) (s : State) : exec (.vredmin o) s = execVredmin o s := rfl
@[simp] theorem exec_vredminExt (o : VOp) (x : Ext) (s : State) : exec (.vredminExt o x) s = execVredminExt o x s := rfl
@[simp] theorem exec_vredcs (o : VOp) (s : State) : exec (.vredcs o) s = execVredcs o s := rfl
@[simp] theorem exec_vredcsExt (o : VOp) (x : Ext) (s : State) : exec (.vredcsExt o x) s = execVredcsExt o x s := rfl
@[simp] theorem exec_vscan (o : VOp) (x : Ext) (s : State) : exec (.vscan o x) s = execVscan o x s := rfl
@[simp] theorem exec_vcomp (o : VOp) (s : State) : exec (.vcomp o) s = execVcomp o s := rfl
@[simp] theorem exec_vcompExt (o : VOp) (x : Ext) (s : State) : exec (.vcompExt o x) s = execVcompExt o x s := rfl
@[simp] theorem exec_vdig (o : VOp) (x : Ext) (s : State) : exec (.vdig o x) s = execVdig o x s := rfl
@[simp] theorem exec_mma (o : VOp) (x : Ext) (s : State) : exec (.mma o x) s = execMma o x s := rfl
@[simp] theorem exec_bld (o : VOp) (x : Ext) (s : State) : exec (.bld o x) s = execBld o x s := rfl
@[simp] theorem exec_azero (o : VOp) (x : Ext) (s : State) : exec (.azero o x) s = execAzero o x s := rfl
@[simp] theorem exec_ard (o : VOp) (x : Ext) (s : State) : exec (.ard o x) s = execArd o x s := rfl
@[simp] theorem exec_awr (o : VOp) (x : Ext) (s : State) : exec (.awr o x) s = execAwr o x s := rfl
@[simp] theorem exec_eptk (o : VOp) (x : Ext) (s : State) : exec (.eptk o x) s = execEptk o x s := rfl
@[simp] theorem exec_bslotPin (slot : Spec) (s : State) : exec (.bslotPin slot) s = execBslotPin slot s := rfl
@[simp] theorem exec_bslotUnpin (slot : Spec) (s : State) : exec (.bslotUnpin slot) s = execBslotUnpin slot s := rfl
@[simp] theorem exec_bslotRelease (slot : Spec) (s : State) : exec (.bslotRelease slot) s = execBslotRelease slot s := rfl
@[simp] theorem exec_bslotQuery (rd : Reg) (slot : Spec) (s : State) : exec (.bslotQuery rd slot) s = execBslotQuery rd slot s := rfl
@[simp] theorem exec_rmbind (rd rs1 : Reg) (m : BitVec 4) (s : State) : exec (.rmbind rd rs1 m) s = execRmbind rd rs1 m s := rfl
@[simp] theorem exec_rmbindUnbind (m : BitVec 4) (s : State) : exec (.rmbindUnbind m) s = execRmbindUnbind m s := rfl
@[simp] theorem exec_rmfire (vX : Spec) (m : BitVec 4) (s : State) : exec (.rmfire vX m) s = execRmfire vX m s := rfl
@[simp] theorem exec_rmmul (ad : Bool) (aT aJ : BitVec 4) (vX : Spec) (m : BitVec 4) (row0 : BitVec 3) (s : State) : exec (.rmmul ad aT aJ vX m row0) s = execRmmul ad aT aJ vX m row0 s := rfl
@[simp] theorem exec_rmjoin (aT aJ : BitVec 4) (s : State) : exec (.rmjoin aT aJ) s = execRmjoin aT aJ s := rfl
@[simp] theorem exec_rmmig (rd : Reg) (m : BitVec 4) (s : State) : exec (.rmmig rd m) s = execRmmig rd m s := rfl
@[simp] theorem exec_rmage (m : BitVec 4) (s : State) : exec (.rmage m) s = execRmage m s := rfl
@[simp] theorem exec_rmqry (rd : Reg) (m : BitVec 4) (s : State) : exec (.rmqry rd m) s = execRmqry rd m s := rfl
@[simp] theorem exec_sphdr (full : Bool) (rd rs1 : Reg) (s : State) : exec (.sphdr full rd rs1) s = execSphdr full rd rs1 s := rfl
@[simp] theorem exec_spcnt (kz : Bool) (rd rs1 rs2 xs xs2 : Reg) (s : State) : exec (.spcnt kz rd rs1 rs2 xs xs2) s = execSpcnt kz rd rs1 rs2 xs xs2 s := rfl
@[simp] theorem exec_spmrg (kz : Bool) (rd rs1 rs2 xs xs2 : Reg) (s : State) : exec (.spmrg kz rd rs1 rs2 xs xs2) s = execSpmrg kz rd rs1 rs2 xs xs2 s := rfl
@[simp] theorem exec_nop (s : State) : exec (.nop) s = execNop s := rfl
@[simp] theorem exec_tret (s : State) : exec (.tret) s = execTret s := rfl
@[simp] theorem exec_exit (s : State) : exec (.exit) s = execExit s := rfl
@[simp] theorem exec_bar (s : State) : exec (.bar) s = execBar s := rfl
@[simp] theorem exec_vfence (s : State) : exec (.vfence) s = execVfence s := rfl
@[simp] theorem exec_ifence (s : State) : exec (.ifence) s = execIfence s := rfl
@[simp] theorem exec_aspaceWrite (st : Fin 4) (v : W64) (s : State) : exec (.aspaceWrite st v) s = execAspaceWrite st v s := rfl
@[simp] theorem exec_vlcapWrite (st : Fin 4) (v : W64) (s : State) : exec (.vlcapWrite st v) s = execVlcapWrite st v s := rfl
@[simp] theorem exec_pwrlimWrite (v : W64) (s : State) : exec (.pwrlimWrite v) s = execPwrlimWrite v s := rfl
@[simp] theorem exec_stkrefWrite (n : Fin 24) (v : W64) (s : State) : exec (.stkrefWrite n v) s = execStkrefWrite n v s := rfl
@[simp] theorem exec_stkeccWrite (n : Fin 24) (v : W64) (s : State) : exec (.stkeccWrite n v) s = execStkeccWrite n v s := rfl
@[simp] theorem exec_waitaWake (st : Fin 4) (k : StreamId) (s : State) : exec (.waitaWake st k) s = execWaitaWake st k s := rfl
@[simp] theorem exec_waitaTimeout (st : Fin 4) (k : StreamId) (s : State) : exec (.waitaTimeout st k) s = execWaitaTimeout st k s := rfl
@[simp] theorem exec_copyStart (s : State) : exec (.copyStart) s = execCopyStart s := rfl
@[simp] theorem exec_copyComplete (ch : Fin 16) (s : State) : exec (.copyComplete ch) s = execCopyComplete ch s := rfl
@[simp] theorem exec_copyFault (ch : Fin 16) (s : State) : exec (.copyFault ch) s = execCopyFault ch s := rfl
@[simp] theorem exec_engineFaultTrap (st : Fin 4) (s : State) : exec (.engineFaultTrap st) s = execEngineFaultTrap st s := rfl
@[simp] theorem exec_platOpStart (s : State) : exec (.platOpStart) s = execPlatOpStart s := rfl
@[simp] theorem exec_platGatherComplete (slot : Fin 16) (reach : Bool) (s : State) : exec (.platGatherComplete slot reach) s = execPlatGatherComplete slot reach s := rfl
@[simp] theorem exec_platScatterComplete (slot : Fin 16) (reach : Bool) (s : State) : exec (.platScatterComplete slot reach) s = execPlatScatterComplete slot reach s := rfl
@[simp] theorem exec_viqCommit (st : Fin 4) (s : State) : exec (.viqCommit st) s = execViqCommit st s := rfl
@[simp] theorem exec_wcbDrain (s : State) : exec (.wcbDrain) s = execWcbDrain s := rfl
@[simp] theorem exec_matrixEngineTurn (s : State) : exec (.matrixEngineTurn) s = execMatrixEngineTurn s := rfl
@[simp] theorem exec_mmaAccumulate (s : State) : exec (.mmaAccumulate) s = execMmaAccumulate s := rfl
@[simp] theorem exec_deepPartArrival (st : Fin 4) (aJ : BitVec 4) (s : State) : exec (.deepPartArrival st aJ) s = execDeepPartArrival st aJ s := rfl
@[simp] theorem exec_preemptRequest (s : State) : exec (.preemptRequest) s = execPreemptRequest s := rfl
@[simp] theorem exec_quantumExpiry (launch : BitVec 32) (s : State) : exec (.quantumExpiry launch) s = execQuantumExpiry launch s := rfl
@[simp] theorem exec_strandResume (st : Fin 4) (s : State) : exec (.strandResume st) s = execStrandResume st s := rfl
@[simp] theorem exec_matrixStateSave (s : State) : exec (.matrixStateSave) s = execMatrixStateSave s := rfl
@[simp] theorem exec_budgetExhausted (st : Fin 4) (s : State) : exec (.budgetExhausted st) s = execBudgetExhausted st s := rfl
@[simp] theorem exec_taskRerun (st : Fin 4) (s : State) : exec (.taskRerun st) s = execTaskRerun st s := rfl
@[simp] theorem exec_supervisorRetry (st : Fin 4) (entries : List W64) (s : State) : exec (.supervisorRetry st entries) s = execSupervisorRetry st entries s := rfl
@[simp] theorem exec_supervisorForward (st : Fin 4) (s : State) : exec (.supervisorForward st) s = execSupervisorForward st s := rfl
@[simp] theorem exec_supervisorKill (st : Fin 4) (s : State) : exec (.supervisorKill st) s = execSupervisorKill st s := rfl
@[simp] theorem exec_teamDispatch (launch : BitVec 32) (team : W64) (strands : List (Fin 4)) (base : Nat) (s : State) : exec (.teamDispatch launch team strands base) s = execTeamDispatch launch team strands base s := rfl
@[simp] theorem exec_preload (s : State) : exec (.preload) s = execPreload s := rfl
@[simp] theorem exec_teamRetire (launch : BitVec 32) (team : W64) (s : State) : exec (.teamRetire launch team) s = execTeamRetire launch team s := rfl
@[simp] theorem exec_waveFence (launch : BitVec 32) (s : State) : exec (.waveFence launch) s = execWaveFence launch s := rfl
@[simp] theorem exec_launchComplete (launch : BitVec 32) (s : State) : exec (.launchComplete launch) s = execLaunchComplete launch s := rfl
@[simp] theorem exec_coalesceWindowExpiry (endpoint : BitVec 32) (cls : BitVec 4) (s : State) : exec (.coalesceWindowExpiry endpoint cls) s = execCoalesceWindowExpiry endpoint cls s := rfl
@[simp] theorem exec_netComplete (st : Fin 4) (slot : Fin 16) (ok : Bool) (data : List Byte) (s : State) : exec (.netComplete st slot ok data) s = execNetComplete st slot ok data s := rfl
@[simp] theorem exec_stackCriticalTemp (n : Fin 24) (s : State) : exec (.stackCriticalTemp n) s = execStackCriticalTemp n s := rfl
@[simp] theorem exec_criticalTempDeassert (n : Fin 24) (s : State) : exec (.criticalTempDeassert n) s = execCriticalTempDeassert n s := rfl
@[simp] theorem exec_selfRefreshExit (n : Fin 24) (s : State) : exec (.selfRefreshExit n) s = execSelfRefreshExit n s := rfl
@[simp] theorem exec_stackHoldEvent (n : Fin 24) (s : State) : exec (.stackHoldEvent n) s = execStackHoldEvent n s := rfl
@[simp] theorem exec_stackRetire (n : Fin 24) (s : State) : exec (.stackRetire n) s = execStackRetire n s := rfl
@[simp] theorem exec_generatorReseed (n : Fin 24) (s : State) : exec (.generatorReseed n) s = execGeneratorReseed n s := rfl
@[simp] theorem exec_deviceReset (s : State) : exec (.deviceReset) s = execDeviceReset s := rfl
@[simp] theorem exec_readinessChange (ix : Fin 48) (code : Byte) (s : State) : exec (.readinessChange ix code) s = execReadinessChange ix code s := rfl
@[simp] theorem exec_sessionOpen (r : Rcp) (versions : List (Byte × Byte)) (asid : BitVec 16) (s : State) : exec (.sessionOpen r versions asid) s = execSessionOpen r versions asid s := rfl
@[simp] theorem exec_launchSubmit (r : Rcp) (hdr : W64) (poison : W64) (s : State) : exec (.launchSubmit r hdr poison) s = execLaunchSubmit r hdr poison s := rfl
@[simp] theorem exec_endpointReg (r : Rcp) (endpoint : BitVec 32) (windows : List Nat) (s : State) : exec (.endpointReg r endpoint windows) s = execEndpointReg r endpoint windows s := rfl
@[simp] theorem exec_windowReg (r : Rcp) (q : WindowReq) (s : State) : exec (.windowReg r q) s = execWindowReg r q s := rfl
@[simp] theorem exec_readinessQuery (r : Rcp) (s : State) : exec (.readinessQuery r) s = execReadinessQuery r s := rfl
@[simp] theorem exec_spdm (r : Rcp) (q : SpdmReq) (s : State) : exec (.spdm r q) s = execSpdm r q s := rfl
@[simp] theorem exec_fwUpdate (r : Rcp) (chunk : List Byte) (last : Bool) (s : State) : exec (.fwUpdate r chunk last) s = execFwUpdate r chunk last s := rfl
@[simp] theorem exec_spaceSet (r : Rcp) (q : SpaceReq) (s : State) : exec (.spaceSet r q) s = execSpaceSet r q s := rfl
@[simp] theorem exec_vmapSet (r : Rcp) (hdr : W64) (entries : List W64) (s : State) : exec (.vmapSet r hdr entries) s = execVmapSet r hdr entries s := rfl
@[simp] theorem exec_uetWrite (asid : BitVec 12) (va : W64) (data : List Byte) (s : State) : exec (.uetWrite asid va data) s = execUetWrite asid va data s := rfl
@[simp] theorem exec_uetRead (asid : BitVec 12) (va : W64) (n : Nat) (s : State) : exec (.uetRead asid va n) s = execUetRead asid va n s := rfl
@[simp] theorem exec_uetAtomic (asid : BitVec 12) (op : UetOp) (d : Bool) (va : W64) (v cmp : W64) (s : State) : exec (.uetAtomic asid op d va v cmp) s = execUetAtomic asid op d va v cmp s := rfl
@[simp] theorem exec_inboundUudDrop (s : State) : exec (.inboundUudDrop) s = execInboundUudDrop s := rfl
@[simp] theorem exec_resolveVmapAbsent (ch : Fin 16) (entry : Option W64) (s : State) : exec (.resolveVmapAbsent ch entry) s = execResolveVmapAbsent ch entry s := rfl
@[simp] theorem exec_connectionSetup (q : ConnReq) (s : State) : exec (.connectionSetup q) s = execConnectionSetup q s := rfl
@[simp] theorem exec_unknownKind (r : Rcp) (kind : BitVec 16) (s : State) : exec (.unknownKind r kind) s = execUnknownKind r kind s := rfl

end Sys2Proof.Machine
end

