-- ==== Sys2Proof/Laws/State.lean ====
section
/-! SUPPORT. The small lemmas of the state's updates: one per field per update, and what a strand, a stream and a scalar register
read after one. -/

namespace Sys2Proof.Machine

/-! ### Fields that an update of a strand or a stream leaves -/

@[simp] theorem State.modStrand_core (s : State) (st : Fin 4) (f : Strand → Strand) : (s.modStrand st f).core = s.core := rfl
@[simp] theorem State.modStrand_others (s : State) (st : Fin 4) (f : Strand → Strand) : (s.modStrand st f).others = s.others := rfl
@[simp] theorem State.modStrand_agenda (s : State) (st : Fin 4) (f : Strand → Strand) : (s.modStrand st f).agenda = s.agenda := rfl
@[simp] theorem State.modStrand_cur (s : State) (st : Fin 4) (f : Strand → Strand) : (s.modStrand st f).cur = s.cur := rfl
@[simp] theorem State.modStrand_tick (s : State) (st : Fin 4) (f : Strand → Strand) : (s.modStrand st f).tick = s.tick := rfl
@[simp] theorem State.modStrand_cycle (s : State) (st : Fin 4) (f : Strand → Strand) : (s.modStrand st f).cycle = s.cycle := rfl
@[simp] theorem State.modStrand_mat (s : State) (st : Fin 4) (f : Strand → Strand) : (s.modStrand st f).mat = s.mat := rfl
@[simp] theorem State.modStrand_coef (s : State) (st : Fin 4) (f : Strand → Strand) : (s.modStrand st f).coef = s.coef := rfl
@[simp] theorem State.modStrand_coefFor (s : State) (st : Fin 4) (f : Strand → Strand) : (s.modStrand st f).coefFor = s.coefFor := rfl
@[simp] theorem State.modStrand_pwrlim (s : State) (st : Fin 4) (f : Strand → Strand) : (s.modStrand st f).pwrlim = s.pwrlim := rfl
@[simp] theorem State.modStrand_seed (s : State) (st : Fin 4) (f : Strand → Strand) : (s.modStrand st f).seed = s.seed := rfl
@[simp] theorem State.modStrand_channels (s : State) (st : Fin 4) (f : Strand → Strand) : (s.modStrand st f).channels = s.channels := rfl
@[simp] theorem State.modStrand_copyQ (s : State) (st : Fin 4) (f : Strand → Strand) : (s.modStrand st f).copyQ = s.copyQ := rfl
@[simp] theorem State.modStrand_platSlots (s : State) (st : Fin 4) (f : Strand → Strand) : (s.modStrand st f).platSlots = s.platSlots := rfl
@[simp] theorem State.modStrand_platQ (s : State) (st : Fin 4) (f : Strand → Strand) : (s.modStrand st f).platQ = s.platQ := rfl
@[simp] theorem State.modStrand_wcb (s : State) (st : Fin 4) (f : Strand → Strand) : (s.modStrand st f).wcb = s.wcb := rfl
@[simp] theorem State.modStrand_held (s : State) (st : Fin 4) (f : Strand → Strand) : (s.modStrand st f).held = s.held := rfl
@[simp] theorem State.modStrand_deferred (s : State) (st : Fin 4) (f : Strand → Strand) : (s.modStrand st f).deferred = s.deferred := rfl
@[simp] theorem State.modStrand_seals (s : State) (st : Fin 4) (f : Strand → Strand) : (s.modStrand st f).seals = s.seals := rfl
@[simp] theorem State.modStrand_teams (s : State) (st : Fin 4) (f : Strand → Strand) : (s.modStrand st f).teams = s.teams := rfl
@[simp] theorem State.modStrand_parked (s : State) (st : Fin 4) (f : Strand → Strand) : (s.modStrand st f).parked = s.parked := rfl
@[simp] theorem State.modStrand_savedMat (s : State) (st : Fin 4) (f : Strand → Strand) : (s.modStrand st f).savedMat = s.savedMat := rfl
@[simp] theorem State.modStrand_savedScr (s : State) (st : Fin 4) (f : Strand → Strand) : (s.modStrand st f).savedScr = s.savedScr := rfl
@[simp] theorem State.modStrand_savedCoef (s : State) (st : Fin 4) (f : Strand → Strand) : (s.modStrand st f).savedCoef = s.savedCoef := rfl
@[simp] theorem State.modStrand_lastSpace (s : State) (st : Fin 4) (f : Strand → Strand) : (s.modStrand st f).lastSpace = s.lastSpace := rfl
@[simp] theorem State.modStrand_posted (s : State) (st : Fin 4) (f : Strand → Strand) : (s.modStrand st f).posted = s.posted := rfl
@[simp] theorem State.modStrand_mem (s : State) (st : Fin 4) (f : Strand → Strand) : (s.modStrand st f).mem = s.mem := rfl
@[simp] theorem State.modStrand_keyTag (s : State) (st : Fin 4) (f : Strand → Strand) : (s.modStrand st f).keyTag = s.keyTag := rfl
@[simp] theorem State.modStrand_poison (s : State) (st : Fin 4) (f : Strand → Strand) : (s.modStrand st f).poison = s.poison := rfl
@[simp] theorem State.modStrand_spaces (s : State) (st : Fin 4) (f : Strand → Strand) : (s.modStrand st f).spaces = s.spaces := rfl
@[simp] theorem State.modStrand_gens (s : State) (st : Fin 4) (f : Strand → Strand) : (s.modStrand st f).gens = s.gens := rfl
@[simp] theorem State.modStrand_keys (s : State) (st : Fin 4) (f : Strand → Strand) : (s.modStrand st f).keys = s.keys := rfl
@[simp] theorem State.modStrand_windows (s : State) (st : Fin 4) (f : Strand → Strand) : (s.modStrand st f).windows = s.windows := rfl
@[simp] theorem State.modStrand_readiness (s : State) (st : Fin 4) (f : Strand → Strand) : (s.modStrand st f).readiness = s.readiness := rfl
@[simp] theorem State.modStrand_stks (s : State) (st : Fin 4) (f : Strand → Strand) : (s.modStrand st f).stks = s.stks := rfl
@[simp] theorem State.modStrand_sessions (s : State) (st : Fin 4) (f : Strand → Strand) : (s.modStrand st f).sessions = s.sessions := rfl
@[simp] theorem State.modStrand_endpoints (s : State) (st : Fin 4) (f : Strand → Strand) : (s.modStrand st f).endpoints = s.endpoints := rfl
@[simp] theorem State.modStrand_gathered (s : State) (st : Fin 4) (f : Strand → Strand) : (s.modStrand st f).gathered = s.gathered := rfl
@[simp] theorem State.modStrand_sent (s : State) (st : Fin 4) (f : Strand → Strand) : (s.modStrand st f).sent = s.sent := rfl
@[simp] theorem State.modStrand_dropped (s : State) (st : Fin 4) (f : Strand → Strand) : (s.modStrand st f).dropped = s.dropped := rfl
@[simp] theorem State.modStrand_outbox (s : State) (st : Fin 4) (f : Strand → Strand) : (s.modStrand st f).outbox = s.outbox := rfl
@[simp] theorem State.modStrand_uudDropped (s : State) (st : Fin 4) (f : Strand → Strand) : (s.modStrand st f).uudDropped = s.uudDropped := rfl
@[simp] theorem State.modStrand_launches (s : State) (st : Fin 4) (f : Strand → Strand) : (s.modStrand st f).launches = s.launches := rfl
@[simp] theorem State.modStrand_queue (s : State) (st : Fin 4) (f : Strand → Strand) : (s.modStrand st f).queue = s.queue := rfl
@[simp] theorem State.modStrand_nextId (s : State) (st : Fin 4) (f : Strand → Strand) : (s.modStrand st f).nextId = s.nextId := rfl
@[simp] theorem State.modStrand_quantum (s : State) (st : Fin 4) (f : Strand → Strand) : (s.modStrand st f).quantum = s.quantum := rfl
@[simp] theorem State.modStrand_supRecords (s : State) (st : Fin 4) (f : Strand → Strand) : (s.modStrand st f).supRecords = s.supRecords := rfl
@[simp] theorem State.modStrand_supTraps (s : State) (st : Fin 4) (f : Strand → Strand) : (s.modStrand st f).supTraps = s.supTraps := rfl
@[simp] theorem State.modStrand_conns (s : State) (st : Fin 4) (f : Strand → Strand) : (s.modStrand st f).conns = s.conns := rfl
@[simp] theorem State.modStrand_rcpQ (s : State) (st : Fin 4) (f : Strand → Strand) : (s.modStrand st f).rcpQ = s.rcpQ := rfl
@[simp] theorem State.modStrand_firmware (s : State) (st : Fin 4) (f : Strand → Strand) : (s.modStrand st f).firmware = s.firmware := rfl
@[simp] theorem State.modStrand_incoming (s : State) (st : Fin 4) (f : Strand → Strand) : (s.modStrand st f).incoming = s.incoming := rfl
@[simp] theorem State.modStrand_staged (s : State) (st : Fin 4) (f : Strand → Strand) : (s.modStrand st f).staged = s.staged := rfl
@[simp] theorem State.modStrand_editLog (s : State) (st : Fin 4) (f : Strand → Strand) : (s.modStrand st f).editLog = s.editLog := rfl
@[simp] theorem State.modStrand_measured (s : State) (st : Fin 4) (f : Strand → Strand) : (s.modStrand st f).measured = s.measured := rfl
@[simp] theorem State.modStrand_itemRev (s : State) (st : Fin 4) (f : Strand → Strand) : (s.modStrand st f).itemRev = s.itemRev := rfl

@[simp] theorem State.modStream_core (s : State) (st : Fin 4) (k : StreamId) (f : Stream → Stream) : (s.modStream st k f).core = s.core := rfl
@[simp] theorem State.modStream_others (s : State) (st : Fin 4) (k : StreamId) (f : Stream → Stream) : (s.modStream st k f).others = s.others := rfl
@[simp] theorem State.modStream_agenda (s : State) (st : Fin 4) (k : StreamId) (f : Stream → Stream) : (s.modStream st k f).agenda = s.agenda := rfl
@[simp] theorem State.modStream_cur (s : State) (st : Fin 4) (k : StreamId) (f : Stream → Stream) : (s.modStream st k f).cur = s.cur := rfl
@[simp] theorem State.modStream_tick (s : State) (st : Fin 4) (k : StreamId) (f : Stream → Stream) : (s.modStream st k f).tick = s.tick := rfl
@[simp] theorem State.modStream_cycle (s : State) (st : Fin 4) (k : StreamId) (f : Stream → Stream) : (s.modStream st k f).cycle = s.cycle := rfl
@[simp] theorem State.modStream_mat (s : State) (st : Fin 4) (k : StreamId) (f : Stream → Stream) : (s.modStream st k f).mat = s.mat := rfl
@[simp] theorem State.modStream_coef (s : State) (st : Fin 4) (k : StreamId) (f : Stream → Stream) : (s.modStream st k f).coef = s.coef := rfl
@[simp] theorem State.modStream_coefFor (s : State) (st : Fin 4) (k : StreamId) (f : Stream → Stream) : (s.modStream st k f).coefFor = s.coefFor := rfl
@[simp] theorem State.modStream_pwrlim (s : State) (st : Fin 4) (k : StreamId) (f : Stream → Stream) : (s.modStream st k f).pwrlim = s.pwrlim := rfl
@[simp] theorem State.modStream_seed (s : State) (st : Fin 4) (k : StreamId) (f : Stream → Stream) : (s.modStream st k f).seed = s.seed := rfl
@[simp] theorem State.modStream_channels (s : State) (st : Fin 4) (k : StreamId) (f : Stream → Stream) : (s.modStream st k f).channels = s.channels := rfl
@[simp] theorem State.modStream_copyQ (s : State) (st : Fin 4) (k : StreamId) (f : Stream → Stream) : (s.modStream st k f).copyQ = s.copyQ := rfl
@[simp] theorem State.modStream_platSlots (s : State) (st : Fin 4) (k : StreamId) (f : Stream → Stream) : (s.modStream st k f).platSlots = s.platSlots := rfl
@[simp] theorem State.modStream_platQ (s : State) (st : Fin 4) (k : StreamId) (f : Stream → Stream) : (s.modStream st k f).platQ = s.platQ := rfl
@[simp] theorem State.modStream_wcb (s : State) (st : Fin 4) (k : StreamId) (f : Stream → Stream) : (s.modStream st k f).wcb = s.wcb := rfl
@[simp] theorem State.modStream_held (s : State) (st : Fin 4) (k : StreamId) (f : Stream → Stream) : (s.modStream st k f).held = s.held := rfl
@[simp] theorem State.modStream_deferred (s : State) (st : Fin 4) (k : StreamId) (f : Stream → Stream) : (s.modStream st k f).deferred = s.deferred := rfl
@[simp] theorem State.modStream_seals (s : State) (st : Fin 4) (k : StreamId) (f : Stream → Stream) : (s.modStream st k f).seals = s.seals := rfl
@[simp] theorem State.modStream_teams (s : State) (st : Fin 4) (k : StreamId) (f : Stream → Stream) : (s.modStream st k f).teams = s.teams := rfl
@[simp] theorem State.modStream_parked (s : State) (st : Fin 4) (k : StreamId) (f : Stream → Stream) : (s.modStream st k f).parked = s.parked := rfl
@[simp] theorem State.modStream_savedMat (s : State) (st : Fin 4) (k : StreamId) (f : Stream → Stream) : (s.modStream st k f).savedMat = s.savedMat := rfl
@[simp] theorem State.modStream_savedScr (s : State) (st : Fin 4) (k : StreamId) (f : Stream → Stream) : (s.modStream st k f).savedScr = s.savedScr := rfl
@[simp] theorem State.modStream_savedCoef (s : State) (st : Fin 4) (k : StreamId) (f : Stream → Stream) : (s.modStream st k f).savedCoef = s.savedCoef := rfl
@[simp] theorem State.modStream_lastSpace (s : State) (st : Fin 4) (k : StreamId) (f : Stream → Stream) : (s.modStream st k f).lastSpace = s.lastSpace := rfl
@[simp] theorem State.modStream_posted (s : State) (st : Fin 4) (k : StreamId) (f : Stream → Stream) : (s.modStream st k f).posted = s.posted := rfl
@[simp] theorem State.modStream_mem (s : State) (st : Fin 4) (k : StreamId) (f : Stream → Stream) : (s.modStream st k f).mem = s.mem := rfl
@[simp] theorem State.modStream_keyTag (s : State) (st : Fin 4) (k : StreamId) (f : Stream → Stream) : (s.modStream st k f).keyTag = s.keyTag := rfl
@[simp] theorem State.modStream_poison (s : State) (st : Fin 4) (k : StreamId) (f : Stream → Stream) : (s.modStream st k f).poison = s.poison := rfl
@[simp] theorem State.modStream_spaces (s : State) (st : Fin 4) (k : StreamId) (f : Stream → Stream) : (s.modStream st k f).spaces = s.spaces := rfl
@[simp] theorem State.modStream_gens (s : State) (st : Fin 4) (k : StreamId) (f : Stream → Stream) : (s.modStream st k f).gens = s.gens := rfl
@[simp] theorem State.modStream_keys (s : State) (st : Fin 4) (k : StreamId) (f : Stream → Stream) : (s.modStream st k f).keys = s.keys := rfl
@[simp] theorem State.modStream_windows (s : State) (st : Fin 4) (k : StreamId) (f : Stream → Stream) : (s.modStream st k f).windows = s.windows := rfl
@[simp] theorem State.modStream_readiness (s : State) (st : Fin 4) (k : StreamId) (f : Stream → Stream) : (s.modStream st k f).readiness = s.readiness := rfl
@[simp] theorem State.modStream_stks (s : State) (st : Fin 4) (k : StreamId) (f : Stream → Stream) : (s.modStream st k f).stks = s.stks := rfl
@[simp] theorem State.modStream_sessions (s : State) (st : Fin 4) (k : StreamId) (f : Stream → Stream) : (s.modStream st k f).sessions = s.sessions := rfl
@[simp] theorem State.modStream_endpoints (s : State) (st : Fin 4) (k : StreamId) (f : Stream → Stream) : (s.modStream st k f).endpoints = s.endpoints := rfl
@[simp] theorem State.modStream_gathered (s : State) (st : Fin 4) (k : StreamId) (f : Stream → Stream) : (s.modStream st k f).gathered = s.gathered := rfl
@[simp] theorem State.modStream_sent (s : State) (st : Fin 4) (k : StreamId) (f : Stream → Stream) : (s.modStream st k f).sent = s.sent := rfl
@[simp] theorem State.modStream_dropped (s : State) (st : Fin 4) (k : StreamId) (f : Stream → Stream) : (s.modStream st k f).dropped = s.dropped := rfl
@[simp] theorem State.modStream_outbox (s : State) (st : Fin 4) (k : StreamId) (f : Stream → Stream) : (s.modStream st k f).outbox = s.outbox := rfl
@[simp] theorem State.modStream_uudDropped (s : State) (st : Fin 4) (k : StreamId) (f : Stream → Stream) : (s.modStream st k f).uudDropped = s.uudDropped := rfl
@[simp] theorem State.modStream_launches (s : State) (st : Fin 4) (k : StreamId) (f : Stream → Stream) : (s.modStream st k f).launches = s.launches := rfl
@[simp] theorem State.modStream_queue (s : State) (st : Fin 4) (k : StreamId) (f : Stream → Stream) : (s.modStream st k f).queue = s.queue := rfl
@[simp] theorem State.modStream_nextId (s : State) (st : Fin 4) (k : StreamId) (f : Stream → Stream) : (s.modStream st k f).nextId = s.nextId := rfl
@[simp] theorem State.modStream_quantum (s : State) (st : Fin 4) (k : StreamId) (f : Stream → Stream) : (s.modStream st k f).quantum = s.quantum := rfl
@[simp] theorem State.modStream_supRecords (s : State) (st : Fin 4) (k : StreamId) (f : Stream → Stream) : (s.modStream st k f).supRecords = s.supRecords := rfl
@[simp] theorem State.modStream_supTraps (s : State) (st : Fin 4) (k : StreamId) (f : Stream → Stream) : (s.modStream st k f).supTraps = s.supTraps := rfl
@[simp] theorem State.modStream_conns (s : State) (st : Fin 4) (k : StreamId) (f : Stream → Stream) : (s.modStream st k f).conns = s.conns := rfl
@[simp] theorem State.modStream_rcpQ (s : State) (st : Fin 4) (k : StreamId) (f : Stream → Stream) : (s.modStream st k f).rcpQ = s.rcpQ := rfl
@[simp] theorem State.modStream_firmware (s : State) (st : Fin 4) (k : StreamId) (f : Stream → Stream) : (s.modStream st k f).firmware = s.firmware := rfl
@[simp] theorem State.modStream_incoming (s : State) (st : Fin 4) (k : StreamId) (f : Stream → Stream) : (s.modStream st k f).incoming = s.incoming := rfl
@[simp] theorem State.modStream_staged (s : State) (st : Fin 4) (k : StreamId) (f : Stream → Stream) : (s.modStream st k f).staged = s.staged := rfl
@[simp] theorem State.modStream_editLog (s : State) (st : Fin 4) (k : StreamId) (f : Stream → Stream) : (s.modStream st k f).editLog = s.editLog := rfl
@[simp] theorem State.modStream_measured (s : State) (st : Fin 4) (k : StreamId) (f : Stream → Stream) : (s.modStream st k f).measured = s.measured := rfl
@[simp] theorem State.modStream_itemRev (s : State) (st : Fin 4) (k : StreamId) (f : Stream → Stream) : (s.modStream st k f).itemRev = s.itemRev := rfl

@[simp] theorem State.writeX_core (s : State) (st : Fin 4) (k : StreamId) (r : Reg) (v : W64) : (s.writeX st k r v).core = s.core := rfl
@[simp] theorem State.writeX_others (s : State) (st : Fin 4) (k : StreamId) (r : Reg) (v : W64) : (s.writeX st k r v).others = s.others := rfl
@[simp] theorem State.writeX_agenda (s : State) (st : Fin 4) (k : StreamId) (r : Reg) (v : W64) : (s.writeX st k r v).agenda = s.agenda := rfl
@[simp] theorem State.writeX_cur (s : State) (st : Fin 4) (k : StreamId) (r : Reg) (v : W64) : (s.writeX st k r v).cur = s.cur := rfl
@[simp] theorem State.writeX_tick (s : State) (st : Fin 4) (k : StreamId) (r : Reg) (v : W64) : (s.writeX st k r v).tick = s.tick := rfl
@[simp] theorem State.writeX_cycle (s : State) (st : Fin 4) (k : StreamId) (r : Reg) (v : W64) : (s.writeX st k r v).cycle = s.cycle := rfl
@[simp] theorem State.writeX_mat (s : State) (st : Fin 4) (k : StreamId) (r : Reg) (v : W64) : (s.writeX st k r v).mat = s.mat := rfl
@[simp] theorem State.writeX_coef (s : State) (st : Fin 4) (k : StreamId) (r : Reg) (v : W64) : (s.writeX st k r v).coef = s.coef := rfl
@[simp] theorem State.writeX_coefFor (s : State) (st : Fin 4) (k : StreamId) (r : Reg) (v : W64) : (s.writeX st k r v).coefFor = s.coefFor := rfl
@[simp] theorem State.writeX_pwrlim (s : State) (st : Fin 4) (k : StreamId) (r : Reg) (v : W64) : (s.writeX st k r v).pwrlim = s.pwrlim := rfl
@[simp] theorem State.writeX_seed (s : State) (st : Fin 4) (k : StreamId) (r : Reg) (v : W64) : (s.writeX st k r v).seed = s.seed := rfl
@[simp] theorem State.writeX_channels (s : State) (st : Fin 4) (k : StreamId) (r : Reg) (v : W64) : (s.writeX st k r v).channels = s.channels := rfl
@[simp] theorem State.writeX_copyQ (s : State) (st : Fin 4) (k : StreamId) (r : Reg) (v : W64) : (s.writeX st k r v).copyQ = s.copyQ := rfl
@[simp] theorem State.writeX_platSlots (s : State) (st : Fin 4) (k : StreamId) (r : Reg) (v : W64) : (s.writeX st k r v).platSlots = s.platSlots := rfl
@[simp] theorem State.writeX_platQ (s : State) (st : Fin 4) (k : StreamId) (r : Reg) (v : W64) : (s.writeX st k r v).platQ = s.platQ := rfl
@[simp] theorem State.writeX_wcb (s : State) (st : Fin 4) (k : StreamId) (r : Reg) (v : W64) : (s.writeX st k r v).wcb = s.wcb := rfl
@[simp] theorem State.writeX_held (s : State) (st : Fin 4) (k : StreamId) (r : Reg) (v : W64) : (s.writeX st k r v).held = s.held := rfl
@[simp] theorem State.writeX_deferred (s : State) (st : Fin 4) (k : StreamId) (r : Reg) (v : W64) : (s.writeX st k r v).deferred = s.deferred := rfl
@[simp] theorem State.writeX_seals (s : State) (st : Fin 4) (k : StreamId) (r : Reg) (v : W64) : (s.writeX st k r v).seals = s.seals := rfl
@[simp] theorem State.writeX_teams (s : State) (st : Fin 4) (k : StreamId) (r : Reg) (v : W64) : (s.writeX st k r v).teams = s.teams := rfl
@[simp] theorem State.writeX_parked (s : State) (st : Fin 4) (k : StreamId) (r : Reg) (v : W64) : (s.writeX st k r v).parked = s.parked := rfl
@[simp] theorem State.writeX_savedMat (s : State) (st : Fin 4) (k : StreamId) (r : Reg) (v : W64) : (s.writeX st k r v).savedMat = s.savedMat := rfl
@[simp] theorem State.writeX_savedScr (s : State) (st : Fin 4) (k : StreamId) (r : Reg) (v : W64) : (s.writeX st k r v).savedScr = s.savedScr := rfl
@[simp] theorem State.writeX_savedCoef (s : State) (st : Fin 4) (k : StreamId) (r : Reg) (v : W64) : (s.writeX st k r v).savedCoef = s.savedCoef := rfl
@[simp] theorem State.writeX_lastSpace (s : State) (st : Fin 4) (k : StreamId) (r : Reg) (v : W64) : (s.writeX st k r v).lastSpace = s.lastSpace := rfl
@[simp] theorem State.writeX_posted (s : State) (st : Fin 4) (k : StreamId) (r : Reg) (v : W64) : (s.writeX st k r v).posted = s.posted := rfl
@[simp] theorem State.writeX_mem (s : State) (st : Fin 4) (k : StreamId) (r : Reg) (v : W64) : (s.writeX st k r v).mem = s.mem := rfl
@[simp] theorem State.writeX_keyTag (s : State) (st : Fin 4) (k : StreamId) (r : Reg) (v : W64) : (s.writeX st k r v).keyTag = s.keyTag := rfl
@[simp] theorem State.writeX_poison (s : State) (st : Fin 4) (k : StreamId) (r : Reg) (v : W64) : (s.writeX st k r v).poison = s.poison := rfl
@[simp] theorem State.writeX_spaces (s : State) (st : Fin 4) (k : StreamId) (r : Reg) (v : W64) : (s.writeX st k r v).spaces = s.spaces := rfl
@[simp] theorem State.writeX_gens (s : State) (st : Fin 4) (k : StreamId) (r : Reg) (v : W64) : (s.writeX st k r v).gens = s.gens := rfl
@[simp] theorem State.writeX_keys (s : State) (st : Fin 4) (k : StreamId) (r : Reg) (v : W64) : (s.writeX st k r v).keys = s.keys := rfl
@[simp] theorem State.writeX_windows (s : State) (st : Fin 4) (k : StreamId) (r : Reg) (v : W64) : (s.writeX st k r v).windows = s.windows := rfl
@[simp] theorem State.writeX_readiness (s : State) (st : Fin 4) (k : StreamId) (r : Reg) (v : W64) : (s.writeX st k r v).readiness = s.readiness := rfl
@[simp] theorem State.writeX_stks (s : State) (st : Fin 4) (k : StreamId) (r : Reg) (v : W64) : (s.writeX st k r v).stks = s.stks := rfl
@[simp] theorem State.writeX_sessions (s : State) (st : Fin 4) (k : StreamId) (r : Reg) (v : W64) : (s.writeX st k r v).sessions = s.sessions := rfl
@[simp] theorem State.writeX_endpoints (s : State) (st : Fin 4) (k : StreamId) (r : Reg) (v : W64) : (s.writeX st k r v).endpoints = s.endpoints := rfl
@[simp] theorem State.writeX_gathered (s : State) (st : Fin 4) (k : StreamId) (r : Reg) (v : W64) : (s.writeX st k r v).gathered = s.gathered := rfl
@[simp] theorem State.writeX_sent (s : State) (st : Fin 4) (k : StreamId) (r : Reg) (v : W64) : (s.writeX st k r v).sent = s.sent := rfl
@[simp] theorem State.writeX_dropped (s : State) (st : Fin 4) (k : StreamId) (r : Reg) (v : W64) : (s.writeX st k r v).dropped = s.dropped := rfl
@[simp] theorem State.writeX_outbox (s : State) (st : Fin 4) (k : StreamId) (r : Reg) (v : W64) : (s.writeX st k r v).outbox = s.outbox := rfl
@[simp] theorem State.writeX_uudDropped (s : State) (st : Fin 4) (k : StreamId) (r : Reg) (v : W64) : (s.writeX st k r v).uudDropped = s.uudDropped := rfl
@[simp] theorem State.writeX_launches (s : State) (st : Fin 4) (k : StreamId) (r : Reg) (v : W64) : (s.writeX st k r v).launches = s.launches := rfl
@[simp] theorem State.writeX_queue (s : State) (st : Fin 4) (k : StreamId) (r : Reg) (v : W64) : (s.writeX st k r v).queue = s.queue := rfl
@[simp] theorem State.writeX_nextId (s : State) (st : Fin 4) (k : StreamId) (r : Reg) (v : W64) : (s.writeX st k r v).nextId = s.nextId := rfl
@[simp] theorem State.writeX_quantum (s : State) (st : Fin 4) (k : StreamId) (r : Reg) (v : W64) : (s.writeX st k r v).quantum = s.quantum := rfl
@[simp] theorem State.writeX_supRecords (s : State) (st : Fin 4) (k : StreamId) (r : Reg) (v : W64) : (s.writeX st k r v).supRecords = s.supRecords := rfl
@[simp] theorem State.writeX_supTraps (s : State) (st : Fin 4) (k : StreamId) (r : Reg) (v : W64) : (s.writeX st k r v).supTraps = s.supTraps := rfl
@[simp] theorem State.writeX_conns (s : State) (st : Fin 4) (k : StreamId) (r : Reg) (v : W64) : (s.writeX st k r v).conns = s.conns := rfl
@[simp] theorem State.writeX_rcpQ (s : State) (st : Fin 4) (k : StreamId) (r : Reg) (v : W64) : (s.writeX st k r v).rcpQ = s.rcpQ := rfl
@[simp] theorem State.writeX_firmware (s : State) (st : Fin 4) (k : StreamId) (r : Reg) (v : W64) : (s.writeX st k r v).firmware = s.firmware := rfl
@[simp] theorem State.writeX_incoming (s : State) (st : Fin 4) (k : StreamId) (r : Reg) (v : W64) : (s.writeX st k r v).incoming = s.incoming := rfl
@[simp] theorem State.writeX_staged (s : State) (st : Fin 4) (k : StreamId) (r : Reg) (v : W64) : (s.writeX st k r v).staged = s.staged := rfl
@[simp] theorem State.writeX_editLog (s : State) (st : Fin 4) (k : StreamId) (r : Reg) (v : W64) : (s.writeX st k r v).editLog = s.editLog := rfl
@[simp] theorem State.writeX_measured (s : State) (st : Fin 4) (k : StreamId) (r : Reg) (v : W64) : (s.writeX st k r v).measured = s.measured := rfl
@[simp] theorem State.writeX_itemRev (s : State) (st : Fin 4) (k : StreamId) (r : Reg) (v : W64) : (s.writeX st k r v).itemRev = s.itemRev := rfl

@[simp] theorem State.goto_core (s : State) (st : Fin 4) (k : StreamId) (pc : W64) : (s.goto st k pc).core = s.core := rfl
@[simp] theorem State.goto_others (s : State) (st : Fin 4) (k : StreamId) (pc : W64) : (s.goto st k pc).others = s.others := rfl
@[simp] theorem State.goto_agenda (s : State) (st : Fin 4) (k : StreamId) (pc : W64) : (s.goto st k pc).agenda = s.agenda := rfl
@[simp] theorem State.goto_cur (s : State) (st : Fin 4) (k : StreamId) (pc : W64) : (s.goto st k pc).cur = s.cur := rfl
@[simp] theorem State.goto_tick (s : State) (st : Fin 4) (k : StreamId) (pc : W64) : (s.goto st k pc).tick = s.tick := rfl
@[simp] theorem State.goto_cycle (s : State) (st : Fin 4) (k : StreamId) (pc : W64) : (s.goto st k pc).cycle = s.cycle := rfl
@[simp] theorem State.goto_mat (s : State) (st : Fin 4) (k : StreamId) (pc : W64) : (s.goto st k pc).mat = s.mat := rfl
@[simp] theorem State.goto_coef (s : State) (st : Fin 4) (k : StreamId) (pc : W64) : (s.goto st k pc).coef = s.coef := rfl
@[simp] theorem State.goto_coefFor (s : State) (st : Fin 4) (k : StreamId) (pc : W64) : (s.goto st k pc).coefFor = s.coefFor := rfl
@[simp] theorem State.goto_pwrlim (s : State) (st : Fin 4) (k : StreamId) (pc : W64) : (s.goto st k pc).pwrlim = s.pwrlim := rfl
@[simp] theorem State.goto_seed (s : State) (st : Fin 4) (k : StreamId) (pc : W64) : (s.goto st k pc).seed = s.seed := rfl
@[simp] theorem State.goto_channels (s : State) (st : Fin 4) (k : StreamId) (pc : W64) : (s.goto st k pc).channels = s.channels := rfl
@[simp] theorem State.goto_copyQ (s : State) (st : Fin 4) (k : StreamId) (pc : W64) : (s.goto st k pc).copyQ = s.copyQ := rfl
@[simp] theorem State.goto_platSlots (s : State) (st : Fin 4) (k : StreamId) (pc : W64) : (s.goto st k pc).platSlots = s.platSlots := rfl
@[simp] theorem State.goto_platQ (s : State) (st : Fin 4) (k : StreamId) (pc : W64) : (s.goto st k pc).platQ = s.platQ := rfl
@[simp] theorem State.goto_wcb (s : State) (st : Fin 4) (k : StreamId) (pc : W64) : (s.goto st k pc).wcb = s.wcb := rfl
@[simp] theorem State.goto_held (s : State) (st : Fin 4) (k : StreamId) (pc : W64) : (s.goto st k pc).held = s.held := rfl
@[simp] theorem State.goto_deferred (s : State) (st : Fin 4) (k : StreamId) (pc : W64) : (s.goto st k pc).deferred = s.deferred := rfl
@[simp] theorem State.goto_seals (s : State) (st : Fin 4) (k : StreamId) (pc : W64) : (s.goto st k pc).seals = s.seals := rfl
@[simp] theorem State.goto_teams (s : State) (st : Fin 4) (k : StreamId) (pc : W64) : (s.goto st k pc).teams = s.teams := rfl
@[simp] theorem State.goto_parked (s : State) (st : Fin 4) (k : StreamId) (pc : W64) : (s.goto st k pc).parked = s.parked := rfl
@[simp] theorem State.goto_savedMat (s : State) (st : Fin 4) (k : StreamId) (pc : W64) : (s.goto st k pc).savedMat = s.savedMat := rfl
@[simp] theorem State.goto_savedScr (s : State) (st : Fin 4) (k : StreamId) (pc : W64) : (s.goto st k pc).savedScr = s.savedScr := rfl
@[simp] theorem State.goto_savedCoef (s : State) (st : Fin 4) (k : StreamId) (pc : W64) : (s.goto st k pc).savedCoef = s.savedCoef := rfl
@[simp] theorem State.goto_lastSpace (s : State) (st : Fin 4) (k : StreamId) (pc : W64) : (s.goto st k pc).lastSpace = s.lastSpace := rfl
@[simp] theorem State.goto_posted (s : State) (st : Fin 4) (k : StreamId) (pc : W64) : (s.goto st k pc).posted = s.posted := rfl
@[simp] theorem State.goto_mem (s : State) (st : Fin 4) (k : StreamId) (pc : W64) : (s.goto st k pc).mem = s.mem := rfl
@[simp] theorem State.goto_keyTag (s : State) (st : Fin 4) (k : StreamId) (pc : W64) : (s.goto st k pc).keyTag = s.keyTag := rfl
@[simp] theorem State.goto_poison (s : State) (st : Fin 4) (k : StreamId) (pc : W64) : (s.goto st k pc).poison = s.poison := rfl
@[simp] theorem State.goto_spaces (s : State) (st : Fin 4) (k : StreamId) (pc : W64) : (s.goto st k pc).spaces = s.spaces := rfl
@[simp] theorem State.goto_gens (s : State) (st : Fin 4) (k : StreamId) (pc : W64) : (s.goto st k pc).gens = s.gens := rfl
@[simp] theorem State.goto_keys (s : State) (st : Fin 4) (k : StreamId) (pc : W64) : (s.goto st k pc).keys = s.keys := rfl
@[simp] theorem State.goto_windows (s : State) (st : Fin 4) (k : StreamId) (pc : W64) : (s.goto st k pc).windows = s.windows := rfl
@[simp] theorem State.goto_readiness (s : State) (st : Fin 4) (k : StreamId) (pc : W64) : (s.goto st k pc).readiness = s.readiness := rfl
@[simp] theorem State.goto_stks (s : State) (st : Fin 4) (k : StreamId) (pc : W64) : (s.goto st k pc).stks = s.stks := rfl
@[simp] theorem State.goto_sessions (s : State) (st : Fin 4) (k : StreamId) (pc : W64) : (s.goto st k pc).sessions = s.sessions := rfl
@[simp] theorem State.goto_endpoints (s : State) (st : Fin 4) (k : StreamId) (pc : W64) : (s.goto st k pc).endpoints = s.endpoints := rfl
@[simp] theorem State.goto_gathered (s : State) (st : Fin 4) (k : StreamId) (pc : W64) : (s.goto st k pc).gathered = s.gathered := rfl
@[simp] theorem State.goto_sent (s : State) (st : Fin 4) (k : StreamId) (pc : W64) : (s.goto st k pc).sent = s.sent := rfl
@[simp] theorem State.goto_dropped (s : State) (st : Fin 4) (k : StreamId) (pc : W64) : (s.goto st k pc).dropped = s.dropped := rfl
@[simp] theorem State.goto_outbox (s : State) (st : Fin 4) (k : StreamId) (pc : W64) : (s.goto st k pc).outbox = s.outbox := rfl
@[simp] theorem State.goto_uudDropped (s : State) (st : Fin 4) (k : StreamId) (pc : W64) : (s.goto st k pc).uudDropped = s.uudDropped := rfl
@[simp] theorem State.goto_launches (s : State) (st : Fin 4) (k : StreamId) (pc : W64) : (s.goto st k pc).launches = s.launches := rfl
@[simp] theorem State.goto_queue (s : State) (st : Fin 4) (k : StreamId) (pc : W64) : (s.goto st k pc).queue = s.queue := rfl
@[simp] theorem State.goto_nextId (s : State) (st : Fin 4) (k : StreamId) (pc : W64) : (s.goto st k pc).nextId = s.nextId := rfl
@[simp] theorem State.goto_quantum (s : State) (st : Fin 4) (k : StreamId) (pc : W64) : (s.goto st k pc).quantum = s.quantum := rfl
@[simp] theorem State.goto_supRecords (s : State) (st : Fin 4) (k : StreamId) (pc : W64) : (s.goto st k pc).supRecords = s.supRecords := rfl
@[simp] theorem State.goto_supTraps (s : State) (st : Fin 4) (k : StreamId) (pc : W64) : (s.goto st k pc).supTraps = s.supTraps := rfl
@[simp] theorem State.goto_conns (s : State) (st : Fin 4) (k : StreamId) (pc : W64) : (s.goto st k pc).conns = s.conns := rfl
@[simp] theorem State.goto_rcpQ (s : State) (st : Fin 4) (k : StreamId) (pc : W64) : (s.goto st k pc).rcpQ = s.rcpQ := rfl
@[simp] theorem State.goto_firmware (s : State) (st : Fin 4) (k : StreamId) (pc : W64) : (s.goto st k pc).firmware = s.firmware := rfl
@[simp] theorem State.goto_incoming (s : State) (st : Fin 4) (k : StreamId) (pc : W64) : (s.goto st k pc).incoming = s.incoming := rfl
@[simp] theorem State.goto_staged (s : State) (st : Fin 4) (k : StreamId) (pc : W64) : (s.goto st k pc).staged = s.staged := rfl
@[simp] theorem State.goto_editLog (s : State) (st : Fin 4) (k : StreamId) (pc : W64) : (s.goto st k pc).editLog = s.editLog := rfl
@[simp] theorem State.goto_measured (s : State) (st : Fin 4) (k : StreamId) (pc : W64) : (s.goto st k pc).measured = s.measured := rfl
@[simp] theorem State.goto_itemRev (s : State) (st : Fin 4) (k : StreamId) (pc : W64) : (s.goto st k pc).itemRev = s.itemRev := rfl

@[simp] theorem State.done_core (s : State) (st : Fin 4) (k : StreamId) (r : Reg) (v : W64) : (s.done st k r v).core = s.core := rfl
@[simp] theorem State.done_others (s : State) (st : Fin 4) (k : StreamId) (r : Reg) (v : W64) : (s.done st k r v).others = s.others := rfl
@[simp] theorem State.done_agenda (s : State) (st : Fin 4) (k : StreamId) (r : Reg) (v : W64) : (s.done st k r v).agenda = s.agenda := rfl
@[simp] theorem State.done_cur (s : State) (st : Fin 4) (k : StreamId) (r : Reg) (v : W64) : (s.done st k r v).cur = s.cur := rfl
@[simp] theorem State.done_tick (s : State) (st : Fin 4) (k : StreamId) (r : Reg) (v : W64) : (s.done st k r v).tick = s.tick := rfl
@[simp] theorem State.done_cycle (s : State) (st : Fin 4) (k : StreamId) (r : Reg) (v : W64) : (s.done st k r v).cycle = s.cycle := rfl
@[simp] theorem State.done_mat (s : State) (st : Fin 4) (k : StreamId) (r : Reg) (v : W64) : (s.done st k r v).mat = s.mat := rfl
@[simp] theorem State.done_coef (s : State) (st : Fin 4) (k : StreamId) (r : Reg) (v : W64) : (s.done st k r v).coef = s.coef := rfl
@[simp] theorem State.done_coefFor (s : State) (st : Fin 4) (k : StreamId) (r : Reg) (v : W64) : (s.done st k r v).coefFor = s.coefFor := rfl
@[simp] theorem State.done_pwrlim (s : State) (st : Fin 4) (k : StreamId) (r : Reg) (v : W64) : (s.done st k r v).pwrlim = s.pwrlim := rfl
@[simp] theorem State.done_seed (s : State) (st : Fin 4) (k : StreamId) (r : Reg) (v : W64) : (s.done st k r v).seed = s.seed := rfl
@[simp] theorem State.done_channels (s : State) (st : Fin 4) (k : StreamId) (r : Reg) (v : W64) : (s.done st k r v).channels = s.channels := rfl
@[simp] theorem State.done_copyQ (s : State) (st : Fin 4) (k : StreamId) (r : Reg) (v : W64) : (s.done st k r v).copyQ = s.copyQ := rfl
@[simp] theorem State.done_platSlots (s : State) (st : Fin 4) (k : StreamId) (r : Reg) (v : W64) : (s.done st k r v).platSlots = s.platSlots := rfl
@[simp] theorem State.done_platQ (s : State) (st : Fin 4) (k : StreamId) (r : Reg) (v : W64) : (s.done st k r v).platQ = s.platQ := rfl
@[simp] theorem State.done_wcb (s : State) (st : Fin 4) (k : StreamId) (r : Reg) (v : W64) : (s.done st k r v).wcb = s.wcb := rfl
@[simp] theorem State.done_held (s : State) (st : Fin 4) (k : StreamId) (r : Reg) (v : W64) : (s.done st k r v).held = s.held := rfl
@[simp] theorem State.done_deferred (s : State) (st : Fin 4) (k : StreamId) (r : Reg) (v : W64) : (s.done st k r v).deferred = s.deferred := rfl
@[simp] theorem State.done_seals (s : State) (st : Fin 4) (k : StreamId) (r : Reg) (v : W64) : (s.done st k r v).seals = s.seals := rfl
@[simp] theorem State.done_teams (s : State) (st : Fin 4) (k : StreamId) (r : Reg) (v : W64) : (s.done st k r v).teams = s.teams := rfl
@[simp] theorem State.done_parked (s : State) (st : Fin 4) (k : StreamId) (r : Reg) (v : W64) : (s.done st k r v).parked = s.parked := rfl
@[simp] theorem State.done_savedMat (s : State) (st : Fin 4) (k : StreamId) (r : Reg) (v : W64) : (s.done st k r v).savedMat = s.savedMat := rfl
@[simp] theorem State.done_savedScr (s : State) (st : Fin 4) (k : StreamId) (r : Reg) (v : W64) : (s.done st k r v).savedScr = s.savedScr := rfl
@[simp] theorem State.done_savedCoef (s : State) (st : Fin 4) (k : StreamId) (r : Reg) (v : W64) : (s.done st k r v).savedCoef = s.savedCoef := rfl
@[simp] theorem State.done_lastSpace (s : State) (st : Fin 4) (k : StreamId) (r : Reg) (v : W64) : (s.done st k r v).lastSpace = s.lastSpace := rfl
@[simp] theorem State.done_posted (s : State) (st : Fin 4) (k : StreamId) (r : Reg) (v : W64) : (s.done st k r v).posted = s.posted := rfl
@[simp] theorem State.done_mem (s : State) (st : Fin 4) (k : StreamId) (r : Reg) (v : W64) : (s.done st k r v).mem = s.mem := rfl
@[simp] theorem State.done_keyTag (s : State) (st : Fin 4) (k : StreamId) (r : Reg) (v : W64) : (s.done st k r v).keyTag = s.keyTag := rfl
@[simp] theorem State.done_poison (s : State) (st : Fin 4) (k : StreamId) (r : Reg) (v : W64) : (s.done st k r v).poison = s.poison := rfl
@[simp] theorem State.done_spaces (s : State) (st : Fin 4) (k : StreamId) (r : Reg) (v : W64) : (s.done st k r v).spaces = s.spaces := rfl
@[simp] theorem State.done_gens (s : State) (st : Fin 4) (k : StreamId) (r : Reg) (v : W64) : (s.done st k r v).gens = s.gens := rfl
@[simp] theorem State.done_keys (s : State) (st : Fin 4) (k : StreamId) (r : Reg) (v : W64) : (s.done st k r v).keys = s.keys := rfl
@[simp] theorem State.done_windows (s : State) (st : Fin 4) (k : StreamId) (r : Reg) (v : W64) : (s.done st k r v).windows = s.windows := rfl
@[simp] theorem State.done_readiness (s : State) (st : Fin 4) (k : StreamId) (r : Reg) (v : W64) : (s.done st k r v).readiness = s.readiness := rfl
@[simp] theorem State.done_stks (s : State) (st : Fin 4) (k : StreamId) (r : Reg) (v : W64) : (s.done st k r v).stks = s.stks := rfl
@[simp] theorem State.done_sessions (s : State) (st : Fin 4) (k : StreamId) (r : Reg) (v : W64) : (s.done st k r v).sessions = s.sessions := rfl
@[simp] theorem State.done_endpoints (s : State) (st : Fin 4) (k : StreamId) (r : Reg) (v : W64) : (s.done st k r v).endpoints = s.endpoints := rfl
@[simp] theorem State.done_gathered (s : State) (st : Fin 4) (k : StreamId) (r : Reg) (v : W64) : (s.done st k r v).gathered = s.gathered := rfl
@[simp] theorem State.done_sent (s : State) (st : Fin 4) (k : StreamId) (r : Reg) (v : W64) : (s.done st k r v).sent = s.sent := rfl
@[simp] theorem State.done_dropped (s : State) (st : Fin 4) (k : StreamId) (r : Reg) (v : W64) : (s.done st k r v).dropped = s.dropped := rfl
@[simp] theorem State.done_outbox (s : State) (st : Fin 4) (k : StreamId) (r : Reg) (v : W64) : (s.done st k r v).outbox = s.outbox := rfl
@[simp] theorem State.done_uudDropped (s : State) (st : Fin 4) (k : StreamId) (r : Reg) (v : W64) : (s.done st k r v).uudDropped = s.uudDropped := rfl
@[simp] theorem State.done_launches (s : State) (st : Fin 4) (k : StreamId) (r : Reg) (v : W64) : (s.done st k r v).launches = s.launches := rfl
@[simp] theorem State.done_queue (s : State) (st : Fin 4) (k : StreamId) (r : Reg) (v : W64) : (s.done st k r v).queue = s.queue := rfl
@[simp] theorem State.done_nextId (s : State) (st : Fin 4) (k : StreamId) (r : Reg) (v : W64) : (s.done st k r v).nextId = s.nextId := rfl
@[simp] theorem State.done_quantum (s : State) (st : Fin 4) (k : StreamId) (r : Reg) (v : W64) : (s.done st k r v).quantum = s.quantum := rfl
@[simp] theorem State.done_supRecords (s : State) (st : Fin 4) (k : StreamId) (r : Reg) (v : W64) : (s.done st k r v).supRecords = s.supRecords := rfl
@[simp] theorem State.done_supTraps (s : State) (st : Fin 4) (k : StreamId) (r : Reg) (v : W64) : (s.done st k r v).supTraps = s.supTraps := rfl
@[simp] theorem State.done_conns (s : State) (st : Fin 4) (k : StreamId) (r : Reg) (v : W64) : (s.done st k r v).conns = s.conns := rfl
@[simp] theorem State.done_rcpQ (s : State) (st : Fin 4) (k : StreamId) (r : Reg) (v : W64) : (s.done st k r v).rcpQ = s.rcpQ := rfl
@[simp] theorem State.done_firmware (s : State) (st : Fin 4) (k : StreamId) (r : Reg) (v : W64) : (s.done st k r v).firmware = s.firmware := rfl
@[simp] theorem State.done_incoming (s : State) (st : Fin 4) (k : StreamId) (r : Reg) (v : W64) : (s.done st k r v).incoming = s.incoming := rfl
@[simp] theorem State.done_staged (s : State) (st : Fin 4) (k : StreamId) (r : Reg) (v : W64) : (s.done st k r v).staged = s.staged := rfl
@[simp] theorem State.done_editLog (s : State) (st : Fin 4) (k : StreamId) (r : Reg) (v : W64) : (s.done st k r v).editLog = s.editLog := rfl
@[simp] theorem State.done_measured (s : State) (st : Fin 4) (k : StreamId) (r : Reg) (v : W64) : (s.done st k r v).measured = s.measured := rfl
@[simp] theorem State.done_itemRev (s : State) (st : Fin 4) (k : StreamId) (r : Reg) (v : W64) : (s.done st k r v).itemRev = s.itemRev := rfl

@[simp] theorem State.wait_core (s : State) (st : Fin 4) (k : StreamId) (w : Status) : (s.wait st k w).core = s.core := rfl
@[simp] theorem State.wait_others (s : State) (st : Fin 4) (k : StreamId) (w : Status) : (s.wait st k w).others = s.others := rfl
@[simp] theorem State.wait_agenda (s : State) (st : Fin 4) (k : StreamId) (w : Status) : (s.wait st k w).agenda = s.agenda := rfl
@[simp] theorem State.wait_cur (s : State) (st : Fin 4) (k : StreamId) (w : Status) : (s.wait st k w).cur = s.cur := rfl
@[simp] theorem State.wait_tick (s : State) (st : Fin 4) (k : StreamId) (w : Status) : (s.wait st k w).tick = s.tick := rfl
@[simp] theorem State.wait_cycle (s : State) (st : Fin 4) (k : StreamId) (w : Status) : (s.wait st k w).cycle = s.cycle := rfl
@[simp] theorem State.wait_mat (s : State) (st : Fin 4) (k : StreamId) (w : Status) : (s.wait st k w).mat = s.mat := rfl
@[simp] theorem State.wait_coef (s : State) (st : Fin 4) (k : StreamId) (w : Status) : (s.wait st k w).coef = s.coef := rfl
@[simp] theorem State.wait_coefFor (s : State) (st : Fin 4) (k : StreamId) (w : Status) : (s.wait st k w).coefFor = s.coefFor := rfl
@[simp] theorem State.wait_pwrlim (s : State) (st : Fin 4) (k : StreamId) (w : Status) : (s.wait st k w).pwrlim = s.pwrlim := rfl
@[simp] theorem State.wait_seed (s : State) (st : Fin 4) (k : StreamId) (w : Status) : (s.wait st k w).seed = s.seed := rfl
@[simp] theorem State.wait_channels (s : State) (st : Fin 4) (k : StreamId) (w : Status) : (s.wait st k w).channels = s.channels := rfl
@[simp] theorem State.wait_copyQ (s : State) (st : Fin 4) (k : StreamId) (w : Status) : (s.wait st k w).copyQ = s.copyQ := rfl
@[simp] theorem State.wait_platSlots (s : State) (st : Fin 4) (k : StreamId) (w : Status) : (s.wait st k w).platSlots = s.platSlots := rfl
@[simp] theorem State.wait_platQ (s : State) (st : Fin 4) (k : StreamId) (w : Status) : (s.wait st k w).platQ = s.platQ := rfl
@[simp] theorem State.wait_wcb (s : State) (st : Fin 4) (k : StreamId) (w : Status) : (s.wait st k w).wcb = s.wcb := rfl
@[simp] theorem State.wait_held (s : State) (st : Fin 4) (k : StreamId) (w : Status) : (s.wait st k w).held = s.held := rfl
@[simp] theorem State.wait_deferred (s : State) (st : Fin 4) (k : StreamId) (w : Status) : (s.wait st k w).deferred = s.deferred := rfl
@[simp] theorem State.wait_seals (s : State) (st : Fin 4) (k : StreamId) (w : Status) : (s.wait st k w).seals = s.seals := rfl
@[simp] theorem State.wait_teams (s : State) (st : Fin 4) (k : StreamId) (w : Status) : (s.wait st k w).teams = s.teams := rfl
@[simp] theorem State.wait_parked (s : State) (st : Fin 4) (k : StreamId) (w : Status) : (s.wait st k w).parked = s.parked := rfl
@[simp] theorem State.wait_savedMat (s : State) (st : Fin 4) (k : StreamId) (w : Status) : (s.wait st k w).savedMat = s.savedMat := rfl
@[simp] theorem State.wait_savedScr (s : State) (st : Fin 4) (k : StreamId) (w : Status) : (s.wait st k w).savedScr = s.savedScr := rfl
@[simp] theorem State.wait_savedCoef (s : State) (st : Fin 4) (k : StreamId) (w : Status) : (s.wait st k w).savedCoef = s.savedCoef := rfl
@[simp] theorem State.wait_lastSpace (s : State) (st : Fin 4) (k : StreamId) (w : Status) : (s.wait st k w).lastSpace = s.lastSpace := rfl
@[simp] theorem State.wait_posted (s : State) (st : Fin 4) (k : StreamId) (w : Status) : (s.wait st k w).posted = s.posted := rfl
@[simp] theorem State.wait_mem (s : State) (st : Fin 4) (k : StreamId) (w : Status) : (s.wait st k w).mem = s.mem := rfl
@[simp] theorem State.wait_keyTag (s : State) (st : Fin 4) (k : StreamId) (w : Status) : (s.wait st k w).keyTag = s.keyTag := rfl
@[simp] theorem State.wait_poison (s : State) (st : Fin 4) (k : StreamId) (w : Status) : (s.wait st k w).poison = s.poison := rfl
@[simp] theorem State.wait_spaces (s : State) (st : Fin 4) (k : StreamId) (w : Status) : (s.wait st k w).spaces = s.spaces := rfl
@[simp] theorem State.wait_gens (s : State) (st : Fin 4) (k : StreamId) (w : Status) : (s.wait st k w).gens = s.gens := rfl
@[simp] theorem State.wait_keys (s : State) (st : Fin 4) (k : StreamId) (w : Status) : (s.wait st k w).keys = s.keys := rfl
@[simp] theorem State.wait_windows (s : State) (st : Fin 4) (k : StreamId) (w : Status) : (s.wait st k w).windows = s.windows := rfl
@[simp] theorem State.wait_readiness (s : State) (st : Fin 4) (k : StreamId) (w : Status) : (s.wait st k w).readiness = s.readiness := rfl
@[simp] theorem State.wait_stks (s : State) (st : Fin 4) (k : StreamId) (w : Status) : (s.wait st k w).stks = s.stks := rfl
@[simp] theorem State.wait_sessions (s : State) (st : Fin 4) (k : StreamId) (w : Status) : (s.wait st k w).sessions = s.sessions := rfl
@[simp] theorem State.wait_endpoints (s : State) (st : Fin 4) (k : StreamId) (w : Status) : (s.wait st k w).endpoints = s.endpoints := rfl
@[simp] theorem State.wait_gathered (s : State) (st : Fin 4) (k : StreamId) (w : Status) : (s.wait st k w).gathered = s.gathered := rfl
@[simp] theorem State.wait_sent (s : State) (st : Fin 4) (k : StreamId) (w : Status) : (s.wait st k w).sent = s.sent := rfl
@[simp] theorem State.wait_dropped (s : State) (st : Fin 4) (k : StreamId) (w : Status) : (s.wait st k w).dropped = s.dropped := rfl
@[simp] theorem State.wait_outbox (s : State) (st : Fin 4) (k : StreamId) (w : Status) : (s.wait st k w).outbox = s.outbox := rfl
@[simp] theorem State.wait_uudDropped (s : State) (st : Fin 4) (k : StreamId) (w : Status) : (s.wait st k w).uudDropped = s.uudDropped := rfl
@[simp] theorem State.wait_launches (s : State) (st : Fin 4) (k : StreamId) (w : Status) : (s.wait st k w).launches = s.launches := rfl
@[simp] theorem State.wait_queue (s : State) (st : Fin 4) (k : StreamId) (w : Status) : (s.wait st k w).queue = s.queue := rfl
@[simp] theorem State.wait_nextId (s : State) (st : Fin 4) (k : StreamId) (w : Status) : (s.wait st k w).nextId = s.nextId := rfl
@[simp] theorem State.wait_quantum (s : State) (st : Fin 4) (k : StreamId) (w : Status) : (s.wait st k w).quantum = s.quantum := rfl
@[simp] theorem State.wait_supRecords (s : State) (st : Fin 4) (k : StreamId) (w : Status) : (s.wait st k w).supRecords = s.supRecords := rfl
@[simp] theorem State.wait_supTraps (s : State) (st : Fin 4) (k : StreamId) (w : Status) : (s.wait st k w).supTraps = s.supTraps := rfl
@[simp] theorem State.wait_conns (s : State) (st : Fin 4) (k : StreamId) (w : Status) : (s.wait st k w).conns = s.conns := rfl
@[simp] theorem State.wait_rcpQ (s : State) (st : Fin 4) (k : StreamId) (w : Status) : (s.wait st k w).rcpQ = s.rcpQ := rfl
@[simp] theorem State.wait_firmware (s : State) (st : Fin 4) (k : StreamId) (w : Status) : (s.wait st k w).firmware = s.firmware := rfl
@[simp] theorem State.wait_incoming (s : State) (st : Fin 4) (k : StreamId) (w : Status) : (s.wait st k w).incoming = s.incoming := rfl
@[simp] theorem State.wait_staged (s : State) (st : Fin 4) (k : StreamId) (w : Status) : (s.wait st k w).staged = s.staged := rfl
@[simp] theorem State.wait_editLog (s : State) (st : Fin 4) (k : StreamId) (w : Status) : (s.wait st k w).editLog = s.editLog := rfl
@[simp] theorem State.wait_measured (s : State) (st : Fin 4) (k : StreamId) (w : Status) : (s.wait st k w).measured = s.measured := rfl
@[simp] theorem State.wait_itemRev (s : State) (st : Fin 4) (k : StreamId) (w : Status) : (s.wait st k w).itemRev = s.itemRev := rfl

/-! ### Fields that an update of a launch, a team, a stack or the engine leaves -/

@[simp] theorem State.modLaunch_core (s : State) (id : BitVec 32) (f : Launch → Launch) : (s.modLaunch id f).core = s.core := rfl
@[simp] theorem State.modLaunch_others (s : State) (id : BitVec 32) (f : Launch → Launch) : (s.modLaunch id f).others = s.others := rfl
@[simp] theorem State.modLaunch_agenda (s : State) (id : BitVec 32) (f : Launch → Launch) : (s.modLaunch id f).agenda = s.agenda := rfl
@[simp] theorem State.modLaunch_cur (s : State) (id : BitVec 32) (f : Launch → Launch) : (s.modLaunch id f).cur = s.cur := rfl
@[simp] theorem State.modLaunch_tick (s : State) (id : BitVec 32) (f : Launch → Launch) : (s.modLaunch id f).tick = s.tick := rfl
@[simp] theorem State.modLaunch_cycle (s : State) (id : BitVec 32) (f : Launch → Launch) : (s.modLaunch id f).cycle = s.cycle := rfl
@[simp] theorem State.modLaunch_strands (s : State) (id : BitVec 32) (f : Launch → Launch) : (s.modLaunch id f).strands = s.strands := rfl
@[simp] theorem State.modLaunch_mat (s : State) (id : BitVec 32) (f : Launch → Launch) : (s.modLaunch id f).mat = s.mat := rfl
@[simp] theorem State.modLaunch_coef (s : State) (id : BitVec 32) (f : Launch → Launch) : (s.modLaunch id f).coef = s.coef := rfl
@[simp] theorem State.modLaunch_coefFor (s : State) (id : BitVec 32) (f : Launch → Launch) : (s.modLaunch id f).coefFor = s.coefFor := rfl
@[simp] theorem State.modLaunch_pwrlim (s : State) (id : BitVec 32) (f : Launch → Launch) : (s.modLaunch id f).pwrlim = s.pwrlim := rfl
@[simp] theorem State.modLaunch_seed (s : State) (id : BitVec 32) (f : Launch → Launch) : (s.modLaunch id f).seed = s.seed := rfl
@[simp] theorem State.modLaunch_channels (s : State) (id : BitVec 32) (f : Launch → Launch) : (s.modLaunch id f).channels = s.channels := rfl
@[simp] theorem State.modLaunch_copyQ (s : State) (id : BitVec 32) (f : Launch → Launch) : (s.modLaunch id f).copyQ = s.copyQ := rfl
@[simp] theorem State.modLaunch_platSlots (s : State) (id : BitVec 32) (f : Launch → Launch) : (s.modLaunch id f).platSlots = s.platSlots := rfl
@[simp] theorem State.modLaunch_platQ (s : State) (id : BitVec 32) (f : Launch → Launch) : (s.modLaunch id f).platQ = s.platQ := rfl
@[simp] theorem State.modLaunch_wcb (s : State) (id : BitVec 32) (f : Launch → Launch) : (s.modLaunch id f).wcb = s.wcb := rfl
@[simp] theorem State.modLaunch_held (s : State) (id : BitVec 32) (f : Launch → Launch) : (s.modLaunch id f).held = s.held := rfl
@[simp] theorem State.modLaunch_deferred (s : State) (id : BitVec 32) (f : Launch → Launch) : (s.modLaunch id f).deferred = s.deferred := rfl
@[simp] theorem State.modLaunch_seals (s : State) (id : BitVec 32) (f : Launch → Launch) : (s.modLaunch id f).seals = s.seals := rfl
@[simp] theorem State.modLaunch_teams (s : State) (id : BitVec 32) (f : Launch → Launch) : (s.modLaunch id f).teams = s.teams := rfl
@[simp] theorem State.modLaunch_parked (s : State) (id : BitVec 32) (f : Launch → Launch) : (s.modLaunch id f).parked = s.parked := rfl
@[simp] theorem State.modLaunch_savedMat (s : State) (id : BitVec 32) (f : Launch → Launch) : (s.modLaunch id f).savedMat = s.savedMat := rfl
@[simp] theorem State.modLaunch_savedScr (s : State) (id : BitVec 32) (f : Launch → Launch) : (s.modLaunch id f).savedScr = s.savedScr := rfl
@[simp] theorem State.modLaunch_savedCoef (s : State) (id : BitVec 32) (f : Launch → Launch) : (s.modLaunch id f).savedCoef = s.savedCoef := rfl
@[simp] theorem State.modLaunch_lastSpace (s : State) (id : BitVec 32) (f : Launch → Launch) : (s.modLaunch id f).lastSpace = s.lastSpace := rfl
@[simp] theorem State.modLaunch_posted (s : State) (id : BitVec 32) (f : Launch → Launch) : (s.modLaunch id f).posted = s.posted := rfl
@[simp] theorem State.modLaunch_mem (s : State) (id : BitVec 32) (f : Launch → Launch) : (s.modLaunch id f).mem = s.mem := rfl
@[simp] theorem State.modLaunch_keyTag (s : State) (id : BitVec 32) (f : Launch → Launch) : (s.modLaunch id f).keyTag = s.keyTag := rfl
@[simp] theorem State.modLaunch_poison (s : State) (id : BitVec 32) (f : Launch → Launch) : (s.modLaunch id f).poison = s.poison := rfl
@[simp] theorem State.modLaunch_spaces (s : State) (id : BitVec 32) (f : Launch → Launch) : (s.modLaunch id f).spaces = s.spaces := rfl
@[simp] theorem State.modLaunch_gens (s : State) (id : BitVec 32) (f : Launch → Launch) : (s.modLaunch id f).gens = s.gens := rfl
@[simp] theorem State.modLaunch_keys (s : State) (id : BitVec 32) (f : Launch → Launch) : (s.modLaunch id f).keys = s.keys := rfl
@[simp] theorem State.modLaunch_windows (s : State) (id : BitVec 32) (f : Launch → Launch) : (s.modLaunch id f).windows = s.windows := rfl
@[simp] theorem State.modLaunch_readiness (s : State) (id : BitVec 32) (f : Launch → Launch) : (s.modLaunch id f).readiness = s.readiness := rfl
@[simp] theorem State.modLaunch_stks (s : State) (id : BitVec 32) (f : Launch → Launch) : (s.modLaunch id f).stks = s.stks := rfl
@[simp] theorem State.modLaunch_sessions (s : State) (id : BitVec 32) (f : Launch → Launch) : (s.modLaunch id f).sessions = s.sessions := rfl
@[simp] theorem State.modLaunch_endpoints (s : State) (id : BitVec 32) (f : Launch → Launch) : (s.modLaunch id f).endpoints = s.endpoints := rfl
@[simp] theorem State.modLaunch_gathered (s : State) (id : BitVec 32) (f : Launch → Launch) : (s.modLaunch id f).gathered = s.gathered := rfl
@[simp] theorem State.modLaunch_sent (s : State) (id : BitVec 32) (f : Launch → Launch) : (s.modLaunch id f).sent = s.sent := rfl
@[simp] theorem State.modLaunch_dropped (s : State) (id : BitVec 32) (f : Launch → Launch) : (s.modLaunch id f).dropped = s.dropped := rfl
@[simp] theorem State.modLaunch_outbox (s : State) (id : BitVec 32) (f : Launch → Launch) : (s.modLaunch id f).outbox = s.outbox := rfl
@[simp] theorem State.modLaunch_uudDropped (s : State) (id : BitVec 32) (f : Launch → Launch) : (s.modLaunch id f).uudDropped = s.uudDropped := rfl
@[simp] theorem State.modLaunch_queue (s : State) (id : BitVec 32) (f : Launch → Launch) : (s.modLaunch id f).queue = s.queue := rfl
@[simp] theorem State.modLaunch_nextId (s : State) (id : BitVec 32) (f : Launch → Launch) : (s.modLaunch id f).nextId = s.nextId := rfl
@[simp] theorem State.modLaunch_quantum (s : State) (id : BitVec 32) (f : Launch → Launch) : (s.modLaunch id f).quantum = s.quantum := rfl
@[simp] theorem State.modLaunch_supRecords (s : State) (id : BitVec 32) (f : Launch → Launch) : (s.modLaunch id f).supRecords = s.supRecords := rfl
@[simp] theorem State.modLaunch_supTraps (s : State) (id : BitVec 32) (f : Launch → Launch) : (s.modLaunch id f).supTraps = s.supTraps := rfl
@[simp] theorem State.modLaunch_conns (s : State) (id : BitVec 32) (f : Launch → Launch) : (s.modLaunch id f).conns = s.conns := rfl
@[simp] theorem State.modLaunch_rcpQ (s : State) (id : BitVec 32) (f : Launch → Launch) : (s.modLaunch id f).rcpQ = s.rcpQ := rfl
@[simp] theorem State.modLaunch_firmware (s : State) (id : BitVec 32) (f : Launch → Launch) : (s.modLaunch id f).firmware = s.firmware := rfl
@[simp] theorem State.modLaunch_incoming (s : State) (id : BitVec 32) (f : Launch → Launch) : (s.modLaunch id f).incoming = s.incoming := rfl
@[simp] theorem State.modLaunch_staged (s : State) (id : BitVec 32) (f : Launch → Launch) : (s.modLaunch id f).staged = s.staged := rfl
@[simp] theorem State.modLaunch_editLog (s : State) (id : BitVec 32) (f : Launch → Launch) : (s.modLaunch id f).editLog = s.editLog := rfl
@[simp] theorem State.modLaunch_measured (s : State) (id : BitVec 32) (f : Launch → Launch) : (s.modLaunch id f).measured = s.measured := rfl
@[simp] theorem State.modLaunch_itemRev (s : State) (id : BitVec 32) (f : Launch → Launch) : (s.modLaunch id f).itemRev = s.itemRev := rfl

@[simp] theorem State.modTeam_core (s : State) (k : Task) (f : Team → Team) : (s.modTeam k f).core = s.core := rfl
@[simp] theorem State.modTeam_others (s : State) (k : Task) (f : Team → Team) : (s.modTeam k f).others = s.others := rfl
@[simp] theorem State.modTeam_agenda (s : State) (k : Task) (f : Team → Team) : (s.modTeam k f).agenda = s.agenda := rfl
@[simp] theorem State.modTeam_cur (s : State) (k : Task) (f : Team → Team) : (s.modTeam k f).cur = s.cur := rfl
@[simp] theorem State.modTeam_tick (s : State) (k : Task) (f : Team → Team) : (s.modTeam k f).tick = s.tick := rfl
@[simp] theorem State.modTeam_cycle (s : State) (k : Task) (f : Team → Team) : (s.modTeam k f).cycle = s.cycle := rfl
@[simp] theorem State.modTeam_strands (s : State) (k : Task) (f : Team → Team) : (s.modTeam k f).strands = s.strands := rfl
@[simp] theorem State.modTeam_mat (s : State) (k : Task) (f : Team → Team) : (s.modTeam k f).mat = s.mat := rfl
@[simp] theorem State.modTeam_coef (s : State) (k : Task) (f : Team → Team) : (s.modTeam k f).coef = s.coef := rfl
@[simp] theorem State.modTeam_coefFor (s : State) (k : Task) (f : Team → Team) : (s.modTeam k f).coefFor = s.coefFor := rfl
@[simp] theorem State.modTeam_pwrlim (s : State) (k : Task) (f : Team → Team) : (s.modTeam k f).pwrlim = s.pwrlim := rfl
@[simp] theorem State.modTeam_seed (s : State) (k : Task) (f : Team → Team) : (s.modTeam k f).seed = s.seed := rfl
@[simp] theorem State.modTeam_channels (s : State) (k : Task) (f : Team → Team) : (s.modTeam k f).channels = s.channels := rfl
@[simp] theorem State.modTeam_copyQ (s : State) (k : Task) (f : Team → Team) : (s.modTeam k f).copyQ = s.copyQ := rfl
@[simp] theorem State.modTeam_platSlots (s : State) (k : Task) (f : Team → Team) : (s.modTeam k f).platSlots = s.platSlots := rfl
@[simp] theorem State.modTeam_platQ (s : State) (k : Task) (f : Team → Team) : (s.modTeam k f).platQ = s.platQ := rfl
@[simp] theorem State.modTeam_wcb (s : State) (k : Task) (f : Team → Team) : (s.modTeam k f).wcb = s.wcb := rfl
@[simp] theorem State.modTeam_held (s : State) (k : Task) (f : Team → Team) : (s.modTeam k f).held = s.held := rfl
@[simp] theorem State.modTeam_deferred (s : State) (k : Task) (f : Team → Team) : (s.modTeam k f).deferred = s.deferred := rfl
@[simp] theorem State.modTeam_seals (s : State) (k : Task) (f : Team → Team) : (s.modTeam k f).seals = s.seals := rfl
@[simp] theorem State.modTeam_parked (s : State) (k : Task) (f : Team → Team) : (s.modTeam k f).parked = s.parked := rfl
@[simp] theorem State.modTeam_savedMat (s : State) (k : Task) (f : Team → Team) : (s.modTeam k f).savedMat = s.savedMat := rfl
@[simp] theorem State.modTeam_savedScr (s : State) (k : Task) (f : Team → Team) : (s.modTeam k f).savedScr = s.savedScr := rfl
@[simp] theorem State.modTeam_savedCoef (s : State) (k : Task) (f : Team → Team) : (s.modTeam k f).savedCoef = s.savedCoef := rfl
@[simp] theorem State.modTeam_lastSpace (s : State) (k : Task) (f : Team → Team) : (s.modTeam k f).lastSpace = s.lastSpace := rfl
@[simp] theorem State.modTeam_posted (s : State) (k : Task) (f : Team → Team) : (s.modTeam k f).posted = s.posted := rfl
@[simp] theorem State.modTeam_mem (s : State) (k : Task) (f : Team → Team) : (s.modTeam k f).mem = s.mem := rfl
@[simp] theorem State.modTeam_keyTag (s : State) (k : Task) (f : Team → Team) : (s.modTeam k f).keyTag = s.keyTag := rfl
@[simp] theorem State.modTeam_poison (s : State) (k : Task) (f : Team → Team) : (s.modTeam k f).poison = s.poison := rfl
@[simp] theorem State.modTeam_spaces (s : State) (k : Task) (f : Team → Team) : (s.modTeam k f).spaces = s.spaces := rfl
@[simp] theorem State.modTeam_gens (s : State) (k : Task) (f : Team → Team) : (s.modTeam k f).gens = s.gens := rfl
@[simp] theorem State.modTeam_keys (s : State) (k : Task) (f : Team → Team) : (s.modTeam k f).keys = s.keys := rfl
@[simp] theorem State.modTeam_windows (s : State) (k : Task) (f : Team → Team) : (s.modTeam k f).windows = s.windows := rfl
@[simp] theorem State.modTeam_readiness (s : State) (k : Task) (f : Team → Team) : (s.modTeam k f).readiness = s.readiness := rfl
@[simp] theorem State.modTeam_stks (s : State) (k : Task) (f : Team → Team) : (s.modTeam k f).stks = s.stks := rfl
@[simp] theorem State.modTeam_sessions (s : State) (k : Task) (f : Team → Team) : (s.modTeam k f).sessions = s.sessions := rfl
@[simp] theorem State.modTeam_endpoints (s : State) (k : Task) (f : Team → Team) : (s.modTeam k f).endpoints = s.endpoints := rfl
@[simp] theorem State.modTeam_gathered (s : State) (k : Task) (f : Team → Team) : (s.modTeam k f).gathered = s.gathered := rfl
@[simp] theorem State.modTeam_sent (s : State) (k : Task) (f : Team → Team) : (s.modTeam k f).sent = s.sent := rfl
@[simp] theorem State.modTeam_dropped (s : State) (k : Task) (f : Team → Team) : (s.modTeam k f).dropped = s.dropped := rfl
@[simp] theorem State.modTeam_outbox (s : State) (k : Task) (f : Team → Team) : (s.modTeam k f).outbox = s.outbox := rfl
@[simp] theorem State.modTeam_uudDropped (s : State) (k : Task) (f : Team → Team) : (s.modTeam k f).uudDropped = s.uudDropped := rfl
@[simp] theorem State.modTeam_launches (s : State) (k : Task) (f : Team → Team) : (s.modTeam k f).launches = s.launches := rfl
@[simp] theorem State.modTeam_queue (s : State) (k : Task) (f : Team → Team) : (s.modTeam k f).queue = s.queue := rfl
@[simp] theorem State.modTeam_nextId (s : State) (k : Task) (f : Team → Team) : (s.modTeam k f).nextId = s.nextId := rfl
@[simp] theorem State.modTeam_quantum (s : State) (k : Task) (f : Team → Team) : (s.modTeam k f).quantum = s.quantum := rfl
@[simp] theorem State.modTeam_supRecords (s : State) (k : Task) (f : Team → Team) : (s.modTeam k f).supRecords = s.supRecords := rfl
@[simp] theorem State.modTeam_supTraps (s : State) (k : Task) (f : Team → Team) : (s.modTeam k f).supTraps = s.supTraps := rfl
@[simp] theorem State.modTeam_conns (s : State) (k : Task) (f : Team → Team) : (s.modTeam k f).conns = s.conns := rfl
@[simp] theorem State.modTeam_rcpQ (s : State) (k : Task) (f : Team → Team) : (s.modTeam k f).rcpQ = s.rcpQ := rfl
@[simp] theorem State.modTeam_firmware (s : State) (k : Task) (f : Team → Team) : (s.modTeam k f).firmware = s.firmware := rfl
@[simp] theorem State.modTeam_incoming (s : State) (k : Task) (f : Team → Team) : (s.modTeam k f).incoming = s.incoming := rfl
@[simp] theorem State.modTeam_staged (s : State) (k : Task) (f : Team → Team) : (s.modTeam k f).staged = s.staged := rfl
@[simp] theorem State.modTeam_editLog (s : State) (k : Task) (f : Team → Team) : (s.modTeam k f).editLog = s.editLog := rfl
@[simp] theorem State.modTeam_measured (s : State) (k : Task) (f : Team → Team) : (s.modTeam k f).measured = s.measured := rfl
@[simp] theorem State.modTeam_itemRev (s : State) (k : Task) (f : Team → Team) : (s.modTeam k f).itemRev = s.itemRev := rfl

@[simp] theorem State.modStack_core (s : State) (n : Fin 24) (f : Stack → Stack) : (s.modStack n f).core = s.core := rfl
@[simp] theorem State.modStack_others (s : State) (n : Fin 24) (f : Stack → Stack) : (s.modStack n f).others = s.others := rfl
@[simp] theorem State.modStack_agenda (s : State) (n : Fin 24) (f : Stack → Stack) : (s.modStack n f).agenda = s.agenda := rfl
@[simp] theorem State.modStack_cur (s : State) (n : Fin 24) (f : Stack → Stack) : (s.modStack n f).cur = s.cur := rfl
@[simp] theorem State.modStack_tick (s : State) (n : Fin 24) (f : Stack → Stack) : (s.modStack n f).tick = s.tick := rfl
@[simp] theorem State.modStack_cycle (s : State) (n : Fin 24) (f : Stack → Stack) : (s.modStack n f).cycle = s.cycle := rfl
@[simp] theorem State.modStack_strands (s : State) (n : Fin 24) (f : Stack → Stack) : (s.modStack n f).strands = s.strands := rfl
@[simp] theorem State.modStack_mat (s : State) (n : Fin 24) (f : Stack → Stack) : (s.modStack n f).mat = s.mat := rfl
@[simp] theorem State.modStack_coef (s : State) (n : Fin 24) (f : Stack → Stack) : (s.modStack n f).coef = s.coef := rfl
@[simp] theorem State.modStack_coefFor (s : State) (n : Fin 24) (f : Stack → Stack) : (s.modStack n f).coefFor = s.coefFor := rfl
@[simp] theorem State.modStack_pwrlim (s : State) (n : Fin 24) (f : Stack → Stack) : (s.modStack n f).pwrlim = s.pwrlim := rfl
@[simp] theorem State.modStack_seed (s : State) (n : Fin 24) (f : Stack → Stack) : (s.modStack n f).seed = s.seed := rfl
@[simp] theorem State.modStack_channels (s : State) (n : Fin 24) (f : Stack → Stack) : (s.modStack n f).channels = s.channels := rfl
@[simp] theorem State.modStack_copyQ (s : State) (n : Fin 24) (f : Stack → Stack) : (s.modStack n f).copyQ = s.copyQ := rfl
@[simp] theorem State.modStack_platSlots (s : State) (n : Fin 24) (f : Stack → Stack) : (s.modStack n f).platSlots = s.platSlots := rfl
@[simp] theorem State.modStack_platQ (s : State) (n : Fin 24) (f : Stack → Stack) : (s.modStack n f).platQ = s.platQ := rfl
@[simp] theorem State.modStack_wcb (s : State) (n : Fin 24) (f : Stack → Stack) : (s.modStack n f).wcb = s.wcb := rfl
@[simp] theorem State.modStack_held (s : State) (n : Fin 24) (f : Stack → Stack) : (s.modStack n f).held = s.held := rfl
@[simp] theorem State.modStack_deferred (s : State) (n : Fin 24) (f : Stack → Stack) : (s.modStack n f).deferred = s.deferred := rfl
@[simp] theorem State.modStack_seals (s : State) (n : Fin 24) (f : Stack → Stack) : (s.modStack n f).seals = s.seals := rfl
@[simp] theorem State.modStack_teams (s : State) (n : Fin 24) (f : Stack → Stack) : (s.modStack n f).teams = s.teams := rfl
@[simp] theorem State.modStack_parked (s : State) (n : Fin 24) (f : Stack → Stack) : (s.modStack n f).parked = s.parked := rfl
@[simp] theorem State.modStack_savedMat (s : State) (n : Fin 24) (f : Stack → Stack) : (s.modStack n f).savedMat = s.savedMat := rfl
@[simp] theorem State.modStack_savedScr (s : State) (n : Fin 24) (f : Stack → Stack) : (s.modStack n f).savedScr = s.savedScr := rfl
@[simp] theorem State.modStack_savedCoef (s : State) (n : Fin 24) (f : Stack → Stack) : (s.modStack n f).savedCoef = s.savedCoef := rfl
@[simp] theorem State.modStack_lastSpace (s : State) (n : Fin 24) (f : Stack → Stack) : (s.modStack n f).lastSpace = s.lastSpace := rfl
@[simp] theorem State.modStack_posted (s : State) (n : Fin 24) (f : Stack → Stack) : (s.modStack n f).posted = s.posted := rfl
@[simp] theorem State.modStack_mem (s : State) (n : Fin 24) (f : Stack → Stack) : (s.modStack n f).mem = s.mem := rfl
@[simp] theorem State.modStack_keyTag (s : State) (n : Fin 24) (f : Stack → Stack) : (s.modStack n f).keyTag = s.keyTag := rfl
@[simp] theorem State.modStack_poison (s : State) (n : Fin 24) (f : Stack → Stack) : (s.modStack n f).poison = s.poison := rfl
@[simp] theorem State.modStack_spaces (s : State) (n : Fin 24) (f : Stack → Stack) : (s.modStack n f).spaces = s.spaces := rfl
@[simp] theorem State.modStack_gens (s : State) (n : Fin 24) (f : Stack → Stack) : (s.modStack n f).gens = s.gens := rfl
@[simp] theorem State.modStack_keys (s : State) (n : Fin 24) (f : Stack → Stack) : (s.modStack n f).keys = s.keys := rfl
@[simp] theorem State.modStack_windows (s : State) (n : Fin 24) (f : Stack → Stack) : (s.modStack n f).windows = s.windows := rfl
@[simp] theorem State.modStack_readiness (s : State) (n : Fin 24) (f : Stack → Stack) : (s.modStack n f).readiness = s.readiness := rfl
@[simp] theorem State.modStack_sessions (s : State) (n : Fin 24) (f : Stack → Stack) : (s.modStack n f).sessions = s.sessions := rfl
@[simp] theorem State.modStack_endpoints (s : State) (n : Fin 24) (f : Stack → Stack) : (s.modStack n f).endpoints = s.endpoints := rfl
@[simp] theorem State.modStack_gathered (s : State) (n : Fin 24) (f : Stack → Stack) : (s.modStack n f).gathered = s.gathered := rfl
@[simp] theorem State.modStack_sent (s : State) (n : Fin 24) (f : Stack → Stack) : (s.modStack n f).sent = s.sent := rfl
@[simp] theorem State.modStack_dropped (s : State) (n : Fin 24) (f : Stack → Stack) : (s.modStack n f).dropped = s.dropped := rfl
@[simp] theorem State.modStack_outbox (s : State) (n : Fin 24) (f : Stack → Stack) : (s.modStack n f).outbox = s.outbox := rfl
@[simp] theorem State.modStack_uudDropped (s : State) (n : Fin 24) (f : Stack → Stack) : (s.modStack n f).uudDropped = s.uudDropped := rfl
@[simp] theorem State.modStack_launches (s : State) (n : Fin 24) (f : Stack → Stack) : (s.modStack n f).launches = s.launches := rfl
@[simp] theorem State.modStack_queue (s : State) (n : Fin 24) (f : Stack → Stack) : (s.modStack n f).queue = s.queue := rfl
@[simp] theorem State.modStack_nextId (s : State) (n : Fin 24) (f : Stack → Stack) : (s.modStack n f).nextId = s.nextId := rfl
@[simp] theorem State.modStack_quantum (s : State) (n : Fin 24) (f : Stack → Stack) : (s.modStack n f).quantum = s.quantum := rfl
@[simp] theorem State.modStack_supRecords (s : State) (n : Fin 24) (f : Stack → Stack) : (s.modStack n f).supRecords = s.supRecords := rfl
@[simp] theorem State.modStack_supTraps (s : State) (n : Fin 24) (f : Stack → Stack) : (s.modStack n f).supTraps = s.supTraps := rfl
@[simp] theorem State.modStack_conns (s : State) (n : Fin 24) (f : Stack → Stack) : (s.modStack n f).conns = s.conns := rfl
@[simp] theorem State.modStack_rcpQ (s : State) (n : Fin 24) (f : Stack → Stack) : (s.modStack n f).rcpQ = s.rcpQ := rfl
@[simp] theorem State.modStack_firmware (s : State) (n : Fin 24) (f : Stack → Stack) : (s.modStack n f).firmware = s.firmware := rfl
@[simp] theorem State.modStack_incoming (s : State) (n : Fin 24) (f : Stack → Stack) : (s.modStack n f).incoming = s.incoming := rfl
@[simp] theorem State.modStack_staged (s : State) (n : Fin 24) (f : Stack → Stack) : (s.modStack n f).staged = s.staged := rfl
@[simp] theorem State.modStack_editLog (s : State) (n : Fin 24) (f : Stack → Stack) : (s.modStack n f).editLog = s.editLog := rfl
@[simp] theorem State.modStack_measured (s : State) (n : Fin 24) (f : Stack → Stack) : (s.modStack n f).measured = s.measured := rfl
@[simp] theorem State.modStack_itemRev (s : State) (n : Fin 24) (f : Stack → Stack) : (s.modStack n f).itemRev = s.itemRev := rfl

@[simp] theorem State.modMat_core (s : State) (f : Matrix → Matrix) : (s.modMat f).core = s.core := rfl
@[simp] theorem State.modMat_others (s : State) (f : Matrix → Matrix) : (s.modMat f).others = s.others := rfl
@[simp] theorem State.modMat_agenda (s : State) (f : Matrix → Matrix) : (s.modMat f).agenda = s.agenda := rfl
@[simp] theorem State.modMat_cur (s : State) (f : Matrix → Matrix) : (s.modMat f).cur = s.cur := rfl
@[simp] theorem State.modMat_tick (s : State) (f : Matrix → Matrix) : (s.modMat f).tick = s.tick := rfl
@[simp] theorem State.modMat_cycle (s : State) (f : Matrix → Matrix) : (s.modMat f).cycle = s.cycle := rfl
@[simp] theorem State.modMat_strands (s : State) (f : Matrix → Matrix) : (s.modMat f).strands = s.strands := rfl
@[simp] theorem State.modMat_coef (s : State) (f : Matrix → Matrix) : (s.modMat f).coef = s.coef := rfl
@[simp] theorem State.modMat_coefFor (s : State) (f : Matrix → Matrix) : (s.modMat f).coefFor = s.coefFor := rfl
@[simp] theorem State.modMat_pwrlim (s : State) (f : Matrix → Matrix) : (s.modMat f).pwrlim = s.pwrlim := rfl
@[simp] theorem State.modMat_seed (s : State) (f : Matrix → Matrix) : (s.modMat f).seed = s.seed := rfl
@[simp] theorem State.modMat_channels (s : State) (f : Matrix → Matrix) : (s.modMat f).channels = s.channels := rfl
@[simp] theorem State.modMat_copyQ (s : State) (f : Matrix → Matrix) : (s.modMat f).copyQ = s.copyQ := rfl
@[simp] theorem State.modMat_platSlots (s : State) (f : Matrix → Matrix) : (s.modMat f).platSlots = s.platSlots := rfl
@[simp] theorem State.modMat_platQ (s : State) (f : Matrix → Matrix) : (s.modMat f).platQ = s.platQ := rfl
@[simp] theorem State.modMat_wcb (s : State) (f : Matrix → Matrix) : (s.modMat f).wcb = s.wcb := rfl
@[simp] theorem State.modMat_held (s : State) (f : Matrix → Matrix) : (s.modMat f).held = s.held := rfl
@[simp] theorem State.modMat_deferred (s : State) (f : Matrix → Matrix) : (s.modMat f).deferred = s.deferred := rfl
@[simp] theorem State.modMat_seals (s : State) (f : Matrix → Matrix) : (s.modMat f).seals = s.seals := rfl
@[simp] theorem State.modMat_teams (s : State) (f : Matrix → Matrix) : (s.modMat f).teams = s.teams := rfl
@[simp] theorem State.modMat_parked (s : State) (f : Matrix → Matrix) : (s.modMat f).parked = s.parked := rfl
@[simp] theorem State.modMat_savedMat (s : State) (f : Matrix → Matrix) : (s.modMat f).savedMat = s.savedMat := rfl
@[simp] theorem State.modMat_savedScr (s : State) (f : Matrix → Matrix) : (s.modMat f).savedScr = s.savedScr := rfl
@[simp] theorem State.modMat_savedCoef (s : State) (f : Matrix → Matrix) : (s.modMat f).savedCoef = s.savedCoef := rfl
@[simp] theorem State.modMat_lastSpace (s : State) (f : Matrix → Matrix) : (s.modMat f).lastSpace = s.lastSpace := rfl
@[simp] theorem State.modMat_posted (s : State) (f : Matrix → Matrix) : (s.modMat f).posted = s.posted := rfl
@[simp] theorem State.modMat_mem (s : State) (f : Matrix → Matrix) : (s.modMat f).mem = s.mem := rfl
@[simp] theorem State.modMat_keyTag (s : State) (f : Matrix → Matrix) : (s.modMat f).keyTag = s.keyTag := rfl
@[simp] theorem State.modMat_poison (s : State) (f : Matrix → Matrix) : (s.modMat f).poison = s.poison := rfl
@[simp] theorem State.modMat_spaces (s : State) (f : Matrix → Matrix) : (s.modMat f).spaces = s.spaces := rfl
@[simp] theorem State.modMat_gens (s : State) (f : Matrix → Matrix) : (s.modMat f).gens = s.gens := rfl
@[simp] theorem State.modMat_keys (s : State) (f : Matrix → Matrix) : (s.modMat f).keys = s.keys := rfl
@[simp] theorem State.modMat_windows (s : State) (f : Matrix → Matrix) : (s.modMat f).windows = s.windows := rfl
@[simp] theorem State.modMat_readiness (s : State) (f : Matrix → Matrix) : (s.modMat f).readiness = s.readiness := rfl
@[simp] theorem State.modMat_stks (s : State) (f : Matrix → Matrix) : (s.modMat f).stks = s.stks := rfl
@[simp] theorem State.modMat_sessions (s : State) (f : Matrix → Matrix) : (s.modMat f).sessions = s.sessions := rfl
@[simp] theorem State.modMat_endpoints (s : State) (f : Matrix → Matrix) : (s.modMat f).endpoints = s.endpoints := rfl
@[simp] theorem State.modMat_gathered (s : State) (f : Matrix → Matrix) : (s.modMat f).gathered = s.gathered := rfl
@[simp] theorem State.modMat_sent (s : State) (f : Matrix → Matrix) : (s.modMat f).sent = s.sent := rfl
@[simp] theorem State.modMat_dropped (s : State) (f : Matrix → Matrix) : (s.modMat f).dropped = s.dropped := rfl
@[simp] theorem State.modMat_outbox (s : State) (f : Matrix → Matrix) : (s.modMat f).outbox = s.outbox := rfl
@[simp] theorem State.modMat_uudDropped (s : State) (f : Matrix → Matrix) : (s.modMat f).uudDropped = s.uudDropped := rfl
@[simp] theorem State.modMat_launches (s : State) (f : Matrix → Matrix) : (s.modMat f).launches = s.launches := rfl
@[simp] theorem State.modMat_queue (s : State) (f : Matrix → Matrix) : (s.modMat f).queue = s.queue := rfl
@[simp] theorem State.modMat_nextId (s : State) (f : Matrix → Matrix) : (s.modMat f).nextId = s.nextId := rfl
@[simp] theorem State.modMat_quantum (s : State) (f : Matrix → Matrix) : (s.modMat f).quantum = s.quantum := rfl
@[simp] theorem State.modMat_supRecords (s : State) (f : Matrix → Matrix) : (s.modMat f).supRecords = s.supRecords := rfl
@[simp] theorem State.modMat_supTraps (s : State) (f : Matrix → Matrix) : (s.modMat f).supTraps = s.supTraps := rfl
@[simp] theorem State.modMat_conns (s : State) (f : Matrix → Matrix) : (s.modMat f).conns = s.conns := rfl
@[simp] theorem State.modMat_rcpQ (s : State) (f : Matrix → Matrix) : (s.modMat f).rcpQ = s.rcpQ := rfl
@[simp] theorem State.modMat_firmware (s : State) (f : Matrix → Matrix) : (s.modMat f).firmware = s.firmware := rfl
@[simp] theorem State.modMat_incoming (s : State) (f : Matrix → Matrix) : (s.modMat f).incoming = s.incoming := rfl
@[simp] theorem State.modMat_staged (s : State) (f : Matrix → Matrix) : (s.modMat f).staged = s.staged := rfl
@[simp] theorem State.modMat_editLog (s : State) (f : Matrix → Matrix) : (s.modMat f).editLog = s.editLog := rfl
@[simp] theorem State.modMat_measured (s : State) (f : Matrix → Matrix) : (s.modMat f).measured = s.measured := rfl
@[simp] theorem State.modMat_itemRev (s : State) (f : Matrix → Matrix) : (s.modMat f).itemRev = s.itemRev := rfl

/-! ### Fields of a strand that an update of a stream leaves -/

@[simp] theorem Strand.modStream_v (x : Strand) (k : StreamId) (g : Stream → Stream) : (x.modStream k g).v = x.v := by
  cases k <;> rfl
@[simp] theorem Strand.modStream_p (x : Strand) (k : StreamId) (g : Stream → Stream) : (x.modStream k g).p = x.p := by
  cases k <;> rfl
@[simp] theorem Strand.modStream_o (x : Strand) (k : StreamId) (g : Stream → Stream) : (x.modStream k g).o = x.o := by
  cases k <;> rfl
@[simp] theorem Strand.modStream_l0 (x : Strand) (k : StreamId) (g : Stream → Stream) : (x.modStream k g).l0 = x.l0 := by
  cases k <;> rfl
@[simp] theorem Strand.modStream_l1 (x : Strand) (k : StreamId) (g : Stream → Stream) : (x.modStream k g).l1 = x.l1 := by
  cases k <;> rfl
@[simp] theorem Strand.modStream_k (x : Strand) (k : StreamId) (g : Stream → Stream) : (x.modStream k g).k = x.k := by
  cases k <;> rfl
@[simp] theorem Strand.modStream_fr (x : Strand) (k : StreamId) (g : Stream → Stream) : (x.modStream k g).fr = x.fr := by
  cases k <;> rfl
@[simp] theorem Strand.modStream_q (x : Strand) (k : StreamId) (g : Stream → Stream) : (x.modStream k g).q = x.q := by
  cases k <;> rfl
@[simp] theorem Strand.modStream_q6 (x : Strand) (k : StreamId) (g : Stream → Stream) : (x.modStream k g).q6 = x.q6 := by
  cases k <;> rfl
@[simp] theorem Strand.modStream_q7 (x : Strand) (k : StreamId) (g : Stream → Stream) : (x.modStream k g).q7 = x.q7 := by
  cases k <;> rfl
@[simp] theorem Strand.modStream_viq (x : Strand) (k : StreamId) (g : Stream → Stream) : (x.modStream k g).viq = x.viq := by
  cases k <;> rfl
@[simp] theorem Strand.modStream_vtype (x : Strand) (k : StreamId) (g : Stream → Stream) : (x.modStream k g).vtype = x.vtype := by
  cases k <;> rfl
@[simp] theorem Strand.modStream_vlc (x : Strand) (k : StreamId) (g : Stream → Stream) : (x.modStream k g).vlc = x.vlc := by
  cases k <;> rfl
@[simp] theorem Strand.modStream_vlr (x : Strand) (k : StreamId) (g : Stream → Stream) : (x.modStream k g).vlr = x.vlr := by
  cases k <;> rfl
@[simp] theorem Strand.modStream_vstart (x : Strand) (k : StreamId) (g : Stream → Stream) : (x.modStream k g).vstart = x.vstart := by
  cases k <;> rfl
@[simp] theorem Strand.modStream_mask (x : Strand) (k : StreamId) (g : Stream → Stream) : (x.modStream k g).mask = x.mask := by
  cases k <;> rfl
@[simp] theorem Strand.modStream_skip (x : Strand) (k : StreamId) (g : Stream → Stream) : (x.modStream k g).skip = x.skip := by
  cases k <;> rfl
@[simp] theorem Strand.modStream_vflags (x : Strand) (k : StreamId) (g : Stream → Stream) : (x.modStream k g).vflags = x.vflags := by
  cases k <;> rfl
@[simp] theorem Strand.modStream_frec (x : Strand) (k : StreamId) (g : Stream → Stream) : (x.modStream k g).frec = x.frec := by
  cases k <;> rfl
@[simp] theorem Strand.modStream_vstatus (x : Strand) (k : StreamId) (g : Stream → Stream) : (x.modStream k g).vstatus = x.vstatus := by
  cases k <;> rfl
@[simp] theorem Strand.modStream_tcause (x : Strand) (k : StreamId) (g : Stream → Stream) : (x.modStream k g).tcause = x.tcause := by
  cases k <;> rfl
@[simp] theorem Strand.modStream_tpc (x : Strand) (k : StreamId) (g : Stream → Stream) : (x.modStream k g).tpc = x.tpc := by
  cases k <;> rfl
@[simp] theorem Strand.modStream_tval (x : Strand) (k : StreamId) (g : Stream → Stream) : (x.modStream k g).tval = x.tval := by
  cases k <;> rfl
@[simp] theorem Strand.modStream_tvec (x : Strand) (k : StreamId) (g : Stream → Stream) : (x.modStream k g).tvec = x.tvec := by
  cases k <;> rfl
@[simp] theorem Strand.modStream_tframe (x : Strand) (k : StreamId) (g : Stream → Stream) : (x.modStream k g).tframe = x.tframe := by
  cases k <;> rfl
@[simp] theorem Strand.modStream_tstatus (x : Strand) (k : StreamId) (g : Stream → Stream) : (x.modStream k g).tstatus = x.tstatus := by
  cases k <;> rfl
@[simp] theorem Strand.modStream_entry (x : Strand) (k : StreamId) (g : Stream → Stream) : (x.modStream k g).entry = x.entry := by
  cases k <;> rfl
@[simp] theorem Strand.modStream_wid (x : Strand) (k : StreamId) (g : Stream → Stream) : (x.modStream k g).wid = x.wid := by
  cases k <;> rfl
@[simp] theorem Strand.modStream_teamix (x : Strand) (k : StreamId) (g : Stream → Stream) : (x.modStream k g).teamix = x.teamix := by
  cases k <;> rfl
@[simp] theorem Strand.modStream_lnchid (x : Strand) (k : StreamId) (g : Stream → Stream) : (x.modStream k g).lnchid = x.lnchid := by
  cases k <;> rfl
@[simp] theorem Strand.modStream_lcore (x : Strand) (k : StreamId) (g : Stream → Stream) : (x.modStream k g).lcore = x.lcore := by
  cases k <;> rfl
@[simp] theorem Strand.modStream_platbase (x : Strand) (k : StreamId) (g : Stream → Stream) : (x.modStream k g).platbase = x.platbase := by
  cases k <;> rfl
@[simp] theorem Strand.modStream_platsize (x : Strand) (k : StreamId) (g : Stream → Stream) : (x.modStream k g).platsize = x.platsize := by
  cases k <;> rfl
@[simp] theorem Strand.modStream_spbase (x : Strand) (k : StreamId) (g : Stream → Stream) : (x.modStream k g).spbase = x.spbase := by
  cases k <;> rfl
@[simp] theorem Strand.modStream_spsize (x : Strand) (k : StreamId) (g : Stream → Stream) : (x.modStream k g).spsize = x.spsize := by
  cases k <;> rfl
@[simp] theorem Strand.modStream_latshare (x : Strand) (k : StreamId) (g : Stream → Stream) : (x.modStream k g).latshare = x.latshare := by
  cases k <;> rfl
@[simp] theorem Strand.modStream_vlcap (x : Strand) (k : StreamId) (g : Stream → Stream) : (x.modStream k g).vlcap = x.vlcap := by
  cases k <;> rfl
@[simp] theorem Strand.modStream_cap (x : Strand) (k : StreamId) (g : Stream → Stream) : (x.modStream k g).cap = x.cap := by
  cases k <;> rfl
@[simp] theorem Strand.modStream_group (x : Strand) (k : StreamId) (g : Stream → Stream) : (x.modStream k g).group = x.group := by
  cases k <;> rfl
@[simp] theorem Strand.modStream_bad (x : Strand) (k : StreamId) (g : Stream → Stream) : (x.modStream k g).bad = x.bad := by
  cases k <;> rfl
@[simp] theorem Strand.modStream_bankser (x : Strand) (k : StreamId) (g : Stream → Stream) : (x.modStream k g).bankser = x.bankser := by
  cases k <;> rfl
@[simp] theorem Strand.modStream_dmode (x : Strand) (k : StreamId) (g : Stream → Stream) : (x.modStream k g).dmode = x.dmode := by
  cases k <;> rfl
@[simp] theorem Strand.modStream_aspace (x : Strand) (k : StreamId) (g : Stream → Stream) : (x.modStream k g).aspace = x.aspace := by
  cases k <;> rfl
@[simp] theorem Strand.modStream_shadow (x : Strand) (k : StreamId) (g : Stream → Stream) : (x.modStream k g).shadow = x.shadow := by
  cases k <;> rfl
@[simp] theorem Strand.modStream_fifo (x : Strand) (k : StreamId) (g : Stream → Stream) : (x.modStream k g).fifo = x.fifo := by
  cases k <;> rfl
@[simp] theorem Strand.modStream_resv (x : Strand) (k : StreamId) (g : Stream → Stream) : (x.modStream k g).resv = x.resv := by
  cases k <;> rfl
@[simp] theorem Strand.modStream_pendFault (x : Strand) (k : StreamId) (g : Stream → Stream) : (x.modStream k g).pendFault = x.pendFault := by
  cases k <;> rfl
@[simp] theorem Strand.modStream_netSeq (x : Strand) (k : StreamId) (g : Stream → Stream) : (x.modStream k g).netSeq = x.netSeq := by
  cases k <;> rfl
@[simp] theorem Strand.modStream_net (x : Strand) (k : StreamId) (g : Stream → Stream) : (x.modStream k g).net = x.net := by
  cases k <;> rfl
@[simp] theorem Strand.modStream_live (x : Strand) (k : StreamId) (g : Stream → Stream) : (x.modStream k g).live = x.live := by
  cases k <;> rfl
@[simp] theorem Strand.modStream_barIn (x : Strand) (k : StreamId) (g : Stream → Stream) : (x.modStream k g).barIn = x.barIn := by
  cases k <;> rfl
@[simp] theorem Strand.modStream_bars (x : Strand) (k : StreamId) (g : Stream → Stream) : (x.modStream k g).bars = x.bars := by
  cases k <;> rfl
@[simp] theorem Strand.modStream_halt (x : Strand) (k : StreamId) (g : Stream → Stream) : (x.modStream k g).halt = x.halt := by
  cases k <;> rfl
@[simp] theorem Strand.modStream_preDue (x : Strand) (k : StreamId) (g : Stream → Stream) : (x.modStream k g).preDue = x.preDue := by
  cases k <;> rfl
@[simp] theorem Strand.modStream_task (x : Strand) (k : StreamId) (g : Stream → Stream) : (x.modStream k g).task = x.task := by
  cases k <;> rfl

/-! ### Reading a strand, a stream or a register after an update -/

@[simp] theorem vec_get_set_same {α : Type} {n : Nat} (v : Vector α n) (i : Nat) (h : i < n) (a : α) : (v.set i a h).get ⟨i, h⟩ = a := by
  change (v.set i a h)[i] = a
  simp

@[simp] theorem vec_get_set_fin {α : Type} {n : Nat} (v : Vector α n) (i : Fin n) (a : α) : (v.set i.val a i.isLt).get i = a :=
  vec_get_set_same v i.val i.isLt a

theorem vec_get_set_other {α : Type} {n : Nat} (v : Vector α n) (i : Nat) (h : i < n) (j : Fin n) (a : α) (hj : i ≠ j.val) :
    (v.set i a h).get j = v.get j := by
  change (v.set i a h)[j.val] = v[j.val]
  simp [hj]

@[simp] theorem State.strand_modStrand_same (s : State) (st : Fin 4) (f : Strand → Strand) :
    (s.modStrand st f).strand st = f (s.strand st) := by
  simp [State.modStrand, State.strand]

@[simp] theorem State.strand_modStrand_other (s : State) (st u : Fin 4) (f : Strand → Strand) (h : u ≠ st) :
    (s.modStrand st f).strand u = s.strand u := by
  have : st.val ≠ u.val := fun e => h (Fin.ext e.symm)
  exact vec_get_set_other _ _ st.isLt _ _ this

@[simp] theorem Strand.stream_modStream_same (x : Strand) (k : StreamId) (f : Stream → Stream) :
    (x.modStream k f).stream k = f (x.stream k) := by
  cases k <;> rfl

@[simp] theorem Strand.stream_modStream_other (x : Strand) (k j : StreamId) (f : Stream → Stream) (h : j ≠ k) :
    (x.modStream k f).stream j = x.stream j := by
  cases k <;> cases j <;> first | rfl | exact absurd rfl h

@[simp] theorem State.stream_modStream_same (s : State) (st : Fin 4) (k : StreamId) (f : Stream → Stream) :
    (s.modStream st k f).stream st k = f (s.stream st k) := by
  simp [State.modStream, State.stream]

@[simp] theorem State.stream_modStream_other (s : State) (st u : Fin 4) (k j : StreamId) (f : Stream → Stream)
    (h : ¬ (u = st ∧ j = k)) : (s.modStream st k f).stream u j = s.stream u j := by
  by_cases hu : u = st
  · subst hu
    have hj : j ≠ k := fun e => h ⟨rfl, e⟩
    simp [State.modStream, State.stream, hj]
  · simp [State.modStream, State.stream, hu]

/-- A strand is what its updates leave when it is replaced by itself. -/
@[simp] theorem State.modStrand_modStrand (s : State) (st : Fin 4) (f g : Strand → Strand) :
    (s.modStrand st f).modStrand st g = s.modStrand st fun x => g (f x) := by
  simp [State.modStrand, State.strand]

@[simp] theorem Strand.modStream_modStream (x : Strand) (k : StreamId) (f g : Stream → Stream) :
    (x.modStream k f).modStream k g = x.modStream k fun t => g (f t) := by
  cases k <;> rfl

@[simp] theorem State.modStream_modStream (s : State) (st : Fin 4) (k : StreamId) (f g : Stream → Stream) :
    (s.modStream st k f).modStream st k g = s.modStream st k fun t => g (f t) := by
  simp [State.modStream]

@[simp] theorem Stream.readX_zero (t : Stream) : t.readX 0 = 0 := by simp [Stream.readX]

@[simp] theorem Stream.readX_writeX_same (t : Stream) (r : Reg) (v : W64) :
    (t.writeX r v).readX r = if r = 0 then 0 else v := by
  by_cases h : r = 0
  · simp [Stream.readX, h]
  · simp only [Stream.readX, Stream.writeX, if_neg h]
    exact vec_get_set_same _ _ _ _

@[simp] theorem Stream.readX_writeX_other (t : Stream) (r q : Reg) (v : W64) (h : q ≠ r) :
    (t.writeX r v).readX q = t.readX q := by
  have hn : r.toNat ≠ q.toNat := fun e => h (BitVec.eq_of_toNat_eq e.symm)
  by_cases hr : r = 0
  · simp [Stream.writeX, hr]
  · simp only [Stream.readX, Stream.writeX, if_neg hr]
    split
    · rfl
    · exact vec_get_set_other _ _ r.isLt _ _ hn

@[simp] theorem Stream.writeX_pc (t : Stream) (r : Reg) (v : W64) : (t.writeX r v).pc = t.pc := by
  unfold Stream.writeX; split <;> rfl
@[simp] theorem Stream.writeX_sfctl (t : Stream) (r : Reg) (v : W64) : (t.writeX r v).sfctl = t.sfctl := by
  unfold Stream.writeX; split <;> rfl
@[simp] theorem Stream.writeX_instret (t : Stream) (r : Reg) (v : W64) : (t.writeX r v).instret = t.instret := by
  unfold Stream.writeX; split <;> rfl
@[simp] theorem Stream.writeX_status (t : Stream) (r : Reg) (v : W64) : (t.writeX r v).status = t.status := by
  unfold Stream.writeX; split <;> rfl
@[simp] theorem Stream.writeX_age (t : Stream) (r : Reg) (v : W64) : (t.writeX r v).age = t.age := by
  unfold Stream.writeX; split <;> rfl
@[simp] theorem Stream.writeX_tlb (t : Stream) (r : Reg) (v : W64) : (t.writeX r v).tlb = t.tlb := by
  unfold Stream.writeX; split <;> rfl
@[simp] theorem Stream.writeX_ibuf (t : Stream) (r : Reg) (v : W64) : (t.writeX r v).ibuf = t.ibuf := by
  unfold Stream.writeX; split <;> rfl
@[simp] theorem Stream.writeX_acq (t : Stream) (r : Reg) (v : W64) : (t.writeX r v).acq = t.acq := by
  unfold Stream.writeX; split <;> rfl
@[simp] theorem Stream.writeX_owes (t : Stream) (r : Reg) (v : W64) : (t.writeX r v).owes = t.owes := by
  unfold Stream.writeX; split <;> rfl

end Sys2Proof.Machine
end

