-- ==== Sys2Proof/Laws/Tab.lean ====
section
/-! SUPPORT. What reading and writing a table do: a read after a write, and the canonical form that every write keeps. -/

namespace Sys2Proof.Machine

theorem Tab.get_cons {w : Nat} (e : Nat × BitVec w) (t : Tab w) (k : Nat) :
    Tab.get (e :: t) k = if e.1 = k then e.2 else Tab.get t k := by
  have hb : (e.1 == k) = decide (e.1 = k) := rfl
  by_cases h : e.1 = k <;> simp [Tab.get, List.find?, hb, h]

theorem Tab.get_nil {w : Nat} (k : Nat) : Tab.get ([] : Tab w) k = 0 := rfl

theorem Tab.get_append {w : Nat} (a b : Tab w) (k : Nat) :
    Tab.get (a ++ b) k = if (a.any fun e => e.1 == k) then Tab.get a k else Tab.get b k := by
  induction a with
  | nil => simp
  | cons e t ih => simp only [List.cons_append, Tab.get_cons, ih, List.any_cons]; by_cases h : e.1 = k <;> simp [h]

theorem Tab.get_filter {w : Nat} (p : Nat → Bool) (t : Tab w) (k : Nat) :
    Tab.get (t.filter fun e => p e.1) k = if p k then Tab.get t k else 0 := by
  induction t with
  | nil => simp [Tab.get_nil]
  | cons e t ih =>
    simp only [List.filter_cons, Tab.get_cons]
    by_cases h : p e.1 = true
    · by_cases hk : e.1 = k
      · subst hk; simp [h, Tab.get_cons]
      · simp [h, hk, Tab.get_cons, ih]
    · by_cases hk : e.1 = k
      · subst hk; simp [h, ih]
      · simp [h, hk, ih]

theorem Tab.get_of_not_any {w : Nat} (t : Tab w) (k : Nat) (h : (t.any fun e => e.1 == k) = false) : Tab.get t k = 0 := by
  induction t with
  | nil => rfl
  | cons e l ih =>
    simp only [List.any_cons, Bool.or_eq_false_iff] at h
    have : e.1 ≠ k := by simpa using h.1
    simp [Tab.get_cons, this, ih h.2]

theorem Tab.any_filter {w : Nat} (p : Nat → Bool) (t : Tab w) (k : Nat) (h : p k = false) :
    ((t.filter fun e => p e.1).any fun e => e.1 == k) = false := by
  induction t with
  | nil => rfl
  | cons e t ih =>
    simp only [List.filter_cons]
    by_cases hp : p e.1
    · have : e.1 ≠ k := by intro hk; rw [hk, h] at hp; exact Bool.noConfusion hp
      simp [hp, ih, this]
    · simp [hp, ih]

theorem Tab.get_run {w : Nat} (vals : List (BitVec w)) (base k : Nat) :
    Tab.get (Tab.run base vals) k = if base ≤ k then vals.getD (k - base) 0 else 0 := by
  induction vals generalizing base with
  | nil => simp [Tab.run, Tab.get_nil]
  | cons v vs ih =>
    simp only [Tab.run]
    by_cases hv : v == 0
    · simp only [hv, if_true, ih]
      have hv0 : v = 0 := by simpa using hv
      by_cases h1 : base + 1 ≤ k
      · have : k - base = (k - (base + 1)) + 1 := by omega
        simp [h1, show base ≤ k by omega, this]
      · by_cases h2 : base ≤ k
        · have : k - base = 0 := by omega
          simp [h1, h2, this, hv0]
        · simp [h1, h2]
    · simp only [hv, Bool.false_eq_true, if_false, Tab.get_cons, ih]
      by_cases h0 : base = k
      · subst h0; simp
      · by_cases h1 : base + 1 ≤ k
        · have : k - base = (k - (base + 1)) + 1 := by omega
          simp [h0, h1, show base ≤ k by omega, this]
        · have : ¬ base ≤ k := by omega
          simp [h0, h1, this]

theorem Tab.any_run {w : Nat} (vals : List (BitVec w)) (base k : Nat) (h : ¬ (base ≤ k ∧ k < base + vals.length)) :
    ((Tab.run base vals).any fun e => e.1 == k) = false := by
  induction vals generalizing base with
  | nil => rfl
  | cons v vs ih =>
    simp only [List.length_cons] at h
    have := ih (base + 1) (by omega)
    simp only [Tab.run]
    split
    · exact this
    · have hb : base ≠ k := by omega
      simp [this, hb]

/-- A read after a write: the written value inside the run, the old one outside. -/
theorem Tab.get_splice {w : Nat} (t : Tab w) (base : Nat) (vals : List (BitVec w)) (k : Nat) :
    (t.splice base vals).get k = if base ≤ k ∧ k < base + vals.length then vals.getD (k - base) 0 else t.get k := by
  have hlo := Tab.get_filter (fun i => decide (i < base)) t k
  have hhi := Tab.get_filter (fun i => decide (base + vals.length ≤ i)) t k
  have alo := Tab.any_filter (fun i => decide (i < base)) t k
  have ahi := Tab.any_filter (fun i => decide (base + vals.length ≤ i)) t k
  have arun := Tab.any_run vals base k
  have grun := Tab.get_run vals base k
  unfold Tab.splice
  rw [List.append_assoc, Tab.get_append, Tab.get_append]
  by_cases h1 : k < base
  · have r1 := arun (by omega)
    have r2 := ahi (by simp; omega)
    have n1 : ¬ (base ≤ k ∧ k < base + vals.length) := by omega
    rw [r1, if_neg n1, hhi, hlo]
    simp only [h1, decide_true, if_true, Bool.false_eq_true, if_false]
    have n2 : ¬ (base + vals.length ≤ k) := by omega
    split
    · rfl
    · rename_i hany
      have hz := Tab.get_of_not_any _ k (by rw [Bool.not_eq_true] at hany; exact hany)
      rw [hlo] at hz
      simp only [h1, decide_true, if_true] at hz
      simp [n2, hz]
  · rw [alo (by simp; omega)]
    simp only [Bool.false_eq_true, if_false]
    by_cases h2 : k < base + vals.length
    · have n1 : base ≤ k ∧ k < base + vals.length := by omega
      have n2 : ¬ (base + vals.length ≤ k) := by omega
      rw [if_pos n1, hhi, grun, if_pos n1.1]
      split
      · rfl
      · rename_i hany
        have hz := Tab.get_of_not_any _ k (by rw [Bool.not_eq_true] at hany; exact hany)
        rw [grun, if_pos n1.1] at hz
        rw [hz]
        simp [n2]
    · have n1 : ¬ (base ≤ k ∧ k < base + vals.length) := by omega
      have h3 : base + vals.length ≤ k := by omega
      rw [arun (by omega), if_neg n1, hhi]
      simp [h3]

theorem Tab.get_set {w : Nat} (t : Tab w) (k j : Nat) (v : BitVec w) :
    (t.set k v).get j = if j = k then v else t.get j := by
  unfold Tab.set
  rw [Tab.get_splice]
  by_cases h : j = k
  · subst h; simp
  · have : ¬ (k ≤ j ∧ j < k + [v].length) := by simp only [List.length_singleton]; omega
    rw [if_neg this, if_neg h]

theorem Tab.wfFrom_mono {w : Nat} (t : Tab w) (a b : Nat) (hab : b ≤ a) (h : Tab.wfFrom a t = true) : Tab.wfFrom b t = true := by
  cases t with
  | nil => rfl
  | cons e t =>
    simp only [Tab.wfFrom, Bool.and_eq_true, decide_eq_true_eq] at h ⊢
    exact ⟨⟨by omega, h.1.2⟩, h.2⟩

theorem Tab.wfFrom_filter {w : Nat} (p : Nat × BitVec w → Bool) (t : Tab w) (a : Nat) (h : Tab.wfFrom a t = true) :
    Tab.wfFrom a (t.filter p) = true := by
  induction t generalizing a with
  | nil => rfl
  | cons e t ih =>
    simp only [Tab.wfFrom, Bool.and_eq_true, decide_eq_true_eq] at h
    simp only [List.filter_cons]
    split
    · simp only [Tab.wfFrom, Bool.and_eq_true, decide_eq_true_eq]
      exact ⟨h.1, ih _ h.2⟩
    · exact Tab.wfFrom_mono _ (e.1 + 1) a (by omega) (ih _ h.2)

/-- A list whose keys all lie below a bound may be followed by one that starts there. -/
theorem Tab.wfFrom_append {w : Nat} (t u : Tab w) (a m : Nat) (ham : a ≤ m) (ht : Tab.wfFrom a t = true)
    (hb : ∀ e ∈ t, e.1 < m) (hu : Tab.wfFrom m u = true) : Tab.wfFrom a (t ++ u) = true := by
  induction t generalizing a with
  | nil => exact Tab.wfFrom_mono _ m a ham hu
  | cons e t ih =>
    simp only [Tab.wfFrom, Bool.and_eq_true, decide_eq_true_eq] at ht
    simp only [List.cons_append, Tab.wfFrom, Bool.and_eq_true, decide_eq_true_eq]
    have he := hb e (by simp)
    exact ⟨ht.1, ih _ (by omega) ht.2 (fun x hx => hb x (by simp [hx]))⟩

theorem Tab.wfFrom_ge {w : Nat} (t : Tab w) (a m : Nat) (h : Tab.wfFrom a t = true) (hb : ∀ e ∈ t, m ≤ e.1) :
    Tab.wfFrom m t = true := by
  cases t with
  | nil => rfl
  | cons e t =>
    simp only [Tab.wfFrom, Bool.and_eq_true, decide_eq_true_eq] at h ⊢
    exact ⟨⟨hb e (by simp), h.1.2⟩, h.2⟩

theorem Tab.run_wf {w : Nat} (vals : List (BitVec w)) (base : Nat) : Tab.wfFrom base (Tab.run base vals) = true := by
  induction vals generalizing base with
  | nil => rfl
  | cons v vs ih =>
    simp only [Tab.run]
    split
    · exact Tab.wfFrom_mono _ (base + 1) base (by omega) (ih _)
    · rename_i hv
      simp only [Tab.wfFrom, Bool.and_eq_true, decide_eq_true_eq]
      exact ⟨⟨by omega, by simpa using hv⟩, ih _⟩

theorem Tab.run_lt {w : Nat} (vals : List (BitVec w)) (base : Nat) : ∀ e ∈ Tab.run base vals, e.1 < base + vals.length := by
  induction vals generalizing base with
  | nil => simp [Tab.run]
  | cons v vs ih =>
    intro e he
    simp only [Tab.run] at he
    have hlen : (v :: vs).length = vs.length + 1 := rfl
    split at he
    · have := ih (base + 1) e he; omega
    · simp only [List.mem_cons] at he
      rcases he with rfl | he
      · simp
      · have := ih (base + 1) e he; omega

/-- Writing keeps the canonical form. -/
theorem Tab.splice_wf {w : Nat} (t : Tab w) (base : Nat) (vals : List (BitVec w)) (h : t.wf = true) :
    (t.splice base vals).wf = true := by
  unfold Tab.wf at h ⊢
  unfold Tab.splice
  refine Tab.wfFrom_append _ _ 0 (base + vals.length) (by omega) ?_ ?_ ?_
  · refine Tab.wfFrom_append _ _ 0 base (by omega) (Tab.wfFrom_filter _ _ _ h) ?_ (Tab.run_wf vals base)
    intro e he
    simpa using (List.mem_filter.1 he).2
  · intro e he
    rcases List.mem_append.1 he with he | he
    · have : e.1 < base := by simpa using (List.mem_filter.1 he).2
      omega
    · exact Tab.run_lt vals base e he
  · refine Tab.wfFrom_ge _ 0 _ (Tab.wfFrom_filter _ _ _ h) ?_
    intro e he
    simpa using (List.mem_filter.1 he).2

theorem Tab.set_wf {w : Nat} (t : Tab w) (k : Nat) (v : BitVec w) (h : t.wf = true) : (t.set k v).wf = true :=
  Tab.splice_wf t k [v] h

theorem Tab.clear_wf {w : Nat} (t : Tab w) (lo hi : Nat) (h : t.wf = true) : (t.clear lo hi).wf = true :=
  Tab.wfFrom_filter _ _ _ h

theorem Tab.get_clear {w : Nat} (t : Tab w) (lo hi k : Nat) :
    (t.clear lo hi).get k = if lo ≤ k ∧ k < hi then 0 else t.get k := by
  have := Tab.get_filter (fun i => decide (i < lo) || decide (hi ≤ i)) t k
  unfold Tab.clear
  rw [this]
  by_cases h : lo ≤ k ∧ k < hi
  · have h1 : ¬ k < lo := by omega
    have h2 : ¬ hi ≤ k := by omega
    simp [h, h1, h2]
  · by_cases h1 : k < lo
    · simp [h1, h]
    · have h2 : hi ≤ k := by omega
      simp [h, h2]

end Sys2Proof.Machine
end

