-- ==== Sys2Proof/Laws/Memory.lean ====
section
/-! SUPPORT. What the operations over memory do: each keeps the canonical form of memory and of the key tags, and what a byte reads
after bytes were written. -/

namespace Sys2Proof.Machine

/-! ### The state after reset and after a program was placed -/

theorem State.memOk_reset : State.reset.MemOk := ⟨rfl, rfl⟩

/-- Memory and key tags alone say whether the form holds. -/
theorem State.MemOk.congr {s t : State} (h : s.MemOk) (hm : t.mem = s.mem) (hk : t.keyTag = s.keyTag) : t.MemOk := by
  unfold State.MemOk Memory.wf
  rw [hm, hk]
  exact h

theorem State.place_memOk (s : State) (bs : List Byte) (h : s.MemOk) : (s.place bs).MemOk :=
  ⟨Tab.splice_wf _ _ _ (Tab.splice_wf _ _ _ h.1), Tab.splice_wf _ _ _ (Tab.splice_wf _ _ _ h.2)⟩

theorem State.withFetchWord_memOk (s : State) (n w : Nat) (h : s.MemOk) : (s.withFetchWord n w).MemOk := s.place_memOk _ h

/-! ### Folds -/

/-- An invariant that every step of a fold keeps holds after the fold. -/
theorem foldl_keeps {α β : Type} (P : β → Prop) (f : β → α → β) (hf : ∀ b a, P b → P (f b a)) (l : List α) (b : β) (h : P b) :
    P (l.foldl f b) := by
  induction l generalizing b with
  | nil => exact h
  | cons a l ih => exact ih _ (hf _ _ h)

/-! ### Bytes at their home -/

theorem State.rekeyOne_memOk (s : State) (key : Nat) (whole : Bool) (g : Nat) (h : s.MemOk) : (s.rekeyOne key whole g).MemOk := by
  refine ⟨?_, Tab.set_wf _ _ _ h.2⟩
  show (if whole = true then s.mem else _).wf = true
  split
  · exact h.1
  · exact Tab.splice_wf _ _ _ h.1

theorem State.rekey_memOk (s : State) (key pa n : Nat) (h : s.MemOk) : (s.rekey key pa n).MemOk :=
  foldl_keeps State.MemOk _ (fun u g hu => u.rekeyOne_memOk key _ g hu) _ _ h

theorem State.putBytes_memOk (s : State) (key pa : Nat) (bs : List Byte) (h : s.MemOk) : (s.putBytes key pa bs).MemOk := by
  unfold State.putBytes
  split
  · exact h
  · have hr := s.rekey_memOk key pa bs.length h
    exact ⟨Tab.splice_wf _ _ _ hr.1, hr.2⟩

/-- A byte of memory after bytes were written at their home (R117). -/
theorem State.putBytes_mem (s : State) (key pa a : Nat) (bs : List Byte) (h : s.lostAt pa = false) :
    (s.putBytes key pa bs).mem.get a =
      if pa ≤ a ∧ a < pa + bs.length then bs.getD (a - pa) 0 else (s.rekey key pa bs.length).mem.get a := by
  simp [State.putBytes, h, Tab.get_splice]

/-- A write to a retired stack leaves the state (R109). -/
theorem State.putBytes_lost (s : State) (key pa : Nat) (bs : List Byte) (h : s.lostAt pa = true) : s.putBytes key pa bs = s := by
  simp [State.putBytes, h]

theorem State.putBits_memOk (s : State) (key pa : Nat) (b bits : Byte) (h : s.MemOk) : (s.putBits key pa b bits).MemOk :=
  s.putBytes_memOk _ _ _ h

theorem State.cleanWhole_memOk (s : State) (l : List (Nat × Byte)) (h : s.MemOk) : (s.cleanWhole l).MemOk := h

theorem State.putParts_memOk (s : State) (l : List (Nat × Nat × Byte × Byte)) (h : s.MemOk) : (s.putParts l).MemOk :=
  State.cleanWhole_memOk _ _
    (foldl_keeps State.MemOk _ (fun (u : State) (e : Nat × Nat × Byte × Byte) hu => u.putBits_memOk e.1 e.2.1 e.2.2.1 e.2.2.2 hu) _ _ h)

theorem State.queueAt_memOk (s : State) (pa : Nat) (q : StackReq) (h : s.MemOk) : (s.queueAt pa q).MemOk := h

theorem State.placeReq_memOk (s : State) (ns : List (Fin 24)) (q : StackReq) (h : s.MemOk) : (s.placeReq ns q).MemOk := by
  unfold State.placeReq
  split
  · exact h
  · exact h.congr rfl rfl

theorem State.keepWork_memOk (s : State) (pas : List Nat) (t : Option Task) (w : HeldWork) (h : s.MemOk) :
    (s.keepWork pas t w).MemOk := by
  unfold State.keepWork
  split
  · exact h
  · exact s.placeReq_memOk _ _ h

theorem State.keepOutside_memOk (s : State) (pas : List Nat) (w : HeldWork) (h : s.MemOk) : (s.keepOutside pas w).MemOk :=
  s.placeReq_memOk _ _ h

theorem State.drainLine_memOk (s : State) (es : List WcbEntry) (h : s.MemOk) : (s.drainLine es).MemOk := by
  unfold State.drainLine
  split
  · exact h
  · split
    · exact h
    · exact s.putParts_memOk _ h

theorem State.drainAt_memOk (s : State) (pa n : Nat) (h : s.MemOk) : (s.drainAt pa n).MemOk := by
  unfold State.drainAt
  dsimp only
  split
  · exact h
  · exact foldl_keeps State.MemOk _ (fun (u : State) (l : Nat) hu => u.drainLine_memOk _ hu) _ _ h

theorem State.addPoison_memOk (s : State) (pa : Nat) (h : s.MemOk) : (s.addPoison pa).MemOk := by
  unfold State.addPoison
  split <;> exact h

/-! ### What a write marks -/

theorem State.mapCores_memOk (s : State) (f : CoreSt → CoreSt) (h : s.MemOk) : (s.mapCores f).MemOk := h

theorem State.platHdr_memOk (s : State) (t : Team) (p : Plat) (h : s.MemOk) : (s.platHdr t p).MemOk := by
  unfold State.platHdr
  split
  · exact s.mapCores_memOk _ h
  · exact s.putBytes_memOk _ _ _ h

theorem State.setPlats_memOk (s : State) (sel : Team → Plat → Bool) (f : Plat → Plat) (h : s.MemOk) : (s.setPlats sel f).MemOk := by
  have hf : State.MemOk (s.teams.foldl (fun u t => t.plats.foldl (fun u p => if sel t p then u.platHdr t (f p) else u) u) s) := by
    refine foldl_keeps State.MemOk _ (fun u t hu => ?_) _ _ h
    refine foldl_keeps State.MemOk _ (fun u p hu => ?_) _ _ hu
    split
    · exact u.platHdr_memOk _ _ hu
    · exact hu
  exact hf

theorem State.sealMark_memOk (f : Nat) (s : State) (pa n : Nat) (h : s.MemOk) : (State.sealMark f s pa n).MemOk := by
  induction f generalizing s pa n with
  | zero => exact h
  | succ f ih =>
    unfold State.sealMark
    dsimp only
    split
    · exact h
    · exact foldl_keeps State.MemOk _ (fun u a hu => ih u (a + 5) 2 hu) _ _ (s.setPlats_memOk _ _ h)

theorem State.modPlats_memOk (s : State) (sel : Team → Plat → Bool) (f : Plat → Plat) (h : s.MemOk) : (s.modPlats sel f).MemOk :=
  foldl_keeps State.MemOk _ (fun u a hu => State.sealMark_memOk _ u (a + 5) 2 hu) _ _ (s.setPlats_memOk _ _ h)

theorem State.footMark_memOk (s : State) (pa n : Nat) (h : s.MemOk) : (s.footMark pa n).MemOk := by
  unfold State.footMark
  split
  · exact s.modPlats_memOk _ _ h
  · exact h

theorem State.markWrite_memOk (s : State) (pa n : Nat) (h : s.MemOk) : (s.markWrite pa n).MemOk := by
  have h1 := State.footMark_memOk _ pa n (State.sealMark_memOk s.sealDepth s pa n h)
  unfold State.markWrite
  dsimp only
  split
  · exact State.mapCores_memOk _ _ h1
  · exact h1

/-! ### Writes -/

theorem State.write_memOk (s : State) (key pa : Nat) (bs : List Byte) (h : s.MemOk) : (s.write key pa bs).MemOk :=
  State.markWrite_memOk _ _ _ (State.putBytes_memOk _ _ _ _ (s.drainAt_memOk _ _ h))

theorem State.writeBits_memOk (s : State) (key pa : Nat) (b bits : Byte) (h : s.MemOk) : (s.writeBits key pa b bits).MemOk :=
  State.markWrite_memOk _ _ _ (State.putBits_memOk _ _ _ _ _ (s.drainAt_memOk _ _ h))

theorem State.scatterBytes_memOk (s : State) (key : Nat) (l : List (Nat × Byte)) (h : s.MemOk) : (s.scatterBytes key l).MemOk :=
  foldl_keeps State.MemOk _ (fun u r hu => u.write_memOk key r.1 r.2 hu) _ _ h

theorem State.remoteWrite_memOk (s : State) (pa : Nat) (bs : List Byte) (h : s.MemOk) : (s.remoteWrite pa bs).MemOk := by
  unfold State.remoteWrite
  dsimp only
  split
  · exact s.putBytes_memOk _ _ _ h
  · exact h

/-! ### Stores of a stream -/

theorem State.holdByte_memOk (s : State) (st : Fin 4) (k : StreamId) (key pa : Nat) (b bits : Byte) (h : s.MemOk) :
    (s.holdByte st k key pa b bits).MemOk := by
  unfold State.holdByte
  split
  · exact h
  · exact h

theorem State.holdBytes_memOk (s : State) (st : Fin 4) (k : StreamId) (key pa : Nat) (bs : List Byte) (h : s.MemOk) :
    (s.holdBytes st k key pa bs).MemOk :=
  State.markWrite_memOk _ _ _ (foldl_keeps State.MemOk _ (fun u e hu => u.holdByte_memOk st k key (pa + e.2) e.1 0xFF hu) _ _ h)

theorem State.scalarStore_memOk (s : State) (st : Fin 4) (k : StreamId) (pa : Nat) (bs : List Byte) (h : s.MemOk) :
    (s.scalarStore st k pa bs).MemOk := by
  unfold State.scalarStore
  dsimp only
  split
  · exact s.holdBytes_memOk _ _ _ _ _ h
  · split
    · exact State.markWrite_memOk _ _ _ (s.drainAt_memOk _ _ h)
    · exact s.write_memOk _ _ _ h

theorem State.wcbRoom_memOk (s : State) (pa : Nat) (h : s.MemOk) : (s.wcbRoom pa).MemOk := by
  unfold State.wcbRoom
  split
  · exact h
  · split
    · exact s.drainAt_memOk _ _ h
    · exact h

theorem State.deliver_memOk (s : State) (key pa : Nat) (b bits : Byte) (h : s.MemOk) : (s.deliver key pa b bits).MemOk :=
  s.putBytes_memOk key pa _ h

theorem State.wcbByte_memOk (s : State) (st : Fin 4) (key pa : Nat) (b bits : Byte) (h : s.MemOk) :
    (s.wcbByte st key pa b bits).MemOk := by
  unfold State.wcbByte
  split
  · exact State.putBits_memOk _ _ _ _ _ (s.drainAt_memOk _ _ h)
  · split
    · exact s.deliver_memOk _ _ _ _ h
    · exact s.wcbRoom_memOk _ h

theorem State.vectorStore_memOk (s : State) (st : Fin 4) (pa : Nat) (bs : List Byte) (bits : Byte) (h : s.MemOk) :
    (s.vectorStore st pa bs bits).MemOk := by
  unfold State.vectorStore
  dsimp only
  apply State.markWrite_memOk
  split
  · exact foldl_keeps State.MemOk _ (fun u e hu => u.holdByte_memOk st .E (s.slotKey (s.acc st).key) (pa + e.2) e.1 bits hu) _ _ h
  · exact foldl_keeps State.MemOk _ (fun u e hu => u.wcbByte_memOk st (s.slotKey (s.acc st).key) (pa + e.2) e.1 bits hu) _ _ h

/-! ### What a stream sees -/

/-- The held stores to one byte, in their coherence order, are those to it of all in that order. -/
theorem fenceGroups_filter (hs : List Held) (p : Held → Bool) :
    ((fenceGroups hs).flatMap id).filter p = (fenceGroups (hs.filter p)).flatMap id := by
  simp only [fenceGroups, List.flatMap_map, List.filter_flatMap, id_eq, List.filter_filter, Bool.and_comm]

/-- A read without a stream, in the state as a stream sees it, reads what the stream sees (R118, R304). -/
theorem State.asSeen_coreByte (s : State) (st : Fin 4) (k : StreamId) (key pa : Nat) :
    (s.asSeen st k).coreByte key pa = s.viewByte (some (st, k)) key pa := by
  have hf : ∀ (l : List Held) (b : Byte), l.foldl (fun b h => if (h.pa == pa) = true then applyBits b h.byte h.bits else b) b
      = (l.filter fun h => h.pa == pa).foldl (fun b h => applyBits b h.byte h.bits) b := by
    intro l b
    rw [List.foldl_filter]
  show (s.wcb ++ _).foldl _ (s.homeByte key pa) = _
  rw [List.foldl_append, List.foldl_map, hf, fenceGroups_filter, List.filter_filter]
  rfl

/-! ### Scratchpads cleared and restored -/

theorem State.clearCore_memOk (s : State) (h : s.MemOk) : s.clearCore.MemOk := ⟨Tab.clear_wf _ _ _ h.1, h.2⟩

theorem State.restoreScr_memOk (s : State) (t : Team) (h : s.MemOk) : (s.restoreScr t).MemOk := by
  unfold State.restoreScr
  split
  · exact h
  · refine ⟨?_, h.2⟩
    exact foldl_keeps (fun m : Tab 8 => m.wf = true) _ (fun m p hm => Tab.set_wf m _ p.2 hm) _ _ (Tab.clear_wf _ _ _ h.1)

/-! ### What fields the operations leave -/

/-- Re-encrypting granules changes memory and key tags alone. -/
theorem State.rekey_frame (s : State) (key pa n : Nat) :
    s.rekey key pa n = { s with mem := (s.rekey key pa n).mem, keyTag := (s.rekey key pa n).keyTag } := by
  refine foldl_keeps (fun u : State => u = { s with mem := u.mem, keyTag := u.keyTag }) _ (fun u g hu => ?_) _ _ rfl
  exact hu ▸ rfl

/-- A write at its home changes memory, key tags and poison alone (R117). -/
theorem State.putBytes_frame (s : State) (key pa : Nat) (bs : List Byte) :
    s.putBytes key pa bs = { s with mem := (s.putBytes key pa bs).mem, keyTag := (s.putBytes key pa bs).keyTag,
                                    poison := (s.putBytes key pa bs).poison } := by
  unfold State.putBytes
  split
  · rfl
  · dsimp only
    rw [s.rekey_frame]

@[simp] theorem State.putBytes_teams (s : State) (key pa : Nat) (bs : List Byte) : (s.putBytes key pa bs).teams = s.teams := by
  rw [s.putBytes_frame]

@[simp] theorem State.putBytes_strands (s : State) (key pa : Nat) (bs : List Byte) : (s.putBytes key pa bs).strands = s.strands := by
  rw [s.putBytes_frame]

@[simp] theorem State.putBytes_wcb (s : State) (key pa : Nat) (bs : List Byte) : (s.putBytes key pa bs).wcb = s.wcb := by
  rw [s.putBytes_frame]

@[simp] theorem State.putBytes_held (s : State) (key pa : Nat) (bs : List Byte) : (s.putBytes key pa bs).held = s.held := by
  rw [s.putBytes_frame]

@[simp] theorem State.putBytes_stks (s : State) (key pa : Nat) (bs : List Byte) : (s.putBytes key pa bs).stks = s.stks := by
  rw [s.putBytes_frame]

@[simp] theorem State.putBytes_core (s : State) (key pa : Nat) (bs : List Byte) : (s.putBytes key pa bs).core = s.core := by
  rw [s.putBytes_frame]

@[simp] theorem State.putBytes_mat (s : State) (key pa : Nat) (bs : List Byte) : (s.putBytes key pa bs).mat = s.mat := by
  rw [s.putBytes_frame]

@[simp] theorem State.putBytes_others (s : State) (key pa : Nat) (bs : List Byte) : (s.putBytes key pa bs).others = s.others := by
  rw [s.putBytes_frame]

@[simp] theorem State.putBytes_seals (s : State) (key pa : Nat) (bs : List Byte) : (s.putBytes key pa bs).seals = s.seals := by
  rw [s.putBytes_frame]

/-! ### The queues of the stacks (R107) -/

/-- A request placed changes the stacks alone. -/
theorem State.placeReq_frame (s : State) (ns : List (Fin 24)) (q : StackReq) :
    s.placeReq ns q = { s with stks := (s.placeReq ns q).stks } := by
  unfold State.placeReq
  split <;> rfl

/-- Work kept changes the stacks alone. -/
theorem State.keepWork_frame (s : State) (pas : List Nat) (t : Option Task) (w : HeldWork) :
    s.keepWork pas t w = { s with stks := (s.keepWork pas t w).stks } := by
  unfold State.keepWork
  split
  · rfl
  · exact s.placeReq_frame _ _

/-- What placing a request does to one stack: nothing, or the request stands last in its queue. -/
theorem State.placeReq_get (s : State) (ns : List (Fin 24)) (q : StackReq) (n : Fin 24) :
    (s.placeReq ns q).stks.get n =
      if ns.contains n then { s.stks.get n with queue := (s.stks.get n).queue ++ [q] } else s.stks.get n := by
  unfold State.placeReq
  split
  · rename_i h
    rw [List.isEmpty_iff] at h
    subst h
    rfl
  · exact Vector.getElem_ofFn n.isLt

/-- Where no stack has a request that it could serve, nothing is served. -/
theorem State.serveSome_idle (s : State) (f : Nat) (h : s.nextServed = none) : State.serveSome f s = s := by
  cases f with
  | zero => rfl
  | succ f => unfold State.serveSome; rw [h]

theorem State.serveStacks_idle (s : State) (h : s.nextServed = none) : s.serveStacks = s := s.serveSome_idle _ h

/-- The request served next stands at the head of every stack that keeps it, none of which is shut. -/
theorem State.nextServed_ready {s : State} {n : Fin 24} {q : StackReq} (h : s.nextServed = some (n, q)) :
    (s.stks.get n).queue.head? = some q ∧ ∀ m ∈ s.keptIn n q, s.stackShut m = false ∧ (s.stks.get m).queue.head? = some q := by
  obtain ⟨k, -, hk⟩ := List.exists_of_findSome?_eq_some h
  cases hq : (s.stks.get k).queue.head? with
  | none => rw [hq] at hk; cases hk
  | some p =>
    rw [hq] at hk
    simp only [Option.bind_some] at hk
    split at hk
    · rename_i hr
      cases hk
      refine ⟨hq, fun m hm => ?_⟩
      have := List.all_eq_true.mp hr m hm
      simpa only [Bool.and_eq_true, Bool.not_eq_true', beq_iff_eq] using this
    · cases hk

end Sys2Proof.Machine
end

