-- ==== Sys2Proof/Laws/Scalar.lean ====
section
/-! SUPPORT. What the shared operations of the scalar instructions leave behind. -/

namespace Sys2Proof.Machine

/-- A change of one stream leaves every byte as each reader sees it. -/
theorem State.modStream_bytes (s : State) (st : Fin 4) (k : StreamId) (f : Stream → Stream) : SameBytes s (s.modStream st k f) := by
  intro key pa
  refine ⟨rfl, fun who => ?_⟩
  match who with
  | none => rfl
  | some (u, j) =>
    by_cases h : u = st
    · subst h
      simp only [State.viewByte, State.taskByte, State.modStream, State.strand_modStrand_same, Strand.modStream_task]
      rfl
    · simp only [State.viewByte, State.taskByte, State.modStream, State.strand_modStrand_other _ _ _ _ h]
      rfl

/-- A state that changes one stream alone is one in which only that stream differs. -/
theorem State.modStream_only (s : State) (st : Fin 4) (k : StreamId) (f : Stream → Stream) :
    OnlyStream s (s.modStream st k f) st k := by
  cases k <;> simp [OnlyStream, State.modStream, State.stream] <;> rfl

/-- What a result and a transfer of control leave behind. -/
theorem State.goto_after (s : State) (st : Fin 4) (k : StreamId) (rd : Reg) (v pc : W64) :
    After s ((s.writeX st k rd v).goto st k pc) st k rd v pc (s.stream st k).sfctl := by
  have e : (s.writeX st k rd v).goto st k pc =
      s.modStream st k fun t => { t.writeX rd v with pc := pc, instret := t.instret + 1, status := .run, age := s.tick } := by
    simp [State.writeX, State.goto]
  rw [e]
  have rx : ∀ r, (s.modStream st k fun t =>
      { t.writeX rd v with pc := pc, instret := t.instret + 1, status := .run, age := s.tick }).readX st k r =
        ((s.stream st k).writeX rd v).readX r := by
    intro r
    simp only [State.readX, State.stream_modStream_same]
    rfl
  constructor
  · rw [rx, Stream.readX_writeX_same]
  · intro r hr
    rw [rx, Stream.readX_writeX_other _ _ _ _ hr]
    rfl
  · simp
  · simp
  · simp
  · simp
  · exact State.modStream_only ..
  · exact State.modStream_bytes s st k _

/-- What a scalar result leaves behind. -/
theorem State.done_after (s : State) (st : Fin 4) (k : StreamId) (rd : Reg) (v : W64) :
    After s (s.done st k rd v) st k rd v (s.nextPc st k) (s.stream st k).sfctl := by
  have h := s.goto_after st k rd v (s.nextPc st k)
  have e : (s.writeX st k rd v).nextPc st k = s.nextPc st k := by
    simp [State.nextPc, State.writeX, State.instrBytes]
  simpa [State.done, State.retire, e] using h

/-- What an instruction without a result leaves behind. -/
theorem State.goto_only_after (s : State) (st : Fin 4) (k : StreamId) (pc : W64) :
    After s (s.goto st k pc) st k 0 0 pc (s.stream st k).sfctl := by
  have h := s.goto_after st k 0 0 pc
  have e : s.writeX st k 0 0 = s := by
    have : (fun t : Stream => t.writeX 0 0) = fun t => t := by funext t; simp [Stream.writeX]
    simp only [State.writeX, this, State.modStream]
    have h2 : ∀ x : Strand, x.modStream k (fun t => t) = x := by intro x; cases k <;> rfl
    simp only [h2, State.modStrand]
    have h3 : s.strands.set st.val (s.strand st) st.isLt = s.strands := by
      apply Vector.ext
      intro i hi
      by_cases hs : st.val = i
      · subst hs; simp [State.strand]; rfl
      · simp [hs]
    rw [h3]
  rwa [e] at h

/-- What an FP result with its flags leaves behind. -/
theorem State.fpDone_after (s : State) (st : Fin 4) (k : StreamId) (rd : Reg) (r : Nat × Flags) :
    After s (s.fpDone st k rd r) st k rd (BitVec.ofNat 64 r.1) (s.nextPc st k) ((s.stream st k).sfctl ||| r.2.setWidth 64) := by
  have e : s.fpDone st k rd r =
      s.modStream st k fun t => { (t.orFlags r.2).writeX rd (BitVec.ofNat 64 r.1) with
        pc := s.nextPc st k, instret := t.instret + 1, status := .run, age := s.tick } := by
    simp [State.fpDone, State.scalarFlags, State.done, State.retire, State.writeX, State.goto, State.nextPc, State.instrBytes,
      Stream.orFlags]
  rw [e]
  have rx : ∀ q, (s.modStream st k fun t => { (t.orFlags r.2).writeX rd (BitVec.ofNat 64 r.1) with
      pc := s.nextPc st k, instret := t.instret + 1, status := .run, age := s.tick }).readX st k q =
        (((s.stream st k).orFlags r.2).writeX rd (BitVec.ofNat 64 r.1)).readX q := by
    intro q
    simp only [State.readX, State.stream_modStream_same]
    rfl
  constructor
  · rw [rx, Stream.readX_writeX_same]
  · intro q hq
    rw [rx, Stream.readX_writeX_other _ _ _ _ hq]
    rfl
  · simp
  · simp [Stream.orFlags]
  · simp
  · simp
  · exact State.modStream_only ..
  · exact State.modStream_bytes s st k _

/-- What a fetched instruction does on a stream. -/
theorem onStream_eq {s : State} {st : Fin 4} {k : StreamId} (h : s.cur.agent = .stream st k) (f : Fin 4 → StreamId → State) :
    onStream s f = .next (f st k) := by simp [onStream, h]

/-- An instruction whose meaning is one result gives that result. -/
theorem gives_of_done {s : State} {st : Fin 4} {k : StreamId} {rd : Reg} {i : Instr} {v : W64}
    (h : exec i s = .next (s.done st k rd v)) : Gives s st k rd i v := ⟨_, h, s.done_after st k rd v⟩

/-- The shared operation of two-register functions. -/
theorem alu_gives {s : State} {st : Fin 4} {k : StreamId} {rd rs1 rs2 : Reg} {i : Instr} {f : W64 → W64 → W64}
    (h : s.cur.agent = .stream st k) (hi : exec i s = alu s rd rs1 rs2 f) :
    Gives s st k rd i (f (s.readX st k rs1) (s.readX st k rs2)) := gives_of_done (by rw [hi, alu, onStream_eq h])

/-- The shared operation of one-register functions. -/
theorem alu1_gives {s : State} {st : Fin 4} {k : StreamId} {rd rs1 : Reg} {i : Instr} {f : W64 → W64}
    (h : s.cur.agent = .stream st k) (hi : exec i s = alu1 s rd rs1 f) :
    Gives s st k rd i (f (s.readX st k rs1)) := gives_of_done (by rw [hi, alu1, onStream_eq h])

end Sys2Proof.Machine
end

