-- ==== Sys2Proof/Laws/Vector.lean ====
section
/-! SUPPORT. What the vector instructions share: one element written and read back, one row, one destination group, the front end, and
the commit of an instruction that is alone in the queue. -/

namespace Sys2Proof.Machine

/-! ### Elements and groups -/

theorem elem_getLsbD (row : Row) (w c i : Nat) :
    (row.extractLsb' (c * w) w).getLsbD i = (decide (i < w) && row.getLsbD (c * w + i)) := by
  simp [BitVec.getLsbD_extractLsb']

theorem setElem_getLsbD (row : Row) (w c v i : Nat) (hi : i < 8192) :
    (setElem row w c v).getLsbD i =
      if c * w ≤ i ∧ i < c * w + w then (v % 2 ^ w).testBit (i - c * w) else row.getLsbD i := by
  unfold setElem
  simp only [BitVec.getLsbD_or, BitVec.getLsbD_and, BitVec.getLsbD_not, BitVec.getLsbD_shiftLeft, BitVec.getLsbD_ofNat, hi,
    decide_true, Bool.true_and]
  by_cases h1 : i < c * w
  · have : ¬ (c * w ≤ i ∧ i < c * w + w) := by omega
    simp [h1, this]
  · by_cases h2 : i < c * w + w
    · have h3 : c * w ≤ i ∧ i < c * w + w := by omega
      have h4 : i - c * w < w := by omega
      have h5 : i - c * w < 8192 := by omega
      simp [h1, h3, h4, h5, Nat.testBit_two_pow_sub_one, Nat.testBit_mod_two_pow]
    · have h3 : ¬ (c * w ≤ i ∧ i < c * w + w) := by omega
      have h4 : ¬ (i - c * w < w) := by omega
      simp [h1, h3, h4, Nat.testBit_two_pow_sub_one, Nat.testBit_mod_two_pow]

theorem elem_setElem_same (row : Row) (w c v : Nat) (h : (c + 1) * w ≤ 8192) : elem (setElem row w c v) w c = v % 2 ^ w := by
  have hw : (c + 1) * w = c * w + w := by rw [Nat.add_mul, Nat.one_mul]
  apply Nat.eq_of_testBit_eq
  intro i
  unfold elem
  rw [← BitVec.getLsbD, BitVec.getLsbD_extractLsb']
  by_cases hi : i < w
  · rw [setElem_getLsbD _ _ _ _ _ (by omega)]
    have : c * w ≤ c * w + i ∧ c * w + i < c * w + w := by omega
    simp [hi, this]
  · have : v % 2 ^ w < 2 ^ i := Nat.lt_of_lt_of_le (Nat.mod_lt _ (Nat.two_pow_pos w)) (Nat.pow_le_pow_right (by omega) (by omega))
    simp [hi, Nat.testBit_lt_two_pow this]

theorem elem_setElem_other (row : Row) (w c c' v : Nat) (h : c ≠ c') : elem (setElem row w c v) w c' = elem row w c' := by
  apply Nat.eq_of_testBit_eq
  intro i
  unfold elem
  rw [← BitVec.getLsbD, ← BitVec.getLsbD, BitVec.getLsbD_extractLsb', BitVec.getLsbD_extractLsb']
  by_cases hi : i < w
  · by_cases hb : c' * w + i < 8192
    · rw [setElem_getLsbD _ _ _ _ _ hb]
      have : ¬ (c * w ≤ c' * w + i ∧ c' * w + i < c * w + w) := by
        rcases Nat.lt_or_gt_of_ne h with h | h
        · have := Nat.mul_le_mul_right w (Nat.succ_le_of_lt h)
          rw [Nat.succ_mul] at this; omega
        · have := Nat.mul_le_mul_right w (Nat.succ_le_of_lt h)
          rw [Nat.succ_mul] at this; omega
      simp [hi, this]
    · simp [BitVec.getLsbD_of_ge _ _ (Nat.le_of_not_lt hb)]
  · simp [hi]

/-- One element of a row after a fold of writes to its columns. -/
theorem evalRow_elem (w cols : Nat) (old : Row) (f : Nat → Option (Nat × Flags)) (c : Nat) (h : (c + 1) * w ≤ 8192) :
    elem (evalRow w cols old f).1 w c =
      match (if c < cols then f c else none) with
      | some (v, _) => v % 2 ^ w
      | none => elem old w c := by
  induction cols with
  | zero => simp [evalRow]
  | succ n ih =>
    unfold evalRow at ih ⊢
    rw [List.range_succ, List.foldl_append]
    simp only [List.foldl_cons, List.foldl_nil]
    by_cases hc : c = n
    · subst hc
      cases hf : f c with
      | none => simp at ih ⊢; exact ih
      | some p => simp [elem_setElem_same _ _ _ _ h]
    · have hlt : (c < n + 1) ↔ c < n := by omega
      simp only [hlt]
      cases hf : f n with
      | none => simpa using ih
      | some p => simpa [elem_setElem_other _ _ _ _ _ (Ne.symm hc)] using ih

/-- The flags of a row. -/
theorem evalRow_flag (w cols : Nat) (old : Row) (f : Nat → Option (Nat × Flags)) (b : Nat) :
    (evalRow w cols old f).2.getLsbD b = true ↔ ∃ c v fl, c < cols ∧ f c = some (v, fl) ∧ fl.getLsbD b = true := by
  induction cols with
  | zero => simp [evalRow]
  | succ n ih =>
    unfold evalRow at ih ⊢
    rw [List.range_succ, List.foldl_append]
    simp only [List.foldl_cons, List.foldl_nil]
    cases hf : f n with
    | none =>
      rw [ih]
      constructor
      · rintro ⟨c, v, fl, h1, h2⟩; exact ⟨c, v, fl, by omega, h2⟩
      · rintro ⟨c, v, fl, h1, h2, h3⟩
        refine ⟨c, v, fl, ?_, h2, h3⟩
        rcases Nat.lt_or_eq_of_le (Nat.le_of_lt_succ h1) with h | h
        · exact h
        · subst h; rw [hf] at h2; cases h2
    | some p =>
      simp only [BitVec.getLsbD_or, Bool.or_eq_true, ih]
      constructor
      · rintro (⟨c, v, fl, h1, h2⟩ | h)
        · exact ⟨c, v, fl, by omega, h2⟩
        · exact ⟨n, p.1, p.2, by omega, by rw [hf], h⟩
      · rintro ⟨c, v, fl, h1, h2, h3⟩
        rcases Nat.lt_or_eq_of_le (Nat.le_of_lt_succ h1) with h | h
        · exact .inl ⟨c, v, fl, h, h2, h3⟩
        · subst h; rw [hf] at h2; cases h2; exact .inr h3

theorem readRow_writeRow_same (x : Strand) (vd : Spec) (r : Nat) (row : Row) (h : vd.toNat < 0x48) :
    (x.writeRow vd r row).readRow vd r = row := by
  unfold Strand.readRow Strand.writeRow
  by_cases h1 : vd.toNat < 0x40
  · simp only [h1, if_true]; exact vec_get_set_fin _ _ _
  · simp only [h1, h, if_true, if_false]; exact vec_get_set_fin _ _ _

theorem readRow_writeRow_other (x : Strand) (vd : Spec) (r r' rows : Nat) (row : Row) (h : DestOk vd rows) (hr : r < rows)
    (hr' : r' < rows) (hn : r ≠ r') (hb : rows ≤ 64) : (x.writeRow vd r row).readRow vd r' = x.readRow vd r' := by
  unfold Strand.readRow Strand.writeRow
  by_cases h1 : vd.toNat < 0x40
  · simp only [h1, if_true]
    refine vec_get_set_other _ _ _ _ _ ?_
    show (vd.toNat + r) % 64 ≠ (vd.toNat + r') % 64
    omega
  · rcases h with h | ⟨h, h8⟩
    · exact absurd h h1
    · simp only [h1, h, if_true, if_false]
      refine vec_get_set_other _ _ _ _ _ ?_
      show (vd.toNat - 0x40 + r) % 8 ≠ (vd.toNat - 0x40 + r') % 8
      omega

/-- A written row leaves every other register. -/
theorem writeRow_keeps (x : Strand) (vd : Spec) (r rows : Nat) (row : Row) (h : vd.toNat < 0x48) (hr : r < rows) :
    KeepsRows x (x.writeRow vd r row) vd rows := by
  unfold Strand.writeRow
  by_cases h1 : vd.toNat < 0x40
  · simp only [h1, if_true]
    exact ⟨fun n hn => vec_get_set_other _ _ (fin 64 (vd.toNat + r)).isLt _ _ fun he => hn ⟨h1, r, hr, Fin.ext he⟩, fun _ _ => rfl⟩
  · simp only [h1, h, if_true, if_false]
    exact ⟨fun _ _ => rfl, fun n hn => vec_get_set_other _ _ (fin 8 (vd.toNat - 0x40 + r)).isLt _ _ fun he => hn ⟨by omega, r, hr, Fin.ext he⟩⟩

/-- The strand that writing a row leaves, but for the two register files. -/
theorem writeRow_rest (x : Strand) (vd : Spec) (r : Nat) (row : Row) :
    x.writeRow vd r row = { x with v := (x.writeRow vd r row).v, o := (x.writeRow vd r row).o } := by
  unfold Strand.writeRow
  by_cases h1 : vd.toNat < 0x40
  · simp only [h1, if_true]
  · by_cases h2 : vd.toNat < 0x48
    · simp only [h1, h2, if_true, if_false]
    · simp only [h1, h2, if_false]

theorem KeepsRows.trans {x y z : Strand} {vd : Spec} {rows : Nat} (h1 : KeepsRows x y vd rows) (h2 : KeepsRows y z vd rows) :
    KeepsRows x z vd rows := ⟨fun n hn => (h2.v n hn).trans (h1.v n hn), fun n hn => (h2.o n hn).trans (h1.o n hn)⟩

theorem KeepsRows.mono {x y : Strand} {vd : Spec} {n m : Nat} (h : KeepsRows x y vd n) (hm : n ≤ m) : KeepsRows x y vd m :=
  ⟨fun i hi => h.v i fun ⟨a, r, hr, e⟩ => hi ⟨a, r, by omega, e⟩, fun i hi => h.o i fun ⟨a, r, hr, e⟩ => hi ⟨a, r, by omega, e⟩⟩

/-- What the rows of a group hold while a fold over them is on its way, and the flags gathered. -/
theorem writeGroup_rows (x : Strand) (vd : Spec) (w rows cols : Nat) (f : Nat → Nat → Option (Nat × Flags)) (hd : DestOk vd rows)
    (hb : rows ≤ 64) (n : Nat) (hn : n ≤ rows) :
    let res := x.writeGroup vd w n cols f
    (∀ r, r < rows → res.1.readRow vd r = if r < n then (evalRow w cols (x.readRow vd r) (f r)).1 else x.readRow vd r)
    ∧ KeepsRows x res.1 vd n ∧ res.1 = { x with v := res.1.v, o := res.1.o }
    ∧ (∀ b, res.2.getLsbD b = true ↔ ∃ r, r < n ∧ (evalRow w cols (x.readRow vd r) (f r)).2.getLsbD b = true) := by
  have hv : vd.toNat < 0x48 := by rcases hd with h | h <;> omega
  induction n with
  | zero => simp only [Strand.writeGroup, List.range_zero, List.foldl_nil]; exact ⟨by simp, ⟨fun _ _ => rfl, fun _ _ => rfl⟩, trivial, by simp⟩
  | succ n ih =>
    obtain ⟨h1, h2, h3, h4⟩ := ih (by omega)
    have hstep : x.writeGroup vd w (n + 1) cols f =
        ((x.writeGroup vd w n cols f).1.writeRow vd n (evalRow w cols (x.readRow vd n) (f n)).1,
          (x.writeGroup vd w n cols f).2 ||| (evalRow w cols (x.readRow vd n) (f n)).2) := by
      simp only [Strand.writeGroup]
      rw [List.range_succ, List.foldl_append]
      rfl
    rw [hstep]
    refine ⟨?_, ?_, ?_, ?_⟩
    · intro r hr
      by_cases he : r = n
      · subst he
        rw [readRow_writeRow_same _ _ _ _ hv]; simp
      · rw [readRow_writeRow_other _ _ _ _ rows _ hd (by omega) hr (fun e => he e.symm) hb, h1 r hr]
        have : (r < n + 1) ↔ r < n := by omega
        simp only [this]
    · exact (h2.mono (by omega)).trans (writeRow_keeps _ _ _ _ _ hv (by omega))
    · rw [writeRow_rest]; simp only; rw [h3]
    · intro b
      simp only [BitVec.getLsbD_or, Bool.or_eq_true, h4]
      constructor
      · rintro (⟨r, hr, h⟩ | h)
        · exact ⟨r, by omega, h⟩
        · exact ⟨n, by omega, h⟩
      · rintro ⟨r, hr, h⟩
        by_cases he : r = n
        · subst he; exact .inr h
        · exact .inl ⟨r, by omega, h⟩

/-- R196: what writing a destination group over the grant does: its elements, its flags, and nothing beside the two register files. -/
theorem writeGroup_spec (x : Strand) (vd : Spec) (w rows cols : Nat) (f : Nat → Nat → Option (Nat × Flags)) (hd : DestOk vd rows)
    (hb : rows ≤ 64) :
    let res := x.writeGroup vd w rows cols f
    Wrote x res.1 vd w rows cols (fun r c => (f r c).map fun p => p.1)
    ∧ res.1 = { x with v := res.1.v, o := res.1.o }
    ∧ (∀ b, res.2.getLsbD b = true ↔ ∃ r c v fl, r < rows ∧ c < cols ∧ f r c = some (v, fl) ∧ fl.getLsbD b = true) := by
  obtain ⟨h1, h2, h3, h4⟩ := writeGroup_rows x vd w rows cols f hd hb rows (Nat.le_refl _)
  refine ⟨⟨?_, ?_, h2⟩, h3, ?_⟩
  · intro r c hr hc hw
    rw [h1 r hr]
    simp only [hr, if_true]
    rw [evalRow_elem _ _ _ _ _ hw]
    simp only [hc, if_true]
    cases f r c <;> rfl
  · intro r c hr hc hw
    rw [h1 r hr]
    simp only [hr, if_true]
    rw [evalRow_elem _ _ _ _ _ hw]
    have : ¬ c < cols := by omega
    simp only [this, if_false]
  · intro b
    rw [h4]
    constructor
    · rintro ⟨r, hr, h⟩
      obtain ⟨c, v, fl, hc, h5, h6⟩ := (evalRow_flag _ _ _ _ _).1 h
      exact ⟨r, c, v, fl, hr, hc, h5, h6⟩
    · rintro ⟨r, c, v, fl, hr, hc, h5, h6⟩
      exact ⟨r, hr, (evalRow_flag _ _ _ _ _).2 ⟨c, v, fl, hc, h5, h6⟩⟩

/-! ### The front end -/

/-- What every instruction of majors 0x11 to 0x1C does at the front end. -/
theorem exec_formOf {s : State} {st : Fin 4} {k : StreamId} {i : Instr} {f : VForm} (h : s.cur.agent = .stream st k)
    (hf : formOf i = some f) : exec i s = .next (s.frontEnd st k f) := by
  cases i
  case vpf => cases hf; exact onStream_eq h _
  case vpfExt => cases hf; exact onStream_eq h _
  case vld => cases hf; exact onStream_eq h _
  case vlds => cases hf; exact onStream_eq h _
  case vst => cases hf; exact onStream_eq h _
  case vsts => cases hf; exact onStream_eq h _
  case vld2d => cases hf; exact onStream_eq h _
  case vst2d => cases hf; exact onStream_eq h _
  case vldp => cases hf; exact onStream_eq h _
  case vstp => cases hf; exact onStream_eq h _
  case vadd => cases hf; exact onStream_eq h _
  case vaddExt => cases hf; exact onStream_eq h _
  case vsub => cases hf; exact onStream_eq h _
  case vsubExt => cases hf; exact onStream_eq h _
  case vmul => cases hf; exact onStream_eq h _
  case vmulExt => cases hf; exact onStream_eq h _
  case vmulh => cases hf; exact onStream_eq h _
  case vmulhExt => cases hf; exact onStream_eq h _
  case vand => cases hf; exact onStream_eq h _
  case vandExt => cases hf; exact onStream_eq h _
  case vor => cases hf; exact onStream_eq h _
  case vorExt => cases hf; exact onStream_eq h _
  case vxor => cases hf; exact onStream_eq h _
  case vxorExt => cases hf; exact onStream_eq h _
  case vmin => cases hf; exact onStream_eq h _
  case vminExt => cases hf; exact onStream_eq h _
  case vmax => cases hf; exact onStream_eq h _
  case vmaxExt => cases hf; exact onStream_eq h _
  case vsll => cases hf; exact onStream_eq h _
  case vsllExt => cases hf; exact onStream_eq h _
  case vsrl => cases hf; exact onStream_eq h _
  case vsrlExt => cases hf; exact onStream_eq h _
  case vsra => cases hf; exact onStream_eq h _
  case vsraExt => cases hf; exact onStream_eq h _
  case vadds => cases hf; exact onStream_eq h _
  case vaddsExt => cases hf; exact onStream_eq h _
  case vsubs => cases hf; exact onStream_eq h _
  case vsubsExt => cases hf; exact onStream_eq h _
  case vmac => cases hf; exact onStream_eq h _
  case vmacExt => cases hf; exact onStream_eq h _
  case vabsd => cases hf; exact onStream_eq h _
  case vabsdExt => cases hf; exact onStream_eq h _
  case vfadd => cases hf; exact onStream_eq h _
  case vfaddExt => cases hf; exact onStream_eq h _
  case vfsub => cases hf; exact onStream_eq h _
  case vfsubExt => cases hf; exact onStream_eq h _
  case vfmul => cases hf; exact onStream_eq h _
  case vfmulExt => cases hf; exact onStream_eq h _
  case vfma => cases hf; exact onStream_eq h _
  case vfdiv => cases hf; exact onStream_eq h _
  case vfdivExt => cases hf; exact onStream_eq h _
  case vfsqrt => cases hf; exact onStream_eq h _
  case vfsqrtExt => cases hf; exact onStream_eq h _
  case vfmin => cases hf; exact onStream_eq h _
  case vfminExt => cases hf; exact onStream_eq h _
  case vfmax => cases hf; exact onStream_eq h _
  case vfmaxExt => cases hf; exact onStream_eq h _
  case vfsgn => cases hf; exact onStream_eq h _
  case vfsgnExt => cases hf; exact onStream_eq h _
  case vfscl => cases hf; exact onStream_eq h _
  case vfsclExt => cases hf; exact onStream_eq h _
  case vfcls => cases hf; exact onStream_eq h _
  case vfclsExt => cases hf; exact onStream_eq h _
  case vpoly => cases hf; exact onStream_eq h _
  case vpolyExt => cases hf; exact onStream_eq h _
  case vtwos => cases hf; exact onStream_eq h _
  case vtwosExt => cases hf; exact onStream_eq h _
  case vcmp => cases hf; exact onStream_eq h _
  case vcmpExt => cases hf; exact onStream_eq h _
  case vfcmp => cases hf; exact onStream_eq h _
  case vfcmpExt => cases hf; exact onStream_eq h _
  case plog => cases hf; exact onStream_eq h _
  case plogExt => cases hf; exact onStream_eq h _
  case pset => cases hf; exact onStream_eq h _
  case pcnt => cases hf; exact onStream_eq h _
  case pfirst => cases hf; exact onStream_eq h _
  case vsel => cases hf; exact onStream_eq h _
  case vselExt => cases hf; exact onStream_eq h _
  case vcvt => cases hf; exact onStream_eq h _
  case vcvtExt => cases hf; exact onStream_eq h _
  case qnt => cases hf; exact onStream_eq h _
  case qnte => cases hf; exact onStream_eq h _
  case dqnt => cases hf; exact onStream_eq h _
  case vmv => cases hf; exact onStream_eq h _
  case vmvExt => cases hf; exact onStream_eq h _
  case vbcast => cases hf; exact onStream_eq h _
  case vext => cases hf; exact onStream_eq h _
  case vins => cases hf; exact onStream_eq h _
  case vslup => cases hf; exact onStream_eq h _
  case vsldn => cases hf; exact onStream_eq h _
  case vperm => cases hf; exact onStream_eq h _
  case vpermExt => cases hf; exact onStream_eq h _
  case vtrn => cases hf; exact onStream_eq h _
  case vtrnExt => cases hf; exact onStream_eq h _
  case vredsum => cases hf; exact onStream_eq h _
  case vredsumExt => cases hf; exact onStream_eq h _
  case vredmax => cases hf; exact onStream_eq h _
  case vredmaxExt => cases hf; exact onStream_eq h _
  case vredmin => cases hf; exact onStream_eq h _
  case vredminExt => cases hf; exact onStream_eq h _
  case vredcs => cases hf; exact onStream_eq h _
  case vredcsExt => cases hf; exact onStream_eq h _
  case vscan => cases hf; exact onStream_eq h _
  case vcomp => cases hf; exact onStream_eq h _
  case vcompExt => cases hf; exact onStream_eq h _
  case vdig => cases hf; exact onStream_eq h _
  case mma => cases hf; exact onStream_eq h _
  case bld => cases hf; exact onStream_eq h _
  case azero => cases hf; exact onStream_eq h _
  case ard => cases hf; exact onStream_eq h _
  case awr => cases hf; exact onStream_eq h _
  case eptk => cases hf; exact onStream_eq h _
  case bslotPin => cases hf; exact onStream_eq h _
  case bslotUnpin => cases hf; exact onStream_eq h _
  case bslotRelease => cases hf; exact onStream_eq h _
  case bslotQuery => cases hf; exact onStream_eq h _
  case rmbind => cases hf; exact onStream_eq h _
  case rmbindUnbind => cases hf; exact onStream_eq h _
  case rmfire => cases hf; exact onStream_eq h _
  case rmmul => cases hf; exact onStream_eq h _
  case rmjoin => cases hf; exact onStream_eq h _
  case rmmig => cases hf; exact onStream_eq h _
  case rmage => cases hf; exact onStream_eq h _
  case rmqry => cases hf; exact onStream_eq h _
  all_goals cases hf

/-! ### One instruction through an empty queue -/

/-- The front end of an instruction that is alone. -/
theorem frontEnd_ready {s : State} {st : Fin 4} {f : VForm} (h : Ready s st f) :
    s.frontEnd st .E f = s.modStrand st fun x =>
      { x with
        viq := [x.capture s.cur.words f]
        e := { x.e with pc := s.nextPc st .E, instret := x.e.instret + 1, age := s.tick
                        status := if (scalarDest f).isSome then .hold else .run } } := by
  obtain ⟨_, hc, he, _, _⟩ := h
  have hE : (StreamId.E == StreamId.A) = false := rfl
  unfold State.frontEnd
  simp only [hE, hc, he, viqDepth, List.length_nil, List.nil_append, State.retire, State.goto, State.wait, State.nextPc, State.instrBytes,
    State.stream, State.strand_modStrand_same, State.modStream, State.modStrand_modStrand, Strand.modStream, Strand.stream,
    State.modStrand_cur, State.modStrand_tick]
  cases hs : (scalarDest f).isSome <;> simp [State.modStrand, he]

/-- Rows of a group do not depend on what lies beside the register files. -/
theorem readRow_files {x y : Strand} {spec : Spec} (r : Nat) (h : spec.toNat < 0x48) (hv : y.v = x.v) (ho : y.o = x.o) :
    y.readRow spec r = x.readRow spec r := by
  unfold Strand.readRow
  by_cases h1 : spec.toNat < 0x40
  · simp only [h1, if_true, hv]
  · simp only [h1, h, if_true, if_false, ho]

/-- A strand whose E-stream runs is in no deadlock. -/
theorem checkDead_running {s : State} {st : Fin 4} (h : (s.strand st).e.status = .run) : s.checkDead st = s := by
  unfold State.checkDead
  have : (s.strand st).deadlocked = false := by
    simp [Strand.deadlocked, Stream.over, Strand.blockedOn, Strand.stream, h]
  simp [this]

/-- The shift of the last-result file adds no register of the frame to those with poisoned data. -/
theorem mem_of_mem_shiftBad {f : VForm} {g b : Nat} {bad : List Nat} (h : b ∈ shiftBad f g bad) (hb : b < 80) : b ∈ bad := by
  have hrow : ∀ (t : Nat) (spec : Spec) (q : Nat → Bool), 80 ≤ t →
      b ∉ (List.range g).filterMap fun r => if decide (spec.toNat < 64) && q (spec.toNat + r) then some (t + r) else none := by
    intro t spec q ht hm
    obtain ⟨r, -, hr⟩ := List.mem_filterMap.1 hm
    split at hr
    · have := Option.some.inj hr; omega
    · cases hr
  have hmap : b ∉ (bad.filter fun b => decide (80 ≤ b) && decide (b < 96)).map fun b => b + 16 := by
    intro hm
    obtain ⟨c, hc, he⟩ := List.mem_map.1 hm
    have := (List.mem_filter.1 hc).2
    simp at this
    omega
  have hregs : b ∈ (bad.filter fun b => b < 80) → b ∈ bad := fun hm => (List.mem_filter.1 hm).1
  unfold shiftBad at h
  dsimp only at h
  split at h
  · exact h
  · rcases List.mem_append.1 h with h | h
    · rcases List.mem_append.1 h with h | h
      · exact hregs h
      · exact absurd h (hrow 80 _ _ (Nat.le_refl _))
    · exact absurd h hmap
  · rcases List.mem_append.1 h with h | h
    · rcases List.mem_append.1 h with h | h
      · exact hregs h
      · exact absurd h (hrow 80 _ _ (Nat.le_refl _))
    · exact absurd h (hrow 96 _ _ (by omega))
  · exact hregs h

/-- A strand replaced by itself. -/
theorem State.modStrand_eq (s : State) (st : Fin 4) (f : Strand → Strand) (h : f (s.strand st) = s.strand st) : s.modStrand st f = s := by
  unfold State.modStrand
  rw [h]
  show { s with strands := s.strands.set st.val s.strands[st.val] st.isLt } = s
  rw [Vector.set_getElem_self]

/-- What a commit does to the poison of the register die: it changes that record alone, and adds no register of the frame to it. -/
theorem State.settleBad_spec (t s : State) (st : Fin 4) (e : VEntry) (h : (t.strand st).bad = (s.strand st).bad) :
    ∃ bad, t.settleBad s st e = t.modStrand st (fun x => { x with bad := bad }) ∧ ∀ b ∈ bad, b < 80 → b ∈ (s.strand st).bad := by
  unfold State.settleBad
  split
  · exact ⟨(s.strand st).bad, (t.modStrand_eq st _ (by rw [← h])).symm, fun b hb _ => hb⟩
  · exact ⟨_, rfl, fun b hb hlt => (List.mem_filter.1 (mem_of_mem_shiftBad hb hlt)).1⟩

/-- R197: the commit of an instruction that is alone and answers with results. -/
theorem commits_of_done {s : State} {st : Fin 4} {i : Instr} {f : VForm} {y : Strand} {rd : W64} (hr : Ready s st f)
    (hf : formOf i = some f) (s1 : State) (hs1 : s1 = s.frontEnd st .E f) (e : VEntry)
    (he : e = (s.strand st).capture s.cur.words f)
    (hc : s1.commitEntry st e = s1.settleEntry st e (.done y rd))
    (hy : ∃ v p o k vstatus vstart mask skip frec vflags, y = { s1.strand st with
      v := v, p := p, o := o, k := k, vstatus := vstatus, vstart := vstart, mask := mask, skip := skip, frec := frec, vflags := vflags }
      ∧ (if memForm f then vstart = 0 ∧ mask = 0 ∧ skip = 0 ∧ vflags = 0
        else vstart = (s.strand st).vstart ∧ mask = (s.strand st).mask ∧ skip = (s.strand st).skip ∧ frec = (s.strand st).frec
          ∧ vflags = (s.strand st).vflags)) :
    ∃ u, Commits s st i u ∧ VecRest s u st f ∧ (u.strand st).v = y.v ∧ (u.strand st).p = y.p ∧ (u.strand st).o = y.o
      ∧ (u.strand st).k = y.k ∧ (u.strand st).vstatus = y.vstatus
      ∧ ∀ r, scalarDest f = some r → u.readX st .E r = if r = 0 then 0 else rd := by
  have hfront := frontEnd_ready hr
  rw [hfront] at hs1
  have hx1 : s1.strand st = { s.strand st with
      viq := [e]
      e := { (s.strand st).e with pc := s.nextPc st .E, instret := (s.strand st).e.instret + 1, age := s.tick
                                  status := if (scalarDest f).isSome then .hold else .run } } := by
    rw [hs1, State.strand_modStrand_same, he]
  have hviq : (s1.strand st).viq = [e] := by rw [hx1]
  have hhalt : (s1.strand st).halt = .none := by rw [hx1]; exact hr.active
  have hbad : (s1.strand st).readsBad e = false := by
    have hx : (s1.strand st).bad = (s.strand st).bad := by rw [hx1]
    have := hr.sound
    rw [← he] at this
    simpa only [Strand.readsBad, hx] using this
  have hill : e.ill = none := by rw [he]; rfl
  have hform : e.form = f := by rw [he]; rfl
  have hvt : e.vtype = (s.strand st).vtype := by rw [he]; rfl
  obtain ⟨v, p, o, k, vs, vstart, mask, skip, frec, vflags, hy, hm⟩ := hy
  have hdone : s1.finish st e y rd = s.modStrand st fun _ => y.commit e rd s1.tick := by
    show s1.modStrand st _ = _
    rw [hs1, State.modStrand_modStrand]
  have hold : ((s1.finish st e y rd).strand st).bad = (s1.strand st).bad := by
    rw [hdone, State.strand_modStrand_same]; unfold Strand.commit; rw [hy]
    cases scalarDest e.form <;> cases shiftsLast e.form <;> rfl
  obtain ⟨bad, hsettle, hin⟩ := State.settleBad_spec _ s1 st e hold
  have hbad1 : (s1.strand st).bad = (s.strand st).bad := by rw [hx1]
  rw [hbad1] at hin
  rw [hdone, State.modStrand_modStrand] at hsettle
  obtain ⟨u, hu0⟩ : ∃ u, u = (s1.finish st e y rd).settleBad s1 st e := ⟨_, rfl⟩
  have hu : u = s.modStrand st fun _ => { y.commit e rd s1.tick with bad := bad } := by rw [hu0, hdone, hsettle]
  have hus : u.strand st = { y.commit e rd s1.tick with bad := bad } := by rw [hu, State.strand_modStrand_same]
  have hstat : (y.commit e rd s1.tick).e.status = .run := by
    unfold Strand.commit
    cases hsd : scalarDest f with
    | none => rw [hform, hsd, hy, hx1]; cases shiftsLast f <;> simp [hsd, Strand.shiftLast, Strand.bankStep]
    | some r => rw [hform, hsd, hy, hx1]; cases shiftsLast f <;> simp [hsd, Strand.shiftLast, Strand.bankStep]
  have hcommit : exec (.viqCommit st) s1 = .next u := by
    show execViqCommit st s1 = _
    unfold execViqCommit
    simp only [hviq, hhalt, hill, hbad]
    rw [hc]
    show Host.Outcome.next (((s1.finish st e y rd).settleBad s1 st e).checkDead st) = _
    rw [← hu0]
    rw [checkDead_running (by rw [hus]; exact hstat)]
  refine ⟨u, ⟨s1, ?_, hcommit⟩, ?_, ?_⟩
  · rw [exec_formOf hr.agent hf, hfront, hs1]
  · have hfile : ∀ spec r, spec.toNat < 0x48 → (u.strand st).readRow spec r = y.readRow spec r := by
      intro spec r hsp
      refine readRow_files r hsp ?_ ?_ <;> rw [hus] <;> unfold Strand.commit <;>
        cases scalarDest e.form <;> cases shiftsLast e.form <;> rfl
    refine ⟨⟨?_, ?_, ?_, ?_, ?_, ?_, ?_, ?_, ?_, ?_⟩, by rw [OnlyStrand, hus]; exact hu⟩
    · rw [hus]; unfold Strand.commit; rw [hy, hx1]
      cases scalarDest e.form <;> cases shiftsLast e.form <;> rfl
    · rw [State.stream, Strand.stream, hus]; unfold Strand.commit; rw [hy, hx1]
      cases scalarDest e.form <;> cases shiftsLast e.form <;> simp [Strand.shiftLast, Strand.bankStep]
    · rw [State.stream, Strand.stream, hus]; unfold Strand.commit; rw [hy, hx1]
      cases scalarDest e.form <;> cases shiftsLast e.form <;> simp [Strand.shiftLast, Strand.bankStep, State.stream, Strand.stream]
    · rw [State.stream, Strand.stream, hus]; exact hstat
    · rw [State.stream, Strand.stream, hus]; unfold Strand.commit; rw [hy, hx1]
      cases scalarDest e.form <;> cases shiftsLast e.form <;> simp [Strand.shiftLast, Strand.bankStep, State.stream, Strand.stream]
    · intro r hne
      rw [State.readX, State.readX, State.stream, State.stream, Strand.stream, Strand.stream, hus]; unfold Strand.commit
      rw [hform, hy, hx1]
      cases hsd : scalarDest f with
      | none => cases shiftsLast f <;> rfl
      | some q =>
        have hq : r ≠ q := fun h => hne (by rw [hsd, h])
        cases shiftsLast f <;> simp [Strand.shiftLast, Strand.bankStep] <;> exact Stream.readX_writeX_other _ _ _ _ hq
    · cases hsh : shiftsLast f with
      | true =>
        simp only [if_true]
        refine ⟨?_, fun hd => ?_⟩
        · rw [hus]; unfold Strand.commit; rw [hform, hsh, hy, hx1]
          cases scalarDest f <;> simp [Strand.shiftLast, Strand.bankStep]
        · have : (u.strand st).l0 = (List.range (vtG (s.strand st).vtype)).map fun r => y.readRow (destOf f) r := by
            rw [hus]; unfold Strand.commit; rw [hform, hsh, hvt]
            cases scalarDest f <;> exact List.map_congr_left fun r _ => readRow_files r hd rfl rfl
          rw [this]
          exact List.map_congr_left fun r _ => (hfile _ _ hd).symm
      | false =>
        simp only [Bool.false_eq_true, if_false]
        rw [hus]; unfold Strand.commit; rw [hform, hsh, hy, hx1]
        cases scalarDest f <;> exact ⟨rfl, rfl⟩
    · have : (u.strand st).vstart = vstart ∧ (u.strand st).mask = mask ∧ (u.strand st).skip = skip ∧ (u.strand st).frec = frec
          ∧ (u.strand st).vflags = vflags := by
        rw [hus]; unfold Strand.commit; rw [hy, hx1]
        cases scalarDest e.form <;> cases shiftsLast e.form <;> exact ⟨rfl, rfl, rfl, rfl, rfl⟩
      obtain ⟨h1, h2, h3, h4, h5⟩ := this
      rw [h1, h2, h3, h4, h5]
      exact hm
    · rw [hus]; exact hin
    · rw [hus]; unfold Strand.commit; rw [hy, hx1]
      cases scalarDest e.form <;> cases shiftsLast e.form <;> (iterate 16 apply Exists.intro) <;> rfl
  · rw [hus]
    refine ⟨?_, ?_, ?_, ?_, ?_, ?_⟩
    iterate 5 (unfold Strand.commit; cases scalarDest e.form <;> cases shiftsLast e.form <;> rfl)
    intro r hsd
    rw [State.readX, State.stream, Strand.stream, hus]; unfold Strand.commit
    rw [hform, hsd]
    cases shiftsLast f <;> exact Stream.readX_writeX_same _ _ _

/-- The element loop of R196. -/
theorem lanes_spec {x : Strand} {e : VEntry} {o : VOp} {m : Ext} {w : Nat} {f : Nat → Nat → Nat × Flags} (hd : DestOk o.vd x.vlr.toNat)
    (hr : e.vlr = x.vlr) (hc : e.vlc = x.vlc) :
    ∃ y, x.lanes e o m w f = .done y 0 ∧ Lanes x y o.vd m w (fun r c => (f r c).1) ∧ FlagsOf x y m (fun r c => (f r c).2)
      ∧ y = { x with v := y.v, o := y.o, vstatus := y.vstatus } := by
  have hb : x.vlr.toNat ≤ 64 := by have := x.vlr.isLt; omega
  obtain ⟨h1, h2, h3⟩ := writeGroup_spec x o.vd w x.vlr.toNat x.vlc.toNat
    (fun r c => if x.active m r c then some (f r c) else if m.zero then some (0, 0) else none) hd hb
  unfold Strand.lanes VEntry.rows VEntry.cols
  rw [hr, hc]
  refine ⟨_, rfl, ⟨?_, ?_, ?_⟩, ?_, ?_⟩
  · intro r c hr hc hw
    have := h1.grant r c hr hc hw
    refine Eq.trans this ?_
    cases x.active m r c <;> cases m.zero <;> rfl
  · exact h1.beyond
  · exact ⟨h1.keeps.v, h1.keeps.o⟩
  · intro b
    show ((x.writeGroup _ _ _ _ _).1.vstatus ||| _).getLsbD b = true ↔ _
    rw [h2]
    simp only [BitVec.getLsbD_or, Bool.or_eq_true, BitVec.getLsbD_setWidth, Bool.and_eq_true, decide_eq_true_eq]
    constructor
    · rintro (h | ⟨_, h⟩)
      · exact .inl h
      · obtain ⟨r, c, v, fl, hr, hc, he, hf⟩ := (h3 b).1 h
        refine .inr ⟨r, c, hr, hc, ?_⟩
        cases ha : x.active m r c with
        | true => rw [ha] at he; exact ⟨rfl, by rw [Option.some.inj he]; exact hf⟩
        | false =>
          rw [ha] at he
          cases hz : m.zero with
          | true => rw [hz] at he; cases he; simp at hf
          | false => rw [hz] at he; cases he
    · rintro (h | ⟨r, c, hr, hc, ha, hf⟩)
      · exact .inl h
      · have hb' : b < 5 := BitVec.lt_of_getLsbD hf
        exact .inr ⟨by omega, (h3 b).2 ⟨r, c, (f r c).1, (f r c).2, hr, hc, by rw [ha]; rfl, hf⟩⟩
  · simp only [Strand.orFlags]; rw [h2]

end Sys2Proof.Machine
end

