-- ==== Sys2Proof/Tests/Slice0.lean ====
section
/-! SUPPORT. Tests: ill-formed terms that WellFormed refuses, words written out from the spec's encodings, one step of some
instructions, and for each statement a state and operands that meet its hypotheses. -/

namespace Sys2Proof.Tests

open Sys2Proof.Machine

-- one theorem after another: in parallel, their threads take more memory than the check allows
set_option Elab.async false

/-! ### Small states -/

/-- Whether a translation answers a value. -/
def isOk {ε α : Type} [DecidableEq α] (e : Except ε α) (v : α) : Bool :=
  match e with
  | .ok a => decide (a = v)
  | .error _ => false

theorem ok_of {ε α : Type} [DecidableEq α] {e : Except ε α} {v : α} (h : isOk e v = true) : e = .ok v := by
  cases e with
  | ok a => simp only [isOk, decide_eq_true_eq] at h; rw [h]
  | error e => cases h

/-- A vector-map entry: valid, readable and writable (R114). -/
def entry (vpn frame : Nat) : W64 := BitVec.ofNat 64 (7 * 2 ^ 61 + frame * 2 ^ 30 + vpn)

/-- Space 0: page 0 in HBM, page 1 the core's own scratchpad (R101). -/
def space : Space := { asid := 0, key := 0, root := 0x1000, dies := 0xFF, maps := Vector.replicate 8 [entry 0 0, entry 1 (2 ^ 23)] }

/-- A state in which a stream of strand 0 executes, its grant two rows of four FP32 columns, its frame in its own partition. -/
def base (k : StreamId) (f : Strand → Strand) : State :=
  { ((State.reset.place []).modStrand 0 fun x => f { x with
      tvec := 0x2000, tframe := 0x40000000, spsize := 0x10000, vtype := 0x203, vlr := 2, vlc := 4
      a := { x.a with status := .run }, e := { x.e with status := .run } }) with
    cur := { agent := .stream 0 k, words := [] }, spaces := [space] }

/-- A register of both streams. -/
def setX (r : Fin 32) (v : W64) (x : Strand) : Strand :=
  { x with a := { x.a with x := x.a.x.set r.val v r.isLt }, e := { x.e with x := x.e.x.set r.val v r.isLt } }

/-- The lines of the frame. -/
def lines : List Nat := (List.range 160).map fun i => 2 ^ 52 + 64 * i

theorem canTrap_base (k : StreamId) : CanTrap (base k id) 0 lines := by
  cases k <;> refine ⟨⟨?_, ?_, ?_, ?_, ok_of ?_, ?_⟩, ?_⟩ <;> decide +kernel

/-! ### Ill-formed terms, one for each check of WellFormed -/

theorem test_wf_registers : Instr.wf (.qsend 6 1) = false ∧ Instr.wf (.qrecv 1 7) = false ∧ Instr.wf (.qsendb 5 1) = false
    ∧ Instr.wf (.sysr 1 3) = false ∧ Instr.wf (.sysw 0x105 1) = false ∧ Instr.wf (.coefld 3 1) = false := by decide

theorem test_wf_plats : Instr.wf (.platmk 1 2 3 4 5 false 9) = false ∧ Instr.wf (.plats false .last .u32 false 0 1 2 3 4 5) = false
    ∧ Instr.wf (.plats false .swap .f32 false 0 1 2 3 4 5) = false ∧ Instr.wf (.plats false .add .f32 false 9 1 2 3 4 5) = false := by
  decide

/-- Specifiers (R60, R61): a last-result row as a destination, an unassigned number, a predicate beyond 15, an operand-file destination. -/
theorem test_wf_specifiers : Instr.wf (.vadd { vd := 0x60, vs1 := 0, vs2 := 0 }) = false
    ∧ Instr.wf (.vadd { vd := 0, vs1 := 0x48, vs2 := 0 }) = false ∧ Instr.wf (.vcmp { vd := 16, vs1 := 0, vs2 := 0 }) = false
    ∧ Instr.wf (.vpf 8 0) = false ∧ Instr.wf (.vpf 0x40 0x42) = false ∧ Instr.wf (.rmfire 0x62 0) = false
    ∧ Instr.wf (.rmmul false 0 1 0x7F 0 0) = false ∧ Instr.wf (.vfma { vd := 0, vs1 := 0, vs2 := 0 } { Ext.base with vs3 := 0x50 }) = false := by
  decide

/-- Reserved fields (R68, 0x03): one that the function does not use. -/
theorem test_wf_reserved : Instr.wf (.vmv { vd := 0, vs1 := 0, vs2 := 1 }) = false
    ∧ Instr.wf (.vaddExt { vd := 0, vs1 := 0, vs2 := 0 } { Ext.base with xs := 1 }) = false
    ∧ Instr.wf (.vaddExt { vd := 0, vs1 := 0, vs2 := 0 } { Ext.base with xs2 := 1 }) = false
    ∧ Instr.wf (.vandExt { vd := 0, vs1 := 0, vs2 := 0 } { Ext.base with sat := true }) = false
    ∧ Instr.wf (.vaddExt { vd := 0, vs1 := 0, vs2 := 0 } { Ext.base with tix := 1 }) = false
    ∧ Instr.wf (.vaddExt { vd := 0, vs1 := 0, vs2 := 0 } { Ext.base with na := true }) = false
    ∧ Instr.wf (.vaddExt { vd := 0, vs1 := 0, vs2 := 0 } { Ext.base with ad := true }) = false
    ∧ Instr.wf (.vaddExt { vd := 0, vs1 := 0, vs2 := 0 } { Ext.base with vs3 := 1 }) = false
    ∧ Instr.wf (.vselExt { vd := 0, vs1 := 0, vs2 := 0 } { Ext.base with zero := true }) = false
    ∧ Instr.wf (.azero { vd := 0, vs1 := 0, vs2 := 0 } { Ext.base with p := 1 }) = false
    ∧ Instr.wf (.azero { vd := 0, vs1 := 0, vs2 := 0 } { Ext.base with fx := 1 }) = false
    ∧ Instr.wf (.azero { vd := 0, vs1 := 0, vs2 := 0 } { Ext.base with rep1 := { en := true, size := 0, idx := 0 } }) = false
    ∧ Instr.wf (.bld { vd := 0, vs1 := 32, vs2 := 0 } Ext.base) = false
    ∧ Instr.wf (.vldp 0 { disp := some 0, zero := false, inv := false, p := 0, xs2 := 0, xs := 0 }) = false := by decide

/-- Reserved combinations (R63, R64; 0x08) and unassigned function extensions (0x01). -/
theorem test_wf_combinations : Instr.wf (.vaddExt { vd := 0, vs1 := 0, vs2 := 0 } { Ext.base with inv := true }) = false
    ∧ Instr.wf (.vaddExt { vd := 0, vs1 := 0, vs2 := 0 } { Ext.base with rnd := 0 }) = false
    ∧ Instr.wf (.vfaddExt { vd := 0, vs1 := 0, vs2 := 0 } { Ext.base with rnd := 5 }) = false
    ∧ Instr.wf (.vaddExt { vd := 0, vs1 := 0, vs2 := 0 } { Ext.base with rep1 := { en := false, size := 1, idx := 0 } }) = false
    ∧ Instr.wf (.plogExt { vd := 0, vs1 := 0, vs2 := 0 } { Ext.base with rep2 := { en := true, size := 0, idx := 0 } }) = false
    ∧ Instr.wf (.vaddExt { vd := 0, vs1 := 0, vs2 := 0 } { Ext.base with fx := 2 }) = false
    ∧ Instr.wf (.vstp 0 { disp := none, zero := false, inv := false, p := 0, xs2 := 0, xs := 0 } 7 (.arith 0 1)) = false
    ∧ Instr.wf (.mma { vd := 0, vs1 := 0, vs2 := 0 } { Ext.base with fx := 1 }) = false
    ∧ Instr.wf (.vfma { vd := 0, vs1 := 0, vs2 := 0 } Ext.base) = true := by decide

/-! ### Words written out from the spec's encodings (R54, R58, R62 to R67, the entries' tables and worked encodings) -/

/-- Whether words decode to an instruction. -/
noncomputable def reads (ws : List Nat) (i : Instr) : Bool :=
  match decode (ws.map (BitVec.ofNat 32)) with
  | .ok j => decide (j = i)
  | .error _ => false

/-- Whether words are refused with a subcode. -/
noncomputable def refuses (ws : List Nat) (sub : Byte) : Bool :=
  match decode (ws.map (BitVec.ofNat 32)) with
  | .error (.code c) => decide (c = sub)
  | _ => false

theorem test_words_salu : ([
    reads [0x001CC504] (.add false 5 6 7),
    reads [0x801CC504] (.add true 5 6 7),
    reads [0x009CC504] (.sub false 5 6 7),
    reads [0x809CC504] (.sub true 5 6 7),
    reads [0x011CC504] (.and false 5 6 7),
    reads [0x811CC504] (.and true 5 6 7),
    reads [0x019CC504] (.or false 5 6 7),
    reads [0x819CC504] (.or true 5 6 7),
    reads [0x021CC504] (.xor false 5 6 7),
    reads [0x821CC504] (.xor true 5 6 7),
    reads [0x029CC504] (.sll false 5 6 7),
    reads [0x829CC504] (.sll true 5 6 7),
    reads [0x031CC504] (.srl false 5 6 7),
    reads [0x831CC504] (.srl true 5 6 7),
    reads [0x039CC504] (.sra false 5 6 7),
    reads [0x839CC504] (.sra true 5 6 7),
    reads [0x041CC504] (.mul false 5 6 7),
    reads [0x841CC504] (.mul true 5 6 7),
    reads [0x049CC504] (.mulh 5 6 7),
    reads [0x051CC504] (.mulhu 5 6 7),
    reads [0x059CC504] (.div false 5 6 7),
    reads [0x859CC504] (.div true 5 6 7),
    reads [0x061CC504] (.divu false 5 6 7),
    reads [0x861CC504] (.divu true 5 6 7),
    reads [0x069CC504] (.rem false 5 6 7),
    reads [0x869CC504] (.rem true 5 6 7),
    reads [0x071CC504] (.remu false 5 6 7),
    reads [0x871CC504] (.remu true 5 6 7),
    reads [0x079CC504] (.min 5 6 7),
    reads [0x081CC504] (.max 5 6 7),
    reads [0x089CC504] (.minu 5 6 7),
    reads [0x091CC504] (.maxu 5 6 7),
    reads [0x099CC504] (.slt 5 6 7),
    reads [0x0A1CC504] (.sltu 5 6 7),
    reads [0x0A80C504] (.clz 5 6),
    reads [0x0B00C504] (.ctz 5 6),
    reads [0x0B80C504] (.popc 5 6),
    reads [0x0C1CC504] (.rol 5 6 7),
    reads [0x0C9CC504] (.ror 5 6 7)] : List Bool).all id = true := by decide +kernel

theorem test_words_salui : ([
    reads [0xFF00C508] (.addi 5 6 0x7F8),
    reads [0x0000C509, 0x9ABCDEF0, 0x12345678] (.addiLit 5 6 0x123456789ABCDEF0),
    reads [0xFF04C508] (.andi 5 6 0x7F8),
    reads [0x0004C509, 0x9ABCDEF0, 0x12345678] (.andiLit 5 6 0x123456789ABCDEF0),
    reads [0xFF08C508] (.ori 5 6 0x7F8),
    reads [0x0008C509, 0x9ABCDEF0, 0x12345678] (.oriLit 5 6 0x123456789ABCDEF0),
    reads [0xFF0CC508] (.xori 5 6 0x7F8),
    reads [0x000CC509, 0x9ABCDEF0, 0x12345678] (.xoriLit 5 6 0x123456789ABCDEF0),
    reads [0xFF10C508] (.slti 5 6 0x7F8),
    reads [0x0010C509, 0x9ABCDEF0, 0x12345678] (.sltiLit 5 6 0x123456789ABCDEF0),
    reads [0xFF14C508] (.sltiu 5 6 0x7F8),
    reads [0x0014C509, 0x9ABCDEF0, 0x12345678] (.sltiuLit 5 6 0x123456789ABCDEF0),
    reads [0x021C0508] (.addpc 5 0x010),
    reads [0x001C0509, 0x9ABCDEF0, 0x12345678] (.addpcLit 5 0x123456789ABCDEF0),
    reads [0x07E0C50C] (.slli 5 6 63),
    reads [0x07E4C50C] (.srli 5 6 63),
    reads [0x07E8C50C] (.srai 5 6 63),
    reads [0x07F0C50C] (.roli 5 6 63),
    reads [0x800C050C] (.ldi 5 0x400),
    reads [0x000C050D, 0x9ABCDEF0, 0x12345678] (.ldiLit 5 0x123456789ABCDEF0)] : List Bool).all id = true := by decide +kernel

theorem test_words_sfp : ([
    reads [0x001CC510] (.fadd .s 5 6 7),
    reads [0x209CC510] (.fsub .d 5 6 7),
    reads [0x411CC510] (.fmul .h 5 6 7),
    reads [0x619CC510] (.fdiv .bf 5 6 7),
    reads [0x0200C510] (.fsqrt .s 5 6),
    reads [0x229CC510] (.fmin .d 5 6 7),
    reads [0x431CC510] (.fmax .h 5 6 7),
    reads [0x639CC510] (.fma .bf 5 6 7),
    reads [0x041CC510] (.fnma .s 5 6 7),
    reads [0x249CC510] (.feq .d 5 6 7),
    reads [0x451CC510] (.flt .h 5 6 7),
    reads [0x659CC510] (.fle .bf 5 6 7),
    reads [0x061CC510] (.ftole .s 5 6 7),
    reads [0x0680C510] (.fcvti .s .i64 5 6),
    reads [0x2700C510] (.icvtf .d .i64 5 6),
    reads [0x0684C510] (.fcvti .s .u64 5 6),
    reads [0x2704C510] (.icvtf .d .u64 5 6),
    reads [0x0688C510] (.fcvti .s .i32 5 6),
    reads [0x2708C510] (.icvtf .d .i32 5 6),
    reads [0x068CC510] (.fcvti .s .u32 5 6),
    reads [0x270CC510] (.icvtf .d .u32 5 6),
    reads [0x4784C510] (.fcvtf .h .d 5 6),
    reads [0x6800C510] (.fclass .bf 5 6)] : List Bool).all id = true := by decide +kernel

theorem test_words_mem : ([
    reads [0xFF014614] (.ld .b 6 10 0x7F8),
    reads [0xFF054614] (.ld .h 6 10 0x7F8),
    reads [0xFF094614] (.ld .w 6 10 0x7F8),
    reads [0xFF0D4614] (.ld .d 6 10 0x7F8),
    reads [0xFF114614] (.ld .bu 6 10 0x7F8),
    reads [0xFF154614] (.ld .hu 6 10 0x7F8),
    reads [0xFF194614] (.ld .wu 6 10 0x7F8),
    reads [0x000D4615, 0x9ABCDEF0, 0x12345678] (.ldLit .d 6 10 0x123456789ABCDEF0),
    reads [0x02004718] (.st .b 7 2 16),
    reads [0x02044718] (.st .h 7 2 16),
    reads [0x02084718] (.st .w 7 2 16),
    reads [0x020C4718] (.st .d 7 2 16),
    reads [0x00084719, 0x9ABCDEF0, 0x12345678] (.stLit .w 7 2 0x123456789ABCDEF0),
    reads [0x9800C51C] (.lda .dev true 5 6),
    reads [0xA89CC01C] (.stl .dev true 6 7),
    reads [0x611CC51C] (.amoAdd .die .rl false 5 6 7),
    reads [0x799CC51C] (.amoAnd .die .ar true 5 6 7),
    reads [0x821CC51C] (.amoOr .dev .rx false 5 6 7),
    reads [0x9A9CC51C] (.amoXor .dev .aq true 5 6 7),
    reads [0xE31CC51C] (.amoMin .sys .rl false 5 6 7),
    reads [0xFB9CC51C] (.amoMax .sys .ar true 5 6 7),
    reads [0x041CC51C] (.amoMinu .cor .rx false 5 6 7),
    reads [0x1C9CC51C] (.amoMaxu .cor .aq true 5 6 7),
    reads [0x651CC51C] (.amoSwap .die .rl false 5 6 7),
    reads [0x861CC51C] (.cas .dev .rx false 5 6 7),
    reads [0x059CC51C] (.amoFadd32 .cor .rx 5 6 7)] : List Bool).all id = true := by decide +kernel

theorem test_words_flow : ([
    reads [0xFFE0E620] (.br .eq 6 7 0x7FF),
    reads [0xFFE4E620] (.br .ne 6 7 0x7FF),
    reads [0xFFE8E620] (.br .lt 6 7 0x7FF),
    reads [0xFFECE620] (.br .ge 6 7 0x7FF),
    reads [0xFFF0E620] (.br .ltu 6 7 0x7FF),
    reads [0xFFF4E620] (.br .geu 6 7 0x7FF),
    reads [0x0010E621, 0x9ABCDEF0, 0x12345678] (.brLit .ltu 6 7 0x123456789ABCDEF0),
    reads [0x00010124] (.j 1 8),
    reads [0x00000125, 0x9ABCDEF0, 0x12345678] (.jLit 1 0x123456789ABCDEF0),
    reads [0x00002028] (.jr 0 1 0),
    reads [0x00002029, 0x9ABCDEF0, 0x12345678] (.jrLit 0 1 0x123456789ABCDEF0),
    reads [0x00640028] (.brq false 3),
    reads [0x00640128] (.brq true 3),
    reads [0x00040129, 0x9ABCDEF0, 0x12345678] (.brqLit true 0x123456789ABCDEF0),
    reads [0x0009202C] (.qsend 2 9),
    reads [0x0088092C] (.qrecv 9 2),
    reads [0x0118802C] (.qsendb 6 4),
    reads [0x019C052C] (.qcnt 5 7)] : List Bool).all id = true := by decide +kernel

theorem test_words_sys : ([
    reads [0x00C00530] (.sysr 5 0x006),
    reads [0x02652030] (.sysw 0x013 9),
    reads [0x2044E030] (.frset 2 7),
    reads [0x00052030] (.vtypeWrite 9),
    reads [0x00652030] (.vstartWrite 9),
    reads [0x00852030] (.vfcntWrite 9),
    reads [0x00A52030] (.vstatusWrite 9),
    reads [0x02A52030] (.tstatusWrite 9),
    reads [0x00600530] (.vstartRead 5),
    reads [0x00800530] (.vfcntRead 5),
    reads [0x00A00530] (.vstatusRead 5),
    reads [0x00000034] (.nop),
    reads [0x00812034] (.trap 9),
    reads [0x01000034] (.tret),
    reads [0x01800034] (.exit),
    reads [0x02000034] (.bar),
    reads [0x029CC534] (.waitaEq .cor false 5 6 7),
    reads [0x231CC534] (.waitaNe .cor true 5 6 7),
    reads [0x839CC534] (.waitaGeu .dev false 5 6 7),
    reads [0x04000034] (.fence .cor),
    reads [0x040C0034] (.fence .sys),
    reads [0x04800034] (.vfence),
    reads [0x05000034] (.ifence),
    reads [0x0580C034] (.vmfence 6),
    reads [0x06014534] (.lnch 5 10)] : List Bool).all id = true := by decide +kernel

theorem test_words_eng : ([
    reads [0x2000C538] (.enqCopy true 5 6),
    reads [0x0010C538] (.enqNet false 5 6),
    reads [0x208C0538] (.deq true 5 3),
    reads [0x01112038] (.cpw 4 9),
    reads [0x01800738] (.cpgo false 7),
    reads [0x0200C538] (.cpcan 5 6),
    reads [0x029C0538] (.cpr 5 7),
    reads [0x03092038] (.coefld 2 9),
    reads [0x002D453E, 0x00000103, 0x0D600000] (.platmk 5 10 11 12 13 true 3),
    reads [0x20AD453E, 0, 0x0D600000] (.platg true 5 10 11 12 13),
    reads [0x212D453E, 0x00002941, 0x0D600000] (.plats true .add .f32 true 9 5 10 11 12 13),
    reads [0x01AD453E, 0, 0x00600000] (.platco 5 10 11 12),
    reads [0x0201453E, 0, 0] (.platck 5 10),
    reads [0x0281403E, 0, 0] (.platrl 10)] : List Bool).all id = true := by decide +kernel

theorem test_words_vmem : ([
    reads [0x001CC541, 0x00000403, 0] (.setl 5 6 7 0x403),
    reads [0x00044244] (.vpf 0x42 8),
    reads [0x00044246, 0, 0x00007000] (.vpfExt 0x42 8),
    reads [0x0000084A, 0, 0x00507000] (.vld 8 { disp := none, zero := false, inv := false, p := 0, xs2 := 0, xs := 10 }),
    reads [0x2000084A, 0x00001980, 0x0B507000] (.vlds 8 { disp := none, zero := true, inv := true, p := 3, xs2 := 11, xs := 10 }),
    reads [0x4002004A, 0x00000980, 0x00507000] (.vst 4 { disp := none, zero := false, inv := true, p := 3, xs2 := 0, xs := 10 }),
    reads [0x6002004B, 0x00000100, 0x0C587000, 0x00000100, 0] (.vsts 4 { disp := some 0x100, zero := false, inv := false, p := 2, xs2 := 12, xs := 11 }),
    reads [0x8000084A, 0, 0x0B507000] (.vld2d 8 { disp := none, zero := false, inv := false, p := 0, xs2 := 11, xs := 10 }),
    reads [0xA002004A, 0, 0x0B507000] (.vst2d 4 { disp := none, zero := false, inv := false, p := 0, xs2 := 11, xs := 10 }),
    reads [0xC000084A, 0, 0x00507000] (.vldp 8 { disp := none, zero := false, inv := false, p := 0, xs2 := 0, xs := 10 }),
    reads [0xE002004A, 0, 0x00507000] (.vstp 4 { disp := none, zero := false, inv := false, p := 0, xs2 := 0, xs := 10 } 7 .last),
    reads [0xE002004A, 0, 0x00501021] (.vstp 4 { disp := none, zero := false, inv := false, p := 0, xs2 := 0, xs := 10 } 1 (.arith 1 2))] : List Bool).all id = true := by decide +kernel

theorem test_words_vint : ([
    reads [0x0304044C] (.vadd { vd := 4, vs1 := 8, vs2 := 12 }),
    reads [0x0304044E, 0x00001980, 0x00007000] (.vaddExt { vd := 4, vs1 := 8, vs2 := 12 } { Ext.base with zero := true, inv := true, p := 3 }),
    reads [0x2304044C] (.vsub { vd := 4, vs1 := 8, vs2 := 12 }),
    reads [0x2304044E, 0x00001980, 0x00007000] (.vsubExt { vd := 4, vs1 := 8, vs2 := 12 } { Ext.base with zero := true, inv := true, p := 3 }),
    reads [0x4304044C] (.vmul { vd := 4, vs1 := 8, vs2 := 12 }),
    reads [0x4304044E, 0x00001980, 0x00007000] (.vmulExt { vd := 4, vs1 := 8, vs2 := 12 } { Ext.base with zero := true, inv := true, p := 3 }),
    reads [0x6304044C] (.vmulh { vd := 4, vs1 := 8, vs2 := 12 }),
    reads [0x6304044E, 0x00001980, 0x00007000] (.vmulhExt { vd := 4, vs1 := 8, vs2 := 12 } { Ext.base with zero := true, inv := true, p := 3 }),
    reads [0x8304044C] (.vand { vd := 4, vs1 := 8, vs2 := 12 }),
    reads [0x8304044E, 0x00001980, 0x00007000] (.vandExt { vd := 4, vs1 := 8, vs2 := 12 } { Ext.base with zero := true, inv := true, p := 3 }),
    reads [0xA304044C] (.vor { vd := 4, vs1 := 8, vs2 := 12 }),
    reads [0xA304044E, 0x00001980, 0x00007000] (.vorExt { vd := 4, vs1 := 8, vs2 := 12 } { Ext.base with zero := true, inv := true, p := 3 }),
    reads [0xC304044C] (.vxor { vd := 4, vs1 := 8, vs2 := 12 }),
    reads [0xC304044E, 0x00001980, 0x00007000] (.vxorExt { vd := 4, vs1 := 8, vs2 := 12 } { Ext.base with zero := true, inv := true, p := 3 }),
    reads [0xE304044C] (.vmin { vd := 4, vs1 := 8, vs2 := 12 }),
    reads [0xE304044E, 0x00001980, 0x00007000] (.vminExt { vd := 4, vs1 := 8, vs2 := 12 } { Ext.base with zero := true, inv := true, p := 3 }),
    reads [0x03040450] (.vmax { vd := 4, vs1 := 8, vs2 := 12 }),
    reads [0x03040452, 0, 0x00007000] (.vmaxExt { vd := 4, vs1 := 8, vs2 := 12 } Ext.base),
    reads [0x23040450] (.vsll { vd := 4, vs1 := 8, vs2 := 12 }),
    reads [0x23040452, 0, 0x00007000] (.vsllExt { vd := 4, vs1 := 8, vs2 := 12 } Ext.base),
    reads [0x43040450] (.vsrl { vd := 4, vs1 := 8, vs2 := 12 }),
    reads [0x43040452, 0, 0x00007000] (.vsrlExt { vd := 4, vs1 := 8, vs2 := 12 } Ext.base),
    reads [0x63040450] (.vsra { vd := 4, vs1 := 8, vs2 := 12 }),
    reads [0x63040452, 0, 0x00007000] (.vsraExt { vd := 4, vs1 := 8, vs2 := 12 } Ext.base),
    reads [0x83040450] (.vadds { vd := 4, vs1 := 8, vs2 := 12 }),
    reads [0x83040452, 0, 0x00007000] (.vaddsExt { vd := 4, vs1 := 8, vs2 := 12 } Ext.base),
    reads [0xA3040450] (.vsubs { vd := 4, vs1 := 8, vs2 := 12 }),
    reads [0xA3040452, 0, 0x00007000] (.vsubsExt { vd := 4, vs1 := 8, vs2 := 12 } Ext.base),
    reads [0xC3040450] (.vmac { vd := 4, vs1 := 8, vs2 := 12 }),
    reads [0xC3040452, 0, 0x00007000] (.vmacExt { vd := 4, vs1 := 8, vs2 := 12 } Ext.base),
    reads [0xE3040450] (.vabsd { vd := 4, vs1 := 8, vs2 := 12 }),
    reads [0xE3040452, 0, 0x00007000] (.vabsdExt { vd := 4, vs1 := 8, vs2 := 12 } Ext.base),
    reads [0x40C1024E, 0x61400000, 0x00007000] (.vmulExt { vd := 2, vs1 := 2, vs2 := 3 } { Ext.base with rep2 := { en := true, size := 2, idx := 5 } })] : List Bool).all id = true := by decide +kernel

theorem test_words_vfp : ([
    reads [0x03040454] (.vfadd { vd := 4, vs1 := 8, vs2 := 12 }),
    reads [0x03040456, 0, 0x00001000] (.vfaddExt { vd := 4, vs1 := 8, vs2 := 12 } { Ext.base with rnd := 1 }),
    reads [0x23040454] (.vfsub { vd := 4, vs1 := 8, vs2 := 12 }),
    reads [0x23040456, 0, 0x00001000] (.vfsubExt { vd := 4, vs1 := 8, vs2 := 12 } { Ext.base with rnd := 1 }),
    reads [0x43040454] (.vfmul { vd := 4, vs1 := 8, vs2 := 12 }),
    reads [0x43040456, 0, 0x00001000] (.vfmulExt { vd := 4, vs1 := 8, vs2 := 12 } { Ext.base with rnd := 1 }),
    reads [0x10840456, 0x00001980, 0x00007000] (.vfaddExt { vd := 4, vs1 := 8, vs2 := 66 } { Ext.base with zero := true, inv := true, p := 3 }),
    reads [0x63040456, 0x00000010, 0x00007000] (.vfma { vd := 4, vs1 := 8, vs2 := 12 } { Ext.base with vs3 := 16 }),
    reads [0x83040454] (.vfdiv { vd := 4, vs1 := 8, vs2 := 12 }),
    reads [0x83040456, 0, 0x00007000] (.vfdivExt { vd := 4, vs1 := 8, vs2 := 12 } Ext.base),
    reads [0xA0040454] (.vfsqrt { vd := 4, vs1 := 8, vs2 := 0 }),
    reads [0xA0040456, 0, 0x00007000] (.vfsqrtExt { vd := 4, vs1 := 8, vs2 := 0 } Ext.base),
    reads [0xC3040454] (.vfmin { vd := 4, vs1 := 8, vs2 := 12 }),
    reads [0xC3040456, 0, 0x00007000] (.vfminExt { vd := 4, vs1 := 8, vs2 := 12 } Ext.base),
    reads [0xE3040454] (.vfmax { vd := 4, vs1 := 8, vs2 := 12 }),
    reads [0xE3040456, 0, 0x00007001] (.vfmaxExt { vd := 4, vs1 := 8, vs2 := 12 } { Ext.base with fx := 1 }),
    reads [0x03040458] (.vfsgn { vd := 4, vs1 := 8, vs2 := 12 }),
    reads [0x0304045A, 0, 0x00007002] (.vfsgnExt { vd := 4, vs1 := 8, vs2 := 12 } { Ext.base with fx := 2 }),
    reads [0x23040458] (.vfscl { vd := 4, vs1 := 8, vs2 := 12 }),
    reads [0x2304045A, 0, 0x00007000] (.vfsclExt { vd := 4, vs1 := 8, vs2 := 12 } Ext.base),
    reads [0x40040458] (.vfcls { vd := 4, vs1 := 8, vs2 := 0 }),
    reads [0x4004045A, 0, 0x00007000] (.vfclsExt { vd := 4, vs1 := 8, vs2 := 0 } Ext.base),
    reads [0x60040458] (.vpoly { vd := 4, vs1 := 8, vs2 := 0 }),
    reads [0x6004045A, 0, 0x00007001] (.vpolyExt { vd := 4, vs1 := 8, vs2 := 0 } { Ext.base with fx := 1 }),
    reads [0x83040458] (.vtwos { vd := 4, vs1 := 8, vs2 := 12 }),
    reads [0x8304045A, 0, 0x00007000] (.vtwosExt { vd := 4, vs1 := 8, vs2 := 12 } Ext.base)] : List Bool).all id = true := by decide +kernel

theorem test_words_vpred : ([
    reads [0x0304035C] (.vcmp { vd := 3, vs1 := 8, vs2 := 12 }),
    reads [0x0304035E, 0, 0x0000700D] (.vcmpExt { vd := 3, vs1 := 8, vs2 := 12 } { Ext.base with fx := 13 }),
    reads [0x2304035C] (.vfcmp { vd := 3, vs1 := 8, vs2 := 12 }),
    reads [0x2304035E, 0, 0x00007007] (.vfcmpExt { vd := 3, vs1 := 8, vs2 := 12 } { Ext.base with fx := 7 }),
    reads [0x4080835C] (.plog { vd := 3, vs1 := 1, vs2 := 2 }),
    reads [0x4080835E, 0, 0x00007001] (.plogExt { vd := 3, vs1 := 1, vs2 := 2 } { Ext.base with fx := 1 }),
    reads [0x6000035E, 0, 0x00507000] (.pset { vd := 3, vs1 := 0, vs2 := 0 } { Ext.base with xs := 10 }),
    reads [0x8001805E, 0, 0x05007000] (.pcnt { vd := 0, vs1 := 3, vs2 := 0 } { Ext.base with xs2 := 5 }),
    reads [0xA001805E, 0, 0x05007000] (.pfirst { vd := 0, vs1 := 3, vs2 := 0 } { Ext.base with xs2 := 5 }),
    reads [0xC304045C] (.vsel { vd := 4, vs1 := 8, vs2 := 12 }),
    reads [0xC304045E, 0x00000180, 0x00007000] (.vselExt { vd := 4, vs1 := 8, vs2 := 12 } { Ext.base with p := 3 }),
    reads [0x00040460] (.vcvt { vd := 4, vs1 := 8, vs2 := 0 }),
    reads [0x00040462, 0, 0x00007012] (.vcvtExt { vd := 4, vs1 := 8, vs2 := 0 } { Ext.base with fx := 18 }),
    reads [0x20040462, 0, 0x00507001] (.qnt { vd := 4, vs1 := 8, vs2 := 0 } { Ext.base with xs := 10, fx := 1 }),
    reads [0x40040262, 0, 0x07307100] (.qnte { vd := 2, vs1 := 8, vs2 := 0 } { Ext.base with xs2 := 7, xs := 6, tix := 1 }),
    reads [0x60040462, 0, 0x00507101] (.dqnt { vd := 4, vs1 := 8, vs2 := 0 } { Ext.base with xs := 10, tix := 1, fx := 1 })] : List Bool).all id = true := by decide +kernel

theorem test_words_vmove : ([
    reads [0x00040464] (.vmv { vd := 4, vs1 := 8, vs2 := 0 }),
    reads [0x00040466, 0, 0x00007000] (.vmvExt { vd := 4, vs1 := 8, vs2 := 0 } Ext.base),
    reads [0x20000466, 0, 0x00507000] (.vbcast { vd := 4, vs1 := 0, vs2 := 0 } { Ext.base with xs := 10 }),
    reads [0x40040066, 0, 0x05507001] (.vext { vd := 0, vs1 := 8, vs2 := 0 } { Ext.base with xs2 := 5, xs := 10, fx := 1 }),
    reads [0x60000466, 0, 0x05507000] (.vins { vd := 4, vs1 := 0, vs2 := 0 } { Ext.base with xs2 := 5, xs := 10 }),
    reads [0x80040466, 0, 0x00507000] (.vslup { vd := 4, vs1 := 8, vs2 := 0 } { Ext.base with xs := 10 }),
    reads [0xA0040466, 0, 0x00507000] (.vsldn { vd := 4, vs1 := 8, vs2 := 0 } { Ext.base with xs := 10 }),
    reads [0xC3040464] (.vperm { vd := 4, vs1 := 8, vs2 := 12 }),
    reads [0xC3040466, 0, 0x00007000] (.vpermExt { vd := 4, vs1 := 8, vs2 := 12 } Ext.base),
    reads [0xE0040464] (.vtrn { vd := 4, vs1 := 8, vs2 := 0 }),
    reads [0xE0040466, 0, 0x00007000] (.vtrnExt { vd := 4, vs1 := 8, vs2 := 0 } Ext.base),
    reads [0x00040468] (.vredsum { vd := 4, vs1 := 8, vs2 := 0 }),
    reads [0x0004046A, 0, 0x00007011] (.vredsumExt { vd := 4, vs1 := 8, vs2 := 0 } { Ext.base with fx := 17 }),
    reads [0x20040468] (.vredmax { vd := 4, vs1 := 8, vs2 := 0 }),
    reads [0x2004046A, 0, 0x00007002] (.vredmaxExt { vd := 4, vs1 := 8, vs2 := 0 } { Ext.base with fx := 2 }),
    reads [0x40040468] (.vredmin { vd := 4, vs1 := 8, vs2 := 0 }),
    reads [0x4004046A, 0, 0x00007008] (.vredminExt { vd := 4, vs1 := 8, vs2 := 0 } { Ext.base with fx := 8 }),
    reads [0x60040468] (.vredcs { vd := 4, vs1 := 8, vs2 := 0 }),
    reads [0x6004046A, 0, 0x00007000] (.vredcsExt { vd := 4, vs1 := 8, vs2 := 0 } Ext.base),
    reads [0x8004046A, 0, 0x00507001] (.vscan { vd := 4, vs1 := 8, vs2 := 0 } { Ext.base with xs := 10, fx := 1 }),
    reads [0xA0040468] (.vcomp { vd := 4, vs1 := 8, vs2 := 0 }),
    reads [0xA004046A, 0, 0x00007000] (.vcompExt { vd := 4, vs1 := 8, vs2 := 0 } Ext.base),
    reads [0xC004006A, 0, 0x05507000] (.vdig { vd := 0, vs1 := 8, vs2 := 0 } { Ext.base with xs2 := 5, xs := 10 })] : List Bool).all id = true := by decide +kernel

theorem test_words_matrix : ([
    reads [0x0000006E, 0, 0x00027000] (.mma { vd := 0, vs1 := 0, vs2 := 0 } { Ext.base with ad := true }),
    reads [0x0044006E, 0, 0x0000F000] (.mma { vd := 0, vs1 := 8, vs2 := 1 } { Ext.base with na := true }),
    reads [0x2000006E, 0, 0x0C587000] (.bld { vd := 0, vs1 := 0, vs2 := 0 } { Ext.base with xs2 := 12, xs := 11 }),
    reads [0x4000036E, 0, 0x07307000] (.azero { vd := 3, vs1 := 0, vs2 := 0 } { Ext.base with xs2 := 7, xs := 6 }),
    reads [0x6000186E, 0, 0x00007001] (.ard { vd := 24, vs1 := 0, vs2 := 0 } { Ext.base with fx := 1 }),
    reads [0x8004006E, 0, 0x00007102] (.awr { vd := 0, vs1 := 8, vs2 := 0 } { Ext.base with tix := 1, fx := 2 }),
    reads [0xA000006E, 0, 0x00507072] (.eptk { vd := 0, vs1 := 0, vs2 := 0 } { Ext.base with xs := 10, fx := 114 }),
    reads [0xC0C0006E, 0, 0x00007000] (.bslotPin 3),
    reads [0xC0C0006E, 0, 0x00007001] (.bslotUnpin 3),
    reads [0xC0C0006E, 0, 0x00007002] (.bslotRelease 3),
    reads [0xC0C0006E, 0, 0x05007003] (.bslotQuery 5 3),
    reads [0x00014572, 0x00000001, 0] (.rmbind 5 10 1),
    reads [0x20000072, 0x00000001, 0] (.rmbindUnbind 1),
    reads [0x00800072, 0x00000081, 0] (.rmfire 8 1),
    reads [0x21000072, 0x003AA081, 0] (.rmmul true 4 5 8 1 7),
    reads [0x01800072, 0x0002A000, 0] (.rmjoin 4 5),
    reads [0x02000572, 0x00000001, 0] (.rmmig 5 1),
    reads [0x02800072, 0x00000001, 0] (.rmage 1),
    reads [0x03000572, 0x00000001, 0] (.rmqry 5 1),
    reads [0x00014576, 0, 0] (.sphdr false 5 10),
    reads [0x20014576, 0, 0] (.sphdr true 5 10),
    reads [0x00AD5476, 0, 0x0D600000] (.spcnt false 20 10 11 12 13),
    reads [0x012D4E76, 0x00000001, 0x0D600000] (.spmrg true 14 10 11 12 13)] : List Bool).all id = true := by decide +kernel

/-- The refused words of the encoding chapter's and the atomics' tables. -/
theorem test_words_refused : ([
    refuses [0] 0x01, refuses [0x00000078] 0x01, refuses [0x00000035, 0, 0] 0x02, refuses [0x00000040] 0x02, refuses [0x8A800004] 0x08,
    refuses [0x0AA00004] 0x03, refuses [0x10840456, 0x00001980, 0x00005000] 0x08, refuses [0x10840456, 0x00000800, 0x00007000] 0x08,
    refuses [0x10846056, 0x00001980, 0x00007000] 0x04, refuses [0x0D9CC51C] 0x08, refuses [0x0110802C] 0x08] : List Bool).all id = true := by
  decide +kernel

/-! ### One step of some instructions, with results that the spec states -/

/-- The state that an instruction leaves. -/
noncomputable def after (i : Instr) (s : State) : State :=
  match exec i s with
  | .next t => t
  | _ => s

/-- The state that a vector instruction leaves, enqueued and committed. -/
noncomputable def commit (i : Instr) (s : State) : State := after (.viqCommit 0) (after i s)

/-- Bytes laid in memory. -/
def put (pa : Nat) (bs : List Byte) (s : State) : State := { s with mem := s.mem.splice pa bs }

/-- 32-bit words laid in memory. -/
def putWords (pa : Nat) (ws : List Nat) (s : State) : State := put pa (ws.flatMap fun w => leBytes 4 w) s

/-- R69, R281: the first step after placing `addi x5, x0, #16` (0x02000508 of R281's encoding) runs it. -/
theorem test_first_step : (match step (State.reset.withFetchWord 32 0x02000508) with
    | .next t => (t.readX 0 .E 5, (t.stream 0 .E).pc)
    | _ => (0, 0)) = (16, 4) := by decide +kernel

/-- R281: sums wrap. -/
theorem test_add_wraps : (after (.add false 5 6 7) (base .A (setX 6 (BitVec.allOnes 64) ∘ setX 7 1))).readX 0 .A 5 = 0 := by
  decide +kernel

/-- R292: 7 ÷ 0, and the remainder of −7 by 0. -/
theorem test_div_by_zero : (after (.div false 5 6 7) (base .A (setX 6 7))).readX 0 .A 5 = BitVec.allOnes 64
    ∧ (after (.rem false 5 6 7) (base .A (setX 6 (-7)))).readX 0 .A 5 = -7 := by decide +kernel

/-- R86: 3.0e9 to S32 saturates with NV, and −1.5 to U32 under RTZ is 0 with NV. -/
theorem test_fcvti : let t := after (.fcvti .s .i32 5 6) (base .E (setX 6 0x4F32D05E))
    let u := after (.fcvti .s .u32 5 6) (base .E fun x => setX 6 0xBFC00000 { x with e := { x.e with sfctl := 0x20 } })
    t.readX 0 .E 5 = 0x7FFFFFFF ∧ (t.stream 0 .E).sfctl = 0x10 ∧ u.readX 0 .E 5 = 0 ∧ (u.stream 0 .E).sfctl = 0x30 := by decide +kernel

/-- R289: a misaligned target traps with no effect. -/
theorem test_jr_misaligned : let t := after (.jr 1 5 2) (base .A (setX 5 8))
    (t.strand 0).tcause = 3 ∧ (t.strand 0).tval = 10 ∧ t.readX 0 .A 1 = 0 ∧ (t.stream 0 .A).pc = 0x2000 := by decide +kernel

/-- The five grants of strand 1 (08_registers.md): strands 0 to 2 live, 16 rows and 1,000 columns asked for. -/
def granted (lp vlcap : W64) (det : Bool) (vt : W32) : Nat × Nat :=
  let s := base .E id
  let s1 : State := { (s.modStrand 1 fun x => setX 6 16 (setX 7 1000 { x with
      live := true, vlcap := vlcap, dmode := if det then 1 else 0, e := { x.e with status := .run } })) with
    cur := { agent := .stream 1 .E, words := [] }, pwrlim := lp }
  let s2 := (s1.modStrand 0 fun x => { x with live := true }).modStrand 2 fun x => { x with live := true }
  match execSetl 5 6 7 vt s2 with
  | .next t => ((t.strand 1).vlr.toNat, (t.strand 1).vlc.toNat)
  | _ => (0, 0)

theorem test_setl_grants : granted 16 6 false 0x403 = (4, 256) ∧ granted 4 6 false 0x403 = (4, 128) ∧ granted 4 6 true 0x403 = (4, 256)
    ∧ granted 4 4 true 0x403 = (4, 64) ∧ granted 4 6 false 0x400 = (4, 1000) := by decide +kernel

/-- R85: the sixteen codes of e2m1, as FP32 bits. -/
theorem test_narrow_codes : ((List.range 16).map fun c => match (Narrow.ofReg 0x000C0154).decode c with
    | .escape => 1
    | .num v => (Fmt.fp32.pack 0 v).1) =
    [0, 0x3F000000, 0x3F800000, 0x3FC00000, 0x40000000, 0x40400000, 0x40800000, 0x40C00000,
     1, 0xBF000000, 0xBF800000, 0xBFC00000, 0xC0000000, 0xC0400000, 0xC0800000, 0xC0C00000] := by decide +kernel

/-- The worked output element with outliers on both sides (R93). -/
theorem test_mma_element : (
    let d := fun (e : Int) (c : Nat) => scaled ((Narrow.ofReg 0x000C0154).decode c) e
    mmaElem false false 4 0x3E800000 (fun k => d 1 (([3, 8, 4, 9] : List Nat).getD k 0)) (fun k => d 0 (([4, 1, 8, 5] : List Nat).getD k 0))
      [(1, 0x42C80000)] [(2, 0xC47A0000)]) = (0xC576AC00, 0) := by decide +kernel

/-- The strand of the worked `QNTE` (R206). -/
def quantStrand (x : Strand) : Strand :=
  setX 7 0x41200000 { x with
    vtype := 0x090, vlr := 1, vlc := 4, fr := x.fr.set 2 0x000C0154
    v := x.v.set 8 (BitVec.ofNat 8192 (0x3E99999A + 0xC0E00000 * 2 ^ 32 + 0x40200000 * 2 ^ 64 + 0x42C80000 * 2 ^ 96)) }

theorem test_qnte : let t := commit (.qnte { vd := 2, vs1 := 8, vs2 := 0 } { Ext.base with xs2 := 7, xs := 6, tix := 1 }) (base .E quantStrand)
    (t.strand 0).v.get 2 = 0x82E0 ∧ (t.strand 0).v.get 63 = 1 ∧ (t.strand 0).k.get 1 = [{ pos := 3, val := 0x42C80000 }]
      ∧ (t.strand 0).vstatus = 3 := by decide +kernel

/-- The same strand after it. -/
def quantDone (x : Strand) : Strand :=
  let y := quantStrand x
  { y with v := (y.v.set 2 0x82E0).set 63 1, k := y.k.set 1 [{ pos := 3, val := 0x42C80000 }] }

theorem test_dqnt :
    let t := commit (.dqnt { vd := 4, vs1 := 2, vs2 := 0 } { Ext.base with xs := 6, tix := 1, fx := 1 }) (base .E quantDone)
    (t.strand 0).v.get 4 = BitVec.ofNat 8192 (0xC1000000 * 2 ^ 32 + 0x40000000 * 2 ^ 64 + 0x42C80000 * 2 ^ 96)
      ∧ (t.strand 0).vstatus = 0 := by decide +kernel

/-- R292, R172: the worked load, pages 4 and 5 mapped and 6 and 7 absent: elements 0 and 1 are read. -/
theorem test_vlds_absent_pages : let s : State := putWords 0x100 [7] (putWords (2 ^ 30 + 0x100) [9]
      { base .E (fun x => setX 10 0x100000100 (setX 11 0x40000000 { x with vtype := 0x003, vlr := 1, vlc := 4, tvec := 0 })) with
        spaces := [{ space with maps := Vector.replicate 8 [entry 4 0, entry 5 1] }] })
    let t := commit (.vlds 0 { disp := none, zero := false, inv := false, p := 0, xs2 := 11, xs := 10 }) s
    (t.strand 0).v.get 0 = BitVec.ofNat 8192 (7 + 9 * 2 ^ 32) ∧ (t.strand 0).mask = 12 ∧ (t.strand 0).frec.pages = [0x180000000, 0x1C0000000]
      ∧ (t.strand 0).frec.more = false ∧ (t.strand 0).viq.length = 1 := by decide +kernel

/-- A header of the worked addition (R256): CSR, 32-bit pointers, 16-bit indices, FP32, with its arrays behind it. -/
def sparse (pa : Nat) (ptrs idxs vals : List Nat) (s : State) : State :=
  put (pa + 0x80) (idxs.flatMap fun i => leBytes 2 i) (putWords (pa + 0xC0) vals (putWords (pa + 0x40) ptrs
    (putWords pa [0x584D5053, 0x01000001, 4, 8, idxs.length, 0, pa + 0x40, 0, pa + 0x80, 0, pa + 0xC0, 0] s)))

def sparseState : State :=
  sparse 0x4000 [0, 2, 3, 3, 5] [1, 4, 2, 0, 7] [0x3F800000, 0x40000000, 0x40400000, 0x4B800000, 0x40A00000]
    (sparse 0x5000 [0, 2, 4, 5, 7] [4, 6, 2, 5, 3, 0, 7]
      [0xC0000000, 0x3F800000, 0x3F000000, 0x40800000, 0x3F800000, 0x3F800000, 0xC0A00000]
      (sparse 0x6000 [0, 2, 4, 5, 6] [0, 0, 0, 0, 0, 0] []
        (base .A (setX 10 0x4000 ∘ setX 11 0x5000 ∘ setX 13 4 ∘ setX 20 0x7000 ∘ setX 14 0x6000))))

/-- The worked addition of two 4 × 8 matrices (R266, R267). -/
theorem test_spcnt : (after (.spcnt false 20 10 11 12 13) sparseState).homeBytes 0 ((List.range 4).map fun i => 0x7000 + 4 * i) = [2, 2, 1, 1]
    ∧ (after (.spcnt true 20 10 11 12 13) sparseState).homeBytes 0 ((List.range 4).map fun i => 0x7000 + 4 * i) = [3, 2, 1, 2] := by
  decide +kernel

theorem test_spmrg : let t := after (.spmrg false 14 10 11 12 13) sparseState
    t.homeBytes 0 ((List.range 6).map fun i => 0x6080 + 2 * i) = [1, 6, 2, 5, 3, 0]
    ∧ ((List.range 6).map fun i => leNat (t.homeBytes 0 ((List.range 4).map fun j => 0x60C0 + 4 * i + j))) =
        [0x3F800000, 0x3F800000, 0x40600000, 0x40800000, 0x3F800000, 0x4B800000] := by decide +kernel

/-- FIPS 197, appendix C.3: AES-256 of one block, and back. -/
theorem test_aes256 : (let k := aesKeys (List.range 32)
    let p := (natBytes 16 0x00112233445566778899AABBCCDDEEFF).reverse
    let c := (natBytes 16 0x8EA2B7CA516745BFEAFC49904B496089).reverse
    aesEnc k p = c ∧ aesDec k c = p) := by decide +kernel

/-- IEEE 1619, vector 10 of annex B: the first 64 bytes of its data unit, number 0xFF. -/
theorem test_xts : (let key := fun (v : Nat) => blockNat (natBytes 32 v).reverse
    let pair := key 0x2718281828459045235360287471352662497757247093699959574966967627
      + key 0x3141592653589793238462643383279502884197169399375105820974944592 * 2 ^ 256
    (encipher pair 0xFF ((List.range 64).map (BitVec.ofNat 8))).reverse = leBytes 64
      0x1C3B3A102F770386E4836C99E370CF9BEA00803F5E482357A4AE12D414A3E63B5D31E276F8FE4A8D66B317F9AC683F44680A86AC35ADFC3345BEFECB4BB188FD) := by
  decide +kernel

/-! ### For each statement, a state and operands that meet its hypotheses -/

/-- The conditions of `CanEnter`, computed. -/
def enterReady (s : State) (st : Fin 4) : Bool :=
  let x := s.strand st
  !x.tstatus.getLsbD 0 && x.tvec != 0 && x.tframe != 0 && x.tframe.toNat % 64 == 0
    && isOk (s.frameLines x.acc x.tframe false true) lines && lines.all fun pa => s.inPart x.acc pa

theorem canEnter_of {s : State} {st : Fin 4} (h : enterReady s st = true) : CanEnter s st lines := by
  simp only [enterReady, Bool.and_eq_true, Bool.not_eq_true', bne_iff_ne, beq_iff_eq, List.all_eq_true] at h
  obtain ⟨⟨⟨⟨⟨h1, h2⟩, h3⟩, h4⟩, h5⟩, h6⟩ := h
  exact ⟨h1, h2, h3, h4, ok_of h5, h6⟩

/-- The conditions of `CanTrap`, computed. -/
def trapReady (s : State) (st : Fin 4) : Bool := enterReady s st && !(s.strand st).a.poisoned && !(s.strand st).e.poisoned

theorem canTrap_of {s : State} {st : Fin 4} (h : trapReady s st = true) : CanTrap s st lines := by
  simp only [trapReady, Bool.and_eq_true, Bool.not_eq_true'] at h
  exact ⟨canEnter_of h.1.1, h.1.2, h.2⟩

/-- The conditions of `Reaches`, computed. -/
def reachesB (s : State) (st : Fin 4) (k : StreamId) (need : Need) (va : W64) (n pa : Nat) : Bool :=
  va.toNat % n == 0 && pa % n == 0 && !s.memBusy st k && isOk (s.scaXlate st k va need) pa && !s.heldAt pa

theorem reaches_of {s : State} {st : Fin 4} {k : StreamId} {need : Need} {va : W64} {n pa : Nat}
    (h : reachesB s st k need va n pa = true) : Reaches s st k need va n pa := by
  simp only [reachesB, Bool.and_eq_true, Bool.not_eq_true', beq_iff_eq] at h
  obtain ⟨⟨⟨⟨h1, h2⟩, h3⟩, h4⟩, h5⟩ := h
  exact ⟨⟨h1, h2⟩, h3, ok_of h4, h5⟩

/-- The conditions of `Ready`, computed. -/
def readyB (s : State) (st : Fin 4) (f : VForm) : Bool :=
  decide (s.cur.agent = .stream st .E) && (formCheck (s.strand st).lastRows (s.strand st).vtype (s.strand st).cap f).isNone
    && (s.strand st).viq.isEmpty && decide ((s.strand st).halt = .none) && decide ((s.stream st .E).status = .run)
    && !(s.strand st).readsBad ((s.strand st).capture s.cur.words f)

theorem ready_of {s : State} {st : Fin 4} {f : VForm} (h : readyB s st f = true) : Ready s st f := by
  simp only [readyB, Bool.and_eq_true, Bool.not_eq_true', decide_eq_true_eq, Option.isNone_iff_eq_none, List.isEmpty_iff] at h
  obtain ⟨⟨⟨⟨⟨h1, h2⟩, h3⟩, h4⟩, h5⟩, h6⟩ := h
  exact ⟨h1, h2, h3, h4, h5, h6⟩

theorem plain_of {s : State} {pa n : Nat} (h1 : s.seals = []) (h2 : s.teams = [] ∨ paType pa ≠ 1) (h3 : s.lostAt pa = false) : Plain s pa n :=
  ⟨by simp [h1], fun e t ht => by rcases h2 with h2 | h2; · rw [h2] at ht; cases ht
                                  · exact absurd e h2, h3⟩

theorem writable_of {s : State} {pas : List Nat} (h1 : pas.Nodup) (h2 : (pas.all fun pa => !s.heldAt pa && !s.lostAt pa) = true)
    (h3 : (s.teams.flatMap fun t => t.plats) = []) : Writable s pas := by
  simp only [List.all_eq_true, Bool.and_eq_true, Bool.not_eq_true'] at h2
  refine ⟨h1, fun pa h => (h2 pa h).1, fun pa h => (h2 pa h).2, fun pa _ => ?_⟩
  rintro ⟨t, ht, p, hp, _⟩
  have : p ∈ s.teams.flatMap fun t => t.plats := List.mem_flatMap.mpr ⟨t, ht, hp⟩
  rw [h3] at this
  cases this

theorem witness_ScalarAluResults : (base .A id).cur.agent = .stream 0 .A ∧ (base .E id).cur.agent = .stream 0 .E := ⟨rfl, rfl⟩

theorem witness_ScalarImmediateResults : (base .A id).cur.agent = .stream 0 .A ∧ (base .E id).cur.agent = .stream 0 .E := ⟨rfl, rfl⟩

theorem witness_ScalarShiftResults : (base .A id).cur.agent = .stream 0 .A ∧ (base .E id).cur.agent = .stream 0 .E := ⟨rfl, rfl⟩

/-- The agent; and FP16 operands whose sum is a NaN, and one that is a signalling NaN. -/
theorem witness_ScalarFpResults : (base .A id).cur.agent = .stream 0 .A ∧ 0x7C00 < 2 ^ (precFmt .h).width ∧ 0xFC00 < 2 ^ (precFmt .h).width
    ∧ (precFmt .h).isNan ((precFmt .h).fadd 0 0x7C00 0xFC00).1 = true ∧ (precFmt .h).isSig 0x7D00 = true := by
  refine ⟨rfl, ?_, ?_, ?_, ?_⟩ <;> decide +kernel

/-- A launch of one team of two tasks, and its team. -/
def header : Header where
  flags := 4
  priority := 1
  policy := 0
  eEntry := 0x100
  aEntry := 0x200
  n := 2
  widths := [1]
  tLevel := 1
  gLevel := 1
  args := 0x300
  scratch := 0x10000
  arena := 0x10000
  budget := 0
  handler := 0
  coef := 0
  pre0 := 0xFFFFFFFF
  pre1 := 0xFFFFFFFF
  mark := 0
  mval := 0
  endpoint := 0
  cls := 0
  closure := 0
  drain := 0

def launch : Launch where
  id := 0
  asid := 0
  hdr := header
  poison := 0
  parent := none
  phase := .running
  nextTeam := 1
  wave := 0
  detail := 0
  digest1 := 0
  second := false
  bound := []
  groups := []
  since := 0
  regions := []
  snapshot := []

def task : Task := { launch := 0, team := 0, ix := 0, reruns := 0 }

def team : Team where
  launch := 0
  team := 0
  core := 0
  strands := [0]
  base := 0
  arena := 0x10000
  plats := []
  relSeq := 0
  lines := []
  ops := []

/-- A state in which strand 0 runs a task of that launch. -/
def running (k : StreamId) (f : Strand → Strand) (l : Launch) (t : Team) : State :=
  { base k (fun x => f { x with task := some task, platbase := 0x10000, platsize := 0x10000 }) with launches := [l], teams := [t] }

/-- A doubleword at 8 through a negative displacement, and a byte at an odd address. -/
theorem witness_LoadResults : (base .A (setX 6 16)).cur.agent = .stream 0 .A
    ∧ (base .A (setX 6 16)).readX 0 .A 6 + (0x7F8 : BitVec 11).signExtend 64 = 8
    ∧ (Reaches (base .A (setX 6 16)) 0 .A .load 8 8 8 ∧ (base .A (setX 6 16)).anyPoison 0 .A 8 8 = false)
    ∧ (Reaches (base .E id) 0 .E .load 9 1 9 ∧ (base .E id).anyPoison 0 .E 9 1 = false)
    ∧ (Reaches (base .E id) 0 .E .load 0x40000004 4 0x40000004 ∧ (base .E id).anyPoison 0 .E 0x40000004 4 = false) :=
  ⟨rfl, by decide +kernel, ⟨reaches_of (by decide +kernel), by decide +kernel⟩, ⟨reaches_of (by decide +kernel), by decide +kernel⟩,
    ⟨reaches_of (by decide +kernel), by decide +kernel⟩⟩

/-- A doubleword and a byte that are written, and the same doubleword in D-mode, which is held. -/
theorem witness_StoreResults : (let s := base .A (setX 6 8)
      s.cur.agent = .stream 0 .A ∧ s.holds 0 8 = false ∧ Reaches s 0 .A .store 8 8 8 ∧ Plain s 8 8 ∧ Reaches s 0 .A .store 9 1 9
        ∧ Plain s 9 1 ∧ s.anyPoison 0 .A 8 8 = false ∧ s.fenced 0 .A .sys = true)
    ∧ (let s := running .A (fun x => { x with dmode := 1 }) { launch with hdr := { header with drain := 0x10000 } } team
      s.cur.agent = .stream 0 .A ∧ s.holds 0 8 = true ∧ s.storeFits 0 .A 8 8 = true ∧ (s.strand 0).task = some task
        ∧ Reaches s 0 .A .store 8 8 8 ∧ Plain s 8 8 ∧ s.anyPoison 0 .A 8 8 = false ∧ s.fenced 0 .A .sys = true) := by
  refine ⟨⟨rfl, ?_, reaches_of (by decide +kernel), plain_of rfl (.inl rfl) (by decide +kernel), reaches_of (by decide +kernel),
    plain_of rfl (.inl rfl) (by decide +kernel), ?_, ?_⟩,
    rfl, ?_, ?_, ?_, reaches_of (by decide +kernel), plain_of rfl (.inr (by decide)) (by decide +kernel),
    ?_, ?_⟩ <;> decide +kernel

/-- A CAS whose old value is the expected one, and one whose is not; a fold at a PA of main memory; and D-mode, on the own scratchpad. -/
theorem witness_AtomicResults : (let s := base .E (setX 6 8)
      s.cur.agent = .stream 0 .E ∧ (s.strand 0).det = false ∧ s.fenced 0 .E .dev = true ∧ Reaches s 0 .E .store (s.readX 0 .E 6) 8 8
        ∧ Plain s 8 8 ∧ s.anyPoison 0 .E 8 8 = false
        ∧ leNat (s.view (some (0, .E)) (s.slotKey (s.acc 0).key) 8 8) = (s.readX 0 .E 5).toNat % 2 ^ 64
        ∧ leNat (s.view (some (0, .E)) (s.slotKey (s.acc 0).key) 8 8) ≠ (s.readX 0 .E 6).toNat % 2 ^ 64 ∧ paType 8 ≠ 3 ∧ paType 8 ≠ 4)
    ∧ (let s := base .E fun x => setX 6 0x100 { x with dmode := 1, e := { x.e with tlb := [{ vpn := 0, level := 0, pte := 2 ^ 50 + 0xDF }] } }
      (s.strand 0).det = true ∧ s.fenced 0 .E .dev = true ∧ Reaches s 0 .E .store (s.readX 0 .E 6) 8 (2 ^ 52 + 0x100)
        ∧ Plain s (2 ^ 52 + 0x100) 8 ∧ s.anyPoison 0 .E (2 ^ 52 + 0x100) 8 = false ∧ s.pendingAt (2 ^ 52 + 0x100) 8 = false
        ∧ s.ownScr (2 ^ 52 + 0x100) = true) := by
  refine ⟨⟨rfl, ?_, ?_, reaches_of (by decide +kernel), plain_of rfl (.inl rfl) (by decide +kernel), ?_,
    ?_, ?_, ?_, ?_⟩,
    ?_, ?_, reaches_of (by decide +kernel), plain_of rfl (.inl rfl) (by decide +kernel), ?_,
    ?_, ?_⟩ <;> decide +kernel

/-- A failed translation, computed. -/
def failsWith {ε α : Type} (e : Except ε α) (p : ε → Bool) : Bool :=
  match e with
  | .ok _ => false
  | .error f => p f

theorem fails_of {ε α : Type} {e : Except ε α} {p : ε → Bool} (h : failsWith e p = true) : ∃ f, e = .error f ∧ p f = true := by
  cases e with
  | ok a => cases h
  | error f => exact ⟨f, rfl, h⟩

/-- A strand whose leaf for page 0 is cached, with x6 in that page, under a key slot. -/
def leafed (pte : Nat) (slot : Nat) (x : Strand) : Strand :=
  setX 6 0xFF8 { x with aspace := x.aspace ||| BitVec.ofNat 64 (slot * 2 ^ 12),
                        e := { x.e with tlb := [{ vpn := 0, level := 0, pte := BitVec.ofNat 64 pte }] } }

/-- A leaf with every right for a page. -/
def leafOf (pa : Nat) : Nat := pa / 4 + 0xDF

/-- Misaligned accesses; one without a leaf that permits it, and one of each other cause; a store without room for its line; reads of
poison; and each answer of a translation, at the ends of its ranges. -/
theorem witness_ScalarAccessTraps :
    (∀ p ∈ [(2 ^ 56, 0, 6), (0xFF8, 7 * 2 ^ 52, 5), (0xFF8, 2 ^ 53 + 0x20000, 7)],
      let s := base .E (setX 6 (BitVec.ofNat 64 p.1) ∘ leafed (leafOf p.2.1) 0)
      s.cur.agent = .stream 0 .E ∧ s.memBusy 0 .E = false ∧ (s.strand 0).viq = [] ∧ CanTrap s 0 lines ∧ (s.readX 0 .E 6).toNat % 8 = 0
        ∧ ∀ need, need = .load ∨ need = .store → ∃ f, s.scaXlate 0 .E (s.readX 0 .E 6) need = .error f ∧ f.cause = BitVec.ofNat 8 p.2.2)
    ∧ (let s := running .E (setX 6 8 ∘ fun x => { x with dmode := 1 }) launch team
       CanTrap s 0 lines ∧ (s.readX 0 .E 6).toNat % 8 = 0 ∧ s.scaXlate 0 .E (s.readX 0 .E 6) .store = .ok 8 ∧ s.storeFits 0 .E 8 8 = false)
    ∧ (let s := { base .E (setX 6 8) with poison := [0] }
       (s.readX 0 .E 6).toNat % 8 = 0 ∧ s.scaXlate 0 .E (s.readX 0 .E 6) .load = .ok 8 ∧ s.scaXlate 0 .E (s.readX 0 .E 6) .store = .ok 8
         ∧ s.heldAt 8 = false ∧ s.anyPoison 0 .E 8 8 = true ∧ s.holds 0 8 = false ∧ s.fenced 0 .E .sys = true ∧ (s.strand 0).det = false
         ∧ paType 8 ≠ 3 ∧ paType 8 ≠ 4)
    ∧ (let s := { base .E (leafed (leafOf (2 ^ 52)) 0 ∘ fun x => { x with dmode := 1 }) with poison := [(2 ^ 52 + 0xFF8) / 64] }
       s.scaXlate 0 .E 0xFF8 .store = .ok (2 ^ 52 + 0xFF8) ∧ s.anyPoison 0 .E (2 ^ 52 + 0xFF8) 8 = true ∧ (s.strand 0).det = true
         ∧ s.pendingAt (2 ^ 52 + 0xFF8) 8 = false ∧ s.ownScr (2 ^ 52 + 0xFF8) = true)
    ∧ canonical (2 ^ 56) = false ∧ canonical 0xFF8 = true
    ∧ (∀ slot ∈ [0, 1], ∀ pa ∈ [0, 1536 * 2 ^ 30 - 4096, 1536 * 2 ^ 30, 2 ^ 52, 2 ^ 52 + 2 ^ 30 - 4096, 2 ^ 52 + 2 ^ 30,
          2 * 2 ^ 52, 2 * 2 ^ 52 + 0x10000, 2 * 2 ^ 52 + 2 ^ 22, 3 * 2 ^ 52, 4 * 2 ^ 52, 5 * 2 ^ 52],
        let s := base .E (leafed (leafOf pa) slot)
        let e : TlbEntry := { vpn := 0, level := 0, pte := BitVec.ofNat 64 (leafOf pa) }
        tlbHit (s.stream 0 .E).tlb 0xFF8 = some e ∧ leafPa e.pte 0xFF8 e.level = pa + 0xFF8 ∧ leafOk e.pte .load = true ∧ leafOk e.pte .store = true
          ∧ s.keyless (s.acc 0).key = (slot == 1))
    ∧ (∃ e, tlbHit ((base .E (leafed 0xDB 0)).stream 0 .E).tlb 0xFF8 = some e ∧ leafOk e.pte .store = false)
    ∧ ((base .E id).acc 0).inside 0xFFF8 = true ∧ ((base .E id).acc 0).inside 0x10FF8 = false
    ∧ (let s := { base .E id with windows := [{ number := 0, peer := false, base := 0x1000, len := 0x1000, pinned := [] }] }
       (s.window (paType (3 * 2 ^ 52 + 0xFF8) == 4) 0).any (fun w => 0xFF8 < w.len) = true ∧ s.window true 0 = none)
    ∧ let s := base .E (setX 6 9)
    s.cur.agent = .stream 0 .E ∧ s.memBusy 0 .E = false ∧ (s.strand 0).viq = [] ∧ CanTrap s 0 lines
      ∧ (s.readX 0 .E 6 + (0 : BitVec 11).signExtend 64).toNat % LdSize.bytes .h ≠ 0
      ∧ (s.readX 0 .E 6 + (0 : BitVec 11).signExtend 64).toNat % StSize.bytes .d ≠ 0 ∧ (s.readX 0 .E 6 + 1).toNat % LdSize.bytes .w ≠ 0
      ∧ (s.readX 0 .E 6 + 1).toNat % StSize.bytes .w ≠ 0 ∧ (s.readX 0 .E 6).toNat % 4 ≠ 0 ∧ (s.readX 0 .E 6).toNat % 8 ≠ 0 := by
  refine ⟨fun p hp => ?_, ⟨canTrap_of (by decide +kernel), ?_, ok_of (by decide +kernel), ?_⟩,
    ⟨?_, ok_of (by decide +kernel), ok_of (by decide +kernel), ?_⟩,
    ⟨ok_of (by decide +kernel), ?_⟩, ?_, ?_, ?_, ⟨{ vpn := 0, level := 0, pte := 0xDB }, ?_, ?_⟩,
    ?_, ?_, ?_, rfl, ?_, ?_, canTrap_of (by decide +kernel), ?_⟩
  any_goals decide +kernel
  have e : ∀ {s : State} {c : Byte}, (failsWith (s.scaXlate 0 .E (s.readX 0 .E 6) .load) (fun f => f.cause == c)
      && failsWith (s.scaXlate 0 .E (s.readX 0 .E 6) .store) (fun f => f.cause == c)) = true →
      ∀ need, need = .load ∨ need = .store → ∃ f, s.scaXlate 0 .E (s.readX 0 .E 6) need = .error f ∧ f.cause = c := by
    intro s c h need hn
    simp only [Bool.and_eq_true] at h
    rcases hn with rfl | rfl
    · obtain ⟨f, h1, h2⟩ := fails_of h.1; exact ⟨f, h1, beq_iff_eq.mp h2⟩
    · obtain ⟨f, h1, h2⟩ := fails_of h.2; exact ⟨f, h1, beq_iff_eq.mp h2⟩
  simp only [List.mem_cons, List.not_mem_nil, or_false] at hp
  rcases hp with rfl | rfl | rfl <;>
  exact ⟨rfl, by decide +kernel, by decide +kernel, canTrap_of (by decide +kernel), by decide +kernel, e (by decide +kernel)⟩

theorem witness_ReadAfterWrite : (base .A id).lostAt 0xFF = false ∧ isHbm (0xFF + 1) = isHbm 0xFF ∧ ¬ (0xFF ≤ 0x101 ∧ 0x101 < 0xFF + 2) := by
  decide +kernel

/-- A condition that holds and one that does not; an aligned and a misaligned target. -/
theorem witness_ControlTargets : let s := base .A (setX 6 9)
    s.cur.agent = .stream 0 .A ∧ s.readX 0 .A 6 ≠ s.readX 0 .A 7 ∧ s.readX 0 .A 7 = s.readX 0 .A 8
      ∧ (s.readX 0 .A 7 + (0x7FC : BitVec 11).signExtend 64).toNat % 4 = 0 ∧ (s.readX 0 .A 7 + (4 : W64)).toNat % 4 = 0
      ∧ (s.readX 0 .A 6 + (1 : BitVec 11).signExtend 64).toNat % 4 ≠ 0 ∧ (s.readX 0 .A 6 + (1 : W64)).toNat % 4 ≠ 0
      ∧ CanTrap s 0 lines := by
  refine ⟨rfl, ?_, ?_, ?_, ?_, ?_, ?_,
    canTrap_of (by decide +kernel)⟩ <;> decide +kernel

/-- Sends with 15 and 63 entries in the way, a receive, both branch queues, and a blocked receive whose partner has ended. -/
theorem witness_QueueTransfers :
    (let s := base .A fun x => { x with q := x.q.set 3 (List.replicate 15 0), q6 := List.replicate 63 true, q7 := [false] }
     s.cur.agent = .stream 0 .A ∧ (s.strand 0).tstatus.getLsbD 0 = false ∧ ((s.strand 0).q.get 3).length < 16 ∧ s.sendBusy 0 .A = false
       ∧ (s.strand 0).q6.length < 64 ∧ (s.strand 0).q7 = false :: [])
    ∧ (let s := base .E fun x => { x with q := x.q.set 0 [7], q6 := [true] }
       s.cur.agent = .stream 0 .E ∧ (s.strand 0).q.get 0 = 7 :: [] ∧ (s.strand 0).q6 = true :: [] ∧ (s.strand 0).q7.length < 64
         ∧ s.sendBusy 0 .E = false)
    ∧ (let s := base .E fun x => { x with a := { x.a with status := .ended } }
       (s.strand 0).q.get 3 = [] ∧ (s.strand 0).a.status = .ended ∧ (s.strand 0).viq = [] ∧ (s.strand 0).halt = .none
         ∧ (s.strand 0).pendFault = [] ∧ (s.stream 0 .E).status = .run ∧ CanTrap s 0 lines) := by
  refine ⟨?_, ?_, ?_⟩
  · decide +kernel
  · decide +kernel
  · refine ⟨?_, ?_, ?_, ?_, ?_, ?_, canTrap_of (by decide +kernel)⟩ <;> decide +kernel

theorem witness_SystemReads : (base .E id).cur.agent = .stream 0 .E ∧ ((base .E id).strand 0).viq = [] ∧ (base .E id).mat.mq = [] := by
  decide +kernel

/-- The greatest value that each clause takes. -/
theorem witness_SystemWrites : (base .E id).cur.agent = .stream 0 .E ∧ ((base .E id).strand 0).viq = [] ∧ (base .E id).mat.mq = []
    ∧ (255 : W64).toNat < 2 ^ 8 ∧ (-4 : W64).toNat % 4 = 0 ∧ (-64 : W64).toNat % 64 = 0 ∧ (0x9F : W64).toNat / 2 ^ 5 < 5
    ∧ (63 : W64).toNat < 2 ^ 6 ∧ frLegal 0x000C0154 = true ∧ vtypeOk 0x13203 = true
    ∧ (0x13203 : W64).extractLsb' 0 3 = ((base .E id).strand 0).vtype.extractLsb' 0 3
    ∧ (0x13203 : W64).extractLsb' 9 3 = ((base .E id).strand 0).vtype.extractLsb' 9 3 ∧ (0xFFFF : W64).toNat < 2 ^ 16 ∧ (0xFFFF : W64) ≠ 0
    ∧ vstatusOk 0xFFFF007F = true := by decide +kernel

theorem witness_PrivilegedRegisters : (base .E id).cur.agent = .stream 0 .E ∧ ((base .E id).strand 0).viq = [] ∧ ((base .E id).strand 1).betweenTasks = true
    ∧ (0x40000 : W64).extractLsb' 18 2 ≠ 0 ∧ (0xFFFFFFFFFFF3FFFF : W64).extractLsb' 18 2 = 0 ∧ (base .E id).spaceQuiet 0 = true ∧ (6 : W64).toNat ≤ 6 ∧ 6 < (7 : W64).toNat
    ∧ 1 ≤ (16 : W64).toNat ∧ (16 : W64).toNat ≤ 16 ∧ 16 < (17 : W64).toNat ∧ stkrefOk 0x10 = true
    ∧ ((0x10 : W64).getLsbD 31 && !((base .E id).stks.get 0).stkref.getLsbD 31) = false ∧ stkrefOk 0x80000006 = true
    ∧ (0x80000006 : W64).getLsbD 31 = true ∧ ((base .E id).stks.get 0).stkref.getLsbD 31 = false ∧ stkrefOk 5 = false := by decide +kernel

theorem lines_nodup : lines.Nodup := by decide +kernel

theorem witness_TrapTaken : (base .E id).cur.agent = .stream 0 .E ∧ ((base .E id).strand 0).viq = []
    ∧ CanTrap (base .E id) 0 lines ∧ lines.Nodup ∧ ∀ pa ∈ lines, pa % 64 = 0 ∧ Plain (base .E id) pa 64 := by
  refine ⟨by decide +kernel, by decide +kernel, canTrap_of (by decide +kernel), lines_nodup, fun pa h => ?_⟩
  have h' : (lines.all fun pa => pa % 64 == 0 && !(base .E id).lostAt pa) = true := by decide +kernel
  have := List.all_eq_true.mp h' pa h
  simp only [Bool.and_eq_true, beq_iff_eq, Bool.not_eq_true'] at this
  exact ⟨this.1, plain_of rfl (.inl rfl) this.2⟩

/-- TRAP inside a handler, and TRET outside one. -/
theorem witness_MisplacedTraps :
    (let s := running .E (fun x => { x with tstatus := 1 }) launch team
     s.cur.agent = .stream 0 .E ∧ (s.strand 0).viq = [] ∧ (s.strand 0).tstatus.getLsbD 0 = true
       ∧ (s.strand 0).task = some task ∧ s.launch task.launch = some launch ∧ launch.phase = .running)
    ∧ (base .A id).cur.agent = .stream 0 .A ∧ CanTrap (base .A id) 0 lines := by
  refine ⟨?_, rfl, canTrap_of (by decide +kernel)⟩
  decide +kernel

/-- A queued entry of five words (R344). -/
def queued : VEntry where
  pc := 0
  words := [0x0000084B, 0, 0x00507000, 0, 0]
  form := .vec 0x12 0 { vd := 8, vs1 := 0, vs2 := 0 } { Ext.base with xs := 10 } (some 0)
  vtype := 0x203
  vlr := 2
  vlc := 4
  xs := 0
  xs2 := 0
  vstart := 0
  xscl := 0
  xol := 0
  begun := false
  restart := 0
  ill := none

theorem witness_FrameLayout : let x : Strand := { Strand.reset with
      viq := List.replicate 64 queued, q := Vector.replicate 6 (List.replicate 16 0), q6 := List.replicate 64 true, q7 := List.replicate 64 true }
    x.viq.length ≤ 64 ∧ (∀ q, (x.q.get q).length ≤ 16) ∧ x.q6.length ≤ 64 ∧ x.q7.length ≤ 64
      ∧ (∀ e ∈ x.viq, e.words.length ≤ 5 ∧ (bldWord (e.words.headD 0) = true → e.words.length ≤ 3)) ∧ x.begun = false := by decide +kernel

theorem witness_TrapRoundTrip : let x := (base .A fun x => { x with vstart := 32767, q6 := List.replicate 64 true }).strand 0
    x.viq = [] ∧ x.mask = 0 ∧ (∀ q, (x.q.get q).length ≤ 16) ∧ x.q6.length ≤ 64 ∧ x.q7.length ≤ 64 ∧ x.vstart.toNat ≤ 32767
      ∧ vtypeOk x.vtype = true ∧ vstatusOk x.vstatus = true ∧ sfctlOk x.a.sfctl = true ∧ sfctlOk x.e.sfctl = true ∧ x.a.status = .run
      ∧ x.e.status = .run ∧ x.a.owes = none ∧ x.e.owes = none := by decide +kernel

/-- A state in a handler whose frame, in the strand's partition, is all zeros: an empty one, of a strand without a grant. -/
def trapped : State := base .A fun x => { x with tstatus := 1 }

theorem trapped_lines : isOk (trapped.frameLines (trapped.strand 0).acc (trapped.strand 0).tframe true false) lines = true := by decide +kernel

theorem trapped_clean : (lines.all fun pa => !trapped.heldAt pa && !trapped.anyPoison 0 .A pa 64) = true := by decide +kernel

/-- The frame in memory. -/
def trapFrame : List Byte := lines.flatMap fun pa => trapped.view (some (0, .A)) (trapped.slotKey (trapped.strand 0).acc.key) pa 64

theorem trapFrame_ok : ((trapped.strand 0).frameOk trapFrame && frameNat trapFrame 0x20 8 % 4 == 0 && frameNat trapFrame 0x28 8 % 4 == 0) = true := by
  decide +kernel

theorem witness_TrapReturns : trapped.cur.agent = .stream 0 .A ∧ (trapped.strand 0).tstatus.getLsbD 0 = true
    ∧ trapped.away 0 .A = false ∧ trapped.away 0 .E = false ∧ trapped.frameLines (trapped.strand 0).acc (trapped.strand 0).tframe true false = .ok lines
    ∧ (∀ pa ∈ lines, trapped.heldAt pa = false ∧ trapped.anyPoison 0 .A pa 64 = false)
    ∧ (trapped.strand 0).frameOk trapFrame = true ∧ frameNat trapFrame 0x20 8 % 4 = 0 ∧ frameNat trapFrame 0x28 8 % 4 = 0 := by
  have h := trapFrame_ok
  simp only [Bool.and_eq_true, beq_iff_eq] at h
  refine ⟨?_, ?_, ?_, ?_, ok_of trapped_lines, fun pa hp => ?_, h.1.1, h.1.2, h.2⟩
  any_goals decide +kernel
  have := List.all_eq_true.mp trapped_clean pa hp
  simpa only [Bool.and_eq_true, Bool.not_eq_true'] using this

/-- A word that meets a condition, one that does not under a limit of 0 and without one; a stream asleep on a word it may leave, and one
whose limit may pass; a strand whose team-mates are at the barrier, and one whose are not; an end with the partner ended and with it running. -/
theorem witness_WaitsAndExits :
    (let s := base .A (setX 6 8)
     s.cur.agent = .stream 0 .A ∧ Reaches s 0 .A .load (s.readX 0 .A 6) 8 8 ∧ s.anyPoison 0 .A 8 8 = false ∧ leNat (s.view (some (0, .A)) 0 8 8) = (s.readX 0 .A 7).toNat
       ∧ leNat (s.view (some (0, .A)) 0 8 8) ≠ (s.readX 0 .A 6).toNat ∧ s.readX 0 .A 5 = 0 ∧ s.readX 0 .A 6 ≠ 0)
    ∧ (let w : WaitOp := { cond := .eq, va := 8, val := 0, rd := 5, timed := true, sent := 0 }
       let s := base .A fun x => { x with a := { x.a with status := .asleep w } }
       (s.stream 0 .A).status = .asleep w ∧ (s.strand 0).halt = .none ∧ s.scaXlate 0 .A w.va .load = .ok 8 ∧ s.heldAt 8 = false
         ∧ s.anyPoison 0 .A 8 8 = false ∧ w.timed = true
         ∧ leNat (s.view (some (0, .A)) 0 8 8) = w.val.toNat ∧ (s.slotKey (s.acc 0).key) = 0)
    ∧ (let s := running .E id launch team
       s.cur.agent = .stream 0 .E ∧ (s.strand 0).task = some task ∧ s.fenced 0 .E .cor = true
         ∧ (∀ u, u ≠ 0 → (s.strand u).meetsBar task (s.strand 0).bars = true)
         ∧ ¬ (∀ u, u ≠ 0 → ((s.modStrand 1 fun x => { x with task := some { task with ix := 1 }, e := { x.e with status := .run } }).strand u).meetsBar
             task (s.strand 0).bars = true)
         ∧ (s.strand 0).viq = [] ∧ (s.strand 0).pendFault = [] ∧ ((s.strand 0).stream .A).status = .run)
    ∧ (let s := running .E (fun x => { x with a := { x.a with status := .ended } }) launch team
       ((s.strand 0).stream .A).over = true)
    ∧ (let s := running .E (fun x => { x with viq := [queued] }) launch team
       s.cur.agent = .stream 0 .E ∧ (s.strand 0).viq ≠ []) := by
  refine ⟨⟨rfl, reaches_of (by decide +kernel), ?_, ?_, ?_, ?_, ?_⟩,
    ⟨?_, ?_, ok_of (by decide +kernel), ?_, ?_, rfl, ?_, ?_⟩, ?_, ?_, ?_⟩ <;>
  decide +kernel

/-- A store of a strand in the write-combining buffer. -/
def buffered : WcbEntry := { strand := 0, task := none, pa := 0x4000, byte := 5, bits := 0xFF, key := 0, at_ := 0 }

theorem witness_FencesComplete : (base .E id).cur.agent = .stream 0 .E ∧ (base .E id).fenced 0 .E .sys = true ∧ ((base .E id).strand 0).det = false
    ∧ (base .E id).wcbHolds 0 = false ∧ (let d := base .E fun x => { x with dmode := 1 }
        (d.strand 0).det = true ∧ d.fenced 0 .E .cor = true)
    ∧ ({ base .E id with wcb := [buffered] }).fenced 0 .E .die = false
    ∧ (let u := { base .E id with cur := { agent := .supervisor 0xFFF, words := [] } }
       u.cur.agent = .supervisor 0xFFF ∧ (0xFFF : W64).toNat < 2 ^ 12 ∧ 2 ^ 12 ≤ (0x1000 : W64).toNat ∧ u.translatedDone ((0xFFF : W64).extractLsb' 0 12) = true ∧ u.translatedDone 0 = true
         ∧ u.space 0xFFF = none ∧ (u.space 0).isSome = true)
    ∧ ((base .E id).strand 0).viq = [] := by decide +kernel

theorem witness_SetlResults : (base .E (setX 7 1)).cur.agent = .stream 0 .E ∧ vtypeOk ((0x403 : W32).setWidth 64) = true
    ∧ ((base .E (setX 7 1)).readX 0 .E 8).toNat = 0 ∧ 0 < ((base .E (setX 7 1)).readX 0 .E 7).toNat
    ∧ ((base .E id).strand 0).dmode.getLsbD 0 = false ∧ ((base .E fun x => { x with dmode := 1 }).strand 0).dmode.getLsbD 0 = true
    ∧ vtypeOk ((0x005 : W32).setWidth 64) = false ∧ vtypeOk ((0x80000003 : W32).setWidth 64) = false ∧ ((base .E id).strand 0).viq = []
    ∧ CanTrap (base .E id) 0 lines := by
  refine ⟨?_, ?_, ?_, ?_, ?_, ?_, ?_, ?_, ?_, canTrap_of ?_⟩ <;> decide +kernel

theorem witness_DecodeEncodeRoundTrip : Instr.wf (.sub true 31 30 29) = true ∧ encode (.sub true 31 30 29) = some [0x80F7DF04] := by
  decide +kernel

theorem witness_DecodeIsWellFormed : (match decode [0x80F7DF04] with
    | .ok i => decide (i = .sub true 31 30 29)
    | .error _ => false) = true := by decide +kernel

/-- `add.w x5, x6, x7` placed, an unassigned word placed, and an event. -/
theorem witness_StepRunsDecoded :
    (let s := State.reset.withFetchWord 32 0x801CC504
     let a := s.advance
     s.agenda = .stream 0 .E :: [] ∧ a.runnable 0 .E = true ∧ (∀ va, (a.stream 0 .E).status ≠ .poisonDue va) ∧ (a.stream 0 .E).ibuf = [] ∧ wordCount 0x801CC504 = 1
       ∧ a.scaXlate 0 .E ((a.stream 0 .E).pc + BitVec.ofNat 64 0) .fetch = .ok 0 ∧ a.heldAt 0 = false ∧ a.anyPoison 0 .E 0 4 = false
       ∧ (0x801CC504 : W32) = BitVec.ofNat 32 (leNat (a.view (some (0, .E)) (a.slotKey (a.acc 0).key) 0 4)) ∧ reads [0x801CC504] (.add true 5 6 7) = true)
    ∧ (let s := { State.reset.withFetchWord 32 0x000D4614 with posted := List.replicate 1024 (.store 0 .E 0x100 []) }
       reads [0x000D4614] (.ld .d 6 10 0) = true ∧ (s.advance.executing 0 .E [0x000D4614]).entryWait = true)
    ∧ (let s := State.reset.withFetchWord 32 0x78
       s.agenda = .stream 0 .E :: [] ∧ (0x78 : W32) = BitVec.ofNat 32 (leNat (s.advance.view (some (0, .E)) 0 0 4)) ∧ refuses [0x78] 1 = true ∧ s.posted = [])
    ∧ (match decode [0x0004C538] with
        | .error .engine => true
        | _ => false) = true
    ∧ (let s := { State.reset with agenda := [.event (.stackHoldEvent 0)] }
       s.agenda = .event (.stackHoldEvent 0) :: [] ∧ Instr.isEvent (.stackHoldEvent 0) = true ∧ (s.advance.before (.event (.stackHoldEvent 0))).usable (.stackHoldEvent 0) = true
         ∧ Instr.session (.stackHoldEvent 0) = none ∧ s.posted = [])
    ∧ (let r : Rcp := { session := 7, magic := rcpMagic, major := 1, minor := 0, tag := 5, len := 0 }
       let s := { State.reset with agenda := [.event (.readinessQuery r)], readiness := Vector.replicate 64 2
                                   sessions := [{ id := 7, major := 1, minor := 0, asid := 0 }]
                                   conns := [{ modes := [0], ops := [0], credits := false, guarded := true, keyBits := 256, other := false }] }
       let a := s.advance.before (.event (.readinessQuery r))
       s.agenda = .event (.readinessQuery r) :: [] ∧ a.usable (.readinessQuery r) = true ∧ Instr.session (.readinessQuery r) = some 7 ∧ (∀ e ∈ a.rcpQ, e.1 ≠ 7)
         ∧ ∃ t, exec (.readinessQuery r) a = .next t ∧ served a t = true) := by
  have e : ∀ {a : State} {i : Instr}, (match exec i a with | .next t => served a t | _ => false) = true → ∃ t, exec i a = .next t ∧ served a t = true := by
    intro a i h
    cases x : exec i a with
    | next t => exact ⟨t, rfl, by rw [x] at h; exact h⟩
    | fault f => rw [x] at h; cases h
    | refused r => rw [x] at h; cases h
  have st : ((State.reset.withFetchWord 32 0x801CC504).advance.stream 0 .E).status = .run := by decide +kernel
  refine ⟨⟨?_, ?_, fun va h => ?_, ?_, ?_, ok_of (by decide +kernel), ?_,
    ?_, ?_, ?_⟩, ?_, ?_, ?_, ?_, ?_,
    ?_, rfl, ?_, e (by decide +kernel)⟩
  any_goals decide +kernel
  rw [st] at h
  cases h

theorem witness_StepKeepsMemory : State.reset.MemOk ∧ ∃ t, step State.reset = .next t := ⟨⟨rfl, rfl⟩, _, rfl⟩

/-! #### Vector instructions -/

/-- Operands in groups of two rows. -/
def ops : VOp := { vd := 2, vs1 := 4, vs2 := 6 }

/-- A form that its instruction asks for, ready in a state. -/
theorem ready_ex {s : State} {i : Instr} {f : VForm} (h : formOf i = some f) (hr : readyB s 0 f = true) : ∃ f, formOf i = some f ∧ Ready s 0 f :=
  ⟨f, h, ready_of hr⟩

theorem witness_VectorFrontEnd :
    (∃ f, formOf (.vadd ops) = some f ∧ (base .E id).cur.agent = .stream 0 .E
      ∧ formCheck ((base .E id).strand 0).lastRows ((base .E id).strand 0).vtype ((base .E id).strand 0).cap f = none
      ∧ ((base .E fun x => { x with viq := List.replicate 63 queued }).strand 0).viq.length < 64
      ∧ 64 ≤ ((base .E fun x => { x with viq := List.replicate 64 queued }).strand 0).viq.length
      ∧ (base .A id).cur.agent = .stream 0 .A ∧ CanTrap (base .A id) 0 lines)
    ∧ (∃ f, formOf (.vadd { ops with vs1 := 5 }) = some f
      ∧ formCheck ((base .E id).strand 0).lastRows ((base .E id).strand 0).vtype ((base .E id).strand 0).cap f = some 6
      ∧ ((base .E id).strand 0).viq = [] ∧ CanTrap (base .E id) 0 lines)
    ∧ (let e : VEntry := { queued with form := .vec 0x13 4 ops Ext.base none, words := [] }
       let x := (base .E fun x => { x with viq := [e] }).strand 0
       x.viq = e :: [] ∧ x.halt = .none ∧ x.a.status = .run ∧ e.ill = none ∧ x.readsBad e = false ∧ x.e.status ≠ .ended
         ∧ (match exec (.viqCommit 0) ((base .E fun x => { x with viq := [e] }).modStrand 0 fun y => { y with vtype := e.vtype, vlr := e.vlr, vlc := e.vlc }) with
             | .next u => decide ((u.strand 0).viq = []) && (u.strand 0).tstatus == x.tstatus && decide ((u.strand 0).e.status ≠ .ended)
             | _ => false) = true
         ∧ DestOk ops.vd e.vlr.toNat) := by
  refine ⟨⟨_, rfl, rfl, ?_, ?_, ?_, rfl, canTrap_of ?_⟩, ⟨_, rfl, ?_, ?_, canTrap_of ?_⟩, ?_, ?_, ?_, ?_, ?_, ?_, ?_, .inl ?_⟩ <;> decide +kernel

theorem witness_VectorIntegerResults : DestOk ops.vd ((base .E id).strand 0).vlr.toNat ∧ (∃ f, formOf (.vadd ops) = some f ∧ Ready (base .E id) 0 f)
    ∧ DestOk 0x40 ((base .E id).strand 0).vlr.toNat
    ∧ ∃ f, formOf (.vmacExt { ops with vd := 0x40 } { Ext.base with zero := true, p := 1, sat := true, fx := 1 }) = some f ∧ Ready (base .E id) 0 f :=
  ⟨.inl (by decide +kernel), ready_ex rfl (by decide +kernel), .inr (by decide +kernel), ready_ex rfl (by decide +kernel)⟩

/-- An FP format, a `VTYPE` without one, and the coefficient table of `VPOLY`. -/
theorem witness_VectorFpResults : DestOk ops.vd ((base .E id).strand 0).vlr.toNat ∧ vtFp ((base .E id).strand 0).vtype = some .fp32
    ∧ (∃ f, formOf (.vfma ops { Ext.base with vs3 := 8, rnd := 1 }) = some f ∧ Ready (base .E id) 0 f)
    ∧ vtKind ((base .E id).strand 0).vtype = 0 ∧ fld ((base .E id).strand 0).vtype 0 3 = 3
    ∧ (let s := { base .E id with coef := (Vector.replicate 2 [(0x0C, 1)] : Vector CoefTable 2) }
       ((s.tablesOf (s.strand 0)).get 0).num 0x0C 2 ≠ 0 ∧ ∃ f, formOf (.vpoly { ops with vs2 := 0 }) = some f ∧ Ready s 0 f)
    ∧ (let s := base .E fun x => { x with vtype := 0x201 }
       vtFp (s.strand 0).vtype = none ∧ CanTrap s 0 lines ∧ ∃ f, formOf (.vfaddExt ops Ext.base) = some f ∧ Ready s 0 f) :=
  ⟨.inl (by decide +kernel), rfl, ready_ex rfl (by decide +kernel), rfl, rfl, ⟨by decide +kernel, ready_ex rfl (by decide +kernel)⟩,
    rfl, canTrap_of (by decide +kernel), ready_ex rfl (by decide +kernel)⟩

theorem witness_PredicateResults : (∃ f, formOf (.vcmp ops) = some f ∧ Ready (base .E id) 0 f) ∧ vtFp ((base .E id).strand 0).vtype = some .fp32
    ∧ (∃ f, formOf (.vfcmpExt ops { Ext.base with fx := 7 }) = some f ∧ Ready (base .E id) 0 f)
    ∧ (∃ f, formOf (.pfirst { vd := 0, vs1 := 1, vs2 := 0 } { Ext.base with xs2 := 5 }) = some f ∧ Ready (base .E id) 0 f)
    ∧ DestOk ops.vd ((base .E id).strand 0).vlr.toNat ∧ (∃ f, formOf (.vsel ops) = some f ∧ Ready (base .E id) 0 f)
    ∧ (let x := (base .E fun x => { x with p := x.p.set 1 1 }).strand 0
       (x.active Ext.base 0 0 && x.predBit 1 0 0) = true ∧ (x.active Ext.base 0 1 && x.predBit 1 0 1) = false) :=
  ⟨ready_ex rfl (by decide +kernel), rfl, ready_ex rfl (by decide +kernel), ready_ex rfl (by decide +kernel), .inl (by decide +kernel),
    ready_ex rfl (by decide +kernel), by decide +kernel⟩

/-- A grant that both types hold, and one of 256 columns that FP64 does not; an operand-file group. -/
theorem witness_ConversionResults : DestOk ops.vd ((base .E id).strand 0).vlr.toNat
    ∧ (∃ f, formOf (.vcvtExt { ops with vs2 := 0 } { Ext.base with fx := 0x12 }) = some f ∧ Ready (base .E id) 0 f)
    ∧ ((base .E id).strand 0).vlc.toNat * max (cvtType 2).width (cvtType 1).width ≤ 8192
    ∧ 8192 < ((base .E fun x => { x with vlc := 256 }).strand 0).vlc.toNat * max (cvtType 3).width (cvtType 2).width
    ∧ CanTrap (base .E fun x => { x with vlc := 256 }) 0 lines
    ∧ vtG ((base .E id).strand 0).vtype ≤ 8 ∧ ∃ f, formOf (.vpf 0x46 4) = some f ∧ Ready (base .E id) 0 f := by
  refine ⟨.inl ?_, ready_ex rfl ?_, ?_, ?_, canTrap_of ?_, ?_, ready_ex rfl ?_⟩ <;> decide +kernel

/-- The worked quantisation; and one whose list is full. -/
theorem witness_QuantiseResults : let s := base .E quantStrand
    let x := s.strand 0
    let f := Narrow.ofReg (x.fr.get (vtFmt x.vtype))
    2 + x.vlr.toNat ≤ 63 ∧ x.narrowOk x.vtype = true ∧ x.vlc.toNat ≤ 256 ∧ (s.readX 0 .E 6).toNat % f.blk = 0
      ∧ (s.readX 0 .E 6).toNat + x.vlc.toNat ≤ 8192 / vtSew x.vtype ∧ meetsV63 (vtG x.vtype) 2 = false ∧ meetsV63 (vtG x.vtype) 8 = false
      ∧ (∀ r c, r < x.vlr.toNat → c < x.vlc.toNat → x.active Ext.base r c = true → ((s.readX 0 .E 6).toNat + c) / f.blk < 64)
      ∧ (∃ f, formOf (.qnt { vd := 2, vs1 := 8, vs2 := 0 } { Ext.base with xs := 6 }) = some f ∧ Ready s 0 f)
      ∧ scaleValid (x.v63Byte 0) = true ∧ f.esc = true ∧ Fmt.fp32.isNan ((s.readX 0 .E 7).extractLsb' 0 32).toNat = false
      ∧ ((s.readX 0 .E 7).extractLsb' 0 32).msb = false
      ∧ (∃ f, formOf (.qnte { vd := 2, vs1 := 8, vs2 := 0 } { Ext.base with xs2 := 7, xs := 6, tix := 1 }) = some f ∧ Ready s 0 f)
      ∧ (let t := base .E fun x => let y := quantStrand x
           { y with k := y.k.set 1 ((List.range 64).map fun i => { pos := BitVec.ofNat 32 (100 + i), val := 0 }) }
         64 < ((t.strand 0).k.get 1).length + 1 ∧ CanTrap t 0 lines) := by
  have hx : ∀ c : Fin 4, (((base .E quantStrand).readX 0 .E 6).toNat + c.val) / (Narrow.ofReg
      (((base .E quantStrand).strand 0).fr.get (vtFmt ((base .E quantStrand).strand 0).vtype))).blk < 64 := by decide +kernel
  refine ⟨?_, ?_, ?_, ?_, ?_, ?_, ?_, fun r c _ hc _ => hx ⟨c, ?_⟩, ready_ex rfl ?_, ?_, ?_, ?_, ?_, ready_ex rfl ?_, ?_, canTrap_of ?_⟩
  case refine_8 => exact Nat.lt_of_lt_of_eq hc (by decide +kernel)
  all_goals decide +kernel

theorem witness_DequantiseResults :
    (let s := base .E quantDone
     let x := s.strand 0
     let f := Narrow.ofReg (x.fr.get (vtFmt x.vtype))
     (∃ f, formOf (.dqnt { vd := 4, vs1 := 2, vs2 := 0 } { Ext.base with xs := 6, tix := 1, fx := 1 }) = some f ∧ Ready s 0 f)
       ∧ x.narrowOk x.vtype = true ∧ x.vlc.toNat ≤ 256 ∧ (s.readX 0 .E 6).toNat % f.blk = 0
       ∧ (s.readX 0 .E 6).toNat + x.vlc.toNat ≤ 8192 / vtSew x.vtype ∧ meetsV63 (vtG x.vtype) 4 = false ∧ meetsV63 (vtG x.vtype) 2 = false
       ∧ scaleValid (x.v63Byte 0) = true ∧ (x.k.get 1).length ≤ 64 ∧ DestOk 4 x.vlr.toNat
       ∧ (∀ c : Fin 4, f.decode (x.src 2 .none (vtSew x.vtype) 0 c.val) = .escape ↔ c = 3)
       ∧ x.k.get 1 = [{ pos := BitVec.ofNat 32 (0 * 2048 + 0 + 3), val := 0x42C80000 }])
    ∧ (let s := base .E fun x => { quantDone x with v := (quantDone x).v.set 63 0x7F }
       scaleValid ((s.strand 0).v63Byte 0) = false ∧ CanTrap s 0 lines)
    ∧ (let s := base .E id
       (s.strand 0).narrowOk (s.strand 0).vtype = false ∧ CanTrap s 0 lines) := by
  refine ⟨⟨ready_ex rfl ?_, ?_, ?_, ?_, ?_, ?_, ?_, ?_, ?_, .inl ?_, ?_, ?_⟩, ⟨?_, canTrap_of ?_⟩, ?_, canTrap_of ?_⟩ <;> decide +kernel

/-- Two columns for `VTRN`, and three, which it refuses. -/
theorem witness_MoveResults : DestOk ops.vd ((base .E id).strand 0).vlr.toNat ∧ (∃ f, formOf (.vperm ops) = some f ∧ Ready (base .E id) 0 f)
    ∧ (∃ f, formOf (.vext { vd := 0, vs1 := 4, vs2 := 0 } { Ext.base with xs2 := 5, xs := 6, fx := 1 }) = some f ∧ Ready (base .E (setX 6 7)) 0 f)
    ∧ ((base .E fun x => { x with vlc := 2 }).strand 0).vlc.toNat ≤ vtG ((base .E id).strand 0).vtype
    ∧ vtG ((base .E id).strand 0).vtype < ((base .E fun x => { x with vlc := 3 }).strand 0).vlc.toNat
    ∧ CanTrap (base .E fun x => { x with vlc := 3 }) 0 lines
    ∧ (∃ f, formOf (.vtrnExt { ops with vs2 := 0 } Ext.base) = some f ∧ Ready (base .E fun x => { x with vlc := 3 }) 0 f)
    ∧ ((base .E id).strand 0).vlr.toNat * ((base .E id).strand 0).vlc.toNat ≤ ((base .E (setX 6 8)).readX 0 .E 6).toNat
    ∧ ((base .E (setX 6 7)).readX 0 .E 6).toNat = 1 * ((base .E id).strand 0).vlc.toNat + 3 := by
  refine ⟨.inl ?_, ready_ex rfl ?_, ready_ex rfl ?_, ?_, ?_, canTrap_of ?_, ready_ex rfl ?_, ?_, ?_⟩ <;> decide +kernel

theorem witness_ReductionResults : DestOk ops.vd ((base .E id).strand 0).vlr.toNat ∧ ((Ext.base.fx.extractLsb' 1 2).toNat = 0)
    ∧ (((4 : BitVec 8).extractLsb' 1 2).toNat ≠ 0) ∧ vtFp ((base .E id).strand 0).vtype = some .fp32
    ∧ (∃ f, formOf (.vredsumExt { ops with vs2 := 0 } { Ext.base with fx := 0x15 }) = some f ∧ Ready (base .E id) 0 f)
    ∧ (∃ f, formOf (.vscan { ops with vs2 := 0 } { Ext.base with xs := 6, fx := 1 }) = some f ∧ Ready (base .E id) 0 f)
    ∧ vtSew ((base .E id).strand 0).vtype ≠ 4 ∧ (∃ f, formOf (.vdig { ops with vd := 0, vs2 := 0 } { Ext.base with xs := 6, xs2 := 5 }) = some f ∧ Ready (base .E id) 0 f)
    ∧ (let s := base .E fun x => { x with vtype := 0x200 }
       vtFp (s.strand 0).vtype = none ∧ CanTrap s 0 lines
         ∧ ∃ f, formOf (.vredmaxExt { ops with vs2 := 0 } Ext.base) = some f ∧ Ready s 0 f) := by
  refine ⟨.inl ?_, ?_, ?_, ?_, ready_ex rfl ?_, ready_ex rfl ?_, ?_, ready_ex rfl ?_, ?_, canTrap_of ?_, ready_ex rfl ?_⟩ <;> decide +kernel

/-! #### Vector memory and the matrix engine -/

/-- The elements of a grant of two rows and four columns. -/
def grid : List (Nat × Nat) := (List.range 2).flatMap fun r => (List.range 4).map fun c => (r, c)

/-- A plat of one element of four bytes in the partition. -/
def plat : Plat where
  h := 0
  n := 1
  iw := false
  lsz := 2
  base := 0x40000000
  idx := [0x40]
  ta := [0x40000100]
  pas := [[2 ^ 52 + 0x100, 2 ^ 52 + 0x101, 2 ^ 52 + 0x102, 2 ^ 52 + 0x103]]
  wr := [true]
  ranges := []
  gen := 0
  composed := false
  verify := false
  digest := 0
  seals := []
  body := 24
  reason := 0
  released := none

/-- The operands of a vector access without predicate. -/
def mem (xs xs2 : Reg) : MemOp := { disp := none, zero := false, inv := false, p := 0, xs2 := xs2, xs := xs }

/-- A whole load, a strided one, a shape, a plat's, one that is misaligned, and one whose third element meets an absent page. -/
theorem witness_VectorLoadResults : DestOk ops.vd ((base .E id).strand 0).vlr.toNat
    ∧ (let s := base .E (setX 10 0x100 ∘ setX 11 8 ∘ setX 12 0x0001000400040002)
       (∃ f, formOf (.vld 2 (mem 10 0)) = some f ∧ Ready s 0 f) ∧ (∃ f, formOf (.vlds 2 (mem 10 11)) = some f ∧ Ready s 0 f)
         ∧ (∃ f, formOf (.vld2d 2 (mem 10 12)) = some f ∧ Ready s 0 f) ∧ (s.readX 0 .E 10).toNat % 4 = 0 ∧ (s.readX 0 .E 11).toNat % 4 = 0
         ∧ (grid.all fun p => isOk (s.vecXlate (s.acc 0) (0x100 + BitVec.ofNat 64 ((p.1 * 4 + p.2) * 32 / 8)) true false) (0x100 + (p.1 * 4 + p.2) * 4)
             && !s.anyPoison 0 .E (0x100 + (p.1 * 4 + p.2) * 4) 4 && !s.heldAt (0x100 + (p.1 * 4 + p.2) * 4)) = true
         ∧ (grid.all fun p => isOk (s.vecXlate (s.acc 0) (0x100 + BitVec.ofNat 64 (p.1 * 4 + p.2) * 8) true false) (0x100 + (p.1 * 4 + p.2) * 8)) = true)
    ∧ (let s := running .E id launch { team with plats := [plat] }
       s.verifyHeld 0 (s.readX 0 .E 10) = false ∧ (s.platCheck 0 .E (s.readX 0 .E 10)).2 = .ok plat
         ∧ (∀ a ∈ plat.pas.flatMap id, s.inPart (s.acc 0) a = true ∧ s.poisonedTo (s.strand 0).task 0 .E a = false) ∧ plat.sz * 8 = vtSew (s.strand 0).vtype
         ∧ ∃ f, formOf (.vldp 2 (mem 10 0)) = some f ∧ Ready s 0 f)
    ∧ (let s := base .E (setX 10 0x102)
       vtSew (s.strand 0).vtype ≠ 4 ∧ (s.readX 0 .E 10).toNat % 4 ≠ 0 ∧ CanTrap s 0 lines)
    ∧ (let s := base .E (setX 10 0x100 ∘ setX 11 2)
       (s.readX 0 .E 10).toNat % 4 = 0 ∧ (s.readX 0 .E 11).toNat % 4 ≠ 0 ∧ CanTrap s 0 lines ∧ (∃ f, formOf (.vlds 2 (mem 10 11)) = some f ∧ Ready s 0 f)
         ∧ ∃ f, formOf (.vsts 2 (mem 10 11)) = some f ∧ Ready s 0 f)
    ∧ (let s := { base .E (setX 10 0x3FFFFFF8) with spaces := [{ space with maps := Vector.replicate 8 [entry 0 0] }] }
       (∃ f, formOf (.vld 2 (mem 10 0)) = some f ∧ Ready s 0 f) ∧ (s.readX 0 .E 10).toNat % 4 = 0 ∧ fld (s.strand 0).vstart 0 16 = 0
         ∧ (grid.all fun p => match s.vecXlate (s.acc 0) (0x3FFFFFF8 + BitVec.ofNat 64 ((p.1 * 4 + p.2) * 4)) true false with
             | .ok a => decide (p.1 * 4 + p.2 < 2) && a == 0x3FFFFFF8 + (p.1 * 4 + p.2) * 4 && !s.heldAt a && !s.anyPoison 0 .E a 4
             | .error e => decide (2 ≤ p.1 * 4 + p.2) && e.cause == 4) = true) := by
  refine ⟨.inl ?_, ⟨ready_ex rfl ?_, ready_ex rfl ?_, ready_ex rfl ?_, ?_, ?_, ?_, ?_⟩, ⟨?_, ok_of ?_, ?_, ?_, ready_ex rfl ?_⟩,
    ⟨?_, ?_, canTrap_of ?_⟩, ⟨?_, ?_, canTrap_of ?_, ready_ex rfl ?_, ready_ex rfl ?_⟩, ready_ex rfl ?_, ?_, ?_, ?_⟩ <;> decide +kernel

/-- It alone in a state. -/
def bufferedState : State := { base .E id with wcb := [buffered] }

theorem witness_VectorStoreResults :
    (let s := base .E (setX 10 0x100 ∘ setX 11 8)
     (s.strand 0).det = false ∧ (∃ f, formOf (.vst 2 (mem 10 0)) = some f ∧ Ready s 0 f)
       ∧ (∃ f, formOf (.vsts 2 (mem 10 11)) = some f ∧ Ready s 0 f) ∧ (∃ f, formOf (.vst2d 2 (mem 10 11)) = some f ∧ Ready s 0 f)
       ∧ (∀ p ∈ grid, s.vecXlate (s.acc 0) (0x100 + BitVec.ofNat 64 ((p.1 * 4 + p.2) * 32 / 8)) false true = .ok (0x100 + (p.1 * 4 + p.2) * 4)
           ∧ Plain s (0x100 + (p.1 * 4 + p.2) * 4) 4 ∧ (0x100 + (p.1 * 4 + p.2) * 4) % 4 = 0 ∧ s.heldAt (0x100 + (p.1 * 4 + p.2) * 4) = false))
    ∧ (let s := base .E (setX 10 0x102)
       vtSew (s.strand 0).vtype ≠ 4 ∧ (s.readX 0 .E 10).toNat % 4 ≠ 0 ∧ CanTrap s 0 lines)
    ∧ (let s := running .E id launch { team with plats := [plat], arena := 0x20000 }
       s.verifyHeld 0 (s.readX 0 .E 10) = false ∧ (s.platCheck 0 .E (s.readX 0 .E 10)).2 = .ok plat
         ∧ (∀ a ∈ plat.pas.flatMap id, s.inPart (s.acc 0) a = true ∧ s.poisonedTo (s.strand 0).task 0 .E a = false ∧ Plain s a 1)
         ∧ plat.sz * 8 = vtSew (s.strand 0).vtype ∧ plat.ta.length = plat.n ∧ plat.pas.length = plat.n
         ∧ (∀ j, j < plat.n → (plat.pas.getD j []).length = plat.sz ∧ (plat.pas.getD j []).Nodup) ∧ plat.wr.getD 0 false = true
         ∧ fld (s.strand 0).vstart 0 16 = 0 ∧ ∃ f, formOf (.vstp 2 (mem 10 0) 7 .last) = some f ∧ Ready s 0 f)
    ∧ (let l := { launch with hdr := { header with drain := 0x10000 } }
       let s := running .E (setX 10 0x100 ∘ fun x => { x with dmode := 1 }) l team
       (∃ f, formOf (.vst 2 (mem 10 0)) = some f ∧ Ready s 0 f) ∧ (s.strand 0).det = true ∧ (s.strand 0).task = some task ∧ s.teamOf 0 = some team
         ∧ s.launchOf 0 = some l ∧ team.charge + 128 * 1 ≤ l.hdr.share
         ∧ (grid.all fun p => isOk (s.vecXlate (s.acc 0) (0x100 + BitVec.ofNat 64 ((p.1 * 4 + p.2) * 32 / 8)) false true) (0x100 + (p.1 * 4 + p.2) * 4)
             && !s.ownScr (0x100 + (p.1 * 4 + p.2) * 4) && (0x100 + (p.1 * 4 + p.2) * 4) / 64 == 4
             && !s.lostAt (0x100 + (p.1 * 4 + p.2) * 4) && !s.heldAt (0x100 + (p.1 * 4 + p.2) * 4)) = true ∧ s.seals = [])
    ∧ (bufferedState.wcb = buffered :: [] ∧ bufferedState.heldAt buffered.pa = false ∧ bufferedState.lostAt buffered.pa = false)
    ∧ (∀ d ∈ [buffered], d.key < 2 ^ 513) := by
  have hm : ∀ s : State, s.seals = [] → (s.teams.all fun t => t.plats.all fun p => plat.pas.all fun l => l.all fun a =>
      !meets a 1 (platPa t p) p.foot && !s.lostAt a) = true → s.teams ≠ [] → (∀ t ∈ s.teams, t.plats ≠ []) →
      ∀ a ∈ plat.pas.flatMap id, Plain s a 1 := by
    intro s h1 h2 h3 h4 a ha
    obtain ⟨l, hl, hal⟩ := List.mem_flatMap.mp ha
    simp only [List.all_eq_true, Bool.and_eq_true, Bool.not_eq_true'] at h2
    refine ⟨by simp [h1], fun _ t ht p hp => (h2 t ht p hp l hl a hal).1, ?_⟩
    obtain ⟨t, ht⟩ := List.exists_mem_of_ne_nil _ h3
    obtain ⟨p, hp⟩ := List.exists_mem_of_ne_nil _ (h4 t ht)
    exact (h2 t ht p hp l hl a hal).2
  refine ⟨⟨?_, ready_ex rfl ?_, ready_ex rfl ?_, ready_ex rfl ?_, fun p hp => ?_⟩, ⟨?_, ?_, canTrap_of ?_⟩,
    ⟨?_, ok_of ?_, fun a ha => ⟨?_, ?_, hm _ rfl ?_ ?_ ?_ a ha⟩, ?_, ?_, ?_, ?_, ?_, ?_, ready_ex rfl ?_⟩,
    ⟨ready_ex rfl ?_, ?_, ?_, ?_, ?_, ?_, ?_, rfl⟩, by decide +kernel, fun d hd => by rw [List.mem_singleton.mp hd]; exact Nat.two_pow_pos 513⟩
  case refine_5 =>
    have h : (grid.all fun p => isOk ((base .E (setX 10 0x100 ∘ setX 11 8)).vecXlate ((base .E (setX 10 0x100 ∘ setX 11 8)).acc 0)
        (0x100 + BitVec.ofNat 64 ((p.1 * 4 + p.2) * 32 / 8)) false true) (0x100 + (p.1 * 4 + p.2) * 4)
        && !(base .E (setX 10 0x100 ∘ setX 11 8)).lostAt (0x100 + (p.1 * 4 + p.2) * 4)
        && !(base .E (setX 10 0x100 ∘ setX 11 8)).heldAt (0x100 + (p.1 * 4 + p.2) * 4)) = true := by decide +kernel
    have := List.all_eq_true.mp h p hp
    simp only [Bool.and_eq_true, Bool.not_eq_true'] at this
    exact ⟨ok_of this.1.1, plain_of rfl (.inl rfl) this.1.2, by omega, this.2⟩
  case refine_11 =>
    have h : ((plat.pas.flatMap id).all fun a => (running .E id launch { team with plats := [plat], arena := 0x20000 }).inPart
        ((running .E id launch { team with plats := [plat], arena := 0x20000 }).acc 0) a) = true := by decide +kernel
    exact List.all_eq_true.mp h a ha
  case refine_12 =>
    have h : ((plat.pas.flatMap id).all fun a => !(running .E id launch { team with plats := [plat], arena := 0x20000 }).poisonedTo
        ((running .E id launch { team with plats := [plat], arena := 0x20000 }).strand 0).task 0 .E a) = true := by
      decide +kernel
    simpa using List.all_eq_true.mp h a ha
  all_goals decide +kernel

/-- An FP16 strand, and a state whose slot 1 holds an FP16 tile of four rows and one column. -/
def half (x : Strand) : Strand := { x with vtype := 0x202 }

def slotted (f : Strand → Strand) : State :=
  let s := base .E f
  { s with mat := { s.mat with slots := s.mat.slots.set 1 { Slot.reset with loaded := true, cls := .fp16, sew := 2, kk := 4, nn := 1 } } }

theorem engineReady_of {s : State} {st : Fin 4} (h1 : s.own st = some s) (h2 : (s.mat.mq.isEmpty && s.mat.deep.isEmpty && !s.engineStopped) = true) :
    EngineReady s st := by
  simp only [Bool.and_eq_true, Bool.not_eq_true', List.isEmpty_iff] at h2
  exact ⟨h1, h2.1.1, h2.1.2, h2.2⟩

theorem witness_TileResults : EngineReady (slotted half) 0
    ∧ (∃ f, formOf (.azero { vd := 11, vs1 := 0, vs2 := 0 } { Ext.base with xs2 := 7, xs := 6 }) = some f ∧ Ready (slotted (half ∘ setX 6 100 ∘ setX 7 28)) 0 f)
    ∧ (∃ f, formOf (.awr { vd := 0, vs1 := 4, vs2 := 0 } { Ext.base with tix := 7, fx := 11 }) = some f ∧ Ready (slotted half) 0 f)
    ∧ 16 * 7 + ((slotted half).strand 0).vlr.toNat ≤ 128 ∧ ((slotted half).strand 0).vlr.toNat ≤ vtG ((slotted half).strand 0).vtype
    ∧ vtFp ((slotted half).strand 0).vtype ≠ none
    ∧ (let s := slotted half
       let x := s.strand 0
       ∃ f, formOf (.mma { vd := 11, vs1 := 4, vs2 := 1 } { Ext.base with tix := 7 }) = some f ∧ Ready s 0 f
         ∧ x.mclass x.vtype = some .fp16 ∧ (s.mat.slots.get (fin 16 1)).loaded = true ∧ (s.mat.slots.get (fin 16 1)).cls = .fp16
         ∧ x.vlc.toNat ≤ (s.mat.slots.get (fin 16 1)).kk ∧ 0 < x.vlc.toNat
         ∧ x.mmaData (x.capture s.cur.words f) .fp16 (x.frOf .fp16 x.vtype) 4 (s.mat.slots.get (fin 16 1)) [] = none)
    ∧ (∃ f, formOf (.mma { vd := 12, vs1 := 4, vs2 := 1 } Ext.base) = some f ∧ Ready (slotted half) 0 f) ∧ CanTrap (slotted half) 0 lines := by
  refine ⟨engineReady_of rfl ?_, ready_ex rfl ?_, ready_ex rfl ?_, ?_, ?_, ?_, ⟨_, rfl, ready_of ?_, ?_, ?_, ?_, ?_, ?_, ?_⟩, ready_ex rfl ?_,
    canTrap_of ?_⟩ <;> decide +kernel

/-- A tile of four rows and one column, each element read as zero; a slot that the launch owns; and its other operations. -/
theorem witness_SlotAndEpilogueResults :
    (let s := slotted (half ∘ setX 10 0x100 ∘ setX 11 0x10004)
     let b : BldSrc := { cls := .fp16, sew := 2, fr := 0, a := s.readX 0 .E 10, sh := s.readX 0 .E 11, scl := none, ol := none }
     EngineReady s 0 ∧ (∃ f, formOf (.bld { vd := 15, vs1 := 0, vs2 := 0 } { Ext.base with xs := 10, xs2 := 11 }) = some f ∧ Ready s 0 f)
       ∧ (s.strand 0).mclass (s.strand 0).vtype = some .fp16 ∧ b.nn = 1 ∧ b.kk = 4 ∧ (s.readX 0 .E 10).toNat % 2 = 0
       ∧ (s.mat.slots.get (fin 16 15)).rowmap = false ∧ s.bldHeld 0 b = false
       ∧ ∀ i : Fin 4, s.portRead (s.acc 0) (some (0, .E)) (tileVa b.a b.sh 16 i.val 0).1 2 = .ok 0)
    ∧ (∃ f, formOf (.ard { vd := 2, vs1 := 0, vs2 := 0 } { Ext.base with tix := 7, fx := 11 }) = some f ∧ Ready (slotted half) 0 f)
    ∧ vtFp ((slotted half).strand 0).vtype ≠ none ∧ DestOk 2 ((slotted half).strand 0).vlr.toNat
    ∧ (let s := slotted fun x => { x with vtype := 0x212 }
       EngineReady s 0 ∧ vtKind (s.strand 0).vtype = 2 ∧ CanTrap s 0 lines
         ∧ (∃ f, formOf (.ard { vd := 2, vs1 := 0, vs2 := 0 } { Ext.base with tix := 7, fx := 0x4B }) = some f ∧ Ready s 0 f))
    ∧ (∃ f, formOf (.eptk { vd := 0, vs1 := 0, vs2 := 0 } { Ext.base with tix := 7, fx := 0x2B }) = some f ∧ Ready (slotted half) 0 f)
    ∧ (∃ f, formOf (.eptk { vd := 2, vs1 := 0, vs2 := 4 } { Ext.base with tix := 7, fx := 0xAB }) = some f ∧ Ready (slotted half) 0 f)
    ∧ (let s := { slotted half with mat := { (slotted half).mat with owner := some 0 } }
       EngineReady s 0 ∧ s.mat.owner = some 0 ∧ (s.mat.slots.get (fin 16 1)).pin = none ∧ (s.mat.slots.get (fin 16 1)).rowmap = false
         ∧ (∃ f, formOf (.bslotPin 1) = some f ∧ Ready s 0 f) ∧ (∃ f, formOf (.bslotUnpin 1) = some f ∧ Ready s 0 f)
         ∧ (∃ f, formOf (.bslotRelease 1) = some f ∧ Ready s 0 f) ∧ (∃ f, formOf (.bslotQuery 5 1) = some f ∧ Ready s 0 f)) := by
  refine ⟨⟨engineReady_of rfl ?_, ready_ex rfl ?_, ?_, ?_, ?_, ?_, ?_, ?_, fun i => ok_of ?_⟩, ready_ex rfl ?_, ?_, .inl ?_,
    ⟨engineReady_of rfl ?_, ?_, canTrap_of ?_, ready_ex rfl ?_⟩, ready_ex rfl ?_, ready_ex rfl ?_, engineReady_of rfl ?_, ?_, ?_, ?_, ready_ex rfl ?_, ready_ex rfl ?_, ready_ex rfl ?_, ready_ex rfl ?_⟩
  case refine_9 => revert i; decide +kernel
  all_goals decide +kernel

/-! #### The row engine -/

/-- The map of four FP16 rows of two columns with two resident positions, the first of which holds row 0 (R236). -/
def rowMap : RowMap where
  launch := 0
  asid := 0
  key := 0
  cls := .fp16
  sew := 2
  slot := some 3
  shift := 1
  kk := 4
  nn := 2
  margin := 1
  cap := 2
  fmt := 0
  wa := 0x9000
  stride := 4
  scaleA := 0
  countA := 0xA000
  listA := 0xB000
  deepA := 0
  list := [some 0, none]
  stale := [false, false]
  pending := []
  gen := 0
  sealKey := none
  fixed := []
  xl := [(0, 0)]

/-- Its descriptor and its list in memory. -/
def described : State :=
  putWords 0xB000 [0, 0xFFFFFFFF] (putWords 0x8000 [0x4D574F52, 0x01031201, 4, 0x00010002, 2, 0, 0x9000, 0, 4, 0, 0, 0, 0xA000, 0, 0xB000]
    (slotted (half ∘ setX 10 0x8000)))

/-- The map bound as entry 1. -/
def bound : State :=
  { described with mat := { described.mat with maps := described.mat.maps.set 1 (some { rowMap with sealKey := some 0x100000 }) } }

/-- The same map under a key slot that is cleared. -/
def cleared : State :=
  let s := described.modStrand 0 fun x => { x with aspace := x.aspace ||| 0x1000 }
  { s with mat := { s.mat with maps := s.mat.maps.set 1 (some { rowMap with key := 1, sealKey := some 0x100000 }) } }

theorem rowMap_apart : let r := rowMap
    let apart := (List.range r.kk).flatMap (fun k => r.pas (r.counterVa k) 2) ++ r.pas r.listA (4 * r.cap)
    apart.Nodup ∧ (∀ a ∈ apart, Plain bound a 1 ∧ bound.heldAt a = false ∧ bound.poisoned a = false ∧ ∀ e ∈ bound.wcb, e.pa / 64 ≠ a / 64) := by
  refine ⟨by decide +kernel, fun a ha => ?_⟩
  have h : (((List.range rowMap.kk).flatMap (fun k => rowMap.pas (rowMap.counterVa k) 2) ++ rowMap.pas rowMap.listA (4 * rowMap.cap)).all fun a =>
      !bound.lostAt a && !bound.heldAt a && !bound.poisoned a) = true := by decide +kernel
  have := List.all_eq_true.mp h a ha
  simp only [Bool.and_eq_true, Bool.not_eq_true'] at this
  exact ⟨plain_of rfl (.inl rfl) this.1.1, this.1.2, this.2, fun e he => by cases he⟩

theorem witness_RowMapResults :
    (let s := bound
     let x := s.strand 0
     let r : RowMap := { rowMap with sealKey := some 0x100000 }
     EngineReady s 0 ∧ s.mapCheck 0 1 false = .ok r ∧ s.mapCheck 0 1 true = .ok r ∧ x.vlr.toNat ≤ vtG x.vtype
       ∧ (∃ f, formOf (.rmfire 4 1) = some f ∧ Ready s 0 f ∧ x.rowOperand (x.capture s.cur.words f) r = none)
       ∧ r.pending.wf = true ∧ (∀ e ∈ r.pending, e.1 < r.kk) ∧ r.list.length = r.cap ∧ r.stale.length = r.cap
       ∧ (∀ k ∈ r.list, ∀ i, k = some i → i < 2 ^ 32) ∧ s.mapHeld r [] = false
       ∧ (∃ f, formOf (.rmage 1) = some f ∧ Ready s 0 f) ∧ (∃ f, formOf (.rmqry 5 1) = some f ∧ Ready s 0 f)
       ∧ (∃ f, formOf (.rmmig 5 1) = some f ∧ Ready s 0 f) ∧ s.mapPoison r [(r.countA, 2 * r.kk)] = none ∧ s.keyless (BitVec.ofNat 6 r.key) = false
       ∧ (∃ f, formOf (.rmbindUnbind 1) = some f ∧ Ready s 0 f))
    ∧ (let s := cleared
       let r : RowMap := { rowMap with key := 1, sealKey := some 0x100000 }
       EngineReady s 0 ∧ s.mapCheck 0 1 true = .ok r ∧ s.mapHeld r [] = false ∧ s.keyless (BitVec.ofNat 6 r.key) = true ∧ 0 < r.kk
         ∧ (∀ a ∈ r.pas r.countA (2 * r.kk), isHbm a = true) ∧ CanTrap s 0 lines ∧ (∃ f, formOf (.rmage 1) = some f ∧ Ready s 0 f)
         ∧ ∃ f, formOf (.rmqry 5 1) = some f ∧ Ready s 0 f)
    ∧ (let s := described
       ∃ pas, s.xlateBytes (s.acc 0) (s.readX 0 .E 10) 128 true false = .ok pas ∧ s.anyHeld pas = false ∧ (∀ a ∈ pas, s.poisonedFor (some (0, .E)) a = false)
         ∧ (let b := s.bytesAt (some (0, .E)) (s.slotKey (s.acc 0).key) pas
            descNat b 0 4 = 0x4D574F52 ∧ descNat b 4 1 = 1 ∧ descBad b = []
              ∧ s.bindRead (s.acc 0) (descMap b 0 (s.acc 0)) 1 (s.readX 0 .E 10) = .ok rowMap)
         ∧ s.mapHeld rowMap ((rowMap.wa, rowMap.panelLen) :: (rowMap.ranges.map fun g => (g.1, g.2.1))) = false
         ∧ s.bindCheck rowMap 1 = .ok (256 * 4096) ∧ ∃ f, formOf (.rmbind 5 10 1) = some f ∧ Ready s 0 f)
    ∧ (let s := slotted (half ∘ setX 10 0x8000)
       s.mat.map 1 = none ∧ descNat (s.bytesAt (some (0, .E)) 0 ((List.range 128).map fun i => 0x8000 + i)) 0 4 ≠ 0x4D574F52
         ∧ (∃ f, formOf (.rmage 1) = some f ∧ Ready s 0 f) ∧ CanTrap s 0 lines) := by
  refine ⟨⟨engineReady_of rfl ?_, ok_of ?_, ok_of ?_, ?_, ⟨_, rfl, ready_of ?_, ?_⟩, ?_, ?_, ?_, ?_, ?_, ?_, ready_ex rfl ?_, ready_ex rfl ?_,
      ready_ex rfl ?_, ?_, ?_, ready_ex rfl ?_⟩,
    ⟨engineReady_of rfl ?_, ok_of ?_, ?_, ?_, ?_, ?_, canTrap_of ?_, ready_ex rfl ?_, ready_ex rfl ?_⟩,
    ⟨(List.range 128).map fun i => 0x8000 + i, ok_of ?_, ?_, ?_, ⟨?_, ?_, ?_, ok_of ?_⟩, ?_, ok_of ?_, ready_ex rfl ?_⟩,
    ?_, ?_, ready_ex rfl ?_, canTrap_of ?_⟩
  case refine_11 =>
    intro k hk i hi
    simp only [rowMap, List.mem_cons, List.not_mem_nil, or_false] at hk
    rcases hk with rfl | rfl <;> simp_all
    omega
  all_goals decide +kernel

/-- A deep part on its way: of an `RMMUL` of two rows into tiles 4 and 5. -/
def deepPart : DeepPart where
  strand := 0
  aT := 4
  aJ := 5
  row0 := 0
  ent := { strand := 0, task := none, ent := { queued with form := .row 2 false 0 0 0 5 4 4 1, vtype := 0x202 }, rows := [0, 0], scale := 0, list := []
           fr := 0, pred := 0, slot := none, steps := 0 }
  map := rowMap
  ks := [1, 2, 3]
  flagsR := 0
  flagsD := 0
  lost := false
  told := false
  fault := none
  code := none
  ready := false

/-- A state with a deep part. -/
def withDeep (d : DeepPart) : State := { bound with mat := { bound.mat with deep := [d] } }

theorem witness_SplitProduct :
    (let s := bound
     let x := s.strand 0
     let r : RowMap := { rowMap with sealKey := some 0x100000 }
     EngineReady s 0 ∧ s.mapCheck 0 1 true = .ok r
       ∧ (∃ f, formOf (.rmmul false 4 5 4 1 7) = some f ∧ Ready s 0 f ∧ x.rowOperand (x.capture s.cur.words f) r = none
           ∧ x.escapes (x.capture s.cur.words f) r.cls (x.frOf r.cls x.vtype) 4 = [])
       ∧ (∃ f, formOf (.rmmul false 4 5 4 1 7) = some f
           ∧ s.rowCode r (x.matEntry 0 (x.capture s.cur.words f) 4 (x.frOf r.cls x.vtype) [] 0 none) = none)
       ∧ s.keyless (BitVec.ofNat 6 r.key) = false ∧ s.fifoFull 0 2 = false ∧ s.stackHolds 0 .E = false ∧ x.vlr.toNat ≤ vtG x.vtype ∧ 16 * 7 + x.vlr.toNat ≤ 128 ∧ r.nn ≤ 128 ∧ r.list.length = r.stale.length)
    ∧ (let s := withDeep deepPart
       let d := deepPart
       s.mat.deep = [d] ∧ d.strand = 0 ∧ d.aJ = 5 ∧ d.ready = false ∧ d.row0 + d.ent.ent.rows ≤ 128 ∧ d.map.nn ≤ 128
         ∧ s.keyless (BitVec.ofNat 6 d.map.key) = false ∧ s.anyHeld (d.map.pasOf (d.fired.flatMap fun k => d.map.rowRanges k)) = false)
    ∧ (let d := { deepPart with ready := true }
       let s := withDeep d
       s.own 0 = some s ∧ s.mat.mq = [] ∧ s.mat.deep = [d] ∧ d.ent.task = (s.strand 0).task ∧ d.ready = true ∧ d.lost = false ∧ d.fault = none ∧ d.code = none ∧ ∃ f, formOf (.rmjoin 4 5) = some f ∧ Ready s 0 f)
    ∧ (let s := bound
       s.own 0 = some s ∧ s.mat.mq = [] ∧ s.mat.deep = [] ∧ CanTrap s 0 lines ∧ ∃ f, formOf (.rmjoin 4 5) = some f ∧ Ready s 0 f) := by
  refine ⟨⟨engineReady_of rfl ?_, ok_of ?_, ⟨_, rfl, ready_of ?_, ?_, ?_⟩, ⟨_, rfl, ?_⟩, ?_, ?_, ?_, ?_, ?_, ?_, ?_⟩, ⟨rfl, rfl, rfl, rfl, ?_, ?_, ?_, ?_⟩,
    ⟨rfl, rfl, rfl, rfl, rfl, rfl, rfl, rfl, ready_ex rfl ?_⟩, rfl, rfl, rfl, canTrap_of ?_, ready_ex rfl ?_⟩ <;> decide +kernel

/-! #### Sparse matrices and coefficient memory -/

/-- The worked addition, one line of it; and the same with A's magic number destroyed. -/
def oneLine : State := sparseState.modStrand 0 (setX 13 1)

def noMagic : State := put 0x4000 [0] oneLine

/-- The headers of A and B, and of C. -/
def hdrA : SpHdr where
  csc := false
  pb := 4
  ib := 2
  ty := 0
  ez := false
  rows := 4
  cols := 8
  nnz := 5
  pa := 0x4040
  ia := 0x4080
  va := 0x40C0

def hdrB : SpHdr := { hdrA with nnz := 7, pa := 0x5040, ia := 0x5080, va := 0x50C0 }

def hdrC : SpHdr := { hdrA with nnz := 6, pa := 0x6040, ia := 0x6080, va := 0x60C0 }

/-- Line 0 of A, of B and of their merge, in which the entry of column 4 cancels. -/
def lineA : List (Nat × Nat) := [(1, 0x3F800000), (4, 0x40000000)]

def lineB : List (Nat × Nat) := [(4, 0xC0000000), (6, 0x3F800000)]

def lineM : List (Nat × Nat) := [(1, 0x3F800000), (6, 0x3F800000)]

theorem merge_line : MergeOf hdrA false lineA lineB lineM := by
  have h : hdrA.add 0x40000000 0xC0000000 = 0 := by decide +kernel
  have z0 : hdrA.zero 0 = true := by decide
  have z1 : hdrA.zero 0x3F800000 = false := by decide
  refine ⟨by decide, fun i v => ?_⟩
  simp only [lineA, lineB, lineM, List.mem_cons, List.not_mem_nil, or_false, Prod.mk.injEq, List.map_cons, List.map_nil]
  constructor
  · rintro (⟨rfl, rfl⟩ | ⟨rfl, rfl⟩)
    · exact ⟨.inr z1, .inl ⟨.inl ⟨rfl, rfl⟩, by decide⟩⟩
    · exact ⟨.inr z1, .inr (.inl ⟨.inr ⟨rfl, rfl⟩, by decide⟩)⟩
  · rintro ⟨hz, (⟨⟨rfl, rfl⟩ | ⟨rfl, rfl⟩, hn⟩ | ⟨⟨rfl, rfl⟩ | ⟨rfl, rfl⟩, hn⟩ | ⟨x, y, ⟨rfl, rfl⟩ | ⟨rfl, rfl⟩, ⟨hi, hy⟩ | ⟨hi, hy⟩, hv⟩)⟩
    · exact .inl ⟨rfl, rfl⟩
    · exact absurd (.inl rfl) hn
    · exact absurd (.inr rfl) hn
    · exact .inr ⟨rfl, rfl⟩
    · exact absurd hi (by decide)
    · exact absurd hi (by decide)
    · subst hy; rw [hv, h, z0] at hz; rcases hz with hz | hz <;> cases hz
    · exact absurd hi (by decide)

/-- Byte addresses of main memory behind a VA that translate to themselves. -/
def landsB (s : State) (va n : Nat) : Bool :=
  (List.range n).all fun j => isOk (s.vecXlate (s.acc 0) (BitVec.ofNat 64 va + BitVec.ofNat 64 j) false true) (va + j)

theorem lands_of {s : State} {va n : Nat} (h : landsB s va n = true) (pas : List Nat) (hp : pas = (List.range n).map fun j => va + j) :
    ∀ j (hj : j < pas.length), s.vecXlate (s.acc 0) (BitVec.ofNat 64 va + BitVec.ofNat 64 j) false true = .ok pas[j] := by
  subst hp
  intro j hj
  rw [List.length_map, List.length_range] at hj
  rw [List.getElem_map, List.getElem_range]
  exact ok_of (List.all_eq_true.mp h j (List.mem_range.mpr hj))

/-- A well-formed header, one without its magic number, the whole matrix, and line 0 of the addition. -/
theorem witness_SparseResults : oneLine.cur.agent = .stream 0 .A ∧ oneLine.memBusy 0 .A = false
    ∧ (∃ b, (oneLine.readX 0 .A 10).toNat % 64 = 0 ∧ oneLine.spBytes 0 .A (oneLine.readX 0 .A 10) 64 = .ok b ∧ hdrNat b 0 4 = 0x584D5053
        ∧ hdrNat b 4 1 = 1 ∧ hdrNat b 5 1 < 8 ∧ hdrNat b 6 1 < 4 ∧ (hdrNat b 7 1 = 1 ∨ hdrNat b 7 1 = 3) ∧ 1 ≤ hdrNat b 8 4 ∧ 1 ≤ hdrNat b 0xC 4
        ∧ hdrNat b 0xC 4 ≤ 65536 ∧ hdrNat b 0x10 8 < 2 ^ 32 ∧ (∀ i, i < 16 → hdrNat b (0x30 + i) 1 = 0) ∧ hdrNat b 0x18 8 % 4 = 0
        ∧ hdrNat b 0x20 8 % 2 = 0 ∧ hdrNat b 0x28 8 % 4 = 0)
    ∧ (∃ b, noMagic.spBytes 0 .A (noMagic.readX 0 .A 10) 64 = .ok b ∧ hdrNat b 0 4 ≠ 0x584D5053 ∧ CanTrap noMagic 0 lines)
    ∧ oneLine.spHeader 0 .A (oneLine.readX 0 .A 10) 0 = .ok hdrA ∧ (∀ l, l < hdrA.major → ∃ e, oneLine.spLine 0 .A hdrA 0 true l = .ok e)
    ∧ oneLine.spHeader 0 .A (oneLine.readX 0 .A 11) 1 = .ok hdrB ∧ hdrA.agrees hdrB = true ∧ (oneLine.readX 0 .A 13).toNat = 1
    ∧ (oneLine.readX 0 .A 12).toNat + 1 ≤ hdrA.major ∧ oneLine.spLine 0 .A hdrA 0 false 0 = .ok lineA
    ∧ oneLine.spLine 0 .A hdrB 1 false 0 = .ok lineB ∧ MergeOf hdrA false lineA lineB lineM ∧ (oneLine.strand 0).det = false
    ∧ oneLine.fits 0 0 = true ∧ (oneLine.readX 0 .A 20).toNat % 4 = 0
    ∧ (∃ pas : List Nat, pas.length = 4 ∧ Writable oneLine pas
        ∧ ∀ j (h : j < pas.length), oneLine.vecXlate (oneLine.acc 0) (0x7000#64 + BitVec.ofNat 64 j) false true = .ok pas[j])
    ∧ oneLine.spHeader 0 .A (oneLine.readX 0 .A 14) 2 = .ok hdrC ∧ hdrA.agrees hdrC = true ∧ oneLine.spElem 0 .A hdrC.pa hdrC.pb 0 = .ok 0
    ∧ oneLine.spElem 0 .A hdrC.pa hdrC.pb 1 = .ok (0 + lineM.length) ∧ lineM.length ≤ hdrC.nnz ∧ oneLine.spOverlap 0 hdrA hdrB hdrC = false
    ∧ (∃ pi pv : List Nat, pi.length = hdrC.ib * lineM.length ∧ pv.length = hdrC.vb * lineM.length ∧ Writable oneLine (pi ++ pv)
        ∧ (∀ j (h : j < pi.length), oneLine.vecXlate (oneLine.acc 0) (0x6080#64 + BitVec.ofNat 64 j) false true = .ok pi[j])
        ∧ ∀ j (h : j < pv.length), oneLine.vecXlate (oneLine.acc 0) (0x60C0#64 + BitVec.ofNat 64 j) false true = .ok pv[j]) := by
  refine ⟨rfl, ?_, ⟨oneLine.homeBytes 0 ((List.range 64).map fun i => 0x4000 + i), ?_⟩,
    ⟨noMagic.homeBytes 0 ((List.range 64).map fun i => 0x4000 + i), ok_of (by decide +kernel), ?_,
      canTrap_of (by decide +kernel)⟩,
    ok_of (by decide +kernel), fun l hl => ?_, ok_of (by decide +kernel), ?_, ?_, ?_,
    ok_of (by decide +kernel), ok_of (by decide +kernel), merge_line, ?_, ?_, ?_,
    ⟨(List.range 4).map fun j => 0x7000 + j, rfl, writable_of (by decide) (by decide +kernel) rfl, lands_of (by decide +kernel) _ rfl⟩,
    ok_of (by decide +kernel), ?_, ok_of (by decide +kernel), ok_of (by decide +kernel), by decide, ?_,
    ⟨(List.range 4).map fun j => 0x6080 + j, (List.range 8).map fun j => 0x60C0 + j, rfl, rfl,
      writable_of (by decide) (by decide +kernel) rfl, lands_of (by decide +kernel) _ rfl, lands_of (by decide +kernel) _ rfl⟩⟩
  any_goals decide +kernel
  · have h : (List.range 4).all (fun l => (oneLine.spLine 0 .A hdrA 0 true l).toBool) = true := by decide +kernel
    have := List.all_eq_true.mp h l (List.mem_range.mpr hl)
    cases e : oneLine.spLine 0 .A hdrA 0 true l with
    | ok v => exact ⟨v, rfl⟩
    | error v => rw [e] at this; cases this

/-- A state whose register x10 points at a coefficient image of zeros. -/
def coefState : State := { base .A (setX 10 0x4000) with mem := [] }

/-- The addresses below 1 GiB translate to themselves. -/
theorem xlate_low (i : Nat) (hi : i < 2 ^ 20) : coefState.vecXlate (coefState.acc 0)
    (0x4000#64 + BitVec.ofNat 64 i) true false = .ok (0x4000 + i) := by
  have hv : (0x4000#64 + BitVec.ofNat 64 i).toNat = 0x4000 + i := by
    rw [BitVec.toNat_add, BitVec.toNat_ofNat, BitVec.toNat_ofNat]
    omega
  have h0 : fld (0x4000#64 + BitVec.ofNat 64 i) 0 30 = 0x4000 + i := by
    simp only [fld, BitVec.extractLsb'_toNat, hv, Nat.shiftRight_zero]
    omega
  have h30 : fld (0x4000#64 + BitVec.ofNat 64 i) 30 27 = 0 := by
    simp only [fld, BitVec.extractLsb'_toNat, hv, Nat.shiftRight_eq_div_pow]
    omega
  have hc : canonical (0x4000#64 + BitVec.ofNat 64 i) = true := by
    have h56 : (0x4000#64 + BitVec.ofNat 64 i).getLsbD 56 = false := by
      rw [BitVec.getLsbD, hv]
      exact Nat.testBit_lt_two_pow (by omega)
    have h57 : (0x4000#64 + BitVec.ofNat 64 i).extractLsb' 57 7 = 0#7 := by
      apply BitVec.eq_of_toNat_eq
      simp only [BitVec.extractLsb'_toNat, hv, Nat.shiftRight_eq_div_pow]
      have : (0x4000 + i) / 2 ^ 57 = 0 := by omega
      rw [this]
      rfl
    rw [canonical, h56, h57]
    rfl
  have hm : coefState.vmapOf (coefState.acc 0).asid = [entry 0 0, entry 1 (2 ^ 23)] := by decide +kernel
  have he : vmapEntry [entry 0 0, entry 1 (2 ^ 23)] (0x4000#64 + BitVec.ofNat 64 i) = some (entry 0 0) := by
    simp only [vmapEntry, h30]
    decide
  have ht : paType (0x4000 + i) = 0 := by simp only [paType]; omega
  have hl : (0x4000 + i) % 2 ^ 52 < 1536 * 2 ^ 30 := by omega
  have hk : coefState.keyless (coefState.acc 0).key = false := by decide +kernel
  have hr : ((entry 0 0).getLsbD 62) = true := by decide
  have hf : fld (entry 0 0) 30 26 * 2 ^ 30 + (0x4000 + i) = 0x4000 + i := by
    have : fld (entry 0 0) 30 26 = 0 := by decide
    omega
  rw [State.vecXlate, State.xlateVia, hm, hc, he, h0]
  simp only [hf, hr, State.checkTarget, ht, hk, hl, if_true, Bool.false_and, Bool.not_true, Bool.and_false, Bool.or_self, Bool.false_eq_true, if_false]

/-- No stack of the small states is held or retired, and its memory reads 0. -/
theorem quiet (pa : Nat) : (pa < 2 ^ 52 → coefState.heldAt pa = false) ∧ coefState.poisonedFor (some (0, .A)) pa = false
    ∧ coefState.viewByte (some (0, .A)) (coefState.slotKey (coefState.acc 0).key) pa = 0 := by
  have h : ∀ i, (coefState.stks.get i).hold = .none := by decide +kernel
  have hk : coefState.slotKey (coefState.acc 0).key = 0 := by decide +kernel
  refine ⟨?_, ?_, ?_⟩
  · intro hp
    have hs : ∀ n, coefState.stackHeld n = false := by decide +kernel
    have ht : paType pa = 0 := by simp only [paType]; omega
    rw [State.heldAt, hs, State.unreachable, inWindow, ht]
    simp
  · have hl : coefState.lostAt pa = false := by rw [State.lostAt, State.stackAt, h]; exact Bool.and_false _
    have hp : coefState.poisoned pa = false := by rw [State.poisoned, hl]; rfl
    rw [State.poisonedFor, State.poisonedTo, hp, Bool.false_and]
  · rw [hk]
    have hb : coefState.homeByte 0 pa = 0 := by
      have ht : coefState.keyTag = [] := by decide +kernel
      have h0 : ∀ (w k : Nat), (Tab.get ([] : Tab w) k).toNat = 0 := fun w k => by
        rw [show Tab.get ([] : Tab w) k = 0 from rfl]; exact BitVec.toNat_ofNat .. |>.trans (Nat.zero_mod _)
      have hg : (coefState.keyTag.get (pa / 64)).toNat = 0 := by rw [ht]; exact h0 513 _
      have hm : coefState.mem.get pa = 0 := rfl
      simp only [State.homeByte, hg, hm, beq_self_eq_true, Bool.true_or, if_true]
    have hs : coefState.viewByte (some (0, .A)) 0 pa = coefState.homeByte 0 pa := by
      have hw : coefState.wcb = [] := rfl
      have hh : coefState.held = [] := rfl
      have hn : ∀ t, coefState.heldSeen t 0 .A pa = [] := fun t => by rw [State.heldSeen, hh]; rfl
      simp only [State.viewByte, State.taskByte, hn, State.coreByte, hw, List.foldl_nil]
    rw [hs, hb]

theorem xlate_bytes {s : State} {a : Acc} {va : W64} {r w : Bool} {f : Nat → Nat} : ∀ n,
    (∀ i, i < n → s.vecXlate a (va + BitVec.ofNat 64 i) r w = .ok (f i)) → s.xlateBytes a va n r w = .ok ((List.range n).map f) := by
  intro n h
  have go : ∀ l : List Nat, (∀ i ∈ l, i < n) →
      l.mapM (fun i => s.vecXlate a (va + BitVec.ofNat 64 i) r w) = Except.ok (l.map f) := by
    intro l
    induction l with
    | nil => intro _; rfl
    | cons i l ih =>
      intro hl
      rw [List.mapM_cons, h i (hl i (.head _)), ih fun j hj => hl j (.tail _ hj)]
      rfl
  exact go _ fun i hi => List.mem_range.mp hi

theorem hdr_zero {l : List Byte} (h : ∀ b ∈ l, b = 0) (o n : Nat) : hdrNat l o n = 0 := by
  have go : ∀ l : List Byte, (∀ b ∈ l, b = 0) → leNat l = 0 := by
    intro l
    induction l with
    | nil => intro _; rfl
    | cons b l ih =>
      intro hl
      rw [leNat, ih fun c hc => hl c (.tail _ hc), hl b (.head _)]
      rfl
  exact go _ fun b hb => h b (List.mem_of_mem_drop (List.mem_of_mem_take hb))

/-- A coefficient image of zeros for one table, one for each, and a deterministic strand. -/
theorem witness_CoefficientLoads :
    (let s := coefState
     s.cur.agent = .stream 0 .A ∧ (s.strand 0).det = false ∧ (s.readX 0 .A 10).toNat % 64 = 0
       ∧ ∀ n, n = 8224 ∨ n = 2 * 8224 → ∃ pas, s.xlateBytes (s.acc 0) (s.readX 0 .A 10) n true false = .ok pas ∧ s.anyHeld pas = false
         ∧ (∀ a ∈ pas, s.poisonedFor (some (0, .A)) a = false)
         ∧ ∀ j, let img := ((s.bytesAt (some (0, .A)) (s.slotKey (s.acc 0).key) pas).drop (8224 * j)).take 8224
             hdrNat img 0xF 1 < 4 ∧ (∀ i, i < 16 → hdrNat img (0x10 + i) 1 = 0) ∧ hdrNat img 0xE 1 ≤ 7 ∧ hdrNat img 0xC 2 ≤ 256)
    ∧ (let s := base .E fun x => { x with dmode := 1 }
       s.cur.agent = .stream 0 .E ∧ (s.strand 0).viq = [] ∧ (s.strand 0).det = true ∧ CanTrap s 0 lines) := by
  refine ⟨⟨rfl, by decide +kernel, by decide +kernel, fun n hn =>
    ⟨(List.range n).map fun i => 0x4000 + i, xlate_bytes n fun i hi => ?_, ?_, fun a _ => ?_, fun j => ?_⟩⟩,
    rfl, by decide +kernel, by decide +kernel, canTrap_of (by decide +kernel)⟩
  · exact xlate_low i (by omega)
  · refine List.any_eq_false.mpr fun a ha => ?_
    obtain ⟨i, hi, rfl⟩ := List.mem_map.mp ha
    have := List.mem_range.mp hi
    simp only [Bool.not_eq_true]
    exact (quiet _).1 (by omega)
  · exact (quiet a).2.1
  · intro img
    have hz : ∀ b ∈ img, b = 0 := by
      intro b hb
      obtain ⟨a, _, rfl⟩ := List.mem_map.mp (List.mem_of_mem_drop (List.mem_of_mem_take hb))
      exact (quiet a).2.2
    simp only [hdr_zero hz]
    decide

/-- A push that copies 64 bytes and records, and its transfer in channel 0. -/
def push : CopyPush where
  src := 0x100
  dst := 0x200
  shape0 := 0
  shape1 := 0
  len := 0x8000000000000040
  mark := 0
  mval := 0
  fold := 0
  dev := true

def copying : Copy where
  strand := 0
  task := none
  acc := (base .A id).acc 0
  id := 0
  push := push
  xl := space.maps.get 0
  refuse := false
  deferred := false
  seq := 0

def shadows (x : Strand) : Strand := { x with shadow := (x.shadow.set 0 push.src).set 1 push.dst |>.set 4 push.len }

/-- Its channel. -/
def inChannel (i : Nat) (c : Copy) (s : State) : State := { s with channels := s.channels.set (fin 16 i).val { seq := 1, copy := some c } }

/-- The conditions of a push, computed. -/
def pushOk (s : State) (p : CopyPush) : Bool :=
  p.formOk && p.misaligned.isNone && !(s.strand 0).det && !s.fifoFull 0 0 && s.fenced 0 .A (if p.dev then .dev else .cor)

theorem push_of {v : State} {p : CopyPush} (h : pushOk v p = true) : p.formOk = true ∧ p.misaligned = none
    ∧ ((v.strand 0).det = true → p.mode ≠ 2 ∧ p.mark = 0 ∧ v.copyInside (v.newCopy 0 0 p false) = true)
    ∧ v.fifoFull 0 0 = false ∧ v.fenced 0 .A (if p.dev then .dev else .cor) = true := by
  simp only [pushOk, Bool.and_eq_true, Bool.not_eq_true', Option.isNone_iff_eq_none] at h
  obtain ⟨⟨⟨⟨h1, h2⟩, h3⟩, h4⟩, h5⟩ := h
  exact ⟨h1, h2, fun e => absurd e (by rw [h3]; decide), h4, h5⟩

/-- A record of a NET command in the partition: a WRITE of 16 bytes. -/
def netRecord (s : State) : State := putWords (2 ^ 52) [1, 16, 0x100, 0, 0x80000005, 0, 0x40, 0, 0x300, 0, 7, 0] s

/-- A push with channel 0 taken, one with all of them, and one that waits; records in the partition; the records of a queue; and the
cancelling of a transfer. -/
theorem witness_EnginePushes :
    (let s := inChannel 0 copying (base .A (shadows ∘ setX 10 0x40000000))
     s.cur.agent = .stream 0 .A ∧ pushOk s push = true ∧ s.copyQ = [] ∧ (s.channels.get 1).copy = none
       ∧ (∀ j : Fin 16, j < 1 → (s.channels.get j).copy ≠ none)
       ∧ (s.readX 0 .A 10).toNat % 64 = 0 ∧ s.fenced 0 .A .dev = true ∧ s.vecXlate (s.acc 0) (s.readX 0 .A 10) true false = .ok (2 ^ 52)
       ∧ s.inPart (s.acc 0) (2 ^ 52) = true ∧ s.anyPoison 0 .A (2 ^ 52) 64 = false
       ∧ netOk ((netRecord s).view (some (0, .A)) 0 (2 ^ 52) 64) = true ∧ (netRecord s).fifoFull 0 4 = false
       ∧ (∀ n ∈ (s.strand 0).net, n.slot ≠ 0) ∧ ∀ j : Fin 16, j < 0 → ∃ n ∈ (s.strand 0).net, n.slot = j)
    ∧ (let s := { base .A shadows with channels := Vector.replicate 16 { seq := 1, copy := some copying } }
       pushOk s push = true ∧ ∀ ch, (s.channels.get ch).copy ≠ none)
    ∧ (let w : CopyWait := { strand := 0, rd := 5, push := push }
       let s := { base .A (fun x => { x with a := { x.a with status := .copyWait } }) with copyQ := [w] }
       s.copyQ = w :: [] ∧ (s.channels.get 0).copy = none ∧ pushOk ({ s with copyQ := [] }.wait w.strand .A .run) w.push = true)
    ∧ (let s := base .A fun x => { x with fifo := x.fifo.set 4 [9, 8] }
       (s.strand 0).fifo.get 4 = 9 :: [8] ∧ (s.strand 0).fifo.get 0 = [] ∧ (s.strand 0).resv.get 0 = 0)
    ∧ (let s := base .A fun x => { x with resv := x.resv.set 0 1 }
       (s.strand 0).fifo.get 0 = [] ∧ 0 < (s.strand 0).resv.get 0)
    ∧ (let s := inChannel 3 copying (base .A id)
       (s.channels.get 3).copy = some copying ∧ copying.strand = 0 ∧ copying.task = (s.strand 0).task
         ∧ copying.id = (s.readX 0 .A 10).extractLsb' 0 16
         ∧ ∀ ch' c', (s.channels.get ch').copy = some c' → ch' = 3) := by
  have h : ∀ ch', ((inChannel 3 copying (base .A id)).channels.get ch').copy.isSome = true → ch' = 3 := by decide +kernel
  refine ⟨⟨rfl, ?_, ?_, ?_, ?_, ?_, ?_, ok_of ?_, ?_, ?_, ?_, ?_, ?_, ?_⟩, ⟨?_, ?_⟩, ⟨rfl, ?_, ?_⟩, ?_, ?_, ?_, rfl, ?_, ?_,
    fun ch' c' e => h ch' (by rw [e]; rfl)⟩ <;> decide +kernel

/-- `Writable` of bytes in a row behind two others, computed. -/
theorem writable_run {s : State} {pa n : Nat} {l : List Nat} (hl : l = (List.range n).map fun i => pa + i)
    (h : (l.all fun a => !s.heldAt a && !s.lostAt a
      && s.teams.all fun t => t.plats.all fun p => a != platPa t p + 5 && a != platPa t p + 6) = true) : Writable s l := by
  have hn : l.Nodup := by
    rw [hl]
    exact List.pairwise_map.mpr (List.nodup_range.imp fun h e => h (Nat.add_left_cancel e))
  simp only [List.all_eq_true, Bool.and_eq_true, Bool.not_eq_true', bne_iff_ne] at h
  refine ⟨hn, fun a ha => (h a ha).1.1, fun a ha => (h a ha).1.2, fun a ha => ?_⟩
  rintro ⟨t, ht, p, hp, e⟩
  have := (h a ha).2 t ht p hp
  exact e.elim this.1 this.2

/-- A transfer of the task, one whose mark follows its destination, a reduction, and one that runs into the end of the scratchpad. -/
def taskCopy : Copy := { copying with task := some task, acc := (running .A id launch team).acc 0 }

def markCopy : Copy := { taskCopy with push := { push with mark := 0x240, mval := 5 } }

def sumCopy : Copy := { taskCopy with push := { push with fold := 0x11 } }

def longCopy : Copy := { taskCopy with push := { push with dst := 0x4001FFF0 } }

/-- A transfer that runs into a page without an entry. -/
def absentCopy : Copy := { taskCopy with push := { push with dst := 0x3FFFFFF0 }, xl := [entry 0 0] }

/-- A connection for every operation, and a state whose chiplets are ready and whose windows it reaches. -/
def link : ConnReq := { modes := [0], ops := [0, 1, 2, 3], credits := false, guarded := true, keyBits := 256, other := false }

def linked (s : State) : State := { s with readiness := Vector.replicate 64 2, conns := [link] }

theorem witness_TransferEnds :
    (let s := inChannel 0 markCopy (running .A id launch team)
     (s.channels.get 0).copy = some markCopy ∧ (s.strand 0).runs markCopy.task = true ∧ 0 < markCopy.push.runs ∧ 63 < markCopy.push.b
       ∧ markCopy.push.count = 64 ∧ markCopy.push.reduces = false ∧ s.copyXlate markCopy markCopy.push.mark false true = .ok 0x240
       ∧ (∀ i, i < 64 → s.copyXlate markCopy (markCopy.push.srcVa i) true false = .ok (0x100 + i)
           ∧ s.copyXlate markCopy (markCopy.push.dstVa i) (markCopy.push.op != 0) true = .ok (0x200 + i)
           ∧ s.heldAt (0x100 + i) = false ∧ s.lostAt (0x100 + i) = false)
       ∧ Writable s (((List.range 64).flatMap fun i => (List.range 1).map fun j => 0x200 + i + j) ++ (List.range 8).map fun j => 0x240 + j))
    ∧ (let s := inChannel 0 sumCopy (running .A id launch team)
       sumCopy.push.reduces = true ∧ sumCopy.push.count = 16 ∧ s.copyXlate sumCopy sumCopy.push.dst true true = .ok 0x200
         ∧ (∀ i, i < 16 → s.copyXlate sumCopy (sumCopy.push.srcVa i) true false = .ok (0x100 + 4 * i))
         ∧ Writable s ((List.range 4).map fun j => 0x200 + j))
    ∧ (let s := inChannel 0 longCopy (running .A id launch team)
       (∀ i, i < 16 → s.copyXlate longCopy (longCopy.push.dstVa i) false true = .ok (2 ^ 52 + 0x1FFF0 + i))
         ∧ (∃ f, s.copyXlate longCopy (longCopy.push.dstVa 16) false true = .error f ∧ f.cause = 7)
         ∧ Writable s ((List.range 16).map fun j => 2 ^ 52 + 0x1FFF0 + j))
    ∧ (let s := inChannel 0 absentCopy { running .A id launch team with spaces := [{ space with maps := Vector.replicate 8 [entry 0 0] }] }
       (∀ i, i < 16 → s.copyXlate absentCopy (absentCopy.push.dstVa i) false true = .ok (0x3FFFFFF0 + i))
         ∧ (∃ f, s.copyXlate absentCopy (absentCopy.push.dstVa 16) false true = .error f ∧ f.cause = 4 ∧ vmapVpn (entry 1 9) = fld f.va 30 27)
         ∧ (entry 1 9).getLsbD 63 = true ∧ vmapReserved (entry 1 9) = 0 ∧ (s.space absentCopy.acc.asid).isSome = true)
    ∧ (∃ f, (inChannel 0 absentCopy (running .A id launch team)).copyXlate absentCopy (absentCopy.push.dstVa 16) false true = .error f ∧ f.cause = 4
         ∧ vmapEntry ((inChannel 0 absentCopy (running .A id launch team)).vmapOf absentCopy.acc.asid) f.va = some (entry 1 (2 ^ 23)))
    ∧ (let s := base .A fun x => { x with pendFault := [9] }
       (s.strand 0).pendFault = 9 :: [] ∧ (s.strand 0).halt = .none ∧ ((s.strand 0).stream .A).status ≠ .absent ∧ (s.strand 0).a.over = false ∧ CanTrap s 0 lines)
    ∧ (∀ op : Byte, op = 0 ∨ op = 1 ∨ op = 2 →
        let n : NetOp := { acc := (running .A id launch team).acc 0, slot := 3, id := 0x3000, op := op, mode := 1, rec_ := true, len := 16, va := 0x100
                           dest := if op = 0 then 6 else 0x5, offset := 0x70, mark := 0x110, mval := 7, task := some task, landed := 0 }
        let s := { linked (running .A (fun x => { x with net := [n] }) launch team) with
          endpoints := [{ id := 6, windows := [] }], windows := [{ number := 5, peer := false, base := 0x1000, len := 0x80, pinned := [] }] }
        (s.strand 0).net = [] ++ n :: [] ∧ (s.strand 0).runs n.task = true ∧ s.netLocal n = .ok ((List.range 16).map (fun i => 0x100 + i), some 0x110)
          ∧ (((List.range 16).map (fun i => 0x100 + i) ++ [0x110]).all fun a => !s.heldAt a && !s.lostAt a) = true ∧ s.netReaches n = true
          ∧ (op ≠ 0 → s.netPa n = some (3 * 2 ^ 52 + 5 * 2 ^ 40 + 0x70))
          ∧ Writable s ((List.range 16).map (fun i => 0x100 + i) ++ (List.range 8).map fun j => 0x110 + j)
          ∧ Writable s ((List.range 16).map (fun j => 3 * 2 ^ 52 + 5 * 2 ^ 40 + 0x70 + j) ++ (List.range 8).map fun j => 0x110 + j)) := by
  have e : ∀ {ε α : Type} {x : Except ε α} {p : ε → Bool},
      (match x with | .error f => p f | .ok _ => false) = true → ∃ f, x = .error f ∧ p f = true := by
    intro ε α x p h
    cases x with
    | error f => exact ⟨f, rfl, h⟩
    | ok a => cases h
  refine ⟨⟨?_, ?_, ?_, ?_, ?_, ?_,
      ok_of (by decide +kernel), fun i hi => ?_, writable_run (pa := 0x200) (n := 72) (by decide +kernel) (by decide +kernel)⟩,
    ⟨?_, ?_, ok_of (by decide +kernel), fun i hi => ?_, writable_run (pa := 0x200) (n := 4) rfl (by decide +kernel)⟩,
    ⟨fun i hi => ?_, ?_, writable_run (pa := 2 ^ 52 + 0x1FFF0) (n := 16) rfl (by decide +kernel)⟩,
    ⟨fun i hi => ?_, ?_, ?_, ?_, ?_⟩, ?_,
    ⟨?_, ?_, ?_, ?_, canTrap_of (by decide +kernel)⟩, ?_⟩
  any_goals decide +kernel
  · have h : ((List.range 64).all fun i =>
        let s := inChannel 0 markCopy (running .A id launch team)
        isOk (s.copyXlate markCopy (markCopy.push.srcVa i) true false) (0x100 + i)
          && isOk (s.copyXlate markCopy (markCopy.push.dstVa i) (markCopy.push.op != 0) true) (0x200 + i)
          && !s.heldAt (0x100 + i) && !s.lostAt (0x100 + i)) = true := by decide +kernel
    have := List.all_eq_true.mp h i (List.mem_range.mpr hi)
    simp only [Bool.and_eq_true, Bool.not_eq_true'] at this
    exact ⟨ok_of this.1.1.1, ok_of this.1.1.2, this.1.2, this.2⟩
  · have h : ((List.range 16).all fun i =>
        isOk ((inChannel 0 sumCopy (running .A id launch team)).copyXlate sumCopy (sumCopy.push.srcVa i) true false) (0x100 + 4 * i)) = true := by
      decide +kernel
    exact ok_of (List.all_eq_true.mp h i (List.mem_range.mpr hi))
  · have h : ((List.range 16).all fun i =>
        isOk ((inChannel 0 longCopy (running .A id launch team)).copyXlate longCopy (longCopy.push.dstVa i) false true)
          (2 ^ 52 + 0x1FFF0 + i)) = true := by decide +kernel
    exact ok_of (List.all_eq_true.mp h i (List.mem_range.mpr hi))
  · obtain ⟨f, h1, h2⟩ := e (x := (inChannel 0 longCopy (running .A id launch team)).copyXlate longCopy (longCopy.push.dstVa 16) false true)
      (p := fun f => f.cause == 7) (by decide +kernel)
    exact ⟨f, h1, beq_iff_eq.mp h2⟩
  · have h : ((List.range 16).all fun i =>
        isOk ((inChannel 0 absentCopy { running .A id launch team with spaces := [{ space with maps := Vector.replicate 8 [entry 0 0] }] }).copyXlate absentCopy
          (absentCopy.push.dstVa i) false true) (0x3FFFFFF0 + i)) = true := by decide +kernel
    exact ok_of (List.all_eq_true.mp h i (List.mem_range.mpr hi))
  · obtain ⟨f, h1, h2⟩ := e (x := (inChannel 0 absentCopy { running .A id launch team with spaces := [{ space with maps := Vector.replicate 8 [entry 0 0] }] }).copyXlate
      absentCopy (absentCopy.push.dstVa 16) false true) (p := fun f => f.cause == 4 && vmapVpn (entry 1 9) == fld f.va 30 27) (by decide +kernel)
    simp only [Bool.and_eq_true, beq_iff_eq] at h2
    exact ⟨f, h1, h2⟩
  · obtain ⟨f, h1, h2⟩ := e (x := (inChannel 0 absentCopy (running .A id launch team)).copyXlate absentCopy (absentCopy.push.dstVa 16) false true)
      (p := fun f => f.cause == 4 && vmapEntry ((inChannel 0 absentCopy (running .A id launch team)).vmapOf absentCopy.acc.asid) f.va
        == some (entry 1 (2 ^ 23))) (by decide +kernel)
    simp only [Bool.and_eq_true, beq_iff_eq] at h2
    exact ⟨f, h1, h2⟩
  · intro op hop
    rcases hop with rfl | rfl | rfl <;>
    refine ⟨rfl, ?_, ok_of (by decide +kernel), ?_, ?_, ?_,
      writable_run (pa := 0x100) (n := 24) (by decide +kernel) (by decide +kernel), writable_of (by decide +kernel) (by decide +kernel) rfl⟩ <;> decide +kernel

/-- Two plats of the team, and a state of it with them. -/
def platB : Plat := { plat with h := 0x80, idx := [0] }

def platted (f : Strand → Strand) (ps : List Plat) : State := running .A f launch { team with plats := ps }

/-- The header of the plat that the witnesses build. -/
def builtAt : Nat := 2 ^ 52 + 0x1FE80

def coAt : Nat := 2 ^ 52 + 0x10100

def builder : State := platted (setX 10 0xFE80 ∘ setX 11 0x4000 ∘ setX 12 1 ∘ setX 13 0x500) []

def composer : State := platted (setX 10 0x100 ∘ setX 13 0x80) [plat, platB]

/-- A build of one element at the end of the plats' region, its index on the table. -/
theorem witness_PlatResults_build : builder.cur.agent = .stream 0 .A ∧ builder.teamOf 0 = some { team with plats := [] }
    ∧ (∀ u ∈ builder.teams, (builder.strand 0).task.any (fun k => u.holds k) = true → u = { team with plats := [] })
    ∧ (builder.readX 0 .A 10).toNat = 0xFE80 ∧ 0xFE80 % 64 = 0 ∧ 0xFE80 + (64 + 24 * 1 + 256) ≤ (builder.strand 0).platsize.toNat
    ∧ builder.overlapped 0 0xFE80 (64 + 24 * 1 + 256) = [] ∧ builder.scrBase + (builder.strand 0).platbase.toNat + 0xFE80 = builtAt
    ∧ Writable builder ((List.range (64 + 24 * 1 + 256)).map fun i => builtAt + i)
    ∧ builder.xlateBytes (builder.acc 0) (builder.readX 0 .A 11) 8 true false = .ok ((List.range 8).map fun i => 0x4000 + i)
    ∧ (((List.range 8).map fun i => 0x4000 + i).all fun a => !builder.heldAt a && !builder.poisonedTo (builder.strand 0).task 0 .A a && a < builtAt) = true
    ∧ leWord (builder.bytesAt (some (0, .A)) (builder.slotKey (builder.acc 0).key) ((List.range 8).map fun i => 0x4000 + i)) = 0
    ∧ builder.xlateBytes (builder.acc 0) (builder.readX 0 .A 13 + 0 * BitVec.ofNat 64 (2 ^ 3)) (2 ^ 3) true false
        = .ok ((List.range 8).map fun i => 0x500 + i) := by
  refine ⟨rfl, ?_, ?_, ?_, ?_, ?_, ?_, ?_, writable_run rfl ?_, ok_of ?_, ?_, ?_, ok_of ?_⟩ <;> decide +kernel

/-- A composition. -/
theorem witness_PlatResults_compose : (composer.readX 0 .A 0).toNat = 0 ∧ composer.findPlat 0 0 = some plat ∧ plat.reason = 0
    ∧ plat.verify = false ∧ composer.findPlat 0 0x80 = some platB ∧ (composer.readX 0 .A 13).toNat = 0x80
    ∧ plat.gen = composer.genOf (composer.acc 0).asid ∧ platB.gen = composer.genOf (composer.acc 0).asid ∧ platB.idx.length = platB.n ∧ (platB.idx.all fun i => i.toNat < plat.n) = true
    ∧ composer.anyHeld ((plat.ranges ++ platB.ranges).flatMap rangePas) = false ∧ composer.overlapped 0 0x100 (64 + 24 * 1 + 256) = []
    ∧ composer.scrBase + (composer.strand 0).platbase.toNat + 0x100 = coAt
    ∧ Writable composer ((List.range (64 + 24 * 1 + 256)).map fun i => coAt + i) := by
  refine ⟨?_, ?_, rfl, rfl, ?_, ?_, ?_, ?_, rfl, ?_, ?_, ?_, ?_, writable_run rfl ?_⟩ <;> decide +kernel

/-- A check of a handle without a plat, of a plat with a reason, of an usable one, of one of another generation, and of one whose digest
differs; a misaligned handle; a release. -/
theorem witness_PlatResults :
    (let s := platted (setX 10 0x100) [plat]
     (s.readX 0 .A 10).toNat % 64 = 0 ∧ s.verifyHeld 0 (s.readX 0 .A 10) = false ∧ s.findPlat 0 (s.readX 0 .A 10).toNat = none
       ∧ s.keyless (s.acc 0).key = false)
    ∧ (let p := { plat with verify := true, ranges := [[{ pa := 0x4000, len := 8 }]] }
       let s := platted (fun x => { x with aspace := x.aspace ||| 0x1000 }) [p]
       (s.readX 0 .A 10).toNat % 64 = 0 ∧ s.verifyHeld 0 (s.readX 0 .A 10) = false ∧ s.findPlat 0 (s.readX 0 .A 10).toNat = some p
         ∧ p.reason = 0 ∧ p.gen = s.genOf (s.acc 0).asid ∧ s.keyless (s.acc 0).key = true ∧ (p.ranges.flatMap rangePas).any isHbm = true
         ∧ CanTrap s 0 lines)
    ∧ (∀ p, p = { plat with reason := 4 } ∨ p = plat ∨ p = { plat with gen := 2 } ∨ p = { plat with verify := true, digest := 1 } →
        let s := platted id [p]
        s.findPlat 0 (s.readX 0 .A 10).toNat = some p ∧ s.verifyHeld 0 (s.readX 0 .A 10) = false
          ∧ (p.reason ≠ 0 ∨ p.reason = 0 ∧ p.gen = s.genOf (s.acc 0).asid ∧ p.verify = false
            ∨ p.reason = 0 ∧ p.gen ≠ s.genOf (s.acc 0).asid
            ∨ p.reason = 0 ∧ p.gen = s.genOf (s.acc 0).asid ∧ p.verify = true ∧ s.idxDigest 0 .A p.ranges ≠ p.digest))
    ∧ (let s := platted (setX 10 0x101) []
       (s.readX 0 .A 10).toNat % 64 ≠ 0 ∧ CanTrap s 0 lines)
    ∧ (let s := platted id [plat, platB]
       s.findPlat 0 0 = some plat ∧ ([plat, platB].all fun q => q.h != plat.h || decide (q = plat)) = true ∧ s.platBusy 0 plat.h = false
         ∧ plat.released = none ∧ s.teamOf 0 = some { team with plats := [plat, platB] } ∧ s.scrSaved { team with plats := [plat, platB] } = false
         ∧ s.seals = []) := by
  refine ⟨⟨?_, ?_, ?_, ?_⟩, ⟨?_, ?_, ?_, rfl,
      ?_, ?_, ?_, canTrap_of (by decide +kernel)⟩, ?_,
    ⟨?_, canTrap_of (by decide +kernel)⟩, ?_, ?_, ?_, rfl, ?_,
    ?_, rfl⟩
  any_goals decide +kernel
  intro p hp
  rcases hp with rfl | rfl | rfl | rfl
  · exact ⟨by decide +kernel, by decide +kernel, .inl (by decide)⟩
  · exact ⟨by decide +kernel, by decide +kernel, .inr (.inl ⟨rfl, by decide +kernel, rfl⟩)⟩
  · exact ⟨by decide +kernel, by decide +kernel, .inr (.inr (.inl ⟨rfl, by decide +kernel⟩))⟩
  · exact ⟨by decide +kernel, by decide +kernel, .inr (.inr (.inr ⟨rfl, by decide +kernel, rfl, by decide +kernel⟩))⟩

/-- Two elements of four bytes that name one target, a slot that gathers them, and requests. -/
def pair : Plat :=
  let four := (List.range 4).map fun j => 2 ^ 52 + 0x100 + j
  { plat with n := 2, idx := [0x40, 0x40], ta := [0x40000100, 0x40000100], pas := [four, four], wr := [true, true] }

def pairOp : PlatOp where
  strand := 0
  task := some task
  acc := (platted id [pair]).acc 0
  opid := 0
  scatter := none
  plat := pair
  mem := (List.range 8).map fun j => 2 ^ 52 + 0x200 + j
  squash := none
  mark := some 0x240
  mval := 7
  deferred := false
  captured := 0
  seq := 0

def request (sc : Option (ScatOp × ScatType)) (sq : Option W64) : PlatReq where
  strand := 0
  rd := 5
  dev := false
  scatter := sc
  h := 0
  mem := 0x40000200
  squash := sq
  mark := 0x240
  mval := 7

def inSlot (i : Nat) (o : PlatOp) (s : State) : State := { s with platSlots := s.platSlots.set (fin 16 i).val { seq := 1, op := some o } }

/-- A gather and a scatter with a squash list, with slot 0 taken; every slot taken; a request that waits; and operations that end. -/
theorem witness_PlatTransfers :
    (∀ q, q = request none none ∨ q = request (some (.add, .f32)) (some 0x40000300) →
      let s := inSlot 0 pairOp (platted id [pair])
      let form : List Nat × Option (List Nat) × Option Nat :=
        (pairOp.mem, q.squash.map fun _ => [2 ^ 52 + 0x300], some 0x240)
      s.cur.agent = .stream 0 .A ∧ s.verifyHeld 0 q.h = false ∧ (s.platCheck 0 .A q.h).2 = .ok pair ∧ s.platForm 0 q pair = .ok form
        ∧ (s.strand 0).det = false ∧ s.fifoFull 0 1 = false ∧ s.fenced 0 .A .cor = true ∧ s.platQ = [] ∧ (s.platSlots.get 1).op = none
        ∧ ∀ j : Fin 16, j < 1 → (s.platSlots.get j).op ≠ none)
    ∧ (let s := { platted id [pair] with platSlots := Vector.replicate 16 { seq := 1, op := some pairOp } }
       ∀ sl, (s.platSlots.get sl).op ≠ none)
    ∧ (let s := { platted (fun x => { x with a := { x.a with status := .platWait } }) [pair] with platQ := [request none none] }
       let v := { s with platQ := [] }.wait 0 .A .run
       s.platQ = request none none :: [] ∧ (s.platSlots.get 0).op = none ∧ v.verifyHeld 0 0 = false ∧ (v.platCheck 0 .A 0).2 = .ok pair
         ∧ v.platForm 0 (request none none) pair = .ok (pairOp.mem, none, some 0x240) ∧ v.fifoFull 0 1 = false ∧ v.fenced 0 .A .cor = true)
    ∧ (∀ sc, sc = none ∨ sc = some (ScatOp.swap, ScatType.i32) →
        let o := { pairOp with scatter := sc }
        let s := inSlot 0 o (running .A id launch team)
        (s.platSlots.get 0).op = some o ∧ (s.strand 0).runs o.task = true ∧ (o.touches.all fun a => !s.heldAt a && !s.lostAt a) = true ∧ s.platKeyless o = false
                   ∧ o.mem.length = (o.plat.pas.flatMap id).length ∧ o.plat.pas.length = o.plat.n ∧ o.plat.ta.length = o.plat.n
          ∧ (∀ q ∈ o.plat.pas, q.length = o.plat.sz)
          ∧ Writable s (((List.range 4).map fun j => 2 ^ 52 + 0x100 + j) ++ o.mem ++ (List.range 8).map fun j => 0x240 + j)) := by
  refine ⟨fun q hq => ?_, by decide +kernel, ⟨rfl, by decide +kernel, by decide +kernel, ok_of (by decide +kernel), ok_of (by decide +kernel),
    by decide +kernel, by decide +kernel⟩, fun sc h => ?_⟩
  · rcases hq with rfl | rfl <;>
    refine ⟨rfl, ?_, ok_of (by decide +kernel), ok_of (by decide +kernel), ?_, ?_, ?_,
      rfl, ?_, ?_⟩ <;> decide +kernel
  · rcases h with rfl | rfl <;>
    refine ⟨?_, ?_, ?_, ?_, ?_, by decide, by decide, by decide,
      writable_of (by decide +kernel) (by decide +kernel) rfl⟩ <;> decide +kernel

/-- A launch of a higher priority. -/
def urgent : Launch := { launch with id := 1, hdr := { header with priority := 2 }, phase := .queued, nextTeam := 0 }

/-- Strands that run; one that a request halted, on its strand and moved off it; a launch that outranks the running one; and one whose
team is parked while it owns the matrix state. -/
theorem witness_PreemptionResults :
    (let s := running .E id launch team
     (s.strand 0).task ≠ none ∧ ¬ ((s.strand 0).a.over = true ∧ (s.strand 0).e.over = true) ∧ (s.strand 0).halt = .none ∧ (s.strand 1).task = none ∧ s.others = [])
    ∧ (let s := running .E (fun x => { x with halt := .rerun }) launch team
       (s.strand 0).task ≠ none ∧ ¬ ((s.strand 0).a.over = true ∧ (s.strand 0).e.over = true) ∧ (s.strand 0).halt ≠ .none ∧ (s.strand 0).halt ≠ .preempted)
    ∧ (let s := running .E (fun x => { x with halt := .preempted }) launch team
       (s.strand 0).task ≠ none ∧ (s.strand 0).halt = .preempted ∧ s.away 0 .A = false ∧ s.away 0 .E = false ∧ s.mat.owner ≠ some 0
         ∧ (s.strand 0).preDue = false ∧ (s.strand 0).task = some task ∧ s.offered task.launch = true ∧ s.launch task.launch = some launch
         ∧ launch.hdr.det = false ∧ (∀ e ∈ s.savedMat, e.1 ≠ (0 : BitVec 32)) ∧ ∀ tm ∈ s.teams, s.scrSaved tm = false)
    ∧ (let r := running .E (fun x => { x with halt := .preempted }) launch team
       let p : Parked := { st := 0, ctx := r.strand 0 }
       let s := { r.modStrand 0 (fun x => { x with task := none, halt := .none }) with parked := [p], lastSpace := some (0, 0) }
       (s.strand 0).task = none ∧ s.parked = [p] ∧ p.st = 0 ∧ p.ctx.halt = .preempted ∧ s.teams = [team] ∧ p.ctx.onTeam team = true
         ∧ s.scrSaved team = false ∧ s.lastSpace = s.teamConfid team ∧ (∀ k, (p.ctx.stream k).status = .run ∧ (p.ctx.stream k).owes = none)
         ∧ p.ctx.task = some task ∧ p.ctx.preDue = false ∧ s.offered task.launch = true ∧ s.launch task.launch = some launch ∧ s.bindQuiet 0 = true
         ∧ (s.strand 0).vlcap = p.ctx.vlcap ∧ s.savedCoef = [] ∧ s.mat.owner ≠ some 0 ∧ ∀ e ∈ s.savedMat, e.1 ≠ (0 : BitVec 32))
    ∧ (let r := running .E id launch team
       let s := { r with launches := [launch, urgent], cycle := 112500 }
       s.launch urgent.id = some urgent ∧ (s.wants urgent).1 = true ∧ s.quantum * 2250 ≤ (s.cycle - urgent.since).toNat
         ∧ s.victim urgent = some team
         ∧ team.core = s.core ∧ s.launch team.launch = some launch ∧ launch.hdr.det = false ∧ (0 : Fin 4) ∈ s.membersOf team)
    ∧ (let r := running .E (fun x => { x with halt := .preempted }) launch team
       let s := { r with mat := { r.mat with owner := some 0 } }
       s.mat.owner = some 0 ∧ s.launchParked 0 = true ∧ s.launchRuns 0 = false) := by
  have h : ∀ k, (((running .E (fun x => { x with halt := .preempted }) launch team).strand 0).stream k).status = .run
      ∧ (((running .E (fun x => { x with halt := .preempted }) launch team).strand 0).stream k).owes = none := by
    intro k; cases k <;> decide +kernel
  refine ⟨?_, ?_, ?_, ⟨?_, rfl, rfl, ?_, rfl, ?_,
    ?_, ?_, h, ?_, ?_, ?_, ?_, ?_,
    ?_, rfl, ?_, ?_⟩, ?_, ?_⟩ <;> decide +kernel

/-- A launch with a budget and a policy. -/
def budgeted (policy : Byte) : Launch := { launch with hdr := { header with budget := 100, policy := policy } }

/-- The three policies, the fourth exhaustion, an exhaustion in a handler, and a task that is to run again. -/
theorem witness_BudgetResults :
    (∀ policy : Byte, policy = 0 ∨ policy = 1 ∨ policy = 2 →
      let s := running .E id (budgeted policy) team
      (s.strand 0).task = some task ∧ s.launch task.launch = some (budgeted policy) ∧ (budgeted policy).id = task.launch
        ∧ ((s.strand 0).a.over = false ∨ (s.strand 0).e.over = false) ∧ (budgeted policy).phase = .running ∧ (budgeted policy).hdr.budget ≠ 0
        ∧ (s.strand 0).halt = .none ∧ s.inHandler 0 = false ∧ (s.strand 0).pendFault = [] ∧ (s.strand 0).a.status = .run ∧ (s.strand 0).e.status = .run
        ∧ CanTrap s 0 lines ∧ task.reruns < 3)
    ∧ (let tk := { task with reruns := 3 }
       let s := running .E (fun x => { x with task := some tk }) (budgeted 2) team
       (s.strand 0).halt = .none ∧ s.inHandler 0 = false ∧ 3 ≤ tk.reruns)
    ∧ (let s := running .E (fun x => { x with tstatus := 1 }) (budgeted 1) team
       s.inHandler 0 = true ∧ (s.strand 0).halt = .none)
    ∧ (let s := running .E (fun x => { x with halt := .rerun }) (budgeted 2) team
       (s.strand 0).halt = .rerun ∧ (s.strand 0).preDue = false ∧ s.away 0 .A = false ∧ s.away 0 .E = false ∧ s.pushing 0 task = false ∧ s.mat.owner ≠ some task.launch
         ∧ (∀ e ∈ s.savedMat, e.1 ≠ task.launch) ∧ ∀ tm ∈ s.teams, s.scrSaved tm = false) := by
  refine ⟨fun policy h => ?_, ?_, ?_, ?_⟩
  any_goals decide +kernel
  rcases h with rfl | rfl | rfl <;>
  refine ⟨?_, ?_, rfl, ?_, rfl, by decide, ?_, ?_, ?_,
    ?_, ?_, canTrap_of (by decide +kernel), by decide⟩ <;> decide +kernel

/-- A strand that waits for the supervisor, on a missing entry, on a table and on poison under each policy, its stream still before an access that came
back poisoned; and an entry for a page that has
none. -/
theorem witness_SupervisorResults :
    (∀ c : Byte, c = 4 ∨ c = 6 ∨ c = 8 → ∀ poison : Byte, poison = 0 ∨ poison = 1 →
      let l := { launch with poison := poison }
      let s := running .E (fun x => { x with halt := .supervisor c 0x40 0x80 false .E, e := { x.e with status := .poisonDue 0x80 } }) l team
      let x := s.strand 0
      x.task = some task ∧ x.halt = .supervisor c 0x40 0x80 false .E ∧ x.preDue = false ∧ s.away 0 .A = false ∧ s.away 0 .E = false ∧ s.mat.owner ≠ some task.launch
        ∧ (∀ e ∈ s.savedMat, e.1 ≠ task.launch) ∧ (∀ tm ∈ s.teams, s.scrSaved tm = false) ∧ s.space (s.acc 0).asid = some space ∧ CanEnter s 0 lines
        ∧ s.forwardsPoison x = (poison == 1) ∧ s.launch task.launch = some l ∧ l.phase = .running)
    ∧ (entry 2 9).getLsbD 63 = true ∧ vmapReserved (entry 2 9) = 0
    ∧ (∀ d : Fin 8, (space.maps.get d).length < 8192 ∧ ((space.maps.get d).all fun f => vmapVpn f != vmapVpn (entry 2 9)) = true) := by
  refine ⟨?_, ?_, ?_, ?_⟩
  any_goals decide +kernel
  intro c hc poison hp
  rcases hp with rfl | rfl <;> rcases hc with rfl | rfl | rfl <;>
  refine ⟨?_, ?_, ?_, ?_, ?_, ?_, ?_,
    ?_, ?_, canEnter_of (by decide +kernel), ?_, ?_, rfl⟩ <;> decide +kernel

/-- A state whose chiplets are ready, and in it the bytes of a launch header of one team of four tasks (R311). -/
def awake (s : State) : State := { s with readiness := Vector.replicate 64 2 }

def headerWords : List Nat :=
  [0x48434E4C, 0x00030401, 0x100, 0, 0x200, 0, 4, 0, 2, 0x01010000, 0, 0, 0x10000, 0x8000, 0, 0, 0, 0, 0, 0, 0xFFFFFFFF, 0xFFFFFFFF]

def submitting : State :=
  let s := awake (putWords 0x4000 headerWords (base .A (setX 10 0x4000)))
  { s with sessions := [{ id := 7, major := 1, minor := 0, asid := 0 }] }

theorem witness_LaunchSubmissions :
    (let s := submitting
     let pas := (List.range 128).map fun i => 0x4000 + i
     let b := s.homeBytes 0 pas
     s.cur.agent = .stream 0 .A ∧ (s.readX 0 .A 10).toNat % 128 = 0 ∧ s.launchOf 0 = none ∧ s.fifoFull 0 3 = false ∧ s.fenced 0 .A .dev = true ∧ s.schedulerUp = true
       ∧ s.space (s.acc 0).asid = some space ∧ s.anyDieReady space = true ∧ s.xlateBytes (s.acc 0) (s.readX 0 .A 10) 128 true false = .ok pas
       ∧ s.anyHeld pas = false ∧ (pas.all fun a => !s.poisoned a) = true ∧ s.slotKey (s.acc 0).key = 0 ∧ s.headerStatus space b none = 0
       ∧ hdrNat b 0x50 4 = 0xFFFFFFFF ∧ hdrNat b 0x54 4 = 0xFFFFFFFF ∧ s.launches = [] ∧ s.readSpace space 0x4000 128 = .ok b
       ∧ s.session 7 = some { id := 7, major := 1, minor := 0, asid := 0 } ∧ s.headerHeld { id := 7, major := 1, minor := 0, asid := 0 } 0x4000 = false)
    ∧ (let s := put 0x4000 [0] submitting
       let b := s.homeBytes 0 ((List.range 128).map fun i => 0x4000 + i)
       s.headerStatus space b none = 0x20 ∧ s.readSpace space 0x4000 128 = .ok b)
    ∧ ((base .A id).anyDieReady space = false ∧ (let r : Rcp := { session := 7, magic := 0x46504352, major := 1, minor := 0, tag := 5, len := 16 }
       submitting.session r.session = some { id := 7, major := 1, minor := 0, asid := 0 } ∧ r.major = 1 ∧ r.len = 16 ∧ (1 : W64).toNat ≤ 1)) := by
  refine ⟨⟨rfl, ?_, ?_, ?_, ?_, ?_, ?_, ?_, ok_of ?_, ?_, ?_, ?_, ?_, ?_, ?_, rfl, ok_of ?_, ?_, ?_⟩, ⟨?_, ok_of ?_⟩, ?_⟩ <;> decide +kernel

/-- A launch whose first team is placed on strands 2 and 0. -/
def offeredLaunch : Launch := { launch with phase := .queued, nextTeam := 0, hdr := { header with n := 3, widths := [1, 1] } }

def placing : State := { awake (base .E id) with launches := [offeredLaunch], queue := [0] }

/-- A team of two placed on strands in any order; and a team that retires, the last of its launch. -/
theorem witness_TeamResults :
    (∃ s1, placing.launch 0 = some offeredLaunch ∧ placing.space offeredLaunch.asid = some space ∧ offeredLaunch.offers 0 = true
      ∧ placing.offered 0 = true ∧ placing.readyFor offeredLaunch space 0 [2, 0] 0x40000 = some s1 ∧ placing.snap offeredLaunch space ≠ none
      ∧ placing.boundFor offeredLaunch space ≠ none)
    ∧ (let s := running .E (fun x => { x with a := { x.a with status := .ended }, e := { x.e with status := .ended } }) launch team
       (s.teams.find? fun t => t.launch == 0 && t.team == 0) = some team ∧ team.core = s.core ∧ s.mayRetire team = true ∧ s.lastHere team = true
         ∧ s.mat.owner = none ∧ s.flushHeld 0 = false ∧ s.membersOf team = [0])
    ∧ (let m := { team with plats := [plat] }
       let s := { running .E (fun x => { x with a := { x.a with status := .ended }, e := { x.e with status := .ended } }) launch m with
         teams := [m, { team with team := 1, strands := [1] }] }
       (s.teams.find? fun t => t.launch == 0 && t.team == 0) = some m ∧ m.core = s.core ∧ s.mayRetire m = true ∧ s.lastHere m = false
         ∧ m.plats = [plat] ∧ plat.released = none ∧ s.scrSaved m = false ∧ (∀ u ∈ s.teams, u.launch = 0 → u.team = 0 → u = m) ∧ s.seals = []) := by
  refine ⟨⟨_, ?_, ?_, ?_, ?_, Option.eq_some_of_isSome ?_, ?_, ?_⟩, ?_, ?_⟩ <;> decide +kernel

/-- A launch at its end: of a wave, without and with a mark, of a closure check's first and second run, and one whose prerequisite failed. -/
def atEnd (f : Launch → Launch) : State :=
  { base .E id with launches := [f { launch with nextTeam := 2 }], core := State.reset.core }

def waved (l : Launch) : Launch := { l with nextTeam := 2, hdr := { header with flags := 5, n := 3 } }

theorem witness_LaunchEnds :
    (let l := waved launch
     let h : Held := { task := task, strand := 0, stream := .A, pa := 0x100, byte := 7, bits := 0xFF, key := 0, pub := true }
     let s := { base .E id with launches := [l], held := [h] }
     s.launch 0 = some l ∧ l.hdr.det = true ∧ s.waveOver l = true ∧ s.deferring 0 = false ∧ s.others = [] ∧ s.anyHeld (s.fencePas l) = false ∧ s.lostAt 0x100 = false)
    ∧ (let l := { launch with nextTeam := 2, hdr := { header with mark := 0x100, mval := 5, endpoint := 6, cls := 15 } }
       let s := { base .E id with launches := [l, { launch with id := 1, phase := .waiting, hdr := { header with pre0 := 0 } }]
                                  endpoints := [{ id := 6, windows := List.replicate 16 1 }] }
       let e : Endpoint := { id := 6, windows := List.replicate 16 0 }
       s.portUp = false ∧ { linked s with endpoints := [e] }.portUp = true ∧ { linked s with endpoints := [e] }.endpoint 6 = some e ∧
       s.launch 0 = some l ∧ l.hdr.closed = false ∧ l.phase = .running ∧ l.hdr.teams ≤ l.nextTeam ∧ l.hdr.det = false ∧ s.settled l = true
         ∧ s.space l.asid = some space ∧ s.xlateVia space.acc space.map l.hdr.mark false true = .ok 0x100
         ∧ Writable s ((List.range 8).map fun j => 0x100 + j) ∧ (s.endpoint 6).isSome = true ∧ s.gatheredOf 6 15 = [])
    ∧ (∀ second, let l := { launch with nextTeam := 2, second := second, snapshot := [(0x100, 7)], hdr := { header with flags := 6 } }
       let s := { base .E id with launches := [l] }
       s.launch 0 = some l ∧ l.hdr.closed = true ∧ l.hdr.det = false ∧ l.hdr.mark = 0 ∧ l.hdr.teams ≤ l.nextTeam ∧ s.settled l = true
         ∧ s.regionsHeld l space = false ∧ Writable s (l.snapshot.map fun e => e.1))
    ∧ (let l := { launch with id := 1, phase := .waiting, hdr := { header with pre0 := 0 } }
       let s := { base .E id with launches := [{ launch with phase := .complete 0x10 }, l] }
       s.launch 1 = some l ∧ l.phase = .waiting ∧ s.prereqFailed l.hdr.pre0 = true ∧ l.hdr.mark = 0)
    ∧ (let c : Completion := { endpoint := 6, cls := 3, launch := 0, status := 0, flags := 0, detail := 0, digest1 := 0, digest2 := 0 }
       (linked { base .E id with gathered := [c] }).gatheredOf 6 3 ≠ [] ∧ (linked { base .E id with gathered := [c] }).portUp = true) := by
  refine ⟨?_, ⟨?_, ?_, rfl, ?_, ?_, ?_, ?_,
    ?_, ?_, ?_,
    ok_of (by decide +kernel), writable_of (by decide +kernel) (by decide +kernel) rfl, ?_, ?_⟩, fun second => ?_,
    ?_, ?_⟩
  any_goals decide +kernel
  cases second <;> refine ⟨?_, ?_, ?_, rfl, ?_, ?_, ?_,
    writable_of (by decide +kernel) (by decide +kernel) rfl⟩ <;> decide +kernel

/-- A stack in a state. -/
def withStack (n : Nat) (x : Stack) (s : State) : State := { s with stks := s.stks.set (fin 24 n).val x }

/-- The last stack held with a store and a line in its queue and the event noted, which serves them; one not ready, without the event, which
serves none; one held without either; a running launch that a stack's end concerns; a stack that was not ready, with a store in its
queue; the chiplets below the last, whose change no stack's hold keeps; and a staged image. -/
theorem witness_StackResults :
    (let q : StackReq := .store 0 .A (some task) (24 * 2 ^ 36 - 1) [7] 0 0
     let e : WcbEntry := { strand := 0, task := some task, pa := 24 * 2 ^ 36 - 64, byte := 5, bits := 0x0F, key := 0, at_ := 0 }
     let x := { Stack.reset with hold := .refresh false, event := true, queue := [q, .line [e]], stkref := 0, steps := 2 ^ 20 }
     let s := withStack 23 x (running .A id launch team)
     (∀ q ∈ x.queue, (match q with | .work .. => false | _ => true) = true) ∧ (24 * 2 ^ 36 - 1) % 64 + [(7 : Byte)].length ≤ 64
       ∧ e.pa / 64 = (24 * 2 ^ 36 - 1) / 64 ∧
     s.stks.get 23 = x ∧ s.nextServed = none ∧ x.hold ≠ .retired ∧ x.event = true ∧ x.stkref.getLsbD 31 = false ∧ 2 ^ 20 ≤ x.steps ∧ stackOf (24 * 2 ^ 36 - 1) = 23
       ∧ isHbm (24 * 2 ^ 36 - 1) = true ∧ task.launch ∈ s.launchesAt 23 ∧ s.launch task.launch = some launch ∧ launch.phase = .running)
    ∧ (let x := { Stack.reset with hold := .refresh true }
       (withStack 0 x (base .A id)).stks.get 0 = x ∧ x.event = false)
    ∧ (let s := { withStack 0 { Stack.reset with hold := .refresh false } (base .A id) with readiness := Vector.replicate 64 1 }
       (s.stks.get 0).event = false ∧ s.nextServed = none ∧ (s.readiness.get (fin 64 0)).toNat = 1)
    ∧ (let x := { Stack.reset with queue := [.store 0 .A none 0x100 [7] 0 0] }
       let s := { withStack 0 x (base .A id) with readiness := Vector.replicate 64 5 }
       (s.stks.get 0).hold = .none ∧ s.nextServed = none ∧ (s.stks.get 0).event = false ∧ (∀ q ∈ (s.stks.get 0).queue, (match q with | .work .. => false | _ => true) = true))
    ∧ (let s := base .A id
       s.nextServed = none ∧ (∀ ix : Fin 48, ∀ h : ix.val < 24, (s.stks.get ⟨ix.val, h⟩).event = false ∧ (s.stks.get ⟨ix.val, h⟩).hold ≠ .retired))
    ∧ ({ base .A id with staged := some [1] }).staged = some [1] ∧ (base .A id).staged = none := by
  decide +kernel

/-- A state with session 7 of space 5, which it does not hold yet, and one whose session owns space 0. -/
def opened (asid : BitVec 12) : State :=
  { base .A id with sessions := [{ id := 7, major := 1, minor := 0, asid := asid }], measured := [(7, 3), (7, 4), (7, 5)] }

def request7 (major : Byte) : Rcp := { session := 7, magic := 0x46504352, major := major, minor := 0, tag := 0xFFFFFFFF, len := 40 }

/-- A session opened with the greatest space number and with no version known; kinds next to the known ones; a frame of another major
version and one of no session; and the requests that a session may make. -/
theorem witness_CommandResults :
    (base .A id).session 7 = none
    ∧ (4095 : BitVec 16).toNat < 4096 ∧ (1, 0) ∈ (List.replicate 16 ((1, 0) : Byte × Byte)) ∧ (1, 0) ∉ [((2, 0) : Byte × Byte)]
    ∧ 9 < (10 : BitVec 16).toNat ∧ (0x7FFF : BitVec 16).toNat < 2 ^ 15
    ∧ (opened 5).session (request7 1).session = some { id := 7, major := 1, minor := 0, asid := 5 } ∧ (request7 1).major = 1
    ∧ (request7 2).major ≠ 1 ∧ (request7 1).magic = 0x46504352 ∧ (request7 1).len.toNat ≤ 65520 ∧ (request7 1).len ≠ 0
    ∧ ({ request7 1 with len := 0 } : Rcp).len = 0 ∧ ({ request7 1 with len := 16 } : Rcp).len = 16 ∧ ({ request7 1 with magic := 0 } : Rcp).magic ≠ 0x46504352 ∧ (List.replicate 16 1000).length = 16 ∧ (∀ w ∈ List.replicate 16 1000, w ≤ 1000)
    ∧ (let q : WindowReq := { window := 4095, flags := 1, zeros := 0, base := 0x1000, len := 0x1000, pinVa := 0, pinLen := 0 }
       q.window.toNat < 4096 ∧ q.len.toNat % 4096 = 0)
    ∧ (63 : BitVec 6) ≠ 0 ∧ (∀ i, i ∈ [3, 4, 5] → (7, i) ∈ (opened 5).measured)
    ∧ (let q : SpaceReq := { asid := 5, flags := 0, key := 0, dies := 0xFF, zeros := 0, root := 0xFFFFFFFFFFF000 }
       q.key.toNat < 64 ∧ q.root.toNat % 4096 = 0 ∧ q.root.toNat < 2 ^ 56 ∧ q.asid = (5 : BitVec 12).setWidth 16
         ∧ (∀ d, d < 8 → (opened 5).dieFull 5 d = false) ∧ (opened 5).space 5 = none)
    ∧ fld 0 32 32 = 0 ∧ fld 0 16 16 = ([] : List W64).length ∧ fld 0 0 16 = (0 : BitVec 12).toNat ∧ (opened 0).space 0 = some space
    ∧ (∀ d : Fin 8, (space.maps.get d).length ≤ 8192) ∧ ({ request7 1 with len := 8 } : Rcp).len.toNat = 8 ∧ (opened 0).translatedDone 0 = true := by
  decide +kernel

/-- An access to no open space; to one, of bytes that are not poisoned and of a granule that is; and atomics. -/
theorem witness_NetworkAccesses :
    (base .A id).openSpace 0 = none
    ∧ (let s := opened 0
       let pas := (List.range 8).map fun i => 0x100 + i
       s.openSpace 0 = some space ∧ s.anyHeld pas = false ∧ s.uetXlate space 0x100 8 false true = .ok pas
         ∧ s.uetXlate space 0x100 8 true false = .ok pas ∧ s.uetXlate space 0x100 8 true true = .ok pas ∧ (∀ a ∈ pas, s.poisoned a = false)
         ∧ Writable s pas ∧ (0x100 : W64).toNat % 8 = 0 ∧ (0x104 : W64).toNat % 8 ≠ 0 ∧ s.wcb = [] ∧ pas = (List.range 8).map fun i => pas.headD 0 + i)
    ∧ (let s := { opened 0 with poison := [5] }
       let pas := (List.range 8).map fun i => 0x13C + i
       s.uetXlate space 0x13C 8 true false = .ok pas ∧ ((pas.take 4).all fun a => !s.poisoned a) = true ∧ s.poisoned (pas.getD 4 0) = true)
    ∧ (let ok := fun (q : ConnReq) => (q.modes.all fun m => m < 4) && (q.ops.all fun o => o < 4) && !q.credits && !q.other
         && (q.keyBits == 256 || (q.keyBits == 0 && !q.guarded)) && ((q.ops.all fun o => o == 0) || q.modes.all fun m => m < 3)
       ok link = true ∧ ok { link with modes := [3], ops := [0] } = true ∧ ok { link with modes := [3], ops := [0, 1] } = false
         ∧ ok { link with keyBits := 0 } = false ∧ ok { link with modes := [4] } = false) := by
  have h : (((List.range 8).map fun i => 0x100 + i).all fun a => !(opened 0).poisoned a) = true := by decide +kernel
  refine ⟨?_, ⟨?_, ?_, ok_of ?_, ok_of ?_, ok_of ?_, fun a ha => by simpa only [Bool.not_eq_true'] using List.all_eq_true.mp h a ha,
    writable_of ?_ ?_ rfl, ?_, ?_, rfl, ?_⟩, ⟨ok_of ?_, ?_, ?_⟩, ?_⟩ <;> decide +kernel

/-- A table of one segment whose numbers are all zero. -/
def oneSegment : CoefTable := [(0x0C, 1)]

/-- Finite operands, of value 0, 1 and −1; a table that keeps every step of `VPOLY` finite; an element of one product that is not zero, and
one whose B side is an escape with an entry of its list; and of FP16 the least and greatest of each class that a comparison tells apart: the
zeros, the subnormals, the normal numbers, the infinities and the NaNs of both kinds. -/
theorem witness_RoundedOnce :
    (let high := fun (v : Nat) => v / 2 ^ 10 % 2 ^ 5 == 31
     let nan := fun (v : Nat) => high v && v % 2 ^ 10 != 0
     let sig := fun (v : Nat) => nan v && v / 2 ^ 9 % 2 == 0
     let sides := fun (l : List Nat) => l ++ l.map fun v => v + 2 ^ 15
     (sides [0, 1, 0x3FF, 0x400, 0x7BFF, 0x7C00]).all (fun v => !nan v && v < 2 ^ Fmt.fp16.width) = true
       ∧ (sides [0x7C01, 0x7DFF]).all sig = true ∧ (sides [0x7E00, 0x7FFF]).all (fun v => nan v && !sig v) = true
       ∧ (sides [0x7C00]).all high = true ∧ (sides [0, 1, 0x3FF, 0x400, 0x7BFF]).all (fun v => !high v) = true) ∧
    (Fmt.fp16.IsFinite 0 ∧ Fmt.fp16.IsFinite 0x3C00 ∧ Fmt.fp16.IsFinite 0xBC00 ∧ Fmt.fp64.IsFinite 0x7FEFFFFFFFFFFFFF
      ∧ Fmt.fp16.value 0 = 0 ∧ Fmt.fp16.value 0x3C00 = 1 ∧ Fmt.fp16.value 0xBC00 = -1 ∧ (4 : BitVec 3).toNat < 5)
    ∧ (oneSegment.num 0x0C 2 ≠ 0 ∧ min 7 (oneSegment.num 0x0E 1) = 0 ∧ oneSegment.num 0x0F 1 = 0
      ∧ (∀ z : Int, (max 0 (min ((oneSegment.num 0x0C 2 : Int) - 1) z)).toNat = 0) ∧ Fmt.fp32.IsFinite (oneSegment.num 0x20 4)
      ∧ Fmt.fp32.IsFinite 0x3F800000 ∧ Fmt.fp32.IsFinite (oneSegment.num 0 4) ∧ Fmt.fp32.IsFinite (oneSegment.num 4 4)
      ∧ Fmt.fp32.IsFinite (Fmt.fp32.ffma 0 false false (Fmt.fp32.ofInt 0 1).1 (oneSegment.num 4 4) (oneSegment.num 0 4)).1
      ∧ Fmt.fp32.IsFinite (Fmt.fp32.fmul 0 (Fmt.fp32.fsub 0 0x3F800000 (oneSegment.num 0 4)).1 (oneSegment.num 8 4)).1)
    ∧ (let one : NVal := .num (.fin false 1 0)
       let lb : List (Nat × Nat) := [(0, 0x3F800000)]
       Fmt.fp32.IsFinite 0 ∧ Num.IsFinite (.fin false 1 0) ∧ Num.value (.fin false 1 0) = 1
         ∧ (lb.find? fun p => p.1 == 0) = some (0, 0x3F800000) ∧ one ≠ .escape
         ∧ Fmt.fp32.IsFinite (mmaElem false false 1 0 (fun _ => .escape) (fun _ => .escape) [] lb).1) := by
  have v : ∀ {f : Fmt} {b : Nat}, (decide (b < 2 ^ f.width) && decide (b / 2 ^ f.mb % 2 ^ f.eb ≠ 2 ^ f.eb - 1)) = true → f.IsFinite b := by
    intro f b h
    simpa only [Fmt.IsFinite, Bool.and_eq_true, decide_eq_true_eq] using h
  refine ⟨?_, ⟨v ?_, v ?_, v ?_, v ?_, ?_, ?_, ?_, by decide⟩,
    ⟨?_, ?_, ?_, fun z => ?_, v ?_, v ?_, v ?_,
      v ?_, v ?_, v ?_⟩,
    v ?_, ⟨_, _, _, rfl⟩, ?_, by decide, by decide, v ?_⟩
  any_goals decide +kernel
  · norm_num [Fmt.value, Fmt.IsNeg, Fmt.fp16]
  · norm_num [Fmt.value, Fmt.IsNeg, Fmt.fp16]
  · norm_num [Fmt.value, Fmt.IsNeg, Fmt.fp16]
  · have : oneSegment.num 0x0C 2 = 1 := by decide +kernel
    rw [this]
    omega
  · norm_num [Num.value]

end Sys2Proof.Tests
end

section
/-! PROOFS. The values after device reset (R13). -/

namespace Sys2Proof.Machine

@[simp] theorem State.reset_strand (st : Fin 4) : State.reset.strand st = Strand.reset := by
  simp [State.strand, State.reset, Vector.get]

@[simp] theorem Strand.reset_fr (n : Fin 8) : Strand.reset.fr.get n = 0 := by
  simp [Strand.reset, Vector.get]

theorem popNat_zero (n : Nat) : popNat n 0 = 0 := by
  cases n <;> rfl

/-- No element has faulted after a reset (R193). -/
@[simp] theorem Strand.reset_vfcnt : Strand.reset.vfcnt = 0 := by
  rw [Strand.vfcnt, show Strand.reset.mask.toNat = 0 from BitVec.toNat_zero, popNat_zero]

@[simp] theorem Matrix.reset_slot (n : Fin 16) : Matrix.reset.slots.get n = Slot.reset := by
  simp [Matrix.reset, Vector.get]

/-- Every stack after a reset holds its reset values but for the generator, which is seeded (R105). -/
@[simp] theorem resetStacks_get (now : Nat) (n : Fin 24) :
    (resetStacks now).get n = { Stack.reset with gen := Config.randomSeed (24 * now + n.val) } :=
  Vector.getElem_ofFn n.isLt

/-- Settles O29: the strands, the slots and the stacks hold their own reset values, and those are the ones of the Reset columns. -/
theorem resetValues : Obligations.ResetValues := by
  unfold Obligations.ResetValues
  dsimp only
  constructor
  · intro st
    rw [State.reset_strand]
    refine ⟨rfl, rfl, rfl, Strand.reset_vfcnt, rfl, rfl, rfl, rfl, Strand.reset_fr, ?_⟩
    and_intros <;> rfl
  · refine ⟨rfl, rfl, rfl, fun n => ?_, fun n => ?_, rfl⟩
    · exact ⟨congrArg Stack.stkref (resetStacks_get 0 n), congrArg Stack.stkecc (resetStacks_get 0 n)⟩
    · exact ⟨congrArg Slot.loaded (Matrix.reset_slot n), congrArg Slot.pin (Matrix.reset_slot n)⟩

end Sys2Proof.Machine
end

section
/-! PROOFS. What leaves the readiness map, the launches and the stacks alone: the writes of bytes and the answers to streams. -/

namespace Sys2Proof.Machine

/-- The readiness map, the launches and the stacks are the same. -/
structure Calm (s t : State) : Prop where
  ready : t.readiness = s.readiness
  launches : t.launches = s.launches
  stks : t.stks = s.stks

theorem Calm.refl (s : State) : Calm s s := ⟨rfl, rfl, rfl⟩

theorem Calm.trans {s t u : State} (h : Calm s t) (g : Calm t u) : Calm s u :=
  ⟨g.ready.trans h.ready, g.launches.trans h.launches, g.stks.trans h.stks⟩

/-- A fold of calm steps is calm. -/
theorem Calm.foldl {α : Type} (f : State → α → State) (hf : ∀ u a, Calm u (f u a)) (l : List α) (s : State) : Calm s (l.foldl f s) :=
  foldl_keeps (Calm s) f (fun u a hu => hu.trans (hf u a)) l s (.refl s)

/-! ### Cores and strands -/

theorem State.modStrand_calm (s : State) (st : Fin 4) (f : Strand → Strand) : Calm s (s.modStrand st f) := ⟨rfl, rfl, rfl⟩

theorem State.modStream_calm (s : State) (st : Fin 4) (k : StreamId) (f : Stream → Stream) : Calm s (s.modStream st k f) :=
  s.modStrand_calm st _

theorem State.wait_calm (s : State) (st : Fin 4) (k : StreamId) (w : Status) : Calm s (s.wait st k w) := s.modStream_calm st k _

theorem State.acquired_calm (s : State) (st : Fin 4) (k : StreamId) : Calm s (s.acquired st k) := s.modStream_calm st k _

theorem State.waitEnd_calm (s : State) (st : Fin 4) (k : StreamId) (rd : Reg) (v : W64) : Calm s (s.waitEnd st k rd v) :=
  (s.modStream_calm st k _).trans (State.modStream_calm _ st k _)

theorem State.mapCores_calm (s : State) (f : CoreSt → CoreSt) : Calm s (s.mapCores f) := ⟨rfl, rfl, rfl⟩

theorem State.switchCore_calm (s : State) (n : Nat) : Calm s (s.switchCore n) := by
  unfold State.switchCore
  split
  · exact .refl s
  · exact ⟨rfl, rfl, rfl⟩

theorem State.onCore_calm (s : State) (n : Nat) (f : State → State) (hf : ∀ u, Calm u (f u)) : Calm s (s.onCore n f) :=
  ((s.switchCore_calm n).trans (hf _)).trans (State.switchCore_calm _ _)

theorem State.forTask_calm (s : State) (st : Fin 4) (t : Option Task) (f : Strand → Strand) : Calm s (s.forTask st t f) := by
  unfold State.forTask
  split
  · exact ⟨rfl, rfl, rfl⟩
  · exact s.mapCores_calm _

/-! ### Writes of bytes -/

theorem State.putBytes_calm (s : State) (key pa : Nat) (bs : List Byte) : Calm s (s.putBytes key pa bs) := by
  rw [s.putBytes_frame]
  exact ⟨rfl, rfl, rfl⟩

theorem State.putParts_calm (s : State) (l : List (Nat × Nat × Byte × Byte)) : Calm s (s.putParts l) :=
  (Calm.foldl _ (fun (u : State) (e : Nat × Nat × Byte × Byte) => u.putBytes_calm e.1 e.2.1 _) l s).trans ⟨rfl, rfl, rfl⟩

theorem State.platHdr_calm (s : State) (t : Team) (p : Plat) : Calm s (s.platHdr t p) := by
  unfold State.platHdr
  split
  · exact s.mapCores_calm _
  · exact s.putBytes_calm _ _ _

theorem State.setPlats_calm (s : State) (sel : Team → Plat → Bool) (f : Plat → Plat) : Calm s (s.setPlats sel f) := by
  refine Calm.trans (Calm.foldl _ (fun u t => ?_) s.teams s) ⟨rfl, rfl, rfl⟩
  refine Calm.foldl _ (fun v p => ?_) t.plats u
  split
  · exact v.platHdr_calm t (f p)
  · exact .refl v

theorem State.sealMark_calm (f : Nat) (s : State) (pa n : Nat) : Calm s (State.sealMark f s pa n) := by
  induction f generalizing s pa n with
  | zero => exact .refl s
  | succ f ih =>
    unfold State.sealMark
    dsimp only
    split
    · exact .refl s
    · exact (s.setPlats_calm _ _).trans (Calm.foldl _ (fun u a => ih u (a + 5) 2) _ _)

theorem State.modPlats_calm (s : State) (sel : Team → Plat → Bool) (f : Plat → Plat) : Calm s (s.modPlats sel f) :=
  (s.setPlats_calm _ _).trans (Calm.foldl _ (fun u a => State.sealMark_calm _ u (a + 5) 2) _ _)

theorem State.footMark_calm (s : State) (pa n : Nat) : Calm s (s.footMark pa n) := by
  unfold State.footMark
  split
  · exact s.modPlats_calm _ _
  · exact .refl s

theorem State.markWrite_calm (s : State) (pa n : Nat) : Calm s (s.markWrite pa n) := by
  have h := (State.sealMark_calm s.sealDepth s pa n).trans (State.footMark_calm _ pa n)
  unfold State.markWrite
  dsimp only
  split
  · exact h.trans (State.mapCores_calm _ _)
  · exact h

/-! ### Requests that a stack serves for a stream -/

theorem State.answer_calm (s : State) (st : Fin 4) (k : StreamId) (t : Option Task) (rd : Reg) (next : W64) (v : Answer) :
    Calm s (s.answer st k t rd next v) := s.forTask_calm _ _ _

theorem State.waitSeen_calm (s : State) (st : Fin 4) (k : StreamId) (w : WaitOp) (zero : Bool) (m : W64) :
    Calm s (s.waitSeen st k w zero m) := by
  unfold State.waitSeen
  split
  · exact (s.waitEnd_calm _ _ _ _).trans (State.acquired_calm _ _ _)
  · split
    · exact s.waitEnd_calm _ _ _ _
    · exact s.wait_calm _ _ _

theorem State.serveRead_calm (s : State) (st : Fin 4) (k : StreamId) (t : Option Task) (w : WaitOp) (zero : Bool) (pa key : Nat) :
    Calm s (s.serveRead st k t w zero pa key) := by
  unfold State.serveRead
  split
  · exact .refl s
  · split
    · exact s.wait_calm _ _ _
    · exact s.waitSeen_calm _ _ _ _ _

/-- A request of a stream or of the write-combining buffer, and not work of an engine, of a VIQ or of the outside. -/
def StackReq.Plain (q : StackReq) : Prop := ∀ core t w ns keys at_, q ≠ .work core t w ns keys at_

/-- Such a request served changes no stack. -/
theorem State.serve_calm (s : State) (q : StackReq) (h : q.Plain) : Calm s (s.serve q) := by
  unfold State.serve
  cases q with
  | line es => exact s.putParts_calm _
  | store => exact s.putBytes_calm _ _ _
  | load => exact s.onCore_calm _ _ fun u => u.answer_calm _ _ _ _ _ _
  | read => exact s.onCore_calm _ _ fun u => u.serveRead_calm _ _ _ _ _ _ _
  | work => exact absurd rfl (h _ _ _ _ _ _)
  | atomic =>
    refine s.onCore_calm _ _ fun u => ?_
    dsimp only
    split
    · exact u.answer_calm _ _ _ _ _ _
    · refine Calm.trans ?_ (State.answer_calm _ _ _ _ _ _ _)
      split
      · exact (u.putBytes_calm _ _ _).trans (State.markWrite_calm _ _ _)
      · exact .refl u

end Sys2Proof.Machine
end

section
/-! PROOFS. What a stack serves leaves the readiness map as it is, and a launch that is ending as it ends (R109, R324). -/

namespace Sys2Proof.Machine

/-- The readiness map is the same, and a launch that is ending with a status still is. -/
structure Steady (s t : State) : Prop where
  ready : t.readiness = s.readiness
  ending : ∀ id l c, s.launch id = some l → l.phase = .ending c → ∃ l', t.launch id = some l' ∧ l'.phase = .ending c

variable {s u v : State}

theorem Steady.refl (s : State) : Steady s s := ⟨rfl, fun _ l _ hl hc => ⟨l, hl, hc⟩⟩

theorem Steady.trans (h : Steady s u) (g : Steady u v) : Steady s v := by
  refine ⟨g.ready.trans h.ready, fun id l c hl hc => ?_⟩
  obtain ⟨l', hl', hc'⟩ := h.ending id l c hl hc
  exact g.ending id l' c hl' hc'

/-- A change of other fields than the readiness map and the launches. -/
theorem Steady.same (h : Steady s u) (hr : v.readiness = u.readiness) (hl : v.launches = u.launches) : Steady s v := by
  refine h.trans ⟨hr, fun id l c hf hc => ⟨l, ?_, hc⟩⟩
  rw [State.launch, hl]
  exact hf

/-- The readiness map and the launches are the same. -/
structure Quiet (s t : State) : Prop where
  ready : t.readiness = s.readiness
  launches : t.launches = s.launches

theorem Quiet.refl (s : State) : Quiet s s := ⟨rfl, rfl⟩

theorem Quiet.trans (h : Quiet s u) (g : Quiet u v) : Quiet s v := ⟨g.ready.trans h.ready, g.launches.trans h.launches⟩

theorem Quiet.foldl {α : Type} (f : State → α → State) (hf : ∀ u a, Quiet u (f u a)) (l : List α) (s : State) : Quiet s (l.foldl f s) :=
  foldl_keeps (Quiet s) f (fun u a hu => hu.trans (hf u a)) l s (.refl s)

theorem Calm.quiet (c : Calm s u) : Quiet s u := ⟨c.ready, c.launches⟩

theorem Steady.quiet (h : Steady s u) (q : Quiet u v) : Steady s v := h.same q.ready q.launches

theorem Steady.calm (h : Steady s u) (c : Calm u v) : Steady s v := h.quiet c.quiet

/-- A fold of steady steps is steady. -/
theorem Steady.foldl {α : Type} {f : State → α → State} {l : List α} (h : Steady s u)
    (hf : ∀ {w : State} {a : α}, Steady s w → Steady s (f w a)) : Steady s (l.foldl f u) :=
  foldl_keeps (Steady s) f (fun _ _ hw => hf hw) l u h

/-! ### Launches -/

/-- A launch where all were changed one by one, none of them in its id. -/
theorem State.launch_map (f : Launch → Launch) (hl : v.launches = u.launches.map f) (hid : ∀ l, (f l).id = l.id) (id : BitVec 32) :
    v.launch id = (u.launch id).map f := by
  have hp : ((fun l : Launch => l.id == id) ∘ f) = fun l => l.id == id := funext fun l => congrArg (· == id) (hid l)
  rw [State.launch, hl, List.find?_map, hp, State.launch]

/-- Launches changed one by one, none of them in its id or, where it is ending, in its phase. -/
theorem Steady.mapLaunches (h : Steady s u) (f : Launch → Launch) (hr : v.readiness = u.readiness) (hl : v.launches = u.launches.map f)
    (hid : ∀ l, (f l).id = l.id) (hf : ∀ l c, l.phase = .ending c → (f l).phase = .ending c) : Steady s v := by
  refine h.trans ⟨hr, fun id l c hg hc => ⟨f l, ?_, hf l c hc⟩⟩
  rw [State.launch_map f hl hid, hg, Option.map_some]

/-- A launch added behind the others. -/
theorem Steady.addLaunch (h : Steady s u) (l : Launch) (hr : v.readiness = u.readiness) (hl : v.launches = u.launches ++ [l]) :
    Steady s v := by
  refine h.trans ⟨hr, fun id m c hg hc => ⟨m, ?_, hc⟩⟩
  rw [State.launch] at hg
  rw [State.launch, hl, List.find?_append, hg, Option.some_or]

/-- A launch that ends early with a status, where none has ended it before (R324). -/
def Launch.ended (l : Launch) (status : Byte) (detail : W64) : Launch :=
  match l.phase with
  | .waiting | .queued | .running => { l with phase := .ending status, detail := detail }
  | .ending _ | .complete _ => l

@[simp] theorem Launch.ended_id (l : Launch) (status : Byte) (detail : W64) : (l.ended status detail).id = l.id := by
  unfold Launch.ended
  split <;> rfl

theorem Launch.ended_running (l : Launch) (status : Byte) (detail : W64) (h : l.phase = .running) :
    l.ended status detail = { l with phase := .ending status, detail := detail } := by
  unfold Launch.ended
  rw [h]

/-- The first status that ends a launch is kept. -/
theorem Launch.ended_ending (l : Launch) (status c : Byte) (detail : W64) (h : l.phase = .ending c) : l.ended status detail = l := by
  unfold Launch.ended
  rw [h]

theorem State.endLaunch_launches (s : State) (id : BitVec 32) (status : Byte) (detail : W64) :
    (s.endLaunch id status detail).launches = s.launches.map fun l => if l.id == id then l.ended status detail else l := rfl

theorem State.launch_endLaunch (s : State) (id j : BitVec 32) (status : Byte) (detail : W64) :
    (s.endLaunch id status detail).launch j = (s.launch j).map fun l => if l.id == id then l.ended status detail else l := by
  refine State.launch_map _ (s.endLaunch_launches id status detail) (fun l => ?_) j
  split
  · exact l.ended_id status detail
  · rfl

theorem Steady.endLaunch {id : BitVec 32} {status : Byte} {detail : W64} (h : Steady s u) : Steady s (u.endLaunch id status detail) := by
  refine h.mapLaunches _ rfl (u.endLaunch_launches id status detail) (fun l => ?_) fun l c hc => ?_
  · split
    · exact l.ended_id status detail
    · rfl
  · split
    · rw [l.ended_ending status c detail hc]
      exact hc
    · exact hc

theorem Steady.promote (h : Steady s u) : Steady s u.promote := by
  refine h.mapLaunches _ rfl rfl (fun l => ?_) fun l c hc => ?_
  · split <;> rfl
  · split
    · next hw => simp [hc] at hw
    · exact hc

theorem Steady.accept {asid : BitVec 12} {b : List Byte} {poison : Byte} {parent : Option (Fin 4 × Task)} (h : Steady s u) :
    Steady s (u.accept asid b poison parent).1 :=
  Steady.promote (h.addLaunch _ rfl rfl)

/-! ### Strands -/

section
variable {st : Fin 4} {k : StreamId}

theorem Steady.modStrand {f : Strand → Strand} (h : Steady s u) : Steady s (u.modStrand st f) := h.same rfl rfl

theorem Steady.modStream {f : Stream → Stream} (h : Steady s u) : Steady s (u.modStream st k f) := h.modStrand

theorem Steady.writeX {r : Reg} {w : W64} (h : Steady s u) : Steady s (u.writeX st k r w) := h.modStream

theorem Steady.goto {pc : W64} (h : Steady s u) : Steady s (u.goto st k pc) := h.modStream

theorem Steady.retire (h : Steady s u) : Steady s (u.retire st k) := h.goto

theorem Steady.done {rd : Reg} {w : W64} (h : Steady s u) : Steady s (u.done st k rd w) := h.writeX.retire

theorem Steady.wait {w : Status} (h : Steady s u) : Steady s (u.wait st k w) := h.modStream

theorem Steady.acquired (h : Steady s u) : Steady s (u.acquired st k) := h.modStream

theorem Steady.pushDone {rd : Reg} {w bytes : W64} (h : Steady s u) : Steady s (u.pushDone st k rd w bytes) := h.writeX.goto

theorem Steady.modTeam {t : Task} {f : Team → Team} (h : Steady s u) : Steady s (u.modTeam t f) := h.same rfl rfl

theorem Steady.forTask {t : Option Task} {f : Strand → Strand} (h : Steady s u) : Steady s (u.forTask st t f) :=
  h.calm (u.forTask_calm st t f)

theorem Steady.settle {t : Option Task} {eng : Fin 5} {r : Option W64} (h : Steady s u) : Steady s (u.settle st t eng r) := h.forTask

end

theorem Steady.onCore {n : Nat} {f : State → State} (h : Steady s u) (hf : ∀ {w : State}, Steady s w → Steady s (f w)) :
    Steady s (u.onCore n f) :=
  (hf (h.calm (u.switchCore_calm n))).calm (State.switchCore_calm _ _)

/-! ### Requests placed in the queues of stacks (R107) -/

theorem Steady.queueAt {pa : Nat} {q : StackReq} (h : Steady s u) : Steady s (u.queueAt pa q) := h.same rfl rfl

theorem State.placeReq_quiet (s : State) (ns : List (Fin 24)) (q : StackReq) : Quiet s (s.placeReq ns q) := by
  rw [s.placeReq_frame]
  exact ⟨rfl, rfl⟩

theorem Steady.placeReq {ns : List (Fin 24)} {q : StackReq} (h : Steady s u) : Steady s (u.placeReq ns q) := h.quiet (u.placeReq_quiet ns q)

theorem Steady.keepWork {pas : List Nat} {t : Option Task} {w : HeldWork} (h : Steady s u) : Steady s (u.keepWork pas t w) := by
  rw [u.keepWork_frame]
  exact h.same rfl rfl

theorem Steady.keepEntry {st : Fin 4} {pas : List Nat} (h : Steady s u) : Steady s (u.keepEntry st pas) := h.keepWork

theorem Steady.keepInstr {st : Fin 4} {k : StreamId} {pas : List Nat} {i : Instr} (h : Steady s u) : Steady s (u.keepInstr st k pas i) :=
  h.keepWork

/-! ### Writes -/

section
variable {key pa n : Nat} {bs : List Byte} {st : Fin 4} {k : StreamId}

theorem Steady.putBytes (h : Steady s u) : Steady s (u.putBytes key pa bs) := h.calm (u.putBytes_calm key pa bs)

theorem Steady.markWrite (h : Steady s u) : Steady s (u.markWrite pa n) := h.calm (u.markWrite_calm pa n)

theorem Steady.modPlats {sel : Team → Plat → Bool} {f : Plat → Plat} (h : Steady s u) : Steady s (u.modPlats sel f) :=
  h.calm (u.modPlats_calm sel f)

theorem Steady.addPoison (h : Steady s u) : Steady s (u.addPoison pa) := by
  unfold State.addPoison
  split
  · exact h
  · exact h.same rfl rfl

theorem Steady.poisonAll {pas : List Nat} (h : Steady s u) : Steady s (u.poisonAll pas) := h.foldl fun hw => hw.addPoison

theorem State.drainLine_quiet (s : State) (es : List WcbEntry) : Quiet s (s.drainLine es) := by
  unfold State.drainLine
  split
  · exact .refl s
  · split
    · exact ⟨rfl, rfl⟩
    · exact (s.putParts_calm _).quiet

theorem State.drainAt_quiet (s : State) (pa n : Nat) : Quiet s (s.drainAt pa n) := by
  unfold State.drainAt
  dsimp only
  split
  · exact .refl s
  · exact (Quiet.foldl _ (fun u l => u.drainLine_quiet _) _ s).trans ⟨rfl, rfl⟩

theorem State.write_quiet (s : State) (key pa : Nat) (bs : List Byte) : Quiet s (s.write key pa bs) :=
  ((s.drainAt_quiet pa bs.length).trans (State.putBytes_calm _ key pa bs).quiet).trans (State.markWrite_calm _ pa bs.length).quiet

theorem State.scatterBytes_quiet (s : State) (key : Nat) (l : List (Nat × Byte)) : Quiet s (s.scatterBytes key l) :=
  Quiet.foldl _ (fun (u : State) (r : Nat × List Byte) => u.write_quiet key r.1 r.2) _ s

theorem Steady.drainAt (h : Steady s u) : Steady s (u.drainAt pa n) := h.quiet (u.drainAt_quiet pa n)

theorem Steady.write (h : Steady s u) : Steady s (u.write key pa bs) := h.quiet (u.write_quiet key pa bs)

theorem Steady.scatterBytes {l : List (Nat × Byte)} (h : Steady s u) : Steady s (u.scatterBytes key l) :=
  h.quiet (u.scatterBytes_quiet key l)

theorem Steady.holdByte {b bits : Byte} (h : Steady s u) : Steady s (u.holdByte st k key pa b bits) := by
  unfold State.holdByte
  split
  · exact h
  · exact h.same rfl rfl

theorem Steady.holdBytes (h : Steady s u) : Steady s (u.holdBytes st k key pa bs) :=
  (h.foldl fun hw => hw.holdByte).markWrite

theorem Steady.scalarStore (h : Steady s u) : Steady s (u.scalarStore st k pa bs) := by
  unfold State.scalarStore
  dsimp only
  split
  · exact h.holdBytes
  · split
    · exact h.drainAt.queueAt.markWrite
    · exact h.write

theorem Steady.wcbRoom (h : Steady s u) : Steady s (u.wcbRoom pa) := by
  unfold State.wcbRoom
  split
  · exact h
  · split
    · exact h.drainAt
    · exact h

theorem Steady.wcbByte {b bits : Byte} (h : Steady s u) : Steady s (u.wcbByte st key pa b bits) := by
  unfold State.wcbByte
  split
  · exact h.drainAt.putBytes
  · split
    · exact (h.putBytes).same rfl rfl
    · have hroom : Steady s (u.wcbRoom pa) := h.wcbRoom
      exact hroom.same rfl rfl

theorem Steady.vectorStore {bits : Byte} (h : Steady s u) : Steady s (u.vectorStore st pa bs bits) := by
  unfold State.vectorStore
  dsimp only
  split
  · exact (h.foldl fun hw => hw.holdByte).markWrite
  · exact (h.foldl fun hw => hw.wcbByte).markWrite

end

/-! ### Traps -/

section
variable {st : Fin 4} {k : StreamId} {cause : Byte} {tval : W64}

theorem Steady.endTrapped (h : Steady s u) : Steady s (u.endTrapped st cause) := by
  unfold State.endTrapped
  split
  · exact h.endLaunch
  · exact h.modStrand

theorem Steady.park {tpc : W64} {vec : Bool} (h : Steady s u) : Steady s (u.park st k cause tpc tval vec) := h.same rfl rfl

theorem Steady.enter {tpc resume : W64} {vec fwd : Bool} (h : Steady s u) :
    Steady s (u.enter st k cause tpc tval vec fwd resume) := by
  unfold State.enter
  dsimp only
  split
  · exact h.modStrand.endTrapped
  · split
    · exact h.modStrand.endTrapped
    · split
      · exact h.modStrand.endTrapped
      · exact (h.foldl fun hw => hw.write).same rfl rfl

theorem Steady.trapTo {resume : W64} (h : Steady s u) : Steady s (u.trapTo st k cause tval resume) := by
  unfold State.trapTo
  split
  · exact h
  · split
    · exact h.park
    · exact h.enter

theorem Steady.trap (h : Steady s u) : Steady s (u.trap st k cause tval) := h.trapTo

theorem Steady.fault {f : Fa} (h : Steady s u) : Steady s (u.fault st k f) := by
  unfold State.fault
  split
  · exact h.keepWork
  · exact h.trap

theorem Steady.illegal {sub : Byte} (h : Steady s u) : Steady s (u.illegal st k sub) := h.trap

theorem Steady.vecTrap (h : Steady s u) : Steady s (u.vecTrap st cause tval) := by
  unfold State.vecTrap
  dsimp only
  split
  · exact h
  · split
    · exact h.park
    · exact h.enter

theorem Steady.checkDead (h : Steady s u) : Steady s (u.checkDead st) := by
  unfold State.checkDead
  dsimp only
  split
  · exact h.enter
  · exact h

end

end Sys2Proof.Machine
end

section
/-! PROOFS. The instructions that a stack keeps are steady (R107): scalar accesses, launches, plats, sparse merges. -/

namespace Sys2Proof.Machine

variable {s u v : State} {st : Fin 4} {k : StreamId}

/-- An instruction of a stream is steady where what it does on every stream is. -/
theorem Steady.onStream {f : Fin 4 → StreamId → State} (h : Steady s u) (hf : ∀ {st k}, Steady s (f st k)) :
    Steady s (nextOr v (onStream u f)) := by
  unfold Machine.onStream
  split
  · exact hf
  · exact h

theorem Steady.ite {c : Prop} [Decidable c] (h : Steady s u) (g : Steady s v) : Steady s (if c then u else v) := by
  split
  · exact h
  · exact g

/-! ### Scalar accesses -/

theorem Steady.queueLoad {n pa : Nat} {sgn : Bool} {rd : Reg} {va : W64} (h : Steady s u) :
    Steady s (u.queueLoad st k n sgn pa rd va) := h.drainAt.queueAt.wait

theorem Steady.load {z : LdSize} {rd : Reg} {va : W64} (h : Steady s u) : Steady s (u.load st k z rd va) := by
  unfold State.load
  dsimp only
  repeat' split
  · exact h
  · exact h.trap
  · exact h.fault
  · exact h
  · exact h.queueLoad
  · exact h.trap
  · exact h.done

theorem Steady.store {z : StSize} {w va : W64} (h : Steady s u) : Steady s (u.store st k z w va) := by
  unfold State.store
  dsimp only
  repeat' split
  · exact h
  · exact h.trap
  · exact h.fault
  · exact h.trap
  · exact h
  · exact h.scalarStore.retire

theorem State.atomicStep_quiet (s : State) (key func n pa old arg expect : Nat) :
    Quiet s (s.atomicStep key func n pa old arg expect) := by
  unfold State.atomicStep
  split
  · exact s.write_quiet _ _ _
  · exact .refl s

theorem Steady.atomicStep {key func n pa old arg expect : Nat} (h : Steady s u) :
    Steady s (u.atomicStep key func n pa old arg expect) := h.quiet (u.atomicStep_quiet ..)

theorem Steady.queueAtomic {func n pa : Nat} {arg expect va : W64} {rd : Reg} (h : Steady s u) :
    Steady s (u.queueAtomic st k func n pa arg expect rd va) := by
  unfold State.queueAtomic
  split
  · exact h
  · exact h.drainAt.queueAt.wait

theorem Steady.amo {func : Nat} {sc : Scope} {o : Order} {d : Bool} {rd rs1 rs2 : Reg} (h : Steady s u) :
    Steady s (u.amo st k func sc o d rd rs1 rs2) := by
  unfold State.amo
  dsimp only
  repeat' split
  · exact h
  · exact h.trap
  · exact h.fault
  · exact h.trap
  · exact h.trap
  · exact h
  · exact h.queueAtomic
  · exact h.trap
  · exact h.atomicStep.done.acquired
  · exact h.atomicStep.done

theorem Steady.execLda {sc : Scope} {d : Bool} {rd rs1 : Reg} (h : Steady s u) : Steady s (nextOr v (execLda sc d rd rs1 u)) := by
  refine h.onStream fun {st k} => ?_
  dsimp only
  repeat' split
  · exact h
  · exact h.trap
  · exact h.fault
  · exact h
  · exact h.queueLoad
  · exact h.trap
  · exact h.done.acquired

theorem Steady.execStl {sc : Scope} {d : Bool} {rs1 rs2 : Reg} (h : Steady s u) : Steady s (nextOr v (execStl sc d rs1 rs2 u)) := by
  refine h.onStream fun {st k} => ?_
  dsimp only
  repeat' split
  · exact h
  · exact h.trap
  · exact h.fault
  · exact h.trap
  · exact h
  · exact h.queueAtomic
  · exact h.trap
  · exact h.scalarStore.retire

theorem Steady.waitSeen {w : WaitOp} {zero : Bool} {m : W64} (h : Steady s u) : Steady s (u.waitSeen st k w zero m) :=
  h.calm (u.waitSeen_calm st k w zero m)

theorem Steady.waita {c : WaitCond} {tmo : Bool} {rd rs1 rs2 : Reg} (h : Steady s u) : Steady s (u.waita st k c tmo rd rs1 rs2) := by
  unfold State.waita State.waitTest
  dsimp only
  repeat' split
  · exact h
  · exact h.trap
  · exact h
  · exact h.fault
  · exact h
  · exact h.drainAt.queueAt.wait
  · exact h.trap
  · exact h.waitSeen

/-! ### Returns from traps, launches, coefficient tables -/

theorem Steady.trapReturn (h : Steady s u) : Steady s (u.trapReturn st k) := by
  unfold State.trapReturn
  dsimp only
  repeat' split
  · exact h.illegal
  · exact h
  · exact h.fault
  · exact h.keepInstr
  · exact h.trap
  · exact h.illegal
  · exact h.trap
  · exact h.trap
  · exact h.modStrand

theorem Steady.lnchRefuse {rd : Reg} {status : Byte} (h : Steady s u) : Steady s (u.lnchRefuse st k rd status) := h.modStrand.done

theorem Steady.lnch {rd rs1 : Reg} (h : Steady s u) : Steady s (u.lnch st k rd rs1) := by
  unfold State.lnch
  dsimp only
  repeat' split
  · exact h.trap
  · exact h.trap
  · exact h
  · exact h.lnchRefuse
  · exact h.lnchRefuse
  · exact h.fault
  · exact h.keepInstr
  · exact h.trap
  · exact h.lnchRefuse
  · exact h.accept.modStrand.done

theorem Steady.setTables {l : List (Fin 2 × List Byte)} (h : Steady s u) : Steady s (u.setTables l) := h.foldl fun hw => hw.same rfl rfl

theorem Steady.coefLoaded {l : List (Fin 2 × List Byte)} (h : Steady s u) : Steady s (u.coefLoaded st l) := by
  unfold State.coefLoaded
  extract_lets shared w
  have hw : Steady s w := Steady.setTables (h.same rfl rfl)
  exact hw.same rfl rfl

theorem Steady.execCoefld {t : BitVec 5} {rs : Reg} (h : Steady s u) : Steady s (nextOr v (execCoefld t rs u)) := by
  refine h.onStream fun {st k} => ?_
  dsimp only
  split
  · exact h.trap
  split
  · exact h.trap
  split
  · exact h
  split
  · exact h.trap
  split
  · exact h.keepInstr
  split
  · exact h.trap
  split
  · exact h.trap
  · exact h.coefLoaded.retire

/-! ### Plats -/

theorem Steady.record {i : Nat} {r : Byte} (h : Steady s u) : Steady s (u.record st i r) := h.modPlats

theorem Steady.freshness {p : Plat} (h : Steady s u) : Steady s (u.freshness st k p).1 := by
  unfold State.freshness
  repeat' split
  · exact h
  · exact h.record
  · exact h.record
  · exact h

theorem Steady.platCheck {i : W64} (h : Steady s u) : Steady s (u.platCheck st k i).1 := by
  unfold State.platCheck
  dsimp only
  repeat' split
  · exact h
  · exact h
  · exact h
  · exact h
  · exact h.freshness

/-- The state that the check of a handle leaves. -/
theorem Steady.platCheck_eq {i : W64} {r : Except (Byte × W64) Plat} (h : Steady s u) (e : u.platCheck st k i = (v, r)) : Steady s v := by
  have hc : Steady s (u.platCheck st k i).1 := h.platCheck
  rwa [e] at hc

theorem Steady.freeSeals {keys : List (Option Nat)} (h : Steady s u) : Steady s (u.freeSeals keys) := h.same rfl rfl

theorem Steady.releasePlat {i : Nat} (h : Steady s u) : Steady s (u.releasePlat st i) := by
  unfold State.releasePlat
  dsimp only
  repeat' split
  · exact h
  · exact h.freeSeals.modPlats.modTeam
  · exact h.freeSeals.modPlats
  · exact h

theorem Steady.dropPlat {i : Nat} (h : Steady s u) : Steady s (u.dropPlat st i) := by
  unfold State.dropPlat
  split
  · exact h.modTeam
  · exact h

theorem Steady.withSeals {l : List Seal} (h : Steady s u) : Steady s { u with seals := l } := h.same rfl rfl

theorem Steady.build {rd : Reg} {p : Plat} (h : Steady s u) : Steady s (u.build st k rd p) := by
  unfold State.build
  extract_lets old u1 u2 pa sealed own q bytes u3 u4 u5
  have h1 : Steady s u1 := h.foldl fun hw => hw.releasePlat.dropPlat
  have h2 : Steady s u2 := by
    dsimp only [u2]
    repeat' split
    · exact h1.dropPlat
    · exact h1
    · exact h1
  have h3 : Steady s u3 := h2.write
  have h4 : Steady s u4 := h3.withSeals
  have h5 : Steady s u5 := by
    dsimp only [u5]
    split
    · exact h4.modTeam
    · exact h4
  exact h5.done

theorem Steady.platmk {rd xh xidx xn xbase : Reg} {iw : Bool} {lsz : BitVec 4} (h : Steady s u) :
    Steady s (u.platmk st rd xh xidx xn xbase iw lsz) := by
  unfold State.platmk
  extract_lets k hh ia nn base l n ib
  split
  · exact h.trap
  split
  · exact h.trap
  split
  · exact h.trap
  split
  · exact h.trap
  split
  · exact h.fault
  split
  · exact h.keepInstr
  split
  · exact h.trap
  extract_lets raw idx ta
  split
  · exact h.fault
  split
  · exact h
  · exact h.build

theorem Steady.platco {rd xc xa xb : Reg} (h : Steady s u) : Steady s (u.platco st rd xc xa xb) := by
  unfold State.platco
  extract_lets k hc ha hb keep
  split
  · exact h.keepInstr
  split
  · next e => exact (h.platCheck_eq e).trap
  split
  · next e => exact (h.platCheck_eq e).trap
  split
  · exact h.trap
  split
  · exact h.trap
  split
  · exact h.trap
  extract_lets foot ipas
  split
  · exact h.keepInstr
  split
  · exact h.trap
  split
  · exact h
  · exact h.build

theorem Steady.execPlatmk {rd xh xidx xn xbase : Reg} {iw : Bool} {lsz : BitVec 4} (h : Steady s u) :
    Steady s (nextOr v (execPlatmk rd xh xidx xn xbase iw lsz u)) := by
  refine h.onStream fun {st k} => ?_
  split
  · exact h.illegal
  · exact h.platmk

theorem Steady.execPlatco {rd xc xa xb : Reg} (h : Steady s u) : Steady s (nextOr v (execPlatco rd xc xa xb u)) := by
  refine h.onStream fun {st k} => ?_
  split
  · exact h.illegal
  · exact h.platco

theorem Steady.execPlatck {rd xh : Reg} (h : Steady s u) : Steady s (nextOr v (execPlatck rd xh u)) := by
  refine h.onStream fun {st k} => ?_
  dsimp only
  split
  · exact h.illegal
  split
  · exact h.trap
  split
  · exact h.keepInstr
  split
  · exact h.done
  split
  · exact h.trap
  · exact h.freshness.done

theorem Steady.deferOp {t : Task} {seq : Nat} {d : Deferred} (h : Steady s u) : Steady s (u.deferOp t seq d) := h.same rfl rfl

theorem Steady.chargeTeam {n : Nat} (h : Steady s u) : Steady s (u.chargeTeam st n) := by
  unfold State.chargeTeam
  split
  · exact h.modTeam
  · exact h

theorem Steady.platGo {q : PlatReq} {granted : Bool} (h : Steady s u) : Steady s (u.platGo st q granted) := by
  unfold State.platGo
  extract_lets k
  split
  · exact h
  split
  · next e => exact (h.platCheck_eq e).trap
  split
  · exact h.trap
  extract_lets deferred charge
  split
  · exact h.trap
  refine h.ite ?_
  generalize (if (granted || u.platQ.isEmpty) = true then u.freePlat else none) = free
  split
  · exact Steady.wait (h.same rfl rfl)
  extract_lets x i o sq o' u1 u2
  have h1 : Steady s u1 := h.same rfl rfl
  have h2 : Steady s u2 := by
    dsimp only [u2]
    split
    · exact h1.chargeTeam.deferOp
    · exact h1
  exact h2.modStrand.pushDone

theorem Steady.execPlatg {dev : Bool} {rd xh xdst xmark xval : Reg} (h : Steady s u) :
    Steady s (nextOr v (execPlatg dev rd xh xdst xmark xval u)) := by
  refine h.onStream fun {st k} => ?_
  split
  · exact h.illegal
  split
  · exact h.keepInstr
  · exact h.platGo

theorem Steady.execPlats {dev : Bool} {op : ScatOp} {ty : ScatType} {pl : Bool} {xpl rd xh xsrc xmark xval : Reg} (h : Steady s u) :
    Steady s (nextOr v (execPlats dev op ty pl xpl rd xh xsrc xmark xval u)) := by
  refine h.onStream fun {st k} => ?_
  split
  · exact h.illegal
  split
  · exact h.keepInstr
  · exact h.platGo

/-! ### Sparse merges -/

theorem Steady.spWrite {ws : List (Nat × Byte)} (h : Steady s u) : Steady s (u.spWrite st k ws) := h.foldl fun hw => hw.scalarStore

theorem Steady.spStop {w : HeldWork} {e : SpStop} (h : Steady s u) : Steady s (u.spStop st k w e) := by
  unfold State.spStop
  split
  · exact h.trap
  · exact h.keepWork

theorem Steady.execSphdr {full : Bool} {rd rs1 : Reg} (h : Steady s u) : Steady s (nextOr v (execSphdr full rd rs1 u)) := by
  refine h.onStream fun {st k} => ?_
  split
  · exact h
  split
  · exact h.done
  · exact h.spStop

theorem Steady.execSpcnt {kz : Bool} {rd rs1 rs2 xs xs2 : Reg} (h : Steady s u) :
    Steady s (nextOr v (execSpcnt kz rd rs1 rs2 xs xs2 u)) := by
  refine h.onStream fun {st k} => ?_
  split
  · exact h
  split
  · exact h.spWrite.retire
  · exact h.spStop

theorem Steady.execSpmrg {kz : Bool} {rd rs1 rs2 xs xs2 : Reg} (h : Steady s u) :
    Steady s (nextOr v (execSpmrg kz rd rs1 rs2 xs xs2 u)) := by
  refine h.onStream fun {st k} => ?_
  split
  · exact h
  split
  · exact h.spWrite.retire
  · exact h.spStop

/-! ### Instructions executed again -/

/-- An instruction that a held stack has kept is steady. -/
theorem Steady.redoInstr {i : Instr} (h : Steady s u) : Steady s (u.redoInstr i) := by
  unfold State.redoInstr
  split
  · exact h.onStream h.trapReturn
  · exact h.onStream h.lnch
  · exact h.execPlatmk
  · exact h.execPlatco
  · exact h.execPlatck
  · exact h.execPlatg
  · exact h.execPlats
  · exact h.execCoefld
  · exact h.onStream h.load
  · exact h.onStream h.load
  · exact h.onStream h.store
  · exact h.onStream h.store
  · exact h.execLda
  · exact h.execStl
  · exact h.onStream h.amo
  · exact h.onStream h.amo
  · exact h.onStream h.amo
  · exact h.onStream h.amo
  · exact h.onStream h.amo
  · exact h.onStream h.amo
  · exact h.onStream h.amo
  · exact h.onStream h.amo
  · exact h.onStream h.amo
  · exact h.onStream h.amo
  · exact h.onStream h.amo
  · exact h.onStream h.waita
  · exact h.onStream h.waita
  · exact h.onStream h.waita
  · exact h

theorem Steady.redoWords {words : List W32} (h : Steady s u) : Steady s (u.redoWords words) := by
  unfold State.redoWords
  split
  · exact h.redoInstr
  · exact h

theorem Steady.redoSparse {func : Fin 3} {var : Bool} {rd rs1 rs2 xs xs2 : Reg} (h : Steady s u) :
    Steady s (u.redoSparse func var rd rs1 rs2 xs xs2) := by
  unfold State.redoSparse
  split
  · exact h.execSphdr
  · exact h.execSpcnt
  · exact h.execSpmrg

theorem Steady.withCur {c : Cur} (h : Steady s u) : Steady s { u with cur := c } := h.same rfl rfl

theorem Steady.redoAt {t : Option Task} {pc : W64} {words : List W32} {go : State → State} (h : Steady s u)
    (hgo : ∀ {w : State}, Steady s w → Steady s (go w)) : Steady s (u.redoAt st k t pc words go) := by
  unfold State.redoAt
  split
  · exact (hgo h.withCur).withCur
  · exact h

end Sys2Proof.Machine
end

section
/-! PROOFS. The work of engines, of a strand's VIQ and of the outside that a stack keeps is steady (R107). -/

namespace Sys2Proof.Machine

variable {s u v : State} {st : Fin 4} {k : StreamId}

/-! ### The copy and network engines -/

theorem Steady.foldStep {c : Copy} {dst : Nat} {src : List (Byte × Bool)} (h : Steady s u) : Steady s (u.foldStep c dst src) := by
  unfold State.foldStep
  dsimp only
  split
  · exact h.write.addPoison
  · exact h.write

theorem Steady.foldSteps {c : Copy} {src : List (Byte × Bool)} {dsts : List Nat} (h : Steady s u) : Steady s (u.foldSteps c src dsts) := by
  induction dsts generalizing u src with
  | nil => exact h
  | cons d ds ih => exact ih h.foldStep

theorem Steady.copyApply {c : Copy} {dsts : List Nat} {src : List (Byte × Bool)} {res : Option Nat} (h : Steady s u) :
    Steady s (u.copyApply c dsts src res) := by
  unfold State.copyApply
  extract_lets key
  split
  · exact h.scatterBytes.poisonAll
  split
  · split
    · exact h
    · exact Steady.ite h.write.addPoison h.write
  · exact h.foldSteps

theorem Steady.engineFail {t : Option Task} {eng : Fin 5} {r : W64} (h : Steady s u) : Steady s (u.engineFail st t eng r) := by
  unfold State.engineFail
  split
  · exact h.modStrand
  split
  · exact h.same rfl rfl
  split
  · exact h.endLaunch
  · exact h

theorem Steady.freeChannel {ch : Fin 16} (h : Steady s u) : Steady s (u.freeChannel ch) := h.same rfl rfl

theorem Steady.execCopyComplete {ch : Fin 16} (h : Steady s u) : Steady s (nextOr v (execCopyComplete ch u)) := by
  unfold Machine.execCopyComplete
  split
  · exact h
  extract_lets p src u1 u2 r
  split
  · exact h
  split
  · exact h.keepWork
  have h1 : Steady s u1 := by
    dsimp only [u1]
    refine Steady.ite ?_ h.copyApply
    split
    · exact h.deferOp
    · exact h
  have h2 : Steady s u2 := by
    dsimp only [u2]
    split
    · exact h1.write
    · exact h1
  exact h2.freeChannel.settle

theorem Steady.execCopyFault {ch : Fin 16} (h : Steady s u) : Steady s (nextOr v (execCopyFault ch u)) := by
  unfold Machine.execCopyFault
  split
  · exact h
  extract_lets p partly n u1
  split
  · exact h
  split
  · exact h.keepWork
  have h1 : Steady s u1 := h.copyApply.ite h
  exact h1.freeChannel.engineFail

theorem Steady.netMove {n : NetOp} {pas : List Nat} {data : List Byte} (h : Steady s u) : Steady s (u.netMove st n pas data) := by
  unfold State.netMove
  extract_lets key src
  split
  · exact h.same rfl rfl
  split
  · split
    · exact h.write
    · exact h
  · exact h.scatterBytes

theorem Steady.execNetComplete {slot : Fin 16} {ok : Bool} {data : List Byte} (h : Steady s u) :
    Steady s (nextOr v (execNetComplete st slot ok data u)) := by
  unfold Machine.execNetComplete
  extract_lets x drop
  split
  · exact h
  extract_lets fail
  have hd : ∀ {w}, Steady s w → Steady s (drop w) := fun hw => hw.modStrand
  have hf : ∀ {status}, Steady s (nextOr v (fail status)) := (hd h).engineFail
  split
  · exact h
  split
  · exact hf
  split
  · exact h.keepWork
  split
  · exact hf
  split
  · exact hf
  split
  · exact h
  extract_lets u1 u2
  have h2 : Steady s u2 := by
    dsimp only [u2]
    split
    · exact h.netMove.write
    · exact h.netMove
  exact (hd h2).settle

/-! ### The plat engine -/

theorem Steady.scatterTarget {o : PlatOp} {op : ScatOp} {ty : ScatType} {src : List (List (Byte × Bool))} {pas js : List Nat}
    (h : Steady s u) : Steady s (u.scatterTarget o op ty src pas js) := by
  unfold State.scatterTarget
  split
  · exact h
  extract_lets sz key oldBs bytes a bad oldBad u1 u2
  have h1 : Steady s u1 := h.scatterBytes
  have h2 : Steady s u2 := h1.poisonAll.ite h1
  refine Steady.ite (h2.foldl fun hw => ?_) h2
  exact Steady.ite hw.scatterBytes.poisonAll hw.scatterBytes

theorem Steady.scatterAll {o : PlatOp} {src : List (List (Byte × Bool))} {squash : List Bool} (h : Steady s u) :
    Steady s (u.scatterAll o src squash) := by
  unfold State.scatterAll
  split
  · exact h
  · exact h.foldl fun hw => hw.scatterTarget

theorem Steady.gatherAll {o : PlatOp} (h : Steady s u) : Steady s (u.gatherAll o) := by
  unfold State.gatherAll
  extract_lets key src u1
  have h1 : Steady s u1 := h.scatterBytes
  exact h1.poisonAll

theorem Steady.freeSlot {i : Fin 16} (h : Steady s u) : Steady s (u.freeSlot i) := h.same rfl rfl

theorem Steady.platEnd {i : Fin 16} {o : PlatOp} {reach : Bool} {status : Byte} {n : Nat} (h : Steady s u) (hv : Steady s v) :
    Steady s (u.platEnd i o reach v status n) := by
  unfold State.platEnd
  extract_lets pas u1
  split
  · exact h.keepWork
  split
  · exact h.freeSlot.engineFail
  split
  · exact h.freeSlot.engineFail
  split
  · exact h.freeSlot.engineFail
  have h1 : Steady s u1 := by
    dsimp only [u1]
    split
    · exact hv.write
    · exact hv
  exact h1.freeSlot.settle

theorem Steady.execPlatGatherComplete {slot : Fin 16} {reach : Bool} (h : Steady s u) :
    Steady s (nextOr v (execPlatGatherComplete slot reach u)) := by
  unfold Machine.execPlatGatherComplete
  split
  · exact h
  split
  · exact h
  · exact h.platEnd h.gatherAll

theorem Steady.execPlatScatterComplete {slot : Fin 16} {reach : Bool} (h : Steady s u) :
    Steady s (nextOr v (execPlatScatterComplete slot reach u)) := by
  unfold Machine.execPlatScatterComplete
  split
  · exact h
  split
  · exact h
  split
  · exact h.platEnd h
  · exact h.platEnd h.scatterAll

/-! ### The matrix engine -/

theorem Steady.finish {e : VEntry} {y : Strand} {rd : W64} (h : Steady s u) : Steady s (u.finish st e y rd) := h.modStrand

theorem Steady.settleEntry {e : VEntry} {r : VRes} (h : Steady s u) : Steady s (u.settleEntry st e r) := by
  unfold State.settleEntry
  split
  · exact h.finish
  · exact h.modStrand.vecTrap

theorem Steady.modMat {f : Matrix → Matrix} (h : Steady s u) : Steady s (u.modMat f) := h.same rfl rfl

theorem Steady.acceptMat {e : VEntry} {q : MatEntry} (h : Steady s u) : Steady s (u.acceptMat st e q) := h.modMat.finish

theorem Steady.matTrap {e : VEntry} {cause : Byte} {tval : W64} (h : Steady s u) : Steady s (u.matTrap st e cause tval) := h.settleEntry

theorem Steady.matIllegal {e : VEntry} {sub : Byte} (h : Steady s u) : Steady s (u.matIllegal st e sub) := h.settleEntry

theorem Steady.matFormat {e : VEntry} (h : Steady s u) : Steady s (u.matFormat st e) := h.settleEntry

theorem Steady.mma {e : VEntry} {o : VOp} {m : Ext} (h : Steady s u) : Steady s (u.mma st e o m) := by
  unfold State.mma
  extract_lets x b list
  split
  · exact h.matIllegal
  split
  · exact h.matFormat
  extract_lets fr
  split
  · exact h.matIllegal
  split
  · exact h.matTrap
  split
  · exact h.matFormat
  split
  · exact h.matTrap
  · exact h.acceptMat

theorem Steady.bld {e : VEntry} {o : VOp} (h : Steady s u) : Steady s (u.bld st e o) := by
  unfold State.bld
  extract_lets x sh scl ol
  split
  · exact h.matIllegal
  split
  · exact h.matFormat
  extract_lets b
  refine Steady.ite h.matTrap ?_
  refine Steady.ite h.matFormat ?_
  refine Steady.ite h.matTrap ?_
  refine Steady.ite h.matTrap ?_
  refine Steady.ite h.matTrap ?_
  refine Steady.ite h.keepEntry ?_
  split
  · exact h.matTrap
  · exact h.acceptMat

theorem Steady.azero {e : VEntry} {o : VOp} (h : Steady s u) : Steady s (u.azero st e o) := by
  unfold State.azero
  exact Steady.ite h.matIllegal (Steady.ite h.matIllegal h.acceptMat)

theorem Steady.awr {e : VEntry} {o : VOp} {m : Ext} (h : Steady s u) : Steady s (u.awr st e o m) := by
  unfold State.awr
  extract_lets x
  exact Steady.ite h.matIllegal (Steady.ite h.matFormat h.acceptMat)

theorem Steady.ard {e : VEntry} {o : VOp} {m : Ext} (h : Steady s u) : Steady s (u.ard st e o m) := by
  unfold State.ard
  extract_lets x t
  exact Steady.ite h.matIllegal (Steady.ite h.matFormat (Steady.ite h h.settleEntry))

theorem Steady.eptk {e : VEntry} {o : VOp} {m : Ext} (h : Steady s u) : Steady s (u.eptk st e o m) := by
  unfold State.eptk
  extract_lets x t k mt y
  refine Steady.ite h.matIllegal (Steady.ite h.matFormat (Steady.ite h.matIllegal (Steady.ite h.matIllegal ?_)))
  refine Steady.ite (Steady.ite h ?_) h.acceptMat
  exact Steady.settleEntry (h.same rfl rfl)

theorem Steady.bslot {e : VEntry} {o : VOp} {m : Ext} (h : Steady s u) : Steady s (u.bslot st e o m) := by
  unfold State.bslot
  extract_lets x op
  exact Steady.ite h.matIllegal (Steady.ite (Steady.ite h h.settleEntry) (Steady.ite h.matTrap h.acceptMat))

/-- The state in which the core's matrix state belongs to the launch of a strand. -/
theorem Steady.own (h : Steady s u) (e : u.own st = some v) : Steady s v := by
  unfold State.own at e
  split at e
  · exact Option.some.inj e ▸ h
  split at e
  · split at e
    · exact Option.some.inj e ▸ h
    · cases e
  split at e
  · split at e
    · cases e
    · exact Option.some.inj e ▸ Steady.modMat (h.same rfl rfl)
  · exact Option.some.inj e ▸ h.modMat

theorem Steady.matIssue {e : VEntry} {f3 : Nat} {o : VOp} {m : Ext} (h : Steady s u) : Steady s (u.matIssue st e f3 o m) := by
  unfold State.matIssue
  split
  · exact h
  next ho =>
    have g := h.own ho
    split
    · exact g.mma
    · exact g.bld
    · exact g.azero
    · exact g.ard
    · exact g.awr
    · exact g.eptk
    · exact g.bslot

end Sys2Proof.Machine
end

section
/-! PROOFS. The rows, the vector memory accesses and the accesses from the network that a stack keeps, and whatever it serves, are steady
(R107). -/

namespace Sys2Proof.Machine

variable {s u v : State} {st : Fin 4} {k : StreamId}

/-! ### The row units -/

theorem Steady.counters {r : RowMap} {ks : List Nat} {f : Nat → Nat → Nat} (h : Steady s u) : Steady s (u.counters r ks f) :=
  h.foldl fun hw => hw.scatterBytes

theorem Steady.flush {m : BitVec 4} {r : RowMap} (h : Steady s u) : Steady s (u.flush m r) := by
  unfold State.flush
  extract_lets u1
  have h1 : Steady s u1 := h.ite h.counters
  exact h1.modMat

theorem Steady.unbind {m : BitVec 4} {r : RowMap} (h : Steady s u) : Steady s (u.unbind m r) := by
  unfold State.unbind
  extract_lets u1
  have h1 : Steady s u1 := h.flush.freeSeals
  exact h1.modMat

theorem Steady.writeList {r : RowMap} (h : Steady s u) : Steady s (u.writeList r) := h.scatterBytes

theorem Steady.rowDone {e : VEntry} {rd : W64} (h : Steady s u) : Steady s (u.rowDone st e rd) := h.finish

theorem Steady.bindMap {m : BitVec 4} {r : RowMap} (h : Steady s u) : Steady s (u.bindMap v m r) := h.modMat

theorem Steady.rmbind {e : VEntry} {m : BitVec 4} (h : Steady s u) : Steady s (u.rmbind st e m) := by
  unfold State.rmbind
  extract_lets a launch w
  split
  · exact h.matTrap
  split
  · exact h.keepEntry
  split
  · exact h.matTrap
  extract_lets b
  split
  · exact h.matTrap
  split
  · exact h.matTrap
  split
  · exact h.matTrap
  split
  · exact h.matTrap
  extract_lets parts
  split
  · exact h.keepEntry
  split
  · exact h.matTrap
  · exact h.withSeals.bindMap.rowDone

theorem Steady.rmunbind {e : VEntry} {m : BitVec 4} (h : Steady s u) : Steady s (u.rmunbind st e m) := by
  unfold State.rmunbind
  split
  · exact h.matTrap
  split
  · exact h.keepEntry
  split
  · exact h.matTrap
  · exact h.unbind.rowDone

theorem Steady.rmfire {e : VEntry} {vX : Spec} {m : BitVec 4} (h : Steady s u) : Steady s (u.rmfire st e vX m) := by
  unfold State.rmfire
  extract_lets x rows
  split
  · exact h.matTrap
  split
  · exact h.matTrap
  · exact h.modMat.rowDone

theorem Steady.rmmul {e : VEntry} {aJ aT : BitVec 4} {vX : Spec} {m : BitVec 4} (h : Steady s u) : Steady s (u.rmmul st e aJ aT vX m) := by
  unfold State.rmmul
  extract_lets x
  split
  · exact h.matIllegal
  split
  · exact h.matTrap
  split
  · exact h.matTrap
  extract_lets fr q
  split
  · exact h.matTrap
  split
  · exact h.matTrap
  split
  · exact h.matTrap
  · exact h.matTrap
  · exact h.ite h.modStrand.acceptMat

theorem Steady.rmjoin {e : VEntry} {aJ aT : BitVec 4} (h : Steady s u) : Steady s (u.rmjoin st e aJ aT) := by
  unfold State.rmjoin
  extract_lets x r
  refine Steady.ite h.matIllegal (Steady.ite h.matTrap (h.ite ?_))
  split
  · exact h
  extract_lets u1
  refine h.ite ?_
  have h1 : Steady s u1 := h.ite h.modStrand.modMat
  refine Steady.ite h1.matTrap ?_
  split
  · exact h.matTrap
  · exact h.matTrap
  · exact Steady.settleEntry (h.same rfl rfl)

theorem Steady.rmmig {e : VEntry} {m : BitVec 4} (h : Steady s u) : Steady s (u.rmmig st e m) := by
  unfold State.rmmig
  extract_lets w
  split
  · exact h.matTrap
  extract_lets deep fixed cnt new fresh reads r1 u1 u2
  refine Steady.ite h.keepEntry ?_
  have h1 : Steady s u1 := h.flush
  have h2 : Steady s u2 := h1.modMat
  split
  · exact h.matTrap
  · exact h.matTrap
  · exact h2.writeList.rowDone

theorem Steady.rmage {e : VEntry} {m : BitVec 4} (h : Steady s u) : Steady s (u.rmage st e m) := by
  unfold State.rmage
  split
  · exact h.matTrap
  refine Steady.ite h.keepEntry ?_
  split
  · exact h.matTrap
  · exact h.flush.counters.rowDone

theorem Steady.rmqry {e : VEntry} {m : BitVec 4} (h : Steady s u) : Steady s (u.rmqry st e m) := by
  unfold State.rmqry
  split
  · exact h.matTrap
  refine Steady.ite h.keepEntry ?_
  split
  · exact h.matTrap
  · exact h.matTrap
  · exact h.flush.writeList.rowDone

theorem Steady.rowIssue {e : VEntry} {func : Nat} {var : Bool} {aJ aT : BitVec 4} {vX : Spec} {m : BitVec 4} (h : Steady s u) :
    Steady s (u.rowIssue st e func var aJ aT vX m) := by
  unfold State.rowIssue
  split
  · exact h
  next ho =>
    have g := h.own ho
    extract_lets turn
    split
    · exact h.ite (Steady.ite g.rmunbind g.rmbind)
    · exact g.rmfire
    · exact g.rmmul
    · exact g.rmjoin
    · exact h.ite g.rmmig
    · exact h.ite g.rmage
    · exact h.ite g.rmqry

/-! ### Vector memory accesses -/

section
variable {e : VEntry} {o : VOp} {m : Ext}

theorem Steady.vload {f3 : Nat} {disp : Option W64} (h : Steady s u) : Steady s (u.vload st e f3 o m disp) := by
  unfold State.vload
  extract_lets x base
  split
  · exact h.settleEntry
  · exact Steady.ite h.keepEntry h.settleEntry

theorem Steady.storeElts {w : Nat} {val : Elt → Nat} {l : List Elt} (h : Steady s u) : Steady s (u.storeElts st w val l).1 := by
  induction l generalizing u with
  | nil => exact h
  | cons t rest ih =>
    unfold State.storeElts
    split
    · exact ih h.vectorStore
    · exact h

theorem Steady.storeEnd {bad : List (Elt × Fa)} (h : Steady s u) : Steady s (u.storeEnd st e bad) := by
  unfold State.storeEnd
  extract_lets x
  split
  · exact h.settleEntry
  · exact h.settleEntry

theorem Steady.cleanOwn {w : Nat} {l : List Elt} (h : Steady s u) : Steady s (u.cleanOwn st w l) := h.same rfl rfl

theorem Steady.vstore {f3 : Nat} {disp : Option W64} (h : Steady s u) : Steady s (u.vstore st e f3 o m disp) := by
  unfold State.vstore
  extract_lets x base
  split
  · exact h.settleEntry
  · exact h.ite h.storeElts.cleanOwn.storeEnd

theorem Steady.vldp (h : Steady s u) : Steady s (u.vldp st e o m) := by
  unfold State.vldp
  refine Steady.ite h.keepEntry ?_
  split
  · next hc => exact (h.platCheck_eq hc).settleEntry
  split
  · exact h.settleEntry
  · exact h.settleEntry

theorem Steady.platStoreOne {p : Plat} {g : PlatTgt} {r : State × Flags} (h : Steady s u) (hr : u.platStoreOne st e o m p g = .ok r) :
    Steady s r.1 := by
  unfold State.platStoreOne at hr
  dsimp only at hr
  split at hr
  · cases hr
    exact Steady.ite h.scatterBytes h
  split at hr
  · cases hr
  split at hr
  · cases hr
  · cases hr
    exact h.scatterBytes

theorem Steady.platStore {p : Plat} {l : List (PlatTgt × Nat)} {fl : Flags} (h : Steady s u) :
    Steady s (u.platStore st e o m p l fl).1 := by
  induction l generalizing u fl with
  | nil => exact h
  | cons g rest ih =>
    unfold State.platStore
    split
    · next hr => exact ih (h.platStoreOne hr)
    · exact h

theorem Steady.vstp (h : Steady s u) : Steady s (u.vstp st e o m) := by
  unfold State.vstp
  refine Steady.ite h.keepEntry ?_
  split
  · next hc => exact (h.platCheck_eq hc).settleEntry
  split
  · exact h.settleEntry
  extract_lets r y
  have hr : Steady s r.1 := h.platStore
  split
  · exact hr.settleEntry
  · exact hr.settleEntry

theorem Steady.vmem {f3 : Nat} {disp : Option W64} (h : Steady s u) : Steady s (u.vmem st e f3 o m disp) := by
  unfold State.vmem
  split
  · exact h.vload
  · exact h.vload
  · exact h.vload
  · exact h.vstore
  · exact h.vstore
  · exact h.vstore
  · exact h.vldp
  · exact h.vstp

/-! ### The commit of a strand's oldest entry -/

theorem Steady.commitEntry (h : Steady s u) : Steady s (u.commitEntry st e) := by
  unfold State.commitEntry
  split
  · exact h.rowIssue
  · exact h.settleEntry
  · exact h.vmem
  · exact h.matIssue
  · exact h.settleEntry

theorem Steady.settleBad (h : Steady s v) : Steady s (v.settleBad u st e) := by
  unfold State.settleBad
  exact h.ite h.modStrand

end

theorem Steady.execViqCommit (h : Steady s u) : Steady s (nextOr v (execViqCommit st u)) := by
  unfold Machine.execViqCommit
  extract_lets x
  split
  · exact h
  split
  · exact h
  split
  · exact h.vecTrap
  split
  · show Steady s (u.vecTrap st cPoison (Config.openTval u.tick))
    exact h.vecTrap
  · exact h.commitEntry.settleBad.checkDead

theorem Steady.execDeepPartArrival {aJ : BitVec 4} (h : Steady s u) : Steady s (nextOr v (execDeepPartArrival st aJ u)) := by
  unfold Machine.execDeepPartArrival
  extract_lets find pas
  split
  · split
    · exact h.keepWork
    · exact h.same rfl rfl
  split
  · exact h
  split
  · exact h.keepWork
  · exact h.same rfl rfl

/-! ### Fetches -/

theorem Steady.fillTlb {va : W64} (h : Steady s u) : Steady s (u.fillTlb st k va) := by
  unfold State.fillTlb
  refine h.ite ?_
  split
  · exact h
  · exact h.modStream

theorem Steady.fillWord {va : W64} (h : Steady s u) : Steady s (u.fillWord st k va) := by
  unfold State.fillWord
  split
  · exact h.modStream
  · exact h

theorem Steady.walkOn {va : W64} {t : Option Task} {w : HeldWork} {passed : List (Fin 24)} {last : State → State} (h : Steady s u)
    (hl : Steady s (last u)) : Steady s (u.walkOn st va t w passed last) := by
  unfold State.walkOn
  split
  · exact h.placeReq
  · exact hl

/-! ### Accesses from the network -/

theorem State.send_quiet (s : State) (m : Msg) : Quiet s (s.send m) := ⟨rfl, rfl⟩

theorem State.logLeaves_quiet (s t : State) (pas : List Nat) : Quiet t (s.logLeaves t pas) := ⟨rfl, rfl⟩

/-- An access from the network changes no launch, where what it does in memory changes none. -/
theorem State.onUet_quiet (s : State) (q : HeldWork) (asid : BitVec 12) (va : W64) (n : Nat) (r w : Bool) (f : Space → List Nat → State)
    (hf : ∀ p pas, Quiet s (f p pas)) : Quiet s (nextOr v (s.onUet q asid va n r w f)) := by
  unfold State.onUet
  split
  · exact s.send_quiet _
  split
  · exact s.send_quiet _
  split
  · exact s.placeReq_quiet _ _
  · exact hf _ _

theorem execUetWrite_quiet (asid : BitVec 12) (va : W64) (data : List Byte) (s : State) :
    Quiet s (nextOr v (execUetWrite asid va data s)) :=
  State.onUet_quiet s _ _ _ _ _ _ _ fun _ _ => ((s.scatterBytes_quiet _ _).trans (s.logLeaves_quiet _ _)).trans (State.send_quiet _ _)

theorem execUetRead_quiet (asid : BitVec 12) (va : W64) (n : Nat) (s : State) : Quiet s (nextOr v (execUetRead asid va n s)) := by
  refine State.onUet_quiet s _ _ _ _ _ _ _ fun p pas => ?_
  split
  · exact s.send_quiet _
  · exact s.send_quiet _

theorem State.uetAtomicStep_quiet (s : State) (p : Space) (pas : List Nat) (va : W64) (func n : Nat) (w cmp : W64) :
    Quiet s (s.uetAtomicStep p pas va func n w cmp) := by
  unfold State.uetAtomicStep
  split
  · exact s.send_quiet _
  · exact (((s.drainAt_quiet _ _).trans (State.atomicStep_quiet ..)).trans (s.logLeaves_quiet _ _)).trans (State.send_quiet _ _)

theorem execUetAtomic_quiet (asid : BitVec 12) (op : UetOp) (d : Bool) (va w cmp : W64) (s : State) :
    Quiet s (nextOr v (execUetAtomic asid op d va w cmp s)) := by
  unfold execUetAtomic
  extract_lets n
  split
  · exact s.send_quiet _
  · exact State.onUet_quiet s _ _ _ _ _ _ _ fun p pas => s.uetAtomicStep_quiet _ _ _ _ _ _ _

/-! ### Requests served -/

theorem Steady.serveWork {t : Option Task} {w : HeldWork} {passed : List (Fin 24)} (h : Steady s u) :
    Steady s (u.serveWork t w passed) := by
  unfold State.serveWork
  cases w with
  | viq => exact Steady.ite h.execViqCommit h
  | deep => exact h.execDeepPartArrival
  | copy =>
    refine Steady.ite ?_ h
    extract_lets u1
    have h1 : Steady s u1 := h.execCopyComplete
    exact Steady.ite h1.execCopyFault h1
  | gather => exact h.execPlatGatherComplete
  | scatter => exact h.execPlatScatterComplete
  | net => exact h.ite h.execNetComplete
  | fetch => exact h.ite (h.walkOn (Steady.ite h.fillWord h.fillTlb))
  | redo =>
    refine h.ite (h.walkOn ?_)
    split
    · exact h.fillTlb
    · exact h.redoAt fun hw => hw.redoWords
  | uetWrite => exact h.quiet (execUetWrite_quiet _ _ _ u)
  | uetRead => exact h.quiet (execUetRead_quiet _ _ _ u)
  | uetAtomic => exact h.quiet (execUetAtomic_quiet _ _ _ _ _ _ u)
  | instr => exact h.redoAt fun hw => hw.redoInstr
  | sparse => exact h.redoAt fun hw => hw.redoSparse

theorem Steady.afterWork {t : Option Task} {w : HeldWork} (h : Steady s u) : Steady s (u.afterWork t w) := by
  unfold State.afterWork
  cases w with
  | redo => exact Steady.ite (h.redoAt fun hw => hw.redoWords) h
  | _ => exact h

/-- The launches alone decide what is steady between two states with one readiness map. -/
theorem Steady.shutAgain {ns : List (Fin 24)} {keys : Vector (Option (BitVec 512)) 64} (h : Steady (s.opened ns keys) v) :
    Steady s (v.shutAgain s ns) := ⟨rfl, h.ending⟩

theorem Steady.keepAnswers (h : Steady s v) : Steady s (v.keepAnswers u) := by
  unfold State.keepAnswers
  exact h.ite (h.same rfl rfl)

/-- A request served is steady, whatever it is. -/
theorem State.serve_steady (s : State) (q : StackReq) : Steady s (s.serve q) := by
  cases q with
  | work core t w ks keys at_ =>
    have h : Steady (s.opened ks keys) ((s.opened ks keys).onCore core fun v => v.serveWork t w ks) :=
      (Steady.refl _).onCore fun hw => hw.serveWork
    exact h.shutAgain.keepAnswers.onCore fun hw => hw.afterWork
  | line | store | load | read | atomic => exact (Steady.refl s).calm (s.serve_calm _ fun _ _ _ _ _ _ h => by cases h)

theorem Steady.serve {q : StackReq} (h : Steady s u) : Steady s (u.serve q) := h.trans (u.serve_steady q)

theorem Steady.popHeads {ns : List (Fin 24)} (h : Steady s u) : Steady s (u.popHeads ns) := by
  refine h.same ?_ ?_
  · simp only [State.popHeads]
  · simp only [State.popHeads]

theorem Steady.serveSome {n : Nat} (h : Steady s u) : Steady s (u.serveSome n) := by
  induction n generalizing u with
  | zero => exact h
  | succ n ih =>
    unfold State.serveSome
    split
    · exact h
    · exact ih h.popHeads.serve

theorem Steady.serveStacks (h : Steady s u) : Steady s u.serveStacks := h.serveSome

end Sys2Proof.Machine
end

section
/-! PROOFS. What a byte reads at its home, under any key, after bytes were written at theirs (R110, R117). -/

namespace Sys2Proof.Machine

/-! ### Granules under another key -/

/-- Only the granule of a byte, with its key tag, decides what the byte reads. -/
theorem State.homeByte_congr {s t : State} {key x : Nat} (ht : t.keyTag.get (x / 64) = s.keyTag.get (x / 64))
    (hm : ∀ y, y / 64 = x / 64 → t.mem.get y = s.mem.get y) : t.homeByte key x = s.homeByte key x := by
  have hr : t.mem.read (x / 64 * 64) 64 = s.mem.read (x / 64 * 64) 64 :=
    List.map_congr_left fun i hi => hm _ (by have := List.mem_range.mp hi; omega)
  simp only [State.homeByte, ht, hr, hm x rfl]

/-- Under the key of its granule, and outside HBM under any, a byte reads as memory holds it. -/
theorem State.homeByte_plain {s : State} {key x : Nat} (h : (s.keyTag.get (x / 64)).toNat = key ∨ isHbm x = false) :
    s.homeByte key x = s.mem.get x := by
  unfold State.homeByte
  rw [if_pos]
  simpa using h

theorem State.rekeyOne_keyTag (s : State) (key : Nat) (whole : Bool) (g x : Nat) :
    (s.rekeyOne key whole g).keyTag.get x = if x = g then BitVec.ofNat 513 key else s.keyTag.get x := Tab.get_set _ _ _ _

theorem State.rekeyOne_mem (s : State) (key : Nat) (whole : Bool) (g x : Nat) :
    (s.rekeyOne key whole g).mem.get x = if whole = false ∧ x / 64 = g then s.homeByte key x else s.mem.get x := by
  cases whole with
  | true => simp [State.rekeyOne]
  | false =>
    have hx : (64 * g ≤ x ∧ x < 64 * g + 64) ↔ x / 64 = g := by omega
    simp only [State.rekeyOne, Bool.false_eq_true, if_false, Tab.get_splice, List.length_map, List.length_range, hx, true_and]
    split
    · next h =>
      have hi : x - 64 * g < 64 := by omega
      have hx' : 64 * g + (x - 64 * g) = x := by omega
      simp [List.getD_eq_getElem?_getD, hi, hx']
    · rfl

/-- A granule re-encrypted leaves every other granule. -/
theorem State.rekeyOne_homeByte_other (s : State) (key key' : Nat) (whole : Bool) (g x : Nat) (h : x / 64 ≠ g) :
    (s.rekeyOne key whole g).homeByte key' x = s.homeByte key' x := by
  refine State.homeByte_congr ?_ fun y hy => ?_
  · rw [State.rekeyOne_keyTag, if_neg h]
  · rw [State.rekeyOne_mem, if_neg fun hw => h (hy.symm.trans hw.2)]

/-- A granule re-encrypted reads under its new key as it did. -/
theorem State.rekeyOne_homeByte_same (s : State) (key x : Nat) (hk : key < 2 ^ 513) :
    (s.rekeyOne key false (x / 64)).homeByte key x = s.homeByte key x := by
  rw [State.homeByte_plain, State.rekeyOne_mem, if_pos ⟨rfl, rfl⟩]
  left
  rw [State.rekeyOne_keyTag, if_pos rfl, BitVec.toNat_ofNat, Nat.mod_eq_of_lt hk]

/-- Whether a range of bytes takes up the key of a granule: it begins in it or before it and does not end before it. -/
def TakesGranule (pa n g : Nat) : Prop := pa / 64 ≤ g ∧ 64 * g < pa + n

/-- The granules whose key a write changes. -/
def State.rekeyed (s : State) (key pa n : Nat) : List Nat :=
  if isHbm pa then ((List.range (n / 64 + 2)).map fun i => pa / 64 + i).filter fun g =>
    decide (64 * g < pa + n) && (s.keyTag.get g).toNat != key else []

theorem State.rekey_eq (s : State) (key pa n : Nat) :
    s.rekey key pa n = (s.rekeyed key pa n).foldl
      (fun u g => u.rekeyOne key (decide (pa ≤ 64 * g) && decide (64 * g + 64 ≤ pa + n)) g) s := rfl

theorem State.mem_rekeyed (s : State) (key pa n g : Nat) :
    g ∈ s.rekeyed key pa n ↔ isHbm pa = true ∧ TakesGranule pa n g ∧ (s.keyTag.get g).toNat ≠ key := by
  unfold State.rekeyed TakesGranule
  split
  · next h =>
    simp only [h, List.mem_filter, List.mem_map, List.mem_range, Bool.and_eq_true, decide_eq_true_eq, bne_iff_ne, true_and, and_assoc]
    constructor
    · rintro ⟨⟨i, -, rfl⟩, hn, hk⟩
      exact ⟨Nat.le_add_right _ _, hn, hk⟩
    · rintro ⟨hl, hn, hk⟩
      exact ⟨⟨g - pa / 64, by omega, by omega⟩, hn, hk⟩
  · next h => simp [h]

/-- The key tag of a granule after some were re-encrypted. -/
theorem State.foldl_rekeyOne_keyTag (key : Nat) (w : Nat → Bool) (gs : List Nat) (s : State) (x : Nat) :
    (gs.foldl (fun u g => u.rekeyOne key (w g) g) s).keyTag.get x = if x ∈ gs then BitVec.ofNat 513 key else s.keyTag.get x := by
  induction gs generalizing s with
  | nil => simp
  | cons g gs ih =>
    rw [List.foldl_cons, ih, State.rekeyOne_keyTag]
    by_cases hx : x ∈ gs <;> by_cases hg : x = g <;> simp [hx, hg]

/-- Granules re-encrypted leave the bytes of every other granule in memory. -/
theorem State.foldl_rekeyOne_mem (key : Nat) (w : Nat → Bool) (gs : List Nat) (s : State) (x : Nat) (hx : x / 64 ∉ gs) :
    (gs.foldl (fun u g => u.rekeyOne key (w g) g) s).mem.get x = s.mem.get x := by
  induction gs generalizing s with
  | nil => rfl
  | cons g gs ih =>
    rw [List.mem_cons, not_or] at hx
    rw [List.foldl_cons, ih _ hx.2, State.rekeyOne_mem, if_neg fun hw => hx.1 hw.2]

/-- A write takes up its key before it performs: a byte that it does not write reads under that key as it did. -/
theorem State.rekey_homeByte (s : State) (key pa n x : Nat) (hk : key < 2 ^ 513) (hx : ¬ (pa ≤ x ∧ x < pa + n)) :
    (s.rekey key pa n).homeByte key x = s.homeByte key x := by
  rw [State.rekey_eq]
  refine foldl_keeps (fun u : State => u.homeByte key x = s.homeByte key x) _ (fun u g hu => ?_) _ _ rfl
  by_cases hg : x / 64 = g
  · subst hg
    have hw : (decide (pa ≤ 64 * (x / 64)) && decide (64 * (x / 64) + 64 ≤ pa + n)) = false := by
      simp only [Bool.and_eq_false_iff, decide_eq_false_iff_not]
      omega
    rw [hw, State.rekeyOne_homeByte_same _ _ _ hk, hu]
  · rw [State.rekeyOne_homeByte_other _ _ _ _ _ _ hg, hu]

/-- The granules that a write in HBM takes up are under its key. -/
theorem State.rekey_takes (s : State) (key pa n g : Nat) (hk : key < 2 ^ 513) (hp : isHbm pa = true) (hg : TakesGranule pa n g) :
    ((s.rekey key pa n).keyTag.get g).toNat = key := by
  rw [State.rekey_eq, State.foldl_rekeyOne_keyTag]
  split
  · rw [BitVec.toNat_ofNat, Nat.mod_eq_of_lt hk]
  · next h => exact not_not.mp fun hn => h ((s.mem_rekeyed _ _ _ _).mpr ⟨hp, hg, hn⟩)

/-! ### Bytes written -/

/-- A write leaves the granules that it does not take up, under every key. -/
theorem State.putBytes_homeByte_other (s : State) (key pa key' x : Nat) (bs : List Byte) (hx : ¬ TakesGranule pa bs.length (x / 64)) :
    (s.putBytes key pa bs).homeByte key' x = s.homeByte key' x := by
  cases hl : s.lostAt pa with
  | true => rw [s.putBytes_lost _ _ _ hl]
  | false =>
    have hn : x / 64 ∉ s.rekeyed key pa bs.length := fun h => hx ((s.mem_rekeyed _ _ _ _).mp h).2.1
    refine State.homeByte_congr ?_ fun y hy => ?_
    · simp only [State.putBytes, hl, Bool.false_eq_true, if_false]
      rw [State.rekey_eq, State.foldl_rekeyOne_keyTag, if_neg hn]
    · rw [s.putBytes_mem _ _ _ _ hl, if_neg, State.rekey_eq, State.foldl_rekeyOne_mem _ _ _ _ _ (hy ▸ hn)]
      unfold TakesGranule at hx
      omega

/-- A write under a key reads back under it, and every other byte reads under it as it did. -/
theorem State.putBytes_homeByte (s : State) (key pa x : Nat) (bs : List Byte) (hl : s.lostAt pa = false) (hk : key < 2 ^ 513) :
    (s.putBytes key pa bs).homeByte key x =
      if pa ≤ x ∧ x < pa + bs.length then bs.getD (x - pa) 0 else s.homeByte key x := by
  by_cases ht : TakesGranule pa bs.length (x / 64)
  · have htag : ((s.putBytes key pa bs).keyTag.get (x / 64)).toNat = key ∨ isHbm x = false := by
      simp only [State.putBytes, hl, Bool.false_eq_true, if_false]
      cases hp : isHbm pa with
      | true => exact .inl (s.rekey_takes _ _ _ _ hk hp ht)
      | false =>
        right
        simp only [isHbm, decide_eq_false_iff_not] at hp ⊢
        unfold TakesGranule at ht
        omega
    rw [State.homeByte_plain htag, s.putBytes_mem _ _ _ _ hl]
    split
    · rfl
    · next hx =>
      rw [← s.rekey_homeByte key pa bs.length x hk hx]
      refine (State.homeByte_plain ?_).symm
      simpa only [State.putBytes, hl, Bool.false_eq_true, if_false] using htag
  · rw [s.putBytes_homeByte_other _ _ _ _ _ ht, if_neg]
    unfold TakesGranule at ht
    omega

/-- Some bits of a byte written under the key of its granule. -/
theorem State.putBits_homeByte (s : State) (key pa x : Nat) (b bits : Byte) (hl : s.lostAt pa = false) (hk : key < 2 ^ 513) :
    (s.putBits key pa b bits).homeByte key x = if pa = x then applyBits (s.homeByte key x) b bits else s.homeByte key x := by
  rw [State.putBits, s.putBytes_homeByte _ _ _ _ hl hk]
  by_cases h : pa = x
  · subst h
    simp
  · rw [if_neg h, if_neg]
    simp only [List.length_singleton]
    omega

end Sys2Proof.Machine
end

section
/-! PROOFS. How the stacks serve their queues (R107, R109, R366): when none can, and that a stack alone serves all of its own. -/

namespace Sys2Proof.Machine

/-! ### A stack changed -/

@[simp] theorem State.modStack_get_same (s : State) (n : Fin 24) (f : Stack → Stack) :
    (s.modStack n f).stks.get n = f (s.stks.get n) := vec_get_set_fin _ _ _

theorem State.modStack_get_other (s : State) (n m : Fin 24) (f : Stack → Stack) (h : m ≠ n) :
    (s.modStack n f).stks.get m = s.stks.get m :=
  vec_get_set_other _ _ n.isLt _ _ fun e => h (Fin.ext e.symm)

/-- The number of a function in the readiness map (R366). -/
theorem fin64_val (i : Nat) (h : i < 64) : (fin 64 i).val = i := Nat.mod_eq_of_lt h

@[simp] theorem State.setReady_stks (s : State) (i : Nat) (code : Byte) : (s.setReady i code).stks = s.stks := rfl

@[simp] theorem State.setReady_get_same (s : State) (i : Nat) (code : Byte) : (s.setReady i code).readiness.get (fin 64 i) = code :=
  vec_get_set_fin _ _ _

theorem State.setReady_get_other (s : State) (i : Nat) (code : Byte) (j : Fin 64) (h : fin 64 i ≠ j) :
    (s.setReady i code).readiness.get j = s.readiness.get j :=
  vec_get_set_other _ _ (fin 64 i).isLt _ _ fun e => h (Fin.ext e)

/-- A stack is shut or not by its hold and its readiness alone. -/
theorem State.stackShut_congr {s t : State} {n : Fin 24} (hh : (t.stks.get n).hold = (s.stks.get n).hold)
    (hr : t.readiness.get (fin 64 n.val) = s.readiness.get (fin 64 n.val)) : t.stackShut n = s.stackShut n := by
  unfold State.stackShut
  rw [hh, hr]

/-! ### The next request -/

/-- Nothing can be served just where no head of a queue can. -/
theorem State.nextServed_none {s : State} :
    s.nextServed = none ↔ ∀ m q, (s.stks.get m).queue.head? = some q → s.headReady m q = false := by
  unfold State.nextServed
  rw [List.findSome?_eq_none_iff]
  refine ⟨fun h m q hq => ?_, fun h m _ => ?_⟩
  · have hm := h m (List.mem_finRange m)
    rw [hq, Option.bind_some] at hm
    simpa using hm
  · cases hq : (s.stks.get m).queue.head? with
    | none => rfl
    | some q => simp [h m q hq]

/-- A plain request stands in one queue alone. -/
theorem State.keptIn_plain (s : State) (n : Fin 24) (q : StackReq) (h : q.Plain) : s.keptIn n q = [n] := by
  cases q with
  | work => exact absurd rfl (h _ _ _ _ _ _)
  | _ => rfl

/-- A stack has the same queue in two states, and is shut in the second where it is in the first. -/
structure AsBusy (s t : State) (m : Fin 24) : Prop where
  queue : (t.stks.get m).queue = (s.stks.get m).queue
  shut : s.stackShut m = true → t.stackShut m = true

/-- Whether a stack's queue holds plain requests alone. -/
def State.PlainAt (s : State) (n : Fin 24) : Prop := ∀ q ∈ (s.stks.get n).queue, q.Plain

theorem State.PlainAt.not_work {s : State} {n : Fin 24} (h : s.PlainAt n) (core : Nat) (t : Option Task) (w : HeldWork)
    (ns : List (Fin 24)) (keys : Vector (Option (BitVec 512)) 64) (at_ : Nat) :
    (s.stks.get n).queue.contains (.work core t w ns keys at_) = false := by
  rw [← Bool.not_eq_true, List.contains_iff_mem]
  exact fun hq => h _ hq _ _ _ _ _ _ rfl

/-- The stacks that keep a request are the same in two states whose stacks have the same queues but for those that keep plain requests
alone. -/
theorem State.keptIn_congr {s t : State} {m : Fin 24} {q : StackReq}
    (h : ∀ j, (t.stks.get j).queue = (s.stks.get j).queue ∨ (s.PlainAt j ∧ t.PlainAt j)) : t.keptIn m q = s.keptIn m q := by
  cases q with
  | work =>
    unfold State.keptIn
    refine List.filter_congr fun j _ => ?_
    rcases h j with hq | ⟨hs, ht⟩
    · rw [hq]
    · rw [hs.not_work, ht.not_work]
  | _ => rfl

/-- A head that could not be served still cannot, where the stacks that keep it are as busy. -/
theorem State.headReady_asBusy {s t : State} {m : Fin 24} {q : StackReq} (hk : t.keptIn m q = s.keptIn m q)
    (hb : ∀ j ∈ s.keptIn m q, AsBusy s t j) (h : s.headReady m q = false) : t.headReady m q = false := by
  unfold State.headReady at h ⊢
  rw [hk]
  rw [List.all_eq_false] at h ⊢
  obtain ⟨j, hj, hf⟩ := h
  obtain ⟨hqueue, hshut⟩ := hb j hj
  refine ⟨j, hj, fun hc => hf ?_⟩
  rw [hqueue] at hc
  simp only [Bool.and_eq_true, Bool.not_eq_true', ← Bool.not_eq_true] at hc ⊢
  exact ⟨fun hs => hc.1 (hshut hs), hc.2⟩

/-- No stack that keeps plain requests alone keeps the head of another's queue. -/
theorem State.PlainAt.ne_of_mem_keptIn {s : State} {n m j : Fin 24} {q : StackReq} (h : s.PlainAt n) (hm : m ≠ n)
    (hj : j ∈ s.keptIn m q) : j ≠ n := by
  rintro rfl
  cases q with
  | work =>
    have hmem := (List.mem_filter.mp hj).2
    rw [h.not_work] at hmem
    cases hmem
  | _ => exact hm (List.mem_singleton.mp hj).symm

/-- A head that could not be served still cannot, where every stack is as busy but another one that keeps plain requests alone. -/
theorem State.headReady_other {s t : State} {n m : Fin 24} {q : StackReq} (hb : ∀ j, j ≠ n → AsBusy s t j) (hs : s.PlainAt n)
    (ht : t.PlainAt n) (hm : m ≠ n) (h : s.headReady m q = false) : t.headReady m q = false := by
  refine State.headReady_asBusy (State.keptIn_congr fun j => ?_) (fun j hj => hb j (hs.ne_of_mem_keptIn hm hj)) h
  by_cases hj : j = n
  · subst hj
    exact .inr ⟨hs, ht⟩
  · exact .inl (hb j hj).queue

/-- Where nothing could be served, nothing can be while every stack is as busy. -/
theorem State.idle_asBusy {s t : State} (hi : s.nextServed = none) (hb : ∀ j, AsBusy s t j) : t.nextServed = none := by
  refine State.nextServed_none.mpr fun m q hq => ?_
  rw [(hb m).queue] at hq
  exact State.headReady_asBusy (State.keptIn_congr fun j => .inl (hb j).queue) (fun j _ => hb j) (State.nextServed_none.mp hi m q hq)

/-! ### One stack that serves -/

/-- One stack may serve, and keeps plain requests alone; no other can serve. -/
structure State.Alone (s : State) (n : Fin 24) : Prop where
  plain : s.PlainAt n
  others : ∀ m q, m ≠ n → (s.stks.get m).queue.head? = some q → s.headReady m q = false

theorem State.alone_of_idle {s t : State} {n : Fin 24} (hi : s.nextServed = none) (hb : ∀ j, j ≠ n → AsBusy s t j)
    (hs : s.PlainAt n) (ht : t.PlainAt n) : t.Alone n := by
  refine ⟨ht, fun m q hm hq => ?_⟩
  rw [(hb m hm).queue] at hq
  exact State.headReady_other hb hs ht hm (State.nextServed_none.mp hi m q hq)

/-- With nothing in its queue it serves nothing. -/
theorem State.Alone.idle {s : State} {n : Fin 24} (h : s.Alone n) (hq : (s.stks.get n).queue = []) : s.nextServed = none := by
  refine State.nextServed_none.mpr fun m q hm => ?_
  refine h.others m q ?_ hm
  rintro rfl
  rw [hq] at hm
  cases hm

/-- The head of a stack's queue served. -/
def State.serveHead (s : State) (n : Fin 24) (q : StackReq) : State := (s.popHeads [n]).serve q

/-- The heads of a queue leave it. -/
theorem State.popHeads_get (s : State) (n m : Fin 24) :
    (s.popHeads [n]).stks.get m = if m = n then { s.stks.get n with queue := (s.stks.get n).queue.drop 1 } else s.stks.get m := by
  refine (Vector.getElem_ofFn m.isLt).trans ?_
  by_cases h : m = n
  · subst h
    simp
  · simp [h]

theorem State.serveHead_get (s : State) (n m : Fin 24) (q : StackReq) (h : q.Plain) :
    (s.serveHead n q).stks.get m = if m = n then { s.stks.get n with queue := (s.stks.get n).queue.drop 1 } else s.stks.get m := by
  rw [State.serveHead, (State.serve_calm _ q h).stks, State.popHeads_get]

theorem State.serveHead_ready (s : State) (n : Fin 24) (q : StackReq) (h : q.Plain) : (s.serveHead n q).readiness = s.readiness := by
  rw [State.serveHead, (State.serve_calm _ q h).ready, State.popHeads]

theorem State.serveHead_shut (s : State) (n m : Fin 24) (q : StackReq) (h : q.Plain) : (s.serveHead n q).stackShut m = s.stackShut m := by
  refine State.stackShut_congr ?_ (by rw [s.serveHead_ready n q h])
  rw [s.serveHead_get n m q h]
  split
  · next hm => rw [hm]
  · rfl

theorem State.serveHead_asBusy (s : State) (n m : Fin 24) (q : StackReq) (h : q.Plain) (hm : m ≠ n) : AsBusy s (s.serveHead n q) m :=
  ⟨by rw [s.serveHead_get n m q h, if_neg hm], fun hs => (s.serveHead_shut n m q h).trans hs⟩

/-- It may serve on once it has served the head of its queue. -/
theorem State.Alone.serveHead {s : State} {n : Fin 24} {q : StackReq} (h : s.Alone n) (hq : q.Plain) : (s.serveHead n q).Alone n := by
  have hb := fun j => s.serveHead_asBusy n j q hq
  have hp : (s.serveHead n q).PlainAt n := fun p hp => by
    rw [s.serveHead_get n n q hq, if_pos rfl] at hp
    exact h.plain p (List.mem_of_mem_drop hp)
  refine ⟨hp, fun m p hm hh => ?_⟩
  rw [(hb m hm).queue] at hh
  exact State.headReady_other hb h.plain hp hm (h.others m p hm hh)

/-- A stack that is open serves the head of its queue next. -/
theorem State.Alone.nextServed {s : State} {n : Fin 24} {q : StackReq} {qs : List StackReq} (h : s.Alone n) (ho : s.stackShut n = false)
    (hq : (s.stks.get n).queue = q :: qs) : s.nextServed = some (n, q) ∧ s.keptIn n q = [n] := by
  have hp : q.Plain := h.plain q (hq ▸ List.mem_cons_self)
  have hk := s.keptIn_plain n q hp
  refine ⟨?_, hk⟩
  cases hn : s.nextServed with
  | none =>
    have hr := State.nextServed_none.mp hn n q (by rw [hq]; rfl)
    simp [State.headReady, hk, ho, hq] at hr
  | some e =>
    obtain ⟨m, p⟩ := e
    obtain ⟨hh, hr⟩ := State.nextServed_ready hn
    by_cases hm : m = n
    · subst hm
      rw [hq, List.head?_cons] at hh
      rw [Option.some.inj hh]
    · have hf := h.others m p hm hh
      rw [State.headReady, List.all_eq_false] at hf
      obtain ⟨j, hj, hj'⟩ := hf
      obtain ⟨hs, hd⟩ := hr j hj
      simp [hs, hd] at hj'

/-- It serves its whole queue in order, and then nothing. -/
theorem State.Alone.serveSome {s : State} {n : Fin 24} {qs : List StackReq} (f : Nat) (h : s.Alone n) (ho : s.stackShut n = false)
    (hq : (s.stks.get n).queue = qs) (hf : qs.length ≤ f) : State.serveSome f s = qs.foldl (State.serveHead · n) s := by
  induction qs generalizing s f with
  | nil => exact s.serveSome_idle f (h.idle hq)
  | cons q qs ih =>
    have hp : q.Plain := h.plain q (hq ▸ List.mem_cons_self)
    obtain ⟨hn, hk⟩ := h.nextServed ho hq
    cases f with
    | zero => exact absurd hf (by simp)
    | succ f =>
      unfold State.serveSome
      rw [hn]
      dsimp only
      rw [hk, List.foldl_cons]
      refine ih f (h.serveHead hp) ((s.serveHead_shut n n q hp).trans ho) ?_ (Nat.le_of_succ_le_succ hf)
      rw [← State.serveHead, s.serveHead_get n n q hp, if_pos rfl, hq]
      rfl

theorem State.Alone.serveStacks {s : State} {n : Fin 24} (h : s.Alone n) (ho : s.stackShut n = false) :
    s.serveStacks = (s.stks.get n).queue.foldl (State.serveHead · n) s := by
  refine h.serveSome _ ho rfl ?_
  have hmem : (s.stks.get n).queue.length ∈ s.stks.toList.map fun x => x.queue.length :=
    List.mem_map.mpr ⟨_, Vector.mem_toList_iff.mpr (Vector.getElem_mem n.isLt), rfl⟩
  have := List.single_le_sum (fun _ _ => Nat.zero_le _) _ hmem
  omega

/-- What serving a whole queue leaves of the stacks. -/
theorem State.serveHeads_get (s : State) (n m : Fin 24) (qs : List StackReq) (hp : ∀ q ∈ qs, q.Plain) :
    (qs.foldl (State.serveHead · n) s).stks.get m =
      if m = n then { s.stks.get n with queue := (s.stks.get n).queue.drop qs.length } else s.stks.get m := by
  induction qs generalizing s with
  | nil =>
    split
    · next h => rw [h]; rfl
    · rfl
  | cons q qs ih =>
    rw [List.foldl_cons, ih _ fun p hq => hp p (List.mem_cons_of_mem _ hq), s.serveHead_get n n q (hp q List.mem_cons_self), if_pos rfl,
      s.serveHead_get n m q (hp q List.mem_cons_self)]
    split
    · rw [List.length_cons, List.drop_drop, Nat.add_comm]
    · rfl

/-- It leaves every other stack, and its own with nothing in its queue. -/
theorem State.Alone.serveStacks_get {s : State} {n : Fin 24} (h : s.Alone n) (ho : s.stackShut n = false) (m : Fin 24) :
    s.serveStacks.stks.get m = if m = n then { s.stks.get n with queue := [] } else s.stks.get m := by
  rw [h.serveStacks ho, s.serveHeads_get n m _ h.plain, List.drop_length]

end Sys2Proof.Machine
end

section
/-! PROOFS. The bytes that a stack's stores and lines leave at their homes, once it has served them (R107). -/

namespace Sys2Proof.Machine

/-- Whether a byte is lost is the same for all of its granule. -/
theorem State.lostAt_granule (s : State) {p x : Nat} (h : p / 64 = x / 64) : s.lostAt p = s.lostAt x := by
  have h52 : (p < 2 ^ 52) = (x < 2 ^ 52) := propext (by omega)
  have h30 : p / 2 ^ 30 = x / 2 ^ 30 := by omega
  have h8 : p / 2 ^ 8 = x / 2 ^ 8 := by omega
  have hs : stackOf p = stackOf x := by simp only [stackOf, hbmStack, hbmDie, hbmG, h30, h8]
  have hi : isHbm p = isHbm x := by simp only [isHbm, h52]
  simp only [State.lostAt, State.stackAt, hs, hi]

theorem State.lostAt_congr {s t : State} {x : Nat} (h : (t.stks.get (stackOf x)).hold = (s.stks.get (stackOf x)).hold) :
    t.lostAt x = s.lostAt x := by
  unfold State.lostAt State.stackAt
  rw [h]

/-- A byte in a stack that is not retired is not lost. -/
theorem State.lostAt_false {s : State} {x : Nat} (h : (s.stks.get (stackOf x)).hold ≠ .retired) : s.lostAt x = false := by
  unfold State.lostAt State.stackAt
  cases hh : (s.stks.get (stackOf x)).hold with
  | retired => exact absurd hh h
  | _ => simp

/-- What a request makes of a byte. -/
def StackReq.onto (q : StackReq) (x : Nat) (v : Byte) : Byte :=
  match q with
  | .store _ _ _ p bs _ _ => if p ≤ x ∧ x < p + bs.length then bs.getD (x - p) 0 else v
  | .line es => es.foldl (fun b e => if e.pa = x then applyBits b e.byte e.bits else b) v
  | _ => v

/-- A store within a granule, or a line: in the granule of a byte under a key. -/
def StackReq.WritesUnder (q : StackReq) (key x : Nat) : Prop :=
  (∃ a b c p bs key' at_, q = .store a b c p bs key' at_ ∧ p % 64 + bs.length ≤ 64 ∧ (p / 64 = x / 64 → key' = key))
  ∨ ∃ es, q = .line es ∧ ∀ e ∈ es, e.pa / 64 = x / 64 → e.key = key

/-- A store within a granule at its home. -/
theorem State.store_homeByte (s : State) {key key' p x : Nat} {bs : List Byte} (hl : s.lostAt x = false) (hk : key < 2 ^ 513)
    (hp : p % 64 + bs.length ≤ 64) (hkey : p / 64 = x / 64 → key' = key) :
    (s.putBytes key' p bs).homeByte key x = if p ≤ x ∧ x < p + bs.length then bs.getD (x - p) 0 else s.homeByte key x := by
  by_cases h : p / 64 = x / 64
  · rw [hkey h]
    exact s.putBytes_homeByte key p x bs ((s.lostAt_granule h).trans hl) hk
  · rw [if_neg (by omega)]
    refine s.putBytes_homeByte_other _ _ _ _ _ fun ht => h ?_
    unfold TakesGranule at ht
    omega

/-- An entry of a line at its home. -/
theorem State.entry_homeByte (s : State) {key x : Nat} (e : WcbEntry) (hl : s.lostAt x = false) (hk : key < 2 ^ 513)
    (hkey : e.pa / 64 = x / 64 → e.key = key) :
    (s.putBits e.key e.pa e.byte e.bits).homeByte key x =
      if e.pa = x then applyBits (s.homeByte key x) e.byte e.bits else s.homeByte key x := by
  by_cases h : e.pa / 64 = x / 64
  · rw [hkey h]
    exact s.putBits_homeByte key e.pa x _ _ ((s.lostAt_granule h).trans hl) hk
  · rw [if_neg fun hx : e.pa = x => h (congrArg (· / 64) hx)]
    refine s.putBytes_homeByte_other _ _ _ _ _ fun ht => h ?_
    unfold TakesGranule at ht
    rw [List.length_singleton] at ht
    omega

/-- A line at its home. -/
theorem State.putLine_homeByte (s : State) {key x : Nat} (es : List WcbEntry) (hl : s.lostAt x = false) (hk : key < 2 ^ 513)
    (hkey : ∀ e ∈ es, e.pa / 64 = x / 64 → e.key = key) :
    (s.putLine es).homeByte key x = es.foldl (fun b e => if e.pa = x then applyBits b e.byte e.bits else b) (s.homeByte key x) := by
  show (List.foldl _ s (es.map fun e => (e.key, e.pa, e.byte, e.bits))).homeByte key x = _
  rw [List.foldl_map]
  induction es generalizing s with
  | nil => rfl
  | cons e es ih =>
    have hc : (s.putBits e.key e.pa e.byte e.bits).lostAt x = s.lostAt x :=
      State.lostAt_congr (by rw [State.putBits, State.putBytes_stks])
    rw [List.foldl_cons, List.foldl_cons, ih _ (hc.trans hl) fun a ha => hkey a (List.mem_cons_of_mem _ ha),
      s.entry_homeByte e hl hk (hkey e List.mem_cons_self)]

theorem State.serve_homeByte (s : State) {key x : Nat} {q : StackReq} (hl : s.lostAt x = false) (hk : key < 2 ^ 513)
    (hq : q.WritesUnder key x) : (s.serve q).homeByte key x = q.onto x (s.homeByte key x) := by
  rcases hq with ⟨a, b, c, p, bs, key', at_, rfl, hp, hkey⟩ | ⟨es, rfl, hkey⟩
  · exact s.store_homeByte hl hk hp hkey
  · exact s.putLine_homeByte es hl hk hkey

theorem State.serveHead_homeByte (s : State) {n : Fin 24} {key x : Nat} {q : StackReq} (hl : s.lostAt x = false) (hk : key < 2 ^ 513)
    (hq : q.WritesUnder key x) : (s.serveHead n q).homeByte key x = q.onto x (s.homeByte key x) := by
  have hpop : (s.popHeads [n]).lostAt x = false := by
    refine (State.lostAt_congr ?_).trans hl
    rw [s.popHeads_get]
    split
    · next h => rw [h]
    · rfl
  have hb : (s.popHeads [n]).homeByte key x = s.homeByte key x :=
    State.homeByte_congr (by simp only [State.popHeads]) fun y _ => by simp only [State.popHeads]
  rw [State.serveHead, State.serve_homeByte _ hpop hk hq, hb]

theorem State.serveHead_lostAt (s : State) (n : Fin 24) (q : StackReq) (x : Nat) (h : q.Plain) :
    (s.serveHead n q).lostAt x = s.lostAt x := by
  refine State.lostAt_congr ?_
  rw [s.serveHead_get n _ q h]
  split
  · next hn => rw [hn]
  · rfl

/-- A byte after a whole queue of stores and lines was served in its order. -/
theorem State.serveHeads_homeByte (s : State) {n : Fin 24} {key x : Nat} (qs : List StackReq) (hl : s.lostAt x = false)
    (hk : key < 2 ^ 513) (hp : ∀ q ∈ qs, q.Plain) (hq : ∀ q ∈ qs, q.WritesUnder key x) :
    (qs.foldl (State.serveHead · n) s).homeByte key x = qs.foldl (fun v q => q.onto x v) (s.homeByte key x) := by
  induction qs generalizing s with
  | nil => rfl
  | cons q qs ih =>
    rw [List.forall_mem_cons] at hp hq
    rw [List.foldl_cons, List.foldl_cons, ih _ ((s.serveHead_lostAt n q x hp.1).trans hl) hp.2 hq.2, s.serveHead_homeByte hl hk hq.1]

end Sys2Proof.Machine
end

section
/-! PROOFS. What a stack's events do (R105, R107, R109), what a change of readiness does (R366), and device reset (R13). -/

namespace Sys2Proof.Machine

/-! ### What a stack's event leaves -/

/-- All stacks but one are the same. -/
def State.OthersStay (s t : State) (n : Fin 24) : Prop := ∀ m, m ≠ n → t.stks.get m = s.stks.get m

/-- The strands, memory, the poison, the teams and all stacks but one are the same. -/
def State.Stays (s t : State) (n : Fin 24) : Prop :=
  t.strands = s.strands ∧ t.mem = s.mem ∧ t.poison = s.poison ∧ t.teams = s.teams ∧ s.OthersStay t n

theorem State.modStack_stays (s : State) (n : Fin 24) (f : Stack → Stack) : s.Stays (s.modStack n f) n :=
  ⟨rfl, rfl, rfl, rfl, fun m hm => s.modStack_get_other n m f hm⟩

theorem State.criticalTemp_exec {s : State} {n : Fin 24} (h : (s.stks.get n).hold ≠ .retired) :
    exec (.stackCriticalTemp n) s = .next (s.modStack n fun x => { x with hold := .refresh true }) := by
  rw [exec_stackCriticalTemp]
  unfold execStackCriticalTemp
  split
  · contradiction
  · rfl
  · rfl

theorem State.deassert_exec {s : State} {n : Fin 24} {a : Bool} (h : (s.stks.get n).hold = .refresh a) :
    exec (.criticalTempDeassert n) s = .next (s.modStack n fun x => { x with hold := .refresh false }) := by
  rw [exec_criticalTempDeassert, execCriticalTempDeassert, h]

/-- A stack's hold of 4 ms noted and told (R109). -/
def State.holdNoted (s : State) (n : Fin 24) : State :=
  ((s.modStack n fun x => { x with event := true }).setReady n.val 3).send (.stackHold n.val)

theorem State.holdEvent_exec {s : State} {n : Fin 24} {a : Bool} (h : (s.stks.get n).hold = .refresh a)
    (he : (s.stks.get n).event = false) : exec (.stackHoldEvent n) s = .next (s.holdNoted n) := by
  rw [exec_stackHoldEvent, execStackHoldEvent, h, he]
  rfl

theorem State.holdNoted_stks (s : State) (n : Fin 24) : (s.holdNoted n).stks = (s.modStack n fun x => { x with event := true }).stks := rfl

theorem State.holdNoted_get (s : State) (n : Fin 24) : (s.holdNoted n).stks.get n = { s.stks.get n with event := true } := by
  rw [s.holdNoted_stks, State.modStack_get_same]

theorem State.holdNoted_stays (s : State) (n : Fin 24) : s.Stays (s.holdNoted n) n := by
  refine ⟨rfl, rfl, rfl, rfl, fun m hm => ?_⟩
  rw [s.holdNoted_stks, State.modStack_get_other _ _ _ _ hm]

theorem State.holdNoted_ready (s : State) (n : Fin 24) : (s.holdNoted n).readiness.get (fin 64 n.val) = 3 :=
  State.setReady_get_same _ _ _

theorem State.reseed_exec {s : State} {n : Fin 24} (ht : (s.stks.get n).stkref.getLsbD 31 = false) (hs : 2 ^ 20 ≤ (s.stks.get n).steps) :
    exec (.generatorReseed n) s = .next (s.modStack n fun x => x.reseed n s.tick) := by
  rw [exec_generatorReseed, execGeneratorReseed, ht, Bool.false_or, if_neg]
  rw [decide_eq_true_eq]
  exact Nat.not_lt.mpr hs

/-! ### The end of self-refresh -/

/-- A stack whose self-refresh ends, before it serves its queue. -/
def State.leaveRefresh (s : State) (n : Fin 24) : State :=
  let s1 := s.modStack n fun x => { x with hold := .none, event := false }
  if (s.stks.get n).event then s1.setReady n.val 2 else s1

theorem State.refreshExit_exec {s : State} {n : Fin 24} (h : (s.stks.get n).hold = .refresh false) :
    exec (.selfRefreshExit n) s = .next (s.leaveRefresh n).serveStacks := by
  rw [exec_selfRefreshExit, execSelfRefreshExit, h]
  rfl

theorem State.leaveRefresh_cases (s : State) (n : Fin 24) (P : State → Prop)
    (h1 : (s.stks.get n).event = true → P ((s.modStack n fun x => { x with hold := .none, event := false }).setReady n.val 2))
    (h0 : (s.stks.get n).event = false → P (s.modStack n fun x => { x with hold := .none, event := false })) : P (s.leaveRefresh n) := by
  unfold State.leaveRefresh
  dsimp only
  cases he : (s.stks.get n).event with
  | true => exact h1 he
  | false => exact h0 he

theorem State.leaveRefresh_stks (s : State) (n : Fin 24) :
    (s.leaveRefresh n).stks = (s.modStack n fun x => { x with hold := .none, event := false }).stks :=
  s.leaveRefresh_cases n (fun t => t.stks = _) (fun _ => rfl) fun _ => rfl

theorem State.leaveRefresh_get (s : State) (n : Fin 24) :
    (s.leaveRefresh n).stks.get n = { s.stks.get n with hold := .none, event := false } := by
  rw [s.leaveRefresh_stks, State.modStack_get_same]

theorem State.leaveRefresh_stays (s : State) (n : Fin 24) : s.Stays (s.leaveRefresh n) n := by
  have h := s.modStack_stays n fun x => { x with hold := .none, event := false }
  exact s.leaveRefresh_cases n (s.Stays · n) (fun _ => h) fun _ => h

theorem State.leaveRefresh_homeByte (s : State) (n : Fin 24) (key x : Nat) : (s.leaveRefresh n).homeByte key x = s.homeByte key x :=
  s.leaveRefresh_cases n (fun t => t.homeByte key x = s.homeByte key x) (fun _ => rfl) fun _ => rfl

theorem fin64_ne {n m : Fin 24} (h : m ≠ n) : fin 64 n.val ≠ fin 64 m.val := by
  intro e
  have := congrArg Fin.val e
  rw [fin64_val _ (by omega), fin64_val _ (by omega)] at this
  exact h (Fin.ext this.symm)

theorem State.leaveRefresh_ready_other (s : State) (n m : Fin 24) (h : m ≠ n) :
    (s.leaveRefresh n).readiness.get (fin 64 m.val) = s.readiness.get (fin 64 m.val) :=
  s.leaveRefresh_cases n (fun t => t.readiness.get _ = s.readiness.get _)
    (fun _ => State.setReady_get_other _ _ _ _ (fin64_ne h)) fun _ => rfl

/-- A readiness at which a stack serves no request (R366). -/
def downByte (r : Byte) : Bool := r == 0 || r == 1 || r == 5

theorem State.stackShut_open {s : State} {n : Fin 24} (h : (s.stks.get n).hold = .none) :
    s.stackShut n = downByte (s.readiness.get (fin 64 n.val)) := by
  rw [State.stackShut, h]
  rfl

theorem State.leaveRefresh_shut (s : State) (n : Fin 24) :
    (s.leaveRefresh n).stackShut n = (!(s.stks.get n).event && downByte (s.readiness.get (fin 64 n.val))) := by
  have hh : ((s.leaveRefresh n).stks.get n).hold = .none := by rw [s.leaveRefresh_get]
  rw [State.stackShut_open hh]
  refine s.leaveRefresh_cases n (fun t => downByte (t.readiness.get _) = _) (fun he => ?_) fun he => ?_
  · rw [State.setReady_get_same, he]
    rfl
  · rw [he]
    rfl

/-- Every other stack is as busy when the self-refresh of one ends. -/
theorem State.leaveRefresh_asBusy (s : State) (n m : Fin 24) (h : m ≠ n) : AsBusy s (s.leaveRefresh n) m := by
  obtain ⟨-, -, -, -, ho⟩ := s.leaveRefresh_stays n
  refine ⟨by rw [ho m h], fun hs => ?_⟩
  rwa [State.stackShut_congr (by rw [ho m h]) (s.leaveRefresh_ready_other n m h)]

/-- A stack that is not usable stays shut when its self-refresh ends. -/
theorem State.leaveRefresh_idle {s : State} {n : Fin 24} (hi : s.nextServed = none) (hs : (s.leaveRefresh n).stackShut n = true) :
    (s.leaveRefresh n).nextServed = none := by
  refine State.idle_asBusy hi fun m => ?_
  by_cases hm : m = n
  · subst hm
    exact ⟨by rw [s.leaveRefresh_get], fun _ => hs⟩
  · exact s.leaveRefresh_asBusy n m hm

theorem State.leaveRefresh_alone {s : State} {n : Fin 24} (hi : s.nextServed = none) (hp : s.PlainAt n) : (s.leaveRefresh n).Alone n := by
  refine State.alone_of_idle hi (s.leaveRefresh_asBusy n) hp fun q hq => ?_
  rw [s.leaveRefresh_get] at hq
  exact hp q hq

theorem State.leaveRefresh_ready {s : State} {n : Fin 24} (he : (s.stks.get n).event = true) :
    (s.leaveRefresh n).readiness.get (fin 64 n.val) = 2 :=
  s.leaveRefresh_cases n (fun t => t.readiness.get _ = 2) (fun _ => State.setReady_get_same _ _ _) fun h => by
    rw [he] at h
    cases h

/-- Whether a stack serves its queue once its self-refresh has ended (R107, R366). -/
def State.Serves (s : State) (n : Fin 24) : Prop :=
  (s.stks.get n).event = true
    ∨ ((s.readiness.get (fin 64 n.val)).toNat ≠ 0 ∧ (s.readiness.get (fin 64 n.val)).toNat ≠ 1
      ∧ (s.readiness.get (fin 64 n.val)).toNat ≠ 5)

theorem State.leaveRefresh_open_iff (s : State) (n : Fin 24) : (s.leaveRefresh n).stackShut n = false ↔ s.Serves n := by
  have hb : ∀ k : Byte, (s.readiness.get (fin 64 n.val) == k) = true ↔ (s.readiness.get (fin 64 n.val)).toNat = k.toNat := fun k => by
    rw [beq_iff_eq, BitVec.toNat_inj]
  rw [s.leaveRefresh_shut, ← Bool.not_eq_true, Bool.and_eq_true, downByte, Bool.or_eq_true, Bool.or_eq_true, hb, hb, hb, State.Serves]
  cases (s.stks.get n).event <;> simp [not_or, and_assoc]

/-- A stack that does not serve after self-refresh keeps its queue. -/
theorem State.leaveRefresh_keeps {s : State} {n : Fin 24} (hi : s.nextServed = none) (hn : ¬ s.Serves n) :
    (s.leaveRefresh n).serveStacks = s.leaveRefresh n := by
  rw [← s.leaveRefresh_open_iff, Bool.not_eq_false] at hn
  exact State.serveStacks_idle _ (State.leaveRefresh_idle hi hn)

/-- A stack that serves after self-refresh has served all of its queue, and no other has changed. -/
theorem State.leaveRefresh_served {s : State} {n : Fin 24} (hi : s.nextServed = none) (hv : s.Serves n) (hp : s.PlainAt n) :
    s.OthersStay (s.leaveRefresh n).serveStacks n
      ∧ (s.leaveRefresh n).serveStacks.stks.get n = { s.stks.get n with hold := .none, event := false, queue := [] } := by
  have ho := (s.leaveRefresh_open_iff n).mpr hv
  have ha := State.leaveRefresh_alone hi hp
  obtain ⟨-, -, -, -, hother⟩ := s.leaveRefresh_stays n
  refine ⟨fun m hm => ?_, ?_⟩
  · rw [ha.serveStacks_get ho, if_neg hm, hother m hm]
  · rw [ha.serveStacks_get ho, if_pos rfl, s.leaveRefresh_get]

/-- What a byte of the stack reads then: what its queue of stores and lines made of it, in its order. -/
theorem State.leaveRefresh_bytes {s : State} {n : Fin 24} {key x : Nat} (hi : s.nextServed = none) (hv : s.Serves n) (hp : s.PlainAt n)
    (hx : stackOf x = n) (hk : key < 2 ^ 513) (hq : ∀ q ∈ (s.stks.get n).queue, q.WritesUnder key x) :
    (s.leaveRefresh n).serveStacks.homeByte key x = (s.stks.get n).queue.foldl (fun v q => q.onto x v) (s.homeByte key x) := by
  have ho := (s.leaveRefresh_open_iff n).mpr hv
  have hl : (s.leaveRefresh n).lostAt x = false := State.lostAt_false (by rw [hx, s.leaveRefresh_get]; exact Hold.noConfusion)
  rw [(State.leaveRefresh_alone hi hp).serveStacks ho, s.leaveRefresh_get, State.serveHeads_homeByte _ _ hl hk hp hq,
    s.leaveRefresh_homeByte]

/-! ### Retirement -/

theorem State.answer_mem (s : State) (st : Fin 4) (k : StreamId) (t : Option Task) (rd : Reg) (next : W64) (v : Answer) :
    (s.answer st k t rd next v).mem = s.mem := by
  unfold State.answer State.forTask
  split
  · rfl
  · rfl

theorem State.onCore_mem (s : State) (n : Nat) (f : State → State) (hf : ∀ u, (f u).mem = u.mem) : (s.onCore n f).mem = s.mem := by
  have hsw : ∀ (u : State) (c : Nat), (u.switchCore c).mem = u.mem := fun u c => by
    unfold State.switchCore
    split
    · rfl
    · rfl
  rw [State.onCore, hsw, hf, hsw]

/-- A plain request discarded changes no stack, no launch and no memory (R109). -/
theorem State.discard_plain (s : State) (n : Fin 24) (q : StackReq) (h : q.Plain) :
    Calm s (State.discard n s q) ∧ (State.discard n s q).mem = s.mem := by
  unfold State.discard
  cases q with
  | line => exact ⟨.refl s, rfl⟩
  | store => exact ⟨.refl s, rfl⟩
  | load => exact ⟨s.answer_calm _ _ _ _ _ _, s.answer_mem _ _ _ _ _ _⟩
  | atomic => exact ⟨s.answer_calm _ _ _ _ _ _, s.answer_mem _ _ _ _ _ _⟩
  | read =>
    refine ⟨s.onCore_calm _ _ fun u => ?_, s.onCore_mem _ _ fun u => ?_⟩
    · split
      · exact u.wait_calm _ _ _
      · exact .refl u
    · split
      · rfl
      · rfl
  | work => exact absurd rfl (h _ _ _ _ _ _)

theorem State.foldl_discard_plain (s : State) (n : Fin 24) (qs : List StackReq) (h : ∀ q ∈ qs, q.Plain) :
    Calm s (qs.foldl (State.discard n) s) ∧ (qs.foldl (State.discard n) s).mem = s.mem := by
  induction qs generalizing s with
  | nil => exact ⟨.refl s, rfl⟩
  | cons q qs ih =>
    rw [List.forall_mem_cons] at h
    obtain ⟨hc, hm⟩ := s.discard_plain n q h.1
    obtain ⟨hcs, hms⟩ := ih (State.discard n s q) h.2
    exact ⟨hc.trans hcs, hms.trans hm⟩

/-- An access from the network that a stack keeps. -/
def HeldWork.Uet (w : HeldWork) : Prop :=
  (∃ asid va data, w = .uetWrite asid va data) ∨ (∃ asid va n, w = .uetRead asid va n) ∨ ∃ asid op d va v cmp, w = .uetAtomic asid op d va v cmp

theorem State.serveWork_uet (s : State) (t : Option Task) {w : HeldWork} (ns : List (Fin 24)) (h : w.Uet) : Quiet s (s.serveWork t w ns) := by
  unfold State.serveWork
  rcases h with ⟨asid, va, data, rfl⟩ | ⟨asid, va, n, rfl⟩ | ⟨asid, op, d, va, v, cmp, rfl⟩
  · exact execUetWrite_quiet _ _ _ s
  · exact execUetRead_quiet _ _ _ s
  · exact execUetAtomic_quiet _ _ _ _ _ _ s

theorem State.afterWork_uet (s : State) (t : Option Task) {w : HeldWork} (h : w.Uet) : s.afterWork t w = s := by
  rcases h with ⟨asid, va, data, rfl⟩ | ⟨asid, va, n, rfl⟩ | ⟨asid, op, d, va, v, cmp, rfl⟩ <;> rfl

theorem State.keepAnswers_quiet (t s : State) : Quiet t (t.keepAnswers s) := by
  unfold State.keepAnswers
  split
  · exact .refl t
  · exact ⟨rfl, rfl⟩

theorem State.onCore_quiet (s : State) (n : Nat) (f : State → State) (hf : ∀ u, Quiet u (f u)) : Quiet s (s.onCore n f) :=
  ((s.switchCore_calm n).quiet.trans (hf _)).trans (State.switchCore_calm _ _).quiet

/-- An access from the network served changes no launch. -/
theorem State.serve_uet (s : State) (core : Nat) (t : Option Task) {w : HeldWork} (ns : List (Fin 24))
    (keys : Vector (Option (BitVec 512)) 64) (at_ : Nat) (h : w.Uet) : Quiet s (s.serve (.work core t w ns keys at_)) := by
  have h1 : Quiet (s.opened ns keys) ((s.opened ns keys).onCore core fun v => v.serveWork t w ns) :=
    State.onCore_quiet _ _ _ fun u => u.serveWork_uet t ns h
  have h2 : Quiet s (((s.opened ns keys).onCore core fun v => v.serveWork t w ns).shutAgain s ns) := ⟨rfl, h1.launches⟩
  have h3 : ∀ u : State, Quiet u (u.afterWork t w) := fun u => (u.afterWork_uet t h).symm ▸ .refl u
  exact (h2.trans (State.keepAnswers_quiet _ s)).trans (State.onCore_quiet _ core (fun v => v.afterWork t w) h3)

/-- What a retired stack discards changes no launch (R109). -/
theorem State.discard_quiet (s : State) (n : Fin 24) (q : StackReq) : Quiet s (State.discard n s q) := by
  cases q with
  | work core t w ns keys at_ =>
    have hs : w.Uet → Quiet s (if s.stks.toList.any fun x => x.queue.contains (.work core t w ns keys at_) then s
        else s.serve (.work core t w ns keys at_)) := fun h => by
      split
      · exact .refl s
      · exact s.serve_uet core t ns keys at_ h
    cases w with
    | uetWrite asid va data => exact hs (.inl ⟨asid, va, data, rfl⟩)
    | uetRead asid va n => exact hs (.inr (.inl ⟨asid, va, n, rfl⟩))
    | uetAtomic asid op d va v cmp => exact hs (.inr (.inr ⟨asid, op, d, va, v, cmp, rfl⟩))
    | _ => exact .refl s
  | _ => exact (s.discard_plain n _ fun _ _ _ _ _ _ h => by cases h).1.quiet

/-- Launches end one after another: one that runs and is among them is ending with the status (R109). -/
theorem State.foldl_endLaunch {s : State} {l : Launch} {ids : List (BitVec 32)} {status : Byte} {detail : W64}
    (hl : s.launch l.id = some l) (hr : l.phase = .running) (hm : l.id ∈ ids) :
    ∃ l', (ids.foldl (fun u i => u.endLaunch i status detail) s).launch l.id = some l' ∧ l'.phase = .ending status := by
  induction ids generalizing s with
  | nil => cases hm
  | cons i ids ih =>
    rw [List.foldl_cons]
    have h1 := s.launch_endLaunch i l.id status detail
    rw [hl, Option.map_some] at h1
    by_cases hi : l.id = i
    · rw [if_pos (by simpa using hi), l.ended_running status detail hr] at h1
      exact (Steady.foldl (Steady.refl _) fun hw => hw.endLaunch).ending _ _ _ h1 rfl
    · rw [if_neg (by simpa using hi)] at h1
      exact ih h1 ((List.mem_cons.mp hm).resolve_left hi)

/-- A stack out of use. -/
def State.outOfUse (s : State) (n : Fin 24) : State :=
  (s.modStack n fun x => { x with hold := .retired, event := false, queue := [] }).setReady n.val 4

theorem State.outOfUse_get (s : State) (n : Fin 24) :
    (s.outOfUse n).stks.get n = { s.stks.get n with hold := .retired, event := false, queue := [] } := by
  rw [State.outOfUse, State.setReady_stks, State.modStack_get_same]

theorem State.outOfUse_get_other (s : State) (n m : Fin 24) (h : m ≠ n) : (s.outOfUse n).stks.get m = s.stks.get m := by
  rw [State.outOfUse, State.setReady_stks, State.modStack_get_other _ _ _ _ h]

theorem State.outOfUse_ready_other (s : State) (n m : Fin 24) (h : m ≠ n) :
    (s.outOfUse n).readiness.get (fin 64 m.val) = s.readiness.get (fin 64 m.val) := State.setReady_get_other _ _ _ _ (fin64_ne h)

/-- A stack retired, with what it discards, before launches end. -/
def State.retired (s : State) (n : Fin 24) : State := (s.stks.get n).queue.foldl (State.discard n) (s.outOfUse n)

/-- Launches ended by the loss of a stack. -/
def State.endLost (s : State) (ids : List (BitVec 32)) : State := ids.foldl (fun u i => u.endLaunch i 0x13 0) s

theorem State.retire_exec {s : State} {n : Fin 24} (h : (s.stks.get n).event = true) :
    exec (.stackRetire n) s = .next ((s.retired n).endLost (s.launchesAt n)).serveStacks := by
  rw [exec_stackRetire, execStackRetire, h]
  rfl

theorem State.retired_quiet (s : State) (n : Fin 24) : Quiet (s.outOfUse n) (s.retired n) :=
  Quiet.foldl _ (fun u q => u.discard_quiet n q) _ _

theorem State.endLost_frame (s : State) (ids : List (BitVec 32)) :
    (s.endLost ids).stks = s.stks ∧ (s.endLost ids).mem = s.mem ∧ (s.endLost ids).readiness = s.readiness :=
  foldl_keeps (fun u : State => u.stks = s.stks ∧ u.mem = s.mem ∧ u.readiness = s.readiness) (fun u i => u.endLaunch i 0x13 0)
    (fun _ _ hu => hu) ids s ⟨rfl, rfl, rfl⟩

/-- The readiness of a retired stack is 4 (R109). -/
theorem State.retire_ready (s : State) (n : Fin 24) (ids : List (BitVec 32)) :
    ((s.retired n).endLost ids).serveStacks.readiness.get (fin 64 n.val) = 4 := by
  obtain ⟨-, -, he⟩ := (s.retired n).endLost_frame ids
  rw [(Steady.refl _).serveStacks.ready, he, (s.retired_quiet n).ready, State.outOfUse, State.setReady_get_same]

theorem State.retire_launch {s : State} {n : Fin 24} {ids : List (BitVec 32)} {l : Launch} (hm : l.id ∈ ids)
    (hl : s.launch l.id = some l) (hr : l.phase = .running) :
    ∃ l', ((s.retired n).endLost ids).serveStacks.launch l.id = some l' ∧ l'.phase = .ending 0x13 := by
  have h1 : (s.retired n).launch l.id = some l := by
    rw [State.launch, (s.retired_quiet n).launches]
    exact hl
  have hend : ∃ l', ((s.retired n).endLost ids).launch l.id = some l' ∧ l'.phase = .ending 0x13 := State.foldl_endLaunch h1 hr hm
  obtain ⟨l', hl', hp⟩ := hend
  exact (Steady.refl _).serveStacks.ending _ _ _ hl' hp

/-- A stack that keeps plain requests alone retires by itself: the others and memory stay, and nothing is served. -/
theorem State.retire_plain {s : State} {n : Fin 24} (ids : List (BitVec 32)) (hp : s.PlainAt n) (hi : s.nextServed = none) :
    let t := ((s.retired n).endLost ids).serveStacks
    s.OthersStay t n ∧ t.mem = s.mem ∧ t.stks.get n = { s.stks.get n with hold := .retired, event := false, queue := [] } := by
  obtain ⟨hstks, hmem, hready⟩ := (s.retired n).endLost_frame ids
  obtain ⟨hc, hm⟩ := (s.outOfUse n).foldl_discard_plain n _ hp
  have hget : ((s.retired n).endLost ids).stks.get n = { s.stks.get n with hold := .retired, event := false, queue := [] } := by
    rw [hstks, State.retired, hc.stks, s.outOfUse_get]
  have hother : s.OthersStay ((s.retired n).endLost ids) n := fun m hmn => by
    rw [hstks, State.retired, hc.stks, s.outOfUse_get_other n m hmn]
  have hidle : ((s.retired n).endLost ids).nextServed = none := by
    have hplain : ((s.retired n).endLost ids).PlainAt n := fun q hq => by
      rw [hget] at hq
      cases hq
    refine (State.alone_of_idle hi (fun m hmn => ⟨by rw [hother m hmn], fun hs => ?_⟩) hp hplain).idle (by rw [hget])
    refine (State.stackShut_congr (by rw [hother m hmn]) ?_).trans hs
    rw [hready, (s.retired_quiet n).ready, s.outOfUse_ready_other n m hmn]
  dsimp only
  rw [State.serveStacks_idle _ hidle]
  exact ⟨hother, hmem.trans hm, hget⟩

end Sys2Proof.Machine
end

section
/-! PROOFS. What a change of readiness does (R366), what device reset does (R13), and O57. -/

namespace Sys2Proof.Machine

/-! ### A change of readiness -/

/-- A function's readiness changed, and what waited for a usable port sent. -/
def State.changed (s : State) (ix : Fin 48) (code : Byte) : State := (s.setReady ix.val code).flushOutbox

theorem State.changed_frame (s : State) (ix : Fin 48) (code : Byte) :
    (s.changed ix code).strands = s.strands ∧ (s.changed ix code).mem = s.mem ∧ (s.changed ix code).stks = s.stks
      ∧ (s.changed ix code).readiness = (s.setReady ix.val code).readiness
      ∧ (s.changed ix code).sent = (if (s.changed ix code).portUp = true then s.sent ++ s.outbox else s.sent)
      ∧ (s.changed ix code).outbox = if (s.changed ix code).portUp = true then [] else s.outbox := by
  have hup : (s.changed ix code).portUp = (s.setReady ix.val code).portUp := by
    unfold State.changed State.flushOutbox
    split <;> rfl
  rw [hup]
  unfold State.changed State.flushOutbox
  split
  · exact ⟨rfl, rfl, rfl, rfl, rfl, rfl⟩
  · exact ⟨rfl, rfl, rfl, rfl, rfl, rfl⟩

theorem State.changed_ready (s : State) (ix : Fin 48) (code : Byte) : (s.changed ix code).readiness.get (fin 64 ix.val) = code := by
  obtain ⟨-, -, -, hr, -, -⟩ := s.changed_frame ix code
  rw [hr, State.setReady_get_same]

theorem State.changed_ready_other (s : State) (ix : Fin 48) (code : Byte) (j : Fin 64) (h : j.val ≠ ix.val) :
    (s.changed ix code).readiness.get j = s.readiness.get j := by
  obtain ⟨-, -, -, hr, -, -⟩ := s.changed_frame ix code
  rw [hr, State.setReady_get_other]
  rintro rfl
  exact h (fin64_val _ (by omega))

theorem State.changed_stks (s : State) (ix : Fin 48) (code : Byte) : (s.changed ix code).stks = s.stks := by
  obtain ⟨-, -, hs, -, -, -⟩ := s.changed_frame ix code
  exact hs

theorem State.change_exec {s : State} {ix : Fin 48} {code : Byte} (hc : code = 0 ∨ code = 1 ∨ code = 2 ∨ code = 5) (hix : ix.val < 47)
    (hs : ∀ h : ix.val < 24, (s.stks.get ⟨ix.val, h⟩).event = false ∧ (s.stks.get ⟨ix.val, h⟩).hold ≠ .retired) :
    exec (.readinessChange ix code) s = .next (s.changed ix code).serveStacks := by
  have hstays : s.stackStays ix.val = false := by
    unfold State.stackStays
    by_cases h : ix.val < 24
    · have hfin : fin 24 ix.val = ⟨ix.val, h⟩ := Fin.ext (Nat.mod_eq_of_lt h)
      obtain ⟨he, hr⟩ := hs h
      rw [hfin, he, beq_eq_false_iff_ne.mpr hr]
      simp
    · simp [h]
  rw [exec_readinessChange, execReadinessChange, hstays, if_pos]
  · rfl
  · simpa [hix, or_assoc] using hc

/-- Every stack but the one that changes is as busy. -/
theorem State.changed_asBusy (s : State) (ix : Fin 48) (code : Byte) (m : Fin 24) (h : m.val ≠ ix.val) : AsBusy s (s.changed ix code) m := by
  refine ⟨by rw [s.changed_stks], fun hs => (State.stackShut_congr (by rw [s.changed_stks]) ?_).trans hs⟩
  refine s.changed_ready_other ix code _ ?_
  rw [fin64_val _ (by omega)]
  exact h

/-- A stack that goes down serves nothing, whether it was held or not. -/
theorem State.changed_asBusy_down {s : State} {ix : Fin 48} {code : Byte} {m : Fin 24} (hm : m.val = ix.val) (hd : downByte code = true)
    (hr : (s.stks.get m).hold ≠ .retired) : AsBusy s (s.changed ix code) m := by
  refine ⟨by rw [s.changed_stks], fun _ => ?_⟩
  cases hh : (s.stks.get m).hold with
  | retired => exact absurd hh hr
  | none => rw [State.stackShut_open (by rw [s.changed_stks, hh]), hm, s.changed_ready, hd]
  | refresh a => simp [State.stackShut, s.changed_stks, hh]

/-- A stack that may serve once it is ready, where no stack could serve before. -/
theorem State.changed_alone {s : State} {ix : Fin 48} (code : Byte) (h : ix.val < 24) (hi : s.nextServed = none)
    (hp : s.PlainAt ⟨ix.val, h⟩) : (s.changed ix code).Alone ⟨ix.val, h⟩ := by
  refine State.alone_of_idle hi (fun m hm => s.changed_asBusy ix code m fun e => hm (Fin.ext e)) hp fun q hq => hp q ?_
  rwa [s.changed_stks] at hq

/-- Nothing is served after a change but by a stack that becomes ready and keeps something. -/
theorem State.changed_idle {s : State} {ix : Fin 48} {code : Byte} (hc : code = 0 ∨ code = 1 ∨ code = 2 ∨ code = 5)
    (hi : s.nextServed = none) (hr : ∀ h : ix.val < 24, (s.stks.get ⟨ix.val, h⟩).hold ≠ .retired)
    (hq : ∀ h : ix.val < 24, code = 2 → (s.stks.get ⟨ix.val, h⟩).queue = []) : (s.changed ix code).nextServed = none := by
  by_cases h2 : ix.val < 24 ∧ code = 2
  · obtain ⟨h, hcode⟩ := h2
    have hempty := hq h hcode
    refine (State.changed_alone code h hi fun q hm => ?_).idle (by rw [s.changed_stks, hempty])
    rw [hempty] at hm
    cases hm
  · refine State.idle_asBusy hi fun m => ?_
    by_cases hm : m.val = ix.val
    · have h : ix.val < 24 := hm ▸ m.isLt
      have he : m = ⟨ix.val, h⟩ := Fin.ext hm
      refine State.changed_asBusy_down hm ?_ (he ▸ hr h)
      rcases hc with rfl | rfl | rfl | rfl
      · rfl
      · rfl
      · exact absurd ⟨h, rfl⟩ h2
      · rfl
    · exact s.changed_asBusy ix code m hm

/-- A stack that is ready again serves all that it has kept (log 122). -/
theorem State.changed_served {s : State} {ix : Fin 48} (h : ix.val < 24) (hi : s.nextServed = none)
    (hh : (s.stks.get ⟨ix.val, h⟩).hold = .none) (hp : s.PlainAt ⟨ix.val, h⟩) :
    ((s.changed ix 2).serveStacks.stks.get ⟨ix.val, h⟩).queue = [] := by
  have ho : (s.changed ix 2).stackShut ⟨ix.val, h⟩ = false := by
    rw [State.stackShut_open (by rw [s.changed_stks, hh]), s.changed_ready]
    rfl
  rw [(State.changed_alone 2 h hi hp).serveStacks_get ho, if_pos rfl]

/-! ### Device reset -/

/-- A stack after device reset, but for its generator. -/
theorem resetStacks_seeded (now : Nat) (n : Fin 24) : { (resetStacks now).get n with gen := Stack.reset.gen } = Stack.reset := by
  rw [resetStacks_get]

/-- Settles O57, clause by clause. Whatever the stacks serve keeps the readiness and the launches that end (`Steady`); a stack that
alone has something to serve, and only plain requests, leaves its queue empty and the other stacks as they are (`State.Alone`); and
what it serves leaves at a home byte what the last write there gives (`State.leaveRefresh_bytes`). -/
theorem stackResults : Obligations.StackResults := by
  unfold Obligations.StackResults
  intro s n
  dsimp only
  refine ⟨fun h => ?_, fun a h => ⟨?_, fun he => ?_⟩, fun h hi => ?_, fun he => ?_, fun ht hs => ?_, fun ix code hc hix hs hi => ?_, ?_⟩
  · exact ⟨_, State.criticalTemp_exec h, s.modStack_stays n _, s.modStack_get_same n _⟩
  · exact ⟨_, State.deassert_exec h, s.modStack_stays n _, s.modStack_get_same n _⟩
  · exact ⟨_, State.holdEvent_exec h he, s.holdNoted_stays n, s.holdNoted_get n, congrArg BitVec.toNat (s.holdNoted_ready n), rfl⟩
  · refine ⟨_, State.refreshExit_exec h, fun he => ?_, fun hn => ?_, fun hv ho => ?_⟩
    · rw [(Steady.refl _).serveStacks.ready, State.leaveRefresh_ready he]
      rfl
    · rw [State.leaveRefresh_keeps hi hn]
      exact ⟨s.leaveRefresh_stays n, s.leaveRefresh_get n⟩
    · obtain ⟨hother, hget⟩ := State.leaveRefresh_served hi hv ho
      exact ⟨hother, hget, fun key pa hst _ hk hq => State.leaveRefresh_bytes hi hv ho hst hk hq⟩
  · exact ⟨_, State.retire_exec he, congrArg BitVec.toNat (s.retire_ready n _), fun ho hi => s.retire_plain _ ho hi,
      fun l hm hl hr => State.retire_launch hm hl hr⟩
  · exact ⟨_, _, State.reseed_exec ht hs, s.modStack_stays n _, s.modStack_get_same n _⟩
  · have hready : (s.changed ix code).serveStacks.readiness = (s.changed ix code).readiness := (Steady.refl _).serveStacks.ready
    refine ⟨_, State.change_exec hc hix hs, ?_, fun hq => ?_, fun h h2 hh ho => ?_, fun j hj => ?_⟩
    · rw [hready, s.changed_ready]
    · obtain ⟨hstrands, hmem, -, -, hsent, hout⟩ := s.changed_frame ix code
      rw [State.serveStacks_idle _ (State.changed_idle hc hi (fun h => (hs h).2) hq)]
      exact ⟨hstrands, hmem, hsent, hout⟩
    · rw [h2]
      exact State.changed_served h hi hh ho
    · rw [hready, s.changed_ready_other ix code j hj]
  · refine ⟨_, rfl, rfl, rfl, rfl, rfl, rfl, rfl, rfl, rfl, rfl, rfl, fun m => resetStacks_seeded s.tick m, fun i hi => ?_, fun hn => ?_⟩
    · exact congrArg (Option.getD · s.firmware) hi
    · exact congrArg (Option.getD · s.firmware) hn

end Sys2Proof.Machine
end

section
/-! PROOFS. A team placed on the core: what readying the core leaves (R317, R347, R369), and the entry state of its strands (R29, R270). -/

namespace Sys2Proof.Machine

/-! ### The core made ready -/

/-- The active core and the launches are the same. -/
structure Readied (s t : State) : Prop where
  core : t.core = s.core
  launches : t.launches = s.launches

theorem Readied.refl (s : State) : Readied s s := ⟨rfl, rfl⟩

theorem Readied.trans {s t u : State} (h : Readied s t) (g : Readied t u) : Readied s u :=
  ⟨g.core.trans h.core, g.launches.trans h.launches⟩

theorem Readied.foldl {α : Type} (f : State → α → State) (hf : ∀ u a, Readied u (f u a)) (l : List α) (s : State) :
    Readied s (l.foldl f s) :=
  foldl_keeps (Readied s) f (fun u a hu => hu.trans (hf u a)) l s (.refl s)

theorem State.saveScr_readied (s : State) (t : Team) : Readied s (s.saveScr t) := by
  unfold State.saveScr
  split <;> exact ⟨rfl, rfl⟩

theorem State.saveCoef_readied (s : State) (id : BitVec 32) : Readied s (s.saveCoef id) := by
  unfold State.saveCoef
  split <;> exact ⟨rfl, rfl⟩

theorem State.moveTeam_readied (s : State) (t : Team) : Readied s (s.moveTeam t) := by
  unfold State.moveTeam
  refine Readied.foldl _ (fun _ _ => ?_) _ s
  exact ⟨rfl, rfl⟩

theorem State.saveTeam_readied (s : State) (t : Team) : Readied s (s.saveTeam t) :=
  ((s.moveTeam_readied t).trans (State.saveScr_readied _ t)).trans (State.saveCoef_readied _ _)

theorem State.saveMat_readied (s : State) : Readied s s.saveMat := by
  unfold State.saveMat
  split <;> exact ⟨rfl, rfl⟩

theorem State.setTables_readied (s : State) (l : List (Fin 2 × List Byte)) : Readied s (s.setTables l) := by
  unfold State.setTables
  refine Readied.foldl _ (fun _ _ => ?_) l s
  exact ⟨rfl, rfl⟩

theorem State.switchTo_readied {s t : State} {c : BitVec 12 × BitVec 6} (h : s.switchTo c = some t) : Readied s t := by
  unfold State.switchTo at h
  extract_lets others s1 at h
  have hs1 : Readied s s1 := (Readied.foldl _ (fun u m => u.saveTeam_readied m) others s).trans (State.saveMat_readied _)
  split at h
  · cases h
  split at h
  · cases h
    exact ⟨rfl, rfl⟩
  split at h
  · cases h
  · cases h
    exact hs1.trans ⟨rfl, rfl⟩

theorem State.clearRun_readied {s t : State} {skip : Option Team} {base len : Nat} (h : s.clearRun skip base len = some t) :
    Readied s t := by
  unfold State.clearRun at h
  extract_lets us at h
  split at h
  · cases h
  · cases h
    exact Readied.foldl _ (fun u m => u.saveScr_readied m) us s

theorem State.newRun_readied {s t : State} {base len : Nat} (h : s.newRun base len = some t) : Readied s t := by
  unfold State.newRun at h
  split at h
  · cases h
    exact .refl s
  split at h
  · cases h
  · exact State.clearRun_readied h

theorem State.restoreCoef_readied {s t : State} {id : BitVec 32} (h : s.restoreCoef id = some t) : Readied s t := by
  unfold State.restoreCoef at h
  split at h
  · extract_lets rest at h
    split at h
    · cases h
    split at h <;> cases h <;> exact ⟨rfl, rfl⟩
  · cases h
    exact .refl s

theorem State.loadCoef_readied {s t : State} {l : Launch} {p : Space} (h : s.loadCoef l p = some t) : Readied s t := by
  unfold State.loadCoef at h
  split at h
  · cases h
    exact .refl s
  split at h
  · cases h
    exact .refl s
  · extract_lets images at h
    split at h
    · cases h
    split at h
    · cases h
      exact .refl s
    · cases h
      exact (s.setTables_readied images).trans ⟨rfl, rfl⟩

/-- Strands that are free for a team are distinct. -/
theorem State.seatsFree_nodup {s : State} {strands : List (Fin 4)} (h : s.seatsFree strands = true) : strands.Nodup := by
  induction strands with
  | nil => exact .nil
  | cons st strands ih =>
    simp only [State.seatsFree, Bool.and_eq_true, Bool.not_eq_true', List.contains_eq_mem, decide_eq_false_iff_not] at h
    obtain ⟨⟨-, hst⟩, hrest⟩ := h
    exact List.nodup_cons.mpr ⟨hst, ih hrest⟩

theorem State.takes_nodup {s : State} {l : Launch} {p : Space} {team : W64} {strands : List (Fin 4)} {base : Nat}
    (h : s.takes l p team strands base = true) : strands.Nodup := by
  simp only [State.takes, Bool.and_eq_true] at h
  obtain ⟨⟨⟨⟨⟨⟨⟨⟨-, hfree⟩, -⟩, -⟩, -⟩, -⟩, -⟩, -⟩, -⟩ := h
  exact State.seatsFree_nodup hfree

/-- A core that is ready for a team has distinct strands for it, and is the same core with the same launches. -/
theorem State.readyFor_some {s t : State} {l : Launch} {p : Space} {team : W64} {strands : List (Fin 4)} {base : Nat}
    (h : s.readyFor l p team strands base = some t) : strands.Nodup ∧ Readied s t := by
  unfold State.readyFor at h
  split at h
  · cases h
  · obtain ⟨s1, h1, h⟩ := Option.bind_eq_some_iff.mp h
    split at h
    · cases h
    · next htakes =>
      obtain ⟨s2, h2, h⟩ := Option.bind_eq_some_iff.mp h
      obtain ⟨s3, h3, h4⟩ := Option.bind_eq_some_iff.mp h
      refine ⟨State.takes_nodup (by simpa using htakes), ?_⟩
      exact (((State.switchTo_readied h1).trans (State.newRun_readied h2)).trans (State.restoreCoef_readied h3)).trans
        (State.loadCoef_readied h4)

/-! ### Several strands changed -/

section
variable {α : Type} (k : α → Fin 4) (g : α → Strand → Strand)

/-- Strands changed one after another: nothing else changes. -/
theorem State.foldl_modStrand_frame (l : List α) (s : State) :
    l.foldl (fun u a => u.modStrand (k a) (g a)) s = { s with strands := (l.foldl (fun u a => u.modStrand (k a) (g a)) s).strands } :=
  foldl_keeps (fun u : State => u = { s with strands := u.strands }) _ (fun _ _ hu => hu ▸ rfl) l s rfl

theorem State.strand_foldl_modStrand_other (l : List α) (s : State) (st : Fin 4) (h : ∀ a ∈ l, st ≠ k a) :
    (l.foldl (fun u a => u.modStrand (k a) (g a)) s).strand st = s.strand st := by
  induction l generalizing s with
  | nil => rfl
  | cons a l ih =>
    obtain ⟨ha, hl⟩ := List.forall_mem_cons.mp h
    rw [List.foldl_cons, ih _ hl, State.strand_modStrand_other _ _ _ _ ha]

/-- Of distinct strands, each is changed once. -/
theorem State.strand_foldl_modStrand_mem (l : List α) (s : State) (hn : (l.map k).Nodup) (a : α) (ha : a ∈ l) :
    (l.foldl (fun u a => u.modStrand (k a) (g a)) s).strand (k a) = g a (s.strand (k a)) := by
  induction l generalizing s with
  | nil => cases ha
  | cons b l ih =>
    rw [List.map_cons, List.nodup_cons] at hn
    obtain ⟨hb, hl⟩ := hn
    rw [List.foldl_cons]
    rcases List.mem_cons.mp ha with rfl | ha
    · have hother : ∀ c ∈ l, k a ≠ k c := fun c hc hk => hb (hk ▸ List.mem_map_of_mem hc)
      rw [State.strand_foldl_modStrand_other k g l _ _ hother, State.strand_modStrand_same]
    · have hab : k a ≠ k b := fun hk => hb (hk ▸ List.mem_map_of_mem ha)
      rw [ih _ hl ha, State.strand_modStrand_other _ _ _ _ hab]

end

/-! ### The entry state of a task (R29, R270) -/

/-- A stream at task entry: everything zero but x3, x4 and x5 (R270). -/
theorem Stream.entry_readX (pc args wid : W64) (ix now : Nat) (runs : Bool) (r : Reg) :
    (Stream.entry pc args wid ix now runs).readX r =
      if r = 3 then args else if r = 4 then wid else if r = 5 then BitVec.ofNat 64 ix else 0 := by
  have hr : ∀ n : Nat, n < 32 → (r = BitVec.ofNat 5 n ↔ n = r.toNat) := fun n hn => by
    rw [← BitVec.toNat_inj, BitVec.toNat_ofNat, Nat.mod_eq_of_lt hn]
    exact eq_comm
  have hget : ∀ v : Vector W64 32, v.get ⟨r.toNat, r.isLt⟩ = v[r.toNat]'r.isLt := fun _ => rfl
  simp only [Stream.readX, Stream.entry, hget, Vector.getElem_set, Vector.getElem_replicate, show r = 0 ↔ _ from hr 0 (by decide),
    show r = 3 ↔ _ from hr 3 (by decide), show r = 4 ↔ _ from hr 4 (by decide), show r = 5 ↔ _ from hr 5 (by decide)]
  by_cases h0 : 0 = r.toNat
  · simp [← h0]
  by_cases h3 : 3 = r.toNat
  · simp [← h3]
  by_cases h4 : 4 = r.toNat
  · simp [← h4]
  · simp [h0, h3, h4]

section
variable (x : Strand) (q : Seat) (aspace : W64) (now : Nat)

theorem Strand.atEntry_readX (k : StreamId) (r : Reg) : ((x.atEntry q aspace now).stream k).readX r =
    if r = 3 then q.hdr.args else if r = 4 then q.wid else if r = 5 then BitVec.ofNat 64 q.task.ix else 0 := by
  cases k with
  | A => exact Stream.entry_readX ..
  | E => exact Stream.entry_readX ..

/-- With an A-stream in its launch, a task's A-stream starts at its entry (R270). -/
theorem Strand.atEntry_present (h : q.hdr.apresent = true) :
    (x.atEntry q aspace now).a.pc = q.hdr.aEntry ∧ (x.atEntry q aspace now).a.status = .run := by
  simp [Strand.atEntry, Stream.entry, h]

theorem Strand.atEntry_absent (h : q.hdr.apresent = false) : (x.atEntry q aspace now).a.status = .absent := by
  simp [Strand.atEntry, Stream.entry, h]

end

/-- A handler's address without its two low bits (log 74). -/
theorem tvec_aligned (a : W64) : (a &&& ~~~3#64).toNat = a.toNat / 4 * 4 := by
  have h3 : ∀ i (hi : i < 64), (3#64)[i] = decide (i < 2) := by decide
  have h : a &&& ~~~3#64 = (a >>> 2) <<< 2 := by
    ext i hi
    rw [BitVec.getElem_and, BitVec.getElem_not, h3, BitVec.getElem_shiftLeft, BitVec.getElem_ushiftRight]
    by_cases h2 : i < 2
    · simp [h2]
    · simp [h2, show 2 + (i - 2) = i by omega, BitVec.getLsbD_eq_getElem hi]
  rw [h, BitVec.toNat_shiftLeft, BitVec.toNat_ushiftRight, Nat.shiftRight_eq_div_pow, Nat.shiftLeft_eq]
  omega

/-! ### A team placed (R317) -/

/-- A team as it is placed. -/
def Launch.placed (l : Launch) (team : W64) (core : Nat) (strands : List (Fin 4)) (base : Nat) : Team where
  launch := l.id
  team := team
  core := core
  strands := strands
  base := base
  arena := base + l.hdr.scratch
  plats := []
  relSeq := 0
  lines := []
  ops := []

/-- The place of a task of a team. -/
def Launch.place (l : Launch) (team : W64) (core base ix : Nat) : Seat where
  task := { launch := l.id, team := team, ix := ix, reruns := 0 }
  hdr := l.hdr
  core := core
  base := base
  arena := base + l.hdr.scratch

theorem State.seat_eq (s : State) (l : Launch) (p : Space) (team : W64) (strands : List (Fin 4)) (base : Nat) :
    s.seat l p team strands base =
      strands.zipIdx.foldl (fun u e => u.modStrand e.1 fun x => x.atEntry (l.place team s.core base e.2) p.aspace s.tick)
        { s with teams := s.teams ++ [l.placed team s.core strands base] } := rfl

/-- A team seated changes the strands and adds itself. -/
theorem State.seat_frame (s : State) (l : Launch) (p : Space) (team : W64) (strands : List (Fin 4)) (base : Nat) :
    s.seat l p team strands base = { s with teams := s.teams ++ [l.placed team s.core strands base],
                                            strands := (s.seat l p team strands base).strands } := by
  rw [s.seat_eq]
  exact State.foldl_modStrand_frame (fun e : Fin 4 × Nat => e.1) (fun e x => x.atEntry (l.place team s.core base e.2) p.aspace s.tick) _ _

theorem State.seat_strand_other (s : State) (l : Launch) (p : Space) (team : W64) (strands : List (Fin 4)) (base : Nat) (st : Fin 4)
    (h : st ∉ strands) : (s.seat l p team strands base).strand st = s.strand st := by
  rw [s.seat_eq]
  refine State.strand_foldl_modStrand_other (fun e : Fin 4 × Nat => e.1)
    (fun e x => x.atEntry (l.place team s.core base e.2) p.aspace s.tick) _ _ st fun e he hst => h (hst ▸ List.fst_mem_of_mem_zipIdx he)

theorem State.seat_strand (s : State) (l : Launch) (p : Space) (team : W64) (strands : List (Fin 4)) (base : Nat)
    (hn : strands.Nodup) (ix : Nat) (h : ix < strands.length) :
    (s.seat l p team strands base).strand strands[ix] =
      (s.strand strands[ix]).atEntry (l.place team s.core base ix) p.aspace s.tick := by
  rw [s.seat_eq]
  refine State.strand_foldl_modStrand_mem (fun e : Fin 4 × Nat => e.1)
    (fun e x => x.atEntry (l.place team s.core base e.2) p.aspace s.tick) strands.zipIdx _ ?_ (strands[ix], ix) ?_
  · rwa [List.zipIdx_map_fst]
  · exact List.mk_mem_zipIdx_iff_getElem?.mpr (List.getElem?_eq_getElem h)

theorem State.here_iff (s : State) (t : Team) : s.here t = true ↔ t.core = s.core := beq_iff_eq

/-- The seed where all teams of the core are of one launch, in the second run of its closure check (R331). -/
theorem State.seedNow_second {s : State} {l : Launch} {id : BitVec 32} (hl : s.launch id = some l) (hc : l.hdr.closed = true)
    (h2 : l.second = true) (he : ∃ u ∈ s.teams, u.core = s.core) (ha : ∀ u ∈ s.teams, u.core = s.core → u.launch = id) :
    s.seedNow = BitVec.ofNat 64 (1 + l.digest1.toNat % 23) := by
  have hmine : ∀ u ∈ s.teams, u.core = s.core → (s.launch u.launch).filter (fun l => l.hdr.closed && l.second) = some l :=
    fun u hu huc => by simp [ha u hu huc, hl, hc, h2]
  have hfind : (s.teams.findSome? fun t => if s.here t then (s.launch t.launch).filter fun l => l.hdr.closed && l.second else none) =
      some l := by
    obtain ⟨u, hu, huc⟩ := he
    cases hfs : s.teams.findSome? fun t => if s.here t then (s.launch t.launch).filter fun l => l.hdr.closed && l.second else none with
    | none =>
      have hnone := List.findSome?_eq_none_iff.mp hfs u hu
      rw [if_pos ((s.here_iff u).mpr huc), hmine u hu huc] at hnone
      cases hnone
    | some b =>
      obtain ⟨v, hv, hvb⟩ := List.exists_of_findSome?_eq_some hfs
      split at hvb
      · next hvc => rw [← hvb, hmine v hv ((s.here_iff v).mp hvc)]
      · cases hvb
  rw [State.seedNow, hfind]

/-- The state after a core that has been made ready has taken a team of a launch, which changes with it. -/
def State.withTeam (s : State) (l : Launch) (p : Space) (team : W64) (strands : List (Fin 4)) (base : Nat) (f : Launch → Launch) :
    State :=
  let s1 := ((s.takeTurn l).seat l p team strands base).modLaunch l.id f
  { s1 with seed := s1.seedNow }

section
variable (s : State) (l : Launch) (p : Space) (team : W64) (strands : List (Fin 4)) (base : Nat) (f : Launch → Launch)

theorem State.withTeam_frame :
    s.withTeam l p team strands base f =
      { s with teams := s.teams ++ [l.placed team s.core strands base]
               launches := s.launches.map fun m => if m.id == l.id then f m else m
               strands := (s.withTeam l p team strands base f).strands
               queue := (s.takeTurn l).queue
               seed := (s.withTeam l p team strands base f).seed } := by
  unfold State.withTeam
  rw [State.seat_frame]
  rfl

theorem State.withTeam_core : (s.withTeam l p team strands base f).core = s.core := by
  rw [State.withTeam_frame]

theorem State.withTeam_mem : (s.withTeam l p team strands base f).mem = s.mem := by
  rw [State.withTeam_frame]

theorem State.withTeam_teams : (s.withTeam l p team strands base f).teams = s.teams ++ [l.placed team s.core strands base] := by
  rw [State.withTeam_frame]

theorem State.withTeam_launches :
    (s.withTeam l p team strands base f).launches = s.launches.map fun m => if m.id == l.id then f m else m := by
  rw [State.withTeam_frame]

theorem State.withTeam_strand_other (st : Fin 4) (h : st ∉ strands) : (s.withTeam l p team strands base f).strand st = s.strand st :=
  (s.takeTurn l).seat_strand_other l p team strands base st h

/-- The strands of a placed team stand at task entry. -/
theorem State.withTeam_entry (hn : strands.Nodup) (ix : Nat) (h : ix < strands.length) :
    (s.withTeam l p team strands base f).strand strands[ix] =
      (s.strand strands[ix]).atEntry (l.place team s.core base ix) p.aspace s.tick :=
  (s.takeTurn l).seat_strand l p team strands base hn ix h

/-- The launch of a placed team has changed as the dispatch says. -/
theorem State.withTeam_launch (hid : ∀ m, (f m).id = m.id) (hl : s.launch l.id = some l) :
    (s.withTeam l p team strands base f).launch l.id = some (f l) := by
  rw [State.launch_map _ (s.withTeam_launches l p team strands base f) (fun m => ?_), hl, Option.map_some, if_pos (beq_self_eq_true _)]
  split
  · exact hid m
  · rfl

theorem State.withTeam_placed : l.placed team s.core strands base ∈ (s.withTeam l p team strands base f).teams := by
  simp [State.withTeam_teams]

/-- The seed of a core whose teams are all of a launch in the second run of its closure check (R331). -/
theorem State.withTeam_seed (hid : ∀ m, (f m).id = m.id) (hl : s.launch l.id = some l) (hc : (f l).hdr.closed = true)
    (h2 : (f l).second = true) (ha : ∀ u ∈ s.teams, u.core = s.core → u.launch = l.id) :
    (s.withTeam l p team strands base f).seed = BitVec.ofNat 64 (1 + (f l).digest1.toNat % 23) := by
  have hcore := s.withTeam_core l p team strands base f
  have hseed : (s.withTeam l p team strands base f).seed = (s.withTeam l p team strands base f).seedNow := rfl
  refine hseed.trans (State.seedNow_second (s.withTeam_launch l p team strands base f hid hl) hc h2
    ⟨_, s.withTeam_placed l p team strands base f, hcore.symm⟩ fun u hu huc => ?_)
  rw [State.withTeam_teams, List.mem_append, List.mem_singleton] at hu
  rcases hu with hu | rfl
  · exact ha u hu (huc.trans hcore)
  · rfl

end

/-- What TEAM_DISPATCH does with a team that the core is ready for. -/
theorem State.dispatch_exec {s s1 : State} {l : Launch} {p : Space} {team : W64} {strands : List (Fin 4)} {base : Nat}
    {snapshot : List (Nat × Byte)} {bound : List (Nat × Nat)} (hl : s.launch l.id = some l) (hp : s.space l.asid = some p)
    (ho : l.offers team = true) (hf : s.offered l.id = true) (hr : s.readyFor l p team strands base = some s1)
    (hs : s.snap l p = some snapshot) (hb : s.boundFor l p = some bound) :
    exec (.teamDispatch l.id team strands base) s =
      .next (s1.withTeam l p team strands base fun m => m.dispatched snapshot bound team.toNat s.core s.cycle) := by
  rw [exec_teamDispatch, execTeamDispatch, hl]
  dsimp only
  rw [hp]
  dsimp only
  rw [ho, hf, hr, hs, hb]
  rfl

end Sys2Proof.Machine
end

section
/-! PROOFS. What rewriting the headers of plats leaves (R127, R130), and what a write of the row engine leaves of the core (R239, R250). -/

namespace Sys2Proof.Machine

variable {s u v : State}

/-! ### Headers of plats rewritten -/

/-- The header of a plat lies in a scratchpad. -/
theorem platPa_outside (t : Team) (p : Plat) : 2 ^ 52 ≤ platPa t p := by
  unfold platPa
  omega

theorem platPa_congr (t : Team) {p q : Plat} (h : p.h = q.h) : platPa t p = platPa t q := by
  rw [platPa, platPa, h]

@[simp] theorem Plat.stale_h (p : Plat) (r : Byte) : (p.stale r).h = p.h := by
  unfold Plat.stale
  split <;> rfl

theorem isHbm_outside {pa : Nat} (h : 2 ^ 52 ≤ pa) : isHbm pa = false := by
  simpa [isHbm] using h

theorem State.lostAt_outside (s : State) {pa : Nat} (h : 2 ^ 52 ≤ pa) : s.lostAt pa = false := by
  rw [State.lostAt, isHbm_outside h, Bool.false_and]

/-- A write outside HBM takes no granule to another key. -/
theorem State.rekey_outside (s : State) (key n : Nat) {pa : Nat} (h : 2 ^ 52 ≤ pa) : s.rekey key pa n = s := by
  rw [State.rekey_eq, State.rekeyed, isHbm_outside h]
  rfl

/-- No more than the headers of plats of a state, and what marks the plats, has changed. -/
structure HeadersOnly (s t : State) : Prop where
  core : t.core = s.core
  strands : t.strands = s.strands
  mat : t.mat = s.mat
  seals : t.seals = s.seals
  keyTag : t.keyTag = s.keyTag
  marks : ∀ a, t.platMark a → s.platMark a
  mem : ∀ a, ¬ s.platMark a → t.mem.get a = s.mem.get a

theorem HeadersOnly.refl (s : State) : HeadersOnly s s := ⟨rfl, rfl, rfl, rfl, rfl, fun _ h => h, fun _ _ => rfl⟩

theorem HeadersOnly.putBytes {key pa : Nat} {bs : List Byte} (h : HeadersOnly s u) (hpa : 2 ^ 52 ≤ pa)
    (hm : ∀ a, pa ≤ a → a < pa + bs.length → s.platMark a) : HeadersOnly s (u.putBytes key pa bs) := by
  have hl := u.lostAt_outside hpa
  have hkey : (u.putBytes key pa bs).keyTag = u.keyTag := by
    simp only [State.putBytes, hl, u.rekey_outside key bs.length hpa]
    rfl
  refine ⟨(u.putBytes_core _ _ _).trans h.core, (u.putBytes_strands _ _ _).trans h.strands, (u.putBytes_mat _ _ _).trans h.mat,
    (u.putBytes_seals _ _ _).trans h.seals, hkey.trans h.keyTag, fun a ha => h.marks a ?_, fun a ha => ?_⟩
  · rwa [State.platMark, u.putBytes_teams] at ha
  · rw [u.putBytes_mem _ _ _ _ hl, u.rekey_outside _ _ hpa, if_neg fun hin => ha (hm a hin.1 hin.2)]
    exact h.mem a ha

theorem HeadersOnly.platHdr {t : Team} {p : Plat} (h : HeadersOnly s u) (h5 : s.platMark (platPa t p + 5))
    (h6 : s.platMark (platPa t p + 6)) : HeadersOnly s (u.platHdr t p) := by
  unfold State.platHdr
  split
  · exact ⟨h.core, h.strands, h.mat, h.seals, h.keyTag, h.marks, h.mem⟩
  · refine h.putBytes (by have := platPa_outside t p; omega) fun a hlo hhi => ?_
    obtain rfl | rfl : a = platPa t p + 5 ∨ a = platPa t p + 6 := by
      simp only [List.length_cons, List.length_nil] at hhi
      omega
    · exact h5
    · exact h6

/-- Plats changed but for their handles, and their headers rewritten. -/
theorem HeadersOnly.setPlats {sel : Team → Plat → Bool} {f : Plat → Plat} (h : HeadersOnly s u) (hf : ∀ p, (f p).h = p.h) :
    HeadersOnly s (u.setPlats sel f) := by
  have hw : HeadersOnly s (u.teams.foldl (fun u t => t.plats.foldl (fun u p => if sel t p then u.platHdr t (f p) else u) u) u) := by
    refine List.foldlRecOn u.teams _ h fun v hv t ht => List.foldlRecOn t.plats _ hv fun w hw p hp => ?_
    have hpa : platPa t (f p) = platPa t p := platPa_congr t (hf p)
    split
    · exact hw.platHdr (h.marks _ ⟨t, ht, p, hp, .inl (by rw [hpa])⟩) (h.marks _ ⟨t, ht, p, hp, .inr (by rw [hpa])⟩)
    · exact hw
  refine ⟨hw.core, hw.strands, hw.mat, hw.seals, hw.keyTag, fun a ha => h.marks a ?_, hw.mem⟩
  obtain ⟨t', ht', p', hp', hat⟩ := ha
  obtain ⟨t, ht, rfl⟩ := List.mem_map.mp ht'
  obtain ⟨p, hp, rfl⟩ := List.mem_map.mp hp'
  refine ⟨t, ht, p, hp, ?_⟩
  have hpa : platPa { t with plats := t.plats.map fun p => if sel t p then f p else p } (if sel t p then f p else p) = platPa t p := by
    split
    · exact platPa_congr t (hf p)
    · rfl
  rwa [hpa] at hat

theorem HeadersOnly.sealMark {f pa n : Nat} (h : HeadersOnly s u) : HeadersOnly s (State.sealMark f u pa n) := by
  induction f generalizing u pa n with
  | zero => exact h
  | succ f ih =>
    unfold State.sealMark
    dsimp only
    split
    · exact h
    · exact foldl_keeps (HeadersOnly s) _ (fun _ _ hw => ih hw) _ _ (h.setPlats fun p => p.stale_h 1)

theorem HeadersOnly.modPlats {sel : Team → Plat → Bool} {f : Plat → Plat} (h : HeadersOnly s u) (hf : ∀ p, (f p).h = p.h) :
    HeadersOnly s (u.modPlats sel f) :=
  foldl_keeps (HeadersOnly s) _ (fun _ _ hw => hw.sealMark) _ _ (h.setPlats hf)

/-- Headers rewritten leave every other byte, under every key: they lie in scratchpads. -/
theorem HeadersOnly.homeByte {key a : Nat} (h : HeadersOnly s u) (ha : ¬ s.platMark a) : u.homeByte key a = s.homeByte key a := by
  by_cases hb : isHbm a = true
  · refine State.homeByte_congr (by rw [h.keyTag]) fun y hy => h.mem y ?_
    rintro ⟨t, -, p, -, hat⟩
    have := platPa_outside t p
    have : a < 2 ^ 52 := by simpa [isHbm] using hb
    omega
  · have hb' : isHbm a = false := by simpa using hb
    rw [State.homeByte_plain (.inr hb'), State.homeByte_plain (.inr hb'), h.mem a ha]

/-! ### Writes that leave the strands -/

/-- The active core and its strands are the same, and no seal is new. -/
structure OffStrands (s t : State) : Prop where
  core : t.core = s.core
  strands : t.strands = s.strands
  seals : ∀ q ∈ t.seals, q ∈ s.seals

theorem OffStrands.refl (s : State) : OffStrands s s := ⟨rfl, rfl, fun _ h => h⟩

theorem OffStrands.trans (h : OffStrands s u) (g : OffStrands u v) : OffStrands s v :=
  ⟨g.core.trans h.core, g.strands.trans h.strands, fun q hq => h.seals q (g.seals q hq)⟩

theorem OffStrands.foldl {α : Type} (f : State → α → State) (hf : ∀ u a, OffStrands u (f u a)) (l : List α) (s : State) :
    OffStrands s (l.foldl f s) :=
  foldl_keeps (OffStrands s) f (fun u a hu => hu.trans (hf u a)) l s (.refl s)

/-- A change of other fields than the active core, the strands and the seals. -/
theorem OffStrands.same (hc : u.core = s.core) (ht : u.strands = s.strands) (hs : u.seals = s.seals) : OffStrands s u :=
  ⟨hc, ht, fun _ hq => hs ▸ hq⟩

theorem HeadersOnly.offStrands (h : HeadersOnly s u) : OffStrands s u := .same h.core h.strands h.seals

theorem State.putBytes_offStrands (s : State) (key pa : Nat) (bs : List Byte) : OffStrands s (s.putBytes key pa bs) :=
  .same (s.putBytes_core _ _ _) (s.putBytes_strands _ _ _) (s.putBytes_seals _ _ _)

theorem State.drainLine_offStrands (s : State) (es : List WcbEntry) : OffStrands s (s.drainLine es) := by
  unfold State.drainLine
  split
  · exact .refl s
  split
  · exact .same rfl rfl rfl
  · refine OffStrands.trans (OffStrands.foldl _ (fun u e => ?_) _ s) (.same rfl rfl rfl)
    exact u.putBytes_offStrands _ _ _

theorem State.drainAt_offStrands (s : State) (pa n : Nat) : OffStrands s (s.drainAt pa n) := by
  unfold State.drainAt
  extract_lets out lines
  split
  · exact .refl s
  · exact (OffStrands.foldl _ (fun u l => u.drainLine_offStrands _) lines s).trans (.same rfl rfl rfl)

theorem State.footMark_offStrands (s : State) (pa n : Nat) : OffStrands s (s.footMark pa n) := by
  unfold State.footMark
  split
  · exact ((HeadersOnly.refl s).modPlats fun p => p.stale_h 5).offStrands
  · exact .refl s

theorem State.markWrite_offStrands (s : State) (pa n : Nat) : OffStrands s (s.markWrite pa n) := by
  have h := (HeadersOnly.refl s).sealMark (f := s.sealDepth) (pa := pa) (n := n) |>.offStrands.trans (State.footMark_offStrands _ pa n)
  unfold State.markWrite
  dsimp only
  split
  · exact h.trans (.same rfl rfl rfl)
  · exact h

theorem State.scatterBytes_offStrands (s : State) (key : Nat) (l : List (Nat × Byte)) : OffStrands s (s.scatterBytes key l) :=
  OffStrands.foldl _ (fun u _ => ((u.drainAt_offStrands _ _).trans (State.putBytes_offStrands _ _ _ _)).trans
    (State.markWrite_offStrands _ _ _)) _ s

theorem State.flush_offStrands (s : State) (m : BitVec 4) (r : RowMap) : OffStrands s (s.flush m r) := by
  unfold State.flush
  extract_lets s1
  have h : OffStrands s s1 := by
    simp only [s1]
    split
    · exact .refl s
    · exact OffStrands.foldl _ (fun u k => u.scatterBytes_offStrands _ _) _ s
  exact h.trans (.same rfl rfl rfl)

theorem State.freeSeals_offStrands (s : State) (keys : List (Option Nat)) : OffStrands s (s.freeSeals keys) :=
  ⟨rfl, rfl, fun _ hq => (List.mem_filter.mp hq).1⟩

theorem State.unbind_offStrands (s : State) (m : BitVec 4) (r : RowMap) : OffStrands s (s.unbind m r) :=
  ((s.flush_offStrands m r).trans (State.freeSeals_offStrands _ _)).trans (.same rfl rfl rfl)

theorem State.unbindAll_offStrands (s : State) : OffStrands s s.unbindAll := by
  refine OffStrands.foldl _ (fun u m => ?_) _ s
  split
  · exact u.unbind_offStrands m _
  · exact .refl u

end Sys2Proof.Machine
end

section
/-! PROOFS. What the retirement of a team leaves (R126, R162, R220, R237), and O55. -/

namespace Sys2Proof.Machine

/-! ### The plats released (R126) -/

/-- The seals of a team's plats that are not released. -/
def Team.unreleasedSeals (t : Team) : List (Option Nat) := (t.plats.filter fun p => p.released.isNone).flatMap fun p => p.seals

/-- A plat as the retirement of its team releases it. -/
def Plat.releasedAt (p : Plat) (seq : Nat) : Plat := { p.stale 4 with released := some seq }

theorem Plat.releasedAt_h (p : Plat) (seq : Nat) : (p.releasedAt seq).h = p.h := p.stale_h 4

theorem Plat.releasedAt_eq (p : Plat) (seq : Nat) :
    p.releasedAt seq = { p with reason := if p.reason = 0 then 4 else p.reason, released := some seq } := by
  simp only [Plat.releasedAt, Plat.stale, beq_iff_eq]
  split <;> rfl

/-- Whether a plat is one that the retirement of a team releases. -/
def Team.releases (t u : Team) (q : Plat) : Bool := u.launch == t.launch && u.team == t.team && q.released.isNone

theorem Team.releases_iff (t u : Team) (q : Plat) : t.releases u q = true ↔
    u.launch = t.launch ∧ u.team = t.team ∧ q.released = none := by
  simp [Team.releases, and_assoc]

theorem State.releaseAll_eq (s : State) (t : Team) :
    s.releaseAll t = (s.freeSeals t.unreleasedSeals).modPlats t.releases fun q => q.releasedAt t.relSeq := rfl

theorem State.releaseAll_headers (s : State) (t : Team) : HeadersOnly (s.freeSeals t.unreleasedSeals) (s.releaseAll t) := by
  rw [s.releaseAll_eq]
  exact (HeadersOnly.refl _).modPlats fun p => p.releasedAt_h t.relSeq

/-- The release of a team's plats leaves every byte but those of headers. -/
theorem State.releaseAll_homeByte (s : State) (t : Team) {key a : Nat} (h : ¬ s.platMark a) :
    (s.releaseAll t).homeByte key a = s.homeByte key a := (s.releaseAll_headers t).homeByte h

/-- A write that meets no seal makes no plat stale. -/
theorem State.sealMark_unmet (f : Nat) (s : State) (pa n : Nat) (h : ∀ q ∈ s.seals, meets pa n q.pa q.len = false) :
    State.sealMark f s pa n = s := by
  cases f with
  | zero => rfl
  | succ f =>
    have hmet : s.sealsMet pa n = [] := by
      rw [State.sealsMet, List.filter_eq_nil_iff.mpr fun q hq => by simp [h q hq]]
      rfl
    unfold State.sealMark
    rw [hmet]
    rfl

/-- The plats that are changed, each with its team. -/
def State.chosen (s : State) (sel : Team → Plat → Bool) : List (Team × Plat) :=
  s.teams.flatMap fun t => (t.plats.filter fun p => sel t p).map fun p => (t, p)

theorem State.mem_chosen (s : State) (sel : Team → Plat → Bool) (e : Team × Plat) :
    e ∈ s.chosen sel ↔ e.1 ∈ s.teams ∧ e.2 ∈ e.1.plats ∧ sel e.1 e.2 = true := by
  obtain ⟨t, p⟩ := e
  simp only [State.chosen, List.mem_flatMap, List.mem_map, List.mem_filter, Prod.mk.injEq]
  constructor
  · rintro ⟨t, ht, p, hp, rfl, rfl⟩
    exact ⟨ht, hp⟩
  · rintro ⟨ht, hp⟩
    exact ⟨t, ht, p, hp, rfl, rfl⟩

/-- The headers of the changed plats are rewritten one after another. -/
theorem State.setPlats_homeByte (s : State) (sel : Team → Plat → Bool) (f : Plat → Plat) (key a : Nat) :
    (s.setPlats sel f).homeByte key a = ((s.chosen sel).foldl (fun u e => u.platHdr e.1 (f e.2)) s).homeByte key a := by
  rw [State.chosen, List.foldl_flatMap]
  simp only [List.foldl_map, List.foldl_filter]
  rfl

theorem State.hdrPas_chosen (s : State) (sel : Team → Plat → Bool) (a : Nat) (h : a ∈ s.hdrPas sel) :
    ∃ e ∈ s.chosen sel, a = platPa e.1 e.2 := by
  simp only [State.hdrPas, List.mem_flatMap] at h
  obtain ⟨t, ht, ha⟩ := h
  split at ha
  · cases ha
  · obtain ⟨p, hp, rfl⟩ := List.mem_map.mp ha
    obtain ⟨hpt, hsel⟩ := List.mem_filter.mp hp
    exact ⟨(t, p), (s.mem_chosen sel _).mpr ⟨ht, hpt, hsel⟩, rfl⟩

theorem State.putBytes_scrSaved (s : State) (key pa : Nat) (bs : List Byte) (t : Team) :
    (s.putBytes key pa bs).scrSaved t = s.scrSaved t := by
  have hsaved : (s.putBytes key pa bs).savedScr = s.savedScr := by rw [s.putBytes_frame]
  simp only [State.scrSaved, State.cores, State.coreSt, List.any_cons, s.putBytes_others, hsaved]

/-- The bytes of a header written in a scratchpad. -/
theorem State.platHdr_homeByte {s : State} {t : Team} (p : Plat) (h : s.scrSaved t = false) :
    (s.platHdr t p).homeByte 0 (platPa t p + 5) = p.flags ∧ (s.platHdr t p).homeByte 0 (platPa t p + 6) = p.reason := by
  have hpa := platPa_outside t p
  have hl : s.lostAt (platPa t p + 5) = false := s.lostAt_outside (by omega)
  have hb := fun x => s.putBytes_homeByte 0 (platPa t p + 5) x [p.flags, p.reason] hl (Nat.two_pow_pos _)
  rw [State.platHdr, h, if_neg Bool.false_ne_true, hb, hb]
  simp

/-- Where one plat alone is changed and its header lies in the scratchpad, the header holds what the plat now says. -/
theorem State.setPlats_header {s : State} {sel : Team → Plat → Bool} {f : Plat → Plat} {m : Team} {p : Plat}
    (hin : (m, p) ∈ s.chosen sel) (honly : ∀ e ∈ s.chosen sel, e = (m, p)) (hsaved : s.scrSaved m = false) (hf : (f p).h = p.h) :
    (s.setPlats sel f).homeByte 0 (platPa m p + 5) = (f p).flags ∧ (s.setPlats sel f).homeByte 0 (platPa m p + 6) = (f p).reason := by
  rw [s.setPlats_homeByte, s.setPlats_homeByte]
  have hne := List.ne_nil_of_mem hin
  rw [← List.dropLast_concat_getLast hne, List.foldl_append, honly _ (List.getLast_mem hne), List.foldl_cons, List.foldl_nil]
  have hv : ((s.chosen sel).dropLast.foldl (fun u e => u.platHdr e.1 (f e.2)) s).scrSaved m = false := by
    refine List.foldlRecOn (motive := fun u : State => u.scrSaved m = false) _ _ hsaved fun (u : State) hu e he => ?_
    rw [honly e (List.mem_of_mem_dropLast he), State.platHdr, hu, if_neg Bool.false_ne_true, State.putBytes_scrSaved, hu]
  rw [← platPa_congr m hf]
  exact State.platHdr_homeByte (f p) hv

/-- The header of the only plat of a team that is released, where the write of it meets no seal. -/
theorem State.releaseAll_header {s : State} {m : Team} {p : Plat} (hm : m ∈ s.teams) (hp : m.plats = [p]) (hr : p.released = none)
    (hsaved : s.scrSaved m = false) (honly : ∀ u ∈ s.teams, u.launch = m.launch → u.team = m.team → u = m)
    (hseals : ∀ q ∈ s.seals, meets (platPa m p + 5) 2 q.pa q.len = false) :
    (s.releaseAll m).homeByte 0 (platPa m p + 5) = (p.releasedAt m.relSeq).flags
      ∧ (s.releaseAll m).homeByte 0 (platPa m p + 6) = (p.releasedAt m.relSeq).reason := by
  have hmine : ∀ e ∈ (s.freeSeals m.unreleasedSeals).chosen m.releases, e = (m, p) := fun e he => by
    obtain ⟨het, hep, hsel⟩ := (State.mem_chosen _ _ _).mp he
    obtain ⟨hl, ht, -⟩ := (m.releases_iff _ _).mp hsel
    have h1 := honly e.1 het hl ht
    rw [h1, hp, List.mem_singleton] at hep
    exact Prod.ext h1 hep
  have hin : (m, p) ∈ (s.freeSeals m.unreleasedSeals).chosen m.releases :=
    (State.mem_chosen _ _ _).mpr ⟨hm, by simp [hp], (m.releases_iff _ _).mpr ⟨rfl, rfl, hr⟩⟩
  have hset : s.releaseAll m = (s.freeSeals m.unreleasedSeals).setPlats m.releases fun q => q.releasedAt m.relSeq := by
    rw [s.releaseAll_eq, State.modPlats]
    refine List.foldlRecOn (motive := (· = _)) _ _ rfl fun u hu a ha => ?_
    obtain ⟨e, he, rfl⟩ := State.hdrPas_chosen _ _ a ha
    rw [hu, hmine e he]
    refine State.sealMark_unmet _ _ _ _ fun q hq => hseals q ?_
    rw [((HeadersOnly.refl _).setPlats fun p => p.releasedAt_h m.relSeq).seals] at hq
    exact (List.mem_filter.mp hq).1
  rw [hset]
  exact State.setPlats_header hin hmine hsaved (p.releasedAt_h m.relSeq)

/-! ### The strands vacated -/

/-- Strands that no task is bound to any more. -/
def State.vacateAll (s : State) (l : List (Fin 4)) : State := l.foldl (fun u st => u.modStrand st Strand.vacate) s

theorem State.vacateAll_frame (s : State) (l : List (Fin 4)) : s.vacateAll l = { s with strands := (s.vacateAll l).strands } :=
  State.foldl_modStrand_frame (fun st => st) (fun _ => Strand.vacate) l s

theorem State.vacateAll_strand_other (s : State) (l : List (Fin 4)) (st : Fin 4) (h : st ∉ l) : (s.vacateAll l).strand st = s.strand st :=
  State.strand_foldl_modStrand_other (fun st => st) (fun _ => Strand.vacate) l s st fun _ ha hst => h (hst ▸ ha)

theorem State.vacateAll_task (s : State) (l : List (Fin 4)) (st : Fin 4) (h : st ∈ l ∨ (s.strand st).task = none) :
    ((s.vacateAll l).strand st).task = none := by
  induction l generalizing s with
  | nil => exact h.resolve_left List.not_mem_nil
  | cons a l ih =>
    refine ih (s.modStrand a Strand.vacate) ?_
    by_cases hst : st = a
    · right
      rw [hst, State.strand_modStrand_same]
      rfl
    · rw [State.strand_modStrand_other _ _ _ _ hst]
      exact h.imp_left fun hm => (List.mem_cons.mp hm).resolve_left hst

theorem State.dropTeam_eq (s : State) (t : Team) :
    s.dropTeam t = ((s.releaseAll t).vacateAll (s.membersOf t)).dropDeep fun k => k.any fun u => t.holds u := rfl

theorem State.dropTeam_frame (s : State) (t : Team) :
    s.dropTeam t = { s.releaseAll t with strands := (s.dropTeam t).strands
                                         mat := { (s.releaseAll t).mat with deep := (s.dropTeam t).mat.deep }
                                         savedMat := (s.dropTeam t).savedMat } := by
  rw [s.dropTeam_eq, State.vacateAll_frame]
  rfl

theorem State.dropTeam_strand_other (s : State) (t : Team) (st : Fin 4) (h : st ∉ s.membersOf t) :
    (s.dropTeam t).strand st = s.strand st :=
  calc (s.dropTeam t).strand st = ((s.releaseAll t).vacateAll (s.membersOf t)).strand st := rfl
    _ = (s.releaseAll t).strand st := State.vacateAll_strand_other _ _ _ h
    _ = s.strand st := congrArg (fun v : Vector Strand 4 => v.get st) (s.releaseAll_headers t).strands

theorem State.dropTeam_task (s : State) (t : Team) (st : Fin 4) (h : st ∈ s.membersOf t) : ((s.dropTeam t).strand st).task = none :=
  State.vacateAll_task (s.releaseAll t) (s.membersOf t) st (.inl h)

theorem State.dropTeam_core (s : State) (t : Team) : (s.dropTeam t).core = s.core :=
  (congrArg State.core (s.dropTeam_frame t)).trans (s.releaseAll_headers t).core

/-- The seals of a team's plats that were not released are gone. -/
theorem State.dropTeam_seals (s : State) (t : Team) (q : Seal) (h : q ∈ (s.dropTeam t).seals) : some q.key ∉ t.unreleasedSeals := by
  rw [s.dropTeam_frame, (s.releaseAll_headers t).seals, State.freeSeals] at h
  simpa using (List.mem_filter.mp h).2

theorem State.dropTeam_mat (s : State) (t : Team) : (s.dropTeam t).mat = { s.mat with deep := (s.dropTeam t).mat.deep } := by
  have hm := congrArg State.mat (s.dropTeam_frame t)
  rw [(s.releaseAll_headers t).mat] at hm
  exact hm

theorem State.dropTeam_homeByte (s : State) (t : Team) (key a : Nat) :
    (s.dropTeam t).homeByte key a = (s.releaseAll t).homeByte key a := by
  rw [s.dropTeam_frame]
  rfl

/-! ### The matrix state given up (R220, R237) -/

theorem State.disown_offStrands (s : State) (id : BitVec 32) : OffStrands s (s.disown id) := by
  unfold State.disown
  extract_lets mat s1 s2
  have h1 : OffStrands s s1 := by
    simp only [s1]
    split
    · split
      · exact .same rfl rfl rfl
      · exact .refl s
    · exact .refl s
  split
  · have h2 : OffStrands s s2 := h1.trans s1.unbindAll_offStrands
    clear_value s2
    exact h2.trans (.same rfl rfl rfl)
  · exact h1

theorem State.disown_owner {s : State} {id : BitVec 32} (h : s.mat.owner = none ∨ s.mat.owner = some id) :
    (s.disown id).mat.owner = none := by
  unfold State.disown
  extract_lets mat s1 s2
  rw [if_pos]
  · rfl
  · rcases h with h | h <;> simp [h]

/-! ### The team forgotten -/

theorem State.forget_teams (s : State) (t u : Team) (h : u ∈ (s.forget t).teams) : ¬ (u.launch = t.launch ∧ u.team = t.team) := by
  have hkept := (List.mem_filter.mp h).2
  rintro ⟨hl, ht⟩
  simp [hl, ht] at hkept

/-- A core without a team has no seed. -/
theorem State.seedNow_empty {s : State} (h : ∀ u ∈ s.teams, u.core ≠ s.core) : s.seedNow = 0 := by
  have hf : (s.teams.findSome? fun t => if s.here t then (s.launch t.launch).filter fun l => l.hdr.closed && l.second else none) = none :=
    List.findSome?_eq_none_iff.mpr fun u hu => by simp [State.here, h u hu]
  rw [State.seedNow, hf]

theorem State.forget_seed {s : State} {t : Team} (h : ∀ u ∈ (s.forget t).teams, u.core ≠ s.core) : (s.forget t).seed = 0 :=
  State.seedNow_empty h

/-! ### TEAM_RETIRE -/

/-- The state before a retired team is forgotten: with its launch's last team the matrix state is given up (R220). -/
def State.leftBy (s : State) (m : Team) : State := if s.lastHere m then (s.dropTeam m).disown m.launch else s.dropTeam m

theorem State.leftBy_offStrands (s : State) (m : Team) : OffStrands (s.dropTeam m) (s.leftBy m) := by
  unfold State.leftBy
  split
  · exact State.disown_offStrands _ _
  · exact .refl _

/-- What a retired team leaves of the strands is what the retirement of its plats and its strands leaves. -/
theorem State.leftBy_strand (s : State) (m : Team) (st : Fin 4) : ((s.leftBy m).forget m).strand st = (s.dropTeam m).strand st :=
  congrArg (fun v : Vector Strand 4 => v.get st) (s.leftBy_offStrands m).strands

theorem State.leftBy_core (s : State) (m : Team) : (s.leftBy m).core = s.core :=
  (s.leftBy_offStrands m).core.trans (s.dropTeam_core m)

/-- With the last team of its launch on the core the matrix state has no owner (R220). -/
theorem State.leftBy_owner {s : State} {m : Team} (h : s.lastHere m = true) (ho : s.mat.owner = none ∨ s.mat.owner = some m.launch) :
    (s.leftBy m).mat.owner = none := by
  rw [State.leftBy, if_pos h]
  refine State.disown_owner ?_
  rw [s.dropTeam_mat]
  exact ho

/-- With another team of the launch on the core, the matrix state stays but for its deep parts. -/
theorem State.leftBy_mat {s : State} {m : Team} (h : s.lastHere m = false) :
    (s.leftBy m).mat = { s.mat with deep := (s.leftBy m).mat.deep } := by
  rw [State.leftBy, h]
  exact s.dropTeam_mat m

/-- With another team of the launch on the core, no byte changes but in the release of the plats. -/
theorem State.leftBy_homeByte {s : State} {m : Team} (h : s.lastHere m = false) (key a : Nat) :
    ((s.leftBy m).forget m).homeByte key a = (s.releaseAll m).homeByte key a := by
  rw [← s.dropTeam_homeByte, State.leftBy, h]
  rfl

/-- What TEAM_RETIRE does with a team of the core that may retire. -/
theorem State.teamRetire_exec {s : State} {m : Team} {id : BitVec 32} {team : W64}
    (hm : (s.teams.find? fun t => t.launch == id && t.team == team) = some m) (hid : m.launch = id) (hc : m.core = s.core)
    (hr : s.mayRetire m = true)
    (hl : s.lastHere m = true → (s.mat.owner = none ∨ s.mat.owner = some id) ∧ s.flushHeld id = false) :
    exec (.teamRetire id team) s = .next ((s.leftBy m).forget m) := by
  have hgo : (!s.here m || !s.mayRetire m) = false := by simp [State.here, hc, hr]
  rw [exec_teamRetire, execTeamRetire, hm]
  dsimp only
  rw [hgo, if_neg Bool.false_ne_true, State.leftBy, hid]
  cases hlast : s.lastHere m with
  | false => rfl
  | true =>
    obtain ⟨howner, hheld⟩ := hl hlast
    have hmine : (s.mat.owner.any fun l => l != id) = false := by
      rcases howner with h | h <;> simp [h]
    rw [hmine, hheld]
    rfl

/-- Settles O55. The fold that seats a team changes each of its strands once, from the entry state of R270 (`State.seat_strand`). A
retirement writes no more than headers of plats (`HeadersOnly`), and unbinding the row maps leaves the strands (`OffStrands`). -/
theorem teamResults : Obligations.TeamResults := by
  unfold Obligations.TeamResults
  intro s l team hl
  refine ⟨fun p strands base s1 hp ho hf hr hsnap hbound => ?_, rfl, fun m hm hc hmay hlast => ?_⟩
  · obtain ⟨snapshot, hs⟩ := Option.ne_none_iff_exists'.mp hsnap
    obtain ⟨bound, hb⟩ := Option.ne_none_iff_exists'.mp hbound
    obtain ⟨hn, hready⟩ := State.readyFor_some hr
    have hl1 : s1.launch l.id = some l := by rw [State.launch, hready.launches]; exact hl
    refine ⟨_, _, State.dispatch_exec hl hp ho hf hr hs hb, s1.withTeam_placed .., rfl, rfl, hready.core, rfl, rfl, s1.withTeam_mem ..,
      ⟨_, s1.withTeam_launch _ _ _ _ _ _ (fun _ => rfl) hl1, rfl, rfl, rfl⟩, fun st hst => s1.withTeam_strand_other _ _ _ _ _ _ st hst,
      fun hclosed h2 hall => ?_, fun ix hix => ?_⟩
    · exact s1.withTeam_seed _ _ _ _ _ _ (fun _ => rfl) hl1 hclosed h2 fun u hu huc => hall u hu (huc.trans hready.core)
    · have hy := s1.withTeam_entry l p team strands base (fun m => m.dispatched snapshot bound team.toNat s.core s.cycle) hn ix hix
      have hlc : (l.place team s1.core base ix).lc = if l.hdr.det then team.toNat % l.hdr.c else s.core := by
        rw [← hready.core]
        rfl
      dsimp only
      rw [hy]
      refine ⟨rfl, rfl, rfl, Strand.atEntry_present _ (l.place team s1.core base ix) _ _,
        Strand.atEntry_absent _ (l.place team s1.core base ix) _ _, fun k r => ?_, rfl, rfl, rfl, congrArg (BitVec.ofNat 64) hlc,
        rfl, rfl, rfl, rfl, rfl, tvec_aligned _, ?_⟩
      · rw [State.readX, State.stream, hy]
        exact Strand.atEntry_readX ..
      · and_intros <;> rfl
  · have hid := List.find?_some hm
    simp only [Bool.and_eq_true, beq_iff_eq] at hid
    obtain ⟨hmid, hmteam⟩ := hid
    have hin := List.mem_of_find?_eq_some hm
    refine ⟨_, State.teamRetire_exec hm hmid hc hmay hlast, fun u hu => ?_, fun st hst => ?_, fun st hst => ?_, fun q hq => ?_,
      fun hlh => State.leftBy_owner hlh (hmid ▸ (hlast hlh).1), fun hno => State.forget_seed fun u hu => s.leftBy_core m ▸ hno u hu,
      fun hlh => ⟨State.leftBy_mat hlh, fun key a ha => ?_, fun p hp hr hsaved honly hseals => ?_⟩⟩
    · rw [← hmid, ← hmteam]
      exact State.forget_teams _ m u hu
    · rw [s.leftBy_strand]
      exact s.dropTeam_task m st hst
    · rw [s.leftBy_strand]
      exact s.dropTeam_strand_other m st hst
    · exact s.dropTeam_seals m q ((s.leftBy_offStrands m).seals q hq)
    · rw [State.leftBy_homeByte hlh, s.releaseAll_homeByte m ha]
    · have hone : ∀ u ∈ s.teams, u.launch = m.launch → u.team = m.team → u = m :=
        fun u hu h1 h2 => honly u hu (h1.trans hmid) (h2.trans hmteam)
      have hheader := State.releaseAll_header hin hp hr hsaved hone hseals
      rw [p.releasedAt_eq, ← State.leftBy_homeByte hlh, ← State.leftBy_homeByte hlh] at hheader
      exact hheader

end Sys2Proof.Machine
end

section
/-! PROOFS. A trap that a stream takes at its handler: what the strand then holds (R338, R342). -/

namespace Sys2Proof.Machine

/-! ### Streams stopped for a trap -/

@[simp] theorem Stream.leave_x (t : Stream) : t.leave.x = t.x := by
  unfold Stream.leave Stream.backOff
  cases t.status <;> rfl

@[simp] theorem Stream.leave_sfctl (t : Stream) : t.leave.sfctl = t.sfctl := by
  unfold Stream.leave Stream.backOff
  cases t.status <;> rfl

/-- A stopped stream stands at its instruction, or behind an access that has left it (R338, step 2). -/
theorem Stream.leave_pc (t : Stream) :
    t.leave.pc = match t.status with
      | .stackWait _ _ next => next
      | _ => t.pc := by
  unfold Stream.leave Stream.backOff
  cases t.status <;> rfl

/-! ### The trap registers and the handler -/

/-- The fields of `TSTATUS` at a trap's entry (R342). -/
theorem entryTstatus_bits (x : Strand) (k : StreamId) (vec fwd : Bool) :
    (entryTstatus x k vec fwd).getLsbD 0 = true ∧ (entryTstatus x k vec fwd).getLsbD 1 = (k == .A)
      ∧ (entryTstatus x k vec fwd).getLsbD 2 = x.a.over ∧ (entryTstatus x k vec fwd).getLsbD 3 = x.e.over
      ∧ (entryTstatus x k vec fwd).getLsbD 4 = vec ∧ (entryTstatus x k vec fwd).getLsbD 5 = fwd := by
  unfold entryTstatus
  generalize x.a.over = aOver
  generalize x.e.over = eOver
  revert aOver eOver vec fwd
  cases k <;> decide

/-- A strand with the trap registers written and then put at its handler is what R338 says. -/
theorem Strand.atHandler_trapRegs (x : Strand) (k : StreamId) (cause : Byte) (tpc tval : W64) (vec fwd : Bool) (now : Nat) :
    AtHandler x ((x.trapRegs k cause tpc tval vec fwd).atHandler k now) k cause tpc tval vec fwd := by
  obtain ⟨hin, hstream, haOver, heOver, hvec, hfwd⟩ := entryTstatus_bits x k vec fwd
  refine { cause_ := rfl, tpc_ := rfl, tval_ := rfl, inh := hin, stream := hstream, aOver := haOver, eOver := heOver,
           vector := hvec, forward := hfwd, pc := ?_, runs := ?_, regs := ?_, partner := ?_,
           empty := ⟨rfl, fun q => Vector.getElem_replicate q.isLt, rfl, rfl, rfl⟩,
           vectors := ⟨rfl, rfl, rfl, rfl, rfl, rfl, rfl⟩, grant := ⟨rfl, rfl, rfl, rfl, rfl⟩,
           special := ⟨rfl, rfl, rfl, rfl, rfl, rfl, rfl, rfl⟩ }
  · cases k <;> rfl
  · cases k <;> rfl
  · cases k <;> exact ⟨x.a.leave_x, x.e.leave_x, x.a.leave_sfctl, x.e.leave_sfctl⟩
  · cases k
    · exact x.e.leave_pc
    · exact x.a.leave_pc

/-! ### Traps taken -/

/-- Where a strand can enter its handler, taking an exception puts it there. -/
theorem State.enter_strand {s : State} {st : Fin 4} {lines : List Nat} (h : CanEnter s st lines) (k : StreamId) (cause : Byte)
    (tpc tval : W64) (vec fwd : Bool) (resume : W64) :
    (s.enter st k cause tpc tval vec fwd resume).strand st =
      ((s.strand st).trapRegs k cause tpc tval vec fwd).atHandler k s.tick := by
  have hin : (lines.all fun pa => s.inPart (s.strand st).acc pa) = true := List.all_eq_true.mpr h.inside
  have hok : ((s.strand st).tstatus.getLsbD 0 || (s.strand st).tvec == 0 || (s.strand st).tframe == 0
      || (s.strand st).tframe.toNat % 64 != 0) = false := by
    rw [h.outside, beq_false_of_ne h.vec, beq_false_of_ne h.frame, h.aligned]
    rfl
  simp only [State.enter, hok, h.xlate, hin, Bool.not_true, Bool.false_eq_true, if_false, State.strand_modStrand_same]

/-- No `POISON` comes before a trap of a strand that can trap (R341). -/
theorem CanTrap.not_poisonFirst {s : State} {st : Fin 4} {lines : List Nat} (h : CanTrap s st lines) (k : StreamId) (cause : Byte) :
    s.poisonFirst st k cause = false := by
  obtain ⟨ha, he⟩ := h.clean
  have hp : (s.stream st k.other).poisoned = false := by
    cases k
    · exact he
    · exact ha
  rw [State.poisonFirst, hp, Bool.and_false]

/-- A scalar instruction of the E-stream waits for no older entry once the queue is empty (R280); one of the A-stream never does. -/
theorem State.viq_not_ahead {s : State} {st : Fin 4} {k : StreamId} (hq : k = .E → (s.strand st).viq = []) :
    (k == .E && !(s.strand st).viq.isEmpty) = false := by
  cases k with
  | A => rfl
  | E => rw [hq rfl]; rfl

/-- A trap of a scalar instruction whose cause is not the supervisor's, once the queue of the E-stream is empty (R280, R338). -/
theorem State.trap_atHandler {s : State} {st : Fin 4} {k : StreamId} {lines : List Nat} (h : CanTrap s st lines)
    (hq : k = .E → (s.strand st).viq = []) {cause : Byte} (hc : supervisorCause cause = false) (tval : W64) :
    AtHandler (s.strand st) ((s.trap st k cause tval).strand st) k cause (s.stream st k).pc tval false false := by
  have ht : s.trap st k cause tval = s.enter st k cause (s.stream st k).pc tval false false (s.stream st k).pc := by
    simp [State.trap, State.trapTo, State.viq_not_ahead hq, h.not_poisonFirst, hc]
  rw [ht, State.enter_strand h.toCanEnter]
  exact Strand.atHandler_trapRegs ..

end Sys2Proof.Machine
end

section
/-! PROOFS. Coefficient images (R49), what `COEFLD` leaves (R214), and O46. -/

namespace Sys2Proof.Machine

/-! ### Translated bytes -/

theorem length_of_mapM_ok {ε α β : Type} {f : α → Except ε β} {l : List α} {out : List β} (h : l.mapM f = .ok out) :
    out.length = l.length := by
  induction l generalizing out with
  | nil => cases h; rfl
  | cons a l ih =>
    rw [List.mapM_cons] at h
    cases hb : f a with
    | error e => rw [hb] at h; cases h
    | ok b =>
      cases hr : l.mapM f with
      | error e => rw [hb, hr] at h; cases h
      | ok bs => rw [hb, hr] at h; cases h; simp [ih hr]

theorem State.xlateBytes_length {s : State} {a : Acc} {va : W64} {n : Nat} {r w : Bool} {pas : List Nat}
    (h : s.xlateBytes a va n r w = .ok pas) : pas.length = n :=
  (length_of_mapM_ok h).trans List.length_range

/-! ### Table images -/

/-- The image of table j in a load's bytes (R49, R214). -/
def coefImage (b : List Byte) (j : Nat) : List Byte := (b.drop (tableLen * j)).take tableLen

/-- The conditions of R214, step 4, on an image. -/
def CoefGood (img : List Byte) : Prop :=
  hdrNat img 0xF 1 < 4 ∧ (∀ i, i < 16 → hdrNat img (0x10 + i) 1 = 0) ∧ hdrNat img 0xE 1 ≤ 7 ∧ hdrNat img 0xC 2 ≤ 256

theorem CoefGood.coefBad {img : List Byte} (h : CoefGood img) : coefBad img = none := by
  obtain ⟨hflags, hzero, hd, hn⟩ := h
  have hf : ((List.range 16).find? fun i => hdrNat img (0x10 + i) 1 != 0) = none := by
    rw [List.find?_eq_none]
    intro i hi
    simp [hzero i (List.mem_range.mp hi)]
  simp [Machine.coefBad, hf, Nat.not_le.mpr hflags, Nat.not_lt.mpr hd, Nat.not_lt.mpr hn]

theorem coefImages_both {b : List Byte} (h : b.length = 2 * tableLen) :
    coefImages 2 b = [(0, coefImage b 0), (1, coefImage b 1)] := by
  have h1 : coefImage b 1 = b.drop tableLen := List.take_of_length_le (by simp [h]; omega)
  rw [h1]
  rfl

theorem coefImages_one {t : Nat} (ht : t ≠ 2) {b : List Byte} (h : b.length = tableLen) :
    coefImages t b = [(fin 2 t, coefImage b 0)] := by
  have h0 : coefImage b 0 = b := List.take_of_length_le h.le
  simp [coefImages, ht, h0]

/-- Every image of a load passes where table 0's and, under t = 2, table 1's do. -/
theorem coefImages_good {t : Nat} {b : List Byte} (h : b.length = if t = 2 then 2 * tableLen else tableLen)
    (h0 : CoefGood (coefImage b 0)) (h1 : t = 2 → CoefGood (coefImage b 1)) : ∀ e ∈ coefImages t b, CoefGood e.2 := by
  by_cases ht : t = 2
  · subst ht
    rw [coefImages_both h, List.forall_mem_cons, List.forall_mem_singleton]
    exact ⟨h0, h1 rfl⟩
  · rw [coefImages_one ht (h.trans (if_neg ht)), List.forall_mem_singleton]
    exact h0

/-- What a table reads that has been loaded from an image: the image's bytes, and 0 beyond them. -/
theorem get_run_coefImage (b : List Byte) (j a : Nat) :
    (Tab.run 0 (coefImage b j)).get a = if a < tableLen then b.getD (tableLen * j + a) 0 else 0 := by
  rw [Tab.get_run, if_pos (Nat.zero_le a), Nat.sub_zero, coefImage, List.getD_eq_getElem?_getD, List.getElem?_take]
  split
  · rw [List.getElem?_drop, List.getD_eq_getElem?_getD]
  · rfl

/-! ### Tables replaced -/

/-- Coefficient memory with tables replaced by images. -/
def loadTables (c : Vector CoefTable 2) (l : List (Fin 2 × List Byte)) : Vector CoefTable 2 :=
  l.foldl (fun c e => c.set e.1.val (Tab.run 0 e.2) e.1.isLt) c

theorem State.setTables_eq (s : State) (l : List (Fin 2 × List Byte)) : s.setTables l = { s with coef := loadTables s.coef l } := by
  induction l generalizing s with
  | nil => rfl
  | cons e l ih => exact ih _

theorem loadTables_both_get (c : Vector CoefTable 2) (b : List Byte) (j : Fin 2) :
    (loadTables c [(0, coefImage b 0), (1, coefImage b 1)]).get j = Tab.run 0 (coefImage b j) := by
  match j with
  | 0 => exact (vec_get_set_other _ 1 (by decide) 0 _ (by decide)).trans (vec_get_set_fin c 0 _)
  | 1 => exact vec_get_set_fin _ 1 _

theorem loadTables_one_get (c : Vector CoefTable 2) (i j : Fin 2) (img : List Byte) :
    (loadTables c [(i, img)]).get j = if j = i then Tab.run 0 img else c.get j := by
  split
  · next h => subst h; exact vec_get_set_fin c j _
  · next h => exact vec_get_set_other c i.val i.isLt j _ fun e => h (Fin.ext e.symm)

/-- The tables after a load: both under t = 2, else the named one, with the other left. -/
theorem loadTables_coefImages_get (c : Vector CoefTable 2) {t : Nat} (ht : t ≤ 2) {b : List Byte}
    (h : b.length = if t = 2 then 2 * tableLen else tableLen) (j : Fin 2) :
    (loadTables c (coefImages t b)).get j =
      if t = 2 then Tab.run 0 (coefImage b j) else if j.val = t then Tab.run 0 (coefImage b 0) else c.get j := by
  by_cases h2 : t = 2
  · subst h2
    rw [coefImages_both h, loadTables_both_get, if_pos rfl]
  · have hj : j = fin 2 t ↔ j.val = t := by
      rw [Fin.ext_iff, fin, Fin.val_ofNat, Nat.mod_eq_of_lt (by omega)]
    rw [coefImages_one h2 (h.trans (if_neg h2)), loadTables_one_get, if_neg h2]
    simp only [hj]

/-- The tables that a `COEFLD` of a strand starts from: those that a launch on the core uses (R28; log 113). -/
def State.coefBase (s : State) (st : Fin 4) : Vector CoefTable 2 :=
  if s.residents.any fun i => s.coefFor.contains i then s.coef else s.tablesOf (s.strand st)

/-- A `COEFLD` that completes changes coefficient memory and its own stream. -/
theorem State.coefLoaded_retire (s : State) (st : Fin 4) (k : StreamId) (images : List (Fin 2 × List Byte)) :
    (s.coefLoaded st images).retire st k =
      { s.goto st k (s.nextPc st k) with
        coef := loadTables (s.coefBase st) images
        coefFor := if (s.strand st).task.isNone then s.coefFor else s.residents } := by
  rw [State.coefLoaded, State.setTables_eq]
  rfl

/-! ### COEFLD (R214) -/

section
variable {s : State} {st : Fin 4} {k : StreamId} {t : BitVec 5} {rs : Reg}

/-- A `COEFLD` that no check of R214 stops replaces tables by the images that it reads. -/
theorem execCoefld_loads {pas : List Nat} (ha : s.cur.agent = .stream st k) (hq : k = .E → (s.strand st).viq = [])
    (hdet : (s.strand st).det = false) (hal : (s.readX st k rs).toNat % 64 = 0)
    (hx : s.xlateBytes (s.acc st) (s.readX st k rs) (if t = 2 then 2 * tableLen else tableLen) true false = .ok pas)
    (hheld : s.anyHeld pas = false) (hpo : ∀ a ∈ pas, s.poisonedFor (some (st, k)) a = false)
    (hgood : ∀ e ∈ coefImages t.toNat (s.bytesAt (some (st, k)) (s.slotKey (s.acc st).key) pas), CoefGood e.2) :
    execCoefld t rs s =
      .next ((s.coefLoaded st (coefImages t.toNat (s.bytesAt (some (st, k)) (s.slotKey (s.acc st).key) pas))).retire st k) := by
  have hclean : (pas.zipIdx.find? fun e => s.poisonedFor (some (st, k)) e.1) = none := by
    rw [List.find?_eq_none]
    intro e he
    simp [hpo e.1 (List.fst_mem_of_mem_zipIdx he)]
  have hpass : (coefImages t.toNat (s.bytesAt (some (st, k)) (s.slotKey (s.acc st).key) pas)).findSome?
      (fun e => coefBad e.2) = none :=
    List.findSome?_eq_none_iff.mpr fun e he => (hgood e he).coefBad
  rw [execCoefld, onStream_eq ha]
  simp only [hdet, hal, State.viq_not_ahead hq, beq_iff_eq, hx, hheld, hclean, hpass, bne_self_eq_false, Bool.false_eq_true, if_false]

/-- In a D-mode launch `COEFLD` traps `DMODE_ILLEGAL`; the `TVAL` is free (log 21). -/
theorem execCoefld_det (ha : s.cur.agent = .stream st k) (hdet : (s.strand st).det = true) :
    execCoefld t rs s = .next (s.trap st k cDmode (Config.openTval s.tick)) := by
  rw [execCoefld, onStream_eq ha]
  simp only [hdet, if_true]

end

/-- Settles O46. Outside D-mode the bytes read are as long as the tables that they replace, so that the images of the load are those of the
statement; in D-mode the trap is one that the strand takes at its handler. -/
theorem coefficientLoads : Obligations.CoefficientLoads := by
  unfold Obligations.CoefficientLoads
  intro s st k t rs pas ha hq ht n b image good
  refine ⟨fun hdet hal hx hheld hpo hg0 hg1 => ?_, fun lines hdet hct =>
    ⟨_, _, execCoefld_det ha hdet, State.trap_atHandler hct hq rfl _⟩⟩
  have h2 : t = 2 ↔ t.toNat = 2 := BitVec.toNat_inj.symm
  have hlen : b.length = if t.toNat = 2 then 2 * tableLen else tableLen := by
    rw [← if_congr h2 rfl rfl]
    exact (List.length_map _).trans (State.xlateBytes_length hx)
  have hgood := coefImages_good hlen hg0 fun h => hg1 (h2.mpr h)
  refine ⟨_, (execCoefld_loads ha hq hdet hal hx hheld hpo hgood).trans (congrArg _ (s.coefLoaded_retire ..)), rfl,
    by simp only [Option.isNone_iff_eq_none], fun j a => ?_⟩
  dsimp only
  rw [loadTables_coefImages_get _ ht hlen, if_congr h2 rfl rfl]
  split
  · exact get_run_coefImage b j a
  · split
    · exact (get_run_coefImage b 0 a).trans (by rw [Nat.mul_zero, Nat.zero_add]; rfl)
    · rfl

end Sys2Proof.Machine
end

section
/-! PROOFS. The fields of packed words (R54, R58, R62 to R64): when a word is the one that a format packs. -/

namespace Sys2Proof

/-! ### Bits of joined bits -/

section
variable {m k s n : Nat}

/-- Joined bits are the bits of a word where each part is its field. Its `no_index` lets it meet words whose width is written as a
number. -/
theorem append_eq_iff (hi : BitVec m) (lo : BitVec k) (x : BitVec (m + k)) :
    @Eq (no_index (BitVec (m + k))) (@HAppend.hAppend _ _ (no_index (BitVec (m + k))) _ hi lo) x
      ↔ hi = x.extractLsb' k m ∧ lo = x.extractLsb' 0 k := by
  constructor
  · rintro rfl
    rw [BitVec.extractLsb'_append_eq_of_le k.le_refl, BitVec.extractLsb'_append_eq_of_add_le (Nat.zero_add k).le,
      Nat.sub_self, BitVec.extractLsb'_eq_self, BitVec.extractLsb'_eq_self]
    exact ⟨rfl, rfl⟩
  · rintro ⟨rfl, rfl⟩
    exact BitVec.extractLsb'_append_extractLsb'

/-- A field of a field. -/
theorem extract_extract (x : BitVec k) {s' n' : Nat} (h : s' + n' ≤ n) :
    (x.extractLsb' s n).extractLsb' s' n' = x.extractLsb' (s + s') n' := by
  ext i hi
  have : s' + i < n := by omega
  simp [this, Nat.add_assoc]

theorem bitOf_eq_iff {w : W32} {x : Bool} : bitOf w s = x ↔ BitVec.ofBool x = w.extractLsb' s 1 := by
  have h : ∀ (y : BitVec 1) (x : Bool), (y == 1#1) = x ↔ BitVec.ofBool x = y := by decide
  exact h ..

theorem bitsOf_eq_iff {w : W32} {f : BitVec n} : bitsOf w s n = f.toNat ↔ f = w.extractLsb' s n :=
  BitVec.toNat_inj.trans eq_comm

theorem bitsOf_eq_zero_iff {w : W32} : bitsOf w s n = 0 ↔ 0#n = w.extractLsb' s n := by
  rw [← bitsOf_eq_iff, BitVec.toNat_zero]

end

/-! ### Word 0 -/

section
variable {f9 : BitVec 9} {b a rd : Reg} {f3 : BitVec 3} {imm : BitVec 11} {off : BitVec 19} {o : VOp} {maj : BitVec 6} {l : BitVec 2}
  {w : W32}

theorem packS_eq_iff : packS f9 b a rd maj l = w ↔
    f9 = fieldF9 w ∧ b = fieldRs2 w ∧ a = fieldRs1 w ∧ rd = fieldRd w ∧ maj = fieldMaj w ∧ l = fieldL w := by
  simp (disch := decide) only [packS, append_eq_iff, extract_extract, fieldF9, fieldRs2, fieldRs1, fieldRd, fieldMaj, fieldL, and_assoc]

theorem packI_eq_iff : packI imm f3 a rd maj l = w ↔
    imm = fieldImm w ∧ f3 = fieldF3 w ∧ a = fieldRs1 w ∧ rd = fieldRd w ∧ maj = fieldMaj w ∧ l = fieldL w := by
  simp (disch := decide) only [packI, append_eq_iff, extract_extract, fieldImm, fieldF3, fieldRs1, fieldRd, fieldMaj, fieldL, and_assoc]

theorem packJ_eq_iff : packJ off rd maj l = w ↔ off = fieldOff w ∧ rd = fieldRd w ∧ maj = fieldMaj w ∧ l = fieldL w := by
  simp (disch := decide) only [packJ, append_eq_iff, extract_extract, fieldOff, fieldRd, fieldMaj, fieldL, and_assoc]

theorem packV_eq_iff : packV f3 o maj l = w ↔ f3 = fieldVF3 w ∧ o = fieldVOp w ∧ maj = fieldMaj w ∧ l = fieldL w := by
  obtain ⟨vd, vs1, vs2⟩ := o
  simp (disch := decide) only [packV, append_eq_iff, extract_extract, fieldVF3, fieldVOp, fieldMaj, fieldL, VOp.mk.injEq, and_assoc]
  constructor
  · rintro ⟨h3, h2, h1, hd, h⟩
    exact ⟨h3, hd, h1, h2, h⟩
  · rintro ⟨h3, hd, h1, h2, h⟩
    exact ⟨h3, h2, h1, hd, h⟩

end

/-! ### F9 (R62) -/

section
variable {v : BitVec 3} {f : BitVec 6} {w : W32} {x : Bool}

theorem f9Of_eq_iff : f9Of v f = fieldF9 w ↔ v = fieldVar w ∧ f = fieldFunc w := by
  simp (disch := decide) only [f9Of, append_eq_iff, extract_extract, fieldF9, fieldVar, fieldFunc]

theorem varBit_eq_iff : varBit x = fieldVar w ↔ bitsOf w 30 2 = 0 ∧ bitOf w 29 = x := by
  rw [bitsOf_eq_zero_iff, bitOf_eq_iff]
  simp (disch := decide) only [varBit, append_eq_iff, extract_extract, fieldVar]

theorem f9Salu_eq_iff {f : BitVec 5} :
    f9Salu x f = fieldF9 w ↔ bitOf w 31 = x ∧ bitsOf w 28 3 = 0 ∧ bitsOf w 23 5 = f.toNat := by
  rw [bitsOf_eq_zero_iff, bitsOf_eq_iff, bitOf_eq_iff]
  simp (disch := decide) only [f9Salu, append_eq_iff, extract_extract, fieldF9, and_assoc]

theorem Scope.bits_eq_iff {c : Scope} {b : BitVec 2} : c.bits = b ↔ Scope.of b = c := by
  revert b
  cases c <;> decide

theorem Order.bits_eq_iff {o : Order} {b : BitVec 2} : o.bits = b ↔ Order.of b = o := by
  revert b
  cases o <;> decide

theorem f9Atom_eq_iff {c : Scope} {o : Order} {f : BitVec 4} : f9Atom c o x f = fieldF9 w ↔
    Scope.of (w.extractLsb' 30 2) = c ∧ Order.of (w.extractLsb' 28 2) = o ∧ bitOf w 27 = x ∧ bitsOf w 23 4 = f.toNat := by
  rw [bitsOf_eq_iff, bitOf_eq_iff, ← Scope.bits_eq_iff, ← Order.bits_eq_iff]
  simp (disch := decide) only [f9Atom, append_eq_iff, extract_extract, fieldF9, and_assoc]

theorem varWait_eq_iff {c : Scope} : varWait c x = fieldVar w ↔ Scope.of (w.extractLsb' 30 2) = c ∧ bitOf w 29 = x := by
  rw [bitOf_eq_iff, ← Scope.bits_eq_iff]
  simp (disch := decide) only [varWait, append_eq_iff, extract_extract, fieldVar]

end

/-! ### The extended words (R63, R64) -/

theorem packX_eq_iff {x : Ext} {w1 w2 : W32} : packX1 x = w1 ∧ packX2 x = w2 ↔
    x = fieldExt w1 w2 ∧ bitOf w1 31 = false ∧ bitsOf w2 29 3 = 0 ∧ bitOf w2 16 = false := by
  obtain ⟨⟨_, _, _⟩, ⟨_, _, _⟩, _, _, _, _, _, _, _, _, _, _, _, _⟩ := x
  rw [bitsOf_eq_zero_iff]
  simp (disch := decide) only [packX1, packX2, append_eq_iff, extract_extract, fieldExt, Ext.mk.injEq, Rep.mk.injEq, bitOf_eq_iff,
    eq_comm (b := bitOf _ _)]
  tauto

end Sys2Proof
end

section
/-! PROOFS. The words of one instruction by their parts (R54), the checks of R68, and what it takes that words decode. -/

namespace Sys2Proof

/-! ### Parts of words -/

/-- The list that the parts of an instruction's words stand for. -/
def Words.toList (w : Words) : List W32 :=
  match w.ext, w.lit with
  | false, none => [w.w0]
  | false, some d => [w.w0, d.extractLsb' 0 32, d.extractLsb' 32 32]
  | true, none => [w.w0, w.w1, w.w2]
  | true, some d => [w.w0, w.w1, w.w2, d.extractLsb' 0 32, d.extractLsb' 32 32]

/-- The length field of an instruction with these parts (R54). -/
def Words.len (w : Words) : BitVec 2 :=
  match w.ext, w.lit with
  | false, none => 0
  | false, some _ => 1
  | true, none => 2
  | true, some _ => 3

/-- The parts are those of a list: the length field says which of them there are, and extended words that are absent are zero. -/
structure Words.Proper (w : Words) : Prop where
  len : w.len = fieldL w.w0
  pad : w.ext = false → w.w1 = 0 ∧ w.w2 = 0

theorem splitWords_toList {w : Words} (hw : w.Proper) : splitWords w.toList = some w := by
  obtain ⟨w0, w1, w2, ext, lit⟩ := w
  obtain ⟨hl, hp⟩ := hw
  dsimp only [Words.len] at hl hp
  cases ext <;> cases lit
  · obtain ⟨rfl, rfl⟩ := hp rfl
    simp [splitWords, Words.toList, ← hl]
  · obtain ⟨rfl, rfl⟩ := hp rfl
    simp [splitWords, Words.toList, ← hl, BitVec.extractLsb'_append_extractLsb' (w := 32) (len := 32)]
  · simp [splitWords, Words.toList, ← hl]
  · simp [splitWords, Words.toList, ← hl, BitVec.extractLsb'_append_extractLsb' (w := 32) (len := 32)]

theorem toList_of_splitWords {ws : List W32} {w : Words} (h : splitWords ws = some w) : w.toList = ws ∧ w.Proper := by
  have lit : ∀ (hi lo : W32), (hi ++ lo).extractLsb' 0 32 = lo ∧ (hi ++ lo).extractLsb' 32 32 = hi := fun hi lo =>
    ⟨((append_eq_iff hi lo _).mp rfl).2.symm, ((append_eq_iff hi lo _).mp rfl).1.symm⟩
  unfold splitWords at h
  split at h
  · split at h
    · next h0 => cases h; exact ⟨rfl, (eq_of_beq h0).symm, fun _ => ⟨rfl, rfl⟩⟩
    · cases h
  · split at h
    · next h1 => cases h; exact ⟨by simp [Words.toList, lit], (eq_of_beq h1).symm, fun _ => ⟨rfl, rfl⟩⟩
    · split at h
      · next h2 => cases h; exact ⟨rfl, (eq_of_beq h2).symm, nofun⟩
      · cases h
  · split at h
    · next h3 => cases h; exact ⟨by simp [Words.toList, lit], (eq_of_beq h3).symm, nofun⟩
    · cases h
  · cases h

/-! ### The checks of R68 -/

theorem verdict_eq_ok {α : Type} {op len res comb spec : Bool} {i j : α} :
    verdict op len res comb spec j = .ok i ↔ op = true ∧ len = true ∧ res = true ∧ comb = true ∧ spec = true ∧ j = i := by
  cases op <;> cases len <;> cases res <;> cases comb <;> cases spec <;> simp [verdict]

/-- The decoder of a major opcode: the cases of `decode`. -/
noncomputable def decodeMajor (maj : Nat) (w : Words) : Except Illegal Instr :=
  match maj with
  | 0x01 => decodeSalu w
  | 0x02 => decodeSalui w
  | 0x03 => decodeSshi w
  | 0x04 => decodeSfp w
  | 0x05 => decodeLd w
  | 0x06 => decodeSt w
  | 0x07 => decodeAtom w
  | 0x08 => decodeBr w
  | 0x09 => decodeJ w
  | 0x0A => decodeJr w
  | 0x0B => decodeQueue w
  | 0x0C => decodeSysrw w
  | 0x0D => decodeSys w
  | 0x0E => decodeEng w
  | 0x0F => decodePlat w
  | 0x10 => decodeSetl w
  | 0x1D => decodeSparse w
  | _ =>
    match decodeForm maj w with
    | .error e => .error e
    | .ok f =>
      match formInstr w.ext f with
      | some i => .ok i
      | none => unassigned

theorem decode_toList {w : Words} (hw : w.Proper) (h0 : w.w0 ≠ 0) : decode w.toList = decodeMajor (fieldMaj w.w0).toNat w := by
  rw [decode, splitWords_toList hw]
  exact if_neg fun h => h0 (eq_of_beq h)

theorem decode_eq_ok {ws : List W32} {i : Instr} :
    decode ws = .ok i ↔ ∃ w : Words, w.toList = ws ∧ w.Proper ∧ decodeMajor (fieldMaj w.w0).toNat w = .ok i := by
  constructor
  · intro h
    cases hs : splitWords ws with
    | none => simp [decode, hs] at h
    | some w =>
      obtain ⟨rfl, hw⟩ := toList_of_splitWords hs
      by_cases h0 : w.w0 = 0
      · simp [decode, hs, h0, unassigned] at h
      · exact ⟨w, rfl, hw, decode_toList hw h0 ▸ h⟩
  · rintro ⟨w, rfl, hw, h⟩
    refine (decode_toList hw fun h0 => ?_).trans h
    rw [h0] at h
    cases h

end Sys2Proof
end

section
/-! PROOFS. The rows of the scalar majors 0x01 to 0x0A: which words they stand for. -/

namespace Sys2Proof

/-- Words are those of a well-formed instruction. -/
def Words.Reads (w : Words) (i : Instr) : Prop := i.wf = true ∧ encode i = some w.toList

/-- One word alone. -/
abbrev Words.one (w0 : W32) : Words := { w0 := w0, w1 := 0, w2 := 0, ext := false, lit := none }

/-- A word with a literal. -/
abbrev Words.withLit (w0 : W32) (d : W64) : Words := { w0 := w0, w1 := 0, w2 := 0, ext := false, lit := some d }

section
variable {w : Words} {w0 w' : W32} {d : W64} {maj : BitVec 6} {i j : Instr}

theorem decode_one (hm : maj = fieldMaj w0) (hl : 0 = fieldL w0) (h : decodeMajor maj.toNat (.one w0) = .ok i) : decode [w0] = .ok i :=
  decode_eq_ok.mpr ⟨.one w0, rfl, ⟨hl, fun _ => ⟨rfl, rfl⟩⟩, hm ▸ h⟩

theorem decode_withLit (hm : maj = fieldMaj w0) (hl : 1 = fieldL w0) (h : decodeMajor maj.toNat (.withLit w0 d) = .ok i) :
    decode [w0, d.extractLsb' 0 32, d.extractLsb' 32 32] = .ok i :=
  decode_eq_ok.mpr ⟨.withLit w0 d, rfl, ⟨hl, fun _ => ⟨rfl, rfl⟩⟩, hm ▸ h⟩

/-- What passes its checks as one word reads, where its word is the one that is encoded. -/
theorem reads_one {op res comb spec : Bool} (hw : w.Proper) (h : verdict op w.bare res comb spec j = .ok i) (he : encode j = enc1 w')
    (hj : op = true → res = true → comb = true → 0 = fieldL w.w0 → j.wf = true ∧ w' = w.w0) : w.Reads i := by
  obtain ⟨w0, w1, w2, ext, lit⟩ := w
  obtain ⟨ho, hb, hr, hc, -, rfl⟩ := verdict_eq_ok.mp h
  obtain ⟨rfl, rfl⟩ : ext = false ∧ lit = none := by simpa [Words.bare] using hb
  obtain ⟨hwf, rfl⟩ := hj ho hr hc hw.len
  exact ⟨hwf, he⟩

end

theorem ofNat_of_toNat {n k : Nat} {x : BitVec n} (h : x.toNat = k) : BitVec.ofNat n k = x := by
  rw [← h, BitVec.ofNat_toNat, BitVec.setWidth_eq]

/-! ### Major 0x01 -/

/-- A row of `decodeSalu` with a W32 form. -/
def saluWide (w : Words) (c : Bool → Reg → Reg → Reg → Instr) : Except Illegal Instr :=
  verdict true w.bare (bitsOf w.w0 28 3 == 0) true true (c (bitOf w.w0 31) (fieldRd w.w0) (fieldRs1 w.w0) (fieldRs2 w.w0))

/-- A row without. -/
def saluThree (w : Words) (c : Reg → Reg → Reg → Instr) : Except Illegal Instr :=
  verdict true w.bare (bitsOf w.w0 28 3 == 0) (!bitOf w.w0 31) true (c (fieldRd w.w0) (fieldRs1 w.w0) (fieldRs2 w.w0))

/-- A row with one source. -/
def saluTwo (w : Words) (c : Reg → Reg → Instr) : Except Illegal Instr :=
  verdict true w.bare (bitsOf w.w0 28 3 == 0 && fieldRs2 w.w0 == 0) (!bitOf w.w0 31) true (c (fieldRd w.w0) (fieldRs1 w.w0))

section
variable {w : Words} {i : Instr} {x : Bool} {f : BitVec 5} {b a rd : Reg} {n : Nat}

theorem decode_salu (h : ∀ w0, bitOf w0 31 = x → bitsOf w0 28 3 = 0 → bitsOf w0 23 5 = f.toNat → b = fieldRs2 w0 → a = fieldRs1 w0 →
    rd = fieldRd w0 → decodeSalu (.one w0) = .ok i) : decode [packS (f9Salu x f) b a rd 0x01 0] = .ok i := by
  obtain ⟨h9, hb, ha, hd, hm, hl⟩ := packS_eq_iff.mp (rfl : packS (f9Salu x f) b a rd 0x01 0 = _)
  obtain ⟨hx, hr, hf⟩ := f9Salu_eq_iff.mp h9
  exact decode_one hm hl (h _ hx hr hf hb ha hd)

theorem decode_saluWide {c} (row : ∀ w : Words, bitsOf w.w0 23 5 = f.toNat → decodeSalu w = saluWide w c) :
    decode [packS (f9Salu x f) b a rd 0x01 0] = .ok (c x rd a b) := by
  refine decode_salu fun w0 hx hr hf hb ha hd => ?_
  rw [row (.one w0) hf, saluWide, hx, hr, ← hb, ← ha, ← hd]
  rfl

theorem decode_saluThree {c} (row : ∀ w : Words, bitsOf w.w0 23 5 = f.toNat → decodeSalu w = saluThree w c) :
    decode [packS (f9Salu false f) b a rd 0x01 0] = .ok (c rd a b) := by
  refine decode_salu fun w0 hx hr hf hb ha hd => ?_
  rw [row (.one w0) hf, saluThree, hx, hr, ← hb, ← ha, ← hd]
  rfl

theorem decode_saluTwo {c} (row : ∀ w : Words, bitsOf w.w0 23 5 = f.toNat → decodeSalu w = saluTwo w c) :
    decode [packS (f9Salu false f) 0 a rd 0x01 0] = .ok (c rd a) := by
  refine decode_salu fun w0 hx hr hf hb ha hd => ?_
  rw [row (.one w0) hf, saluTwo, hx, hr, ← hb, ← ha, ← hd]
  rfl

theorem packS_salu {w : W32} (hx : bitOf w 31 = x) (hr : bitsOf w 28 3 = 0) (hf : bitsOf w 23 5 = n) (hb : b = fieldRs2 w)
    (hm : 0x01 = fieldMaj w) (hl : 0 = fieldL w) :
    packS (f9Salu x (BitVec.ofNat 5 n)) b (fieldRs1 w) (fieldRd w) 0x01 0 = w :=
  packS_eq_iff.mpr ⟨f9Salu_eq_iff.mpr ⟨hx, hr, bitsOf_eq_iff.mpr (ofNat_of_toNat hf)⟩, hb, rfl, rfl, hm, hl⟩

theorem saluWide_reads {c} (hw : w.Proper) (hm : 0x01 = fieldMaj w.w0) (hf : bitsOf w.w0 23 5 = n) (h : saluWide w c = .ok i)
    (hc : ∀ x rd a b, encode (c x rd a b) = enc1 (packS (f9Salu x (BitVec.ofNat 5 n)) b a rd 0x01 0) ∧ (c x rd a b).wf = true) :
    w.Reads i :=
  reads_one hw h (hc ..).1 fun _ hr _ hl => ⟨(hc ..).2, packS_salu rfl (eq_of_beq hr) hf rfl hm hl⟩

theorem saluThree_reads {c} (hw : w.Proper) (hm : 0x01 = fieldMaj w.w0) (hf : bitsOf w.w0 23 5 = n) (h : saluThree w c = .ok i)
    (hc : ∀ rd a b, encode (c rd a b) = enc1 (packS (f9Salu false (BitVec.ofNat 5 n)) b a rd 0x01 0) ∧ (c rd a b).wf = true) :
    w.Reads i :=
  reads_one hw h (hc ..).1 fun _ hr hx hl => ⟨(hc ..).2, packS_salu ((Bool.not_eq_true' _).mp hx) (eq_of_beq hr) hf rfl hm hl⟩

theorem saluTwo_reads {c} (hw : w.Proper) (hm : 0x01 = fieldMaj w.w0) (hf : bitsOf w.w0 23 5 = n) (h : saluTwo w c = .ok i)
    (hc : ∀ rd a, encode (c rd a) = enc1 (packS (f9Salu false (BitVec.ofNat 5 n)) 0 a rd 0x01 0) ∧ (c rd a).wf = true) :
    w.Reads i :=
  reads_one hw h (hc ..).1 fun _ hr hx hl => by
    obtain ⟨hr, hb⟩ := Bool.and_eq_true_iff.mp hr
    exact ⟨(hc ..).2, packS_salu ((Bool.not_eq_true' _).mp hx) (eq_of_beq hr) hf (eq_of_beq hb).symm hm hl⟩

theorem decodeSalu_reads (hw : w.Proper) (hm : 0x01 = fieldMaj w.w0) (h : decodeSalu w = .ok i) : w.Reads i := by
  unfold decodeSalu at h
  dsimp only at h
  split at h
  case h_1 hf | h_2 hf | h_3 hf | h_4 hf | h_5 hf | h_6 hf | h_7 hf | h_8 hf | h_9 hf | h_12 hf | h_13 hf | h_14 hf | h_15 hf =>
    exact saluWide_reads hw hm hf h fun _ _ _ _ => ⟨rfl, rfl⟩
  case h_10 hf | h_11 hf | h_16 hf | h_17 hf | h_18 hf | h_19 hf | h_20 hf | h_21 hf | h_25 hf | h_26 hf =>
    exact saluThree_reads hw hm hf h fun _ _ _ => ⟨rfl, rfl⟩
  case h_22 hf | h_23 hf | h_24 hf => exact saluTwo_reads hw hm hf h fun _ _ => ⟨rfl, rfl⟩
  case h_27 => cases h

end

/-! ### An immediate or a literal (R59) -/

section
variable {w : Words} {i : Instr} {f3 : BitVec 3} {a rd : Reg} {imm : BitVec 11} {d : W64} {maj : BitVec 6}
  {f : BitVec 11 → Instr} {g : W64 → Instr}

theorem decode_packI {D : Words → Except Illegal Instr} (hD : decodeMajor maj.toNat = D)
    (h : ∀ w0, imm = fieldImm w0 → f3 = fieldF3 w0 → a = fieldRs1 w0 → rd = fieldRd w0 → D (.one w0) = .ok i) :
    decode [packI imm f3 a rd maj 0] = .ok i := by
  obtain ⟨hi, h3, ha, hd, hm, hl⟩ := packI_eq_iff.mp (rfl : packI imm f3 a rd maj 0 = _)
  exact decode_one hm hl (hD ▸ h _ hi h3 ha hd)

theorem decode_imm {D : Words → Except Illegal Instr} (hD : decodeMajor maj.toNat = D)
    (row : ∀ w : Words, f3 = fieldF3 w.w0 → a = fieldRs1 w.w0 → rd = fieldRd w.w0 → D w = immOr w true f g) :
    decode [packI imm f3 a rd maj 0] = .ok (f imm) :=
  decode_packI hD fun w0 hi h3 ha hd => (row (.one w0) h3 ha hd).trans (congrArg (Except.ok ∘ f) hi.symm)

theorem decode_lit {D : Words → Except Illegal Instr} (hD : decodeMajor maj.toNat = D)
    (row : ∀ w : Words, f3 = fieldF3 w.w0 → a = fieldRs1 w.w0 → rd = fieldRd w.w0 → D w = immOr w true f g) :
    decode [packI 0 f3 a rd maj 1, d.extractLsb' 0 32, d.extractLsb' 32 32] = .ok (g d) := by
  obtain ⟨hi, h3, ha, hd, hm, hl⟩ := packI_eq_iff.mp (rfl : packI 0 f3 a rd maj 1 = _)
  exact decode_withLit hm hl (hD ▸ (row (.withLit _ d) h3 ha hd).trans
    (verdict_eq_ok.mpr ⟨rfl, rfl, beq_iff_eq.mpr hi.symm, rfl, rfl, rfl⟩))

theorem immOr_reads {res : Bool} (hw : w.Proper) (hm : maj = fieldMaj w.w0) (h : immOr w res f g = .ok i)
    (hk : res = true → f3 = fieldF3 w.w0 ∧ a = fieldRs1 w.w0 ∧ rd = fieldRd w.w0)
    (hf : ∀ imm, encode (f imm) = enc1 (packI imm f3 a rd maj 0) ∧ (f imm).wf = true)
    (hg : ∀ d, encode (g d) = encLit (packI 0 f3 a rd maj 1) d ∧ (g d).wf = true) : w.Reads i := by
  obtain ⟨w0, w1, w2, ext, lit⟩ := w
  cases lit with
  | none =>
    obtain ⟨-, he, hr, -, -, rfl⟩ := verdict_eq_ok.mp h
    obtain rfl : ext = false := by simpa using he
    obtain ⟨h3, ha, hd⟩ := hk hr
    exact ⟨(hf _).2, (hf _).1.trans (congrArg enc1 (packI_eq_iff.mpr ⟨rfl, h3, ha, hd, hm, hw.len⟩))⟩
  | some d =>
    obtain ⟨-, he, hr, -, -, rfl⟩ := verdict_eq_ok.mp h
    obtain rfl : ext = false := by simpa using he
    obtain ⟨hr, hi⟩ := Bool.and_eq_true_iff.mp hr
    obtain ⟨h3, ha, hd⟩ := hk hr
    exact ⟨(hg _).2, (hg _).1.trans
      (congrArg (encLit · d) (packI_eq_iff.mpr ⟨(eq_of_beq hi).symm, h3, ha, hd, hm, hw.len⟩))⟩

end

/-! ### Major 0x02 -/

section
variable {w : Words} {i : Instr}

theorem decodeSalui_reads (hw : w.Proper) (hm : 0x02 = fieldMaj w.w0) (h : decodeSalui w = .ok i) : w.Reads i := by
  unfold decodeSalui at h
  dsimp only at h
  split at h
  case h_1 hf | h_2 hf | h_3 hf | h_4 hf | h_5 hf | h_6 hf =>
    exact immOr_reads hw hm h (fun _ => ⟨ofNat_of_toNat hf, rfl, rfl⟩) (fun _ => ⟨rfl, rfl⟩) (fun _ => ⟨rfl, rfl⟩)
  case h_7 hf =>
    exact immOr_reads hw hm h (fun ha => ⟨ofNat_of_toNat hf, (eq_of_beq ha).symm, rfl⟩) (fun _ => ⟨rfl, rfl⟩) (fun _ => ⟨rfl, rfl⟩)
  case h_8 => cases h

/-! ### Major 0x03 -/

/-- A shift row of `decodeSshi`. -/
def shiftRow (w : Words) (c : Reg → Reg → BitVec 6 → Instr) : Except Illegal Instr :=
  verdict true w.bare (bitsOf w.w0 27 5 == 0) true true (c (fieldRd w.w0) (fieldRs1 w.w0) (w.w0.extractLsb' 21 6))

theorem shift_field {w : W32} {sh : BitVec 6} : 0#5 ++ sh = fieldImm w ↔ bitsOf w 27 5 = 0 ∧ sh = w.extractLsb' 21 6 := by
  rw [bitsOf_eq_zero_iff]
  simp (disch := decide) only [append_eq_iff, extract_extract, fieldImm]

theorem decode_shift {f3 : BitVec 3} {a rd : Reg} {sh : BitVec 6} {c}
    (row : ∀ w : Words, (fieldF3 w.w0).toNat = f3.toNat → decodeSshi w = shiftRow w c) :
    decode [packI (0#5 ++ sh) f3 a rd 0x03 0] = .ok (c rd a sh) := by
  refine decode_packI (D := decodeSshi) rfl fun w0 hi h3 ha hd => ?_
  obtain ⟨hr, hs⟩ := shift_field.mp hi
  refine (row (.one w0) (congrArg BitVec.toNat h3.symm)).trans ?_
  rw [shiftRow, hr, ← hs, ← ha, ← hd]
  rfl

theorem shiftRow_reads {c} {n : Nat} (hw : w.Proper) (hm : 0x03 = fieldMaj w.w0) (hf : (fieldF3 w.w0).toNat = n)
    (h : shiftRow w c = .ok i)
    (hc : ∀ rd a sh, encode (c rd a sh) = enc1 (packI (0#5 ++ sh) (BitVec.ofNat 3 n) a rd 0x03 0) ∧ (c rd a sh).wf = true) :
    w.Reads i :=
  reads_one hw h (hc ..).1 fun _ hr _ hl =>
    ⟨(hc ..).2, packI_eq_iff.mpr ⟨shift_field.mpr ⟨eq_of_beq hr, rfl⟩, ofNat_of_toNat hf, rfl, rfl, hm, hl⟩⟩

theorem decodeSshi_reads (hw : w.Proper) (hm : 0x03 = fieldMaj w.w0) (h : decodeSshi w = .ok i) : w.Reads i := by
  unfold decodeSshi at h
  dsimp only at h
  split at h
  case h_1 hf | h_2 hf | h_3 hf | h_5 hf => exact shiftRow_reads hw hm hf h fun _ _ _ => ⟨rfl, rfl⟩
  case h_4 hf =>
    exact immOr_reads hw hm h (fun ha => ⟨ofNat_of_toNat hf, (eq_of_beq ha).symm, rfl⟩) (fun _ => ⟨rfl, rfl⟩) (fun _ => ⟨rfl, rfl⟩)
  case h_6 => cases h

/-! ### Majors 0x05, 0x06, 0x08, 0x09 and 0x0A -/

theorem LdSize.of_eq_some {b : BitVec 3} {z : LdSize} : LdSize.of b = some z ↔ z.bits = b := by
  revert b
  cases z <;> decide

theorem StSize.of_eq_some {b : BitVec 3} {z : StSize} : StSize.of b = some z ↔ z.bits = b := by
  revert b
  cases z <;> decide

theorem Cond.of_eq_some {b : BitVec 3} {c : Cond} : Cond.of b = some c ↔ c.bits = b := by
  revert b
  cases c <;> decide

theorem decodeLd_of_size {z : LdSize} (hz : z.bits = fieldF3 w.w0) : decodeLd w =
    immOr w true (.ld z (fieldRd w.w0) (fieldRs1 w.w0)) (.ldLit z (fieldRd w.w0) (fieldRs1 w.w0)) := by
  rw [decodeLd, LdSize.of_eq_some.mpr hz]

theorem decodeSt_of_size {z : StSize} (hz : z.bits = fieldF3 w.w0) : decodeSt w =
    immOr w true (.st z (fieldRd w.w0) (fieldRs1 w.w0)) (.stLit z (fieldRd w.w0) (fieldRs1 w.w0)) := by
  rw [decodeSt, StSize.of_eq_some.mpr hz]

theorem decodeBr_of_cond {c : Cond} (hc : c.bits = fieldF3 w.w0) : decodeBr w =
    immOr w true (.br c (fieldRd w.w0) (fieldRs1 w.w0)) (.brLit c (fieldRd w.w0) (fieldRs1 w.w0)) := by
  rw [decodeBr, Cond.of_eq_some.mpr hc]

theorem decodeLd_reads (hw : w.Proper) (hm : 0x05 = fieldMaj w.w0) (h : decodeLd w = .ok i) : w.Reads i := by
  cases hz : LdSize.of (fieldF3 w.w0) with
  | none => rw [decodeLd, hz] at h; cases h
  | some z =>
    rw [decodeLd_of_size (LdSize.of_eq_some.mp hz)] at h
    exact immOr_reads hw hm h (fun _ => ⟨LdSize.of_eq_some.mp hz, rfl, rfl⟩) (fun _ => ⟨rfl, rfl⟩) (fun _ => ⟨rfl, rfl⟩)

theorem decodeSt_reads (hw : w.Proper) (hm : 0x06 = fieldMaj w.w0) (h : decodeSt w = .ok i) : w.Reads i := by
  cases hz : StSize.of (fieldF3 w.w0) with
  | none => rw [decodeSt, hz] at h; cases h
  | some z =>
    rw [decodeSt_of_size (StSize.of_eq_some.mp hz)] at h
    exact immOr_reads hw hm h (fun _ => ⟨StSize.of_eq_some.mp hz, rfl, rfl⟩) (fun _ => ⟨rfl, rfl⟩) (fun _ => ⟨rfl, rfl⟩)

theorem decodeBr_reads (hw : w.Proper) (hm : 0x08 = fieldMaj w.w0) (h : decodeBr w = .ok i) : w.Reads i := by
  cases hc : Cond.of (fieldF3 w.w0) with
  | none => rw [decodeBr, hc] at h; cases h
  | some c =>
    rw [decodeBr_of_cond (Cond.of_eq_some.mp hc)] at h
    exact immOr_reads hw hm h (fun _ => ⟨Cond.of_eq_some.mp hc, rfl, rfl⟩) (fun _ => ⟨rfl, rfl⟩) (fun _ => ⟨rfl, rfl⟩)

theorem decode_j {rd : Reg} {off : BitVec 19} : decode [packJ off rd 0x09 0] = .ok (.j rd off) := by
  obtain ⟨ho, hd, hm, hl⟩ := packJ_eq_iff.mp (rfl : packJ off rd 0x09 0 = _)
  exact decode_one hm hl (congrArg₂ (Except.ok <| Instr.j · ·) hd.symm ho.symm)

theorem decode_jLit {rd : Reg} {d : W64} :
    decode [packJ 0 rd 0x09 1, d.extractLsb' 0 32, d.extractLsb' 32 32] = .ok (.jLit rd d) := by
  obtain ⟨ho, hd, hm, hl⟩ := packJ_eq_iff.mp (rfl : packJ 0 rd 0x09 1 = _)
  exact decode_withLit hm hl (verdict_eq_ok.mpr ⟨rfl, rfl, beq_iff_eq.mpr ho.symm, rfl, rfl, congrArg (Instr.jLit · d) hd.symm⟩)

theorem decodeJ_reads (hw : w.Proper) (hm : 0x09 = fieldMaj w.w0) (h : decodeJ w = .ok i) : w.Reads i := by
  obtain ⟨w0, w1, w2, ext, lit⟩ := w
  cases lit with
  | none =>
    obtain ⟨-, he, -, -, -, rfl⟩ := verdict_eq_ok.mp h
    obtain rfl : ext = false := by simpa using he
    exact ⟨rfl, congrArg enc1 (packJ_eq_iff.mpr ⟨rfl, rfl, hm, hw.len⟩)⟩
  | some d =>
    obtain ⟨-, he, ho, -, -, rfl⟩ := verdict_eq_ok.mp h
    obtain rfl : ext = false := by simpa using he
    exact ⟨rfl, congrArg (encLit · d) (packJ_eq_iff.mpr ⟨(eq_of_beq ho).symm, rfl, hm, hw.len⟩)⟩

/-- `BRQ` has its inversion in bit 8 (R290). -/
theorem brq_field {w : W32} {x : Bool} : 0#4 ++ BitVec.ofBool x = fieldRd w ↔ bitsOf w 9 4 = 0 ∧ bitOf w 8 = x := by
  rw [bitsOf_eq_zero_iff, bitOf_eq_iff]
  simp (disch := decide) only [append_eq_iff, extract_extract, fieldRd]

theorem decodeJr_brq {x : Bool} (h3 : 1 = fieldF3 w.w0) (ha : 0 = fieldRs1 w.w0) (hd : 0#4 ++ BitVec.ofBool x = fieldRd w.w0) :
    decodeJr w = immOr w true (.brq x) (.brqLit x) := by
  obtain ⟨hz, hx⟩ := brq_field.mp hd
  rw [decodeJr, ← h3, ← ha, hz, hx]
  rfl

theorem decodeJr_reads (hw : w.Proper) (hm : 0x0A = fieldMaj w.w0) (h : decodeJr w = .ok i) : w.Reads i := by
  unfold decodeJr at h
  split at h
  case h_1 hf => exact immOr_reads hw hm h (fun _ => ⟨ofNat_of_toNat hf, rfl, rfl⟩) (fun _ => ⟨rfl, rfl⟩) (fun _ => ⟨rfl, rfl⟩)
  case h_2 hf =>
    refine immOr_reads hw hm h (fun hr => ?_) (fun _ => ⟨rfl, rfl⟩) (fun _ => ⟨rfl, rfl⟩)
    obtain ⟨ha, hz⟩ := Bool.and_eq_true_iff.mp hr
    exact ⟨ofNat_of_toNat hf, (eq_of_beq ha).symm, brq_field.mpr ⟨eq_of_beq hz, rfl⟩⟩
  case h_3 => cases h

end
end Sys2Proof
end

section
/-! PROOFS. The rows of the scalar major 0x04, with words by variant and function: which words they stand for. -/

namespace Sys2Proof

/-- A word with extended words. -/
abbrev Words.two (w0 w1 w2 : W32) : Words := { w0 := w0, w1 := w1, w2 := w2, ext := true, lit := none }

section
variable {w : Words} {w0 w1 w2 w' v1 v2 : W32} {maj : BitVec 6} {i j : Instr} {v : BitVec 3} {f : BitVec 6} {b a rd : Reg} {n : Nat}

theorem decode_two (hm : maj = fieldMaj w0) (hl : 2 = fieldL w0) (h : decodeMajor maj.toNat (.two w0 w1 w2) = .ok i) :
    decode [w0, w1, w2] = .ok i :=
  decode_eq_ok.mpr ⟨.two w0 w1 w2, rfl, ⟨hl, nofun⟩, hm ▸ h⟩

theorem verdict_extOnly {α : Type} {op res comb spec : Bool} {p q : α} (hw : w.Proper)
    (h : verdict op w.extOnly res comb spec p = .ok q) :
    op = true ∧ res = true ∧ comb = true ∧ spec = true ∧ p = q ∧ 2 = fieldL w.w0 ∧ w.toList = [w.w0, w.w1, w.w2] := by
  obtain ⟨w0, w1, w2, ext, lit⟩ := w
  obtain ⟨ho, hb, hr, hc, hs, hp⟩ := verdict_eq_ok.mp h
  obtain ⟨rfl, rfl⟩ : ext = true ∧ lit = none := by simpa [Words.extOnly] using hb
  exact ⟨ho, hr, hc, hs, hp, hw.len, rfl⟩

/-- What passes its checks with extended words reads, where its words are those that are encoded. -/
theorem reads_two {op res comb spec : Bool} (hw : w.Proper) (h : verdict op w.extOnly res comb spec j = .ok i)
    (he : encode j = encExt w' v1 v2)
    (hj : op = true → res = true → comb = true → 2 = fieldL w.w0 → j.wf = true ∧ w' = w.w0 ∧ v1 = w.w1 ∧ v2 = w.w2) :
    w.Reads i := by
  obtain ⟨ho, hr, hc, -, rfl, hl, ht⟩ := verdict_extOnly hw h
  obtain ⟨hwf, rfl, rfl, rfl⟩ := hj ho hr hc hl
  exact ⟨hwf, he.trans (congrArg some ht.symm)⟩

/-! ### Words in S format by variant and function -/

theorem decode_f9Of {D : Words → Except Illegal Instr} (hD : decodeMajor maj.toNat = D)
    (h : ∀ w0, v = fieldVar w0 → (fieldFunc w0).toNat = f.toNat → b = fieldRs2 w0 → a = fieldRs1 w0 → rd = fieldRd w0 →
      D (.one w0) = .ok i) : decode [packS (f9Of v f) b a rd maj 0] = .ok i := by
  obtain ⟨h9, hb, ha, hd, hm, hl⟩ := packS_eq_iff.mp (rfl : packS (f9Of v f) b a rd maj 0 = _)
  obtain ⟨hv, hf⟩ := f9Of_eq_iff.mp h9
  exact decode_one hm hl (hD ▸ h _ hv (congrArg BitVec.toNat hf.symm) hb ha hd)

theorem decode_f9OfExt {D : Words → Except Illegal Instr} (hD : decodeMajor maj.toNat = D)
    (h : ∀ w0 w1 w2, v = fieldVar w0 → (fieldFunc w0).toNat = f.toNat → b = fieldRs2 w0 → a = fieldRs1 w0 → rd = fieldRd w0 →
      v1 = w1 → v2 = w2 → D (.two w0 w1 w2) = .ok i) : decode [packS (f9Of v f) b a rd maj 2, v1, v2] = .ok i := by
  obtain ⟨h9, hb, ha, hd, hm, hl⟩ := packS_eq_iff.mp (rfl : packS (f9Of v f) b a rd maj 2 = _)
  obtain ⟨hv, hf⟩ := f9Of_eq_iff.mp h9
  exact decode_two hm hl (hD ▸ h _ _ _ hv (congrArg BitVec.toNat hf.symm) hb ha hd rfl rfl)

theorem packS_f9Of {l : BitVec 2} {w : W32} (hv : v = fieldVar w) (hf : (fieldFunc w).toNat = n) (hb : b = fieldRs2 w)
    (ha : a = fieldRs1 w) (hd : rd = fieldRd w) (hm : maj = fieldMaj w) (hl : l = fieldL w) :
    packS (f9Of v (BitVec.ofNat 6 n)) b a rd maj l = w :=
  packS_eq_iff.mpr ⟨f9Of_eq_iff.mpr ⟨hv, ofNat_of_toNat hf⟩, hb, ha, hd, hm, hl⟩

end

/-! ### Numbers in the field of rs2 -/

section
variable {w : W32}

theorem reg3_field {q : BitVec 3} : reg3 q = fieldRs2 w ↔ bitsOf w 21 2 = 0 ∧ q = w.extractLsb' 18 3 := by
  rw [bitsOf_eq_zero_iff]
  simp (disch := decide) only [reg3, append_eq_iff, extract_extract, fieldRs2]

theorem scope_field {c : Scope} : 0#3 ++ c.bits = fieldRs2 w ↔ bitsOf w 20 3 = 0 ∧ Scope.of (w.extractLsb' 18 2) = c := by
  rw [bitsOf_eq_zero_iff, ← Scope.bits_eq_iff]
  simp (disch := decide) only [append_eq_iff, extract_extract, fieldRs2]

theorem extract_rs2 {s n : Nat} (h : s + n ≤ 5) : (fieldRs2 w).extractLsb' s n = w.extractLsb' (18 + s) n := extract_extract w h

theorem intCode_field {c : IntCode} : c.bits = fieldRs2 w ↔ bitsOf w 20 3 = 0 ∧ IntCode.of (fieldRs2 w) = c := by
  have h : ∀ (b : BitVec 5), c.bits = b ↔ 0#3 = b.extractLsb' 2 3 ∧ IntCode.of b = c := by cases c <;> decide
  rw [h, bitsOf_eq_zero_iff, extract_rs2 (by decide)]

theorem Prec.of_eq_some {b : BitVec 3} {p : Prec} : Prec.of b = some p ↔ p.bits = b := by
  revert b
  cases p <;> decide

theorem srcPrec_field {p : Prec} :
    0#2 ++ p.bits = fieldRs2 w ↔ bitsOf w 20 3 = 0 ∧ (Prec.of ((w.extractLsb' 18 2).setWidth 3)).getD .s = p := by
  have h : ∀ b : BitVec 5, 0#2 ++ p.bits = b ↔ 0#3 = b.extractLsb' 2 3 ∧ (Prec.of ((b.extractLsb' 0 2).setWidth 3)).getD .s = p := by
    cases p <;> decide
  rw [h, bitsOf_eq_zero_iff, extract_rs2 (by decide), extract_rs2 (by decide)]

end

/-! ### Major 0x04 -/

/-- A row of `decodeSfp` with two sources. -/
def sfpThree (w : Words) (p : Prec) (c : Prec → Reg → Reg → Reg → Instr) : Except Illegal Instr :=
  verdict true w.bare true true true (c p (fieldRd w.w0) (fieldRs1 w.w0) (fieldRs2 w.w0))

/-- A row with one source. -/
def sfpTwo (w : Words) (p : Prec) (c : Prec → Reg → Reg → Instr) : Except Illegal Instr :=
  verdict true w.bare (fieldRs2 w.w0 == 0) true true (c p (fieldRd w.w0) (fieldRs1 w.w0))

/-- A row with one source and an integer type. -/
def sfpInt (w : Words) (p : Prec) (c : Prec → IntCode → Reg → Reg → Instr) : Except Illegal Instr :=
  verdict true w.bare (bitsOf w.w0 20 3 == 0) true true (c p (IntCode.of (fieldRs2 w.w0)) (fieldRd w.w0) (fieldRs1 w.w0))

section
variable {w : Words} {i : Instr} {p : Prec} {f : BitVec 6} {b a rd : Reg} {n : Nat}

theorem decode_sfp (h : ∀ w0, Prec.of (fieldVar w0) = some p → (fieldFunc w0).toNat = f.toNat → b = fieldRs2 w0 → a = fieldRs1 w0 →
    rd = fieldRd w0 → decodeSfp (.one w0) = .ok i) : decode [packS (f9Of p.bits f) b a rd 0x04 0] = .ok i :=
  decode_f9Of rfl fun w0 hv => h w0 (Prec.of_eq_some.mpr hv)

theorem decode_sfpThree {c} (row : ∀ w : Words, Prec.of (fieldVar w.w0) = some p → (fieldFunc w.w0).toNat = f.toNat →
    decodeSfp w = sfpThree w p c) : decode [packS (f9Of p.bits f) b a rd 0x04 0] = .ok (c p rd a b) := by
  refine decode_sfp fun w0 hp hf hb ha hd => ?_
  rw [row (.one w0) hp hf, sfpThree, ← hb, ← ha, ← hd]
  rfl

theorem decode_sfpTwo {c} (row : ∀ w : Words, Prec.of (fieldVar w.w0) = some p → (fieldFunc w.w0).toNat = f.toNat →
    decodeSfp w = sfpTwo w p c) : decode [packS (f9Of p.bits f) 0 a rd 0x04 0] = .ok (c p rd a) := by
  refine decode_sfp fun w0 hp hf hb ha hd => ?_
  rw [row (.one w0) hp hf, sfpTwo, ← hb, ← ha, ← hd]
  rfl

theorem decode_sfpInt {k} {c : IntCode} (row : ∀ w : Words, Prec.of (fieldVar w.w0) = some p → (fieldFunc w.w0).toNat = f.toNat →
    decodeSfp w = sfpInt w p k) : decode [packS (f9Of p.bits f) c.bits a rd 0x04 0] = .ok (k p c rd a) := by
  refine decode_sfp fun w0 hp hf hb ha hd => ?_
  obtain ⟨hz, hc⟩ := intCode_field.mp hb
  rw [row (.one w0) hp hf, sfpInt, hz, hc, ← ha, ← hd]
  rfl

theorem decode_fcvtf {src : Prec} : decode [packS (f9Of p.bits 15) (0#2 ++ src.bits) a rd 0x04 0] = .ok (.fcvtf p src rd a) :=
  decode_sfp fun w0 hp hf hb ha hd => by
    obtain ⟨hz, hs⟩ := srcPrec_field.mp hb
    rw [decodeSfp, hp]
    dsimp only
    rw [hf, hz, hs, ← ha, ← hd]
    rfl

theorem sfpThree_reads {c} (hw : w.Proper) (hm : 0x04 = fieldMaj w.w0) (hp : Prec.of (fieldVar w.w0) = some p)
    (hf : (fieldFunc w.w0).toNat = n) (h : sfpThree w p c = .ok i)
    (hc : ∀ p rd a b, encode (c p rd a b) = enc1 (packS (f9Of p.bits (BitVec.ofNat 6 n)) b a rd 0x04 0) ∧ (c p rd a b).wf = true) :
    w.Reads i :=
  reads_one hw h (hc ..).1 fun _ _ _ hl => ⟨(hc ..).2, packS_f9Of (Prec.of_eq_some.mp hp) hf rfl rfl rfl hm hl⟩

theorem sfpTwo_reads {c} (hw : w.Proper) (hm : 0x04 = fieldMaj w.w0) (hp : Prec.of (fieldVar w.w0) = some p)
    (hf : (fieldFunc w.w0).toNat = n) (h : sfpTwo w p c = .ok i)
    (hc : ∀ p rd a, encode (c p rd a) = enc1 (packS (f9Of p.bits (BitVec.ofNat 6 n)) 0 a rd 0x04 0) ∧ (c p rd a).wf = true) :
    w.Reads i :=
  reads_one hw h (hc ..).1 fun _ hb _ hl => ⟨(hc ..).2, packS_f9Of (Prec.of_eq_some.mp hp) hf (eq_of_beq hb).symm rfl rfl hm hl⟩

theorem decodeSfp_reads (hw : w.Proper) (hm : 0x04 = fieldMaj w.w0) (h : decodeSfp w = .ok i) : w.Reads i := by
  unfold decodeSfp at h
  dsimp only at h
  split at h
  · cases h
  next p hp =>
  split at h
  case h_1 hf | h_2 hf | h_3 hf | h_4 hf | h_6 hf | h_7 hf | h_8 hf | h_9 hf | h_10 hf | h_11 hf | h_12 hf | h_13 hf =>
    exact sfpThree_reads hw hm hp hf h fun _ _ _ _ => ⟨rfl, rfl⟩
  case h_5 hf | h_17 hf => exact sfpTwo_reads hw hm hp hf h fun _ _ _ => ⟨rfl, rfl⟩
  case h_14 hf | h_15 hf => exact reads_one hw h rfl fun _ hz _ hl =>
    ⟨rfl, packS_f9Of (Prec.of_eq_some.mp hp) hf (intCode_field.mpr ⟨eq_of_beq hz, rfl⟩) rfl rfl hm hl⟩
  case h_16 hf => exact reads_one hw h rfl fun _ hz _ hl =>
    ⟨rfl, packS_f9Of (Prec.of_eq_some.mp hp) hf (srcPrec_field.mpr ⟨eq_of_beq hz, rfl⟩) rfl rfl hm hl⟩
  case h_18 => cases h

end

end Sys2Proof
end

section
/-! PROOFS. The rows of the scalar majors 0x07, 0x0B and 0x0C: which words they stand for. -/

namespace Sys2Proof

/-! ### Major 0x07 -/

/-- A row of `decodeAtom` with scope, order and size. -/
def amoRow (w : Words) (c : Scope → Order → Bool → Reg → Reg → Reg → Instr) : Except Illegal Instr :=
  verdict true w.bare true true true
    (c (Scope.of (w.w0.extractLsb' 30 2)) (Order.of (w.w0.extractLsb' 28 2)) (bitOf w.w0 27) (fieldRd w.w0) (fieldRs1 w.w0) (fieldRs2 w.w0))

section
variable {w : Words} {i : Instr} {sc : Scope} {o : Order} {d : Bool} {f : BitVec 4} {b a rd : Reg} {n : Nat}

theorem decode_atom (h : ∀ w0, Scope.of (w0.extractLsb' 30 2) = sc → Order.of (w0.extractLsb' 28 2) = o → bitOf w0 27 = d →
    bitsOf w0 23 4 = f.toNat → b = fieldRs2 w0 → a = fieldRs1 w0 → rd = fieldRd w0 → decodeAtom (.one w0) = .ok i) :
    decode [packS (f9Atom sc o d f) b a rd 0x07 0] = .ok i := by
  obtain ⟨h9, hb, ha, hd, hm, hl⟩ := packS_eq_iff.mp (rfl : packS (f9Atom sc o d f) b a rd 0x07 0 = _)
  obtain ⟨hsc, ho, hsz, hf⟩ := f9Atom_eq_iff.mp h9
  exact decode_one hm hl (h _ hsc ho hsz hf hb ha hd)

theorem decode_amo {c} (row : ∀ w : Words, bitsOf w.w0 23 4 = f.toNat → decodeAtom w = amoRow w c) :
    decode [packS (f9Atom sc o d f) b a rd 0x07 0] = .ok (c sc o d rd a b) := by
  refine decode_atom fun w0 hsc ho hsz hf hb ha hd => ?_
  rw [row (.one w0) hf, amoRow, hsc, ho, hsz, ← hb, ← ha, ← hd]
  rfl

theorem decode_lda : decode [packS (f9Atom sc .aq d 0) 0 a rd 0x07 0] = .ok (.lda sc d rd a) :=
  decode_atom fun w0 hsc ho hsz hf hb ha hd => by rw [decodeAtom, hsc, ho, hsz, hf, ← hb, ← ha, ← hd]; rfl

theorem decode_stl : decode [packS (f9Atom sc .rl d 1) b a 0 0x07 0] = .ok (.stl sc d a b) :=
  decode_atom fun w0 hsc ho hsz hf hb ha hd => by rw [decodeAtom, hsc, ho, hsz, hf, ← hb, ← ha, ← hd]; rfl

theorem decode_amoFadd32 : decode [packS (f9Atom sc o false 11) b a rd 0x07 0] = .ok (.amoFadd32 sc o rd a b) :=
  decode_atom fun w0 hsc ho hsz hf hb ha hd => by rw [decodeAtom, hsc, ho, hsz, hf, ← hb, ← ha, ← hd]; rfl

theorem packS_atom {w : W32} (ho : Order.of (w.extractLsb' 28 2) = o) (hsz : bitOf w 27 = d) (hf : bitsOf w 23 4 = n)
    (hb : b = fieldRs2 w) (hd : rd = fieldRd w) (hm : 0x07 = fieldMaj w) (hl : 0 = fieldL w) :
    packS (f9Atom (Scope.of (w.extractLsb' 30 2)) o d (BitVec.ofNat 4 n)) b (fieldRs1 w) rd 0x07 0 = w :=
  packS_eq_iff.mpr ⟨f9Atom_eq_iff.mpr ⟨rfl, ho, hsz, bitsOf_eq_iff.mpr (ofNat_of_toNat hf)⟩, hb, rfl, hd, hm, hl⟩

theorem amoRow_reads {c} (hw : w.Proper) (hm : 0x07 = fieldMaj w.w0) (hf : bitsOf w.w0 23 4 = n) (h : amoRow w c = .ok i)
    (hc : ∀ sc o d rd a b, encode (c sc o d rd a b) = enc1 (packS (f9Atom sc o d (BitVec.ofNat 4 n)) b a rd 0x07 0)
      ∧ (c sc o d rd a b).wf = true) : w.Reads i :=
  reads_one hw h (hc ..).1 fun _ _ _ hl => ⟨(hc ..).2, packS_atom rfl rfl hf rfl rfl hm hl⟩

theorem decodeAtom_reads (hw : w.Proper) (hm : 0x07 = fieldMaj w.w0) (h : decodeAtom w = .ok i) : w.Reads i := by
  unfold decodeAtom at h
  dsimp only at h
  split at h
  case h_1 hf => exact reads_one hw h rfl fun _ hb ho hl =>
    ⟨rfl, packS_atom (eq_of_beq ho) rfl hf (eq_of_beq hb).symm rfl hm hl⟩
  case h_2 hf => exact reads_one hw h rfl fun _ hd ho hl =>
    ⟨rfl, packS_atom (eq_of_beq ho) rfl hf rfl (eq_of_beq hd).symm hm hl⟩
  case h_12 hf => exact reads_one hw h rfl fun _ _ hsz hl =>
    ⟨rfl, packS_atom rfl ((Bool.not_eq_true' _).mp hsz) hf rfl rfl hm hl⟩
  case h_3 hf | h_4 hf | h_5 hf | h_6 hf | h_7 hf | h_8 hf | h_9 hf | h_10 hf | h_11 hf | h_13 hf =>
    exact amoRow_reads hw hm hf h fun _ _ _ _ _ _ => ⟨rfl, rfl⟩
  case h_14 => cases h

end

/-! ### Major 0x0B -/

section
variable {w : Words} {i : Instr} {q : BitVec 3} {f : BitVec 6} {a rd : Reg} {n : Nat}

/-- A row of `decodeQueue` that sends. -/
def sendRow (w : Words) (ok : BitVec 3 → Bool) (c : BitVec 3 → Reg → Instr) : Except Illegal Instr :=
  verdict true w.bare (fieldVar w.w0 == 0 && bitsOf w.w0 21 2 == 0 && fieldRd w.w0 == 0) (ok (w.w0.extractLsb' 18 3)) true
    (c (w.w0.extractLsb' 18 3) (fieldRs1 w.w0))

/-- A row that receives. -/
def recvRow (w : Words) (ok : BitVec 3 → Bool) (c : Reg → BitVec 3 → Instr) : Except Illegal Instr :=
  verdict true w.bare (fieldVar w.w0 == 0 && bitsOf w.w0 21 2 == 0 && fieldRs1 w.w0 == 0) (ok (w.w0.extractLsb' 18 3)) true
    (c (fieldRd w.w0) (w.w0.extractLsb' 18 3))

theorem decode_send {ok c} (hq : ok q = true) (row : ∀ w : Words, (fieldFunc w.w0).toNat = f.toNat → decodeQueue w = sendRow w ok c) :
    decode [packS (f9Of 0 f) (reg3 q) a 0 0x0B 0] = .ok (c q a) := by
  refine decode_f9Of (D := decodeQueue) rfl fun w0 hv hf hb ha hd => (row (.one w0) hf).trans ?_
  obtain ⟨hz, hq'⟩ := reg3_field.mp hb
  rw [sendRow, ← hv, hz, ← hq', hq, ← ha, ← hd]
  rfl

theorem decode_recv {ok c} (hq : ok q = true) (row : ∀ w : Words, (fieldFunc w.w0).toNat = f.toNat → decodeQueue w = recvRow w ok c) :
    decode [packS (f9Of 0 f) (reg3 q) 0 rd 0x0B 0] = .ok (c rd q) := by
  refine decode_f9Of (D := decodeQueue) rfl fun w0 hv hf hb ha hd => (row (.one w0) hf).trans ?_
  obtain ⟨hz, hq'⟩ := reg3_field.mp hb
  rw [recvRow, ← hv, hz, ← hq', hq, ← ha, ← hd]
  rfl

theorem sendRow_reads {ok c} (hw : w.Proper) (hm : 0x0B = fieldMaj w.w0) (hf : (fieldFunc w.w0).toNat = n) (h : sendRow w ok c = .ok i)
    (hc : ∀ q a, encode (c q a) = enc1 (packS (f9Of 0 (BitVec.ofNat 6 n)) (reg3 q) a 0 0x0B 0) ∧ (ok q = true → (c q a).wf = true)) :
    w.Reads i :=
  reads_one hw h (hc ..).1 fun _ hr hq hl => by
    simp only [Bool.and_eq_true, beq_iff_eq] at hr
    obtain ⟨⟨hv, hz⟩, hd⟩ := hr
    exact ⟨(hc ..).2 hq, packS_f9Of hv.symm hf (reg3_field.mpr ⟨hz, rfl⟩) rfl hd.symm hm hl⟩

theorem recvRow_reads {ok c} (hw : w.Proper) (hm : 0x0B = fieldMaj w.w0) (hf : (fieldFunc w.w0).toNat = n) (h : recvRow w ok c = .ok i)
    (hc : ∀ rd q, encode (c rd q) = enc1 (packS (f9Of 0 (BitVec.ofNat 6 n)) (reg3 q) 0 rd 0x0B 0) ∧ (ok q = true → (c rd q).wf = true)) :
    w.Reads i :=
  reads_one hw h (hc ..).1 fun _ hr hq hl => by
    simp only [Bool.and_eq_true, beq_iff_eq] at hr
    obtain ⟨⟨hv, hz⟩, ha⟩ := hr
    exact ⟨(hc ..).2 hq, packS_f9Of hv.symm hf (reg3_field.mpr ⟨hz, rfl⟩) ha.symm rfl hm hl⟩

theorem decodeQueue_reads (hw : w.Proper) (hm : 0x0B = fieldMaj w.w0) (h : decodeQueue w = .ok i) : w.Reads i := by
  unfold decodeQueue at h
  dsimp only at h
  split at h
  case h_1 hf => exact sendRow_reads (ok := fun q => q.toNat < 6) hw hm hf h fun _ _ => ⟨rfl, id⟩
  case h_2 hf => exact recvRow_reads (ok := fun q => q.toNat < 6) hw hm hf h fun _ _ => ⟨rfl, id⟩
  case h_3 hf => exact sendRow_reads (ok := fun q => 6 ≤ q.toNat) hw hm hf h fun _ _ => ⟨rfl, id⟩
  case h_4 hf => exact recvRow_reads (ok := fun _ => true) hw hm hf h fun _ _ => ⟨rfl, fun _ => rfl⟩
  case h_5 => cases h

/-! ### Major 0x0C -/

theorem decode_sysr {reg : BitVec 11} (h : sysrInstr rd reg = i) : decode [packI reg 0 0 rd 0x0C 0] = .ok i :=
  decode_packI (D := decodeSysrw) rfl fun w0 hi h3 ha hd => by
    rw [decodeSysrw, ← h3, ← ha, ← hd, ← hi, h]
    rfl

theorem decode_sysw {reg : BitVec 11} (h : syswInstr reg a = i) : decode [packI reg 1 a 0 0x0C 0] = .ok i :=
  decode_packI (D := decodeSysrw) rfl fun w0 hi h3 ha hd => by
    rw [decodeSysrw, ← h3, ← ha, ← hd, ← hi, h]
    rfl

theorem sysrInstr_of_ordinary {reg : BitVec 11} (h : sysrSpecial reg = false) : sysrInstr rd reg = .sysr rd reg := by
  simp only [sysrSpecial, Bool.or_eq_false_iff] at h
  simp only [sysrInstr, h, Bool.false_eq_true, if_false]

theorem syswInstr_of_ordinary {reg : BitVec 11} (h : syswSpecial reg = false) : syswInstr reg a = .sysw reg a := by
  simp only [syswSpecial, Bool.or_eq_false_iff] at h
  simp only [syswInstr, h, Bool.false_eq_true, if_false]

/-- A format register is none of the other registers that have rows of their own (R83). -/
theorem syswInstr_format {m : BitVec 3} : syswInstr (0x20#8 ++ m) a = .frset m a := by
  have h : ∀ m : BitVec 3, let reg := 0x20#8 ++ m; (reg == 0) = false ∧ (reg == 3) = false ∧ (reg == 4) = false ∧ (reg == 5) = false
      ∧ (reg == 0x15) = false ∧ (reg.extractLsb' 3 8 == 0x20) = true ∧ reg.extractLsb' 0 3 = m := by decide
  obtain ⟨h0, h3, h4, h5, ht, hf, hm⟩ := h m
  simp only [syswInstr, h0, h3, h4, h5, ht, hf, hm, Bool.false_eq_true, if_false, if_true]

theorem sysrInstr_encode (rd : Reg) (reg : BitVec 11) :
    encode (sysrInstr rd reg) = enc1 (packI reg 0 0 rd 0x0C 0) ∧ (sysrInstr rd reg).wf = true := by
  cases hs : sysrSpecial reg with
  | false =>
    rw [sysrInstr_of_ordinary hs]
    exact ⟨rfl, (Bool.not_eq_true' _).mpr hs⟩
  | true =>
    simp only [sysrSpecial, Bool.or_eq_true, beq_iff_eq] at hs
    obtain (rfl | rfl) | rfl := hs <;> exact ⟨rfl, rfl⟩

theorem syswInstr_encode (reg : BitVec 11) (a : Reg) :
    encode (syswInstr reg a) = enc1 (packI reg 1 a 0 0x0C 0) ∧ (syswInstr reg a).wf = true := by
  cases hs : syswSpecial reg with
  | false =>
    rw [syswInstr_of_ordinary hs]
    exact ⟨rfl, (Bool.not_eq_true' _).mpr hs⟩
  | true =>
    simp only [syswSpecial, Bool.or_eq_true, beq_iff_eq] at hs
    obtain hs | hf := hs
    · obtain (((rfl | rfl) | rfl) | rfl) | rfl := hs <;> exact ⟨rfl, rfl⟩
    · obtain ⟨m, rfl⟩ : ∃ m : BitVec 3, 0x20#8 ++ m = reg := ⟨_, (append_eq_iff ..).mpr ⟨hf.symm, rfl⟩⟩
      rw [syswInstr_format]
      exact ⟨rfl, rfl⟩

theorem decodeSysrw_reads (hw : w.Proper) (hm : 0x0C = fieldMaj w.w0) (h : decodeSysrw w = .ok i) : w.Reads i := by
  unfold decodeSysrw at h
  split at h
  case h_1 hf => exact reads_one hw h (sysrInstr_encode ..).1 fun _ ha _ hl =>
    ⟨(sysrInstr_encode ..).2, packI_eq_iff.mpr ⟨rfl, ofNat_of_toNat hf, (eq_of_beq ha).symm, rfl, hm, hl⟩⟩
  case h_2 hf => exact reads_one hw h (syswInstr_encode ..).1 fun _ hd _ hl =>
    ⟨(syswInstr_encode ..).2, packI_eq_iff.mpr ⟨rfl, ofNat_of_toNat hf, rfl, (eq_of_beq hd).symm, hm, hl⟩⟩
  case h_3 => cases h

end

end Sys2Proof
end

section
/-! PROOFS. The rows of the scalar majors 0x0D and 0x0E: which words they stand for. -/

namespace Sys2Proof

/-! ### Major 0x0D -/

/-- A row of `decodeSys` without operands. -/
def plainRow (w : Words) (i : Instr) : Except Illegal Instr :=
  verdict true w.bare (fieldVar w.w0 == 0 && fieldRd w.w0 == 0 && fieldRs1 w.w0 == 0 && fieldRs2 w.w0 == 0) true true i

/-- A row that waits. -/
def waitRow (w : Words) (c : Scope → Bool → Reg → Reg → Reg → Instr) : Except Illegal Instr :=
  verdict true w.bare true true true (c (Scope.of (w.w0.extractLsb' 30 2)) (bitOf w.w0 29) (fieldRd w.w0) (fieldRs1 w.w0) (fieldRs2 w.w0))

section
variable {w : Words} {i : Instr} {sc : Scope} {x : Bool} {f : BitVec 6} {b a rd : Reg} {n : Nat}

theorem decode_plain (row : ∀ w : Words, (fieldFunc w.w0).toNat = f.toNat → decodeSys w = plainRow w i) :
    decode [packS (f9Of 0 f) 0 0 0 0x0D 0] = .ok i :=
  decode_f9Of (D := decodeSys) rfl fun w0 hv hf hb ha hd => (row (.one w0) hf).trans (by rw [plainRow, ← hv, ← hb, ← ha, ← hd]; rfl)

theorem decode_wait {c} (row : ∀ w : Words, (fieldFunc w.w0).toNat = f.toNat → decodeSys w = waitRow w c) :
    decode [packS (f9Of (varWait sc x) f) b a rd 0x0D 0] = .ok (c sc x rd a b) :=
  decode_f9Of (D := decodeSys) rfl fun w0 hv hf hb ha hd => (row (.one w0) hf).trans (by
    obtain ⟨hsc, hx⟩ := varWait_eq_iff.mp hv
    rw [waitRow, hsc, hx, ← hb, ← ha, ← hd]
    rfl)

theorem decode_trap : decode [packS (f9Of 0 1) 0 a 0 0x0D 0] = .ok (.trap a) :=
  decode_f9Of (D := decodeSys) rfl fun w0 hv hf hb ha hd => by
    rw [decodeSys, hf, ← hv, ← hb, ← ha, ← hd]
    rfl

theorem decode_vmfence : decode [packS (f9Of 0 11) 0 a 0 0x0D 0] = .ok (.vmfence a) :=
  decode_f9Of (D := decodeSys) rfl fun w0 hv hf hb ha hd => by
    rw [decodeSys, hf, ← hv, ← hb, ← ha, ← hd]
    rfl

theorem decode_lnch : decode [packS (f9Of 0 12) 0 a rd 0x0D 0] = .ok (.lnch rd a) :=
  decode_f9Of (D := decodeSys) rfl fun w0 hv hf hb ha hd => by
    rw [decodeSys, hf, ← hv, ← hb, ← ha, ← hd]
    rfl

theorem decode_fence : decode [packS (f9Of 0 8) (0#3 ++ sc.bits) 0 0 0x0D 0] = .ok (.fence sc) :=
  decode_f9Of (D := decodeSys) rfl fun w0 hv hf hb ha hd => by
    obtain ⟨hz, hsc⟩ := scope_field.mp hb
    rw [decodeSys, hf, ← hv, hz, hsc, ← ha, ← hd]
    rfl

theorem plainRow_reads (hw : w.Proper) (hm : 0x0D = fieldMaj w.w0) (hf : (fieldFunc w.w0).toNat = n) {j : Instr} (h : plainRow w j = .ok i)
    (he : encode j = enc1 (packS (f9Of 0 (BitVec.ofNat 6 n)) 0 0 0 0x0D 0)) (hwf : j.wf = true) : w.Reads i :=
  reads_one hw h he fun _ hr _ hl => by
    simp only [Bool.and_eq_true, beq_iff_eq] at hr
    obtain ⟨⟨⟨hv, hd⟩, ha⟩, hb⟩ := hr
    exact ⟨hwf, packS_f9Of hv.symm hf hb.symm ha.symm hd.symm hm hl⟩

theorem waitRow_reads {c} (hw : w.Proper) (hm : 0x0D = fieldMaj w.w0) (hf : (fieldFunc w.w0).toNat = n) (h : waitRow w c = .ok i)
    (hc : ∀ sc x rd a b, encode (c sc x rd a b) = enc1 (packS (f9Of (varWait sc x) (BitVec.ofNat 6 n)) b a rd 0x0D 0)
      ∧ (c sc x rd a b).wf = true) : w.Reads i :=
  reads_one hw h (hc ..).1 fun _ _ _ hl => ⟨(hc ..).2, packS_f9Of (varWait_eq_iff.mpr ⟨rfl, rfl⟩) hf rfl rfl rfl hm hl⟩

theorem decodeSys_reads (hw : w.Proper) (hm : 0x0D = fieldMaj w.w0) (h : decodeSys w = .ok i) : w.Reads i := by
  unfold decodeSys at h
  dsimp only at h
  split at h
  case h_1 hf | h_3 hf | h_4 hf | h_5 hf | h_10 hf | h_11 hf => exact plainRow_reads hw hm hf h rfl rfl
  case h_6 hf | h_7 hf | h_8 hf => exact waitRow_reads hw hm hf h fun _ _ _ _ _ => ⟨rfl, rfl⟩
  case h_2 hf | h_12 hf =>
    refine reads_one hw h rfl fun _ hr _ hl => ?_
    simp only [Bool.and_eq_true, beq_iff_eq] at hr
    obtain ⟨⟨hv, hd⟩, hb⟩ := hr
    exact ⟨rfl, packS_f9Of hv.symm hf hb.symm rfl hd.symm hm hl⟩
  case h_9 hf =>
    refine reads_one hw h rfl fun _ hr _ hl => ?_
    simp only [Bool.and_eq_true, beq_iff_eq] at hr
    obtain ⟨⟨⟨hv, hd⟩, ha⟩, hz⟩ := hr
    exact ⟨rfl, packS_f9Of hv.symm hf (scope_field.mpr ⟨hz, rfl⟩) ha.symm hd.symm hm hl⟩
  case h_13 hf =>
    refine reads_one hw h rfl fun _ hr _ hl => ?_
    simp only [Bool.and_eq_true, beq_iff_eq] at hr
    obtain ⟨hv, hb⟩ := hr
    exact ⟨rfl, packS_f9Of hv.symm hf hb.symm rfl rfl hm hl⟩
  case h_14 => cases h

end

/-! ### Major 0x0E -/

section
variable {w : Words} {i : Instr} {q : BitVec 3} {x : Bool} {f : BitVec 6} {b a rd : Reg} {n : Nat}

/-- A push to an engine that takes records (R166). -/
theorem decode_enq (row : ∀ w : Words, bitsOf w.w0 18 3 = q.toNat → bitsOf w.w0 21 2 = 0 → fieldRs1 w.w0 = a → fieldRd w.w0 = rd →
    enqInstr w x = verdict true w.bare true true true i) : decode [packS (f9Of (varBit x) 0) (reg3 q) a rd 0x0E 0] = .ok i :=
  decode_f9Of (D := decodeEng) rfl fun w0 hv hf hb ha hd => by
    obtain ⟨hv, hx⟩ := varBit_eq_iff.mp hv
    obtain ⟨hz, hq⟩ := reg3_field.mp hb
    rw [decodeEng, hf, hv, hx]
    exact row (.one w0) (congrArg BitVec.toNat hq.symm) hz ha.symm hd.symm

theorem decode_enqCopy : decode [packS (f9Of (varBit x) 0) (reg3 0) a rd 0x0E 0] = .ok (.enqCopy x rd a) :=
  decode_enq fun _ hq hz ha hd => by rw [enqInstr, hq, hz, ha, hd]; rfl

theorem decode_enqNet : decode [packS (f9Of (varBit x) 0) (reg3 4) a rd 0x0E 0] = .ok (.enqNet x rd a) :=
  decode_enq fun _ hq hz ha hd => by rw [enqInstr, hq, hz, ha, hd]; rfl

theorem decode_deq : decode [packS (f9Of (varBit x) 1) (reg3 q) 0 rd 0x0E 0] = .ok (.deq x rd q) :=
  decode_f9Of (D := decodeEng) rfl fun w0 hv hf hb ha hd => by
    obtain ⟨hv, hx⟩ := varBit_eq_iff.mp hv
    obtain ⟨hz, hq⟩ := reg3_field.mp hb
    rw [decodeEng, hf, hv, hx, ← hq, hz, ← ha, ← hd]
    rfl

theorem decode_cpw : decode [packS (f9Of 0 2) (reg3 q) a 0 0x0E 0] = .ok (.cpw q a) :=
  decode_f9Of (D := decodeEng) rfl fun w0 hv hf hb ha hd => by
    obtain ⟨hz, hq⟩ := reg3_field.mp hb
    rw [decodeEng, hf, ← hv, ← hq, hz, ← ha, ← hd]
    rfl

theorem decode_cpgo : decode [packS (f9Of (varBit x) 3) 0 0 rd 0x0E 0] = .ok (.cpgo x rd) :=
  decode_f9Of (D := decodeEng) rfl fun w0 hv hf hb ha hd => by
    obtain ⟨hv, hx⟩ := varBit_eq_iff.mp hv
    rw [decodeEng, hf, hv, hx, ← hb, ← ha, ← hd]
    rfl

theorem decode_cpcan : decode [packS (f9Of 0 4) 0 a rd 0x0E 0] = .ok (.cpcan rd a) :=
  decode_f9Of (D := decodeEng) rfl fun w0 hv hf hb ha hd => by
    rw [decodeEng, hf, ← hv, ← hb, ← ha, ← hd]
    rfl

theorem decode_cpr : decode [packS (f9Of 0 5) (reg3 q) 0 rd 0x0E 0] = .ok (.cpr rd q) :=
  decode_f9Of (D := decodeEng) rfl fun w0 hv hf hb ha hd => by
    obtain ⟨hz, hq⟩ := reg3_field.mp hb
    rw [decodeEng, hf, ← hv, ← hq, hz, ← ha, ← hd]
    rfl

theorem decode_coefld (ht : b.toNat ≤ 2) : decode [packS (f9Of 0 6) b a 0 0x0E 0] = .ok (.coefld b a) :=
  decode_f9Of (D := decodeEng) rfl fun w0 hv hf hb ha hd => by
    rw [decodeEng, hf, ← hv, ← hb, ← ha, ← hd]
    exact verdict_eq_ok.mpr ⟨rfl, rfl, decide_eq_true ht, rfl, rfl, rfl⟩

theorem enqInstr_reads (hw : w.Proper) (hm : 0x0E = fieldMaj w.w0) (hv : bitsOf w.w0 30 2 = 0) (hf : (fieldFunc w.w0).toNat = 0)
    (h : enqInstr w (bitOf w.w0 29) = .ok i) : w.Reads i := by
  unfold enqInstr at h
  dsimp only at h
  split at h
  case h_1 hq | h_2 hq => exact reads_one hw h rfl fun _ hz _ hl =>
    ⟨rfl, packS_f9Of (varBit_eq_iff.mpr ⟨hv, rfl⟩) hf (reg3_field.mpr ⟨eq_of_beq hz, ofNat_of_toNat hq⟩) rfl rfl hm hl⟩
  case h_3 => split at h <;> cases h

theorem decodeEng_reads (hw : w.Proper) (hm : 0x0E = fieldMaj w.w0) (h : decodeEng w = .ok i) : w.Reads i := by
  unfold decodeEng at h
  dsimp only at h
  split at h
  case h_1 hf =>
    split at h
    next hv => exact enqInstr_reads hw hm (eq_of_beq hv) hf h
    next => cases h
  case h_2 hf =>
    refine reads_one hw h rfl fun hv hr _ hl => ?_
    simp only [Bool.and_eq_true, beq_iff_eq] at hv hr
    obtain ⟨hz, ha⟩ := hr
    exact ⟨rfl, packS_f9Of (varBit_eq_iff.mpr ⟨hv, rfl⟩) hf (reg3_field.mpr ⟨hz, rfl⟩) ha.symm rfl hm hl⟩
  case h_3 hf =>
    refine reads_one hw h rfl fun hv hr _ hl => ?_
    simp only [Bool.and_eq_true, beq_iff_eq] at hv hr
    obtain ⟨hz, hd⟩ := hr
    exact ⟨rfl, packS_f9Of hv.symm hf (reg3_field.mpr ⟨hz, rfl⟩) rfl hd.symm hm hl⟩
  case h_4 hf =>
    refine reads_one hw h rfl fun hv hr _ hl => ?_
    simp only [Bool.and_eq_true, beq_iff_eq] at hv hr
    obtain ⟨ha, hb⟩ := hr
    exact ⟨rfl, packS_f9Of (varBit_eq_iff.mpr ⟨hv, rfl⟩) hf hb.symm ha.symm rfl hm hl⟩
  case h_5 hf =>
    exact reads_one hw h rfl fun hv hr _ hl =>
      ⟨rfl, packS_f9Of (eq_of_beq hv).symm hf (eq_of_beq hr).symm rfl rfl hm hl⟩
  case h_6 hf =>
    refine reads_one hw h rfl fun hv hr _ hl => ?_
    simp only [Bool.and_eq_true, beq_iff_eq] at hv hr
    obtain ⟨hz, ha⟩ := hr
    exact ⟨rfl, packS_f9Of hv.symm hf (reg3_field.mpr ⟨hz, rfl⟩) ha.symm rfl hm hl⟩
  case h_7 hf =>
    refine reads_one hw h rfl fun hv hr _ hl => ?_
    obtain ⟨hd, ht⟩ := Bool.and_eq_true_iff.mp hr
    exact ⟨ht, packS_f9Of (eq_of_beq hv).symm hf rfl rfl (eq_of_beq hd).symm hm hl⟩
  case h_8 => cases h

end

end Sys2Proof
end

section
/-! PROOFS. The rows of majors 0x0F, 0x10 and 0x1D: which words they stand for. -/

namespace Sys2Proof

/-! ### Extended words of majors 0x0F and 0x1D -/

section
variable {w : W32}

theorem regWord_eq_iff {xs2 xs : Reg} : regWord xs2 xs = w ↔
    bitsOf w 29 3 = 0 ∧ xs2 = w.extractLsb' 24 5 ∧ xs = w.extractLsb' 19 5 ∧ bitsOf w 0 19 = 0 := by
  rw [bitsOf_eq_zero_iff, bitsOf_eq_zero_iff]
  simp (disch := decide) only [regWord, append_eq_iff, extract_extract, and_assoc]

theorem platmkWord_eq_iff {iw : Bool} {lsz : BitVec 4} : 0#23 ++ BitVec.ofBool iw ++ 0#4 ++ lsz = w ↔
    bitsOf w 9 23 = 0 ∧ bitOf w 8 = iw ∧ bitsOf w 4 4 = 0 ∧ lsz = w.extractLsb' 0 4 := by
  rw [bitsOf_eq_zero_iff, bitsOf_eq_zero_iff, bitOf_eq_iff]
  simp (disch := decide) only [append_eq_iff, extract_extract, and_assoc]

theorem ScatOp.of_eq_some {b : BitVec 4} {o : ScatOp} : ScatOp.of b = some o ↔ o.bits = b := by
  revert b
  cases o <;> decide

theorem ScatType.of_eq_some {b : BitVec 4} {t : ScatType} : ScatType.of b = some t ↔ t.bits = b := by
  revert b
  cases t <;> decide

theorem platsWord_eq_iff {pl : Bool} {xpl : Reg} {ty : ScatType} {op : ScatOp} :
    0#18 ++ BitVec.ofBool pl ++ xpl ++ ty.bits ++ op.bits = w ↔ bitsOf w 14 18 = 0 ∧ bitOf w 13 = pl ∧ xpl = w.extractLsb' 8 5
      ∧ ScatType.of (w.extractLsb' 4 4) = some ty ∧ ScatOp.of (w.extractLsb' 0 4) = some op := by
  rw [bitsOf_eq_zero_iff, bitOf_eq_iff, ScatType.of_eq_some, ScatOp.of_eq_some]
  simp (disch := decide) only [append_eq_iff, extract_extract, and_assoc]

theorem kzWord_eq_iff {kz : Bool} : 0#31 ++ BitVec.ofBool kz = w ↔ bitsOf w 1 31 = 0 ∧ bitOf w 0 = kz := by
  rw [bitsOf_eq_zero_iff, bitOf_eq_iff]
  exact append_eq_iff ..

end

/-! ### Major 0x0F -/

section
variable {w : Words} {i : Instr} {x : Bool} {f : BitVec 6} {b a rd xs xs2 : Reg} {n : Nat}

theorem decode_platmk {iw : Bool} {lsz : BitVec 4} (hwf : lsz.toNat ≤ 8) :
    decode [packS (f9Of 0 0) b a rd 0x0F 2, 0#23 ++ BitVec.ofBool iw ++ 0#4 ++ lsz, regWord xs2 xs] = .ok (.platmk rd a b xs xs2 iw lsz) :=
  decode_f9OfExt (D := decodePlat) rfl fun w0 w1 w2 hv hf hb ha hd h1 h2 => by
    obtain ⟨hz, hiw, hz', hlsz⟩ := platmkWord_eq_iff.mp h1
    obtain ⟨ht, hxs2, hxs, hlow⟩ := regWord_eq_iff.mp h2
    rw [decodePlat, hf, ← hv, hz, hiw, hz', ← hlsz, ht, ← hxs2, ← hxs, hlow, ← hb, ← ha, ← hd]
    exact verdict_eq_ok.mpr ⟨rfl, rfl, by simp [hwf], rfl, rfl, rfl⟩

theorem decode_platg : decode [packS (f9Of (varBit x) 1) b a rd 0x0F 2, 0, regWord xs2 xs] = .ok (.platg x rd a b xs xs2) :=
  decode_f9OfExt (D := decodePlat) rfl fun w0 w1 w2 hv hf hb ha hd h1 h2 => by
    obtain ⟨hv, hx⟩ := varBit_eq_iff.mp hv
    obtain ⟨ht, hxs2, hxs, hlow⟩ := regWord_eq_iff.mp h2
    rw [decodePlat, hf, hv, hx, ht, ← hxs2, ← hxs, hlow, ← hb, ← ha, ← hd, ← h1]
    rfl

theorem decode_plats {op : ScatOp} {ty : ScatType} {pl : Bool} {xpl : Reg}
    (hwf : (((op != .last && op != .swap) || ty == .i32) && (pl || xpl == 0)) = true) :
    decode [packS (f9Of (varBit x) 2) b a rd 0x0F 2, 0#18 ++ BitVec.ofBool pl ++ xpl ++ ty.bits ++ op.bits, regWord xs2 xs]
      = .ok (.plats x op ty pl xpl rd a b xs xs2) :=
  decode_f9OfExt (D := decodePlat) rfl fun w0 w1 w2 hv hf hb ha hd h1 h2 => by
    obtain ⟨hv, hx⟩ := varBit_eq_iff.mp hv
    obtain ⟨hz, hpl, hxpl, hty, hop⟩ := platsWord_eq_iff.mp h1
    obtain ⟨ht, hxs2, hxs, hlow⟩ := regWord_eq_iff.mp h2
    obtain ⟨hcomb, hpay⟩ := Bool.and_eq_true_iff.mp hwf
    rw [decodePlat, hf, hv, hx, ht, ← hxs2, ← hxs, hlow, ← hb, ← ha, ← hd, hz, hpl, ← hxpl, hty, hop]
    exact verdict_eq_ok.mpr ⟨rfl, rfl, by rw [hcomb, hpay]; rfl, rfl, rfl, rfl⟩

theorem decode_platco : decode [packS (f9Of 0 3) b a rd 0x0F 2, 0, regWord 0 xs] = .ok (.platco rd a b xs) :=
  decode_f9OfExt (D := decodePlat) rfl fun w0 w1 w2 hv hf hb ha hd h1 h2 => by
    obtain ⟨ht, hxs2, hxs, hlow⟩ := regWord_eq_iff.mp h2
    rw [decodePlat, hf, ← hv, ht, ← hxs2, ← hxs, hlow, ← hb, ← ha, ← hd, ← h1]
    rfl

theorem decode_platck : decode [packS (f9Of 0 4) 0 a rd 0x0F 2, 0, 0] = .ok (.platck rd a) :=
  decode_f9OfExt (D := decodePlat) rfl fun w0 w1 w2 hv hf hb ha hd h1 h2 => by
    rw [decodePlat, hf, ← hv, ← hb, ← ha, ← hd, ← h1, ← h2]
    rfl

theorem decode_platrl : decode [packS (f9Of 0 5) 0 a 0 0x0F 2, 0, 0] = .ok (.platrl a) :=
  decode_f9OfExt (D := decodePlat) rfl fun w0 w1 w2 hv hf hb ha hd h1 h2 => by
    rw [decodePlat, hf, ← hv, ← hb, ← ha, ← hd, ← h1, ← h2]
    rfl

theorem decodePlat_reads (hw : w.Proper) (hm : 0x0F = fieldMaj w.w0) (h : decodePlat w = .ok i) : w.Reads i := by
  unfold decodePlat at h
  dsimp only at h
  split at h
  case h_1 hf =>
    refine reads_two hw h rfl fun _ hr _ hl => ?_
    simp only [Bool.and_eq_true, beq_iff_eq] at hr
    obtain ⟨⟨⟨⟨hv, hz⟩, hz'⟩, hlsz⟩, ht, hlow⟩ := hr
    exact ⟨hlsz, packS_f9Of hv.symm hf rfl rfl rfl hm hl, platmkWord_eq_iff.mpr ⟨hz, rfl, hz', rfl⟩,
      regWord_eq_iff.mpr ⟨ht, rfl, rfl, hlow⟩⟩
  case h_2 hf =>
    refine reads_two hw h rfl fun _ hr hv hl => ?_
    simp only [Bool.and_eq_true, beq_iff_eq] at hr hv
    obtain ⟨h1, ht, hlow⟩ := hr
    exact ⟨rfl, packS_f9Of (varBit_eq_iff.mpr ⟨hv, rfl⟩) hf rfl rfl rfl hm hl, h1.symm, regWord_eq_iff.mpr ⟨ht, rfl, rfl, hlow⟩⟩
  case h_3 hf =>
    split at h
    next op ty hop hty =>
      refine reads_two hw h rfl fun _ hr hv hl => ?_
      obtain ⟨hr, hpay⟩ := Bool.and_eq_true_iff.mp hr
      obtain ⟨hr, hcomb⟩ := Bool.and_eq_true_iff.mp hr
      simp only [Bool.and_eq_true, beq_iff_eq] at hr hv
      obtain ⟨hz, ht, hlow⟩ := hr
      exact ⟨Bool.and_eq_true_iff.mpr ⟨hcomb, hpay⟩, packS_f9Of (varBit_eq_iff.mpr ⟨hv, rfl⟩) hf rfl rfl rfl hm hl,
        platsWord_eq_iff.mpr ⟨hz, rfl, rfl, hty, hop⟩, regWord_eq_iff.mpr ⟨ht, rfl, rfl, hlow⟩⟩
    next => cases h
  case h_4 hf =>
    refine reads_two hw h rfl fun _ hr _ hl => ?_
    simp only [Bool.and_eq_true, beq_iff_eq] at hr
    obtain ⟨⟨⟨hv, h1⟩, ht, hlow⟩, hxs2⟩ := hr
    exact ⟨rfl, packS_f9Of hv.symm hf rfl rfl rfl hm hl, h1.symm, regWord_eq_iff.mpr ⟨ht, hxs2.symm, rfl, hlow⟩⟩
  case h_5 hf =>
    refine reads_two hw h rfl fun _ hr _ hl => ?_
    simp only [Bool.and_eq_true, beq_iff_eq] at hr
    obtain ⟨⟨⟨hv, hb⟩, h1⟩, h2⟩ := hr
    exact ⟨rfl, packS_f9Of hv.symm hf hb.symm rfl rfl hm hl, h1.symm, h2.symm⟩
  case h_6 hf =>
    refine reads_two hw h rfl fun _ hr _ hl => ?_
    simp only [Bool.and_eq_true, beq_iff_eq] at hr
    obtain ⟨⟨⟨⟨hv, hd⟩, hb⟩, h1⟩, h2⟩ := hr
    exact ⟨rfl, packS_f9Of hv.symm hf hb.symm rfl hd.symm hm hl, h1.symm, h2.symm⟩
  case h_7 => cases h

/-! ### Major 0x10 -/

theorem decode_setl {vt : W32} : decode [packS 0 b a rd 0x10 1, vt, 0] = .ok (.setl rd a b vt) := by
  obtain ⟨h9, hb, ha, hd, hm, hl⟩ := packS_eq_iff.mp (rfl : packS 0 b a rd 0x10 1 = _)
  obtain ⟨hhi, hlo⟩ := (append_eq_iff 0#32 vt _).mp rfl
  have h : decodeSetl (.withLit (packS 0 b a rd 0x10 1) (0#32 ++ vt)) = .ok (.setl rd a b vt) :=
    verdict_eq_ok.mpr ⟨rfl, rfl, Bool.and_eq_true_iff.mpr ⟨beq_iff_eq.mpr h9.symm, beq_iff_eq.mpr hhi.symm⟩, rfl, rfl,
      by rw [← hb, ← ha, ← hd, Option.getD_some, ← hlo]⟩
  have hd := decode_withLit hm hl h
  rwa [← hhi, ← hlo] at hd

theorem decodeSetl_reads (hw : w.Proper) (hm : 0x10 = fieldMaj w.w0) (h : decodeSetl w = .ok i) : w.Reads i := by
  obtain ⟨w0, w1, w2, ext, lit⟩ := w
  obtain ⟨-, hlen, hr, -, -, rfl⟩ := verdict_eq_ok.mp h
  obtain ⟨he, hs⟩ := Bool.and_eq_true_iff.mp hlen
  obtain ⟨d, rfl⟩ := Option.isSome_iff_exists.mp hs
  obtain rfl : ext = false := by simpa using he
  obtain ⟨h9, hhi⟩ := Bool.and_eq_true_iff.mp hr
  exact ⟨rfl, congrArg₂ (fun a b => some [a, d.extractLsb' 0 32, b])
    (packS_eq_iff.mpr ⟨(eq_of_beq h9).symm, rfl, rfl, rfl, hm, hw.len⟩) (eq_of_beq hhi).symm⟩

/-! ### Major 0x1D -/

theorem decode_sphdr : decode [packS (f9Of (varBit x) 0) 0 a rd 0x1D 2, 0, 0] = .ok (.sphdr x rd a) :=
  decode_f9OfExt (D := decodeSparse) rfl fun w0 w1 w2 hv hf hb ha hd h1 h2 => by
    obtain ⟨hv, hx⟩ := varBit_eq_iff.mp hv
    rw [decodeSparse, hf, hv, hx, ← hb, ← ha, ← hd, ← h1, ← h2]
    rfl

/-- A row of `decodeSparse` that walks lines. -/
def linesRow (w : Words) (c : Bool → Reg → Reg → Reg → Reg → Reg → Instr) : Except Illegal Instr :=
  verdict (!bitOf w.w0 29) w.extOnly
    (bitsOf w.w0 30 2 == 0 && bitsOf w.w1 1 31 == 0 && (bitsOf w.w2 29 3 == 0 && bitsOf w.w2 0 19 == 0)) true true
    (c (bitOf w.w1 0) (fieldRd w.w0) (fieldRs1 w.w0) (fieldRs2 w.w0) (w.w2.extractLsb' 19 5) (w.w2.extractLsb' 24 5))

theorem decode_lines {c} {kz : Bool} (row : ∀ w : Words, (fieldFunc w.w0).toNat = f.toNat → decodeSparse w = linesRow w c) :
    decode [packS (f9Of 0 f) b a rd 0x1D 2, 0#31 ++ BitVec.ofBool kz, regWord xs2 xs] = .ok (c kz rd a b xs xs2) :=
  decode_f9OfExt (D := decodeSparse) rfl fun w0 w1 w2 hv hf hb ha hd h1 h2 => (row (.two w0 w1 w2) hf).trans (by
    obtain ⟨hv, hx⟩ := (varBit_eq_iff (x := false)).mp hv
    obtain ⟨hz, hkz⟩ := kzWord_eq_iff.mp h1
    obtain ⟨ht, hxs2, hxs, hlow⟩ := regWord_eq_iff.mp h2
    rw [linesRow, hv, hx, hz, hkz, ht, ← hxs2, ← hxs, hlow, ← hb, ← ha, ← hd]
    rfl)

theorem linesRow_reads {c} (hw : w.Proper) (hm : 0x1D = fieldMaj w.w0) (hf : (fieldFunc w.w0).toNat = n) (h : linesRow w c = .ok i)
    (hc : ∀ kz rd a b xs xs2, encode (c kz rd a b xs xs2) =
        encExt (packS (f9Of 0 (BitVec.ofNat 6 n)) b a rd 0x1D 2) (0#31 ++ BitVec.ofBool kz) (regWord xs2 xs)
      ∧ (c kz rd a b xs xs2).wf = true) : w.Reads i :=
  reads_two hw h (hc ..).1 fun hx hr _ hl => by
    simp only [Bool.and_eq_true, beq_iff_eq] at hr
    obtain ⟨⟨hv, hz⟩, ht, hlow⟩ := hr
    exact ⟨(hc ..).2, packS_f9Of ((varBit_eq_iff (x := false)).mpr ⟨hv, (Bool.not_eq_true' _).mp hx⟩) hf rfl rfl rfl hm hl,
      kzWord_eq_iff.mpr ⟨hz, rfl⟩, regWord_eq_iff.mpr ⟨ht, rfl, rfl, hlow⟩⟩

theorem decodeSparse_reads (hw : w.Proper) (hm : 0x1D = fieldMaj w.w0) (h : decodeSparse w = .ok i) : w.Reads i := by
  unfold decodeSparse at h
  dsimp only at h
  split at h
  case h_1 hf =>
    refine reads_two hw h rfl fun _ hr _ hl => ?_
    simp only [Bool.and_eq_true, beq_iff_eq] at hr
    obtain ⟨⟨⟨hv, hb⟩, h1⟩, h2⟩ := hr
    exact ⟨rfl, packS_f9Of (varBit_eq_iff.mpr ⟨hv, rfl⟩) hf hb.symm rfl rfl hm hl, h1.symm, h2.symm⟩
  case h_2 hf | h_3 hf => exact linesRow_reads hw hm hf h fun _ _ _ _ _ _ => ⟨rfl, rfl⟩
  case h_4 => cases h

end

end Sys2Proof
end

section
/-! PROOFS. The row engine's major 0x1C (R248): which words its forms stand for. -/

namespace Sys2Proof

/-! ### Forms -/

theorem decodeMajor_form {maj : Nat} (w : Words) (hlo : 0x11 ≤ maj) (hhi : maj ≤ 0x1C) : decodeMajor maj w =
    match decodeForm maj w with
    | .error e => .error e
    | .ok f =>
      match formInstr w.ext f with
      | some i => .ok i
      | none => unassigned := by
  interval_cases maj <;> rfl

theorem decodeMajor_of_form {maj : Nat} {w : Words} {f : VForm} {i : Instr} (hlo : 0x11 ≤ maj) (hhi : maj ≤ 0x1C)
    (hf : decodeForm maj w = .ok f) (hi : formInstr w.ext f = some i) : decodeMajor maj w = .ok i := by
  rw [decodeMajor_form w hlo hhi, hf]
  dsimp only
  rw [hi]

/-! ### Word 1 of major 0x1C -/

section
variable {w : W32} {row0 : BitVec 3} {aJ aT m : BitVec 4} {vX : Spec}

theorem rowWord_eq_iff : rowWord row0 aJ aT vX m = w ↔ bitsOf w 22 10 = 0 ∧ row0 = w.extractLsb' 19 3 ∧ aJ = w.extractLsb' 15 4
    ∧ aT = w.extractLsb' 11 4 ∧ vX = w.extractLsb' 4 7 ∧ m = w.extractLsb' 0 4 := by
  rw [bitsOf_eq_zero_iff]
  simp (disch := decide) only [rowWord, append_eq_iff, extract_extract, and_assoc]

theorem rowFields_eq_zero_iff : bitsOf w 4 18 = 0 ↔
    0#3 = w.extractLsb' 19 3 ∧ 0#4 = w.extractLsb' 15 4 ∧ 0#4 = w.extractLsb' 11 4 ∧ 0#7 = w.extractLsb' 4 7 := by
  rw [bitsOf_eq_zero_iff, show 0#18 = 0#3 ++ 0#4 ++ 0#4 ++ 0#7 from rfl]
  simp (disch := decide) only [append_eq_iff, extract_extract, and_assoc]

theorem rowTiles_eq_zero_iff : bitsOf w 11 11 = 0 ↔ 0#3 = w.extractLsb' 19 3 ∧ 0#4 = w.extractLsb' 15 4 ∧ 0#4 = w.extractLsb' 11 4 := by
  rw [bitsOf_eq_zero_iff, show 0#11 = 0#3 ++ 0#4 ++ 0#4 from rfl]
  simp (disch := decide) only [append_eq_iff, extract_extract, and_assoc]

theorem rowOperand_eq_zero_iff : bitsOf w 0 11 = 0 ↔ 0#7 = w.extractLsb' 4 7 ∧ 0#4 = w.extractLsb' 0 4 := by
  rw [bitsOf_eq_zero_iff, show 0#11 = 0#7 ++ 0#4 from rfl]
  simp (disch := decide) only [append_eq_iff, extract_extract]

end

section
variable {w : Words} {i : Instr} {x : Bool} {f : BitVec 6} {a rd : Reg} {row0 : BitVec 3} {aJ aT m : BitVec 4} {vX : Spec} {n : Nat}

theorem decode_row {g : VForm}
    (h : ∀ w0 w1 w2, bitsOf w0 30 2 = 0 → bitOf w0 29 = x → (fieldFunc w0).toNat = f.toNat → 0 = fieldRs2 w0 → a = fieldRs1 w0 →
      rd = fieldRd w0 → rowWord row0 aJ aT vX m = w1 → 0 = w2 → decodeRow (.two w0 w1 w2) = .ok g)
    (hi : formInstr true g = some i) :
    decode [packS (f9Of (varBit x) f) 0 a rd 0x1C 2, rowWord row0 aJ aT vX m, 0] = .ok i :=
  decode_f9OfExt rfl fun w0 w1 w2 hv hf hb ha hd h1 h2 => by
    obtain ⟨hv, hx⟩ := varBit_eq_iff.mp hv
    exact decodeMajor_of_form (by decide) (by decide) (h w0 w1 w2 hv hx hf hb ha hd h1 h2) hi

theorem fieldVar_eq_zero {w : W32} (hv : bitsOf w 30 2 = 0) (hx : bitOf w 29 = false) : fieldVar w = 0 :=
  ((varBit_eq_iff (x := false)).mpr ⟨hv, hx⟩).symm

theorem decode_rmbind : decode [packS (f9Of 0 0) 0 a rd 0x1C 2, rowWord 0 0 0 0 m, 0] = .ok (.rmbind rd a m) :=
  decode_row (x := false) (g := .row 0 false rd a 0 0 0 0 m) (fun w0 w1 w2 hv hx hf hb ha hd h1 h2 => by
    obtain ⟨hz, hr, hJ, hT, hX, hm⟩ := rowWord_eq_iff.mp h1
    rw [decodeRow, hf, hv, hx, hz, rowFields_eq_zero_iff.mpr ⟨hr, hJ, hT, hX⟩, ← hr, ← hJ, ← hT, ← hX, ← hm, ← hb, ← ha, ← hd, ← h2]
    rfl) rfl

theorem decode_rmbindUnbind : decode [packS (f9Of (varBit true) 0) 0 0 0 0x1C 2, rowWord 0 0 0 0 m, 0] = .ok (.rmbindUnbind m) :=
  decode_row (g := .row 0 true 0 0 0 0 0 0 m) (fun w0 w1 w2 hv hx hf hb ha hd h1 h2 => by
    obtain ⟨hz, hr, hJ, hT, hX, hm⟩ := rowWord_eq_iff.mp h1
    rw [decodeRow, hf, hv, hx, hz, rowFields_eq_zero_iff.mpr ⟨hr, hJ, hT, hX⟩, ← hr, ← hJ, ← hT, ← hX, ← hm, ← hb, ← ha, ← hd, ← h2]
    rfl) rfl

theorem decode_rmfire (hX : Kind.src.ok vX = true) :
    decode [packS (f9Of 0 1) 0 0 0 0x1C 2, rowWord 0 0 0 vX m, 0] = .ok (.rmfire vX m) :=
  decode_row (x := false) (g := .row 1 false 0 0 0 0 0 vX m) (fun w0 w1 w2 hv hx hf hb ha hd h1 h2 => by
    obtain ⟨hz, hr, hJ, hT, hvX, hm⟩ := rowWord_eq_iff.mp h1
    rw [decodeRow, hf, fieldVar_eq_zero hv hx, hx, hz, rowTiles_eq_zero_iff.mpr ⟨hr, hJ, hT⟩, ← hr, ← hJ, ← hT, ← hvX, ← hm, ← hb, ← ha,
      ← hd, ← h2, hX]
    rfl) rfl

theorem decode_rmmul (hX : Kind.src.ok vX = true) :
    decode [packS (f9Of (varBit x) 2) 0 0 0 0x1C 2, rowWord row0 aJ aT vX m, 0] = .ok (.rmmul x aT aJ vX m row0) :=
  decode_row (g := .row 2 x 0 0 row0 aJ aT vX m) (fun w0 w1 w2 hv hx hf hb ha hd h1 h2 => by
    obtain ⟨hz, hr, hJ, hT, hvX, hm⟩ := rowWord_eq_iff.mp h1
    rw [decodeRow, hf, hv, hx, hz, ← hr, ← hJ, ← hT, ← hvX, ← hm, ← hb, ← ha, ← hd, ← h2, hX]
    rfl) rfl

theorem decode_rmjoin : decode [packS (f9Of 0 3) 0 0 0 0x1C 2, rowWord 0 aJ aT 0 0, 0] = .ok (.rmjoin aT aJ) :=
  decode_row (x := false) (g := .row 3 false 0 0 0 aJ aT 0 0) (fun w0 w1 w2 hv hx hf hb ha hd h1 h2 => by
    obtain ⟨hz, hr, hJ, hT, hX, hm⟩ := rowWord_eq_iff.mp h1
    rw [decodeRow, hf, fieldVar_eq_zero hv hx, hx, hz, rowOperand_eq_zero_iff.mpr ⟨hX, hm⟩, ← hr, ← hJ, ← hT, ← hX, ← hm, ← hb, ← ha,
      ← hd, ← h2]
    rfl) rfl

/-- A row of `decodeRow` that names a map and at most a result register. -/
theorem decode_mapRow (row : ∀ w : Words, (fieldFunc w.w0).toNat = f.toNat → fieldVar w.w0 = 0 → fieldRd w.w0 = rd → fieldRs1 w.w0 = 0 →
      bitsOf w.w1 22 10 = 0 → w.w2 = 0 → fieldRs2 w.w0 = 0 → bitsOf w.w1 4 18 = 0 →
      decodeRow w = verdict true w.extOnly true true true (.row f.toNat (bitOf w.w0 29) (fieldRd w.w0) (fieldRs1 w.w0)
        (w.w1.extractLsb' 19 3) (w.w1.extractLsb' 15 4) (w.w1.extractLsb' 11 4) (w.w1.extractLsb' 4 7) (w.w1.extractLsb' 0 4)))
    (hi : rowInstr f.toNat false rd 0 0 0 0 0 m = some i) :
    decode [packS (f9Of 0 f) 0 0 rd 0x1C 2, rowWord 0 0 0 0 m, 0] = .ok i :=
  decode_row (x := false) (g := .row f.toNat false rd 0 0 0 0 0 m) (fun w0 w1 w2 hv hx hf hb ha hd h1 h2 => by
    obtain ⟨hz, hr, hJ, hT, hX, hm⟩ := rowWord_eq_iff.mp h1
    rw [row (.two w0 w1 w2) hf (fieldVar_eq_zero hv hx) hd.symm ha.symm hz h2.symm hb.symm (rowFields_eq_zero_iff.mpr ⟨hr, hJ, hT, hX⟩),
      hx, ← hr, ← hJ, ← hT, ← hX, ← hm, ← ha, ← hd]
    rfl) hi

theorem packS_row {v : BitVec 3} (hf : (fieldFunc w.w0).toNat = n) (hv : v = fieldVar w.w0) (hb : fieldRs2 w.w0 = 0)
    (ha : a = fieldRs1 w.w0) (hd : rd = fieldRd w.w0) (hm : 0x1C = fieldMaj w.w0) (hl : 2 = fieldL w.w0)
    (h1 : rowWord row0 aJ aT vX m = w.w1) (h2 : w.w2 = 0)
    (ht : w.toList = [w.w0, w.w1, w.w2]) :
    encExt (packS (f9Of v (BitVec.ofNat 6 n)) 0 a rd 0x1C 2) (rowWord row0 aJ aT vX m) 0 = some w.toList := by
  rw [packS_f9Of hv hf hb.symm ha hd hm hl, h1, ht, h2]
  rfl

theorem decodeRow_reads {g : VForm} (hw : w.Proper) (hm : 0x1C = fieldMaj w.w0) (h : decodeRow w = .ok g)
    (hi : formInstr w.ext g = some i) : w.Reads i := by
  unfold decodeRow at h
  dsimp only at h
  split at h
  case h_1 hf =>
    obtain ⟨-, hr, -, -, rfl, hl, ht⟩ := verdict_extOnly hw h
    simp only [Bool.and_eq_true, beq_iff_eq] at hr
    obtain ⟨⟨hv, ⟨⟨hz, h2⟩, hb⟩, h0⟩, hu⟩ := hr
    obtain ⟨hr, hJ, hT, hX⟩ := rowFields_eq_zero_iff.mp h0
    have h1 := rowWord_eq_iff.mpr ⟨hz, hr, hJ, hT, hX, rfl⟩
    rw [hf] at hi
    cases hx : bitOf w.w0 29 with
    | false =>
      rw [hx] at hi
      cases hi
      exact ⟨rfl, packS_row hf (fieldVar_eq_zero hv hx).symm hb rfl rfl hm hl h1 h2 ht⟩
    | true =>
      rw [hx] at hi hu
      cases hi
      simp only [Bool.not_true, Bool.false_or, Bool.and_eq_true, beq_iff_eq] at hu
      obtain ⟨hd, ha⟩ := hu
      exact ⟨rfl, packS_row hf (varBit_eq_iff.mpr ⟨hv, hx⟩) hb ha.symm hd.symm hm hl h1 h2 ht⟩
  case h_2 hf =>
    obtain ⟨-, hr, -, hs, rfl, hl, ht⟩ := verdict_extOnly hw h
    simp only [Bool.and_eq_true, beq_iff_eq] at hr
    obtain ⟨⟨⟨⟨hv, ⟨hz, h2⟩, hb⟩, hd⟩, ha⟩, h0⟩ := hr
    obtain ⟨hr, hJ, hT⟩ := rowTiles_eq_zero_iff.mp h0
    rw [hf] at hi
    cases hi
    exact ⟨hs, packS_row hf hv.symm hb ha.symm hd.symm hm hl (rowWord_eq_iff.mpr ⟨hz, hr, hJ, hT, rfl, rfl⟩) h2 ht⟩
  case h_3 hf =>
    obtain ⟨-, hr, -, hs, rfl, hl, ht⟩ := verdict_extOnly hw h
    simp only [Bool.and_eq_true, beq_iff_eq] at hr
    obtain ⟨⟨⟨hv, ⟨hz, h2⟩, hb⟩, hd⟩, ha⟩ := hr
    rw [hf] at hi
    cases hi
    have h1 := rowWord_eq_iff.mpr ⟨hz, rfl, rfl, rfl, rfl, rfl⟩
    exact ⟨hs, packS_row hf (varBit_eq_iff.mpr ⟨hv, rfl⟩) hb ha.symm hd.symm hm hl h1 h2 ht⟩
  case h_4 hf =>
    obtain ⟨-, hr, -, -, rfl, hl, ht⟩ := verdict_extOnly hw h
    simp only [Bool.and_eq_true, beq_iff_eq] at hr
    obtain ⟨⟨⟨⟨⟨hv, ⟨hz, h2⟩, hb⟩, hd⟩, ha⟩, h0⟩, hr⟩ := hr
    obtain ⟨hX, hm'⟩ := rowOperand_eq_zero_iff.mp h0
    rw [hf] at hi
    cases hi
    exact ⟨rfl, packS_row hf hv.symm hb ha.symm hd.symm hm hl (rowWord_eq_iff.mpr ⟨hz, hr.symm, rfl, rfl, hX, hm'⟩) h2 ht⟩
  case h_5 hf | h_7 hf =>
    obtain ⟨-, hr, -, -, rfl, hl, ht⟩ := verdict_extOnly hw h
    simp only [Bool.and_eq_true, beq_iff_eq] at hr
    obtain ⟨⟨hv, ⟨⟨hz, h2⟩, hb⟩, h0⟩, ha⟩ := hr
    obtain ⟨hr, hJ, hT, hX⟩ := rowFields_eq_zero_iff.mp h0
    rw [hf] at hi
    cases hi
    exact ⟨rfl, packS_row hf hv.symm hb ha.symm rfl hm hl (rowWord_eq_iff.mpr ⟨hz, hr, hJ, hT, hX, rfl⟩) h2 ht⟩
  case h_6 hf =>
    obtain ⟨-, hr, -, -, rfl, hl, ht⟩ := verdict_extOnly hw h
    simp only [Bool.and_eq_true, beq_iff_eq] at hr
    obtain ⟨⟨⟨hv, ⟨⟨hz, h2⟩, hb⟩, h0⟩, hd⟩, ha⟩ := hr
    obtain ⟨hr, hJ, hT, hX⟩ := rowFields_eq_zero_iff.mp h0
    rw [hf] at hi
    cases hi
    exact ⟨rfl, packS_row hf hv.symm hb ha.symm hd.symm hm hl (rowWord_eq_iff.mpr ⟨hz, hr, hJ, hT, hX, rfl⟩) h2 ht⟩
  case h_8 => cases h

end

end Sys2Proof
end

section
/-! PROOFS. The vector majors 0x11 to 0x1B (R63, R64, R188, R195, R224): which words their instructions stand for. -/

namespace Sys2Proof

section
variable {maj f3 : Nat} {o : VOp} {x : Ext} {lit : Option W64} {i : Instr} {u : VShape}

/-! ### Checks of a function -/

theorem wfExt_iff : wfExt maj f3 o x = true ↔
    ∃ u, vShape maj f3 x.fx = some u ∧ u.fx = true ∧ u.resOk o x = true ∧ u.combOk x = true ∧ u.specOk o x = true := by
  unfold wfExt
  cases vShape maj f3 x.fx <;> simp [and_assoc]

theorem wfBase_iff : wfBase maj f3 o = true ↔
    ∃ u, vShape maj f3 0 = some u ∧ u.ext = false ∧ u.resOk o .base = true ∧ u.combOk .base = true ∧ u.specOk o .base = true := by
  unfold wfBase
  cases vShape maj f3 0 <;> simp [and_assoc]

/-- Function extension 0 is assigned in every function (R195). -/
theorem vShape_zero_fx (h : vShape maj f3 0 = some u) : u.fx = true := by
  unfold vShape at h
  dsimp only at h
  split at h <;> cases h <;> rfl

/-! ### The instruction of a function -/

/-- The words of a function of a vector major with extended words and perhaps a literal. -/
def vecWords (maj : BitVec 6) (f3 : BitVec 3) (o : VOp) (x : Ext) (lit : Option W64) : Words :=
  { w0 := packV f3 o maj (if lit.isSome then 3 else 2), w1 := packX1 x, w2 := packX2 x, ext := true, lit := lit }

theorem encMem_eq {f3 : BitVec 3} {m : MemOp} {rnd : BitVec 3} {fx : BitVec 8} :
    encMem f3 o m rnd fx = some (vecWords 0x12 f3 o (m.ext rnd fx) m.disp).toList := by
  unfold encMem
  cases m.disp <;> rfl

theorem baseInstr_encode (hwf : wfBase maj f3 o = true) (hi : baseInstr maj f3 o = some i) :
    i.wf = true ∧ encode i = encBase (BitVec.ofNat 6 maj) (BitVec.ofNat 3 f3) o := by
  unfold baseInstr at hi
  split at hi
  case h_1 =>
    obtain ⟨u, hu, -, hr, -, -⟩ := wfBase_iff.mp hwf
    cases hu
    obtain ⟨vd, vs1, vs2⟩ := o
    obtain rfl : vs2 = 0 := by simpa [VShape.resOk, unusedZero, Ext.base, Rep.clear, Rep.none] using hr
    cases hi
    exact ⟨hwf, rfl⟩
  case h_43 => cases hi
  all_goals
    cases hi
    exact ⟨hwf, rfl⟩

/-- The reserved-field check (R68, 0x03): a field that the function does not use is zero. -/
theorem VShape.resOk_iff : u.resOk o x = true ↔
    (u.vd = .no → o.vd = 0) ∧ (u.vs1 = .no → o.vs1 = 0) ∧ (u.vs2 = .no → o.vs2 = 0) ∧ (u.vs3 = .no → x.vs3 = 0)
      ∧ (u.pred = false → x.p = 0 ∧ x.inv = false) ∧ (u.zero = false → x.zero = false) ∧ (u.xs = false → x.xs = 0)
      ∧ (u.xs2 = false → x.xs2 = 0) ∧ (u.sat = false → x.sat = false) ∧ (u.tix = false → x.tix = 0) ∧ (u.na = false → x.na = false)
      ∧ (u.ad = false → x.ad = false) ∧ u.res = true
      ∧ (u.modRes = true → (u.rep1 = false → x.rep1 = .none) ∧ (u.rep2 = false → x.rep2 = .none)) := by
  have clear : ∀ r : Rep, r.clear = true ↔ r = .none := fun ⟨en, size, idx⟩ => by simp [Rep.clear, Rep.none, and_assoc]
  simp only [VShape.resOk, unusedZero, Bool.and_eq_true, Bool.or_eq_true, bne_iff_ne, beq_iff_eq, and_assoc, ne_eq,
    or_iff_not_imp_left, not_not, Bool.not_eq_true, Bool.not_eq_true', Bool.not_eq_false, clear]

/-- Extended words without a third source, saturation, format, negation and modifiers hold what a memory operand names, a rounding and a
function. -/
theorem ext_of_resOk (h : u.resOk o x = true)
    (hu : (u.vs3, u.sat, u.tix, u.na, u.ad, u.modRes, u.rep1, u.rep2) = (.no, false, false, false, false, true, false, false)) :
    x = (memOpOf x lit).ext x.rnd x.fx := by
  simp only [Prod.mk.injEq] at hu
  obtain ⟨hvs3, hsat, htix, hna, had, hmod, hrep1, hrep2⟩ := hu
  obtain ⟨-, -, -, h3, -, -, -, -, hs, ht, hn, ha, -, hr⟩ := VShape.resOk_iff.mp h
  obtain ⟨hr1, hr2⟩ := hr hmod
  obtain ⟨rep2, rep1, zero, inv, p, vs3, xs2, xs, sat, ad, na, rnd, tix, fx⟩ := x
  obtain rfl := h3 hvs3
  obtain rfl := hs hsat
  obtain rfl := ht htix
  obtain rfl := hn hna
  obtain rfl := ha had
  obtain rfl := hr1 hrep1
  obtain rfl := hr2 hrep2
  rfl

end
end Sys2Proof
end

section
/-! PROOFS. The vector majors 0x11 to 0x1B: memory, `BSLOT` and `VPF`, and what words of a vector function decode to. -/

namespace Sys2Proof

/-! ### Memory and the functions with rows of their own -/

section
variable {maj f3 : Nat} {o : VOp} {x : Ext} {lit : Option W64} {i : Instr} {u : VShape}

/-- A function that does not round has the default rounding (R68, 0x04). -/
theorem rnd_of_combOk (h : u.combOk x = true) (hu : u.rounds = false) : x.rnd = 7 := by
  simp only [VShape.combOk, hu, Bool.false_eq_true, if_false, Bool.and_eq_true, beq_iff_eq, and_assoc] at h
  obtain ⟨hrnd, -⟩ := h
  exact hrnd

theorem mem_ext (hr : u.resOk o x = true) (hc : u.combOk x = true) (hfx : (x.fx.toNat == 0) = true)
    (hu : (u.vs3, u.sat, u.tix, u.na, u.ad, u.modRes, u.rep1, u.rep2) = (.no, false, false, false, false, true, false, false))
    (hrnd : u.rounds = false) : x = (memOpOf x lit).ext 7 0 := by
  have h := ext_of_resOk (lit := lit) hr hu
  rwa [rnd_of_combOk hc hrnd, show x.fx = 0 from BitVec.eq_of_toNat_eq (eq_of_beq hfx)] at h

/-- A load of major 0x12 uses vd alone (R188). -/
theorem load_fields (hwf : wfExt 0x12 f3 o x = true) (hf : f3 = 0 ∨ f3 = 1 ∨ f3 = 4 ∨ f3 = 6) :
    { vd := o.vd, vs1 := 0, vs2 := 0 } = o ∧ (memOpOf x lit).ext 7 0 = x := by
  obtain ⟨u, hu, hfx, hr, hc, -⟩ := wfExt_iff.mp hwf
  obtain ⟨vd, vs1, vs2⟩ := o
  obtain ⟨-, h1, h2, -⟩ := VShape.resOk_iff.mp hr
  obtain rfl | rfl | rfl | rfl := hf <;> cases hu <;> obtain rfl := h1 rfl <;> obtain rfl := h2 rfl <;>
    exact ⟨rfl, (mem_ext hr hc hfx rfl rfl).symm⟩

/-- A store uses vs1 alone. -/
theorem store_fields (hwf : wfExt 0x12 f3 o x = true) (hf : f3 = 2 ∨ f3 = 3 ∨ f3 = 5) :
    { vd := 0, vs1 := o.vs1, vs2 := 0 } = o ∧ (memOpOf x lit).ext 7 0 = x := by
  obtain ⟨u, hu, hfx, hr, hc, -⟩ := wfExt_iff.mp hwf
  obtain ⟨vd, vs1, vs2⟩ := o
  obtain ⟨hd, -, h2, -⟩ := VShape.resOk_iff.mp hr
  obtain rfl | rfl | rfl := hf <;> cases hu <;> obtain rfl := hd rfl <;> obtain rfl := h2 rfl <;>
    exact ⟨rfl, (mem_ext hr hc hfx rfl rfl).symm⟩

/-- The function extensions of `VSTP` that are assigned are those of its functions (R145). -/
theorem platStOpOf_fx {fx : BitVec 8}
    (h : (decide (fx.toNat % 16 < 4) && decide (fx.toNat / 16 < 3) && !(fx.toNat % 16 == 0 && fx.toNat / 16 != 0)) = true) :
    (platStOpOf fx).fx = fx ∧ (platStOpOf fx).canon = true := by
  revert fx
  decide

theorem platStOpOf_of_canon {op : PlatStOp} (h : op.canon = true) : platStOpOf op.fx = op := by
  cases op with
  | last => rfl
  | arith op cls =>
    have hf : ∀ (op : BitVec 3) (cls : BitVec 2), (PlatStOp.arith op cls).fx.extractLsb' 0 3 = op
        ∧ (PlatStOp.arith op cls).fx.extractLsb' 4 2 = cls := by decide
    obtain ⟨ho, hc⟩ := hf op cls
    rw [platStOpOf, ho, hc, if_neg fun h0 => bne_iff_ne.mp h (eq_of_beq h0)]

theorem vstp_fields (hwf : wfExt 0x12 7 o x = true) :
    { vd := 0, vs1 := o.vs1, vs2 := 0 } = o ∧ (memOpOf x lit).ext x.rnd (platStOpOf x.fx).fx = x ∧ (platStOpOf x.fx).canon = true := by
  obtain ⟨u, hu, hfx, hr, hc, -⟩ := wfExt_iff.mp hwf
  cases hu
  obtain ⟨vd, vs1, vs2⟩ := o
  obtain ⟨hd, -, h2, -⟩ := VShape.resOk_iff.mp hr
  obtain rfl := hd rfl
  obtain rfl := h2 rfl
  obtain ⟨hop, hcanon⟩ := platStOpOf_fx hfx
  rw [hop]
  exact ⟨rfl, (ext_of_resOk hr rfl).symm, hcanon⟩

theorem mem_encode {o' : VOp} {m : MemOp} {rnd : BitVec 3} {fx : BitVec 8} (ho : o' = o) (hx : m.ext rnd fx = x) (hd : m.disp = lit)
    (hwf : wfExt 0x12 f3 o x = true) : wfExt 0x12 f3 o' (m.ext rnd fx) = true
      ∧ encMem (BitVec.ofNat 3 f3) o' m rnd fx = some (vecWords 0x12 (BitVec.ofNat 3 f3) o x lit).toList := by
  subst ho hd
  exact ⟨hx ▸ hwf, hx ▸ encMem_eq⟩

/-- `VPF` in its extended form has the extended words of the form without them (R186). -/
theorem vpf_fields (hwf : wfExt 0x11 0 o x = true) : { vd := o.vd, vs1 := o.vs1, vs2 := 0 } = o ∧ Ext.base = x := by
  obtain ⟨u, hu, hfx, hr, hc, -⟩ := wfExt_iff.mp hwf
  cases hu
  obtain ⟨vd, vs1, vs2⟩ := o
  obtain ⟨-, -, h2, -, hp, hz, hxs, hxs2, -⟩ := VShape.resOk_iff.mp hr
  obtain rfl := h2 rfl
  obtain ⟨hp, hinv⟩ := hp rfl
  refine ⟨rfl, ?_⟩
  rw [mem_ext (lit := none) hr hc hfx rfl rfl]
  simp only [memOpOf, MemOp.ext, hp, hinv, hz rfl, hxs rfl, hxs2 rfl]
  rfl

/-- `BSLOT` uses vs2, its function and, where it queries, a result register (R233). -/
theorem bslot_fields (hwf : wfExt 0x1B 6 o x = true) : { vd := 0, vs1 := 0, vs2 := o.vs2 } = o
    ∧ { Ext.base with fx := x.fx, xs2 := x.xs2 } = x ∧ x.fx.toNat < 4 ∧ (x.fx.toNat ≠ 3 → x.xs2 = 0) := by
  obtain ⟨u, hu, -, hr, hc, -⟩ := wfExt_iff.mp hwf
  cases hu
  obtain ⟨vd, vs1, vs2⟩ := o
  obtain ⟨hd, h1, -, -, hp, hz, hxs, hxs2, -, -, -, -, hres, -⟩ := VShape.resOk_iff.mp hr
  obtain rfl := hd rfl
  obtain rfl := h1 rfl
  obtain ⟨hp, hinv⟩ := hp rfl
  refine ⟨rfl, ?_, of_decide_eq_true hres, fun h3 => hxs2 (beq_eq_false_iff_ne.mpr h3)⟩
  have hx := ext_of_resOk (lit := none) hr rfl
  rw [rnd_of_combOk hc rfl] at hx
  simp only [memOpOf, MemOp.ext, hp, hinv, hz rfl, hxs rfl] at hx
  exact hx.symm

theorem bslot_encode (hwf : wfExt 0x1B 6 o x = true) (hi : extInstr 0x1B 6 o x none = some i) :
    i.wf = true ∧ encode i = some (vecWords 0x1B 6 o x none).toList := by
  obtain ⟨ho, hx, hlt, h0⟩ := bslot_fields hwf
  have words {x' : Ext} (hx' : x' = x) :
      some (vecWords 0x1B 6 { vd := 0, vs1 := 0, vs2 := o.vs2 } x' none).toList = some (vecWords 0x1B 6 o x none).toList := by
    rw [ho, hx']
  have plain {k : Nat} (hk : x.fx.toNat = k) (h3 : k ≠ 3) : { Ext.base with fx := BitVec.ofNat 8 k, xs2 := 0 } = x := by
    rw [ofNat_of_toNat hk, ← h0 (hk ▸ h3), hx]
  simp only [extInstr] at hi
  split at hi <;> cases hi
  case h_1 hk | h_2 hk | h_3 hk => exact ⟨rfl, words (plain hk (by decide))⟩
  case h_4 h0 h1 h2 =>
    have hne : x.fx.toNat ≠ 0 ∧ x.fx.toNat ≠ 1 ∧ x.fx.toNat ≠ 2 := ⟨h0, h1, h2⟩
    have hk : x.fx.toNat = 3 := by omega
    rw [← ofNat_of_toNat hk] at hx
    exact ⟨rfl, words hx⟩

theorem extInstr_encode (hwf : wfExt maj f3 o x = true) (hb : (maj != 0x1B || f3 != 1 || bldRegs o) = true)
    (hlit : (lit.isNone || litAllowed maj f3) = true) (hi : extInstr maj f3 o x lit = some i) :
    i.wf = true ∧ encode i = some (vecWords (BitVec.ofNat 6 maj) (BitVec.ofNat 3 f3) o x lit).toList := by
  unfold extInstr at hi
  split at hi
  case h_1 =>
    obtain rfl : lit = none := Option.isNone_iff_eq_none.mp ((Bool.or_false _).symm.trans hlit)
    cases hi
    obtain ⟨ho, rfl⟩ := vpf_fields hwf
    exact ⟨ho ▸ hwf, congrArg (encVx 0x11 0 · .base) ho⟩
  case h_2 | h_3 | h_6 =>
    cases hi
    obtain ⟨ho, hx⟩ := load_fields (lit := lit) hwf (by decide)
    exact mem_encode ho hx rfl hwf
  case h_4 | h_5 | h_7 =>
    cases hi
    obtain ⟨ho, hx⟩ := store_fields (lit := lit) hwf (by decide)
    exact mem_encode ho hx rfl hwf
  case h_8 =>
    cases hi
    obtain ⟨ho, hx⟩ := load_fields (lit := lit) hwf (by decide)
    obtain ⟨hwf', he⟩ := mem_encode ho hx rfl hwf
    exact ⟨Bool.and_eq_true_iff.mpr ⟨(Bool.or_false _).symm.trans hlit, hwf'⟩, he⟩
  case h_9 =>
    cases hi
    obtain ⟨ho, hx, hcanon⟩ := vstp_fields (lit := lit) hwf
    obtain ⟨hwf', he⟩ := mem_encode ho hx rfl hwf
    exact ⟨Bool.and_eq_true_iff.mpr ⟨Bool.and_eq_true_iff.mpr ⟨(Bool.or_false _).symm.trans hlit, hcanon⟩, hwf'⟩, he⟩
  case h_72 => cases hi
  all_goals obtain rfl : lit = none := Option.isNone_iff_eq_none.mp ((Bool.or_false _).symm.trans hlit)
  case h_66 =>
    cases hi
    exact ⟨Bool.and_eq_true_iff.mpr ⟨hb, hwf⟩, rfl⟩
  case h_71 => exact bslot_encode hwf hi
  all_goals
    cases hi
    exact ⟨hwf, rfl⟩

/-! ### Majors 0x11 to 0x1B -/

theorem decodeForm_vec {w : Words} (hlo : 0x11 ≤ maj) (hhi : maj ≤ 0x1B) : decodeForm maj w = decodeV maj w := by
  have h : (maj == 0x1C) = false := beq_eq_false_iff_ne.mpr (by omega)
  simp [decodeForm, h, hlo, hhi]

theorem decode_base {maj : BitVec 6} {f3 : BitVec 3} (hmaj : 0x11 ≤ maj.toNat ∧ maj.toNat ≤ 0x1A ∧ maj.toNat ≠ 0x12)
    (hwf : wfBase maj.toNat f3.toNat o = true) (hi : baseInstr maj.toNat f3.toNat o = some i) : decode [packV f3 o maj 0] = .ok i := by
  obtain ⟨h3, ho, hm, hl⟩ := packV_eq_iff.mp (rfl : packV f3 o maj 0 = _)
  obtain ⟨hlo, hhi, hne⟩ := hmaj
  obtain ⟨u, hu, hext, hr, hc, hs⟩ := wfBase_iff.mp hwf
  refine decode_one hm hl (decodeMajor_of_form (f := .vec maj.toNat f3.toNat o .base none) hlo (by omega) ?_ hi)
  rw [decodeForm_vec hlo (by omega), decodeV, ← h3, ← ho]
  dsimp only
  rw [if_neg Bool.false_ne_true, show vShape maj.toNat f3.toNat Ext.base.fx = some u from hu]
  have h1B : (maj.toNat != 0x1B) = true := bne_iff_ne.mpr (by omega)
  have h12 : (maj.toNat != 0x12) = true := bne_iff_ne.mpr hne
  exact verdict_eq_ok.mpr ⟨vShape_zero_fx hu, by rw [hasBase, hext, h12]; rfl, by rw [hr, h1B]; rfl, hc, hs, rfl⟩

theorem vecWords_proper {maj : BitVec 6} {f3 : BitVec 3} : (vecWords maj f3 o x lit).Proper := by
  obtain ⟨-, -, -, hl⟩ := packV_eq_iff.mp (rfl : packV f3 o maj (if lit.isSome then 3 else 2) = _)
  refine ⟨Eq.trans ?_ hl, nofun⟩
  cases lit <;> rfl

theorem decodeV_vecWords {maj : BitVec 6} {f3 : BitVec 3} (hwf : wfExt maj.toNat f3.toNat o x = true)
    (hb : (maj.toNat != 0x1B || f3.toNat != 1 || bldRegs o) = true) (hlit : (lit.isNone || litAllowed maj.toNat f3.toNat) = true) :
    decodeV maj.toNat (vecWords maj f3 o x lit) = .ok (.vec maj.toNat f3.toNat o x lit) := by
  obtain ⟨u, hu, hfx, hr, hc, hs⟩ := wfExt_iff.mp hwf
  obtain ⟨h3, ho, -, -⟩ := packV_eq_iff.mp (rfl : (vecWords maj f3 o x lit).w0 = _)
  obtain ⟨hx, hx1, hx2, hx3⟩ :=
    (packX_eq_iff (w1 := (vecWords maj f3 o x lit).w1) (w2 := (vecWords maj f3 o x lit).w2)).mp ⟨rfl, rfl⟩
  rw [decodeV, ← h3, ← ho, if_pos (show (vecWords maj f3 o x lit).ext = true from rfl), ← hx]
  dsimp only
  rw [hu]
  exact verdict_eq_ok.mpr ⟨hfx, Bool.and_eq_true_iff.mpr ⟨hlit, rfl⟩, by rw [hr, hx1, hx2, hx3, hb]; rfl, hc, hs, rfl⟩

theorem decode_ext {maj : BitVec 6} {f3 : BitVec 3} (hmaj : 0x11 ≤ maj.toNat ∧ maj.toNat ≤ 0x1B)
    (hwf : wfExt maj.toNat f3.toNat o x = true) (hb : (maj.toNat != 0x1B || f3.toNat != 1 || bldRegs o) = true)
    (hlit : (lit.isNone || litAllowed maj.toNat f3.toNat) = true) (hi : extInstr maj.toNat f3.toNat o x lit = some i) :
    decode (vecWords maj f3 o x lit).toList = .ok i := by
  obtain ⟨hlo, hhi⟩ := hmaj
  obtain ⟨-, -, hm, -⟩ := packV_eq_iff.mp (rfl : (vecWords maj f3 o x lit).w0 = _)
  refine decode_eq_ok.mpr ⟨_, rfl, vecWords_proper, ?_⟩
  rw [← hm]
  exact decodeMajor_of_form hlo (by omega) ((decodeForm_vec hlo hhi).trans (decodeV_vecWords hwf hb hlit)) hi

theorem decodeV_reads {w : Words} {f : VForm} (hw : w.Proper) (hm : maj = (fieldMaj w.w0).toNat) (h : decodeV maj w = .ok f)
    (hi : formInstr w.ext f = some i) : w.Reads i := by
  obtain ⟨w0, w1, w2, ext, lit⟩ := w
  have hmaj := ofNat_of_toNat hm.symm
  have hf3 := ofNat_of_toNat (rfl : (fieldVF3 w0).toNat = _)
  unfold decodeV at h
  cases ext with
  | false =>
    dsimp only at h
    rw [if_neg Bool.false_ne_true] at h
    split at h
    next => cases h
    next u hu =>
      obtain ⟨-, hlen, hr, hc, hs, rfl⟩ := verdict_eq_ok.mp h
      simp only [hasBase, Bool.and_eq_true, Bool.or_eq_true, Bool.false_eq_true, false_or, Bool.not_eq_true', bne_iff_ne, ne_eq] at hlen hr
      obtain ⟨hlit, hext, h12⟩ := hlen
      obtain ⟨⟨hr, -⟩, -⟩ := hr
      obtain rfl : lit = none := by simpa [litAllowed, h12] using hlit
      obtain ⟨hwf, he⟩ := baseInstr_encode (wfBase_iff.mpr ⟨u, hu, hext, hr, hc, hs⟩) hi
      exact ⟨hwf, he.trans (congrArg enc1 (packV_eq_iff.mpr ⟨hf3, rfl, hmaj, hw.len⟩))⟩
  | true =>
    dsimp only at h
    rw [if_pos rfl] at h
    split at h
    next => cases h
    next u hu =>
      obtain ⟨hfx, hlen, hr, hc, hs, rfl⟩ := verdict_eq_ok.mp h
      obtain ⟨hr, hb⟩ := Bool.and_eq_true_iff.mp hr
      obtain ⟨hr, hz⟩ := Bool.and_eq_true_iff.mp hr
      simp only [Bool.and_eq_true, Bool.not_eq_true', beq_iff_eq] at hz
      obtain ⟨⟨hz1, hz2⟩, hz3⟩ := hz
      obtain ⟨hlit, -⟩ := Bool.and_eq_true_iff.mp hlen
      obtain ⟨hwf, he⟩ := extInstr_encode (wfExt_iff.mpr ⟨u, hu, hfx, hr, hc, hs⟩) hb hlit hi
      obtain ⟨h1, h2⟩ := packX_eq_iff.mpr ⟨rfl, hz1, hz2, hz3⟩
      refine ⟨hwf, he.trans (congrArg (fun w : Words => some w.toList) ?_)⟩
      rw [vecWords, h1, h2, packV_eq_iff.mpr ⟨hf3, rfl, hmaj, ?_⟩]
      refine Eq.trans ?_ hw.len
      cases lit <;> rfl

end
end Sys2Proof
end

section
/-! PROOFS. Words and instructions stand for each other, O23 and O24. -/

namespace Sys2Proof

/-! ### What decodes -/

theorem decodeMajor_reads {w : Words} {i : Instr} (hw : w.Proper) (h : decodeMajor (fieldMaj w.w0).toNat w = .ok i) : w.Reads i := by
  unfold decodeMajor at h
  split at h
  case h_1 hm => exact decodeSalu_reads hw (ofNat_of_toNat hm) h
  case h_2 hm => exact decodeSalui_reads hw (ofNat_of_toNat hm) h
  case h_3 hm => exact decodeSshi_reads hw (ofNat_of_toNat hm) h
  case h_4 hm => exact decodeSfp_reads hw (ofNat_of_toNat hm) h
  case h_5 hm => exact decodeLd_reads hw (ofNat_of_toNat hm) h
  case h_6 hm => exact decodeSt_reads hw (ofNat_of_toNat hm) h
  case h_7 hm => exact decodeAtom_reads hw (ofNat_of_toNat hm) h
  case h_8 hm => exact decodeBr_reads hw (ofNat_of_toNat hm) h
  case h_9 hm => exact decodeJ_reads hw (ofNat_of_toNat hm) h
  case h_10 hm => exact decodeJr_reads hw (ofNat_of_toNat hm) h
  case h_11 hm => exact decodeQueue_reads hw (ofNat_of_toNat hm) h
  case h_12 hm => exact decodeSysrw_reads hw (ofNat_of_toNat hm) h
  case h_13 hm => exact decodeSys_reads hw (ofNat_of_toNat hm) h
  case h_14 hm => exact decodeEng_reads hw (ofNat_of_toNat hm) h
  case h_15 hm => exact decodePlat_reads hw (ofNat_of_toNat hm) h
  case h_16 hm => exact decodeSetl_reads hw (ofNat_of_toNat hm) h
  case h_17 hm => exact decodeSparse_reads hw (ofNat_of_toNat hm) h
  case h_18 =>
    split at h
    next => cases h
    next f hf =>
      split at h
      next j hi =>
        cases h
        unfold decodeForm at hf
        split_ifs at hf with hrow hvec
        · exact decodeRow_reads hw (ofNat_of_toNat (eq_of_beq hrow)) hf hi
        · exact decodeV_reads hw rfl hf hi
        · cases hf
      next => cases h

theorem isEvent_of_encode {i : Instr} {ws : List W32} (h : encode i = some ws) : i.isEvent = false := by
  rw [Instr.isEvent, h]
  rfl

/-- Settles O24: each decoder's row holds every bit that its encoder leaves at zero. -/
theorem decodeIsWellFormed : Obligations.DecodeIsWellFormed := by
  unfold Obligations.DecodeIsWellFormed
  intro ws i h
  obtain ⟨w, rfl, hw, h⟩ := decode_eq_ok.mp h
  obtain ⟨hwf, he⟩ := decodeMajor_reads hw h
  exact ⟨hwf, isEvent_of_encode he, he⟩

/-! ### The round trip -/

/-- Words of a function of a vector major with extended words and no literal. -/
theorem decode_vx {maj : BitVec 6} {f3 : BitVec 3} {o : VOp} {x : Ext} {i : Instr} (hmaj : 0x11 ≤ maj.toNat ∧ maj.toNat ≤ 0x1B)
    (hwf : wfExt maj.toNat f3.toNat o x = true) (hb : (maj.toNat != 0x1B || f3.toNat != 1 || bldRegs o) = true)
    (hi : extInstr maj.toNat f3.toNat o x none = some i) : decode [packV f3 o maj 2, packX1 x, packX2 x] = .ok i :=
  decode_ext (lit := none) hmaj hwf hb rfl hi

theorem decode_mem {f3 : BitVec 3} {o : VOp} {m : MemOp} {rnd : BitVec 3} {fx : BitVec 8} {i : Instr} {ws : List W32}
    (hws : encMem f3 o m rnd fx = some ws) (hwf : wfExt 0x12 f3.toNat o (m.ext rnd fx) = true)
    (hlit : (m.disp.isNone || litAllowed 0x12 f3.toNat) = true) (hi : extInstr 0x12 f3.toNat o (m.ext rnd fx) m.disp = some i) :
    decode ws = .ok i := by
  obtain rfl := Option.some.inj (encMem_eq.symm.trans hws)
  exact decode_ext (maj := 0x12) (by decide) hwf rfl hlit hi

/-- Settles O23: the words of each instruction meet every check of its row, and the row reads back each of its operands. -/
theorem decodeEncodeRoundTrip : Obligations.DecodeEncodeRoundTrip := by
  unfold Obligations.DecodeEncodeRoundTrip
  intro i ws hwf h
  cases i
  -- vector memory (R188, R145)
  case vld | vlds | vst | vsts | vld2d | vst2d => exact decode_mem h hwf (Bool.or_true _) rfl
  case vldp =>
    obtain ⟨hd, hwf⟩ := Bool.and_eq_true_iff.mp hwf
    exact decode_mem h hwf ((Bool.or_false _).trans hd) rfl
  case vstp =>
    obtain ⟨hwf, hx⟩ := Bool.and_eq_true_iff.mp hwf
    obtain ⟨hd, hcanon⟩ := Bool.and_eq_true_iff.mp hwf
    exact decode_mem h hx ((Bool.or_false _).trans hd) (congrArg (fun op => some (Instr.vstp _ _ _ op)) (platStOpOf_of_canon hcanon))
  -- every other instruction has its words in its row of `encode`, and an event has none
  all_goals cases h
  case vpf | vadd | vsub | vmul | vmulh | vand | vor | vxor | vmin | vmax | vsll | vsrl | vsra | vadds | vsubs | vmac | vabsd | vfadd
      | vfsub | vfmul | vfdiv | vfsqrt | vfmin | vfmax | vfsgn | vfscl | vfcls | vpoly | vtwos | vcmp | vfcmp | plog | vsel | vcvt | vmv
      | vperm | vtrn | vredsum | vredmax | vredmin | vredcs | vcomp =>
    exact decode_base (by decide) hwf rfl
  case vpfExt | vaddExt | vsubExt | vmulExt | vmulhExt | vandExt | vorExt | vxorExt | vminExt | vmaxExt | vsllExt | vsrlExt | vsraExt
      | vaddsExt | vsubsExt | vmacExt | vabsdExt | vfaddExt | vfsubExt | vfmulExt | vfma | vfdivExt | vfsqrtExt | vfminExt | vfmaxExt
      | vfsgnExt | vfsclExt | vfclsExt | vpolyExt | vtwosExt | vcmpExt | vfcmpExt | plogExt | pset | pcnt | pfirst | vselExt | vcvtExt
      | qnt | qnte | dqnt | vmvExt | vbcast | vext | vins | vslup | vsldn | vpermExt | vtrnExt | vredsumExt | vredmaxExt | vredminExt
      | vredcsExt | vscan | vcompExt | vdig | mma | azero | ard | awr | eptk =>
    exact decode_vx (by decide) hwf rfl rfl
  case bld =>
    obtain ⟨hb, hwf⟩ := Bool.and_eq_true_iff.mp hwf
    exact decode_vx (by decide) hwf hb rfl
  case bslotPin | bslotUnpin | bslotRelease | bslotQuery => exact decode_vx (by decide) rfl rfl rfl
  -- the row engine and the merge unit
  case rmmig | rmage | rmqry =>
    exact decode_mapRow (fun _ hf hv hd ha hz h2 hb h0 => by rw [decodeRow, hf, hv, hd, ha, hz, h2, hb, h0]; rfl) rfl
  case rmfire => exact decode_rmfire hwf
  case rmmul => exact decode_rmmul hwf
  case rmbind => exact decode_rmbind
  case rmbindUnbind => exact decode_rmbindUnbind
  case rmjoin => exact decode_rmjoin
  case sphdr => exact decode_sphdr
  case spcnt | spmrg => exact decode_lines fun _ hf => by rw [decodeSparse, hf]; rfl
  -- scalar integer instructions
  case add | sub | and | or | xor | sll | srl | sra | mul | div | divu | rem | remu =>
    exact decode_saluWide fun _ hf => by rw [decodeSalu, hf]; rfl
  case mulh | mulhu | min | max | minu | maxu | slt | sltu | rol | ror => exact decode_saluThree fun _ hf => by rw [decodeSalu, hf]; rfl
  case clz | ctz | popc => exact decode_saluTwo fun _ hf => by rw [decodeSalu, hf]; rfl
  case addi | andi | ori | xori | slti | sltiu | addpc =>
    exact decode_imm (D := decodeSalui) rfl fun _ h3 ha hd => by rw [decodeSalui, ← h3, ← ha, ← hd]; rfl
  case addiLit | andiLit | oriLit | xoriLit | sltiLit | sltiuLit | addpcLit =>
    exact decode_lit (D := decodeSalui) rfl fun _ h3 ha hd => by rw [decodeSalui, ← h3, ← ha, ← hd]; rfl
  case slli | srli | srai | roli => exact decode_shift fun _ h3 => by rw [decodeSshi, h3]; rfl
  case ldi => exact decode_imm (D := decodeSshi) rfl fun _ h3 ha hd => by rw [decodeSshi, ← h3, ← ha, ← hd]; rfl
  case ldiLit => exact decode_lit (D := decodeSshi) rfl fun _ h3 ha hd => by rw [decodeSshi, ← h3, ← ha, ← hd]; rfl
  -- scalar floating point
  case fadd | fsub | fmul | fdiv | fmin | fmax | fma | fnma | feq | flt | fle | ftole =>
    exact decode_sfpThree fun _ hp hf => by rw [decodeSfp, hp]; dsimp only; rw [hf]; rfl
  case fsqrt | fclass => exact decode_sfpTwo fun _ hp hf => by rw [decodeSfp, hp]; dsimp only; rw [hf]; rfl
  case fcvti | icvtf => exact decode_sfpInt fun _ hp hf => by rw [decodeSfp, hp]; dsimp only; rw [hf]; rfl
  case fcvtf => exact decode_fcvtf
  -- scalar accesses and branches
  case ld => exact decode_imm (D := decodeLd) rfl fun _ h3 ha hd => by rw [decodeLd_of_size h3, ← ha, ← hd]
  case ldLit => exact decode_lit (D := decodeLd) rfl fun _ h3 ha hd => by rw [decodeLd_of_size h3, ← ha, ← hd]
  case st => exact decode_imm (D := decodeSt) rfl fun _ h3 ha hd => by rw [decodeSt_of_size h3, ← ha, ← hd]
  case stLit => exact decode_lit (D := decodeSt) rfl fun _ h3 ha hd => by rw [decodeSt_of_size h3, ← ha, ← hd]
  case br => exact decode_imm (D := decodeBr) rfl fun _ h3 ha hd => by rw [decodeBr_of_cond h3, ← ha, ← hd]
  case brLit => exact decode_lit (D := decodeBr) rfl fun _ h3 ha hd => by rw [decodeBr_of_cond h3, ← ha, ← hd]
  case amoAdd | amoAnd | amoOr | amoXor | amoMin | amoMax | amoMinu | amoMaxu | amoSwap | cas =>
    exact decode_amo fun _ hf => by rw [decodeAtom, hf]; rfl
  case lda => exact decode_lda
  case stl => exact decode_stl
  case amoFadd32 => exact decode_amoFadd32
  case j => exact decode_j
  case jLit => exact decode_jLit
  case jr => exact decode_imm (D := decodeJr) rfl fun _ h3 ha hd => by rw [decodeJr, ← h3, ← ha, ← hd]; rfl
  case jrLit => exact decode_lit (D := decodeJr) rfl fun _ h3 ha hd => by rw [decodeJr, ← h3, ← ha, ← hd]; rfl
  case brq => exact decode_imm rfl fun _ => decodeJr_brq
  case brqLit => exact decode_lit rfl fun _ => decodeJr_brq
  -- queues and system registers
  case qsend => exact decode_send (ok := fun q => q.toNat < 6) hwf fun _ hf => by rw [decodeQueue, hf]; rfl
  case qsendb => exact decode_send (ok := fun q => 6 ≤ q.toNat) hwf fun _ hf => by rw [decodeQueue, hf]; rfl
  case qrecv => exact decode_recv (ok := fun q => q.toNat < 6) hwf fun _ hf => by rw [decodeQueue, hf]; rfl
  case qcnt => exact decode_recv (ok := fun _ => true) rfl fun _ hf => by rw [decodeQueue, hf]; rfl
  case sysr => exact decode_sysr (sysrInstr_of_ordinary ((Bool.not_eq_true' _).mp hwf))
  case sysw => exact decode_sysw (syswInstr_of_ordinary ((Bool.not_eq_true' _).mp hwf))
  case vstatusRead | vstartRead | vfcntRead => exact decode_sysr rfl
  case vtypeWrite | vstartWrite | vfcntWrite | vstatusWrite | tstatusWrite => exact decode_sysw rfl
  case frset => exact decode_sysw syswInstr_format
  -- waits, fences, ends, engines and plats
  case nop | tret | exit | bar | vfence | ifence => exact decode_plain fun _ hf => by rw [decodeSys, hf]; rfl
  case waitaEq | waitaNe | waitaGeu => exact decode_wait fun _ hf => by rw [decodeSys, hf]; rfl
  case trap => exact decode_trap
  case fence => exact decode_fence
  case vmfence => exact decode_vmfence
  case lnch => exact decode_lnch
  case enqCopy => exact decode_enqCopy
  case enqNet => exact decode_enqNet
  case deq => exact decode_deq
  case cpw => exact decode_cpw
  case cpgo => exact decode_cpgo
  case cpcan => exact decode_cpcan
  case cpr => exact decode_cpr
  case coefld => exact decode_coefld (of_decide_eq_true hwf)
  case platmk => exact decode_platmk (of_decide_eq_true hwf)
  case plats => exact decode_plats hwf
  case platg => exact decode_platg
  case platco => exact decode_platco
  case platck => exact decode_platck
  case platrl => exact decode_platrl
  case setl => exact decode_setl

end Sys2Proof
end

section
/-! PROOFS. Words written out from the spec, and O25. -/

namespace Sys2Proof

/-- Settles O25. The words that stand for an instruction are those that it encodes to, so that they decode to it by the round trip. -/
theorem decodeWords : Obligations.DecodeWords := by
  unfold Obligations.DecodeWords
  have decodes {i : Instr} {ws : List W32} (hwf : i.wf = true) (h : encode i = some ws) : decode ws = .ok i :=
    decodeEncodeRoundTrip i ws hwf h
  exact ⟨decodes rfl rfl, decodes rfl rfl, decodes rfl rfl, decodes rfl rfl, decodes rfl rfl, decodes rfl rfl, decodes rfl rfl,
    decodes rfl rfl, rfl, rfl, rfl, rfl⟩

end Sys2Proof
end

section
/-! PROOFS. One step of the machine: the turn of a stream or of an event, and O26. -/

namespace Sys2Proof.Machine

section
variable {s : State} {st : Fin 4} {k : StreamId}

/-! ### What is left behind -/

theorem State.land_of_posted_nil (h : s.posted = []) (sel : Posted → Bool) : s.land sel = s := by
  obtain ⟨⟩ := s
  dsimp only at h
  subst h
  rfl

theorem State.landFor_of_posted_nil (h : s.posted = []) (run : State → Out) : s.landFor st k run = s := by
  rw [State.landFor, h]
  rfl

theorem State.ready_of_posted_nil (h : s.posted = []) (i : Instr) : s.ready st k i = s := by
  rw [State.ready, h]
  rfl

theorem State.before_of_posted_nil (h : s.posted = []) (t : Turn) : s.before t = s := by
  unfold State.before
  split
  case h_1 | h_2 | h_3 | h_4 | h_5 | h_6 | h_7 => rfl
  case h_8 | h_9 | h_10 => exact State.landFor_of_posted_nil h _
  all_goals exact State.land_of_posted_nil h _

/-! ### The turn of an event -/

theorem step_of_agenda {t : Turn} {rest : List Turn} (h : s.agenda = t :: rest) : step s = takeTurn s.advance t := by
  rw [step, State.nextTurn, h]

theorem State.arrives_of_usable {i : Instr} (h : s.usable i = true) : s.arrives i = true := by
  unfold State.arrives
  split
  · exact (Bool.and_eq_true_iff.mp h).1
  · exact h

theorem eventTurn_of_usable {i : Instr} (he : i.isEvent = true) (hu : s.usable i = true) : eventTurn s i =
    match Instr.session i with
    | some id => requestTurn s id i
    | none => exec i s := by
  rw [eventTurn, he, State.arrives_of_usable hu]
  rfl

theorem requestTurn_of_served {i : Instr} {id : Nat} {t : State} (hu : s.usable i = true) (hq : ∀ e ∈ s.rcpQ, e.1 ≠ id)
    (hx : exec i s = .next t) (ht : served s t = true) : requestTurn s id i = .next t := by
  have hany : (s.rcpQ.any fun e => e.1 == id) = false := by simpa using hq
  rw [requestTurn, hany, hu]
  simp only [Bool.not_true, Bool.or_false, Bool.false_eq_true, if_false, hx, ht, if_true]

/-! ### The fetch of a stream -/

theorem State.fetchWord_of_memory {va : W64} {pa : Nat} (hb : (s.stream st k).ibuf = []) (hx : s.scaXlate st k va .fetch = .ok pa)
    (hh : s.heldAt pa = false) (hp : s.anyPoison st k pa 4 = false) :
    s.fetchWord st k va = .words [BitVec.ofNat 32 (leNat (s.view (some (st, k)) (s.slotKey (s.acc st).key) pa 4))] := by
  simp only [State.fetchWord, hb, List.find?_nil, hx, hh, hp, Bool.false_eq_true, if_false]

theorem State.fetchMore_words {pc : W64} {got : List W32} (l : List W32)
    (h : ∀ n (hn : n < l.length), s.fetchWord st k (pc + BitVec.ofNat 64 (4 * (got.length + n))) = .words [l[n]]) :
    s.fetchMore st k pc got l.length = .words (got ++ l) := by
  induction l generalizing got with
  | nil => rw [List.append_nil]; rfl
  | cons w l ih =>
    rw [List.length_cons, State.fetchMore, show s.fetchWord st k (pc + BitVec.ofNat 64 (4 * got.length)) = .words [w] from
      h 0 (Nat.zero_lt_succ _)]
    dsimp only
    rw [ih fun n hn => ?_, List.append_assoc, List.singleton_append]
    rw [List.length_append, List.length_singleton, Nat.add_assoc, Nat.add_comm 1 n]
    exact h (n + 1) (Nat.succ_lt_succ hn)

theorem State.fetch_words {w : W32} {ws : List W32} (hlen : (w :: ws).length = wordCount w)
    (h : ∀ n (hn : n < (w :: ws).length), s.fetchWord st k ((s.stream st k).pc + BitVec.ofNat 64 (4 * n)) = .words [(w :: ws)[n]]) :
    s.fetch st k = .words (w :: ws) := by
  have h0 := h 0 (Nat.zero_lt_succ _)
  rw [Nat.mul_zero, BitVec.add_zero] at h0
  rw [State.fetch, h0, List.getElem_cons_zero]
  dsimp only
  rw [← hlen, List.length_cons, Nat.add_sub_cancel]
  refine State.fetchMore_words ws fun n hn => ?_
  rw [List.length_singleton, Nat.add_comm 1 n]
  exact h (n + 1) (Nat.succ_lt_succ hn)

/-- A stream's turn does what its words in memory decode to. -/
theorem streamTurn_of_words {ws : List W32} (hr : s.runnable st k = true) (hp : ∀ va, (s.stream st k).status ≠ .poisonDue va)
    (hf : s.fetch st k = .words ws) : streamTurn s st k false =
      match decode ws with
      | .ok i => runInstr (s.executing st k ws) st k false i
      | .error (.code sub) => .next (((s.executing st k ws).landStrand st).illegal st k sub)
      | .error .engine => .next (((s.executing st k ws).landStrand st).illegal st k (if k == .E then 0x05 else 0x11))
      | .error .short => .next s := by
  have ht : s.trapDue st k = none := by
    unfold State.trapDue
    split
    · next va h => exact absurd h (hp va)
    all_goals rfl
  rw [streamTurn, hr, ht, hf]
  rfl

theorem runInstr_of_entry {i : Instr} (h : s.entryWait = false) : runInstr s st k false i = exec i (s.ready st k i) := by
  rw [runInstr, h]
  rfl

theorem runInstr_of_wait {i : Instr} (h : s.entryWait = true) : runInstr s st k false i = .next s.landAll := by
  rw [runInstr, h]
  rfl

end

/-- Settles O26: the turn of a stream fetches the words that memory holds at its PC, and runs what they decode to. -/
theorem stepRunsDecoded : Obligations.StepRunsDecoded := by
  unfold Obligations.StepRunsDecoded
  intro s rest
  refine ⟨fun i ha he => ?_, fun st k w ws pas ha => ?_, _, _, _, rfl⟩
  · have hs : step s = eventTurn (s.advance.before (.event i)) i := step_of_agenda ha
    refine ⟨fun hu hn => ?_, fun t id hu hn hq hx ht => ?_, fun hp => State.before_of_posted_nil (s := s.advance) hp _⟩
    · rw [hs, eventTurn_of_usable he hu, hn]
    · rw [hs, eventTurn_of_usable he hu, hn]
      exact requestTurn_of_served hu hq hx ht
  · intro a b hr hpo hb hlen hpas hmem
    have hf : a.fetch st k = .words (w :: ws) := State.fetch_words hlen fun n hn => by
      obtain ⟨hx, hh, hp, hw⟩ := hmem n hn (hpas ▸ hlen ▸ hn)
      rw [State.fetchWord_of_memory hb hx hh hp, ← hw]
    have hs : step s = streamTurn a st k false := step_of_agenda ha
    rw [streamTurn_of_words hr hpo hf] at hs
    refine ⟨fun i hd => ?_, fun sub hd => ?_, fun hd => ?_, fun hp => State.land_of_posted_nil (s := b) hp _⟩
    · rw [hd] at hs
      refine ⟨fun he => ?_, fun he => hs.trans (runInstr_of_wait he)⟩
      have hx := hs.trans (runInstr_of_entry he)
      exact ⟨hx, fun hp => hx.trans (by rw [State.ready_of_posted_nil (s := b) hp])⟩
    · rw [hs, hd]
    · rw [hs, hd]
      simp only [beq_iff_eq]
      rfl

end Sys2Proof.Machine
end

