-- ==== Sys2Proof/Proofs/Setl.lean ====
section
/-! PROOFS. The lanes and the power cap that a strand holds (R179, R180), the grant of SETL (R182, R185), and O22. -/

namespace Sys2Proof.Machine

/-! ### Fields of `VTYPE` -/

/-- A field of a 32-bit `VTYPE` value is the field of the register that it is put in. -/
theorem fld_setWidth (vt : W32) {lo n : Nat} (h : lo + n ≤ 32) : fld (vt.setWidth 64) lo n = (vt.extractLsb' lo n).toNat := by
  rw [fld, BitVec.extractLsb'_setWidth_of_le (by omega)]

theorem vtSew_of_ok {vt : W32} (h : vtypeOk (vt.setWidth 64) = true) : vtSew (vt.setWidth 64) = 4 * 2 ^ (vt.extractLsb' 0 3).toNat := by
  simp only [vtypeOk, Bool.and_eq_true, decide_eq_true_eq] at h
  rw [vtSew, min_eq_left (by omega), fld_setWidth vt (by omega)]

theorem vtG_of_ok {vt : W32} (h : vtypeOk (vt.setWidth 64) = true) : vtG (vt.setWidth 64) = 2 ^ (vt.extractLsb' 9 3).toNat := by
  simp only [vtypeOk, Bool.and_eq_true, decide_eq_true_eq] at h
  rw [vtG, min_eq_left (by omega), fld_setWidth vt (by omega)]

theorem vtSew_pos (v : W64) : 0 < vtSew v := by unfold vtSew; positivity

theorem vtSew_le (v : W64) : vtSew v ≤ 64 := Nat.mul_le_mul_left 4 (Nat.pow_le_pow_right (by omega) (min_le_right _ 4))

/-! ### Live strands (R179) -/

/-- The live strands of the core besides one. -/
def State.liveOthers (s : State) (st : Fin 4) : List (Fin 4) :=
  ([0, 1, 2, 3] : List (Fin 4)).filter fun i => i != st && s.liveAt i

/-- A strand that counts as live is one more than the others that are. -/
theorem State.liveWith_true (s : State) (st : Fin 4) : s.liveWith st true = (s.liveOthers st).length + 1 := by
  unfold State.liveWith State.liveOthers
  generalize s.liveAt = live
  revert live st
  decide

theorem State.liveOthers_length_le (s : State) (st : Fin 4) : (s.liveOthers st).length ≤ 4 := List.length_filter_le ..

/-- The live strands of lower rank are among the others. -/
theorem State.liveOthers_below (s : State) (st : Fin 4) :
    (([0, 1, 2, 3] : List (Fin 4)).filter fun i => decide (i < st) && s.liveAt i) = (s.liveOthers st).filter fun i => decide (i < st) := by
  rw [State.liveOthers, List.filter_filter]
  refine List.filter_congr fun i _ => ?_
  cases s.liveAt i with
  | false => simp
  | true => by_cases h : i < st <;> simp [h, ne_of_lt]

theorem State.latShare_eq (s : State) (st : Fin 4) (a : Nat) :
    s.latShare st a = 16 / a + if ((s.liveOthers st).filter fun i => decide (i < st)).length < 16 % a then 1 else 0 := by
  rw [State.latShare, s.liveOthers_below]

/-! ### The grant (R182, R185) -/

section
variable {s : State} {st : Fin 4} {vt : W64} {cols : Nat}

theorem vismax_pos (vlcap vt : W64) : 0 < vismax vlcap vt := by
  have hcap : 64 ≤ min 8192 (128 * 2 ^ fld vlcap 0 3) := by
    have := Nat.one_le_two_pow (n := fld vlcap 0 3)
    omega
  exact Nat.div_pos ((vtSew_le vt).trans hcap) (vtSew_pos vt)

/-- Any number of lane groups holds a column. -/
theorem groups_pos {groups : Nat} (h : 0 < groups) (vt : W64) : 0 < groups * 4096 / vtSew vt :=
  Nat.div_pos (by have := vtSew_le vt; omega) (vtSew_pos vt)

/-- No columns are granted where none are asked for. -/
theorem State.grant_zero : (s.grant st vt 0).1 = 0 := by
  rw [State.grant]
  split <;> simp

theorem State.grant_det (h : (s.strand st).det = true) :
    s.grant st vt cols = (min cols (vismax (s.strand st).vlcap vt), 16 / s.tasksPerTeam st) := by rw [State.grant, if_pos h]

/-- Outside D-mode, what the share and the power cap hold bound the columns (R179, R180). -/
theorem State.grant_shared (h : (s.strand st).det = false) (hc : 0 < cols) :
    s.grant st vt cols =
      (min (min cols (vismax (s.strand st).vlcap vt))
        (min (s.latShare st ((s.liveOthers st).length + 1) * 4096 / vtSew vt) (s.powerCap ((s.liveOthers st).length + 1) * 4096 / vtSew vt)),
       s.latShare st ((s.liveOthers st).length + 1)) := by
  have hl : max 1 ((s.liveOthers st).length + 1) = (s.liveOthers st).length + 1 := by omega
  simp only [State.grant, h, decide_eq_true hc, s.liveWith_true, hl, Bool.false_eq_true, if_false]
  rfl

/-- Columns asked for are granted, at least one. -/
theorem State.grant_pos (hc : 0 < cols) : (s.grant st vt cols).1 ≠ 0 := by
  have hv := vismax_pos (s.strand st).vlcap vt
  cases hd : (s.strand st).det with
  | true => rw [State.grant_det hd]; dsimp only; omega
  | false =>
    rw [State.grant_shared hd hc]
    have hshare : 0 < s.latShare st ((s.liveOthers st).length + 1) :=
      Nat.add_pos_left (Nat.div_pos (by have := s.liveOthers_length_le st; omega) (by omega)) _
    have h1 := groups_pos hshare vt
    have h2 := groups_pos (show 0 < s.powerCap ((s.liveOthers st).length + 1) from lt_max_of_lt_left Nat.one_pos) vt
    dsimp only
    omega

end

/-! ### SETL -/

/-- A strand as SETL leaves it, with the columns and the lane groups granted. -/
def Strand.granted (y : Strand) (vt : W64) (rows vlc groups : Nat) : Strand :=
  { y with vtype := vt, cap := y.vlcap, vlr := BitVec.ofNat 5 (min rows (vtG vt)), vlc := BitVec.ofNat 16 vlc, live := vlc != 0,
           latshare := BitVec.ofNat 64 groups }

section
variable {s : State} {st : Fin 4} {rd rs1 rs2 : Reg} {vt : W32}

theorem execSetl_of_stream (h : s.cur.agent = .stream st .E) : exec (.setl rd rs1 rs2 vt) s = .next (s.setl st rd rs1 rs2 (vt.setWidth 64)) := by
  rw [exec_setl, execSetl, onStream_eq h]
  rfl

/-- SETL with a valid `VTYPE` gives what the grant says, and a share of 0 with no columns. -/
theorem execSetl_of_ok (h : s.cur.agent = .stream st .E) (hok : vtypeOk (vt.setWidth 64) = true) {vlc groups : Nat}
    (hv : (s.grant st (vt.setWidth 64) (s.readX st .E rs2).toNat).1 = vlc)
    (hg : groups = if vlc = 0 then 0 else (s.grant st (vt.setWidth 64) (s.readX st .E rs2).toNat).2) :
    exec (.setl rd rs1 rs2 vt) s =
      .next ((s.modStrand st fun y => y.granted (vt.setWidth 64) (s.readX st .E rs1).toNat vlc groups).done st .E rd (BitVec.ofNat 64 vlc)) := by
  have hlat : (if vlc == 0 then 0 else BitVec.ofNat 64 (s.grant st (vt.setWidth 64) (s.readX st .E rs2).toNat).2) = BitVec.ofNat 64 groups := by
    by_cases hz : vlc = 0 <;> simp [hg, hz]
  simp only [execSetl_of_stream h, State.setl, hok, Bool.not_true, Bool.false_eq_true, if_false, hv, hlat]
  rfl

end

/-- Settles O22: the grant is the model's by its cases, D-mode and shared, once a valid `VTYPE` has its fields in range. -/
theorem setlResults : Obligations.SetlResults := by
  unfold Obligations.SetlResults
  refine ⟨fun s st rd rs1 rs2 vt h hok => ?_, fun s st rd rs1 rs2 vt lines h hok hq ht => ?_⟩
  · intro x rows cols sew g vismax' others a share pc grants
    have hsew : sew = vtSew (vt.setWidth 64) := (vtSew_of_ok hok).symm
    have hvis : vismax' = vismax x.vlcap (vt.setWidth 64) := congrArg (_ / ·) hsew
    have hshare : share = s.latShare st a := (s.latShare_eq st a).symm
    have hgrants : ∀ {vlc groups : Nat}, (s.grant st (vt.setWidth 64) cols).1 = vlc →
        (groups = if vlc = 0 then 0 else (s.grant st (vt.setWidth 64) cols).2) → grants vlc groups := by
      intro vlc groups hv hg
      have := execSetl_of_ok (rd := rd) (rs1 := rs1) h hok hv hg
      simp only [Strand.granted, vtG_of_ok hok] at this
      exact this
    have hasked : ∀ {vlc groups : Nat}, 0 < cols → s.grant st (vt.setWidth 64) cols = (vlc, groups) → grants vlc groups := by
      intro vlc groups hc hg
      have hne := State.grant_pos (s := s) (st := st) (vt := vt.setWidth 64) hc
      rw [hg] at hne
      exact hgrants (by rw [hg]) (by rw [hg, if_neg hne])
    refine ⟨fun hc => hgrants (by rw [hc]; exact State.grant_zero) rfl, fun hd hc => ?_, fun hd hc => ?_⟩
    · rw [hvis, hshare, hsew]
      exact hasked hc (State.grant_shared hd hc)
    · rw [hvis]
      exact hasked hc (State.grant_det hd)
  · refine ⟨_, execSetl_of_stream h, ?_⟩
    rw [State.setl, hok]
    exact State.trap_atHandler ht (fun _ => hq) rfl _

end Sys2Proof.Machine
end

