-- ==== Sys2Proof/Proofs/FpBits.lean ====
section
/-! PROOFS. The bits of a format by their fields (R73): what they decode to, and the real number that finite bits are. -/

namespace Sys2Proof.Machine

/-- A format with an exponent field and a fraction field, as each of R73 has. -/
structure Fmt.Proper (f : Fmt) : Prop where
  eb_pos : 0 < f.eb
  mb_pos : 0 < f.mb

theorem Fmt.proper_of_mem {f : Fmt} (h : f ∈ [Fmt.fp16, .bf16, .fp32, .fp64]) : f.Proper := by
  rw [List.mem_cons, List.mem_cons, List.mem_cons, List.mem_singleton] at h
  rcases h with rfl | rfl | rfl | rfl <;> exact ⟨by decide, by decide⟩

theorem Fmt.fp32_proper : Fmt.fp32.Proper := ⟨by decide, by decide⟩

/-! ### The fields of bits -/

/-- The bits of a sign, an exponent field and a fraction field. -/
def Fmt.joined (f : Fmt) (neg : Bool) (ex fr : Nat) : Nat := f.zeroBits neg + ex * 2 ^ f.mb + fr

section
variable {f : Fmt} {neg : Bool} {b ex fr : Nat}

/-- The sign and the exponent field stand above the fraction field. -/
theorem Fmt.joined_eq (f : Fmt) (neg : Bool) (ex fr : Nat) : f.joined neg ex fr = fr + 2 ^ f.mb * (ex + 2 ^ f.eb * neg.toNat) := by
  cases neg <;> simp only [Fmt.joined, Fmt.zeroBits, pow_add, Bool.toNat_true, Bool.toNat_false, if_true, Bool.false_eq_true, if_false] <;> ring

theorem Fmt.frac_joined (hfr : fr < 2 ^ f.mb) : f.frac (f.joined neg ex fr) = fr := by
  rw [Fmt.frac, f.joined_eq, Nat.add_mul_mod_self_left, Nat.mod_eq_of_lt hfr]

theorem Fmt.joined_div_mb (hfr : fr < 2 ^ f.mb) : f.joined neg ex fr / 2 ^ f.mb = ex + 2 ^ f.eb * neg.toNat := by
  rw [f.joined_eq, Nat.add_mul_div_left _ _ (Nat.two_pow_pos _), Nat.div_eq_of_lt hfr, Nat.zero_add]

theorem Fmt.expo_joined (hex : ex < 2 ^ f.eb) (hfr : fr < 2 ^ f.mb) : f.expo (f.joined neg ex fr) = ex := by
  rw [Fmt.expo, Fmt.joined_div_mb hfr, Nat.add_mul_mod_self_left, Nat.mod_eq_of_lt hex]

theorem Fmt.joined_div_sign (hex : ex < 2 ^ f.eb) (hfr : fr < 2 ^ f.mb) : f.joined neg ex fr / 2 ^ (f.eb + f.mb) = neg.toNat := by
  rw [Nat.add_comm, pow_add, ← Nat.div_div_eq_div_mul, Fmt.joined_div_mb hfr, Nat.add_mul_div_left _ _ (Nat.two_pow_pos _),
    Nat.div_eq_of_lt hex, Nat.zero_add]

theorem Fmt.sign_joined (hex : ex < 2 ^ f.eb) (hfr : fr < 2 ^ f.mb) : f.sign (f.joined neg ex fr) = neg := by
  rw [Fmt.sign, Fmt.joined_div_sign hex hfr]
  cases neg <;> rfl

theorem Fmt.joined_lt (hex : ex < 2 ^ f.eb) (hfr : fr < 2 ^ f.mb) : f.joined neg ex fr < 2 ^ f.width := by
  rw [Fmt.width, Nat.add_assoc, pow_add, ← Nat.div_lt_iff_lt_mul (Nat.two_pow_pos _), Fmt.joined_div_sign hex hfr]
  exact neg.toNat_lt

/-- Below its sign, bits hold the exponent field over the fraction field. -/
theorem Fmt.mod_sign_eq (f : Fmt) (b : Nat) : b % 2 ^ (f.eb + f.mb) = f.expo b * 2 ^ f.mb + f.frac b := by
  rw [Nat.add_comm f.eb, pow_add, Nat.mod_mul, Fmt.expo, Fmt.frac, Nat.mul_comm, Nat.add_comm]

theorem Fmt.expo_lt (f : Fmt) (b : Nat) : f.expo b < 2 ^ f.eb := Nat.mod_lt _ (Nat.two_pow_pos _)

theorem Fmt.frac_lt (f : Fmt) (b : Nat) : f.frac b < 2 ^ f.mb := Nat.mod_lt _ (Nat.two_pow_pos _)

/-- The sign of bits of a format is what stands above the other fields. -/
theorem Fmt.sign_toNat (h : b < 2 ^ f.width) : (f.sign b).toNat = b / 2 ^ (f.eb + f.mb) := by
  have hlt : b / 2 ^ (f.eb + f.mb) < 2 := by
    rw [Nat.div_lt_iff_lt_mul (Nat.two_pow_pos _), ← pow_succ', Nat.add_right_comm, Nat.add_comm f.eb]
    exact h
  rw [Fmt.sign]
  interval_cases b / 2 ^ (f.eb + f.mb) <;> rfl

theorem Fmt.isNeg_iff (f : Fmt) (b : Nat) : f.IsNeg b ↔ f.sign b = true := by rw [Fmt.IsNeg, Fmt.sign, beq_iff_eq]

theorem Fmt.isNeg_joined (hex : ex < 2 ^ f.eb) (hfr : fr < 2 ^ f.mb) : f.IsNeg (f.joined neg ex fr) ↔ neg = true := by
  rw [f.isNeg_iff, Fmt.sign_joined hex hfr]

/-! ### Finite bits -/

/-- The mantissa of finite bits: an exponent field of 0 has no leading 1. -/
def Fmt.mant (f : Fmt) (b : Nat) : Nat := if f.expo b = 0 then f.frac b else 2 ^ f.mb + f.frac b

/-- The exponent of the last place of finite bits. -/
def Fmt.last (f : Fmt) (b : Nat) : Int := f.qmin + (f.expo b - 1 : Nat)

theorem Fmt.IsFinite.expo_ne (h : f.IsFinite b) : f.expo b ≠ f.emax := h.2

theorem Fmt.decode_fin (he : f.expo b ≠ f.emax) : f.decode b = .fin (f.sign b) (f.mant b) (f.last b) := by
  rw [Fmt.decode, if_neg (by simpa using he), Fmt.mant, Fmt.last]
  by_cases h0 : f.expo b = 0 <;> simp [h0]

theorem Fmt.IsFinite.decode (h : f.IsFinite b) : f.decode b = .fin (f.sign b) (f.mant b) (f.last b) := Fmt.decode_fin h.expo_ne

/-- The exponent of a subnormal's last place, in the terms of R73. -/
theorem Fmt.qmin_eq (f : Fmt) : f.qmin = 2 - (2 ^ (f.eb - 1) : ℕ) - f.mb := by
  rw [Fmt.qmin, Fmt.bias]
  push_cast
  ring

theorem Fmt.two_pow_eb (hf : f.Proper) : 2 ^ f.eb = 2 * 2 ^ (f.eb - 1) := by
  rw [← pow_succ', Nat.sub_add_cancel hf.eb_pos]

theorem Fmt.emax_lt (f : Fmt) : f.emax < 2 ^ f.eb := Nat.sub_lt (Nat.two_pow_pos _) Nat.one_pos

/-- The number that finite bits decode to is the one that R73 gives. -/
theorem Fmt.value_eq (f : Fmt) (b : Nat) : f.value b = (Num.fin (f.sign b) (f.mant b) (f.last b)).value := by
  have hq : ∀ k : ℤ, (2 : ℝ) ^ (f.qmin + k) = 2 ^ (k + 1 - f.bias) / 2 ^ f.mb := fun k => by
    rw [Fmt.qmin, show 1 - f.bias - f.mb + k = k + 1 - f.bias - f.mb by ring, zpow_sub₀ two_ne_zero, zpow_natCast]
  have hx : b / 2 ^ f.mb % 2 ^ f.eb = f.expo b := rfl
  have hr : b % 2 ^ f.mb = f.frac b := rfl
  have hb : (2 ^ (f.eb - 1) - 1 : ℤ) = f.bias := rfl
  simp only [Fmt.value, Num.value, Fmt.mant, Fmt.last, f.isNeg_iff, hq, hx, hr, hb]
  have hm : (2 : ℝ) ^ f.mb ≠ 0 := by positivity
  by_cases h0 : f.expo b = 0
  · have he : ((0 - 1 : ℕ) : ℤ) + 1 - f.bias = 1 - f.bias := by omega
    simp only [h0, if_true, he]
    field_simp
  · have he : ((f.expo b - 1 : ℕ) : ℤ) + 1 - f.bias = f.expo b - f.bias := by omega
    simp only [if_neg h0, he]
    push_cast
    field_simp

theorem Fmt.IsFinite.value_decode (h : f.IsFinite b) : (f.decode b).value = f.value b := by rw [h.decode, f.value_eq]

theorem Fmt.isFinite_joined (hex : ex < f.emax) (hfr : fr < 2 ^ f.mb) : f.IsFinite (f.joined neg ex fr) := by
  have hex' := hex.trans f.emax_lt
  exact ⟨Fmt.joined_lt hex' hfr, (Fmt.expo_joined hex' hfr).trans_ne hex.ne⟩

end
end Sys2Proof.Machine
end

