-- ==== Sys2Proof/Proofs/RoundCounts.lean ====
section
/-! PROOFS. A magnitude rounded to a whole number of units (R75): what `roundTo` gives is the magnitude rounded by the mode. -/

namespace Sys2Proof.Machine

/-! ### Rounding to a whole number -/

section
variable {mode : BitVec 3} {neg : Prop} {y : ℝ} {n k : ℕ}

theorem RoundsTo.self (mode : BitVec 3) (neg : Prop) (n : ℕ) : RoundsTo mode neg n n := by
  have hdown : (n : ℝ) ≤ n ∧ (n : ℝ) < n + 1 := ⟨le_rfl, lt_add_one _⟩
  have hup : (n : ℝ) - 1 < n ∧ (n : ℝ) ≤ n := ⟨sub_one_lt _, le_rfl⟩
  refine ⟨fun _ => ?_, fun _ => hdown, fun _ => ⟨fun _ => hup, fun _ => hdown⟩, fun _ => ⟨fun _ => hdown, fun _ => hup⟩, fun _ => ?_⟩
  · rw [sub_self, abs_zero]
    exact ⟨by norm_num, fun h => by norm_num at h⟩
  · rw [sub_self]
    constructor <;> norm_num

/-- The modes of R75. -/
theorem mode_cases (h : mode.toNat < 5) : mode = 0 ∨ mode = 1 ∨ mode = 2 ∨ mode = 3 ∨ mode = 4 := by
  revert mode
  decide

/-- In every mode the result is less than one unit away. -/
theorem RoundsTo.abs_sub_lt (h : RoundsTo mode neg y n) (hm : mode.toNat < 5) : |y - n| < 1 := by
  obtain ⟨h0, h1, h2, h3, h4⟩ := h
  have hdown : (n : ℝ) ≤ y ∧ y < n + 1 → -1 < y - n ∧ y - n < 1 := fun ⟨_, _⟩ => by constructor <;> linarith
  have hup : (n : ℝ) - 1 < y ∧ y ≤ n → -1 < y - n ∧ y - n < 1 := fun ⟨_, _⟩ => by constructor <;> linarith
  rw [abs_lt]
  rcases mode_cases hm with hm | hm | hm | hm | hm
  · have := abs_le.mp (h0 hm).1
    constructor <;> linarith
  · exact hdown (h1 hm)
  · by_cases hn : neg
    · exact hup ((h2 hm).1 hn)
    · exact hdown ((h2 hm).2 hn)
  · by_cases hn : neg
    · exact hdown ((h3 hm).1 hn)
    · exact hup ((h3 hm).2 hn)
  · have := h4 hm
    constructor <;> linarith

/-- Rounding does not pass a whole number from above. -/
theorem RoundsTo.le_of_le (h : RoundsTo mode neg y n) (hm : mode.toNat < 5) (hk : (k : ℝ) ≤ y) : k ≤ n := by
  have := abs_lt.mp (h.abs_sub_lt hm)
  have hlt : (k : ℝ) < n + 1 := by linarith
  exact Nat.lt_add_one_iff.mp (by exact_mod_cast hlt)

/-- Rounding does not pass a whole number from below. -/
theorem RoundsTo.le_of_lt (h : RoundsTo mode neg y n) (hm : mode.toNat < 5) (hk : y < k) : n ≤ k := by
  have := abs_lt.mp (h.abs_sub_lt hm)
  have hlt : (n : ℝ) < k + 1 := by linarith
  exact Nat.lt_add_one_iff.mp (by exact_mod_cast hlt)

/-- A whole number rounds to itself. -/
theorem RoundsTo.eq_of_whole (h : RoundsTo mode neg (k : ℝ) n) (hm : mode.toNat < 5) : n = k := by
  refine le_antisymm (Nat.lt_add_one_iff.mp ?_) (h.le_of_le hm le_rfl)
  have := abs_lt.mp (h.abs_sub_lt hm)
  have hlt : (n : ℝ) < k + 1 := by linarith
  exact_mod_cast hlt

theorem RoundsTo.not_lt (h : RoundsTo mode neg y n) (h' : RoundsTo mode neg y k) (hm : mode.toNat < 5) : ¬ n < k := by
  intro hlt
  have hle : (n : ℝ) + 1 ≤ k := by exact_mod_cast hlt
  obtain ⟨h0, h1, h2, h3, h4⟩ := h
  obtain ⟨h0', h1', h2', h3', h4'⟩ := h'
  have hdown : (n : ℝ) ≤ y ∧ y < n + 1 → (k : ℝ) ≤ y ∧ y < k + 1 → False := fun ⟨_, _⟩ ⟨_, _⟩ => by linarith
  have hup : (n : ℝ) - 1 < y ∧ y ≤ n → (k : ℝ) - 1 < y ∧ y ≤ k → False := fun ⟨_, _⟩ ⟨_, _⟩ => by linarith
  rcases mode_cases hm with hm | hm | hm | hm | hm
  · obtain ⟨hn, heven⟩ := h0 hm
    obtain ⟨hk, heven'⟩ := h0' hm
    -- two whole numbers within half a unit are next to each other, at ties that both go to the even one
    have hn' := (abs_le.mp hn).2
    have hk' := (abs_le.mp hk).1
    have hne : n % 2 = 0 := heven (le_antisymm hn ((le_abs_self _).trans' (by linarith)))
    have hke : k % 2 = 0 := heven' (le_antisymm hk ((neg_le_abs _).trans' (by linarith)))
    have hnext : k = n + 1 := le_antisymm (by have : (k : ℝ) ≤ n + 1 := by linarith
                                              exact_mod_cast this) hlt
    omega
  · exact hdown (h1 hm) (h1' hm)
  · by_cases hn : neg
    · exact hup ((h2 hm).1 hn) ((h2' hm).1 hn)
    · exact hdown ((h2 hm).2 hn) ((h2' hm).2 hn)
  · by_cases hn : neg
    · exact hdown ((h3 hm).1 hn) ((h3' hm).1 hn)
    · exact hup ((h3 hm).2 hn) ((h3' hm).2 hn)
  · linarith [h4 hm, h4' hm]

/-- A mode rounds a magnitude to one whole number. -/
theorem RoundsTo.unique (h : RoundsTo mode neg y n) (h' : RoundsTo mode neg y k) (hm : mode.toNat < 5) : n = k :=
  le_antisymm (Nat.le_of_not_lt (h'.not_lt h hm)) (Nat.le_of_not_lt (h.not_lt h' hm))

end

/-! ### Rounding up or down -/

section
variable {n : ℕ} {y : ℝ} {half exactHalf any : Bool}

/-- When the whole number below is what a mode rounds to. -/
theorem RoundsTo.below {mode : BitVec 3} {neg : Prop} (hy : (n : ℝ) ≤ y ∧ y < n + 1)
    (hnear : mode = 0 → y - n ≤ 1 / 2 ∧ (y - n = 1 / 2 → n % 2 = 0)) (hneg : mode = 2 → neg → y = n)
    (hpos : mode = 3 → ¬ neg → y = n) (haway : mode = 4 → y - n < 1 / 2) : RoundsTo mode neg y n := by
  obtain ⟨h0, h1⟩ := hy
  have habs : |y - n| = y - n := abs_of_nonneg (by linarith)
  have hup : y = n → (n : ℝ) - 1 < y ∧ y ≤ n := fun h => ⟨by linarith, h.le⟩
  refine ⟨fun hm => ?_, fun _ => ⟨h0, h1⟩, fun hm => ⟨fun h => hup (hneg hm h), fun _ => ⟨h0, h1⟩⟩,
    fun hm => ⟨fun _ => ⟨h0, h1⟩, fun h => hup (hpos hm h)⟩, fun hm => ⟨haway hm, by linarith⟩⟩
  rw [habs]
  exact hnear hm

/-- When the whole number above is what a mode rounds to. -/
theorem RoundsTo.above {mode : BitVec 3} {neg : Prop} (hy : (n : ℝ) ≤ y ∧ y < n + 1)
    (hnear : mode = 0 → 1 / 2 ≤ y - n ∧ (y - n = 1 / 2 → n % 2 = 1)) (hzero : mode ≠ 1) (hneg : mode = 2 → neg ∧ y ≠ n)
    (hpos : mode = 3 → ¬ neg ∧ y ≠ n) (haway : mode = 4 → 1 / 2 ≤ y - n) : RoundsTo mode neg y (n + 1) := by
  obtain ⟨h0, h1⟩ := hy
  have habs : |y - (n + 1 : ℕ)| = 1 - (y - n) := by
    push_cast
    rw [abs_of_nonpos (by linarith)]
    ring
  have hup : y ≠ n → ((n + 1 : ℕ) : ℝ) - 1 < y ∧ y ≤ (n + 1 : ℕ) := fun h => by
    push_cast
    exact ⟨by linarith [lt_of_le_of_ne h0 (Ne.symm h)], h1.le⟩
  refine ⟨fun hm => ?_, fun hm => absurd hm hzero, fun hm => ⟨fun _ => hup (hneg hm).2, fun h => absurd (hneg hm).1 h⟩,
    fun hm => ⟨fun h => absurd h (hpos hm).1, fun _ => hup (hpos hm).2⟩, fun hm => ?_⟩
  · obtain ⟨hge, hodd⟩ := hnear hm
    rw [habs]
    refine ⟨by linarith, fun h => ?_⟩
    have := hodd (by linarith)
    omega
  · have := haway hm
    push_cast
    constructor <;> linarith

/-- When a magnitude is rounded up, mode by mode (R75). -/
theorem roundUp_iff (mode : BitVec 3) (neg odd half exactHalf any : Bool) : roundUp mode neg odd half exactHalf any = true ↔
    (mode = 0 ∧ half = true ∧ (exactHalf = true → odd = true)) ∨ (mode = 2 ∧ any = true ∧ neg = true)
      ∨ (mode = 3 ∧ any = true ∧ neg ≠ true) ∨ (mode = 4 ∧ half = true) := by
  simp only [roundUp, beq_iff_eq]
  split_ifs with h0 h2 h3 h4
  · subst h0
    cases exactHalf <;> simp
  · subst h2
    simp
  · subst h3
    simp
  · subst h4
    simp
  · refine iff_of_false not_false ?_
    rintro (⟨h, -⟩ | ⟨h, -⟩ | ⟨h, -⟩ | ⟨h, -⟩)
    exacts [h0 h, h2 h, h3 h, h4 h]

/-- A magnitude between two whole numbers is rounded by the mode where `roundUp` chooses by how its fraction compares with half a unit. -/
theorem roundUp_rounds (mode : BitVec 3) (neg : Bool) (hy : (n : ℝ) ≤ y ∧ y < n + 1)
    (hhalf : half = true ↔ 1 / 2 ≤ y - n) (hexact : exactHalf = true ↔ y - n = 1 / 2) (hany : any = true ↔ y ≠ n) :
    RoundsTo mode (neg = true) y (if roundUp mode neg (n % 2 == 1) half exactHalf any then n + 1 else n : ℕ) := by
  have hiff := roundUp_iff mode neg (n % 2 == 1) half exactHalf any
  rw [hhalf, hexact, hany, beq_iff_eq] at hiff
  by_cases hu : roundUp mode neg (n % 2 == 1) half exactHalf any = true
  · rw [if_pos hu]
    rcases hiff.mp hu with ⟨rfl, h⟩ | ⟨rfl, h, hn⟩ | ⟨rfl, h, hn⟩ | ⟨rfl, h⟩
    · exact RoundsTo.above hy (fun _ => h) (by decide) (absurd · (by decide)) (absurd · (by decide)) (absurd · (by decide))
    · exact RoundsTo.above hy (absurd · (by decide)) (by decide) (fun _ => ⟨hn, h⟩) (absurd · (by decide)) (absurd · (by decide))
    · exact RoundsTo.above hy (absurd · (by decide)) (by decide) (absurd · (by decide)) (fun _ => ⟨hn, h⟩) (absurd · (by decide))
    · exact RoundsTo.above hy (absurd · (by decide)) (by decide) (absurd · (by decide)) (absurd · (by decide)) (fun _ => h)
  · rw [if_neg hu]
    have hdown := mt hiff.mpr hu
    rw [not_or, not_or, not_or] at hdown
    obtain ⟨hnear, hneg, hpos, haway⟩ := hdown
    refine RoundsTo.below hy (fun hm => ?_) (fun hm hn => ?_) (fun hm hn => ?_) (fun hm => ?_)
    · have hle : y - n ≤ 1 / 2 := not_lt.mp fun h => hnear ⟨hm, h.le, fun heq => absurd heq h.ne'⟩
      refine ⟨hle, fun heq => Nat.mod_two_ne_one.mp fun hodd => hnear ⟨hm, heq.ge, fun _ => hodd⟩⟩
    · exact by_contra fun hne => hneg ⟨hm, hne, hn⟩
    · exact by_contra fun hne => hpos ⟨hm, hne, hn⟩
    · exact not_le.mp fun h => haway ⟨hm, h⟩

end

/-! ### A magnitude in units of a power of two -/

/-- A magnitude by the whole number of units 2^e below it, and whether it is more than that. -/
structure Truncates (m : ℕ) (e : ℤ) (sticky : Bool) (y : ℝ) : Prop where
  le : m * (2 : ℝ) ^ e ≤ y
  lt : y < (m + 1) * (2 : ℝ) ^ e
  more : sticky = true ↔ y ≠ m * (2 : ℝ) ^ e

theorem truncates_exact (m : ℕ) (e : ℤ) : Truncates m e false (m * (2 : ℝ) ^ e) := by
  have : (0 : ℝ) < 2 ^ e := by positivity
  exact ⟨le_rfl, by linarith, by simp⟩

section
variable {m : ℕ} {e q : ℤ} {sticky : Bool} {y : ℝ}

theorem Truncates.eq_of_exact (h : Truncates m e false y) : y = m * (2 : ℝ) ^ e :=
  by_contra fun hne => Bool.false_ne_true (h.more.mpr hne)

/-- The units of a power of two that a magnitude holds, by the quotient and the remainder of those of a lower one. -/
theorem Truncates.div_eq (m : ℕ) (y : ℝ) (h : e ≤ q) :
    y / 2 ^ q - (m / 2 ^ (q - e).toNat : ℕ) = ((m % 2 ^ (q - e).toNat : ℕ) + (y / 2 ^ e - m)) / 2 ^ (q - e).toNat := by
  have hq : (2 : ℝ) ^ q = 2 ^ (q - e).toNat * 2 ^ e := by
    rw [← zpow_natCast, ← zpow_add₀ two_ne_zero]
    congr 1
    omega
  have hm : (m : ℝ) = 2 ^ (q - e).toNat * (m / 2 ^ (q - e).toNat : ℕ) + (m % 2 ^ (q - e).toNat : ℕ) := by
    exact_mod_cast (Nat.div_add_mod m (2 ^ (q - e).toNat)).symm
  have h0 : (2 : ℝ) ^ e ≠ 0 := by positivity
  have h1 : (2 : ℝ) ^ (q - e).toNat ≠ 0 := by positivity
  rw [hq]
  field_simp
  rw [hm]
  ring

/-- A whole number and a fraction, against a whole number. -/
theorem whole_le_iff {k r : ℕ} {d : ℝ} (h0 : 0 ≤ d) (h1 : d < 1) : (k : ℝ) ≤ r + d ↔ k ≤ r := by
  constructor
  · intro h
    have : (k : ℝ) < r + 1 := by linarith
    exact Nat.lt_add_one_iff.mp (by exact_mod_cast this)
  · intro h
    have : (k : ℝ) ≤ r := by exact_mod_cast h
    linarith

theorem whole_eq_iff {k r : ℕ} {d : ℝ} (h0 : 0 ≤ d) (h1 : d < 1) : r + d = (k : ℝ) ↔ r = k ∧ d = 0 := by
  constructor
  · intro h
    have hk : k ≤ r := (whole_le_iff h0 h1).mp h.ge
    have hr : r ≤ k := by
      have : (r : ℝ) ≤ k := by linarith
      exact_mod_cast this
    have hrk := le_antisymm hr hk
    exact ⟨hrk, by rw [hrk] at h; linarith⟩
  · rintro ⟨rfl, rfl⟩
    exact add_zero _

/-- The part of a unit that a magnitude holds beyond the whole number of units. -/
theorem Truncates.part (h : Truncates m e sticky y) :
    0 ≤ y / 2 ^ e - m ∧ y / 2 ^ e - m < 1 ∧ (sticky = true ↔ y / 2 ^ e - m ≠ 0) := by
  have hpos : (0 : ℝ) < 2 ^ e := by positivity
  refine ⟨by rw [sub_nonneg, le_div_iff₀ hpos]; exact h.le, by rw [sub_lt_iff_lt_add, add_comm, div_lt_iff₀ hpos]; exact h.lt, ?_⟩
  rw [h.more, ne_eq, ne_eq, sub_eq_zero, div_eq_iff hpos.ne']

/-- A magnitude in lower units is a whole number of them. -/
theorem roundTo_of_le (mode : BitVec 3) (neg : Bool) (hq : q ≤ e) :
    (roundTo mode neg m e sticky q).2 = sticky ∧ ((roundTo mode neg m e sticky q).1 : ℝ) = m * 2 ^ e / 2 ^ q := by
  rw [roundTo, if_pos hq]
  refine ⟨rfl, ?_⟩
  push_cast
  rw [mul_div_assoc, ← zpow_sub₀ two_ne_zero, ← zpow_natCast, Int.toNat_of_nonneg (by omega)]

/-- A magnitude in higher units is rounded by how the dropped part compares with half a unit. -/
theorem roundTo_of_lt (mode : BitVec 3) (neg : Bool) (h : Truncates m e sticky y) (hq : e < q) :
    RoundsTo mode (neg = true) (y / 2 ^ q) (roundTo mode neg m e sticky q).1
      ∧ ((roundTo mode neg m e sticky q).2 = true ↔ y / 2 ^ q ≠ (m / 2 ^ (q - e).toNat : ℕ))
      ∧ (m / 2 ^ (q - e).toNat : ℕ) ≤ y / 2 ^ q ∧ y / 2 ^ q < (m / 2 ^ (q - e).toNat : ℕ) + 1 := by
  obtain ⟨hd0, hd1, hmore⟩ := h.part
  have hdiv := Truncates.div_eq m y hq.le
  rw [roundTo, if_neg (not_le.mpr hq)]
  obtain ⟨sh, hsh⟩ : ∃ sh, (q - e).toNat = sh + 1 := ⟨(q - e).toNat - 1, by omega⟩
  rw [hsh] at hdiv ⊢
  dsimp only
  rw [Nat.add_sub_cancel]
  generalize y / 2 ^ e - m = d at hd0 hd1 hmore hdiv
  have hr := Nat.mod_lt m (Nat.two_pow_pos (sh + 1))
  generalize m % 2 ^ (sh + 1) = r at hdiv hr ⊢
  generalize m / 2 ^ (sh + 1) = n at hdiv ⊢
  have hS : (0 : ℝ) < 2 ^ (sh + 1) := by positivity
  have hhalf : (1 / 2 : ℝ) * 2 ^ (sh + 1) = (2 ^ sh : ℕ) := by push_cast; ring
  have hlt : (r : ℝ) + 1 ≤ 2 ^ (sh + 1) := by exact_mod_cast hr
  have hzero : y / 2 ^ q = n ↔ r = 0 ∧ d = 0 := by
    rw [← sub_eq_zero, hdiv, div_eq_zero_iff, or_iff_left hS.ne']
    simpa using whole_eq_iff (k := 0) (r := r) hd0 hd1
  have hany : (r != 0 || sticky) = true ↔ y / 2 ^ q ≠ n := by
    rw [Bool.or_eq_true, hmore, bne_iff_ne, Ne, Ne, Ne, hzero, not_and_or]
  have hy : (n : ℝ) ≤ y / 2 ^ q ∧ y / 2 ^ q < n + 1 := by
    have h0 : 0 ≤ (r + d) / 2 ^ (sh + 1) := by positivity
    have h1 : (r + d) / 2 ^ (sh + 1) < 1 := (div_lt_one hS).mpr (by linarith)
    constructor <;> linarith
  refine ⟨roundUp_rounds mode neg hy ?_ ?_ hany, hany, hy⟩
  · rw [hdiv, le_div_iff₀ hS, hhalf, whole_le_iff hd0 hd1, decide_eq_true_eq]
  · rw [hdiv, div_eq_iff hS.ne', hhalf, whole_eq_iff hd0 hd1, Bool.and_eq_true, beq_iff_eq, Bool.not_eq_true', ← Bool.not_eq_true, hmore, not_not]

/-- A magnitude of units of 2^e rounded to units of 2^q: rounded by the mode, and inexact where the result is another number. -/
theorem roundTo_spec (mode : BitVec 3) (neg : Bool) (hm : mode.toNat < 5) (h : Truncates m e sticky y) (hq : sticky = true → e < q) :
    RoundsTo mode (neg = true) (y / 2 ^ q) (roundTo mode neg m e sticky q).1
      ∧ ((roundTo mode neg m e sticky q).2 = true ↔ ((roundTo mode neg m e sticky q).1 : ℝ) ≠ y / 2 ^ q) := by
  rcases le_or_gt q e with hle | hlt
  · obtain ⟨hs, hn⟩ := roundTo_of_le mode neg (m := m) (sticky := sticky) hle
    obtain rfl : sticky = false := Bool.eq_false_iff.mpr fun h => absurd (hq h) (not_lt.mpr hle)
    rw [h.eq_of_exact, ← hn, hs]
    exact ⟨RoundsTo.self _ _ _, by simp⟩
  · obtain ⟨hr, hany, hy0, hy1⟩ := roundTo_of_lt mode neg h hlt
    refine ⟨hr, hany.trans (not_congr ⟨fun heq => ?_, fun heq => ?_⟩)⟩
    · rw [heq] at hr ⊢
      exact_mod_cast hr.eq_of_whole hm
    · rw [← heq] at hy0 hy1 ⊢
      exact_mod_cast le_antisymm (Nat.lt_add_one_iff.mp (by exact_mod_cast hy1)) (by exact_mod_cast hy0)

end

end Sys2Proof.Machine
end

