-- ==== Sys2Proof/Proofs/RoundMagnitude.lean ====
section
/-! PROOFS. A magnitude rounded into a format (R75, R76): `roundMag` is the real number rounded once, with the flags of that rounding. -/

namespace Sys2Proof.Machine

/-! ### The binade of a magnitude -/

section
variable {m : ℕ} {e : ℤ} {sticky : Bool} {y : ℝ}

theorem two_pow_le_of_bitLen (hm : m ≠ 0) : 2 ^ (bitLen m - 1) ≤ m := by
  rw [bitLen, if_neg (by simpa using hm), Nat.add_sub_cancel]
  exact Nat.log2_self_le hm

theorem lt_two_pow_bitLen (m : ℕ) : m < 2 ^ bitLen m := by
  rw [bitLen]
  split
  · next h => simp [beq_iff_eq.mp h]
  · exact Nat.lt_log2_self

theorem bitLen_pos (hm : m ≠ 0) : 0 < bitLen m := by
  rw [bitLen, if_neg (by simpa using hm)]
  exact Nat.succ_pos _

/-- The significant bits of a magnitude's whole units say which binade it is in. -/
theorem Truncates.binade (h : Truncates m e sticky y) (hm : m ≠ 0) (p : ℕ) :
    2 ^ p * (2 : ℝ) ^ (e + bitLen m - (p + 1 : ℕ)) ≤ y ∧ y < 2 ^ (p + 1) * (2 : ℝ) ^ (e + bitLen m - (p + 1 : ℕ)) := by
  have hpos : (0 : ℝ) < 2 ^ e := by positivity
  have hlow : (2 : ℝ) ^ p * 2 ^ (e + bitLen m - (p + 1 : ℕ)) = (2 ^ (bitLen m - 1) : ℕ) * 2 ^ e := by
    push_cast
    rw [← zpow_natCast, ← zpow_natCast (2 : ℝ) (bitLen m - 1), ← zpow_add₀ two_ne_zero, ← zpow_add₀ two_ne_zero]
    congr 1
    have := bitLen_pos hm
    omega
  have hhigh : (2 : ℝ) ^ (p + 1) * 2 ^ (e + bitLen m - (p + 1 : ℕ)) = (2 ^ bitLen m : ℕ) * 2 ^ e := by
    push_cast
    rw [← zpow_natCast, ← zpow_natCast (2 : ℝ) (bitLen m), ← zpow_add₀ two_ne_zero, ← zpow_add₀ two_ne_zero]
    congr 1
    omega
  rw [hlow, hhigh]
  refine ⟨le_trans ?_ h.le, h.lt.trans_le ?_⟩
  · exact mul_le_mul_of_nonneg_right (by exact_mod_cast two_pow_le_of_bitLen hm) hpos.le
  · exact mul_le_mul_of_nonneg_right (by exact_mod_cast lt_two_pow_bitLen m) hpos.le

end

/-! ### Counts of units as bits -/

/-- A count of units 2^q that a format's fields can hold as they stand, the exponent field left aside. -/
structure Fmt.Fits (f : Fmt) (n : ℕ) (q : ℤ) : Prop where
  lt : n < 2 ^ (f.mb + 1)
  low : f.qmin ≤ q
  sub : n < 2 ^ f.mb → q = f.qmin

/-- The exponent field of a count of units 2^q. -/
def Fmt.field (f : Fmt) (n : ℕ) (q : ℤ) : ℕ := if n < 2 ^ f.mb then 0 else (q - f.qmin).toNat + 1

/-- The bits of a count of units 2^q. -/
def Fmt.placed (f : Fmt) (neg : Bool) (n : ℕ) (q : ℤ) : ℕ := f.joined neg (f.field n q) (n % 2 ^ f.mb)

section
variable {f : Fmt} {neg : Bool} {n : ℕ} {q : ℤ}

theorem Fmt.two_zpow_top (hf : f.Proper) : (2 : ℝ) ^ (2 ^ (f.eb - 1) : ℕ) = 2 ^ f.mb * 2 ^ (f.qmin + f.emax - 1) := by
  have he : f.qmin + f.emax - 1 = (2 ^ (f.eb - 1) : ℕ) - (f.mb : ℕ) := by
    have := f.qmin_eq
    have := Fmt.two_pow_eb hf
    have := Nat.two_pow_pos (f.eb - 1)
    rw [Fmt.emax]
    omega
  rw [he, zpow_sub₀ two_ne_zero, zpow_natCast, zpow_natCast]
  field_simp

/-- A count of units fits in the exponent field where it is below the end of the format. -/
theorem Fmt.Fits.field_lt_iff (h : f.Fits n q) (hf : f.Proper) :
    f.field n q < f.emax ↔ n * (2 : ℝ) ^ q < 2 ^ (2 ^ (f.eb - 1) : ℕ) := by
  have hpos : (0 : ℝ) < 2 ^ f.mb := by positivity
  have hemax : 0 < f.emax := by
    have := Fmt.two_pow_eb hf
    have := Nat.two_pow_pos (f.eb - 1)
    rw [Fmt.emax]
    omega
  rw [Fmt.two_zpow_top hf, Fmt.field]
  split
  · next hn =>
    refine iff_of_true hemax ?_
    have hq : q ≤ f.qmin + f.emax - 1 := by rw [h.sub hn]; omega
    calc (n : ℝ) * 2 ^ q < 2 ^ f.mb * 2 ^ q := mul_lt_mul_of_pos_right (by exact_mod_cast hn) (by positivity)
      _ ≤ _ := mul_le_mul_of_nonneg_left (zpow_le_zpow_right₀ one_le_two hq) hpos.le
  · next hn =>
    have hn' : (2 : ℝ) ^ f.mb ≤ n := by exact_mod_cast not_lt.mp hn
    have hlow := h.low
    constructor
    · intro hlt
      calc (n : ℝ) * 2 ^ q < 2 ^ (f.mb + 1) * 2 ^ q := mul_lt_mul_of_pos_right (by exact_mod_cast h.lt) (by positivity)
        _ = 2 ^ f.mb * 2 ^ (q + 1) := by rw [zpow_add_one₀ two_ne_zero, pow_succ]; ring
        _ ≤ _ := mul_le_mul_of_nonneg_left (zpow_le_zpow_right₀ one_le_two (by omega)) hpos.le
    · intro hlt
      have hlt' := (mul_le_mul_of_nonneg_right hn' (by positivity : (0 : ℝ) ≤ 2 ^ q)).trans_lt hlt
      have := (zpow_lt_zpow_iff_right₀ one_lt_two).mp (lt_of_mul_lt_mul_left hlt' hpos.le)
      omega

/-- The bits of a count of units are finite, of its sign, and the count of the units. -/
theorem Fmt.Fits.placed (h : f.Fits n q) (hlt : f.field n q < f.emax) :
    f.IsFinite (f.placed neg n q) ∧ (f.IsNeg (f.placed neg n q) ↔ neg = true)
      ∧ f.value (f.placed neg n q) = (if neg = true then -1 else 1) * n * 2 ^ q := by
  have hfr : n % 2 ^ f.mb < 2 ^ f.mb := Nat.mod_lt _ (Nat.two_pow_pos _)
  have hex := hlt.trans f.emax_lt
  refine ⟨Fmt.isFinite_joined hlt hfr, Fmt.isNeg_joined hex hfr, ?_⟩
  have hfield : f.mant (f.placed neg n q) = n ∧ f.last (f.placed neg n q) = q := by
    rw [Fmt.mant, Fmt.last, Fmt.placed, Fmt.expo_joined hex hfr, Fmt.frac_joined hfr, Fmt.field]
    split
    · next hn =>
      rw [Nat.mod_eq_of_lt hn, h.sub hn]
      simp
    · next hn =>
      have hmod : n % 2 ^ f.mb = n - 2 ^ f.mb := by
        have := h.lt
        rw [pow_succ] at this
        rw [Nat.mod_eq_sub_mod (by omega), Nat.mod_eq_of_lt (by omega)]
      have := h.low
      constructor
      · rw [if_neg (Nat.succ_ne_zero _), hmod]
        omega
      · omega
  rw [f.value_eq, hfield.1, hfield.2, Fmt.placed, Fmt.sign_joined hex hfr, Num.value]

/-- A count that reached the next binade, in its units. -/
def Fmt.carry (f : Fmt) (n : ℕ) (q : ℤ) : ℕ × ℤ :=
  (if n == 2 ^ (f.mb + 1) then 2 ^ f.mb else n, if n == 2 ^ (f.mb + 1) then q + 1 else q)

theorem Fmt.carry_value (f : Fmt) (n : ℕ) (q : ℤ) : ((f.carry n q).1 : ℝ) * 2 ^ (f.carry n q).2 = n * 2 ^ q := by
  by_cases h : n = 2 ^ (f.mb + 1)
  · simp only [Fmt.carry, h, beq_self_eq_true, if_true, zpow_add_one₀ (two_ne_zero (α := ℝ))]
    push_cast
    ring
  · simp only [Fmt.carry, beq_false_of_ne h, Bool.false_eq_true, if_false]

theorem Fmt.carry_fits (hn : n ≤ 2 ^ (f.mb + 1)) (hq : f.qmin ≤ q) (hsub : n < 2 ^ f.mb → q = f.qmin) :
    f.Fits (f.carry n q).1 (f.carry n q).2 := by
  by_cases h : n = 2 ^ (f.mb + 1)
  · simp only [Fmt.carry, h, beq_self_eq_true, if_true]
    exact ⟨Nat.pow_lt_pow_succ Nat.one_lt_two, by omega, fun h => absurd h (lt_irrefl _)⟩
  · simp only [Fmt.carry, beq_false_of_ne h, Bool.false_eq_true, if_false]
    exact ⟨lt_of_le_of_ne hn h, hq, hsub⟩

end

/-! ### Overflow -/

section
variable {f : Fmt} {mode : BitVec 3} {neg : Bool}

theorem Fmt.emax_pos (hf : f.Proper) : 0 < f.emax := by
  have := Nat.one_lt_two_pow hf.eb_pos.ne'
  rw [Fmt.emax]
  omega

theorem Fmt.maxBits_eq (hf : f.Proper) (neg : Bool) : f.maxBits neg = f.joined neg (f.emax - 1) (2 ^ f.mb - 1) := by
  have h := Nat.sub_one_mul f.emax (2 ^ f.mb)
  have hle := Nat.le_mul_of_pos_left (2 ^ f.mb) (Fmt.emax_pos hf)
  have := Nat.two_pow_pos f.mb
  rw [Fmt.maxBits, Fmt.infBits, Fmt.joined, h, ← Fmt.zeroBits]
  omega

/-- Whether a mode goes to infinity beyond the format (R75). -/
theorem Fmt.overflow_eq (f : Fmt) (mode : BitVec 3) (neg : Bool) :
    f.overflow mode neg = if mode = 1 ∨ (mode = 2 ∧ neg = false) ∨ (mode = 3 ∧ neg = true) then f.maxBits neg else f.infBits neg := by
  rw [Fmt.overflow]
  congr 1
  simp [or_assoc]

theorem Fmt.joined_mod_sign {ex fr : ℕ} (hex : ex < 2 ^ f.eb) (hfr : fr < 2 ^ f.mb) :
    f.joined neg ex fr % 2 ^ (f.eb + f.mb) = ex * 2 ^ f.mb + fr := by
  rw [f.mod_sign_eq, Fmt.expo_joined hex hfr, Fmt.frac_joined hfr]

theorem Fmt.infBits_mod (f : Fmt) (neg : Bool) : f.infBits neg % 2 ^ (f.eb + f.mb) = f.emax * 2 ^ f.mb :=
  Fmt.joined_mod_sign f.emax_lt (Nat.two_pow_pos _)

theorem Fmt.isNeg_infBits (f : Fmt) (neg : Bool) : f.IsNeg (f.infBits neg) ↔ neg = true :=
  Fmt.isNeg_joined f.emax_lt (Nat.two_pow_pos _)

theorem Fmt.maxBits_mod (hf : f.Proper) (neg : Bool) : f.maxBits neg % 2 ^ (f.eb + f.mb) = f.emax * 2 ^ f.mb - 1 := by
  have h := Nat.sub_one_mul f.emax (2 ^ f.mb)
  have hle := Nat.le_mul_of_pos_left (2 ^ f.mb) (Fmt.emax_pos hf)
  have := Nat.two_pow_pos f.mb
  rw [Fmt.maxBits_eq hf, Fmt.joined_mod_sign (lt_of_le_of_lt (Nat.sub_le _ _) f.emax_lt) (Nat.sub_lt this Nat.one_pos), h]
  omega

theorem Fmt.isNeg_maxBits (hf : f.Proper) (neg : Bool) : f.IsNeg (f.maxBits neg) ↔ neg = true := by
  rw [Fmt.maxBits_eq hf]
  exact Fmt.isNeg_joined (lt_of_le_of_lt (Nat.sub_le _ _) f.emax_lt) (Nat.sub_lt (Nat.two_pow_pos _) Nat.one_pos)

theorem Fmt.isNeg_overflow (hf : f.Proper) (mode : BitVec 3) (neg : Bool) : f.IsNeg (f.overflow mode neg) ↔ neg = true := by
  rw [f.overflow_eq]
  split
  · exact Fmt.isNeg_maxBits hf neg
  · exact f.isNeg_infBits neg

end

/-! ### Rounding into a format -/

section
variable {f : Fmt} {mode : BitVec 3} {neg sticky : Bool} {m : ℕ} {e : ℤ} {x : ℝ}

/-- The exponent of a magnitude's last place in the format with an unbounded exponent. -/
def Fmt.ulp (f : Fmt) (m : ℕ) (e : ℤ) : ℤ := e + bitLen m - (f.mb + 1 : ℕ)

/-- The rounding of a magnitude in the terms of the lemmas above. -/
theorem Fmt.roundMag_eq (f : Fmt) (mode : BitVec 3) (neg : Bool) (m : ℕ) (e : ℤ) (sticky : Bool) : f.roundMag mode neg m e sticky =
    let q := max (f.ulp m e) f.qmin
    let r := roundTo mode neg m e sticky q
    let tiny := decide (f.ulp m e < f.qmin)
      && decide (((roundTo mode neg m e sticky (f.ulp m e)).1 : ℤ) < 2 ^ (f.mb + (f.qmin - f.ulp m e).toNat))
    let c := f.carry r.1 q
    if f.emax ≤ f.field c.1 c.2 then (f.overflow mode neg, flagOF ||| flagNX)
    else (f.placed neg c.1 c.2, (if r.2 then flagNX else 0) ||| (if tiny && r.2 then flagUF else 0)) := by
  simp only [Fmt.roundMag, Fmt.carry, Fmt.field, Fmt.placed, Fmt.ulp, sub_self, Int.toNat_zero, pow_zero, mul_one]
  rfl

theorem flags_bits (inexact tiny : Bool) :
    let fl : Flags := (if inexact then flagNX else 0) ||| (if tiny && inexact then flagUF else 0)
    fl.getLsbD 0 = inexact ∧ fl.getLsbD 1 = (tiny && inexact) ∧ fl.getLsbD 2 = false ∧ fl.getLsbD 3 = false ∧ fl.getLsbD 4 = false := by
  cases inexact <;> cases tiny <;> decide

/-- A magnitude at least the least of its binade is rounded to a count of units that the format's fields can hold. -/
theorem Fmt.round_fits (hmode : mode.toNat < 5) (h : Truncates m e sticky |x|) (hm : m ≠ 0) {n : ℕ}
    (hn : RoundsTo mode (neg = true) (|x| / 2 ^ max (f.ulp m e) f.qmin) n) :
    f.Fits (f.carry n (max (f.ulp m e) f.qmin)).1 (f.carry n (max (f.ulp m e) f.qmin)).2 := by
  obtain ⟨hlow, hhigh⟩ := h.binade hm f.mb
  rw [← Fmt.ulp] at hlow hhigh
  refine Fmt.carry_fits (hn.le_of_lt hmode ?_) (le_max_right _ _) fun hlt => max_eq_right (not_lt.mp fun hq => ?_)
  · rw [div_lt_iff₀ (by positivity)]
    push_cast
    exact hhigh.trans_le (mul_le_mul_of_nonneg_left (zpow_le_zpow_right₀ one_le_two (le_max_left _ _)) (by positivity))
  · rw [max_eq_left hq.le] at hn
    refine absurd (hn.le_of_le (k := 2 ^ f.mb) hmode ?_) (not_le.mpr hlt)
    rw [le_div_iff₀ (by positivity)]
    exact_mod_cast hlow

/-- Tininess after rounding (R76): below the least normal number with an unbounded exponent. -/
theorem Fmt.tiny_iff (hmode : mode.toNat < 5) (h : Truncates m e sticky |x|) (hm : m ≠ 0) {n : ℕ}
    (hn : RoundsTo mode (neg = true) (|x| / 2 ^ f.ulp m e) n) :
    (f.ulp m e < f.qmin ∧ (n : ℤ) < 2 ^ (f.mb + (f.qmin - f.ulp m e).toNat)) ↔ (n : ℝ) * 2 ^ f.ulp m e < 2 ^ (f.qmin + f.mb) := by
  obtain ⟨hlow, -⟩ := h.binade hm f.mb
  rw [← Fmt.ulp] at hlow
  have hpos : (0 : ℝ) < 2 ^ f.ulp m e := by positivity
  have hge : 2 ^ f.mb ≤ n := hn.le_of_le hmode (by rw [le_div_iff₀ hpos]; exact_mod_cast hlow)
  rw [← lt_div_iff₀ hpos, ← zpow_sub₀ two_ne_zero]
  constructor
  · rintro ⟨hq, hlt⟩
    rw [show f.qmin + f.mb - f.ulp m e = (f.mb + (f.qmin - f.ulp m e).toNat : ℕ) by omega, zpow_natCast]
    exact_mod_cast hlt
  · intro hlt
    have hexp := ((zpow_natCast (2 : ℝ) f.mb).trans_le (by exact_mod_cast hge)).trans_lt hlt
    have hq := (zpow_lt_zpow_iff_right₀ one_lt_two).mp hexp
    refine ⟨by omega, ?_⟩
    rw [show f.qmin + f.mb - f.ulp m e = (f.mb + (f.qmin - f.ulp m e).toNat : ℕ) by omega, zpow_natCast] at hlt
    exact_mod_cast hlt

/-- A magnitude other than zero, exact or with enough bits before what was cut off, is rounded once. -/
theorem Fmt.roundMag_rounded (hf : f.Proper) (hmode : mode.toNat < 5) (hneg : x < 0 ↔ neg = true) (h : Truncates m e sticky |x|)
    (hm : m ≠ 0) (hs : sticky = true → f.mb + 1 < bitLen m) : f.Rounded mode x (f.roundMag mode neg m e sticky) := by
  have hulp : sticky = true → e < f.ulp m e := fun h => by have := hs h; rw [Fmt.ulp]; omega
  obtain ⟨hr, hinexact⟩ := roundTo_spec mode neg (q := max (f.ulp m e) f.qmin) hmode h fun h => lt_max_of_lt_left (hulp h)
  obtain ⟨hu, -⟩ := roundTo_spec mode neg hmode h hulp
  have hfits := Fmt.round_fits hmode h hm hr
  have htiny := Fmt.tiny_iff hmode h hm hu
  have hvalue := f.carry_value (roundTo mode neg m e sticky (max (f.ulp m e) f.qmin)).1 (max (f.ulp m e) f.qmin)
  have hleast : 2 - 2 ^ (f.eb - 1) - f.mb = f.qmin := by rw [f.qmin_eq]; push_cast; ring
  have hleast' : 2 - 2 ^ (f.eb - 1) = f.qmin + f.mb := by rw [← hleast]; ring
  have hx0 : x ≠ 0 := fun h0 => by
    have := (h.binade hm 0).1
    rw [h0, abs_zero] at this
    exact absurd this (not_le.mpr (by positivity))
  have hpos : 0 < x ↔ neg ≠ true := by rw [Ne, ← hneg, not_lt]; exact ⟨le_of_lt, fun h => lt_of_le_of_ne h hx0.symm⟩
  rw [f.roundMag_eq]
  dsimp only
  generalize roundTo mode neg m e sticky (max (f.ulp m e) f.qmin) = r at *
  generalize roundTo mode neg m e sticky (f.ulp m e) = u at *
  refine ⟨f.ulp m e, r.1, u.1, ?_⟩
  simp only [hleast, hneg, hpos]
  have hinexact' : r.2 = true ↔ (r.1 : ℝ) * 2 ^ max (f.ulp m e) f.qmin ≠ |x| := by rw [hinexact, Ne, Ne, eq_div_iff (by positivity)]
  obtain ⟨hlow, hhigh⟩ := h.binade hm f.mb
  refine ⟨hlow, hhigh, hr, hu, fun hv => ?_, fun hv => ?_⟩
  · rw [← hvalue, ← hfits.field_lt_iff hf] at hv
    obtain ⟨hfin, hsign, hval⟩ := hfits.placed (neg := neg) hv
    obtain ⟨hnx, huf, hof, hdz, hnv⟩ := flags_bits r.2
      (decide (f.ulp m e < f.qmin) && decide ((u.1 : ℤ) < 2 ^ (f.mb + (f.qmin - f.ulp m e).toNat)))
    rw [if_neg (not_le.mpr hv)]
    refine ⟨hfin, hsign, ?_, ?_, ?_, hof, hdz, hnv⟩
    · rw [hval, ← hvalue]
      cases neg <;> simp [abs_mul]
    · rw [hnx, hinexact']
    · rw [huf, Bool.and_eq_true, Bool.and_eq_true, decide_eq_true_eq, decide_eq_true_eq, hinexact', htiny, hleast', and_comm]
  · rw [← hvalue, ← not_lt, ← hfits.field_lt_iff hf, not_lt] at hv
    rw [if_pos hv]
    refine ⟨rfl, Fmt.isNeg_overflow hf mode neg, fun hinf => ?_, fun hmax => ?_⟩
    · rw [f.overflow_eq, if_neg ?_]
      · exact f.infBits_mod neg
      · rcases hinf with rfl | rfl | ⟨rfl, hn⟩ | ⟨rfl, hn⟩ <;> simp_all
    · rw [f.overflow_eq, if_pos ?_]
      · exact Fmt.maxBits_mod hf neg
      · simpa using hmax

end
end Sys2Proof.Machine
end

