-- ==== Sys2Proof/Proofs/FpArithmetic.lean ====
section
/-! PROOFS. The exact arithmetic of finite numbers over the reals, and each operation on bits as its exact result rounded once (R75, R200). -/

namespace Sys2Proof.Machine

/-! ### Finite numbers -/

/-- The sign of a number. -/
def Num.minus : Num → Bool
  | .fin neg _ _ => neg
  | .inf neg => neg
  | .nan _ => false

section
variable {a b : Num} {f : Fmt} {mode : BitVec 3} {bits : ℕ}

theorem Num.abs_value (neg : Bool) (m : ℕ) (e : ℤ) : |(Num.fin neg m e).value| = m * 2 ^ e := by
  rw [Num.value]
  cases neg <;> simp [abs_mul]

theorem Num.value_eq_zero (neg : Bool) (m : ℕ) (e : ℤ) : (Num.fin neg m e).value = 0 ↔ m = 0 := by
  rw [← abs_eq_zero, Num.abs_value]
  simp [zpow_ne_zero]

theorem Num.value_neg_iff (neg : Bool) (m : ℕ) (e : ℤ) : (Num.fin neg m e).value < 0 ↔ neg = true ∧ m ≠ 0 := by
  have hpos : (0 : ℝ) < 2 ^ e := by positivity
  have hm : (0 : ℝ) ≤ m * 2 ^ e := by positivity
  rcases Nat.eq_zero_or_pos m with rfl | h
  · simp [Num.value]
  · have : (0 : ℝ) < m * 2 ^ e := by positivity
    cases neg <;> simp [Num.value, h.ne'] <;> linarith

theorem Fmt.IsFinite.finite (h : f.IsFinite bits) : (f.decode bits).IsFinite := ⟨_, _, _, h.decode⟩

theorem Fmt.IsFinite.minus (h : f.IsFinite bits) : (f.decode bits).minus = f.sign bits := by rw [h.decode, Num.minus]

theorem Num.IsFinite.neg (h : a.IsFinite) : a.neg.IsFinite := by
  obtain ⟨s, m, e, rfl⟩ := h
  exact ⟨_, _, _, rfl⟩

theorem Num.IsFinite.neg_value (h : a.IsFinite) : a.neg.value = -a.value := by
  obtain ⟨s, m, e, rfl⟩ := h
  cases s <;> simp [Num.neg, Num.value]

theorem Num.IsFinite.neg_minus (h : a.IsFinite) : a.neg.minus = !a.minus := by
  obtain ⟨s, m, e, rfl⟩ := h
  rfl

theorem Num.IsFinite.mul (ha : a.IsFinite) (hb : b.IsFinite) : (Num.mul a b).IsFinite := by
  obtain ⟨s, m, e, rfl⟩ := ha
  obtain ⟨t, n, g, rfl⟩ := hb
  exact ⟨_, _, _, rfl⟩

theorem Num.IsFinite.mul_value (ha : a.IsFinite) (hb : b.IsFinite) : (Num.mul a b).value = a.value * b.value := by
  obtain ⟨s, m, e, rfl⟩ := ha
  obtain ⟨t, n, g, rfl⟩ := hb
  simp only [Num.mul, Num.value, zpow_add₀ (two_ne_zero (α := ℝ)), Nat.cast_mul]
  cases s <;> cases t <;> simp <;> ring

theorem Num.IsFinite.mul_minus (ha : a.IsFinite) (hb : b.IsFinite) : (Num.mul a b).minus = (a.minus != b.minus) := by
  obtain ⟨s, m, e, rfl⟩ := ha
  obtain ⟨t, n, g, rfl⟩ := hb
  rfl

theorem Num.ofInt_eq (z : Bool) (i e : ℤ) : Num.ofInt z i e = .fin (if i = 0 then z else decide (i < 0)) i.natAbs e := by
  rw [Num.ofInt]
  by_cases h : i = 0 <;> simp [h]

theorem Num.ofInt_value (z : Bool) (i e : ℤ) : (Num.ofInt z i e).value = i * 2 ^ e := by
  rw [Num.ofInt_eq, Num.value, Nat.cast_natAbs, Int.cast_abs]
  rcases lt_trichotomy i 0 with h | rfl | h
  · have : (i : ℝ) < 0 := by exact_mod_cast h
    simp [h, h.ne, abs_of_neg this]
  · simp
  · have : (0 : ℝ) < i := by exact_mod_cast h
    simp [h.not_gt, h.ne', abs_of_pos this]

theorem signed_value (neg : Bool) (m : ℕ) (e q : ℤ) (h : q ≤ e) :
    ((signed neg m * 2 ^ (e - q).toNat : ℤ) : ℝ) * 2 ^ q = (Num.fin neg m e).value := by
  have hp : (2 : ℝ) ^ (e - q).toNat * 2 ^ q = 2 ^ e := by
    rw [← zpow_natCast, Int.toNat_of_nonneg (by omega), ← zpow_add₀ two_ne_zero, sub_add_cancel]
  push_cast
  rw [mul_assoc, hp, Num.value, signed]
  cases neg <;> simp

/-- The sum of finite numbers is their exact sum, and a zero sum has the sign of IEEE 754-2019. -/
theorem Num.IsFinite.add_eq (ha : a.IsFinite) (hb : b.IsFinite) (mode : BitVec 3) :
    ∃ i q : ℤ, Num.add mode a b = Num.ofInt (zeroSign mode a.minus b.minus) i q ∧ i * 2 ^ q = a.value + b.value := by
  obtain ⟨s, m, e, rfl⟩ := ha
  obtain ⟨t, n, g, rfl⟩ := hb
  refine ⟨_, _, rfl, ?_⟩
  rw [Int.cast_add, add_mul, signed_value _ _ _ _ (min_le_left e g), signed_value _ _ _ _ (min_le_right e g)]

theorem zeroSign_iff (mode : BitVec 3) (s t : Bool) :
    zeroSign mode s t = true ↔ (s = true ∧ t = true) ∨ (mode = 2 ∧ ¬ (s = true ↔ t = true)) := by
  cases s <;> cases t <;> simp [zeroSign]

/-! ### Results rounded once -/

theorem Fmt.Gives.congr {x : ℝ} {z z' : Prop} {r : ℕ × Flags} (h : f.Gives mode x z r) (hz : x = 0 → (z ↔ z')) : f.Gives mode x z' r :=
  ⟨h.1, fun h0 => by rw [h.2 h0, propext (hz h0)]⟩

/-- A finite number packed into a format is rounded once. -/
theorem Fmt.pack_gives (hf : f.Proper) (hm : mode.toNat < 5) (ha : a.IsFinite) :
    f.Gives mode a.value (a.minus = true) (f.pack mode a) := by
  obtain ⟨s, m, e, rfl⟩ := ha
  rcases eq_or_ne m 0 with rfl | hne
  · have h0 := (Num.value_eq_zero s 0 e).mpr rfl
    exact ⟨fun h => absurd h0 h, fun _ => by cases s <;> simp [Fmt.pack, Num.minus, Fmt.zeroBits]⟩
  · have h0 := mt (Num.value_eq_zero s m e).mp hne
    refine ⟨fun _ => ?_, fun h => absurd h h0⟩
    rw [Fmt.pack, if_neg (by simpa using hne)]
    refine Fmt.roundMag_rounded hf hm ?_ ?_ hne nofun
    · rw [Num.value_neg_iff, and_iff_left hne]
    · rw [Num.abs_value]
      exact truncates_exact m e

theorem Fmt.pack_add_gives (hf : f.Proper) (hm : mode.toNat < 5) (ha : a.IsFinite) (hb : b.IsFinite) :
    f.Gives mode (a.value + b.value) (zeroSign mode a.minus b.minus = true) (f.pack mode (Num.add mode a b)) := by
  obtain ⟨i, q, hadd, hval⟩ := ha.add_eq hb mode
  rw [hadd, ← hval, ← Num.ofInt_value (zeroSign mode a.minus b.minus)]
  refine (Fmt.pack_gives hf hm ⟨_, _, _, Num.ofInt_eq ..⟩).congr fun h0 => ?_
  rw [Num.ofInt_value, mul_eq_zero, or_iff_left (by positivity), Int.cast_eq_zero] at h0
  rw [Num.ofInt_eq, if_pos h0, Num.minus]

end

/-! ### Sums, products and fused products and sums -/

section
variable {f : Fmt} {mode : BitVec 3} {a b d : ℕ}

theorem Fmt.fadd_gives (hf : f.Proper) (hm : mode.toNat < 5) (ha : f.IsFinite a) (hb : f.IsFinite b) :
    f.Gives mode (f.value a + f.value b) (zeroSign mode (f.sign a) (f.sign b) = true) (f.fadd mode a b) := by
  rw [← ha.value_decode, ← hb.value_decode, ← ha.minus, ← hb.minus]
  exact Fmt.pack_add_gives hf hm ha.finite hb.finite

theorem Fmt.fsub_gives (hf : f.Proper) (hm : mode.toNat < 5) (ha : f.IsFinite a) (hb : f.IsFinite b) :
    f.Gives mode (f.value a - f.value b) (zeroSign mode (f.sign a) (!f.sign b) = true) (f.fsub mode a b) := by
  rw [sub_eq_add_neg, ← ha.value_decode, ← hb.value_decode, ← ha.minus, ← hb.minus, ← hb.finite.neg_value, ← hb.finite.neg_minus]
  exact Fmt.pack_add_gives hf hm ha.finite hb.finite.neg

theorem Fmt.fmul_gives (hf : f.Proper) (hm : mode.toNat < 5) (ha : f.IsFinite a) (hb : f.IsFinite b) :
    f.Gives mode (f.value a * f.value b) ((f.sign a != f.sign b) = true) (f.fmul mode a b) := by
  rw [← ha.value_decode, ← hb.value_decode, ← ha.minus, ← hb.minus, ← ha.finite.mul_value hb.finite, ← ha.finite.mul_minus hb.finite]
  exact Fmt.pack_gives hf hm (ha.finite.mul hb.finite)

/-- A number with its sign changed or not. -/
def Num.signedBy (n : Bool) (a : Num) : Num := if n then a.neg else a

theorem Num.IsFinite.signedBy {a : Num} (h : a.IsFinite) (n : Bool) : (a.signedBy n).IsFinite := by
  cases n
  · exact h
  · exact h.neg

theorem Num.IsFinite.signedBy_value {a : Num} (h : a.IsFinite) (n : Bool) :
    (a.signedBy n).value = (if n = true then -1 else 1) * a.value := by
  cases n
  · simp [Num.signedBy]
  · simp [Num.signedBy, h.neg_value]

theorem Num.IsFinite.signedBy_minus {a : Num} (h : a.IsFinite) (n : Bool) : (a.signedBy n).minus = (n != a.minus) := by
  cases n
  · simp [Num.signedBy]
  · simp [Num.signedBy, h.neg_minus]

theorem Fmt.ffma_gives (hf : f.Proper) (hm : mode.toNat < 5) (ha : f.IsFinite a) (hb : f.IsFinite b) (hd : f.IsFinite d) (np nd : Bool) :
    f.Gives mode ((if np = true then -1 else 1) * (f.value a * f.value b) + (if nd = true then -1 else 1) * f.value d)
      (zeroSign mode (np != (f.sign a != f.sign b)) (nd != f.sign d) = true) (f.ffma mode np nd a b d) := by
  have hp := ha.finite.mul hb.finite
  rw [← ha.value_decode, ← hb.value_decode, ← hd.value_decode, ← ha.finite.mul_value hb.finite, ← hp.signedBy_value np,
    ← hd.finite.signedBy_value nd, ← ha.minus, ← hb.minus, ← hd.minus, ← ha.finite.mul_minus hb.finite, ← hp.signedBy_minus np,
    ← hd.finite.signedBy_minus nd]
  exact Fmt.pack_add_gives hf hm (hp.signedBy np) (hd.finite.signedBy nd)

end
end Sys2Proof.Machine
end

