-- ==== Sys2Proof/Proofs/FpQuotient.lean ====
section
/-! PROOFS. Quotients and square roots (R200): cut off after enough bits for the rounding, they are the exact real numbers rounded once. -/

namespace Sys2Proof.Machine

/-! ### Cut-off magnitudes -/

/-- A real number's whole part, in units of a power of two. -/
theorem truncates_of_floor {r : ℕ} {w : ℝ} {sticky : Bool} (h0 : (r : ℝ) ≤ w) (h1 : w < r + 1) (hs : sticky = true ↔ w ≠ r) (e : ℤ) :
    Truncates r e sticky (w * 2 ^ e) := by
  have hpos : (0 : ℝ) < 2 ^ e := by positivity
  refine ⟨mul_le_mul_of_nonneg_right h0 hpos.le, mul_lt_mul_of_pos_right h1 hpos, hs.trans ?_⟩
  rw [Ne, Ne, mul_left_inj' hpos.ne']

theorem lt_bitLen_of_le {p m : ℕ} (h : 2 ^ p ≤ m) : p < bitLen m :=
  (Nat.pow_lt_pow_iff_right Nat.one_lt_two).mp (h.trans_lt (lt_two_pow_bitLen m))

/-- The quotient of natural numbers, cut off. -/
theorem truncates_div (a n : ℕ) (hn : n ≠ 0) (e : ℤ) : Truncates (a / n) e (a % n != 0) (a / n * 2 ^ e) := by
  have hpos : (0 : ℝ) < n := by exact_mod_cast Nat.pos_of_ne_zero hn
  have hr : (a % n : ℕ) < (n : ℝ) := by exact_mod_cast Nat.mod_lt a (Nat.pos_of_ne_zero hn)
  have hsplit : (a / n : ℝ) = (a / n : ℕ) + (a % n : ℕ) / n := by
    have : (a : ℝ) = n * (a / n : ℕ) + (a % n : ℕ) := by exact_mod_cast (Nat.div_add_mod a n).symm
    rw [this]
    field_simp
  have h0 : (0 : ℝ) ≤ (a % n : ℕ) / n := by positivity
  have h1 : ((a % n : ℕ) : ℝ) / n < 1 := (div_lt_one hpos).mpr hr
  refine truncates_of_floor (by linarith) (by linarith) ?_ e
  rw [hsplit, bne_iff_ne, Ne, Ne, add_eq_left, div_eq_zero_iff, or_iff_left hpos.ne', Nat.cast_eq_zero]

/-! ### Integer square roots -/

theorem isqrtFrom_spec (n k r : ℕ) (h0 : r * r ≤ n) (h1 : n < (r + 2 ^ k) * (r + 2 ^ k)) :
    isqrtFrom n k r * isqrtFrom n k r ≤ n ∧ n < (isqrtFrom n k r + 1) * (isqrtFrom n k r + 1) := by
  induction k generalizing r with
  | zero => exact ⟨h0, h1⟩
  | succ k ih =>
    rw [isqrtFrom]
    split
    · next h => exact ih _ h (by rw [add_assoc, ← two_mul, ← pow_succ']; exact h1)
    · next h => exact ih r h0 (not_le.mp h)

theorem isqrt_spec (n : ℕ) : isqrt n * isqrt n ≤ n ∧ n < (isqrt n + 1) * (isqrt n + 1) := by
  refine isqrtFrom_spec n _ 0 (Nat.zero_le n) ?_
  rw [zero_add, ← pow_add]
  exact (lt_two_pow_bitLen n).trans_le (Nat.pow_le_pow_right Nat.two_pos (by omega))

/-- The square root of a natural number, cut off. -/
theorem truncates_sqrt (n : ℕ) (e : ℤ) : Truncates (isqrt n) e (isqrt n * isqrt n != n) (Real.sqrt n * 2 ^ e) := by
  obtain ⟨h0, h1⟩ := isqrt_spec n
  refine truncates_of_floor (Real.le_sqrt_of_sq_le ?_) ((Real.sqrt_lt' (by positivity)).mpr ?_) ?_ e
  · rw [sq]
    exact_mod_cast h0
  · rw [sq]
    exact_mod_cast h1
  · rw [bne_iff_ne, Ne, Ne, Real.sqrt_eq_iff_mul_self_eq (by positivity) (by positivity)]
    exact_mod_cast not_congr eq_comm

section
variable {f : Fmt} {mode : BitVec 3} {a b : ℕ}

/-! ### Quotients -/

theorem Fmt.mant_eq_zero (f : Fmt) (b : ℕ) : f.mant b = 0 ↔ f.value b = 0 := by
  rw [f.value_eq, Num.value_eq_zero]

theorem Fmt.value_neg_iff (f : Fmt) (h : f.mant b ≠ 0) : f.value b < 0 ↔ f.sign b = true := by
  rw [f.value_eq, Num.value_neg_iff, and_iff_left h]

theorem Fmt.value_pos_iff (f : Fmt) (h : f.mant b ≠ 0) : 0 < f.value b ↔ f.sign b = false := by
  rw [← Bool.not_eq_true, ← f.value_neg_iff h, not_lt]
  exact ⟨le_of_lt, fun h0 => lt_of_le_of_ne h0 (Ne.symm (mt (f.mant_eq_zero b).mpr h))⟩

theorem Fmt.abs_value (f : Fmt) (b : ℕ) : |f.value b| = f.mant b * 2 ^ f.last b := by rw [f.value_eq, Num.abs_value]

/-- A quotient of finite numbers, with the sign of an exact zero. -/
theorem Fmt.fdiv_gives (hf : f.Proper) (hm : mode.toNat < 5) (ha : f.IsFinite a) (hb : f.IsFinite b) (h0 : f.value b ≠ 0) :
    f.Gives mode (f.value a / f.value b) ((f.sign a != f.sign b) = true) (f.fdiv mode a b) := by
  have hn := mt (f.mant_eq_zero b).mp h0
  simp only [Fmt.fdiv, ha.decode, hb.decode, beq_iff_eq, if_neg hn]
  by_cases hm0 : f.mant a = 0
  · have hx := (f.mant_eq_zero a).mp hm0
    rw [hx, zero_div, if_pos hm0]
    exact ⟨fun h => absurd rfl h, fun _ => by cases f.sign a != f.sign b <;> simp [Fmt.zeroBits]⟩
  · have hx := mt (f.mant_eq_zero a).mpr hm0
    rw [if_neg hm0]
    refine ⟨fun _ => ?_, fun h => absurd h (div_ne_zero hx h0)⟩
    set k := f.mb + 4 + bitLen (f.mant b) with hk
    have hbits : 2 ^ (f.mb + 2) ≤ f.mant a * 2 ^ k / f.mant b := by
      rw [Nat.le_div_iff_mul_le (Nat.pos_of_ne_zero hn), hk, pow_add _ (f.mb + 4)]
      calc 2 ^ (f.mb + 2) * f.mant b ≤ 2 ^ (f.mb + 4) * 2 ^ bitLen (f.mant b) :=
            Nat.mul_le_mul (Nat.pow_le_pow_right Nat.two_pos (by omega)) (lt_two_pow_bitLen _).le
        _ ≤ f.mant a * (2 ^ (f.mb + 4) * 2 ^ bitLen (f.mant b)) := Nat.le_mul_of_pos_left _ (Nat.pos_of_ne_zero hm0)
    refine Fmt.roundMag_rounded hf hm ?_ ?_ (by have := Nat.two_pow_pos (f.mb + 2); omega)
      fun _ => (Nat.lt_succ_self _).trans (lt_bitLen_of_le hbits)
    · rw [div_neg_iff, f.value_pos_iff hm0, f.value_pos_iff hn, f.value_neg_iff hm0, f.value_neg_iff hn]
      cases f.sign a <;> cases f.sign b <;> simp
    · convert truncates_div (f.mant a * 2 ^ k) (f.mant b) hn (f.last a - f.last b - k) using 1
      rw [abs_div, f.abs_value, f.abs_value, zpow_sub₀ two_ne_zero, zpow_sub₀ two_ne_zero, zpow_natCast]
      push_cast
      field_simp

/-- A number other than zero over a zero (R200). -/
theorem Fmt.fdiv_by_zero (ha : f.IsFinite a) (hb : f.IsFinite b) (h0 : f.value b = 0) (hne : f.value a ≠ 0) :
    f.fdiv mode a b = (f.infBits (f.sign a != f.sign b), flagDZ) := by
  rw [← Fmt.mant_eq_zero] at h0
  rw [Ne, ← Fmt.mant_eq_zero] at hne
  simp only [Fmt.fdiv, ha.decode, hb.decode, h0, beq_self_eq_true, if_true, beq_iff_eq, if_neg hne]

theorem Fmt.fdiv_zero_zero (ha : f.IsFinite a) (hb : f.IsFinite b) (h0 : f.value b = 0) (ha0 : f.value a = 0) :
    f.fdiv mode a b = (f.canon, flagNV) := by
  rw [← Fmt.mant_eq_zero] at h0 ha0
  simp only [Fmt.fdiv, ha.decode, hb.decode, h0, ha0, beq_self_eq_true, if_true, Fmt.pack]

/-! ### Square roots -/

theorem Fmt.fsqrt_gives (hf : f.Proper) (hm : mode.toNat < 5) (ha : f.IsFinite a) (h0 : 0 ≤ f.value a) :
    f.Gives mode (Real.sqrt (f.value a)) (f.sign a = true) (f.fsqrt mode a) := by
  simp only [Fmt.fsqrt, ha.decode, beq_iff_eq]
  by_cases hm0 : f.mant a = 0
  · have hx := (f.mant_eq_zero a).mp hm0
    rw [hx, Real.sqrt_zero, if_pos hm0]
    exact ⟨fun h => absurd rfl h, fun _ => by cases f.sign a <;> simp [Fmt.zeroBits]⟩
  · have hx : 0 < f.value a := lt_of_le_of_ne h0 (Ne.symm (mt (f.mant_eq_zero a).mpr hm0))
    have hsqrt := Real.sqrt_pos.mpr hx
    rw [if_neg hm0, if_neg (by rw [(f.value_pos_iff hm0).mp hx]; exact Bool.false_ne_true)]
    refine ⟨fun _ => ?_, fun h => absurd h hsqrt.ne'⟩
    obtain ⟨k, hk, hmb, heven⟩ : ∃ k, (if (f.last a - (2 * (f.mb + 4) : ℕ)) % 2 = 0 then 2 * (f.mb + 4) else 2 * (f.mb + 4) + 1) = k
        ∧ 2 * (f.mb + 4) ≤ k ∧ (f.last a - k) % 2 = 0 := by
      refine ⟨_, rfl, ?_, ?_⟩ <;> split <;> omega
    rw [hk]
    have hbits : 2 ^ (f.mb + 2) ≤ isqrt (f.mant a * 2 ^ k) := by
      have hsq : 2 ^ (f.mb + 4) * 2 ^ (f.mb + 4) ≤ f.mant a * 2 ^ k := by
        rw [← pow_add]
        exact (Nat.pow_le_pow_right Nat.two_pos (by omega)).trans (Nat.le_mul_of_pos_left _ (Nat.pos_of_ne_zero hm0))
      have hlt := Nat.mul_self_lt_mul_self_iff.mp (hsq.trans_lt (isqrt_spec _).2)
      exact (Nat.pow_le_pow_right Nat.two_pos (by omega)).trans (Nat.lt_add_one_iff.mp hlt)
    refine Fmt.roundMag_rounded hf hm (iff_of_false hsqrt.le.not_gt Bool.false_ne_true) ?_ (by have := Nat.two_pow_pos (f.mb + 2); omega)
      fun _ => (Nat.lt_succ_self _).trans (lt_bitLen_of_le hbits)
    convert truncates_sqrt (f.mant a * 2 ^ k) ((f.last a - k) / 2) using 1
    have hp : (2 : ℝ) ^ f.last a = 2 ^ k * (2 ^ ((f.last a - k) / 2)) ^ 2 := by
      rw [← zpow_natCast, ← zpow_natCast, ← zpow_mul, ← zpow_add₀ two_ne_zero]
      congr 1
      push_cast
      omega
    rw [abs_of_pos hsqrt, ← abs_of_pos hx, f.abs_value, hp, ← mul_assoc, Real.sqrt_mul (by positivity), Real.sqrt_sq (by positivity)]
    push_cast
    rfl

theorem Fmt.fsqrt_of_neg (ha : f.IsFinite a) (h0 : f.value a < 0) : f.fsqrt mode a = (f.canon, flagNV) := by
  rw [f.value_eq, Num.value_neg_iff] at h0
  simp only [Fmt.fsqrt, ha.decode, beq_iff_eq, if_neg h0.2, h0.1, if_true, Fmt.pack]

end
end Sys2Proof.Machine
end

