-- ==== Sys2Proof/Proofs/FpConvert.lean ====
section
/-! PROOFS. Conversions (R86) rounded once, and that a rounding depends on the real number alone, not on how it is written. -/

namespace Sys2Proof.Machine

section
variable {f g : Fmt} {mode : BitVec 3} {a : ℕ}

/-! ### Conversions -/

theorem Fmt.toFmt_gives (hg : g.Proper) (hm : mode.toNat < 5) (ha : f.IsFinite a) :
    g.Gives mode (f.value a) (f.sign a = true) (f.toFmt g mode a) := by
  rw [← ha.value_decode, ← ha.minus]
  exact Fmt.pack_gives hg hm ha.finite

theorem Fmt.ofInt_gives (hg : g.Proper) (hm : mode.toNat < 5) (i : ℤ) : g.Gives mode (i : ℝ) False (g.ofInt mode i) := by
  have h := Fmt.pack_gives hg hm (a := Num.ofInt false i 0) ⟨_, _, _, Num.ofInt_eq ..⟩
  rw [Num.ofInt_value, zpow_zero, mul_one] at h
  refine h.congr fun h0 => ?_
  rw [Num.ofInt_eq, if_pos (Int.cast_eq_zero.mp h0), Num.minus]
  exact iff_of_false Bool.false_ne_true not_false

/-- Finite bits rounded to a whole number: the magnitude rounded by the mode under the sign, and inexact where it is another number. -/
theorem Fmt.roundInt_spec (f : Fmt) (a : ℕ) (hm : mode.toNat < 5) : ∃ n : ℕ, RoundsTo mode (f.value a < 0) |f.value a| n
    ∧ (roundInt mode (f.sign a) (f.mant a) (f.last a)).1 = (if f.value a < 0 then -(n : ℤ) else n)
    ∧ ((roundInt mode (f.sign a) (f.mant a) (f.last a)).2 = true ↔ (n : ℝ) ≠ |f.value a|) := by
  obtain ⟨hr, hinexact⟩ := roundTo_spec mode (f.sign a) (q := 0) hm (truncates_exact (f.mant a) (f.last a)) nofun
  rw [← f.abs_value, zpow_zero, div_one] at hr hinexact
  rw [roundInt]
  generalize roundTo mode (f.sign a) (f.mant a) (f.last a) false 0 = r at *
  by_cases h0 : f.mant a = 0
  · have hx := (f.mant_eq_zero a).mp h0
    rw [hx, abs_zero, ← Nat.cast_zero] at hr
    have hn := hr.eq_of_whole hm
    refine ⟨r.1, ?_, ?_, hinexact⟩
    · rw [hx, hn, abs_zero, ← Nat.cast_zero]
      exact RoundsTo.self ..
    · rw [hn]
      cases f.sign a <;> simp [signed]
  · refine ⟨r.1, by simpa only [f.value_neg_iff h0] using hr, ?_, hinexact⟩
    simp only [f.value_neg_iff h0, signed]

/-- A finite number converted to an integer type: the rounded value, or the end of the range that it is beyond (R86). -/
theorem Fmt.IsFinite.toInt (ha : f.IsFinite a) (hm : mode.toNat < 5) (w : ℕ) (sg : Bool) : ∃ n : ℕ, RoundsTo mode (f.value a < 0) |f.value a| n
    ∧ ∃ inexact : Bool, (inexact = true ↔ (n : ℝ) ≠ |f.value a|)
      ∧ let v : ℤ := if f.value a < 0 then -(n : ℤ) else n
        let r := intRange w sg
        (f.decode a).toInt mode w sg =
          if v < r.1 then (r.1, flagNV) else if r.2 < v then (r.2, flagNV) else (v, if inexact then flagNX else 0) := by
  obtain ⟨n, hr, hv, hinexact⟩ := f.roundInt_spec a hm
  refine ⟨n, hr, _, hinexact, ?_⟩
  rw [ha.decode, Num.toInt, hv]

/-! ### Roundings of one number written in two ways -/

section
variable {neg : Bool} {m m' : ℕ} {e e' : ℤ}

/-- The place of the last digit in a format is that of the magnitude. -/
theorem Fmt.ulp_congr (f : Fmt) (hm : m ≠ 0) (hm' : m' ≠ 0) (h : m * (2 : ℝ) ^ e = m' * 2 ^ e') : f.ulp m e = f.ulp m' e' := by
  obtain ⟨h0, h1⟩ := (truncates_exact m e).binade hm f.mb
  obtain ⟨h0', h1'⟩ := (truncates_exact m' e').binade hm' f.mb
  rw [← Fmt.ulp] at h0 h1 h0' h1'
  rw [h] at h0 h1
  have key : ∀ {p q : ℤ} {y : ℝ}, 2 ^ f.mb * (2 : ℝ) ^ p ≤ y → y < 2 ^ (f.mb + 1) * (2 : ℝ) ^ q → p ≤ q := by
    intro p q y hp hq
    rw [pow_succ, mul_assoc, ← zpow_one_add₀ two_ne_zero] at hq
    have := (zpow_lt_zpow_iff_right₀ one_lt_two).mp (lt_of_mul_lt_mul_left (hp.trans_lt hq) (by positivity))
    omega
  exact le_antisymm (key h0 h1') (key h0' h1)

theorem roundTo_congr (hmode : mode.toNat < 5) (h : m * (2 : ℝ) ^ e = m' * 2 ^ e') (q : ℤ) :
    roundTo mode neg m e false q = roundTo mode neg m' e' false q := by
  obtain ⟨hr, hi⟩ := roundTo_spec mode neg (q := q) hmode (truncates_exact m e) nofun
  obtain ⟨hr', hi'⟩ := roundTo_spec mode neg (q := q) hmode (truncates_exact m' e') nofun
  rw [h] at hr hi
  have hn := hr.unique hr' hmode
  exact Prod.ext hn (Bool.eq_iff_iff.mpr (by rw [hi, hi', hn]))

theorem Fmt.pack_fin_congr (hmode : mode.toNat < 5) (h : m * (2 : ℝ) ^ e = m' * 2 ^ e') :
    f.pack mode (.fin neg m e) = f.pack mode (.fin neg m' e') := by
  have h0 : m = 0 ↔ m' = 0 := by
    rw [← Num.value_eq_zero neg m e, ← Num.value_eq_zero neg m' e', ← abs_eq_zero, Num.abs_value, h, ← Num.abs_value neg, abs_eq_zero]
  simp only [Fmt.pack, beq_iff_eq, h0]
  split
  · rfl
  · next hm' =>
    have hu := f.ulp_congr (mt h0.mp hm') hm' h
    simp only [f.roundMag_eq, hu, roundTo_congr hmode h]

end

/-- The sign of a multiple of a positive number. -/
theorem sign_of_mul_eq {i j : ℤ} {p r : ℝ} (hp : 0 < p) (hr : 0 < r) (h : i * p = j * r) : (i = 0 ↔ j = 0) ∧ (i < 0 ↔ j < 0) := by
  have hs : SignType.sign (i : ℝ) = SignType.sign (j : ℝ) := by
    rw [← mul_one (SignType.sign (i : ℝ)), ← sign_pos hp, ← sign_mul, h, sign_mul, sign_pos hr, mul_one]
  constructor
  · rw [← Int.cast_eq_zero (α := ℝ), ← Int.cast_eq_zero (α := ℝ) (n := j), ← sign_eq_zero_iff, hs, sign_eq_zero_iff]
  · rw [← Int.cast_lt_zero (R := ℝ), ← Int.cast_lt_zero (R := ℝ) (n := j), ← sign_eq_neg_one_iff, hs, sign_eq_neg_one_iff]

/-- A sum of finite numbers packed depends on their signs and values alone. -/
theorem Fmt.pack_add_congr (hmode : mode.toNat < 5) {a a' b : Num} (ha : a.IsFinite) (ha' : a'.IsFinite) (hb : b.IsFinite)
    (hs : a.minus = a'.minus) (hv : a.value = a'.value) : f.pack mode (Num.add mode a b) = f.pack mode (Num.add mode a' b) := by
  obtain ⟨i, q, hadd, hval⟩ := ha.add_eq hb mode
  obtain ⟨j, g, hadd', hval'⟩ := ha'.add_eq hb mode
  have heq : (i : ℝ) * 2 ^ q = j * 2 ^ g := by rw [hval, hval', hv]
  obtain ⟨hzero, hneg⟩ := sign_of_mul_eq (by positivity) (by positivity) heq
  rw [hadd, hadd', Num.ofInt_eq, Num.ofInt_eq]
  simp only [hs, hzero, hneg]
  refine Fmt.pack_fin_congr hmode ?_
  have habs := congrArg abs heq
  rwa [abs_mul, abs_mul, abs_of_pos (a := (2 : ℝ) ^ q) (by positivity), abs_of_pos (a := (2 : ℝ) ^ g) (by positivity), ← Int.cast_abs,
    ← Int.cast_abs, ← Nat.cast_natAbs, ← Nat.cast_natAbs] at habs

end
end Sys2Proof.Machine
end

