-- ==== Sys2Proof/Proofs/FpCompare.lean ====
section
/-! PROOFS. The order of the numbers that bits are (R95, R200 to R202): comparisons, the total order, the least and the greatest, classes. -/

namespace Sys2Proof.Machine

/-- The number that bits which are no NaN stand for, an infinity among them. -/
noncomputable def Fmt.num (f : Fmt) (v : ℕ) : EReal :=
  if f.expo v = f.emax then (if v / 2 ^ (f.eb + f.mb) % 2 = 1 then ⊥ else ⊤) else (f.value v : EReal)

section
variable {f : Fmt} {a b u v : ℕ}

/-! ### NaNs -/

theorem Fmt.isNan_iff (f : Fmt) (b : ℕ) : f.isNan b = true ↔ f.expo b = f.emax ∧ f.frac b ≠ 0 := by simp [Fmt.isNan]

theorem Fmt.isSig_iff (hf : f.Proper) (b : ℕ) : f.isSig b = true ↔ f.isNan b = true ∧ b / 2 ^ (f.mb - 1) % 2 = 0 := by
  have hm : 2 ^ f.mb = 2 ^ (f.mb - 1) * 2 := by rw [← pow_succ, Nat.sub_add_cancel hf.mb_pos]
  rw [Fmt.isSig, Bool.and_eq_true, beq_iff_eq, Fmt.frac, hm, Nat.mod_mul_right_div_self]

theorem Fmt.decode_isNan (f : Fmt) (b : ℕ) : (f.decode b).isNan = f.isNan b := by
  by_cases he : f.expo b = f.emax
  · by_cases hr : f.frac b = 0 <;> simp [Fmt.decode, Fmt.isNan, Num.isNan, he, hr]
  · rw [Fmt.decode_fin he]
    simp [Num.isNan, Fmt.isNan, he]

theorem Fmt.decode_isSig (f : Fmt) (b : ℕ) : (f.decode b).isSig = f.isSig b := by
  by_cases he : f.expo b = f.emax
  · by_cases hr : f.frac b = 0 <;> simp [Fmt.decode, Fmt.isSig, Fmt.isNan, Num.isSig, he, hr]
  · rw [Fmt.decode_fin he]
    simp [Num.isSig, Fmt.isSig, Fmt.isNan, he]

theorem Fmt.isSig_of_not_isNan (h : f.isNan b = false) : f.isSig b = false := by rw [Fmt.isSig, h, Bool.false_and]

/-! ### Exact comparisons -/

theorem Fmt.decode_infinity (h : f.isNan b = false) (he : f.expo b = f.emax) : f.decode b = .inf (f.sign b) := by
  have hr : f.frac b = 0 := by simpa [Fmt.isNan, he] using h
  simp [Fmt.decode, he, hr]

theorem Fmt.num_infinity (he : f.expo b = f.emax) : f.num b = if f.sign b = true then ⊥ else ⊤ := by
  rw [Fmt.num, if_pos he, Fmt.sign]
  simp only [beq_iff_eq]

theorem Fmt.num_fin (he : f.expo b ≠ f.emax) : f.num b = (f.value b : EReal) := if_neg he

theorem Num.lt_fin_iff (s t : Bool) (m n : ℕ) (e g : ℤ) :
    Num.lt (.fin s m e) (.fin t n g) = true ↔ (Num.fin s m e).value < (Num.fin t n g).value := by
  rw [← signed_value s m e _ (min_le_left e g), ← signed_value t n g _ (min_le_right e g), mul_lt_mul_iff_left₀ (by positivity),
    Int.cast_lt, Num.lt, decide_eq_true_eq]

/-- The exact comparison is that of the numbers that the bits are. -/
theorem Fmt.lt_iff (ha : f.isNan a = false) (hb : f.isNan b = false) : Num.lt (f.decode a) (f.decode b) = true ↔ f.num a < f.num b := by
  by_cases hea : f.expo a = f.emax <;> by_cases heb : f.expo b = f.emax
  · rw [Fmt.decode_infinity ha hea, Fmt.decode_infinity hb heb, Fmt.num_infinity hea, Fmt.num_infinity heb]
    cases f.sign a <;> cases f.sign b <;> simp [Num.lt]
  · rw [Fmt.decode_infinity ha hea, Fmt.decode_fin heb, Fmt.num_infinity hea, Fmt.num_fin heb]
    cases f.sign a <;> simp [Num.lt]
  · rw [Fmt.decode_fin hea, Fmt.decode_infinity hb heb, Fmt.num_fin hea, Fmt.num_infinity heb]
    cases f.sign b <;> simp [Num.lt]
  · rw [Fmt.decode_fin hea, Fmt.decode_fin heb, Fmt.num_fin hea, Fmt.num_fin heb, Num.lt_fin_iff, f.value_eq, f.value_eq,
      EReal.coe_lt_coe_iff]

theorem Num.eq_of_not_nan {x y : Num} (hx : x.isNan = false) (hy : y.isNan = false) : Num.eq x y = (!Num.lt x y && !Num.lt y x) := by
  cases x <;> cases y <;> simp_all [Num.eq, Num.isNan]

theorem Fmt.eq_iff (ha : f.isNan a = false) (hb : f.isNan b = false) : Num.eq (f.decode a) (f.decode b) = true ↔ f.num a = f.num b := by
  rw [Num.eq_of_not_nan ((f.decode_isNan a).trans ha) ((f.decode_isNan b).trans hb), Bool.and_eq_true, Bool.not_eq_true', Bool.not_eq_true',
    ← Bool.not_eq_true, ← Bool.not_eq_true, Fmt.lt_iff ha hb, Fmt.lt_iff hb ha, not_lt, not_lt, and_comm, le_antisymm_iff]

/-! ### Magnitudes in order -/

/-- The bits of a number without its sign. -/
def Fmt.mag (f : Fmt) (b : ℕ) : ℕ := b % 2 ^ (f.eb + f.mb)

theorem Fmt.mag_eq_joined (f : Fmt) (b : ℕ) : f.mag b = f.joined false (f.expo b) (f.frac b) := by
  rw [Fmt.mag, f.mod_sign_eq, Fmt.joined, Fmt.zeroBits, if_neg Bool.false_ne_true, Nat.zero_add]

@[simp] theorem Fmt.expo_mag (f : Fmt) (b : ℕ) : f.expo (f.mag b) = f.expo b := by
  rw [f.mag_eq_joined, Fmt.expo_joined (f.expo_lt b) (f.frac_lt b)]

@[simp] theorem Fmt.frac_mag (f : Fmt) (b : ℕ) : f.frac (f.mag b) = f.frac b := by
  rw [f.mag_eq_joined, Fmt.frac_joined (f.frac_lt b)]

@[simp] theorem Fmt.sign_mag (f : Fmt) (b : ℕ) : f.sign (f.mag b) = false := by
  rw [f.mag_eq_joined, Fmt.sign_joined (f.expo_lt b) (f.frac_lt b)]

theorem Fmt.mant_mag (f : Fmt) (b : ℕ) : f.mant (f.mag b) = f.mant b := by simp only [Fmt.mant, f.expo_mag, f.frac_mag]

theorem Fmt.last_mag (f : Fmt) (b : ℕ) : f.last (f.mag b) = f.last b := by simp only [Fmt.last, f.expo_mag]

/-- A NaN has a magnitude beyond infinity. -/
theorem Fmt.isNan_iff_mag (f : Fmt) (b : ℕ) : f.isNan b = true ↔ f.emax * 2 ^ f.mb < f.mag b := by
  have hfr := f.frac_lt b
  have hle : f.expo b ≤ f.emax := Nat.le_sub_one_of_lt (f.expo_lt b)
  rw [f.isNan_iff, Fmt.mag, f.mod_sign_eq]
  constructor
  · rintro ⟨he, hr⟩
    rw [he]
    omega
  · intro h
    have he : f.expo b = f.emax := by
      by_contra hne
      have := Nat.mul_le_mul_right (2 ^ f.mb) (show f.expo b + 1 ≤ f.emax by omega)
      rw [Nat.succ_mul] at this
      omega
    rw [he] at h
    exact ⟨he, by omega⟩

theorem Fmt.num_eq_mag (f : Fmt) (b : ℕ) : f.num b = if f.sign b = true then -f.num (f.mag b) else f.num (f.mag b) := by
  by_cases he : f.expo b = f.emax
  · rw [Fmt.num_infinity he, Fmt.num_infinity ((f.expo_mag b).trans he), f.sign_mag]
    cases f.sign b <;> simp
  · rw [Fmt.num_fin he, Fmt.num_fin ((f.expo_mag b).trans_ne he), f.value_eq, f.value_eq, f.sign_mag, f.mant_mag, f.last_mag]
    cases f.sign b <;> simp [Num.value]

/-- The binade of a magnitude, by its exponent field. -/
theorem Fmt.abs_value_lt (f : Fmt) (b : ℕ) : |f.value b| < 2 ^ f.mb * 2 ^ (f.qmin + f.expo b) := by
  have hfr : (f.frac b : ℝ) < 2 ^ f.mb := by exact_mod_cast f.frac_lt b
  rw [f.abs_value, Fmt.mant, Fmt.last]
  by_cases h0 : f.expo b = 0
  · rw [if_pos h0, h0]
    exact mul_lt_mul_of_pos_right hfr (by positivity)
  · rw [if_neg h0, show f.qmin + (f.expo b : ℤ) = f.qmin + (f.expo b - 1 : ℕ) + 1 by omega, zpow_add_one₀ two_ne_zero,
      mul_comm ((2 : ℝ) ^ (f.qmin + (f.expo b - 1 : ℕ))), ← mul_assoc]
    push_cast
    exact mul_lt_mul_of_pos_right (by linarith) (by positivity)

theorem Fmt.le_abs_value (h : f.expo b ≠ 0) : 2 ^ f.mb * 2 ^ (f.qmin + f.expo b - 1) ≤ |f.value b| := by
  rw [f.abs_value, Fmt.mant, Fmt.last, if_neg h, show f.qmin + (f.expo b : ℤ) - 1 = f.qmin + (f.expo b - 1 : ℕ) by omega]
  push_cast
  exact mul_le_mul_of_nonneg_right (by linarith [(f.frac b).cast_nonneg (α := ℝ)]) (by positivity)

/-- Of two finite numbers, the one with the greater bits below the sign has the greater magnitude. -/
theorem Fmt.abs_value_lt_of_mag_lt (h : f.mag a < f.mag b) : |f.value a| < |f.value b| := by
  rw [Fmt.mag, Fmt.mag, f.mod_sign_eq, f.mod_sign_eq] at h
  rcases lt_trichotomy (f.expo a) (f.expo b) with hlt | heq | hgt
  · have hexp : f.qmin + f.expo a ≤ f.qmin + f.expo b - 1 := by omega
    exact (f.abs_value_lt a).trans_le ((mul_le_mul_of_nonneg_left (zpow_le_zpow_right₀ one_le_two hexp) (by positivity)).trans
      (Fmt.le_abs_value (Nat.ne_of_gt (Nat.zero_lt_of_lt hlt))))
  · rw [heq] at h
    rw [f.abs_value, f.abs_value, Fmt.last, Fmt.last, heq]
    refine mul_lt_mul_of_pos_right (Nat.cast_lt.mpr ?_) (by positivity)
    rw [Fmt.mant, Fmt.mant, heq]
    split <;> omega
  · exfalso
    have := Nat.mul_le_mul_right (2 ^ f.mb) (Nat.succ_le_of_lt hgt)
    rw [Nat.succ_mul] at this
    have := f.frac_lt b
    omega

theorem Fmt.num_mag_fin (h : f.expo b ≠ f.emax) : f.num (f.mag b) = (|f.value b| : ℝ) := by
  rw [Fmt.num_fin ((f.expo_mag b).trans_ne h), f.value_eq, f.sign_mag, f.mant_mag, f.last_mag, f.abs_value]
  simp [Num.value]

theorem Fmt.num_mag_nonneg (f : Fmt) (b : ℕ) : 0 ≤ f.num (f.mag b) := by
  by_cases h : f.expo b = f.emax
  · rw [Fmt.num_infinity ((f.expo_mag b).trans h), f.sign_mag]
    exact le_top
  · rw [Fmt.num_mag_fin h]
    exact_mod_cast abs_nonneg _

/-- Magnitudes that are no NaNs are in the order of their bits. -/
theorem Fmt.num_mag_lt (hb : f.isNan b = false) (h : f.mag a < f.mag b) : f.num (f.mag a) < f.num (f.mag b) := by
  have hb' : f.mag b ≤ f.emax * 2 ^ f.mb := by rw [← not_lt, ← f.isNan_iff_mag, hb]; exact Bool.false_ne_true
  have hea : f.expo a ≠ f.emax := by
    intro he
    have ha : f.mag a = f.emax * 2 ^ f.mb + f.frac a := by rw [Fmt.mag, f.mod_sign_eq, he]
    omega
  rw [Fmt.num_mag_fin hea]
  by_cases heb : f.expo b = f.emax
  · rw [Fmt.num_infinity ((f.expo_mag b).trans heb), f.sign_mag]
    exact EReal.coe_lt_top _
  · rw [Fmt.num_mag_fin heb, EReal.coe_lt_coe_iff]
    exact Fmt.abs_value_lt_of_mag_lt h

theorem Fmt.num_mag_lt_iff (ha : f.isNan a = false) (hb : f.isNan b = false) : f.num (f.mag a) < f.num (f.mag b) ↔ f.mag a < f.mag b := by
  refine ⟨fun h => ?_, Fmt.num_mag_lt hb⟩
  by_contra hle
  rcases (not_lt.mp hle).lt_or_eq with hlt | heq
  · exact absurd h (Fmt.num_mag_lt ha hlt).not_gt
  · rw [heq] at h
    exact lt_irrefl _ h

theorem Fmt.num_mag_le_iff (ha : f.isNan a = false) (hb : f.isNan b = false) : f.num (f.mag a) ≤ f.num (f.mag b) ↔ f.mag a ≤ f.mag b := by
  rw [← not_lt, ← not_lt, Fmt.num_mag_lt_iff hb ha]

/-! ### The total order (R95) -/

/-- Bits by their sign and their magnitude. -/
theorem Fmt.eq_sign_mag (h : b < 2 ^ f.width) : b = 2 ^ (f.eb + f.mb) * (f.sign b).toNat + f.mag b := by
  rw [Fmt.sign_toNat h]
  exact (Nat.div_add_mod _ _).symm

theorem Fmt.mag_lt (f : Fmt) (b : ℕ) : f.mag b < 2 ^ (f.eb + f.mb) := Nat.mod_lt _ (Nat.two_pow_pos _)

theorem Fmt.totalKey_eq (h : b < 2 ^ f.width) : totalKey f.width b =
    if f.sign b = true then 2 ^ (f.eb + f.mb) - 1 - f.mag b else 2 ^ (f.eb + f.mb) + f.mag b := by
  have hw : f.width - 1 = f.eb + f.mb := by rw [Fmt.width]; omega
  have hp : 2 ^ f.width = 2 * 2 ^ (f.eb + f.mb) := by rw [← pow_succ', Fmt.width]; congr 1; omega
  have hb := Fmt.eq_sign_mag h
  have hs : b / 2 ^ (f.eb + f.mb) = (f.sign b).toNat := (Fmt.sign_toNat h).symm
  rw [totalKey, hw, hp, hs]
  cases hsign : f.sign b <;> rw [hsign] at hb <;> simp at hb ⊢ <;> omega

/-- The total order: a set sign before a clear one, and by the magnitude among bits of one sign. -/
theorem Fmt.totalLE_iff (ha : a < 2 ^ f.width) (hb : b < 2 ^ f.width) : totalLE f.width a b = true ↔
    if f.sign a = true then (f.sign b = true → f.mag b ≤ f.mag a) else f.sign b = false ∧ f.mag a ≤ f.mag b := by
  have hma := f.mag_lt a
  have hmb := f.mag_lt b
  rw [totalLE, decide_eq_true_eq, Fmt.totalKey_eq ha, Fmt.totalKey_eq hb]
  cases f.sign a <;> cases f.sign b <;> simp <;> omega

end
end Sys2Proof.Machine
end

