-- ==== Sys2Proof/Proofs/FpOrder.lean ====
section
/-! PROOFS. The total order by the numbers that bits are (R95), and the least and the greatest, comparisons and classes (R200 to R202). -/

namespace Sys2Proof.Machine

section
variable {f : Fmt} {a b : ℕ}

/-! ### The total order -/

/-- Of bits that are no NaNs the total order is that of the numbers, with −0 below +0. -/
theorem Fmt.totalLE_num (ha : a < 2 ^ f.width) (hb : b < 2 ^ f.width) (hna : f.isNan a = false) (hnb : f.isNan b = false) :
    totalLE f.width a b = true ↔ f.num a < f.num b ∨ (f.num a = f.num b ∧ (f.IsNeg a ∨ ¬ f.IsNeg b)) := by
  have h0a := f.num_mag_nonneg a
  have h0b := f.num_mag_nonneg b
  rw [Fmt.totalLE_iff ha hb, f.num_eq_mag a, f.num_eq_mag b, f.isNeg_iff, f.isNeg_iff]
  cases f.sign a <;> cases f.sign b
  · simp [← Fmt.num_mag_le_iff hna hnb, le_iff_lt_or_eq]
  · have : ¬ f.num (f.mag a) < -f.num (f.mag b) := not_lt.mpr ((EReal.neg_le_zero.mpr h0b).trans h0a)
    simpa using this
  · have : -f.num (f.mag a) < f.num (f.mag b) ∨ -f.num (f.mag a) = f.num (f.mag b) :=
      le_iff_lt_or_eq.mp ((EReal.neg_le_zero.mpr h0a).trans h0b)
    simpa using this
  · simp [← Fmt.num_mag_le_iff hnb hna, le_iff_lt_or_eq, EReal.neg_lt_neg_iff, eq_comm]

/-- A NaN stands beyond every number on the side of its sign. -/
theorem Fmt.totalLE_nan_left (ha : a < 2 ^ f.width) (hb : b < 2 ^ f.width) (hna : f.isNan a = true) (hnb : f.isNan b = false) :
    totalLE f.width a b = true ↔ f.IsNeg a := by
  have hlt : f.mag b < f.mag a := by
    rw [← Bool.not_eq_true, f.isNan_iff_mag] at hnb
    exact (not_lt.mp hnb).trans_lt ((f.isNan_iff_mag a).mp hna)
  rw [Fmt.totalLE_iff ha hb, f.isNeg_iff]
  cases f.sign a <;> simp [hlt, hlt.le]

theorem Fmt.totalLE_nan_right (ha : a < 2 ^ f.width) (hb : b < 2 ^ f.width) (hna : f.isNan a = false) (hnb : f.isNan b = true) :
    totalLE f.width a b = true ↔ ¬ f.IsNeg b := by
  have hlt : f.mag a < f.mag b := by
    rw [← Bool.not_eq_true, f.isNan_iff_mag] at hna
    exact (not_lt.mp hna).trans_lt ((f.isNan_iff_mag b).mp hnb)
  rw [Fmt.totalLE_iff ha hb, f.isNeg_iff]
  cases f.sign a <;> cases f.sign b <;> simp [hlt, hlt.le]

/-- Bits of one sign are in the order of the numbers that they spell, and in the other order under a set sign. -/
theorem Fmt.totalLE_bits (ha : a < 2 ^ f.width) (hb : b < 2 ^ f.width) : totalLE f.width a b = true ↔
    if a / 2 ^ (f.eb + f.mb) % 2 = 1 then (f.IsNeg b → b ≤ a) else ¬ f.IsNeg b ∧ a ≤ b := by
  have hea := Fmt.eq_sign_mag ha
  have heb := Fmt.eq_sign_mag hb
  have hs : a / 2 ^ (f.eb + f.mb) % 2 = 1 ↔ f.sign a = true := (f.isNeg_iff a)
  rw [Fmt.totalLE_iff ha hb, f.isNeg_iff]
  simp only [hs]
  cases hsa : f.sign a <;> cases hsb : f.sign b <;> rw [hsa] at hea <;> rw [hsb] at heb <;> simp at hea heb ⊢ <;> omega

/-! ### The least and the greatest -/

theorem Fmt.minMax_of_nan_left (ha : f.isNan a = true) (hb : f.isNan b = false) (isMax number : Bool) :
    f.minMax isMax number a b = (if number then b else f.canon, if f.isSig a || f.isSig b then flagNV else 0) := by
  simp [Fmt.minMax, ha, hb]

theorem Fmt.minMax_of_nan_right (ha : f.isNan a = false) (hb : f.isNan b = true) (isMax number : Bool) :
    f.minMax isMax number a b = (if number then a else f.canon, if f.isSig a || f.isSig b then flagNV else 0) := by
  simp [Fmt.minMax, ha, hb]

theorem Fmt.minMax_of_nans (ha : f.isNan a = true) (hb : f.isNan b = true) (isMax number : Bool) :
    f.minMax isMax number a b = (f.canon, if f.isSig a || f.isSig b then flagNV else 0) := by
  simp [Fmt.minMax, ha, hb]

theorem Fmt.minMax_of_num (ha : f.isNan a = false) (hb : f.isNan b = false) (isMax number : Bool) :
    f.minMax isMax number a b = (if isMax = totalLE f.width a b then b else a, 0) := by
  simp only [Fmt.minMax, ha, hb, Fmt.isSig_of_not_isNan ha, Fmt.isSig_of_not_isNan hb, Bool.false_and, Bool.or_self, Bool.false_eq_true, if_false]
  cases isMax <;> cases totalLE f.width a b <;> rfl

/-- Of two numbers the least or the greatest is the one that it is over the reals and the infinities, with −0 below +0. -/
theorem Fmt.minMax_spec (ha : a < 2 ^ f.width) (hb : b < 2 ^ f.width) (hna : f.isNan a = false) (hnb : f.isNan b = false)
    (isMax number : Bool) : ∃ r, f.minMax isMax number a b = (r, 0) ∧ (r = a ∨ r = b)
      ∧ f.num r = (if isMax then max (f.num a) (f.num b) else min (f.num a) (f.num b))
      ∧ (f.num a = f.num b → (f.IsNeg r ↔ if isMax then f.IsNeg a ∧ f.IsNeg b else f.IsNeg a ∨ f.IsNeg b)) := by
  have hle := Fmt.totalLE_num ha hb hna hnb
  refine ⟨_, Fmt.minMax_of_num hna hnb isMax number, (ite_eq_or_eq ..).symm, ?_⟩
  cases hto : totalLE f.width a b with
  | true =>
    rw [hto] at hle
    have hnum : f.num a ≤ f.num b := (hle.mp rfl).elim le_of_lt fun h => h.1.le
    have hsign : f.num a = f.num b → f.IsNeg a ∨ ¬ f.IsNeg b := fun h => ((hle.mp rfl).resolve_left h.not_lt).2
    cases isMax <;> simp [hnum] <;> tauto
  | false =>
    rw [hto] at hle
    have hnot := mt hle.mpr Bool.false_ne_true
    rw [not_or, not_lt, not_and] at hnot
    obtain ⟨hnum, hsign⟩ := hnot
    cases isMax <;> simp [hnum] <;> tauto

/-! ### Comparisons -/

theorem Fmt.compare_of_num (ha : f.isNan a = false) (hb : f.isNan b = false) :
    f.compare 0 a b = (decide (f.num a = f.num b), 0) ∧ f.compare 1 a b = (decide (f.num a ≠ f.num b), 0)
    ∧ f.compare 2 a b = (decide (f.num a < f.num b), 0) ∧ f.compare 3 a b = (decide (f.num a ≤ f.num b), 0)
    ∧ f.compare 4 a b = (decide (f.num b < f.num a), 0) ∧ f.compare 5 a b = (decide (f.num b ≤ f.num a), 0)
    ∧ f.compare 6 a b = (false, 0) := by
  have heq : Num.eq (f.decode a) (f.decode b) = decide (f.num a = f.num b) := by rw [Bool.eq_iff_iff, Fmt.eq_iff ha hb, decide_eq_true_eq]
  have hlt : Num.lt (f.decode a) (f.decode b) = decide (f.num a < f.num b) := by rw [Bool.eq_iff_iff, Fmt.lt_iff ha hb, decide_eq_true_eq]
  have hgt : Num.lt (f.decode b) (f.decode a) = decide (f.num b < f.num a) := by rw [Bool.eq_iff_iff, Fmt.lt_iff hb ha, decide_eq_true_eq]
  have hle : decide (f.num a ≤ f.num b) = !decide (f.num b < f.num a) := by rw [← decide_not, decide_eq_decide, not_lt]
  have hge : decide (f.num b ≤ f.num a) = !decide (f.num a < f.num b) := by rw [← decide_not, decide_eq_decide, not_lt]
  simp [Fmt.compare, f.decode_isNan, f.decode_isSig, ha, hb, Fmt.isSig_of_not_isNan ha, Fmt.isSig_of_not_isNan hb, heq, hlt, hgt,
    hle, hge]

theorem Num.lt_of_nan {x y : Num} (h : x.isNan = true ∨ y.isNan = true) : Num.lt x y = false := by
  cases x <;> cases y <;> simp_all [Num.lt, Num.isNan]

theorem Num.eq_of_nan {x y : Num} (h : x.isNan = true ∨ y.isNan = true) : Num.eq x y = false := by
  cases x <;> cases y <;> simp_all [Num.eq, Num.isNan]

/-- A comparison with a NaN (R202). -/
theorem Fmt.compare_of_nan (h : f.isNan a = true ∨ f.isNan b = true) {cond : ℕ} (hc : cond ≤ 6) :
    f.compare cond a b = (decide (cond = 1 ∨ cond = 6),
      if 2 ≤ cond ∧ cond ≤ 5 then flagNV else if f.isSig a || f.isSig b then flagNV else 0) := by
  have hun : (f.isNan a || f.isNan b) = true := by rwa [Bool.or_eq_true]
  have h' : (f.decode a).isNan = true ∨ (f.decode b).isNan = true := by rwa [f.decode_isNan, f.decode_isNan]
  simp only [Fmt.compare, Num.eq_of_nan h', Num.lt_of_nan h', Num.lt_of_nan h'.symm, f.decode_isNan, f.decode_isSig, hun]
  interval_cases cond <;> simp

/-! ### Classes -/

/-- The least normal number. -/
theorem Fmt.least_le_iff (f : Fmt) (b : ℕ) : (2 : ℝ) ^ (2 - 2 ^ (f.eb - 1) : ℤ) ≤ |f.value b| ↔ f.expo b ≠ 0 := by
  have hleast : (2 : ℝ) ^ (2 - 2 ^ (f.eb - 1) : ℤ) = 2 ^ f.mb * 2 ^ f.qmin := by
    rw [← zpow_natCast, ← zpow_add₀ two_ne_zero, f.qmin_eq]
    congr 1
    push_cast
    ring
  rw [hleast]
  constructor
  · intro h h0
    have := f.abs_value_lt b
    rw [h0, Nat.cast_zero, add_zero] at this
    exact absurd this (not_lt.mpr h)
  · intro h
    exact (mul_le_mul_of_nonneg_left (zpow_le_zpow_right₀ one_le_two (by omega)) (by positivity)).trans (Fmt.le_abs_value h)

theorem Fmt.classify_of_sig (h : f.isSig b = true) : f.classify b = 2 ^ 8 := by
  have hn : f.isNan b = true := (Bool.and_eq_true _ _ ▸ h).1
  simp [Fmt.classify, hn, h]

theorem Fmt.classify_of_quiet (hn : f.isNan b = true) (h : f.isSig b = false) : f.classify b = 2 ^ 9 := by simp [Fmt.classify, hn, h]

theorem Fmt.classify_infinity (hn : f.isNan b = false) (he : f.expo b = f.emax) : f.classify b = if f.sign b then 2 ^ 0 else 2 ^ 7 := by
  simp [Fmt.classify, hn, he]

theorem Fmt.IsFinite.not_isNan (h : f.IsFinite b) : f.isNan b = false := by simp [Fmt.isNan, h.expo_ne]

theorem Fmt.IsFinite.classify (h : f.IsFinite b) : f.classify b =
    if f.expo b = 0 then (if f.value b = 0 then (if f.sign b then 2 ^ 3 else 2 ^ 4) else (if f.sign b then 2 ^ 2 else 2 ^ 5))
    else (if f.sign b then 2 ^ 1 else 2 ^ 6) := by
  have hmant := f.mant_eq_zero b
  rw [Fmt.mant] at hmant
  by_cases h0 : f.expo b = 0
  · rw [if_pos h0] at hmant
    have hz : 0 ≠ f.emax := h0 ▸ h.expo_ne
    simp [Fmt.classify, h.not_isNan, h0, hz, ← hmant]
  · simp [Fmt.classify, h.not_isNan, h.expo_ne, h0]

theorem Fmt.sign_of_neg (h : f.value b < 0) : f.sign b = true :=
  (f.value_neg_iff (mt (f.mant_eq_zero b).mp h.ne)).mp h

theorem Fmt.sign_of_pos (h : 0 < f.value b) : f.sign b = false :=
  (f.value_pos_iff (mt (f.mant_eq_zero b).mp h.ne')).mp h

/-- The class of a finite number says where it lies among the least normal numbers and zero (R201). -/
theorem Fmt.IsFinite.classify_spec (h : f.IsFinite b) {least : ℝ} (hleast : least = 2 ^ (2 - 2 ^ (f.eb - 1) : ℤ)) :
    (f.value b ≤ -least → f.classify b = 2 ^ 1) ∧ (-least < f.value b → f.value b < 0 → f.classify b = 2 ^ 2)
      ∧ (f.value b = 0 → f.sign b = true → f.classify b = 2 ^ 3) ∧ (f.value b = 0 → f.sign b = false → f.classify b = 2 ^ 4)
      ∧ (0 < f.value b → f.value b < least → f.classify b = 2 ^ 5) ∧ (least ≤ f.value b → f.classify b = 2 ^ 6) := by
  have hpos : 0 < least := by rw [hleast]; positivity
  have hiff := f.least_le_iff b
  rw [← hleast] at hiff
  have hlow : |f.value b| < least → f.expo b = 0 := fun hlt => not_not.mp (mt hiff.mpr (not_le.mpr hlt))
  rw [h.classify]
  refine ⟨fun hx => ?_, fun hx h0 => ?_, fun h0 hs => ?_, fun h0 hs => ?_, fun h0 hx => ?_, fun hx => ?_⟩
  · have hneg : f.value b < 0 := by linarith
    rw [if_neg (hiff.mp (by rw [abs_of_neg hneg]; linarith)), if_pos (Fmt.sign_of_neg hneg)]
  · rw [if_pos (hlow (by rw [abs_of_neg h0]; linarith)), if_neg h0.ne, if_pos (Fmt.sign_of_neg h0)]
  · rw [if_pos (hlow (by rw [h0, abs_zero]; exact hpos)), if_pos h0, if_pos hs]
  · rw [if_pos (hlow (by rw [h0, abs_zero]; exact hpos)), if_pos h0, hs, if_neg Bool.false_ne_true]
  · rw [if_pos (hlow (by rw [abs_of_pos h0]; exact hx)), if_neg h0.ne', Fmt.sign_of_pos h0, if_neg Bool.false_ne_true]
  · have h0 : 0 < f.value b := hpos.trans_le hx
    rw [if_neg (hiff.mp (by rw [abs_of_pos h0]; exact hx)), Fmt.sign_of_pos h0, if_neg Bool.false_ne_true]

/-! ### `VFCMP` -/

theorem Fmt.zeroBits_sign (h : b < 2 ^ f.width) : f.zeroBits (f.sign b) = b / 2 ^ (f.eb + f.mb) * 2 ^ (f.eb + f.mb) := by
  rw [← Fmt.sign_toNat h]
  cases f.sign b <;> simp [Fmt.zeroBits]

/-- Under daz an operand with an exponent field of 0 is the zero of its sign, as it was where its fraction is 0 too (R76). -/
theorem Fmt.dazBits_eq (h : b < 2 ^ f.width) (daz : Bool) : f.dazBits daz b =
    if daz = true ∧ f.expo b = 0 then b / 2 ^ (f.eb + f.mb) * 2 ^ (f.eb + f.mb) else b := by
  rw [Fmt.dazBits, Fmt.zeroBits_sign h]
  by_cases h0 : f.expo b = 0
  · by_cases hr : f.frac b = 0
    · have hmag : b % 2 ^ (f.eb + f.mb) = 0 := by rw [f.mod_sign_eq, h0, hr, Nat.zero_mul]
      rw [Nat.div_mul_cancel (Nat.dvd_of_mod_eq_zero hmag), ite_self, ite_self]
    · simp [Fmt.isSub, h0, hr]
  · simp [Fmt.isSub, h0]

theorem vfCond_compare (f : Fmt) (daz : Bool) {cond : ℕ} (hc : cond ≤ 6) (a b : ℕ) :
    vfCond f daz cond a b = f.compare cond (f.dazBits daz a) (f.dazBits daz b) := by
  rw [vfCond, if_neg (by simpa using (by omega : cond ≠ 7))]

end
end Sys2Proof.Machine
end

