-- ==== Sys2Proof/Proofs/Polynomial.lean ====
section
/-! PROOFS. The steps of `VPOLY` (R98) as operations on finite bits, each rounded to nearest even. -/

namespace Sys2Proof.Machine

/-! ### Numbers of a coefficient table -/

theorem leNat_lt (l : List Byte) : leNat l < 256 ^ l.length := by
  induction l with
  | nil => exact Nat.one_pos
  | cons b l ih =>
    have := b.isLt
    rw [leNat, List.length_cons, pow_succ]
    omega

theorem CoefTable.num_lt (t : CoefTable) (off n : ℕ) : t.num off n < 256 ^ n := by
  have h := leNat_lt (Tab.read t off n)
  rwa [Tab.read, List.length_map, List.length_range] at h

/-! ### Numbers that a format holds -/

/-- A number of no more digits than a format has is its own rounding. -/
theorem Fmt.Rounded.exact {f : Fmt} {mode : BitVec 3} {x : ℝ} {r : ℕ × Flags} (h : f.Rounded mode x r) (hm : mode.toNat < 5) {k : ℕ} {g : ℤ}
    (hx : |x| = k * 2 ^ g) (hk : k < 2 ^ (f.mb + 1)) (hg : f.qmin ≤ g) (htop : |x| < 2 ^ (2 ^ (f.eb - 1) : ℕ)) :
    f.IsFinite r.1 ∧ (f.IsNeg r.1 ↔ x < 0) ∧ |f.value r.1| = |x| := by
  obtain ⟨q, n, _, hlow, -, hn, -, hfin, -⟩ := h
  have hleast : 2 - 2 ^ (f.eb - 1) - f.mb = f.qmin := by rw [f.qmin_eq]; push_cast; ring
  rw [hleast] at hn hfin
  have hq : q ≤ g := by
    have hlt : (2 : ℝ) ^ f.mb * 2 ^ q < 2 ^ f.mb * 2 ^ (g + 1) := by
      calc (2 : ℝ) ^ f.mb * 2 ^ q ≤ k * 2 ^ g := hlow.trans_eq hx
        _ < 2 ^ (f.mb + 1) * 2 ^ g := mul_lt_mul_of_pos_right (by exact_mod_cast hk) (by positivity)
        _ = 2 ^ f.mb * 2 ^ (g + 1) := by rw [zpow_add_one₀ two_ne_zero, pow_succ]; ring
    have := (zpow_lt_zpow_iff_right₀ one_lt_two).mp (lt_of_mul_lt_mul_left hlt (by positivity))
    omega
  obtain ⟨-, hwhole⟩ := roundTo_of_le mode false (m := k) (sticky := false) (max_le hq hg)
  rw [← hx] at hwhole
  rw [← hwhole] at hn
  have hv : (n : ℝ) * 2 ^ max q f.qmin = |x| := by rw [hn.eq_of_whole hm, hwhole, div_mul_cancel₀ _ (by positivity)]
  obtain ⟨h1, h2, h3, -⟩ := hfin (hv ▸ htop)
  exact ⟨h1, h2, h3.trans hv⟩

/-- A whole number of 24 bits or fewer is exact in binary32. -/
theorem ofInt_exact {n : ℕ} (hn : n < 2 ^ 24) : Fmt.fp32.IsFinite (Fmt.fp32.ofInt 0 n).1 ∧ Fmt.fp32.sign (Fmt.fp32.ofInt 0 n).1 = false
    ∧ Fmt.fp32.value (Fmt.fp32.ofInt 0 n).1 = n := by
  rcases Nat.eq_zero_or_pos n with rfl | h0
  · have hm : Fmt.fp32.mant (Fmt.fp32.ofInt 0 0).1 = 0 := by decide
    exact ⟨⟨by decide, by decide⟩, by decide, ((Fmt.fp32.mant_eq_zero _).mp hm).trans Nat.cast_zero.symm⟩
  · have hn0 : (0 : ℝ) < n := by exact_mod_cast h0
    have hgives := Fmt.ofInt_gives (mode := 0) Fmt.fp32_proper (by decide) n
    rw [Int.cast_natCast] at hgives
    have habs : |(n : ℝ)| = n * 2 ^ (0 : ℤ) := by rw [abs_of_pos hn0, zpow_zero, mul_one]
    have htop : |(n : ℝ)| < 2 ^ (2 ^ (Fmt.fp32.eb - 1) : ℕ) := by
      rw [abs_of_pos hn0]
      exact_mod_cast hn.trans_le (Nat.pow_le_pow_right Nat.two_pos (by decide))
    obtain ⟨hfin, hneg, hval⟩ := (hgives.1 hn0.ne').exact (by decide) habs hn (by decide) htop
    have hsign : Fmt.fp32.sign (Fmt.fp32.ofInt 0 n).1 = false := by
      rw [← Bool.not_eq_true, ← Fmt.isNeg_iff, hneg, not_lt]
      exact hn0.le
    refine ⟨hfin, hsign, ?_⟩
    rw [← abs_of_pos hn0, ← hval, Fmt.abs_value, Fmt.value_eq, hsign]
    simp [Num.value]

/-! ### The steps of R98 -/

section
variable {x0 w : ℕ}

/-- The start of a segment (R98): its number as an operand in binary32 gives the same fused step. -/
theorem polyPoint_fst (hx0 : Fmt.fp32.IsFinite x0) (hw : Fmt.fp32.IsFinite w) {n : ℕ} (hn : n < 2 ^ 24) :
    (polyPoint x0 w n).1 = (Fmt.fp32.ffma 0 false false (Fmt.fp32.ofInt 0 n).1 w x0).1 := by
  obtain ⟨hfin, hsign, hval⟩ := ofInt_exact hn
  have hint : (Num.fin false n 0).IsFinite := ⟨_, _, _, rfl⟩
  have hcongr := Fmt.pack_add_congr (f := Fmt.fp32) (mode := 0) (by decide) (hint.mul hw.finite) (hfin.finite.mul hw.finite) hx0.finite
    (by rw [hint.mul_minus hw.finite, hfin.finite.mul_minus hw.finite, hfin.minus, hsign, Num.minus])
    (by rw [hint.mul_value hw.finite, hfin.finite.mul_value hw.finite, hfin.value_decode, hval]; simp [Num.value])
  have hfst := congrArg Prod.fst hcongr
  exact hfst

theorem roundInt_floor (f : Fmt) (q : ℕ) : (roundInt 2 (f.sign q) (f.mant q) (f.last q)).1 = ⌊f.value q⌋ := by
  obtain ⟨n, ⟨-, -, hdir, -⟩, hv, -⟩ := f.roundInt_spec q (mode := 2) (by decide)
  obtain ⟨hup, hdown⟩ := hdir rfl
  rw [hv, eq_comm, Int.floor_eq_iff]
  split
  · next hneg =>
    have := hup hneg
    rw [abs_of_neg hneg] at this
    push_cast
    constructor <;> linarith
  · next hpos =>
    have := hdown hpos
    rw [abs_of_nonneg (not_lt.mp hpos)] at this
    exact_mod_cast this

/-- The segment of a finite quotient is its floor within the table. -/
theorem polySeg_eq {q : ℕ} (hq : Fmt.fp32.IsFinite q) (nseg free : ℕ) :
    polySeg q nseg free = (max 0 (min (nseg - 1 : ℤ) ⌊Fmt.fp32.value q⌋)).toNat := by
  rw [polySeg, hq.decode, ← roundInt_floor]
  rfl

/-- The Horner steps, from the highest coefficient down. -/
theorem polyHorner_fst (c : ℕ → ℕ) (u d : ℕ) (p : ℕ × Flags) : (polyHorner c u d p).1 =
    (List.range d).reverse.foldl (fun p j => (Fmt.fp32.ffma 0 false false p u (c j)).1) p.1 := by
  induction d generalizing p with
  | zero => rfl
  | succ d ih =>
    rw [polyHorner, ih, List.range_succ, List.reverse_append, List.reverse_singleton, List.singleton_append, List.foldl_cons]
    rfl

theorem Fmt.IsFinite.lt_iff {f : Fmt} {a b : ℕ} (ha : f.IsFinite a) (hb : f.IsFinite b) :
    Num.lt (f.decode a) (f.decode b) = true ↔ f.value a < f.value b := by
  rw [ha.decode, hb.decode, Num.lt_fin_iff, f.value_eq, f.value_eq]

theorem Fmt.IsFinite.dazBits {f : Fmt} (hf : f.Proper) {b : ℕ} (h : f.IsFinite b) (daz : Bool) : f.IsFinite (f.dazBits daz b) := by
  rw [Fmt.dazBits]
  split
  · simpa [Fmt.joined] using Fmt.isFinite_joined (neg := f.sign b) (Fmt.emax_pos hf) (Nat.two_pow_pos f.mb)
  · exact h

end

/-! ### One element -/

/-- The element of `VPOLY` clamped to the table's range (R98). -/
def CoefTable.clamped (t : CoefTable) (x : ℕ) : ℕ :=
  let f := Fmt.fp32
  let top := (polyPoint (t.num 0 4) (t.num 4 4) (t.num 0x0C 2)).1
  let low := if t.num 0x0F 1 % 2 == 1 && Num.lt (f.decode x) (f.decode (t.num 0 4)) then t.num 0 4 else x
  if t.num 0x0F 1 / 2 % 2 == 1 && Num.lt (f.decode top) (f.decode low) then top else low

theorem Fmt.ftzBits_fst (f : Fmt) (ftz : Bool) (r : ℕ × Flags) :
    (f.ftzBits ftz r).1 = if ftz && f.isSub r.1 then f.zeroBits (f.sign r.1) else r.1 := by
  rw [Fmt.ftzBits, apply_ite Prod.fst]

/-- The value of `polyEval` by its steps: of a number, the segment of the clamped element's quotient, and the Horner steps there. -/
theorem polyEval_fst (t : CoefTable) (daz ftz : Bool) {bits : ℕ} (h : Fmt.fp32.isNan bits = false) : ∃ (free : ℕ) (fl : Flags),
    let f := Fmt.fp32
    let x := t.clamped (f.dazBits daz bits)
    let seg := polySeg (f.fmul 0 (f.fsub 0 x (t.num 0 4)).1 (t.num 8 4)).1 (t.num 0x0C 2) free
    let u := (f.fsub 0 x (polyPoint (t.num 0 4) (t.num 4 4) seg).1).1
    let c := fun j => t.num (0x20 + 32 * seg + 4 * j) 4
    let d := min 7 (t.num 0x0E 1)
    let p := (polyHorner c u d (c d, fl)).1
    (polyEval t daz ftz bits).1 = (f.ftzBits ftz (if f.isNan p then f.canon else p, 0)).1 := by
  apply Exists.intro
  apply Exists.intro
  rw [polyEval, if_neg (by rw [h]; exact Bool.false_ne_true)]
  dsimp only
  rw [Fmt.ftzBits_fst]
  rfl

theorem Fmt.ftzBits_of_number {f : Fmt} {p : ℕ} (h : f.IsFinite p) (ftz : Bool) :
    (f.ftzBits ftz (if f.isNan p then f.canon else p, 0)).1 = (f.ftzBits ftz (p, 0)).1 := by
  rw [h.not_isNan, if_neg Bool.false_ne_true]

end Sys2Proof.Machine
end

