-- ==== Sys2Proof/Proofs/MatrixElement.lean ====
section
/-! PROOFS. A matrix element over the real numbers (R93): the exact sum of its products, and each of its rounding points. -/

namespace Sys2Proof.Machine

/-! ### The exact sum -/

/-- An exact sum of finite terms that is a real number. -/
structure Exact.Is (s : Exact) (v : ℝ) : Prop where
  nan : s.nan = false
  pinf : s.pinf = false
  ninf : s.ninf = false
  value : s.acc * 2 ^ s.e = v

section
variable {s : Exact} {v : ℝ} {x : Num}

theorem Exact.zero_is : Exact.zero.Is 0 := ⟨rfl, rfl, rfl, by simp [Exact.zero]⟩

theorem Exact.Is.push (h : s.Is v) (hx : x.IsFinite) : (s.push x).Is (v + x.value) := by
  obtain ⟨neg, m, e, rfl⟩ := hx
  refine ⟨h.nan, h.pinf, h.ninf, ?_⟩
  have hacc : ((s.acc * 2 ^ (s.e - min s.e e).toNat : ℤ) : ℝ) * 2 ^ min s.e e = v := by
    rw [← h.value]
    push_cast
    rw [mul_assoc, ← zpow_natCast, Int.toNat_of_nonneg (by omega), ← zpow_add₀ two_ne_zero, sub_add_cancel]
  rw [Exact.push, ← signed_value neg m e _ (min_le_right s.e e), ← hacc, Int.cast_add, add_mul]

theorem Exact.Is.isZero_iff (h : s.Is v) : s.isZero = true ↔ v = 0 := by
  rw [Exact.isZero, h.nan, h.pinf, h.ninf, ← h.value, mul_eq_zero, or_iff_left (by positivity), Int.cast_eq_zero]
  simp

theorem Exact.Is.val_eq (h : s.Is v) : s.val = Num.ofInt false s.acc s.e := by simp [Exact.val, h.nan, h.pinf, h.ninf]

theorem Exact.Is.val_finite (h : s.Is v) : s.val.IsFinite := by
  rw [h.val_eq]
  exact ⟨_, _, _, Num.ofInt_eq ..⟩

theorem Exact.Is.val_value (h : s.Is v) : s.val.value = v := by rw [h.val_eq, Num.ofInt_value, h.value]

end

/-- A product of a matrix element: none where an operand is an escape. -/
noncomputable def mmaTerm (na : Bool) (x y : NVal) : ℝ :=
  match x, y with
  | .num v, .num w => (if na = true then -1 else 1) * (v.value * w.value)
  | _, _ => 0

theorem mmaSum_is (na : Bool) (a b : ℕ → NVal) (n : ℕ) (ha : ∀ k v, k < n → a k = .num v → v.IsFinite)
    (hb : ∀ k v, k < n → b k = .num v → v.IsFinite) : (mmaSum na n a b).Is (∑ k ∈ Finset.range n, mmaTerm na (a k) (b k)) := by
  induction n with
  | zero => exact Exact.zero_is
  | succ n ih =>
    have h := ih (fun k v hk => ha k v (by omega)) (fun k v hk => hb k v (by omega))
    rw [Finset.sum_range_succ, mmaSum, List.range_succ, List.foldl_append, ← mmaSum, List.foldl_cons, List.foldl_nil]
    cases hx : a n with
    | escape => simpa [mmaTerm] using h
    | num x =>
      cases hy : b n with
      | escape => simpa [mmaTerm] using h
      | num y =>
        have hxf := ha n x (Nat.lt_succ_self n) hx
        have hyf := hb n y (Nat.lt_succ_self n) hy
        have hp := hxf.mul hyf
        have := h.push (hp.signedBy na)
        rw [hp.signedBy_value, hxf.mul_value hyf] at this
        exact this

/-! ### A rounding point -/

section
variable {f : Fmt} {mode : BitVec 3}

theorem Fmt.roundMag_lt (hf : f.Proper) (neg : Bool) (m : ℕ) (e : ℤ) (sticky : Bool) :
    (f.roundMag mode neg m e sticky).1 < 2 ^ f.width := by
  have hpos := Nat.two_pow_pos f.mb
  rw [f.roundMag_eq]
  dsimp only
  split
  · dsimp only
    rw [f.overflow_eq]
    split
    · rw [Fmt.maxBits_eq hf]
      exact Fmt.joined_lt (lt_of_le_of_lt (Nat.sub_le _ _) f.emax_lt) (Nat.sub_lt hpos Nat.one_pos)
    · exact Fmt.joined_lt f.emax_lt hpos
  · next h => exact Fmt.joined_lt ((not_le.mp h).trans f.emax_lt) (Nat.mod_lt _ hpos)

theorem Fmt.pack_lt (hf : f.Proper) {x : Num} (hx : x.IsFinite) : (f.pack mode x).1 < 2 ^ f.width := by
  obtain ⟨neg, m, e, rfl⟩ := hx
  rw [Fmt.pack]
  split
  · simpa [Fmt.joined] using Fmt.joined_lt (f := f) (neg := neg) (Nat.two_pow_pos _) (Nat.two_pow_pos _)
  · exact Fmt.roundMag_lt hf neg m e false

theorem Num.IsFinite.add {x y : Num} (hx : x.IsFinite) (hy : y.IsFinite) : (Num.add mode x y).IsFinite := by
  obtain ⟨i, q, h, -⟩ := hx.add_eq hy mode
  rw [h]
  exact ⟨_, _, _, Num.ofInt_eq ..⟩

/-- Bits of a format flushed to zero where they are subnormal (R76). -/
theorem Fmt.ftzBits_eq {r : ℕ × Flags} (h : r.1 < 2 ^ f.width) (ftz : Bool) : f.ftzBits ftz r =
    if ftz = true ∧ r.1 / 2 ^ f.mb % 2 ^ f.eb = 0 ∧ r.1 % 2 ^ f.mb ≠ 0
      then (r.1 / 2 ^ (f.eb + f.mb) * 2 ^ (f.eb + f.mb), r.2 ||| 0x03) else r := by
  rw [Fmt.ftzBits, Fmt.zeroBits_sign h, BitVec.or_assoc]
  refine if_congr ?_ rfl rfl
  rw [Bool.and_eq_true, Fmt.isSub, Bool.and_eq_true, beq_iff_eq, bne_iff_ne]
  rfl

/-- A sum that is zero without both operands being zero is no sum of two negative numbers. -/
theorem zeroSign_nearest {x y : Num} (hx : x.IsFinite) (hy : y.IsFinite) (hne : y.value ≠ 0 ∨ x.value ≠ 0) (h0 : x.value + y.value = 0) :
    ¬ zeroSign 0 x.minus y.minus = true := by
  obtain ⟨s, m, e, rfl⟩ := hx
  obtain ⟨t, n, g, rfl⟩ := hy
  rw [zeroSign_iff]
  rintro (⟨hs, ht⟩ | ⟨h, -⟩)
  · have hpm : (0 : ℝ) ≤ m * 2 ^ e := by positivity
    have hpn : (0 : ℝ) ≤ n * 2 ^ g := by positivity
    simp only [Num.minus] at hs ht
    simp only [Num.value, hs, ht, if_true, neg_mul, one_mul] at h0 hne
    rcases hne with hne | hne <;> exact hne (by linarith)
  · exact absurd h (by decide)

end

/-- One step of a matrix element is a rounding point of R93. -/
theorem mmaStep_point (ftz : Bool) {t : ℕ × Flags} {x : Num} (ht : Fmt.fp32.IsFinite t.1) (hx : x.IsFinite)
    (hne : x.value ≠ 0 ∨ Fmt.fp32.value t.1 ≠ 0) : PointOf ftz t (mmaStep ftz t x) x.value := by
  have hgives := Fmt.pack_add_gives (mode := 0) Fmt.fp32_proper (by decide) ht.finite hx
  have hlt := Fmt.pack_lt (mode := 0) Fmt.fp32_proper (ht.finite.add (mode := 0) hx)
  rw [ht.value_decode] at hgives
  refine ⟨_, hgives.congr fun h0 => iff_of_false (zeroSign_nearest ht.finite hx ?_ ?_) not_false, ?_⟩
  · rwa [ht.value_decode]
  · rwa [ht.value_decode]
  · rw [mmaStep, Fmt.ftzBits_eq hlt]
    split
    · rw [← BitVec.or_assoc]
    · rfl

/-! ### The element -/

/-- The step of one entry of the A list. -/
def mmaLeft (ftz na : Bool) (b : ℕ → NVal) (lb : List (ℕ × ℕ)) (t : ℕ × Flags) (e : ℕ × ℕ) : ℕ × Flags :=
  mmaStep ftz t (Num.signedBy na (Num.mul (Fmt.fp32.decode e.2) (match b e.1 with
    | .num y => y
    | .escape => Fmt.fp32.decode (((lb.find? fun q => q.1 == e.1).map fun q => q.2).getD 0))))

/-- The step of one entry of the B list. -/
def mmaRight (ftz na : Bool) (a : ℕ → NVal) (t : ℕ × Flags) (e : ℕ × ℕ) : ℕ × Flags :=
  match a e.1 with
  | .num x => mmaStep ftz t (Num.signedBy na (Num.mul x (Fmt.fp32.decode e.2)))
  | .escape => t

/-- The step of the exact sum: none where the sum is zero. -/
def mmaFirst (ftz na : Bool) (n acc : ℕ) (a b : ℕ → NVal) : ℕ × Flags :=
  if (mmaSum na n a b).isZero then (acc, 0) else mmaStep ftz (acc, 0) (mmaSum na n a b).val

section
variable {ftz na : Bool} {n acc k v : ℕ} {a b : ℕ → NVal} {la lb : List (ℕ × ℕ)}

theorem mmaElem_eq (ftz na : Bool) (n acc : ℕ) (a b : ℕ → NVal) (la lb : List (ℕ × ℕ)) : mmaElem ftz na n acc a b la lb =
    lb.foldl (mmaRight ftz na a) (la.foldl (mmaLeft ftz na b lb) (mmaFirst ftz na n acc a b)) := rfl

theorem mmaRight_of_escape {t : ℕ × Flags} {e : ℕ × ℕ} (h : a e.1 = .escape) : mmaRight ftz na a t e = t := by rw [mmaRight, h]

/-- Entries of the B list whose A side is an escape take no step. -/
theorem foldl_mmaRight_of_escapes (h : ∀ p ∈ lb, a p.1 = .escape) (t : ℕ × Flags) : lb.foldl (mmaRight ftz na a) t = t := by
  induction lb generalizing t with
  | nil => rfl
  | cons e lb ih =>
    rw [List.foldl_cons, mmaRight_of_escape (h e (List.mem_cons_self ..))]
    exact ih (fun p hp => h p (List.mem_cons_of_mem _ hp)) t

/-- Entries of the A list whose B side is no escape do not read the B list. -/
theorem foldl_mmaLeft_congr (h : ∀ p ∈ la, b p.1 ≠ .escape) (lb lb' : List (ℕ × ℕ)) (t : ℕ × Flags) :
    la.foldl (mmaLeft ftz na b lb) t = la.foldl (mmaLeft ftz na b lb') t := by
  refine List.foldl_ext _ _ _ fun u e he => ?_
  rw [mmaLeft, mmaLeft]
  cases hb : b e.1 with
  | num y => rfl
  | escape => exact absurd hb (h e he)

theorem mmaElem_snoc_left (h : ∀ p ∈ lb, a p.1 = .escape) : mmaElem ftz na n acc a b (la ++ [(k, v)]) lb =
    mmaLeft ftz na b lb (mmaElem ftz na n acc a b la lb) (k, v) := by
  rw [mmaElem_eq, mmaElem_eq, foldl_mmaRight_of_escapes h, foldl_mmaRight_of_escapes h, List.foldl_append, List.foldl_cons, List.foldl_nil]

theorem mmaElem_snoc_right (h : ∀ p ∈ la, b p.1 ≠ .escape) : mmaElem ftz na n acc a b la (lb ++ [(k, v)]) =
    mmaRight ftz na a (mmaElem ftz na n acc a b la lb) (k, v) := by
  rw [mmaElem_eq, mmaElem_eq, foldl_mmaLeft_congr h (lb ++ [(k, v)]) lb, List.foldl_append, List.foldl_cons, List.foldl_nil]

/-- The step of a finite product. -/
theorem mmaStep_product {t : ℕ × Flags} {x y : Num} (ht : Fmt.fp32.IsFinite t.1) (hx : x.IsFinite) (hy : y.IsFinite)
    (hne : (if na = true then (-1 : ℝ) else 1) * (x.value * y.value) ≠ 0 ∨ Fmt.fp32.value t.1 ≠ 0) :
    PointOf ftz t (mmaStep ftz t (Num.signedBy na (Num.mul x y))) ((if na = true then -1 else 1) * (x.value * y.value)) := by
  have hp := hx.mul hy
  rw [← hx.mul_value hy, ← hp.signedBy_value] at hne ⊢
  exact mmaStep_point ftz ht (hp.signedBy na) hne

/-- The number on the B side of an entry of the A list. -/
theorem mmaLeft_point {t : ℕ × Flags} {bv : ℝ} (ht : Fmt.fp32.IsFinite t.1) (hv : Fmt.fp32.IsFinite v)
    (hb : (∃ w, b k = .num w ∧ w.IsFinite ∧ bv = w.value)
      ∨ (b k = .escape ∧ ∃ w, (lb.find? fun p => p.1 == k) = some (k, w) ∧ Fmt.fp32.IsFinite w ∧ bv = Fmt.fp32.value w))
    (hne : (if na = true then (-1 : ℝ) else 1) * (Fmt.fp32.value v * bv) ≠ 0 ∨ Fmt.fp32.value t.1 ≠ 0) :
    PointOf ftz t (mmaLeft ftz na b lb t (k, v)) ((if na = true then -1 else 1) * (Fmt.fp32.value v * bv)) := by
  rw [mmaLeft]
  rcases hb with ⟨w, hw, hfin, rfl⟩ | ⟨he, w, hfind, hfin, rfl⟩
  · rw [hw]
    rw [← hv.value_decode] at hne ⊢
    exact mmaStep_product ht hv.finite hfin hne
  · simp only [he, hfind, Option.map_some, Option.getD_some]
    rw [← hv.value_decode, ← hfin.value_decode] at hne ⊢
    exact mmaStep_product ht hv.finite hfin.finite hne

end

end Sys2Proof.Machine
end

