-- ==== Sys2Proof/Proofs/RoundedOnce.lean ====
section
/-! PROOFS. Floating-point results over the real numbers, and O60. -/

namespace Sys2Proof.Machine

section
variable {f : Fmt} {a b : ℕ}

theorem Fmt.isNeg_cross (f : Fmt) (a b : ℕ) : (f.sign a != f.sign b) = true ↔ ¬ (f.IsNeg a ↔ f.IsNeg b) := by
  rw [f.isNeg_iff, f.isNeg_iff]
  cases f.sign a <;> cases f.sign b <;> simp

theorem Fmt.not_isNeg (f : Fmt) (a : ℕ) : (!f.sign a) = true ↔ ¬ f.IsNeg a := by
  rw [f.isNeg_iff]
  cases f.sign a <;> simp

/-- A sign under a negation or none. -/
theorem bne_iff_of_iff {n s : Bool} {p : Prop} (h : s = true ↔ p) : (n != s) = true ↔ if n = true then ¬ p else p := by
  rw [← h]
  cases n <;> cases s <;> simp

/-- The sign of an exact zero sum (IEEE 754-2019), by what the signs of the operands mean. -/
theorem zeroSign_iff_of {mode : BitVec 3} {s t : Bool} {p q : Prop} (hs : s = true ↔ p) (ht : t = true ↔ q) :
    zeroSign mode s t = true ↔ (p ∧ q) ∨ (mode = 2 ∧ ¬ (p ↔ q)) := by rw [zeroSign_iff, hs, ht]

theorem Fmt.IsFinite.ite {p : Prop} [Decidable p] (ha : f.IsFinite a) (hb : f.IsFinite b) : f.IsFinite (if p then a else b) := by
  split
  · exact ha
  · exact hb

/-- A value within a range or at the end of it that it is beyond, with its flags (R86). -/
theorem saturated_spec {r : ℤ × Flags} {lo hi v : ℤ} {inexact : Bool} {p : Prop}
    (h : r = if v < lo then (lo, flagNV) else if hi < v then (hi, flagNV) else (v, if inexact then flagNX else 0)) (hp : inexact = true ↔ p) :
    (r = if v < lo then (lo, 0x10) else if hi < v then (hi, 0x10) else (v, r.2))
      ∧ (lo ≤ v → v ≤ hi → (r.2 = 0x01 ∧ p) ∨ (r.2 = 0 ∧ ¬ p)) := by
  rw [← hp]
  constructor
  · rw [h]
    split
    · rfl
    · split <;> rfl
  · intro hlo hhi
    rw [h, if_neg (not_lt.mpr hlo), if_neg (not_lt.mpr hhi)]
    cases inexact
    · exact .inr ⟨rfl, Bool.false_ne_true⟩
    · exact .inl ⟨rfl, rfl⟩

end

/-- Settles O60: an operation is exact on the decoded numbers and `roundMag` rounds its result once; comparisons follow the order of the
bits below the sign; a `VPOLY` and a matrix element take these steps one after another. -/
theorem roundedOnce : Obligations.RoundedOnce := by
  unfold Obligations.RoundedOnce
  refine ⟨?_, ?_, ?_, ?_, ?_⟩
  · intro f mode a b d hf hm ha hb hd x y z infinity invalid sum cross sgn
    have hp := Fmt.proper_of_mem hf
    have hcross := f.isNeg_cross a b
    refine ⟨?_, ?_, ?_, fun hy => ?_, fun hy hx => ?_, fun hy hx => ?_, fun hx => ?_, fun hx => ?_, fun np nd => ?_⟩
    · exact (Fmt.fadd_gives hp hm ha hb).congr fun _ => zeroSign_iff_of (f.isNeg_iff a).symm (f.isNeg_iff b).symm
    · exact (Fmt.fsub_gives hp hm ha hb).congr fun _ => zeroSign_iff_of (f.isNeg_iff a).symm (f.not_isNeg b)
    · exact (Fmt.fmul_gives hp hm ha hb).congr fun _ => hcross
    · exact (Fmt.fdiv_gives hp hm ha hb hy).congr fun _ => hcross
    · rw [Fmt.fdiv_by_zero ha hb hy hx]
      exact ⟨f.infBits_mod _, (f.isNeg_infBits _).trans hcross, rfl⟩
    · exact Fmt.fdiv_zero_zero ha hb hy hx
    · exact (Fmt.fsqrt_gives hp hm ha hx).congr fun _ => (f.isNeg_iff a).symm
    · exact Fmt.fsqrt_of_neg ha hx
    · exact (Fmt.ffma_gives hp hm ha hb hd np nd).congr fun _ =>
        zeroSign_iff_of (bne_iff_of_iff hcross) (bne_iff_of_iff (f.isNeg_iff d).symm)
  · intro f g mode a w sg i hf hg hm ha hw x lo hi
    have hp := Fmt.proper_of_mem hg
    refine ⟨(Fmt.toFmt_gives hp hm ha).congr fun _ => (f.isNeg_iff a).symm, Fmt.ofInt_gives hp hm i, ?_⟩
    obtain ⟨n, hn, inexact, hinexact, hint⟩ := ha.toInt hm w sg
    have hrange : intRange w sg = (lo, hi) := by cases sg <;> rfl
    rw [hrange] at hint
    refine ⟨n, hn, (saturated_spec hint hinexact).1, fun hlo hhi => ?_⟩
    exact ((saturated_spec hint hinexact).2 hlo hhi).imp id fun ⟨h, hn⟩ => ⟨h, not_not.mp hn⟩
  · intro t daz ftz bits f x0 w nseg d clamp point x1 x2 x3 q seg u c p hnseg hbits hx0 hw hpoint hq hp
    have hnlt : nseg < 2 ^ 16 := t.num_lt 0x0C 2
    have htop : (polyPoint x0 w nseg).1 = point nseg := polyPoint_fst hx0 hw (by omega)
    have hbase : (polyPoint x0 w seg).1 = point seg := polyPoint_fst hx0 hw (by omega)
    have hx1 : f.IsFinite x1 := hbits.dazBits Fmt.fp32_proper daz
    have hx2 : (if clamp % 2 == 1 && Num.lt (f.decode x1) (f.decode x0) then x0 else x1) = x2 :=
      if_congr (by rw [Bool.and_eq_true, beq_iff_eq, hx1.lt_iff hx0]) rfl rfl
    have hx2fin : f.IsFinite x2 := hx0.ite hx1
    have hx3 : t.clamped x1 = x3 := by
      rw [CoefTable.clamped, hx2, htop]
      exact if_congr (by rw [Bool.and_eq_true, beq_iff_eq, hpoint.lt_iff hx2fin]) rfl rfl
    obtain ⟨free, fl, h⟩ := polyEval_fst t daz ftz hbits.not_isNan
    dsimp only at h
    rw [h, hx3, polySeg_eq hq, hbase, polyHorner_fst]
    exact Fmt.ftzBits_of_number hp ftz
  · intro f a b hf ha hb high nan sig nv num least x le
    have hp := Fmt.proper_of_mem hf
    have hnan : ∀ v, nan v ↔ f.isNan v = true := fun v => (f.isNan_iff v).symm
    have hsig : ∀ v, sig v ↔ f.isSig v = true := fun v => by rw [Fmt.isSig_iff hp, ← hnan]
    have hnum : ∀ v, num v = f.num v := fun v => rfl
    have hnv : nv = if f.isSig a || f.isSig b then flagNV else 0 := if_congr (by rw [Bool.or_eq_true, hsig, hsig]) rfl rfl
    have hle : le ↔ totalLE f.width a b = true := Iff.rfl
    simp only [hnan, hsig, hnum, hnv, hle, Bool.not_eq_true]
    refine ⟨fun hna hnb => ?_, fun h cond hc => ?_, fun hna hnb => ?_, fun hna hnb => ?_, fun hna hnb => ?_, Fmt.classify_of_sig,
      Fmt.classify_of_quiet, fun he hna => ?_, fun hfin => ?_, fun daz => ⟨fun cond hc => ?_, rfl⟩⟩
    · obtain ⟨heq, hne, hlt, hle', hgt, hge, hun⟩ := Fmt.compare_of_num hna hnb
      exact ⟨heq, hne, hlt, hle', hgt, hge, hun, Fmt.totalLE_num ha hb hna hnb, Fmt.minMax_spec ha hb hna hnb⟩
    · exact Fmt.compare_of_nan h hc
    · exact ⟨Fmt.totalLE_nan_left ha hb hna hnb,
        fun isMax => ⟨Fmt.minMax_of_nan_left hna hnb isMax true, Fmt.minMax_of_nan_left hna hnb isMax false⟩⟩
    · exact ⟨Fmt.totalLE_nan_right ha hb hna hnb,
        fun isMax => ⟨Fmt.minMax_of_nan_right hna hnb isMax true, Fmt.minMax_of_nan_right hna hnb isMax false⟩⟩
    · exact ⟨Fmt.totalLE_bits ha hb, Fmt.minMax_of_nans hna hnb⟩
    · rw [Fmt.classify_infinity hna he, f.isNeg_iff]
      exact ⟨fun h => if_pos h, fun h => if_neg h⟩
    · simpa only [f.isNeg_iff, Bool.not_eq_true] using hfin.classify_spec rfl
    · rw [vfCond_compare f daz hc, Fmt.dazBits_eq ha, Fmt.dazBits_eq hb]
      rfl
  · intro ftz na n acc a b f sgn term total elem hacc ha hb
    have hsum : (mmaSum na n a b).Is total := mmaSum_is na a b n ha hb
    have hfirst : elem [] [] = mmaFirst ftz na n acc a b := mmaElem_eq ..
    refine ⟨fun h0 => ?_, fun h0 => ?_, fun la lb k v bv hlb hv hfin hbv hne => ?_,
      fun la lb k v hla => ⟨fun he => ?_, fun w hw hwf hv hfin hne => ?_⟩⟩
    · rw [hfirst, mmaFirst, hsum.isZero_iff.mpr h0, if_pos rfl]
    · rw [hfirst, mmaFirst, if_neg (mt hsum.isZero_iff.mp h0)]
      rw [← hsum.val_value] at h0 ⊢
      exact mmaStep_point ftz hacc hsum.val_finite (.inl h0)
    · change PointOf ftz _ (mmaElem ftz na n acc a b _ lb) _
      rw [mmaElem_snoc_left hlb]
      exact mmaLeft_point hfin hv hbv hne
    · change mmaElem ftz na n acc a b la _ = _
      rw [mmaElem_snoc_right hla, mmaRight_of_escape he]
    · change PointOf ftz _ (mmaElem ftz na n acc a b la _) _
      rw [mmaElem_snoc_right hla, mmaRight, hw]
      rw [← hv.value_decode] at hne ⊢
      exact mmaStep_product hfin hwf hv.finite hne

end Sys2Proof.Machine
end

