-- ==== Sys2Proof/Proofs/ReadAfterWrite.lean ====
section
/-! PROOFS. Bytes written at a physical address read back (R103, R110), and O9. -/

namespace Sys2Proof.Machine

/-- A write takes up the key of no granule that it does not meet. -/
theorem not_takesGranule {pa n g : Nat} (h : g < pa / 64 ∨ (pa + n - 1) / 64 < g) : ¬ TakesGranule pa n g := by
  unfold TakesGranule
  omega

/-- Settles O9: a write takes up the granules that it meets under its key, with the bytes that it does not write as they read under that
key, and no other. -/
theorem readAfterWrite : Obligations.ReadAfterWrite := by
  unfold Obligations.ReadAfterWrite
  intro s key pa bs hl hk
  refine ⟨fun i hi => ?_, fun a ha => ?_, fun key' a ha => ?_⟩
  · rw [s.putBytes_homeByte _ _ _ _ hl hk, if_pos (by omega), Nat.add_sub_cancel_left, List.getD_eq_getElem _ _ hi]
  · rw [s.putBytes_homeByte _ _ _ _ hl hk, if_neg ha]
  · exact s.putBytes_homeByte_other _ _ _ _ _ (not_takesGranule ha)

end Sys2Proof.Machine
end

