-- ==== Sys2Proof/Proofs/SupervisorResults.lean ====
section
/-! PROOFS. What the supervisor does with a strand that is parked at its place (R111, R115, R339, R340), and O53. -/

namespace Sys2Proof.Machine

/-! ### A strand goes on -/

/-- A strand whose context waits at its place and can go on as soon as what it waits for is there (R345, R347, R348): no pre-emption is
noted, no access of it is on its way, its launch's matrix state has not left the core, and its team's partition and arena are in the
scratchpad. -/
structure WaitsInPlace (s : State) (st : Fin 4) (tk : Task) : Prop where
  task  : (s.strand st).task = some tk
  due   : (s.strand st).preDue = false
  still : s.away st .A = false ∧ s.away st .E = false
  owner : s.mat.owner ≠ some tk.launch
  saved : ∀ e ∈ s.savedMat, e.1 ≠ tk.launch
  scr   : ∀ tm ∈ s.teams, (s.strand st).onTeam tm = true → s.scrSaved tm = false

/-- A strand no longer halted. -/
def State.freed (s : State) (st : Fin 4) : State := s.modStrand st fun x => { x with halt := .none }

section
variable {s : State} {st : Fin 4} {tk : Task} {sel : Halt → Bool}

theorem State.modStrand_congr {f g : Strand → Strand} (h : f (s.strand st) = g (s.strand st)) : s.modStrand st f = s.modStrand st g := by
  rw [State.modStrand, h, State.modStrand]

theorem WaitsInPlace.atStrand (h : WaitsInPlace s st tk) (hs : sel (s.strand st).halt = true) : s.atStrand st sel = some s := by
  unfold State.atStrand
  rw [h.task, hs, if_pos (by rfl)]
  split
  · next t ht => rw [h.scr t (List.mem_of_find?_eq_some ht) (List.find?_some ht), if_neg Bool.false_ne_true]
  · rfl

theorem WaitsInPlace.matReady (h : WaitsInPlace s st tk) (reload : Bool) : s.matReady st reload = some s := by
  have hsaved : (s.savedMat.any fun p => p.1 == tk.launch) = false :=
    List.any_eq_false.mpr fun e he => by simpa using h.saved e he
  unfold State.matReady
  rw [h.task]
  dsimp only
  rw [beq_false_of_ne h.owner, hsaved, if_neg Bool.false_ne_true, if_neg Bool.false_ne_true]

/-- A context that waits at its place goes on there with nothing else changed. -/
theorem WaitsInPlace.unpark (h : WaitsInPlace s st tk) (hs : sel (s.strand st).halt = true) : s.unpark st sel false = some (s.freed st) := by
  obtain ⟨ha, he⟩ := h.still
  rw [State.unpark, h.atStrand hs, Option.bind_some, ha, he, if_neg (by decide), h.matReady, Option.map_some]
  refine congrArg some (State.modStrand_congr ?_)
  have hd := h.due
  generalize s.strand st = x at hd ⊢
  cases x
  cases hd
  rfl

theorem WaitsInPlace.haltedAt (h : WaitsInPlace s st tk) (hs : sel (s.strand st).halt = true) :
    s.haltedAt st sel = some (s.strand st) := by
  rw [State.haltedAt, h.task, hs, if_pos (by rfl)]

/-! ### Entries for missing pages -/

/-- When an entry may be installed (R111, R114, R115). -/
theorem State.mayFill_iff {asid : BitVec 12} {e : W64} : s.mayFill asid e = true ↔
    e.getLsbD 63 = true ∧ vmapReserved e = 0 ∧ Config.withinPolicy (s.itemRev.get 3) asid.toNat e = true
      ∧ ∃ q, s.space asid = some q ∧ ∀ d : Fin 8, q.dies.getLsbD d.val = true → (q.maps.get d).length < 8192
        ∧ ∀ g ∈ q.maps.get d, ¬ (g.getLsbD 63 = true ∧ vmapVpn g = vmapVpn e) := by
  unfold State.mayFill State.permits
  cases s.space asid with
  | none => simp
  | some q =>
    simp only [Bool.and_eq_true, beq_iff_eq, and_assoc, List.all_eq_true, List.mem_finRange, true_implies, Bool.or_eq_true,
      Bool.not_eq_true', decide_eq_true_eq, List.any_eq_true, not_exists, not_and, Option.some.injEq, exists_eq_left', ← Bool.not_eq_true,
      ← imp_iff_not_or]

/-- An entry that may be installed goes behind the others on every die of its space, and into the edit log. -/
theorem State.fillVmap_of_mayFill {asid : BitVec 12} {e : W64} (h : s.mayFill asid e = true) :
    s.fillVmap asid e = { s with
      spaces := s.spaces.map fun q => if q.asid = asid then q.onDies (fun l => l ++ [e]) else q
      editLog := s.editLog ++ [.vmap asid e] } := by
  simp only [State.fillVmap, h, if_true, beq_iff_eq]

theorem State.freed_strand (s : State) (st : Fin 4) : (s.freed st).strand st = { s.strand st with halt := .none } :=
  State.strand_modStrand_same ..

/-- SUPERVISOR_RETRY (R339): the strand goes on, and the entries that may be installed are. -/
theorem execSupervisorRetry_of (h : WaitsInPlace s st tk) (hs : supHalt (fun c => c == cVmapAbsent || c == cSpage) (s.strand st).halt = true)
    (entries : List W64) :
    execSupervisorRetry st entries s = .next (entries.foldl (fun u e => u.fillVmap (s.acc st).asid e) (s.freed st)) := by
  have hacc : ((s.freed st).acc st).asid = (s.acc st).asid := by simp [State.freed, State.acc, Strand.acc]
  rw [execSupervisorRetry, h.unpark hs]
  dsimp only
  rw [hacc]

/-! ### The handler and the end of a launch -/

theorem State.window_modStrand (f : Strand → Strand) : (s.modStrand st f).window = s.window := rfl

theorem State.keyless_modStrand (f : Strand → Strand) : (s.modStrand st f).keyless = s.keyless := rfl

theorem State.scrBase_modStrand (f : Strand → Strand) : (s.modStrand st f).scrBase = s.scrBase := rfl

theorem State.checkTarget_modStrand (f : Strand → Strand) (a : Acc) (va : W64) (pa : Nat) :
    (s.modStrand st f).checkTarget a va pa = s.checkTarget a va pa := by
  rw [State.checkTarget, State.window_modStrand, State.keyless_modStrand, State.scrBase_modStrand, State.checkTarget]

theorem State.vmapOf_modStrand (f : Strand → Strand) (asid : BitVec 12) : (s.modStrand st f).vmapOf asid = s.vmapOf asid := rfl

theorem State.vecXlate_modStrand (f : Strand → Strand) (a : Acc) (va : W64) (r w : Bool) :
    (s.modStrand st f).vecXlate a va r w = s.vecXlate a va r w := by
  simp only [State.vecXlate, State.xlateVia, State.checkTarget_modStrand, State.vmapOf_modStrand]

theorem State.frameLines_modStrand (f : Strand → Strand) (a : Acc) (va : W64) (r w : Bool) :
    (s.modStrand st f).frameLines a va r w = s.frameLines a va r w := by
  simp only [State.frameLines, State.vecXlate_modStrand]

theorem State.inPart_modStrand (f : Strand → Strand) (a : Acc) (pa : Nat) : (s.modStrand st f).inPart a pa = s.inPart a pa := by
  simp only [State.inPart, State.ownScr, State.scrBase, State.modStrand_core]

theorem CanEnter.freed {lines : List Nat} (h : CanEnter s st lines) : CanEnter (s.freed st) st lines := by
  refine { outside := ?_, vec := ?_, frame := ?_, aligned := ?_, xlate := ?_, inside := fun pa hpa => ?_ } <;> rw [State.freed_strand]
  · exact h.outside
  · exact h.vec
  · exact h.frame
  · exact h.aligned
  · exact (State.frameLines_modStrand ..).trans h.xlate
  · exact (State.inPart_modStrand ..).trans (h.inside pa hpa)

/-- How a strand was halted is none of what it keeps at its handler. -/
theorem AtHandler.of_halt {x y : Strand} {k : StreamId} {cause : Byte} {tpc tval : W64} {vec fwd : Bool} {halt : Halt}
    (h : AtHandler { x with halt := halt } y k cause tpc tval vec fwd) : AtHandler x y k cause tpc tval vec fwd :=
  { h with }

/-- SUPERVISOR_FORWARD (R339): the strand takes the cause that it was parked for, with fwd set. -/
theorem execSupervisorForward_of (h : WaitsInPlace s st tk) {c : Byte} {tpc tval : W64} {vec : Bool} {k : StreamId}
    (hh : (s.strand st).halt = .supervisor c tpc tval vec k) (hpol : c = cPoison → s.forwardsPoison (s.strand st) = true) :
    execSupervisorForward st s = .next ((s.freed st).enter st k c tpc tval vec true (if vec then (s.strand st).e.pc else tpc)) := by
  have hs : supHalt (fun _ => true) (s.strand st).halt = true := by rw [hh]; rfl
  have hgo : (c == cPoison && !s.forwardsPoison (s.strand st)) = false := by
    by_cases hc : c = cPoison
    · rw [hpol hc, Bool.not_true, Bool.and_false]
    · rw [beq_false_of_ne hc, Bool.false_and]
  simp only [execSupervisorForward, h.haltedAt hs, hh, hgo, h.unpark hs, State.freed_strand, Bool.false_eq_true, if_false]

/-- SUPERVISOR_KILL (R339): the launch ends TRAPPED, with the cause and the low half of the `WID` in the detail (R328). -/
theorem execSupervisorKill_of (h : WaitsInPlace s st tk) (hs : supHalt (fun c => c == cPoison) (s.strand st).halt = true)
    (hpol : s.forwardsPoison (s.strand st) = false) :
    execSupervisorKill st s = .next (s.endLaunch tk.launch 0x11 ((s.strand st).wid <<< 32 ||| 8)) := by
  simp only [execSupervisorKill, h.haltedAt hs, h.task, hpol, Bool.false_eq_true, if_false]
  rfl

theorem mapVec_get {α β : Type} {n : Nat} (f : α → β) (v : Vector α n) (i : Fin n) : (mapVec f v).get i = f (v.get i) := by
  change (mapVec f v)[i.val] = f v[i.val]
  simp [mapVec]

theorem State.id_of_launch {id : BitVec 32} {l : Launch} (h : s.launch id = some l) : (l.id == id) = true :=
  List.find?_some (p := fun m : Launch => m.id == id) h

/-- The strands of a launch that ends early have stopped (R324). -/
theorem State.endLaunch_strand (id : BitVec 32) (status : Byte) (detail : W64) :
    (s.endLaunch id status detail).strand st = if (s.strand st).of id then (s.strand st).stopped else s.strand st :=
  mapVec_get ..

theorem Strand.stopped_over (x : Strand) : x.stopped.over = true := by
  simp only [Strand.over, Strand.stopped, Stream.over]
  split <;> rfl

end

/-- Settles O53: the parked strand goes on at its place, and what the supervisor does next starts from there. -/
theorem supervisorResults : Obligations.SupervisorResults := by
  unfold Obligations.SupervisorResults
  intro s st tk c tpc tval vec k x htask hhalt hdue ha he howner hsaved hscr freed
  have hw : WaitsInPlace s st tk := ⟨htask, hdue, ⟨ha, he⟩, howner, hsaved, hscr⟩
  have hsup : ∀ ok : Byte → Bool, ok c = true → supHalt ok (s.strand st).halt = true := fun ok hc =>
    (congrArg (supHalt ok) hhalt).trans hc
  refine ⟨fun hc => ?_, fun lines hpol hlines => ?_, fun l hc hpol hl hr => ?_⟩
  · have hretry := execSupervisorRetry_of hw (hsup _ (by rcases hc with rfl | rfl <;> rfl))
    refine ⟨hretry [], fun e => ⟨_, hretry [e], ?_⟩⟩
    have hmay := State.mayFill_iff (s := s.freed st) (asid := (s.acc st).asid) (e := e)
    by_cases hm : (s.freed st).mayFill (s.acc st).asid e = true
    · refine ⟨?_, ?_, fun _ => ?_, fun hn => absurd (hmay.mp hm) hn⟩ <;> rw [List.foldl_cons, List.foldl_nil, State.fillVmap_of_mayFill hm]
      · rfl
      · rfl
      · exact ⟨rfl, rfl⟩
    · refine ⟨?_, ?_, fun h => absurd (hmay.mpr h) hm, fun _ => ?_⟩ <;> rw [List.foldl_cons, List.foldl_nil, State.fillVmap, if_neg hm]
      · rfl
      · rfl
      · exact ⟨rfl, rfl⟩
  · refine ⟨_, execSupervisorForward_of hw hhalt hpol, ?_⟩
    rw [State.enter_strand hlines.freed, State.freed_strand]
    exact ⟨(Strand.atHandler_trapRegs ..).of_halt, rfl⟩
  · refine ⟨_, l.ended 0x11 (x.wid <<< 32 ||| 8), execSupervisorKill_of hw (hsup _ (by rw [hc]; rfl)) hpol, ?_, ?_, ?_, ?_, rfl⟩
    · rw [State.launch_endLaunch, hl, Option.map_some, if_pos (State.id_of_launch hl)]
    · rw [l.ended_running _ _ hr]
    · rw [l.ended_running _ _ hr]
    · have hof : (s.strand st).of tk.launch = true := by rw [Strand.of, htask]; exact beq_self_eq_true _
      rw [State.endLaunch_strand, if_pos hof, Strand.stopped_over]

end Sys2Proof.Machine
end

