-- ==== Sys2Proof/Proofs/RcpFrames.lean ====
section
/-! PROOFS. Frames of RCP and their replies (R359, R360): which frames are served, refused and dropped; entries of a table replaced. -/

namespace Sys2Proof.Machine

/-! ### Replies -/

@[simp] theorem length_leBytes (n v : Nat) : (leBytes n v).length = n := by
  induction n generalizing v with
  | zero => rfl
  | succ n ih => rw [leBytes, List.length_cons, ih]

/-- The message of a reply, byte by byte (R359). -/
def replyMsg (r : Rcp) (kind : BitVec 16) (status : BitVec 32) (body : List Byte) : Msg :=
  .reply r.session ([0x52, 0x43, 0x50, 0x46, 1, 0] ++ leBytes 2 (kind ||| 0x8000).toNat ++ leBytes 4 r.tag.toNat
    ++ leBytes 4 (4 + body.length) ++ leBytes 4 status.toNat ++ body)

/-- A request answered: one reply sent, with strands and memory as they were. -/
def Answered (s t : State) (r : Rcp) (kind : BitVec 16) (status : BitVec 32) (body : List Byte) : Prop :=
  t.sent = s.sent ++ [replyMsg r kind status body] ∧ t.strands = s.strands ∧ t.mem = s.mem

section
variable {s u : State} {r : Rcp} {kind : BitVec 16} {status : BitVec 32} {body : List Byte}

theorem rcpFrame_reply (tag : BitVec 32) : rcpFrame kind tag (leBytes 4 status.toNat ++ body) =
    [0x52, 0x43, 0x50, 0x46, 1, 0] ++ leBytes 2 kind.toNat ++ leBytes 4 tag.toNat ++ leBytes 4 (4 + body.length)
      ++ leBytes 4 status.toNat ++ body := by
  have hmagic : leBytes 4 rcpMagic.toNat ++ [1, 0] = [0x52, 0x43, 0x50, 0x46, 1, 0] := by decide
  simp only [rcpFrame, hmagic, List.length_append, length_leBytes, List.append_assoc]

theorem State.reply_sent (s : State) (r : Rcp) (kind : BitVec 16) (status : BitVec 32) (body : List Byte) :
    (s.reply r kind status body).sent = s.sent ++ [replyMsg r kind status body] := by
  rw [State.reply, State.send, rcpFrame_reply, replyMsg]

/-- A reply after a change of other fields than what is sent, the strands and memory. -/
theorem State.reply_answered (hsent : u.sent = s.sent) (hstrands : u.strands = s.strands) (hmem : u.mem = s.mem) :
    Answered s (u.reply r kind status body) r kind status body :=
  ⟨by rw [State.reply_sent, hsent], hstrands, hmem⟩

theorem State.reply_self (s : State) : Answered s (s.reply r kind status body) r kind status body := State.reply_answered rfl rfl rfl

/-! ### Frames served, refused and dropped -/

/-- A frame of RCP that fits a body (R359), of the major version of its session, if there is one (R360). -/
structure Framed (s : State) (r : Rcp) : Prop where
  magic : r.magic = rcpMagic
  major : ∀ x, s.session r.session = some x → r.major = x.major
  len   : r.len.toNat ≤ rcpBody

variable {fits : Nat → Bool}

theorem Framed.heard (h : Framed s r) : (r.magic != rcpMagic || (s.session r.session).any fun x => r.major != x.major) = false := by
  rw [h.magic, bne_self_eq_false, Bool.false_or, Option.any_eq_false]
  intro x hx
  rw [h.major x hx, bne_self_eq_false]

theorem Framed.onFrame (h : Framed s r) {f : Option Session → State} (hf : fits r.len.toNat = true) :
    s.onFrame r kind fits f = f (s.session r.session) := by
  have hlen : ¬ (decide (rcpBody < r.len.toNat) || !fits r.len.toNat) = true := by
    rw [hf, decide_eq_false (not_lt.mpr h.len)]
    decide
  rw [State.onFrame, h.heard, if_neg Bool.false_ne_true, if_neg hlen]

/-- A body that is not of its kind's length is answered 0x31. -/
theorem Framed.onFrame_malformed (h : Framed s r) {f : Option Session → State} (hf : fits r.len.toNat = false) :
    s.onFrame r kind fits f = s.reply r kind 0x31 [] := by
  rw [State.onFrame, h.heard, hf, if_neg Bool.false_ne_true, Bool.not_false, Bool.or_true, if_pos rfl]

/-- A frame with another magic or of another major version than its session's is dropped and counted. -/
theorem State.onFrame_dropped {f : Option Session → State} (h : r.magic ≠ rcpMagic ∨ ∃ x, s.session r.session = some x ∧ r.major ≠ x.major) :
    s.onFrame r kind fits f = s.dropFrame := by
  have hd : (r.magic != rcpMagic || (s.session r.session).any fun x => r.major != x.major) = true := by
    rcases h with h | ⟨x, hx, h⟩
    · rw [bne_iff_ne.mpr h, Bool.true_or]
    · rw [hx, Option.any_some, bne_iff_ne.mpr h, Bool.or_true]
  rw [State.onFrame, if_pos hd]

variable {x : Session} {f : Session → State}

theorem Framed.serveRcp (h : Framed s r) (hx : s.session r.session = some x) (hf : fits r.len.toNat = true) :
    s.serveRcp r kind fits f = .next (f x) := by
  rw [State.serveRcp, h.onFrame hf, hx]
  rfl

theorem Framed.serveRcp_malformed (h : Framed s r) (hx : s.session r.session = some x) (hf : fits r.len.toNat = false) :
    s.serveRcp r kind fits f = .next (s.reply r kind 0x31 []) := by
  rw [State.serveRcp, h.onFrame_malformed hf, hx]
  rfl

theorem State.serveRcp_noSession (hx : s.session r.session = none) (hm : r.magic = rcpMagic) :
    s.serveRcp r kind fits f = .next (s.reply r kind 0x32 []) := by
  rw [State.serveRcp, hx, hm]
  rfl

theorem State.serveRcp_otherMagic (hm : r.magic ≠ rcpMagic) : s.serveRcp r kind fits f = .next s.dropFrame := by
  rw [State.serveRcp, State.onFrame_dropped (.inl hm), beq_false_of_ne hm, Bool.and_false, if_neg Bool.false_ne_true]

theorem State.serveRcp_otherMajor (hx : s.session r.session = some x) (hm : r.major ≠ x.major) :
    s.serveRcp r kind fits f = .next s.dropFrame := by
  rw [State.serveRcp, State.onFrame_dropped (.inr ⟨x, hx, hm⟩), hx]
  rfl

end

/-! ### An entry of a table replaced -/

section
variable {α : Type} {p q : α → Bool} {l : List α} {a : α}

theorem find?_replaced (h : p a = true) : ((l.filter fun x => !p x) ++ [a]).find? p = some a := by
  have hnone : (l.filter fun x => !p x).find? p = none :=
    List.find?_eq_none.mpr fun x hx => by simpa using (List.mem_filter.mp hx).2
  rw [List.find?_append, hnone, Option.none_or, List.find?_cons_of_pos h]

theorem find?_filter_of_imp (h : ∀ x, q x = true → p x = true) : (l.filter p).find? q = l.find? q := by
  rw [List.find?_filter]
  refine congrArg (List.find? · l) (funext fun x => ?_)
  cases hq : q x with
  | false => simp
  | true => simp [h x hq]

theorem find?_append_of_false {b : List α} (h : ∀ x ∈ b, q x = false) : (l ++ b).find? q = l.find? q := by
  have hnone : b.find? q = none := List.find?_eq_none.mpr fun x hx => by rw [h x hx]; exact Bool.false_ne_true
  rw [List.find?_append, hnone, Option.or_none]

end

end Sys2Proof.Machine
end

