-- ==== Sys2Proof/Proofs/RcpCommands.lean ====
section
/-! PROOFS. What the commands of an open session leave: sessions, endpoints, windows, readiness, attestation, spaces (R111, R360 to R363, R366, R367). -/

namespace Sys2Proof.Machine

/-! ### Sessions, endpoints and windows -/

section
variable {s : State} {r : Rcp} {x : Session}

theorem State.openSession_known {versions : List (Byte × Byte)} {asid : BitVec 16} (hl : versions.length ≤ 16) (ha : asid.toNat < 4096)
    (hv : (1, 0) ∈ versions) :
    s.openSession r versions asid = ({ s with
      sessions := (s.sessions.filter fun y : Session => !(y.id == r.session))
        ++ [({ id := r.session, major := 1, minor := 0, asid := asid.setWidth 12 } : Session)]
      measured := s.measured.filter fun m => m.1 != r.session }).reply r 1 0 [1, 0] := by
  have hgo : (decide (16 < versions.length) || decide (4096 ≤ asid.toNat) || !versions.contains (1, 0)) = false := by
    rw [decide_eq_false (not_lt.mpr hl), decide_eq_false (not_le.mpr ha), List.contains_iff_mem.mpr hv]
    rfl
  rw [State.openSession, hgo]
  rfl

theorem State.openSession_unknown {versions : List (Byte × Byte)} (asid : BitVec 16) (hv : (1, 0) ∉ versions) :
    s.openSession r versions asid = s.reply r 1 0x31 [] := by
  have hc : versions.contains ((1, 0) : Byte × Byte) = false := Bool.eq_false_iff.mpr fun h => hv (List.contains_iff_mem.mp h)
  rw [State.openSession, hc, Bool.not_false, Bool.or_true, if_pos rfl]

theorem execEndpointReg_of (h : Framed s r) (hx : s.session r.session = some x) (ep : BitVec 32) {ws : List Nat} (hlen : ws.length = 16)
    (hws : ∀ w ∈ ws, w ≤ 1000) :
    execEndpointReg r ep ws s = .next (({ s with
      endpoints := (s.endpoints.filter fun y : Endpoint => !(y.id == ep)) ++ [({ id := ep, windows := ws } : Endpoint)] }).reply r 3 0 []) := by
  have hgo : (ws.length != 16 || ws.any fun w => decide (1000 < w)) = false := by
    rw [hlen, bne_self_eq_false, Bool.false_or, List.any_eq_false]
    intro w hw
    rw [decide_eq_true_iff, not_lt]
    exact hws w hw
  rw [execEndpointReg, h.serveRcp hx rfl, hgo]
  rfl

/-- The flags of a WINDOW_REG that installs a window without a pinned range. -/
theorem WindowReq.flags_of {q : WindowReq} (hf : q.flags = 0 ∨ q.flags = 1) :
    q.flags.toNat < 8 ∧ q.flags.getLsbD 1 = false ∧ q.flags.getLsbD 2 = false := by
  rcases hf with hf | hf <;> rw [hf] <;> decide

/-- The body of a WINDOW_REG that installs a window without a pinned range keeps its layout (R363). -/
theorem windowOk_of {q : WindowReq} (hn : q.window.toNat < 4096) (hf : q.flags = 0 ∨ q.flags = 1) (hz : q.zeros = 0)
    (hl : q.len.toNat % 4096 = 0) (hva : q.pinVa = 0) (hpl : q.pinLen = 0) : windowOk q = true := by
  obtain ⟨hlt, -, h2⟩ := WindowReq.flags_of hf
  rw [windowOk, decide_eq_true hn, decide_eq_true hlt, hz, hl, h2, hva, hpl]
  rfl

/-- WINDOW_REG of a window without a pinned range (R363, R111): installed where the policy permits it, else answered 0x33. -/
theorem execWindowReg_of (h : Framed s r) (hx : s.session r.session = some x) {q : WindowReq} (hlen : r.len = 40)
    (hok : windowOk q = true) (hf : q.flags = 0 ∨ q.flags = 1) :
    execWindowReg r q s = .next (if s.permits x.asid q.base then (s.setWindow q []).reply r 4 0 [] else s.reply r 4 0x33 []) := by
  obtain ⟨-, h1, h2⟩ := WindowReq.flags_of hf
  have hpin : s.pinFrames x q = some [] := by
    rw [State.pinFrames, h2]
    rfl
  have hfits : (r.len.toNat == 40) = true := by rw [hlen]; rfl
  rw [execWindowReg, h.serveRcp hx hfits, hok, h1, hpin]
  cases s.permits x.asid q.base <;> rfl

theorem State.setWindow_window (s : State) {q : WindowReq} (h1 : q.flags.getLsbD 1 = false) (pinned : List Nat) :
    (s.setWindow q pinned).window (q.flags.getLsbD 0) q.window.toNat =
      some { number := q.window.toNat, peer := q.flags.getLsbD 0, base := q.base, len := q.len.toNat, pinned := pinned } := by
  rw [State.window, State.setWindow]
  dsimp only
  rw [h1]
  exact find?_replaced (by rw [beq_self_eq_true, beq_self_eq_true]; rfl)

/-! ### Readiness -/

theorem State.readyMap_length (s : State) : s.readyMap.length = 64 := by rw [State.readyMap, List.length_map, List.length_range]

theorem State.readyMap_getD (s : State) {i : Nat} (hi : i < 64) :
    s.readyMap.getD i 0 = if 24 ≤ i ∧ i < 32 ∧ s.readiness.get (fin 64 i) = 2 ∧ s.dieReady (i - 24) = false then 1
      else s.readiness.get (fin 64 i) := by
  rw [State.readyMap, List.getD_eq_getElem _ _ (by rwa [List.length_map, List.length_range]), List.getElem_map, List.getElem_range]
  refine if_congr ?_ rfl rfl
  rw [Bool.and_eq_true, Bool.and_eq_true, Bool.and_eq_true, decide_eq_true_iff, decide_eq_true_iff, beq_iff_eq, Bool.not_eq_true',
    and_assoc, and_assoc]

/-! ### Attestation -/

theorem State.hasReport_iff {session index : Nat} : s.hasReport session index = true ↔ (session, index) ∈ s.measured :=
  List.contains_iff_mem

/-- The session that asks for a report holds it from then on (R111, R367). -/
theorem State.report_measured (s : State) (r : Rcp) (i : Nat) : (r.session, i) ∈ (s.report r i).measured := by
  change (r.session, i) ∈ if s.hasReport r.session i then s.measured else s.measured ++ [(r.session, i)]
  split
  · next h => exact State.hasReport_iff.mp h
  · exact List.mem_append_right _ (List.mem_singleton_self _)

theorem State.setKey_of {slot : BitVec 6} (hs : slot ≠ 0) (hm : ∀ i, i ∈ [3, 4, 5] → (r.session, i) ∈ s.measured) (pair : BitVec 512) :
    s.setKey r slot pair =
      ({ s with keys := s.keys.set slot.toNat (some pair) slot.isLt }).reply r 6 0 (Config.spdmReply s.tick) := by
  have hr : ∀ i, i ∈ [3, 4, 5] → s.hasReport r.session i = true := fun i hi => State.hasReport_iff.mpr (hm i hi)
  rw [State.setKey, hr 3 (by decide), hr 4 (by decide), hr 5 (by decide), beq_false_of_ne hs]
  rfl

/-! ### Address spaces -/

theorem SpaceReq.setWidth_asid {q : SpaceReq} {asid : BitVec 12} (h : q.asid = asid.setWidth 16) : q.asid.setWidth 12 = asid := by
  rw [h, BitVec.setWidth_setWidth_of_le _ (by decide), BitVec.setWidth_eq]

/-- SPACE_SET that creates a space (R362). -/
theorem execSpaceSet_new (h : Framed s r) (hx : s.session r.session = some x) {q : SpaceReq} (hlen : r.len = 16) (hflags : q.flags = 0)
    (hok : spaceOk q = true) (hasid : q.asid = x.asid.setWidth 16) (hkey : s.keyless (q.key.setWidth 6) = false)
    (hroom : ∀ d, d < 8 → q.dies.getLsbD d = true → s.dieFull x.asid d = false) (hnew : s.space x.asid = none) :
    execSpaceSet r q s = .next ((s.putSpace q).reply r 8 0 []) := by
  have hfits : (r.len.toNat == 16) = true := by rw [hlen]; rfl
  have hfull : ((List.range 8).any fun d => q.dies.getLsbD d && s.dieFull x.asid d) = false := by
    rw [List.any_eq_false]
    intro d hd hf
    obtain ⟨hdies, hf⟩ := Bool.and_eq_true_iff.mp hf
    rw [hroom d (List.mem_range.mp hd) hdies] at hf
    exact Bool.false_ne_true hf
  have hw : s.withdraws x.asid q.dies = false := by rw [State.withdraws, hnew]; rfl
  rw [execSpaceSet, h.serveRcp hx hfits]
  dsimp only
  rw [SpaceReq.setWidth_asid hasid, hok, ← hasid, bne_self_eq_false, hflags, hfull, hkey, hw]
  rfl

/-- A slot that holds a key, or that of plaintext, is not without a key (R110, R111). -/
theorem State.keyless_of {key : Byte} (hlt : key.toNat < 64) (h : key = 0 ∨ s.keys.get (fin 64 key.toNat) ≠ none) :
    s.keyless (key.setWidth 6) = false := by
  rcases h with rfl | h
  · rfl
  · have hfin : (⟨(key.setWidth 6).toNat, (key.setWidth 6).isLt⟩ : Fin 64) = fin 64 key.toNat :=
      Fin.ext (BitVec.toNat_setWidth ..)
    rw [State.keyless, hfin, Option.isNone_eq_false_iff.mpr (Option.ne_none_iff_isSome.mp h), Bool.and_false]

theorem spaceOk_of {q : SpaceReq} (hflags : q.flags = 0) (hkey : q.key.toNat < 64) (hz : q.zeros = 0) (hroot : q.root.toNat % 4096 = 0)
    (hlt : q.root.toNat < 2 ^ 56) : spaceOk q = true := by
  rw [spaceOk, hflags, decide_eq_true hkey, hz, hroot, decide_eq_true hlt]
  rfl

/-- The space that a request creates, with empty maps on its dies (R362). -/
theorem State.putSpace_new {q : SpaceReq} {asid : BitVec 12} (hid : q.asid.setWidth 12 = asid) (hnew : s.space asid = none) :
    (s.putSpace q).space asid =
      some { asid := asid, key := q.key.setWidth 6, root := q.root, dies := q.dies, maps := Vector.replicate 8 [] } := by
  have hmaps : (Vector.ofFn fun d : Fin 8 => if q.dies.getLsbD d.val then keptMap (s.space asid) d else [])
      = Vector.replicate 8 [] := by
    ext d hd
    rw [hnew]
    simp [keptMap]
  rw [State.putSpace, State.space]
  dsimp only
  rw [hid, hmaps]
  exact find?_replaced (beq_self_eq_true _)

end

end Sys2Proof.Machine
end

