-- ==== Sys2Proof/Proofs/VmapSet.lean ====
section
/-! PROOFS. Entries installed in the vector maps of a space (R114, R362) and the fence that follows (R120, R121). -/

namespace Sys2Proof.Machine

/-! ### Vector maps -/

section
variable {s : State} {r : Rcp} {x : Session}

/-- What a map holds for a VA once an entry is installed (R362): that entry, or nothing where it removes, if it is of the VA's page. -/
theorem vmapEntry_installEntry (vmap : List W64) (e va : W64) : vmapEntry (installEntry vmap e) va =
    if vmapVpn e = fld va 30 27 then (if e.getLsbD 63 then some e else none) else vmapEntry vmap va := by
  rw [vmapEntry, installEntry]
  by_cases hv : vmapVpn e = fld va 30 27
  · have hold : (vmap.filter fun f => vmapVpn f != vmapVpn e).find? (fun f => f.getLsbD 63 && vmapVpn f == fld va 30 27) = none := by
      refine List.find?_eq_none.mpr fun f hf => ?_
      have hne : vmapVpn f ≠ vmapVpn e := bne_iff_ne.mp (List.mem_filter.mp hf).2
      rw [beq_false_of_ne (hv ▸ hne), Bool.and_false]
      exact Bool.false_ne_true
    rw [List.find?_append, hold, Option.none_or, if_pos hv]
    cases h63 : e.getLsbD 63 with
    | false => rfl
    | true => simp [h63, hv]
  · rw [find?_append_of_false, find?_filter_of_imp, if_neg hv, vmapEntry]
    · intro f hf
      obtain ⟨-, hf⟩ := Bool.and_eq_true_iff.mp hf
      rw [eq_of_beq hf]
      exact bne_iff_ne.mpr (Ne.symm hv)
    · intro f hf
      obtain rfl : f = e := by
        split at hf
        · exact List.mem_singleton.mp hf
        · cases hf
      rw [beq_false_of_ne hv, Bool.and_false]

/-- What a map holds for a VA once entries of different pages are installed (R362). -/
theorem vmapEntry_install (va : W64) {entries : List W64} (hn : (entries.map vmapVpn).Nodup) (vmap : List W64) :
    vmapEntry (entries.foldl installEntry vmap) va =
      (entries.find? fun e => vmapVpn e == fld va 30 27).elim (vmapEntry vmap va) fun e => if e.getLsbD 63 then some e else none := by
  induction entries generalizing vmap with
  | nil => rfl
  | cons e es ih =>
    obtain ⟨he, hes⟩ := List.nodup_cons.mp hn
    rw [List.foldl_cons, ih hes, vmapEntry_installEntry]
    by_cases hv : vmapVpn e = fld va 30 27
    · have hnone : es.find? (fun e => vmapVpn e == fld va 30 27) = none :=
        List.find?_eq_none.mpr fun f hf hb => he (List.mem_map.mpr ⟨f, hf, (eq_of_beq hb).trans hv.symm⟩)
      rw [hnone, if_pos hv, List.find?_cons, beq_iff_eq.mpr hv]
      rfl
    · rw [if_neg hv, List.find?_cons, beq_false_of_ne hv]

theorem length_foldl_installEntry (entries vmap : List W64) : (entries.foldl installEntry vmap).length ≤ vmap.length + entries.length := by
  induction entries generalizing vmap with
  | nil => exact Nat.le_refl _
  | cons e es ih =>
    have hstep : (installEntry vmap e).length ≤ vmap.length + 1 := by
      rw [installEntry, List.length_append]
      refine Nat.add_le_add (List.length_filter_le ..) ?_
      split
      · exact Nat.le_refl _
      · exact Nat.zero_le _
    have := ih (installEntry vmap e)
    rw [List.foldl_cons, List.length_cons]
    omega

theorem Space.onDies_get (p : Space) (f : List W64 → List W64) (d : Fin 8) :
    (p.onDies f).maps.get d = if p.dies.getLsbD d.val then f (p.maps.get d) else p.maps.get d := Vector.getElem_ofFn ..

/-- Entries for which every map has room leave no map overfull (R16, R114). -/
theorem Space.install_fits {p : Space} {entries : List W64} (h : ∀ d, (p.maps.get d).length + entries.length ≤ 8192) :
    (p.install entries).overfull = false := by
  rw [Space.overfull, List.any_eq_false]
  intro m hm
  obtain ⟨d, hd, rfl⟩ := Vector.mem_iff_getElem.mp (Vector.mem_toList_iff.mp hm)
  have hget : (p.install entries).maps[d] = _ := p.onDies_get (fun m => entries.foldl installEntry m) ⟨d, hd⟩
  rw [hget, decide_eq_true_iff, not_lt]
  have hroom := h ⟨d, hd⟩
  split
  · exact (length_foldl_installEntry ..).trans hroom
  · omega

theorem anyTwice_of_nodup {l : List Nat} (h : l.Nodup) : anyTwice l = false := by
  induction l with
  | nil => rfl
  | cons a t ih =>
    obtain ⟨ha, ht⟩ := List.nodup_cons.mp h
    rw [anyTwice, ih ht, Bool.or_false, Bool.eq_false_iff]
    exact fun hc => ha (List.contains_iff_mem.mp hc)

/-- The state with entries installed for a space on its dies, and in the edit log (R111, R362). -/
def State.installed (s : State) (asid : BitVec 12) (entries : List W64) : State := { s with
  spaces := s.spaces.map fun p => if p.asid == asid then p.install entries else p
  editLog := s.editLog ++ entries.map fun e => .vmap asid e }

theorem State.installed_space {asid : BitVec 12} {p : Space} (h : s.space asid = some p) (entries : List W64) :
    (s.installed asid entries).space asid = some (p.install entries) := by
  have hid : ∀ q : Space, (if q.asid == asid then q.install entries else q).asid = q.asid := fun q => by split <;> rfl
  have hp : ((fun q : Space => q.asid == asid) ∘ fun q => if q.asid == asid then q.install entries else q) = fun q => q.asid == asid :=
    funext fun q => congrArg (· == asid) (hid q)
  have hasid : (p.asid == asid) = true := List.find?_some (p := fun q : Space => q.asid == asid) h
  unfold State.space at h
  rw [State.space, State.installed, List.find?_map, hp, h, Option.map_some, if_pos hasid]

/-- VMAP_SET of entries of different pages, permitted and with room for them (R111, R121, R362). -/
theorem execVmapSet_of (h : Framed s r) (hx : s.session r.session = some x) {hdr : W64} {entries : List W64} {p : Space}
    (hzero : fld hdr 32 32 = 0) (hcount : fld hdr 16 16 = entries.length) (hmax : entries.length ≤ 1024)
    (hasid : fld hdr 0 16 = x.asid.toNat) (hp : s.space x.asid = some p) (hlen : r.len.toNat = 8 + 8 * entries.length)
    (hentries : ∀ e ∈ entries, vmapReserved e = 0 ∧ (e.getLsbD 63 = true → s.permits x.asid e = true))
    (hn : (entries.map vmapVpn).Nodup) (hroom : ∀ d, (p.maps.get d).length + entries.length ≤ 8192)
    (hdone : s.translatedDone x.asid = true) :
    execVmapSet r hdr entries s = .next (((s.installed x.asid entries).vmfence x.asid).reply r 9 0 []) := by
  have hreserved : (entries.any fun e => vmapReserved e != 0) = false := by
    rw [List.any_eq_false]
    intro e he
    rw [(hentries e he).1, bne_self_eq_false]
    exact Bool.false_ne_true
  have hpermits : (entries.all fun e => !e.getLsbD 63 || s.permits x.asid e) = true := by
    rw [List.all_eq_true]
    intro e he
    cases h63 : e.getLsbD 63 with
    | false => rfl
    | true => rw [(hentries e he).2 h63, Bool.or_true]
  have hfits : ((s.space x.asid).any fun p => (p.install entries).overfull) = false := by
    rw [hp, Option.any_some, Space.install_fits hroom]
  have hbody : (fld hdr 32 32 != 0 || fld hdr 16 16 != entries.length || decide (1024 < entries.length)) = false := by
    rw [hzero, hcount, bne_self_eq_false, bne_self_eq_false, decide_eq_false (not_lt.mpr hmax)]
    rfl
  have hspace : (fld hdr 0 16 != x.asid.toNat || (s.space x.asid).isNone) = false := by
    rw [hasid, bne_self_eq_false, hp]
    rfl
  have hbytes : (r.len.toNat == 8 + 8 * entries.length) = true := beq_iff_eq.mpr hlen
  rw [execVmapSet, h.serveRcp hx hbytes]
  dsimp only
  rw [hbody, hspace, hreserved, anyTwice_of_nodup hn, hpermits, hfits, hdone]
  rfl

/-- A fence of a resident space advances its generation (R120). -/
theorem State.vmfence_gens {asid : BitVec 12} {p : Space} (h : s.space asid = some p) :
    (s.vmfence asid).gens.get asid.toNat = s.gens.get asid.toNat + 1 := by
  have hg : (s.vmfence asid).gens = s.gens.set asid.toNat (s.genOf asid + 1) := by
    rw [State.vmfence, h]
    rfl
  rw [hg, Tab.get_set, if_pos rfl, State.genOf]

/-- A fence of a space empties the caches of every stream that runs in it (R121). -/
theorem State.vmfence_tlb {asid : BitVec 12} {st : Fin 4} (h : (s.strand st).inSpace asid = true) (k : StreamId) :
    ((s.vmfence asid).stream st k).tlb = [] := by
  have hx : (s.vmfence asid).strand st = (s.strand st).dropTlbs asid := mapVec_get ..
  rw [State.stream, hx, Strand.dropTlbs, if_pos h]
  cases k <;> rfl

end

end Sys2Proof.Machine
end

