-- ==== Sys2Proof/Proofs/CommandResults.lean ====
section
/-! PROOFS. Each command's answer and effect (R359 to R363, R366 to R368), and O58. -/

namespace Sys2Proof.Machine

/-! ### What commands do and answer -/

section
variable {s : State} {r : Rcp} {x : Session}

/-- SESSION_OPEN (R360): the session of the frame is open with version 1.0 where the host speaks it, and holds no report yet. -/
theorem execSessionOpen_spec (h : Framed s r) {versions : List (Byte × Byte)} (asid : BitVec 16) :
    (versions.length ≤ 16 → asid.toNat < 4096 → (1, 0) ∈ versions → ∃ t, exec (.sessionOpen r versions asid) s = .next t
      ∧ t.session r.session = some { id := r.session, major := 1, minor := 0, asid := asid.setWidth 12 }
      ∧ (∀ m ∈ t.measured, m.1 ≠ r.session) ∧ Answered s t r 1 0 [1, 0])
    ∧ ((1, 0) ∉ versions → ∃ t, exec (.sessionOpen r versions asid) s = .next t ∧ t.sessions = s.sessions ∧ Answered s t r 1 0x31 []) := by
  rw [exec_sessionOpen, execSessionOpen, h.onFrame rfl]
  refine ⟨fun hl ha hv => ⟨_, rfl, ?_, ?_, ?_⟩, fun hv => ⟨_, rfl, ?_, ?_⟩⟩
  · rw [State.openSession_known hl ha hv]
    exact find?_replaced (beq_self_eq_true _)
  · rw [State.openSession_known hl ha hv]
    exact fun m hm => bne_iff_ne.mp (List.mem_filter.mp hm).2
  · rw [State.openSession_known hl ha hv]
    exact State.reply_answered rfl rfl rfl
  · rw [State.openSession_unknown _ hv]
    rfl
  · rw [State.openSession_unknown _ hv]
    exact State.reply_self s

/-- A kind without a meaning is answered 0x30 (R359). -/
theorem execUnknownKind_spec (h : Framed s r) {kind : BitVec 16} (hk : 9 < kind.toNat) :
    ∃ t, exec (.unknownKind r kind) s = .next t ∧ Answered s t r kind 0x30 [] := by
  refine ⟨_, ?_, State.reply_self s⟩
  rw [exec_unknownKind, execUnknownKind, decide_eq_false (not_le.mpr hk), Bool.and_false, if_neg Bool.false_ne_true, h.onFrame rfl]

/-- Frames of a command that is served to a session: one without a session is answered 0x32, one with another magic or of another major
version is dropped and counted (R359, R360). -/
theorem State.serveRcp_turnedAway {i : Instr} {kind : BitVec 16} {fits : Nat → Bool} {f : Session → State}
    (hi : exec i s = s.serveRcp r kind fits f) :
    (s.session r.session = none → r.magic = rcpMagic → ∃ t, exec i s = .next t ∧ t.dropped = s.dropped
        ∧ ∃ kind, Answered s t r kind 0x32 [])
    ∧ (r.magic ≠ rcpMagic → exec i s = .next { s with dropped := s.dropped + 1 })
    ∧ ∀ x, s.session r.session = some x → r.major ≠ x.major → exec i s = .next { s with dropped := s.dropped + 1 } := by
  rw [hi]
  exact ⟨fun hx hm => ⟨_, State.serveRcp_noSession hx hm, rfl, kind, State.reply_self s⟩, State.serveRcp_otherMagic,
    fun x => State.serveRcp_otherMajor⟩

/-- ENDPOINT_REG (R329, R361): the endpoint has the windows of the request, and every other is as it was. -/
theorem execEndpointReg_spec (h : Framed s r) (hx : s.session r.session = some x) (ep : BitVec 32) {ws : List Nat} (hlen : ws.length = 16)
    (hws : ∀ w ∈ ws, w ≤ 1000) : ∃ t, exec (.endpointReg r ep ws) s = .next t
      ∧ t.endpoint ep = some { id := ep, windows := ws } ∧ (∀ e, e ≠ ep → t.endpoint e = s.endpoint e) ∧ Answered s t r 3 0 [] := by
  refine ⟨_, execEndpointReg_of h hx ep hlen hws, find?_replaced (beq_self_eq_true _), fun e he => ?_, State.reply_answered rfl rfl rfl⟩
  refine (find?_append_of_false fun y hy => ?_).trans (find?_filter_of_imp fun y hy => ?_)
  · rw [List.mem_singleton.mp hy]
    exact beq_false_of_ne he.symm
  · rw [eq_of_beq hy, beq_false_of_ne he]
    rfl

/-- READINESS_QUERY (R366, R371): the map as it is read. -/
theorem execReadinessQuery_spec (h : Framed s r) (hx : s.session r.session = some x) (hlen : r.len = 0) :
    ∃ t, exec (.readinessQuery r) s = .next t ∧ ∃ body, Answered s t r 5 0 body ∧ body.length = 64
      ∧ ∀ i, i < 64 → body.getD i 0 = if 24 ≤ i ∧ i < 32 ∧ s.readiness.get (fin 64 i) = 2 ∧ s.dieReady (i - 24) = false then 1
          else s.readiness.get (fin 64 i) := by
  have hfits : (r.len.toNat == 0) = true := by rw [hlen]; rfl
  exact ⟨_, h.serveRcp hx hfits, _, State.reply_self s, s.readyMap_length, fun i hi => s.readyMap_getD hi⟩

/-- FW_UPDATE (R368): a chunk goes behind those before it; the whole image is staged where its signature verifies. -/
theorem execFwUpdate_spec (h : Framed s r) (hx : s.session r.session = some x) (chunk : List Byte) :
    (∃ t, exec (.fwUpdate r chunk false) s = .next t ∧ t.incoming = s.incoming ++ chunk ∧ t.firmware = s.firmware ∧ Answered s t r 7 0 [])
    ∧ ∃ t, exec (.fwUpdate r chunk true) s = .next t
      ∧ t.staged = (if Config.imageSigned (s.incoming ++ chunk) then some (s.incoming ++ chunk) else s.staged)
      ∧ t.incoming = [] ∧ t.firmware = s.firmware ∧ Answered s t r 7 (if Config.imageSigned (s.incoming ++ chunk) then 0 else 0x33) [] := by
  refine ⟨⟨_, h.serveRcp hx rfl, rfl, rfl, State.reply_answered rfl rfl rfl⟩, ⟨_, h.serveRcp hx rfl, ?_⟩⟩
  rw [if_pos rfl, State.stage]
  split
  · exact ⟨rfl, rfl, rfl, State.reply_answered rfl rfl rfl⟩
  · exact ⟨rfl, rfl, rfl, State.reply_answered rfl rfl rfl⟩

/-- WINDOW_REG (R363, R111) of a window without a pinned range. -/
theorem execWindowReg_spec (h : Framed s r) (hx : s.session r.session = some x) {q : WindowReq} (hlen : r.len = 40)
    (hok : windowOk q = true) (hf : q.flags = 0 ∨ q.flags = 1) :
    ∃ t, exec (.windowReg r q) s = .next t ∧ Answered s t r 4 (if s.permits x.asid q.base then 0 else 0x33) []
      ∧ t.window (q.flags.getLsbD 0) q.window.toNat = (if s.permits x.asid q.base then some
          { number := q.window.toNat, peer := q.flags.getLsbD 0, base := q.base, len := q.len.toNat, pinned := [] }
          else s.window (q.flags.getLsbD 0) q.window.toNat)
      ∧ t.editLog = s.editLog ++ (if s.permits x.asid q.base
          then [.window (q.flags.getLsbD 0) false q.window.toNat q.base q.len.toNat] else []) := by
  obtain ⟨-, h1, -⟩ := WindowReq.flags_of hf
  refine ⟨_, execWindowReg_of h hx hlen hok hf, ?_⟩
  split
  · refine ⟨State.reply_answered rfl rfl rfl, s.setWindow_window h1 [], ?_⟩
    change s.editLog ++ [_] = _
    rw [h1]
  · exact ⟨State.reply_self s, rfl, (List.append_nil _).symm⟩

/-- SPDM for a measurement (R367): the report carries the hash of what it measures. -/
theorem execSpdm_measure (h : Framed s r) (hx : s.session r.session = some x) {i : Nat} (hlo : 1 ≤ i) (hhi : i ≤ 6) :
    ∃ t pre post, exec (.spdm r (.measure i)) s = .next t ∧ (r.session, i) ∈ t.measured
      ∧ Answered s t r 6 0 (pre ++ shake256 (s.measuredContent i) ++ post) ∧ t.editLog = if i = 3 then [] else s.editLog := by
  have hi : (decide (1 ≤ i) && decide (i ≤ 6)) = true := by rw [decide_eq_true hlo, decide_eq_true hhi]; rfl
  have hrun : execSpdm r (.measure i) s = .next (s.report r i) := (h.serveRcp hx rfl).trans (congrArg _ (if_pos hi))
  refine ⟨_, _, _, hrun, s.report_measured r i, State.reply_answered rfl rfl rfl, ?_⟩
  exact if_congr beq_iff_eq rfl rfl

/-- SPDM for a key pair (R110, R111): it is in its slot, and every other slot is as it was. -/
theorem execSpdm_setKey (h : Framed s r) (hx : s.session r.session = some x) {slot : BitVec 6} (pair : BitVec 512) (hs : slot ≠ 0)
    (hm : ∀ i, i ∈ [3, 4, 5] → (r.session, i) ∈ s.measured) :
    ∃ t body, exec (.spdm r (.setKey slot pair)) s = .next t ∧ Answered s t r 6 0 body
      ∧ ∀ j : Fin 64, t.keys.get j = if j.val = slot.toNat then some pair else s.keys.get j := by
  have hrun : execSpdm r (.setKey slot pair) s = .next (s.setKey r slot pair) := h.serveRcp hx rfl
  rw [State.setKey_of hs hm] at hrun
  refine ⟨_, _, hrun, State.reply_answered rfl rfl rfl, fun j => ?_⟩
  change (s.keys.set slot.toNat (some pair) slot.isLt).get j = _
  split
  · next hj =>
    obtain rfl : j = ⟨slot.toNat, slot.isLt⟩ := Fin.ext hj
    exact vec_get_set_same ..
  · next hj => exact vec_get_set_other _ _ slot.isLt _ _ (Ne.symm hj)

/-- SPDM for a change of the address-map policy (R111): the keys are cleared, its reports are outdated, and every session is told. -/
theorem execSpdm_change (h : Framed s r) (hx : s.session r.session = some x) :
    ∃ t body, exec (.spdm r (.change 3)) s = .next t ∧ t.keys = State.reset.keys ∧ (∀ m ∈ t.measured, m.2 ≠ 3 ∧ m.2 ≠ 4 ∧ m.2 ≠ 5)
      ∧ t.sent = s.sent ++ s.sessions.map (fun y => Msg.measurementChanged y.id) ++ [replyMsg r 6 0 body] := by
  have hrun : execSpdm r (.change 3) s = .next ((s.policyChange 3).reply r 6 0 (Config.spdmReply s.tick)) := h.serveRcp hx rfl
  refine ⟨_, _, hrun, rfl, fun m hm => ?_, State.reply_sent ..⟩
  have hold := (List.mem_filter.mp hm).2
  simpa [and_assoc] using hold

/-- SPACE_SET of a space that is not resident (R362): it is, with empty maps. -/
theorem execSpaceSet_spec (h : Framed s r) (hx : s.session r.session = some x) {q : SpaceReq} (hlen : r.len = 16) (hflags : q.flags = 0)
    (hok : spaceOk q = true) (hasid : q.asid = x.asid.setWidth 16) (hkey : s.keyless (q.key.setWidth 6) = false)
    (hroom : ∀ d, d < 8 → q.dies.getLsbD d = true → s.dieFull x.asid d = false) (hnew : s.space x.asid = none) :
    ∃ t, exec (.spaceSet r q) s = .next t ∧ Answered s t r 8 0 []
      ∧ t.gens = s.gens ∧ ∃ p, t.space x.asid = some p ∧ p.asid = x.asid ∧ p.key = q.key.setWidth 6 ∧ p.root = q.root ∧ p.dies = q.dies
        ∧ ∀ d, p.maps.get d = [] := by
  exact ⟨_, execSpaceSet_new h hx hlen hflags hok hasid hkey hroom hnew, State.reply_answered rfl rfl rfl, rfl, _,
    State.putSpace_new (SpaceReq.setWidth_asid hasid) hnew, rfl, rfl, rfl, rfl, fun d => Vector.getElem_replicate d.isLt⟩

/-- The state that a VMAP_SET leaves (R121, R362): the entries are in the maps of the space's dies, and its fence has run. -/
theorem State.vmapSet_leaves {entries : List W64} {p : Space} {asid : BitVec 12} (hp : s.space asid = some p)
    (hn : (entries.map vmapVpn).Nodup) :
    let t := ((s.installed asid entries).vmfence asid).reply r 9 0 []
    ∃ p', t.space asid = some p' ∧ t.sent = s.sent ++ [replyMsg r 9 0 []] ∧ t.editLog = s.editLog ++ entries.map (.vmap asid)
      ∧ t.gens.get asid.toNat = s.gens.get asid.toNat + 1
      ∧ (∀ d : Fin 8, p.dies.getLsbD d.val = true → ∀ va, vmapEntry (p'.maps.get d) va =
          (entries.find? fun e => vmapVpn e == fld va 30 27).elim (vmapEntry (p.maps.get d) va) fun e => if e.getLsbD 63 then some e else none)
      ∧ (∀ d : Fin 8, p.dies.getLsbD d.val = false → p'.maps.get d = p.maps.get d)
      ∧ ∀ st k, (s.strand st).inSpace asid = true → (t.stream st k).tlb = [] := by
  have hi := State.installed_space hp entries
  refine ⟨p.install entries, hi, State.reply_sent .., rfl, State.vmfence_gens hi, fun d hd va => ?_, fun d hd => ?_,
    fun st k hst => State.vmfence_tlb (s := s.installed asid entries) hst k⟩
  · rw [Space.install, Space.onDies_get, if_pos hd]
    exact vmapEntry_install va hn _
  · rw [Space.install, Space.onDies_get, if_neg (Bool.eq_false_iff.mp hd)]

end

/-- Settles O58: a frame that is in order is served, and each command's answer and effect are those of its lemma above. -/
theorem commandResults : Obligations.CommandResults := by
  unfold Obligations.CommandResults
  intro s r frame magic answered
  refine ⟨fun versions asid hm hl hv => execSessionOpen_spec ⟨hm, hv, hl⟩ asid,
    fun kind hlo hhi hm hl hv => execUnknownKind_spec ⟨hm, hv, hl⟩ hlo, fun i hi => ?_, fun x hx hm hv hl => ?_⟩
  · simp only [List.mem_cons, List.not_mem_nil, or_false] at hi
    rcases hi with rfl | rfl | rfl
    · exact State.serveRcp_turnedAway (exec_readinessQuery r s)
    · exact State.serveRcp_turnedAway (exec_fwUpdate r [] false s)
    · exact State.serveRcp_turnedAway (exec_endpointReg r 0 [] s)
  · have h : Framed s r := ⟨hm, fun y hy => by rw [hv, Option.some.inj (hx.symm.trans hy)], hl⟩
    refine ⟨fun hlen => ?_, fun ep ws => execEndpointReg_spec h hx ep, execReadinessQuery_spec h hx,
      fun chunk => (execFwUpdate_spec h hx chunk).1, fun chunk => (execFwUpdate_spec h hx chunk).2,
      fun q hn hf hz hl hva hpl hlen => execWindowReg_spec h hx hlen (windowOk_of hn hf hz hl hva hpl) hf,
      fun i => execSpdm_measure h hx, fun slot pair => execSpdm_setKey h hx pair, execSpdm_change h hx,
      fun q hf hk hz hroot hlt hasid hkey hlen => execSpaceSet_spec h hx hlen hf (spaceOk_of hf hk hz hroot hlt) hasid (State.keyless_of hk hkey),
      fun hdr entries p hzero hcount hmax hasid hp hlen hentries hn hroom hdone => ?_⟩
    · have hfits : (r.len.toNat == 0) = false := beq_false_of_ne fun h0 => hlen (BitVec.eq_of_toNat_eq h0)
      exact ⟨_, h.serveRcp_malformed hx hfits, rfl, State.reply_self s⟩
    · obtain ⟨p', hp', hsent, hlog, hgen, hon, hoff, htlb⟩ := State.vmapSet_leaves (r := r) hp hn
      refine ⟨_, p', execVmapSet_of h hx hzero hcount hmax hasid hp hlen hentries hn hroom hdone, hp', hsent, hlog, hgen,
        fun d hd va => ?_, hoff, htlb⟩
      rw [hon d hd va]
      cases entries.find? fun e => vmapVpn e == fld va 30 27 <;> rfl

end Sys2Proof.Machine
end

