-- ==== Sys2Proof/Proofs/PlatResults.lean ====
section
/-! PROOFS. A plat that passes the checks of R133, `PLATCO` under a cleared key slot (R111, R142), and the refutation of O49. -/

namespace Sys2Proof.Machine

/-! ### Plats that pass the checks -/

/-- A handle names a plat that passes every check of R133 without a read of its index bytes. -/
structure Usable (s : State) (st : Fin 4) (w : W64) (p : Plat) : Prop where
  aligned : w.toNat % 64 = 0
  found : s.findPlat st w.toNat = some p
  fresh : p.reason = 0
  sealed : p.verify = false
  gen : p.gen = s.genOf (s.acc st).asid

section
variable {s : State} {st : Fin 4} {w : W64} {p : Plat}

theorem State.readsIdx_sealed (h : p.verify = false) : s.readsIdx st p = false := by
  rw [State.readsIdx, h, Bool.and_false]

/-- A plat that is not in verify mode makes an apply wait for no stack (R107, R131). -/
theorem Usable.not_verifyHeld (h : Usable s st w p) : s.verifyHeld st w = false := by
  rw [State.verifyHeld, State.verifyPas, h.found]
  dsimp only
  rw [State.readsIdx_sealed h.sealed]
  rfl

theorem Usable.freshness (h : Usable s st w p) : s.freshness st .A p = (s, 0) := by
  simp [State.freshness, h.fresh, h.gen, h.sealed]

theorem Usable.platCheck (h : Usable s st w p) : s.platCheck st .A w = (s, .ok p) := by
  simp [State.platCheck, h.aligned, h.found, State.digestFault, State.readsIdx_sealed h.sealed, h.freshness]

end

/-! ### PLATCO under a cleared key slot -/

/-- `PLATCO` of usable plats, with room for the result, reads the index bytes of both, and where some lie in HBM and the strand's key slot
has been cleared since the plats were built, that read traps `PROT` (R111, R122, R142). -/
theorem State.platco_cleared {s : State} {st : Fin 4} {rd xc xa xb : Reg} {a b : Plat} (ha : Usable s st (s.readX st .A xa) a)
    (hb : Usable s st (s.readX st .A xb) b) (hlsz : a.lsz = b.lsz) (hidx : ∀ i ∈ b.idx, i.toNat < a.n)
    (hroom : s.buildCheck st (s.readX st .A xc) b.n = none) (hheld : s.anyHeld ((a.ranges ++ b.ranges).flatMap rangePas) = false)
    (hkey : s.keyless (s.acc st).key = true) (hhbm : ((a.ranges ++ b.ranges).flatMap rangePas).any isHbm = true) :
    s.platco st rd xc xa xb = s.trap st .A cProt (Config.openTval s.tick) := by
  have hin : (b.idx.zipIdx.find? fun e => a.n ≤ e.1.toNat) = none := by
    simp only [List.find?_eq_none, decide_eq_true_eq, Nat.not_le]
    exact fun e he => hidx _ (List.fst_mem_of_mem_zipIdx he)
  have hfault : (s.idxFault st ((a.ranges ++ b.ranges).flatMap rangePas)).isSome = true := by
    rw [State.idxFault, hkey, hhbm]
    rfl
  simp [State.platco, ha.not_verifyHeld, hb.not_verifyHeld, ha.platCheck, hb.platCheck, hlsz, hin, hroom, hheld, hfault, -List.flatMap_append]

/-- The A-stream that executed it is at its handler. -/
theorem execPlatco_cleared {s t : State} {st : Fin 4} {rd xc xa xb : Reg} {lines : List Nat} (hagent : s.cur.agent = .stream st .A)
    (htrap : CanTrap s st lines) (hco : s.platco st rd xc xa xb = s.trap st .A cProt (Config.openTval s.tick))
    (ht : exec (.platco rd xc xa xb) s = .next t) : (t.stream st .A).pc = (s.strand st).tvec := by
  rw [exec_platco, execPlatco, onStream_eq hagent, if_neg (by decide), hco] at ht
  rw [← Host.Outcome.next.inj ht]
  exact (State.trap_atHandler htrap (fun e => absurd e (by decide)) (by decide) _).pc

/-- There is room for a plat of n elements at a handle: in the arena, in the directory, clear of other plats, and in writable bytes. -/
structure HasRoom (s : State) (st : Fin 4) (m : Team) (h : W64) (n : Nat) : Prop where
  aligned : h.toNat % 64 = 0
  arena : h.toNat + (64 + 24 * n + 256) ≤ (s.strand st).platsize.toNat
  directory : m.plats.length < 256
  clear : s.overlapped st h.toNat (64 + 24 * n + 256) = []
  bytes : Writable s ((List.range (64 + 24 * n + 256)).map fun i => s.scrBase + (s.strand st).platbase.toNat + h.toNat + i)

/-- O49 says of a state in which `PLATCO` traps instead that the A-stream goes on behind it. -/
theorem platResults_composed (h : Obligations.PlatResults) {s : State} {st : Fin 4} {rd xc xa xb : Reg} {m : Team} {a b : Plat}
    {lines : List Nat} (hagent : s.cur.agent = .stream st .A) (htrap : CanTrap s st lines)
    (hteam : s.teamOf st = some m) (hteams : s.teams = [m])
    (ha : Usable s st (s.readX st .A xa) a) (hb : Usable s st (s.readX st .A xb) b) (hlsz : a.lsz = b.lsz)
    (hidx : ∀ i ∈ b.idx, i.toNat < a.n) (hlen : b.idx.length = b.n) (hroom : HasRoom s st m (s.readX st .A xc) b.n)
    (hheld : s.anyHeld ((a.ranges ++ b.ranges).flatMap rangePas) = false)
    (hco : s.platco st rd xc xa xb = s.trap st .A cProt (Config.openTval s.tick)) : (s.strand st).tvec = s.nextPc st .A := by
  unfold Obligations.PlatResults at h
  obtain ⟨-, hcompose, -⟩ := h s st rd xc xa xb 0 false 0 m hagent hteam fun u hu _ => by rwa [hteams, List.mem_singleton] at hu
  obtain ⟨t, -, ht, -, -, -, -, -, -, -, hpc, -⟩ := hcompose a b ⟨ha.aligned, ha.found, ha.fresh, ha.sealed, ha.gen⟩
    ⟨hb.aligned, hb.found, hb.fresh, hb.sealed, hb.gen⟩ ⟨hroom.aligned, hroom.arena, hroom.directory, hroom.clear, hroom.bytes⟩ hlsz hidx hlen hheld
  exact (execPlatco_cleared hagent htrap hco ht).symm.trans hpc

/-- Consecutive bytes, clear of the headers of the only team's plats, are writable. -/
theorem writable_run {s : State} {pa n : Nat} {m : Team} (hteams : s.teams = [m])
    (h : ∀ i < n, s.heldAt (pa + i) = false ∧ s.lostAt (pa + i) = false
      ∧ ∀ p ∈ m.plats, pa + i ≠ platPa m p + 5 ∧ pa + i ≠ platPa m p + 6) :
    Writable s ((List.range n).map fun i => pa + i) where
  distinct := List.nodup_range.map fun _ _ h => Nat.add_left_cancel h
  awake := by simpa using fun i hi => (h i hi).1
  kept := by simpa using fun i hi => (h i hi).2.1
  apart := by
    simp only [List.mem_map, List.mem_range, forall_exists_index, and_imp, forall_apply_eq_imp_iff₂]
    rintro i hi ⟨t, ht, p, hp, hat⟩
    rw [hteams, List.mem_singleton] at ht
    subst ht
    obtain ⟨-, -, hmarks⟩ := h i hi
    exact hat.elim (hmarks p hp).1 (hmarks p hp).2

/-! ### A state with a cleared key slot -/

/-- A plat of one element in the partition, whose index bytes lie in HBM under a seal. -/
def composedFrom (h key : Nat) : Plat where
  h := h
  n := 1
  iw := true
  lsz := 2
  base := 0x40000000
  idx := [0]
  ta := [0x40000000]
  pas := [[2 ^ 52, 2 ^ 52 + 1, 2 ^ 52 + 2, 2 ^ 52 + 3]]
  wr := [true]
  ranges := [[{ pa := 0x4000, len := 8 }]]
  gen := 0
  composed := false
  verify := false
  digest := 0
  seals := [some key]
  body := 24
  reason := 0
  released := none

/-- The two plats that are composed. -/
def outerPlat : Plat := composedFrom 0 (256 * 4096)

def innerPlat : Plat := composedFrom 0x80 (256 * 4096 + 1)

theorem innerPlat_inside : ∀ i ∈ innerPlat.idx, i.toNat < outerPlat.n := fun i hi => by
  rw [List.mem_singleton.mp hi]
  decide

/-- The team of the task that composes them. -/
def composingTeam : Team where
  launch := 0
  team := 0
  core := 0
  strands := [0]
  base := 0
  arena := 0x10000
  plats := [outerPlat, innerPlat]
  relSeq := 0
  lines := []
  ops := []

/-- Its strand: the key slot is 1, the frame lies in the partition, and `x10` and `x11` hold the handles of the result and of the second
plat. -/
def composingStrand (x : Strand) : Strand :=
  { x with
    task := some { launch := 0, team := 0, ix := 0, reruns := 0 }
    aspace := 0x1000
    tvec := 0x2000
    tframe := 0x40000000
    spsize := 0x10000
    platbase := 0x10000
    platsize := 0x10000
    a := { x.a with status := .run, x := (x.a.x.set 10 0x100).set 11 0x80 } }

/-- `PLATCO` is about to execute while no key slot holds a key. Page 1 is the core's own scratchpad (R101). -/
def clearedKey : State :=
  { State.reset.modStrand 0 composingStrand with
    cur := { agent := .stream 0 .A, words := (encode (.platco 5 10 0 11)).getD [] }
    readiness := Vector.replicate 64 2
    teams := [composingTeam]
    seals := [{ key := 256 * 4096, pa := 0x4000, len := 8 }, { key := 256 * 4096 + 1, pa := 0x4000, len := 8 }]
    spaces := [{ asid := 0, key := 1, root := 0x1000, dies := 0xFF, maps := Vector.replicate 8 [BitVec.ofNat 64 (7 * 2 ^ 61 + 2 ^ 53 + 1)] }] }

/-- The lines of the frame. -/
def clearedKeyLines : List Nat := (List.range 160).map fun i => 2 ^ 52 + 64 * i

theorem clearedKey_frameLines : clearedKey.frameLines (clearedKey.strand 0).acc (clearedKey.strand 0).tframe false true = .ok clearedKeyLines := by
  decide +kernel

theorem clearedKey_canTrap : CanTrap clearedKey 0 clearedKeyLines := by
  refine ⟨⟨?_, ?_, ?_, ?_, clearedKey_frameLines, ?_⟩, ?_⟩ <;> decide +kernel

theorem clearedKey_outer : Usable clearedKey 0 (clearedKey.readX 0 .A 0) outerPlat := by
  constructor <;> decide +kernel

theorem clearedKey_inner : Usable clearedKey 0 (clearedKey.readX 0 .A 11) innerPlat := by
  constructor <;> decide +kernel

theorem nodup_run (pa n : Nat) : ((List.range n).map fun i => pa + i).Nodup :=
  List.nodup_range.map fun _ _ h => Nat.add_left_cancel h

/-- The PA of the result's header. -/
def clearedKeyFoot : Nat := clearedKey.scrBase + (clearedKey.strand 0).platbase.toNat + (clearedKey.readX 0 .A 10).toNat

theorem clearedKey_apart : ∀ i < 64 + 24 * innerPlat.n + 256,
    clearedKey.heldAt (clearedKeyFoot + i) = false ∧ clearedKey.lostAt (clearedKeyFoot + i) = false
      ∧ ∀ p ∈ composingTeam.plats, clearedKeyFoot + i ≠ platPa composingTeam p + 5 ∧ clearedKeyFoot + i ≠ platPa composingTeam p + 6 := by
  decide +kernel

theorem clearedKey_hasRoom : HasRoom clearedKey 0 composingTeam (clearedKey.readX 0 .A 10) innerPlat.n where
  aligned := by decide +kernel
  arena := by decide +kernel
  directory := by decide +kernel
  clear := by decide +kernel
  bytes := writable_run rfl clearedKey_apart

theorem clearedKey_room : clearedKey.buildCheck 0 (clearedKey.readX 0 .A 10) innerPlat.n = none := by decide +kernel

theorem clearedKey_unheld : clearedKey.anyHeld ((outerPlat.ranges ++ innerPlat.ranges).flatMap rangePas) = false := by decide +kernel

theorem clearedKey_platco : clearedKey.platco 0 5 10 0 11 = clearedKey.trap 0 .A cProt (Config.openTval clearedKey.tick) :=
  State.platco_cleared clearedKey_outer clearedKey_inner rfl innerPlat_inside clearedKey_room clearedKey_unheld (by decide +kernel)
    (by decide +kernel)

/-- Refutes O49: its clause about `PLATCO` does not ask that the strand's key slot still holds its key. With the slot cleared since two plats
were built, `PLATCO` of them cannot read their index bytes in HBM and traps `PROT` (R111, R122): the A-stream is then at its handler, not
behind a plat built. -/
theorem not_platResults : ¬ Obligations.PlatResults := fun h =>
  absurd (platResults_composed h rfl clearedKey_canTrap (by decide +kernel) rfl clearedKey_outer clearedKey_inner rfl innerPlat_inside rfl
    clearedKey_hasRoom clearedKey_unheld clearedKey_platco) (by decide +kernel)

end Sys2Proof.Machine
end

