-- ==== Sys2Proof/Proofs/EngineWrites.lean ====
section
/-! PROOFS. What a write of an engine leaves (R103, R110, R118, R299): the stores that the write-combining buffer held to its lines drain first,
and beside the bytes written and what marks plats and resident rows nothing changes. -/

namespace Sys2Proof.Machine

variable {s t u v : State} {key pa n x : Nat} {bs : List Byte} {ws ws' : List (Nat × Byte)}

/-! ### What writes change -/

/-- Nothing differs but memory, its keys and its poison, the plats of teams, saved scratchpads and resident rows. -/
def Rewritten (s t : State) : Prop :=
  ∃ mem keyTag poison teams savedScr mat savedMat others,
    t = { s with mem := mem, keyTag := keyTag, poison := poison, teams := teams, savedScr := savedScr, mat := mat, savedMat := savedMat
                 others := others }

theorem Rewritten.refl (s : State) : Rewritten s s := ⟨_, _, _, _, _, _, _, _, rfl⟩

theorem Rewritten.trans (h : Rewritten s t) (g : Rewritten t u) : Rewritten s u := by
  obtain ⟨_, _, _, _, _, _, _, _, rfl⟩ := h
  obtain ⟨_, _, _, _, _, _, _, _, rfl⟩ := g
  exact ⟨_, _, _, _, _, _, _, _, rfl⟩

theorem Rewritten.foldl {α : Type} (f : State → α → State) (hf : ∀ u a, Rewritten u (f u a)) (l : List α) (s : State) :
    Rewritten s (l.foldl f s) :=
  foldl_keeps (Rewritten s) f (fun u a hu => hu.trans (hf u a)) l s (.refl s)

theorem Rewritten.heldAt (h : Rewritten s t) (x : Nat) : t.heldAt x = s.heldAt x := by
  obtain ⟨_, _, _, _, _, _, _, _, rfl⟩ := h
  rfl

theorem Rewritten.lostAt (h : Rewritten s t) (x : Nat) : t.lostAt x = s.lostAt x := by
  obtain ⟨_, _, _, _, _, _, _, _, rfl⟩ := h
  rfl

theorem Rewritten.wcb (h : Rewritten s t) : t.wcb = s.wcb := by
  obtain ⟨_, _, _, _, _, _, _, _, rfl⟩ := h
  rfl

theorem State.putBytes_rewritten (s : State) (key pa : Nat) (bs : List Byte) : Rewritten s (s.putBytes key pa bs) :=
  ⟨_, _, _, _, _, _, _, _, s.putBytes_frame key pa bs⟩

theorem State.putLine_rewritten (s : State) (es : List WcbEntry) : Rewritten s (s.putLine es) :=
  (Rewritten.foldl _ (fun u (e : Nat × Nat × Byte × Byte) => u.putBytes_rewritten e.1 e.2.1 _) _ s).trans ⟨_, _, _, _, _, _, _, _, rfl⟩

theorem State.platHdr_rewritten (s : State) (t : Team) (p : Plat) : Rewritten s (s.platHdr t p) := by
  unfold State.platHdr
  split
  · exact ⟨_, _, _, _, _, _, _, _, rfl⟩
  · exact s.putBytes_rewritten _ _ _

theorem State.setPlats_rewritten (s : State) (sel : Team → Plat → Bool) (f : Plat → Plat) : Rewritten s (s.setPlats sel f) := by
  refine Rewritten.trans (Rewritten.foldl _ (fun u t => Rewritten.foldl _ (fun u p => ?_) _ u) s.teams s) ⟨_, _, _, _, _, _, _, _, rfl⟩
  split
  · exact u.platHdr_rewritten t _
  · exact .refl u

theorem State.sealMark_rewritten (f : Nat) (s : State) (pa n : Nat) : Rewritten s (State.sealMark f s pa n) := by
  induction f generalizing s pa n with
  | zero => exact .refl s
  | succ f ih =>
    unfold State.sealMark
    dsimp only
    split
    · exact .refl s
    · exact (s.setPlats_rewritten _ _).trans (Rewritten.foldl _ (fun u a => ih u _ _) _ _)

theorem State.modPlats_rewritten (s : State) (sel : Team → Plat → Bool) (f : Plat → Plat) : Rewritten s (s.modPlats sel f) :=
  (s.setPlats_rewritten sel f).trans (Rewritten.foldl _ (fun u _ => u.sealMark_rewritten _ _ _) _ _)

/-- The plats that a write marks, before the resident rows. -/
def State.markPlats (s : State) (pa n : Nat) : State := (State.sealMark s.sealDepth s pa n).footMark pa n

theorem State.markPlats_headers (s : State) (pa n : Nat) : HeadersOnly s (s.markPlats pa n) := by
  have h := (HeadersOnly.refl s).sealMark (f := s.sealDepth) (pa := pa) (n := n)
  unfold State.markPlats State.footMark
  split
  · exact h.modPlats fun p => p.stale_h 5
  · exact h

theorem State.markPlats_rewritten (s : State) (pa n : Nat) : Rewritten s (s.markPlats pa n) := by
  have h := s.sealMark_rewritten s.sealDepth pa n
  unfold State.markPlats State.footMark
  split
  · exact h.trans (State.modPlats_rewritten _ _ _)
  · exact h

theorem State.markWrite_eq (s : State) (pa n : Nat) : s.markWrite pa n = s.markPlats pa n
    ∨ s.markWrite pa n = (s.markPlats pa n).mapCores fun c => c.touch pa n := by
  unfold State.markWrite
  dsimp only
  split
  · exact .inr rfl
  · exact .inl rfl

theorem State.markWrite_rewritten (s : State) (pa n : Nat) : Rewritten s (s.markWrite pa n) := by
  rcases s.markWrite_eq pa n with h | h <;> rw [h]
  · exact s.markPlats_rewritten pa n
  · exact (s.markPlats_rewritten pa n).trans ⟨_, _, _, _, _, _, _, _, rfl⟩

/-- A header byte after a write marked what it meets is one that was before. -/
theorem State.markWrite_marks (s : State) (pa n : Nat) {a : Nat} (h : (s.markWrite pa n).platMark a) : s.platMark a := by
  refine (s.markPlats_headers pa n).marks a ?_
  rcases s.markWrite_eq pa n with he | he <;> rw [he] at h <;> exact h

/-- What a write marks leaves every byte but those of headers. -/
theorem State.markWrite_homeByte (s : State) (pa n : Nat) {a : Nat} (h : ¬ s.platMark a) :
    (s.markWrite pa n).homeByte key a = s.homeByte key a := by
  rw [← (s.markPlats_headers pa n).homeByte h]
  rcases s.markWrite_eq pa n with he | he <;> rw [he]
  rfl

/-! ### Lines of the write-combining buffer -/

/-- A byte with the stores of entries over it. -/
def overlay (es : List WcbEntry) (x : Nat) (b : Byte) : Byte := es.foldl (fun b e => if e.pa = x then applyBits b e.byte e.bits else b) b

theorem State.coreByte_eq (s : State) (key x : Nat) : s.coreByte key x = overlay s.wcb x (s.homeByte key x) := by
  simp only [State.coreByte, overlay, beq_iff_eq]

theorem overlay_of_forall_ne (es : List WcbEntry) (b : Byte) (h : ∀ e ∈ es, e.pa ≠ x) : overlay es x b = b := by
  induction es with
  | nil => rfl
  | cons e es ih =>
    rw [List.forall_mem_cons] at h
    rw [overlay, List.foldl_cons, if_neg h.1]
    exact ih h.2

/-- Entries of other bytes may be left out. -/
theorem overlay_filter (p : WcbEntry → Bool) (es : List WcbEntry) (b : Byte) (h : ∀ e ∈ es, e.pa = x → p e = true) :
    overlay (es.filter p) x b = overlay es x b := by
  induction es generalizing b with
  | nil => rfl
  | cons e es ih =>
    rw [List.forall_mem_cons] at h
    by_cases hx : e.pa = x
    · rw [List.filter_cons_of_pos (h.1 hx)]
      exact ih _ h.2
    · by_cases hp : p e = true
      · rw [List.filter_cons_of_pos hp]
        exact ih _ h.2
      · rw [List.filter_cons_of_neg hp, ih _ h.2, overlay, overlay, List.foldl_cons, if_neg hx]

/-- A byte to which the buffer holds no store reads to the core as at its home. -/
theorem State.coreByte_unbuffered (h : ∀ e ∈ s.wcb, e.pa ≠ x) : s.coreByte key x = s.homeByte key x := by
  rw [s.coreByte_eq, overlay_of_forall_ne _ _ h]

/-- Whether a byte is in a held stack or behind a window out of reach is the same for all of its granule. -/
theorem State.heldAt_granule (s : State) {p x : Nat} (h : p / 64 = x / 64) : s.heldAt p = s.heldAt x := by
  have h52 : p / 2 ^ 52 = x / 2 ^ 52 := by omega
  have hlt : (p < 2 ^ 52) = (x < 2 ^ 52) := propext (by omega)
  have h30 : p / 2 ^ 30 = x / 2 ^ 30 := by omega
  have h8 : p / 2 ^ 8 = x / 2 ^ 8 := by omega
  have hs : stackOf p = stackOf x := by simp only [stackOf, hbmStack, hbmDie, hbmG, h30, h8]
  have hi : isHbm p = isHbm x := by simp only [isHbm, hlt]
  simp only [State.heldAt, State.unreachable, inWindow, paType, hs, hi, h52]

/-- Outside HBM bytes are written alike under every key. -/
theorem State.putBits_outside (s : State) (key key' : Nat) (b bits : Byte) (h : isHbm pa = false) :
    s.putBits key pa b bits = s.putBits key' pa b bits := by
  have h52 : 2 ^ 52 ≤ pa := by simpa [isHbm] using h
  simp only [State.putBits, State.putBytes, s.rekey_outside _ _ h52, State.homeByte_plain (.inr h)]

/-- Entries put at their homes one after another. -/
def State.putEntries (s : State) (es : List WcbEntry) : State := es.foldl (fun u e => u.putBits e.key e.pa e.byte e.bits) s

theorem State.putLine_entries (s : State) (es : List WcbEntry) : (s.putLine es).homeByte key x = (s.putEntries es).homeByte key x := by
  show (List.foldl _ s (es.map fun e => (e.key, e.pa, e.byte, e.bits))).homeByte key x = _
  rw [List.foldl_map]
  rfl

/-- A line of the buffer at its home, as a reader under the key of its granule sees it (outside HBM, under any). -/
theorem State.putLine_byte (s : State) (es : List WcbEntry) (hl : s.lostAt x = false) (hk : key < 2 ^ 513)
    (hkey : ∀ e ∈ es, e.pa / 64 = x / 64 → e.key = key ∨ isHbm e.pa = false) :
    (s.putLine es).homeByte key x = overlay es x (s.homeByte key x) := by
  rw [s.putLine_entries]
  induction es generalizing s with
  | nil => rfl
  | cons e es ih =>
    rw [List.forall_mem_cons] at hkey
    have hone : (s.putBits e.key e.pa e.byte e.bits).homeByte key x =
        if e.pa = x then applyBits (s.homeByte key x) e.byte e.bits else s.homeByte key x := by
      cases hb : isHbm e.pa with
      | false =>
        rw [s.putBits_outside e.key key _ _ hb]
        exact s.entry_homeByte { e with key := key } hl hk fun _ => rfl
      | true => exact s.entry_homeByte e hl hk fun h => (hkey.1 h).resolve_right (by simp [hb])
    have hlost : (s.putBits e.key e.pa e.byte e.bits).lostAt x = false := ((s.putBytes_rewritten _ _ _).lostAt x).trans hl
    show ((s.putBits e.key e.pa e.byte e.bits).putEntries es).homeByte key x = _
    rw [ih _ hlost hkey.2, hone]
    rfl

/-- A line of the buffer leaves every other granule, under every key. -/
theorem State.putLine_other (s : State) (es : List WcbEntry) (h : ∀ e ∈ es, e.pa / 64 ≠ x / 64) :
    (s.putLine es).homeByte key x = s.homeByte key x := by
  rw [s.putLine_entries]
  refine List.foldlRecOn (motive := fun u : State => u.homeByte key x = s.homeByte key x) es _ rfl fun u hu e he => ?_
  refine (u.putBytes_homeByte_other e.key e.pa key x _ fun ht => h e he ?_).trans hu
  unfold TakesGranule at ht
  rw [List.length_singleton] at ht
  omega

theorem nodup_eraseDups (l : List Nat) : l.eraseDups.Nodup := by
  induction hn : l.length using Nat.strong_induction_on generalizing l with
  | _ n ih =>
    cases l with
    | nil => exact List.nodup_nil
    | cons a l =>
      rw [List.eraseDups_cons, List.nodup_cons]
      refine ⟨fun h => by simpa using List.mem_eraseDups.mp h, ih _ ?_ _ rfl⟩
      have := List.length_filter_le (fun b => !b == a) l
      simp only [List.length_cons] at hn
      omega

/-- The entries of one line. -/
def lineOf (es : List WcbEntry) (l : Nat) : List WcbEntry := es.filter fun e => e.pa / 64 == l

theorem mem_lineOf {es : List WcbEntry} {l : Nat} {e : WcbEntry} : e ∈ lineOf es l ↔ e ∈ es ∧ e.pa / 64 = l := by
  rw [lineOf, List.mem_filter, beq_iff_eq]

theorem overlay_lineOf (es : List WcbEntry) (b : Byte) : overlay (lineOf es (x / 64)) x b = overlay es x b :=
  overlay_filter _ _ _ fun _ _ h => by simp [h]

/-- Lines put at their homes one after another. -/
def State.putLines (s : State) (es : List WcbEntry) (ls : List Nat) : State := ls.foldl (fun t l => t.putLine (lineOf es l)) s

theorem State.putLines_rewritten (s : State) (es : List WcbEntry) (ls : List Nat) : Rewritten s (s.putLines es ls) :=
  Rewritten.foldl _ (fun u _ => u.putLine_rewritten _) ls s

theorem State.putLines_teams (s : State) (es : List WcbEntry) (ls : List Nat) : (s.putLines es ls).teams = s.teams := by
  refine List.foldlRecOn (motive := fun u : State => u.teams = s.teams) ls _ rfl fun u hu l _ => ?_
  refine Eq.trans ?_ hu
  exact foldl_keeps (fun w : State => w.teams = u.teams) _ (fun w (e : Nat × Nat × Byte × Byte) hw => (w.putBytes_teams _ _ _).trans hw) _ _ rfl

theorem State.putLines_other (s : State) (es : List WcbEntry) {ls : List Nat} (h : x / 64 ∉ ls) :
    (s.putLines es ls).homeByte key x = s.homeByte key x := by
  refine List.foldlRecOn (motive := fun u : State => u.homeByte key x = s.homeByte key x) ls _ rfl fun u hu l hl => ?_
  exact (u.putLine_other _ fun e he hx => h (hx ▸ (mem_lineOf.mp he).2 ▸ hl)).trans hu

/-- A byte of one of the lines, each put once. -/
theorem State.putLines_byte (s : State) (es : List WcbEntry) {ls : List Nat} (hn : ls.Nodup) (hx : x / 64 ∈ ls) (hl : s.lostAt x = false)
    (hk : key < 2 ^ 513) (hkey : ∀ e ∈ es, e.pa / 64 = x / 64 → e.key = key ∨ isHbm e.pa = false) :
    (s.putLines es ls).homeByte key x = overlay es x (s.homeByte key x) := by
  induction ls generalizing s with
  | nil => cases hx
  | cons l ls ih =>
    rw [List.nodup_cons] at hn
    show ((s.putLine (lineOf es l)).putLines es ls).homeByte key x = _
    by_cases h : x / 64 = l
    · subst h
      rw [State.putLines_other _ _ hn.1, s.putLine_byte _ hl hk fun e he => hkey e (mem_lineOf.mp he).1, overlay_lineOf]
    · rw [ih _ hn.2 ((List.mem_cons.mp hx).resolve_left h) (((s.putLine_rewritten _).lostAt x).trans hl),
        s.putLine_other _ fun e he hx => h (hx ▸ (mem_lineOf.mp he).2)]

/-! ### Draining before a write -/

theorem WcbEntry.near_iff (e : WcbEntry) (hn : 0 < n) : e.near pa n = true ↔ TakesGranule pa n (e.pa / 64) := by
  unfold WcbEntry.near TakesGranule
  simp only [Bool.and_eq_true, decide_eq_true_eq]
  omega

/-- Bytes in no held stack, behind no window out of reach, and in no retired stack. -/
structure Reachable (s : State) (pa n : Nat) : Prop where
  awake : ∀ i < n, s.heldAt (pa + i) = false
  kept : ∀ i < n, s.lostAt (pa + i) = false

/-- A byte of a range in each granule that it meets. -/
theorem TakesGranule.byte {g : Nat} (h : TakesGranule pa n g) (hn : 0 < n) : ∃ i < n, (pa + i) / 64 = g := by
  unfold TakesGranule at h
  exact ⟨64 * g - pa, by omega, by omega⟩

theorem Reachable.heldAt (h : Reachable s pa n) (hn : 0 < n) (hx : TakesGranule pa n (x / 64)) : s.heldAt x = false := by
  obtain ⟨i, hi, hg⟩ := hx.byte hn
  exact (s.heldAt_granule hg).symm.trans (h.awake i hi)

theorem Reachable.lostAt (h : Reachable s pa n) (hn : 0 < n) (hx : TakesGranule pa n (x / 64)) : s.lostAt x = false := by
  obtain ⟨i, hi, hg⟩ := hx.byte hn
  exact (s.lostAt_granule hg).symm.trans (h.kept i hi)

theorem State.unreachable_of_heldAt (h : s.heldAt x = false) : s.unreachable x = false := (Bool.or_eq_false_iff.mp h).2

/-- The lines of the buffer that a range meets. -/
def State.metLines (s : State) (pa n : Nat) : List Nat := ((s.wcb.filter fun e => e.near pa n).map fun e => e.pa / 64).eraseDups

theorem State.mem_metLines {l : Nat} : l ∈ s.metLines pa n ↔ ∃ e ∈ s.wcb, e.near pa n = true ∧ e.pa / 64 = l := by
  simp only [State.metLines, List.mem_eraseDups, List.mem_map, List.mem_filter, and_assoc]

/-- Lines in no held stack and behind no window out of reach are put at their homes as they leave the buffer. -/
theorem State.drainLines_eq {es : List WcbEntry} (hes : ∀ e ∈ es, s.heldAt e.pa = false) {ls : List Nat}
    (hls : ∀ l ∈ ls, ∃ e ∈ es, e.pa / 64 = l) : ls.foldl (fun t l => t.drainLine (lineOf es l)) s = s.putLines es ls := by
  induction ls generalizing s with
  | nil => rfl
  | cons l ls ih =>
    rw [List.forall_mem_cons] at hls
    have hput : s.drainLine (lineOf es l) = s.putLine (lineOf es l) := by
      obtain ⟨e, he, hl⟩ := hls.1
      obtain ⟨d, ds, hd⟩ := List.exists_cons_of_ne_nil (List.ne_nil_of_mem (mem_lineOf.mpr ⟨he, hl⟩))
      have hin : d ∈ es := (mem_lineOf.mp (hd ▸ List.mem_cons_self : d ∈ lineOf es l)).1
      rw [hd, State.drainLine, hes d hin, if_neg Bool.false_ne_true]
    rw [List.foldl_cons, hput]
    exact ih (fun e he => ((s.putLine_rewritten _).heldAt _).trans (hes e he)) hls.2

/-- Before a write that reaches its bytes, every line of the buffer that it meets is put at its home. -/
theorem State.drainAt_eq (h : Reachable s pa n) (hn : 0 < n) : s.drainAt pa n =
    { s.putLines (s.wcb.filter fun e => e.near pa n) (s.metLines pa n) with wcb := s.wcb.filter fun e => !e.near pa n } := by
  have hawake : ∀ e : WcbEntry, e.near pa n = true → s.heldAt e.pa = false := fun e he => h.heldAt hn ((e.near_iff hn).mp he)
  have hleaves : s.leaves pa n = fun e => e.near pa n := funext fun e => by
    by_cases he : e.near pa n = true
    · rw [State.leaves, State.unreachable_of_heldAt (hawake e he), Bool.not_false, Bool.and_true]
    · rw [State.leaves, Bool.eq_false_iff.mpr he, Bool.false_and]
  unfold State.drainAt
  rw [hleaves]
  dsimp only
  split
  · next hnone =>
    rw [List.isEmpty_iff] at hnone
    have hall : (s.wcb.filter fun e => !e.near pa n) = s.wcb :=
      List.filter_eq_self.mpr fun e he => by simpa using List.filter_eq_nil_iff.mp hnone e he
    rw [State.metLines, hnone, hall]
    rfl
  · rw [← State.drainLines_eq (fun e he => hawake e (List.mem_filter.mp he).2) fun l hl => ?_]
    · rfl
    · obtain ⟨e, he, hnear, hel⟩ := State.mem_metLines.mp hl
      exact ⟨e, List.mem_filter.mpr ⟨he, hnear⟩, hel⟩

section
variable (h : Reachable s pa n) (hn : 0 < n)
include h hn

theorem State.drainAt_rewritten : Rewritten { s with wcb := s.wcb.filter fun e => !e.near pa n } (s.drainAt pa n) := by
  rw [State.drainAt_eq h hn]
  obtain ⟨_, _, _, _, _, _, _, _, hr⟩ := s.putLines_rewritten (s.wcb.filter fun e => e.near pa n) (s.metLines pa n)
  rw [hr]
  exact ⟨_, _, _, _, _, _, _, _, rfl⟩

theorem State.drainAt_platMark (a : Nat) : (s.drainAt pa n).platMark a ↔ s.platMark a := by
  rw [State.drainAt_eq h hn, State.platMark, State.putLines_teams]
  rfl

/-- Draining leaves the lines that the write does not meet. -/
theorem State.drainAt_other (hx : ¬ TakesGranule pa n (x / 64)) : (s.drainAt pa n).homeByte key x = s.homeByte key x := by
  rw [State.drainAt_eq h hn]
  refine State.putLines_other (key := key) s _ fun hl => hx ?_
  obtain ⟨e, -, hnear, hel⟩ := State.mem_metLines.mp hl
  exact hel ▸ (e.near_iff hn).mp hnear

/-- A byte of a drained line reads at its home as the core saw it, under the key that its stores were under. -/
theorem State.drainAt_byte (hx : TakesGranule pa n (x / 64)) (hk : key < 2 ^ 513)
    (hkey : ∀ e ∈ s.wcb, e.pa / 64 = x / 64 → e.key = key ∨ isHbm e.pa = false) :
    (s.drainAt pa n).homeByte key x = s.coreByte key x := by
  have hall : ∀ e ∈ s.wcb, e.pa = x → e.near pa n = true := fun e _ he => (e.near_iff hn).mpr (he ▸ hx)
  rw [State.drainAt_eq h hn, s.coreByte_eq, ← overlay_filter (fun e => e.near pa n) _ _ hall]
  by_cases hl : x / 64 ∈ s.metLines pa n
  · exact s.putLines_byte _ (nodup_eraseDups _) hl (h.lostAt hn hx) hk fun e he => hkey e (List.mem_filter.mp he).1
  · rw [overlay_of_forall_ne]
    · exact s.putLines_other _ hl
    · intro e he hex
      obtain ⟨hin, hnear⟩ := List.mem_filter.mp he
      exact hl (State.mem_metLines.mpr ⟨e, hin, hnear, by rw [hex]⟩)

end

end Sys2Proof.Machine
end

