-- ==== Sys2Proof/Proofs/BytesPerformed.lean ====
section
/-! PROOFS. Bytes written one run after another (R103, R117, R299): each write keeps what the earlier ones wrote, and what the core saw of the
other bytes of the lines that they met. -/

namespace Sys2Proof.Machine

variable {s t u v : State} {key pa a : Nat} {bs : List Byte} {ws ws' : List (Nat × Byte)}

/-! ### Runs of bytes -/

/-- Consecutive bytes, each with its address. -/
def spread : Nat → List Byte → List (Nat × Byte)
  | _, [] => []
  | pa, b :: bs => (pa, b) :: spread (pa + 1) bs

theorem mem_spread {w : Nat × Byte} : w ∈ spread pa bs ↔ pa ≤ w.1 ∧ w.1 < pa + bs.length ∧ w.2 = bs.getD (w.1 - pa) 0 := by
  induction bs generalizing pa with
  | nil =>
    simp only [spread, List.not_mem_nil, List.length_nil, false_iff]
    omega
  | cons b bs ih =>
    obtain ⟨x, y⟩ := w
    rw [spread, List.mem_cons, ih]
    simp only [Prod.mk.injEq, List.length_cons]
    by_cases h : x = pa
    · subst h
      have hx : ¬ x + 1 ≤ x := by omega
      simp [hx]
    · by_cases hlt : pa ≤ x
      · obtain ⟨i, rfl⟩ : ∃ i, x = pa + 1 + i := ⟨x - (pa + 1), by omega⟩
        have hi : pa + 1 + i - pa = i + 1 := by omega
        have hj : pa + 1 + i - (pa + 1) = i := by omega
        rw [hi, hj, List.getD_cons_succ]
        constructor
        · rintro (⟨h, -⟩ | ⟨-, h2, h3⟩)
          · omega
          · exact ⟨by omega, by omega, h3⟩
        · rintro ⟨-, h2, h3⟩
          exact .inr ⟨by omega, by omega, h3⟩
      · constructor
        · rintro (⟨h, -⟩ | ⟨h1, -⟩) <;> omega
        · rintro ⟨h1, -⟩
          omega

theorem spread_fst (pa : Nat) (bs : List Byte) : (spread pa bs).map Prod.fst = (List.range bs.length).map fun i => pa + i := by
  induction bs generalizing pa with
  | nil => rfl
  | cons b bs ih =>
    rw [spread, List.map_cons, ih, List.length_cons, List.range_succ_eq_map, List.map_cons, List.map_map]
    refine congrArg _ (List.map_congr_left fun i _ => ?_)
    simp only [Function.comp_apply]
    omega

theorem spread_snd (pa : Nat) (bs : List Byte) : (spread pa bs).map Prod.snd = bs := by
  induction bs generalizing pa with
  | nil => rfl
  | cons b bs ih => rw [spread, List.map_cons, ih]

theorem spread_eq_zip (pa : Nat) (bs : List Byte) : spread pa bs = ((List.range bs.length).map fun i => pa + i).zip bs := by
  rw [← spread_fst]
  nth_rw 3 [← spread_snd pa bs]
  exact List.zip_of_prod rfl rfl

/-- A granule holds a byte of a run just where a write of the run takes it up. -/
theorem meets_spread {g : Nat} (hne : bs ≠ []) : (∃ w ∈ spread pa bs, w.1 / 64 = g) ↔ TakesGranule pa bs.length g := by
  have hn : 0 < bs.length := List.length_pos_iff.mpr hne
  constructor
  · rintro ⟨w, hw, rfl⟩
    obtain ⟨h1, h2, -⟩ := mem_spread.mp hw
    unfold TakesGranule
    omega
  · intro h
    obtain ⟨i, hi, hg⟩ := h.byte hn
    exact ⟨(pa + i, bs.getD i 0), mem_spread.mpr ⟨by simp, by simpa using hi, by simp⟩, hg⟩

/-- Runs are the bytes that they were made of, in their order, and none is empty. -/
theorem runsOf_spread (l : List (Nat × Byte)) : (runsOf l).flatMap (fun r => spread r.1 r.2) = l ∧ ∀ r ∈ runsOf l, r.2 ≠ [] := by
  induction l with
  | nil => exact ⟨rfl, by simp [runsOf]⟩
  | cons e l ih =>
    obtain ⟨a, b⟩ := e
    obtain ⟨hl, hne⟩ := ih
    unfold runsOf
    split
    · next a' bs r hr =>
      rw [hr] at hl hne
      rw [List.forall_mem_cons] at hne
      rw [List.flatMap_cons] at hl
      split
      · next h =>
        obtain ⟨rfl, -⟩ : a + 1 = a' ∧ a' % 64 ≠ 0 := by simpa using h
        exact ⟨by rw [List.flatMap_cons, spread, List.cons_append, hl], by simpa using hne.2⟩
      · exact ⟨by rw [List.flatMap_cons, List.flatMap_cons, spread, spread, hl]; rfl, by simpa using hne⟩
    · next hr =>
      rw [hr] at hl
      rw [← hl]
      exact ⟨rfl, by simp⟩

/-! ### What writes of bytes leave -/

/-- Bytes have been written under a key (as `BytesWritten` says, line by line), nothing but their lines has left the write-combining buffer,
and nothing else has changed than what writes change. -/
structure Performs (s t : State) (key : Nat) (ws : List (Nat × Byte)) : Prop where
  rest    : Rewritten { s with wcb := s.wcb.filter fun e => !ws.any fun w => w.1 / 64 == e.pa / 64 } t
  marks   : ∀ a, t.platMark a → s.platMark a
  inside  : ∀ w ∈ ws, t.homeByte key w.1 = w.2
  line    : ∀ a, a ∉ ws.map Prod.fst → (∃ w ∈ ws, w.1 / 64 = a / 64) → ¬ s.platMark a →
              (∀ e ∈ s.wcb, e.pa / 64 = a / 64 → e.key = key ∨ isHbm e.pa = false) → t.homeByte key a = s.coreByte key a
  outside : ∀ key' a, (∀ w ∈ ws, w.1 / 64 ≠ a / 64) → ¬ s.platMark a → t.homeByte key' a = s.homeByte key' a

theorem Performs.nil (s : State) (key : Nat) : Performs s s key [] where
  rest := by simpa using Rewritten.refl s
  marks := fun _ h => h
  inside := by simp
  line := by simp
  outside := fun _ _ _ _ => rfl

theorem Performs.mem_wcb (h : Performs s t key ws) {e : WcbEntry} : e ∈ t.wcb ↔ e ∈ s.wcb ∧ ∀ w ∈ ws, w.1 / 64 ≠ e.pa / 64 := by
  rw [h.rest.wcb]
  simp

theorem Performs.heldAt (h : Performs s t key ws) (x : Nat) : t.heldAt x = s.heldAt x := h.rest.heldAt x

theorem Performs.lostAt (h : Performs s t key ws) (x : Nat) : t.lostAt x = s.lostAt x := h.rest.lostAt x

/-- The core sees every byte that was not written as it saw it, under the key that the stores to it were under. -/
theorem Performs.coreByte (h : Performs s t key ws) (ha : a ∉ ws.map Prod.fst) (hm : ¬ s.platMark a)
    (hkey : ∀ e ∈ s.wcb, e.pa / 64 = a / 64 → e.key = key ∨ isHbm e.pa = false) : t.coreByte key a = s.coreByte key a := by
  by_cases hmet : ∃ w ∈ ws, w.1 / 64 = a / 64
  · obtain ⟨w, hw, hwa⟩ := hmet
    rw [State.coreByte_unbuffered fun e he hea => (h.mem_wcb.mp he).2 w hw (by rw [hwa, hea])]
    exact h.line a ha ⟨w, hw, hwa⟩ hm hkey
  · have hout : ∀ w ∈ ws, w.1 / 64 ≠ a / 64 := fun w hw hwa => hmet ⟨w, hw, hwa⟩
    rw [t.coreByte_eq, s.coreByte_eq, h.outside key a hout hm, h.rest.wcb]
    exact overlay_filter _ _ _ fun e _ hea => by simpa [hea] using hout

/-- Bytes that were writable still are. -/
theorem Performs.writable (h : Performs s t key ws) {pas : List Nat} (hw : Writable s pas) : Writable t pas where
  distinct := hw.distinct
  awake := fun x hx => (h.heldAt x).trans (hw.awake x hx)
  kept := fun x hx => (h.lostAt x).trans (hw.kept x hx)
  apart := fun x hx hm => hw.apart x hx (h.marks x hm)

/-- Writes of other bytes follow. -/
theorem Performs.trans (h : Performs s u key ws) (g : Performs u v key ws') (hw : Writable s ((ws ++ ws').map Prod.fst)) :
    Performs s v key (ws ++ ws') := by
  have hdist : ∀ w ∈ ws, w.1 ∉ ws'.map Prod.fst := by
    have hd := hw.distinct
    rw [List.map_append, List.nodup_append'] at hd
    exact fun w hin hin' => hd.2.2 (List.mem_map_of_mem hin) hin'
  have hapart : ∀ w ∈ ws, ¬ s.platMark w.1 := fun w hin =>
    hw.apart w.1 (by rw [List.map_append]; exact List.mem_append_left _ (List.mem_map_of_mem hin))
  refine ⟨?_, fun a ha => h.marks a (g.marks a ha), ?_, ?_, ?_⟩
  · have hr := h.rest
    have gr := g.rest
    have hwcb : (s.wcb.filter fun e => !(ws ++ ws').any fun w => w.1 / 64 == e.pa / 64)
        = u.wcb.filter fun e => !ws'.any fun w => w.1 / 64 == e.pa / 64 := by
      rw [hr.wcb, List.filter_filter]
      refine List.filter_congr fun e _ => ?_
      rw [List.any_append, Bool.not_or, Bool.and_comm]
    rw [hwcb]
    obtain ⟨_, _, _, _, _, _, _, _, rfl⟩ := hr
    obtain ⟨_, _, _, _, _, _, _, _, rfl⟩ := gr
    exact ⟨_, _, _, _, _, _, _, _, rfl⟩
  · rw [List.forall_mem_append]
    refine ⟨fun w hin => ?_, g.inside⟩
    have hmark : ¬ u.platMark w.1 := fun hm => hapart w hin (h.marks _ hm)
    have hclear : ∀ e ∈ u.wcb, e.pa / 64 ≠ w.1 / 64 := fun e he hea => (h.mem_wcb.mp he).2 w hin hea.symm
    by_cases hmet : ∃ w' ∈ ws', w'.1 / 64 = w.1 / 64
    · rw [g.line w.1 (hdist w hin) hmet hmark fun e he hea => absurd hea (hclear e he),
        State.coreByte_unbuffered fun e he hea => hclear e he (by rw [hea]), h.inside w hin]
    · rw [g.outside key w.1 (fun w' hw' hwa => hmet ⟨w', hw', hwa⟩) hmark, h.inside w hin]
  · intro a ha hmet hm hkey
    rw [List.map_append, List.mem_append, not_or] at ha
    have hmark : ¬ u.platMark a := fun hn => hm (h.marks _ hn)
    by_cases hmet' : ∃ w' ∈ ws', w'.1 / 64 = a / 64
    · rw [g.line a ha.2 hmet' hmark fun e he => hkey e (h.mem_wcb.mp he).1, h.coreByte ha.1 hm hkey]
    · obtain ⟨w, hin, hwa⟩ := hmet
      have hws : w ∈ ws := (List.mem_append.mp hin).resolve_right fun hn => hmet' ⟨w, hn, hwa⟩
      rw [g.outside key a (fun w' hw' hwa' => hmet' ⟨w', hw', hwa'⟩) hmark, h.line a ha.1 ⟨w, hws, hwa⟩ hm hkey]
  · intro key' a hout hm
    rw [List.forall_mem_append] at hout
    rw [g.outside key' a hout.2 fun hn => hm (h.marks _ hn), h.outside key' a hout.1 hm]

/-- Poison is none of what the writes leave. -/
theorem Performs.poisonAll (h : Performs s t key ws) (pas : List Nat) : Performs s (t.poisonAll pas) key ws := by
  obtain ⟨ps, hps⟩ : ∃ ps, t.poisonAll pas = { t with poison := ps } := by
    refine List.foldlRecOn (motive := fun u : State => ∃ ps, u = { t with poison := ps }) pas _ ⟨_, rfl⟩ fun u hu a _ => ?_
    obtain ⟨ps, rfl⟩ := hu
    unfold State.addPoison
    split
    · exact ⟨_, rfl⟩
    · exact ⟨_, rfl⟩
  rw [hps]
  obtain ⟨hrest, hmarks, hinside, hline, hout⟩ := h
  exact ⟨hrest.trans ⟨_, _, _, _, _, _, _, _, rfl⟩, hmarks, hinside, hline, hout⟩

/-- What a statement says of bytes that an engine writes. -/
theorem Performs.bytesWritten (h : Performs s t key ws) : BytesWritten s t key ws where
  inside := h.inside
  line := fun hkey a ha hmet hm => by
    obtain ⟨w, hw, hwa⟩ := hmet
    exact h.line a ha ⟨w, hw, hwa⟩ hm fun e he hea => hkey e he ⟨w, hw, hwa.trans hea.symm⟩
  outside := h.outside

/-- The order of the bytes written is none of it. -/
theorem Performs.perm (h : Performs s t key ws) (hp : ws.Perm ws') : Performs s t key ws' where
  rest := by
    have hany : ∀ e : WcbEntry, (ws'.any fun w => w.1 / 64 == e.pa / 64) = ws.any fun w => w.1 / 64 == e.pa / 64 :=
      fun e => hp.symm.any_eq
    simp only [hany]
    exact h.rest
  marks := h.marks
  inside := fun w hw => h.inside w (hp.mem_iff.mpr hw)
  line := fun a ha ⟨w, hw, hwa⟩ => h.line a (fun hn => ha ((hp.map Prod.fst).mem_iff.mp hn)) ⟨w, hp.mem_iff.mpr hw, hwa⟩
  outside := fun key' a hout => h.outside key' a fun w hw => hout w (hp.mem_iff.mp hw)

theorem Writable.perm {pas pas' : List Nat} (h : Writable s pas) (hp : pas.Perm pas') : Writable s pas' :=
  ⟨hp.nodup h.distinct, fun x hx => h.awake x (hp.mem_iff.mpr hx), fun x hx => h.kept x (hp.mem_iff.mpr hx),
    fun x hx => h.apart x (hp.mem_iff.mpr hx)⟩

theorem Writable.sublist {pas pas' : List Nat} (h : Writable s pas) (hp : pas'.Sublist pas) : Writable s pas' :=
  ⟨hp.nodup h.distinct, fun x hx => h.awake x (hp.subset hx), fun x hx => h.kept x (hp.subset hx), fun x hx => h.apart x (hp.subset hx)⟩

theorem Writable.left (h : Writable s ((ws ++ ws').map Prod.fst)) : Writable s (ws.map Prod.fst) :=
  h.sublist ((List.sublist_append_left ws ws').map _)

theorem Writable.right (h : Writable s ((ws ++ ws').map Prod.fst)) : Writable s (ws'.map Prod.fst) :=
  h.sublist ((List.sublist_append_right ws ws').map _)

/-! ### Writes -/

/-- One write of consecutive bytes. -/
theorem State.write_performs (s : State) (hk : key < 2 ^ 513) (hne : bs ≠ [])
    (hw : Writable s ((spread pa bs).map Prod.fst)) : Performs s (s.write key pa bs) key (spread pa bs) := by
  have hn : 0 < bs.length := List.length_pos_iff.mpr hne
  rw [spread_fst] at hw
  have hin : ∀ i < bs.length, pa + i ∈ (List.range bs.length).map fun i => pa + i :=
    fun i hi => List.mem_map_of_mem (List.mem_range.mpr hi)
  have hr : Reachable s pa bs.length := ⟨fun i hi => hw.awake _ (hin i hi), fun i hi => hw.kept _ (hin i hi)⟩
  have hdrain := State.drainAt_rewritten hr hn
  have hlost : (s.drainAt pa bs.length).lostAt pa = false := (hdrain.lostAt pa).trans (hr.kept 0 hn)
  have hmarks : ∀ a, ((s.drainAt pa bs.length).putBytes key pa bs).platMark a → s.platMark a := fun a ha => by
    rw [State.platMark, State.putBytes_teams] at ha
    exact (State.drainAt_platMark hr hn a).mp ha
  have hbyte : ∀ key' a, ¬ s.platMark a → (s.write key pa bs).homeByte key' a
      = ((s.drainAt pa bs.length).putBytes key pa bs).homeByte key' a :=
    fun key' a ha => State.markWrite_homeByte _ _ _ fun hm => ha (hmarks a hm)
  have hmem : ∀ a, a ∈ (spread pa bs).map Prod.fst ↔ pa ≤ a ∧ a < pa + bs.length := fun a => by
    rw [spread_fst]
    simp only [List.mem_map, List.mem_range]
    exact ⟨fun ⟨i, hi, h⟩ => by omega, fun h => ⟨a - pa, by omega, by omega⟩⟩
  refine ⟨?_, fun a ha => hmarks a (State.markWrite_marks _ _ _ ha), fun w hwin => ?_, fun a ha hmet hm hkey => ?_, fun key' a hout hm => ?_⟩
  · have hwcb : (s.wcb.filter fun e => !(spread pa bs).any fun w => w.1 / 64 == e.pa / 64) = s.wcb.filter fun e => !e.near pa bs.length := by
      refine List.filter_congr fun e _ => congrArg _ (Bool.eq_iff_iff.mpr ?_)
      rw [e.near_iff hn, ← meets_spread hne]
      simp
    rw [hwcb]
    exact hdrain.trans ((State.putBytes_rewritten _ _ _ _).trans (State.markWrite_rewritten _ _ _))
  · obtain ⟨h1, h2, h3⟩ := mem_spread.mp hwin
    have hm : ¬ s.platMark w.1 := by
      refine hw.apart w.1 ?_
      rw [← spread_fst]
      exact List.mem_map_of_mem hwin
    rw [hbyte _ _ hm, State.putBytes_homeByte _ _ _ _ _ hlost hk, if_pos ⟨h1, h2⟩, h3]
  · rw [meets_spread hne] at hmet
    rw [hmem] at ha
    rw [hbyte _ _ hm, State.putBytes_homeByte _ _ _ _ _ hlost hk, if_neg ha, State.drainAt_byte hr hn hmet hk hkey]
  · have hno : ¬ TakesGranule pa bs.length (a / 64) := fun ht => by
      obtain ⟨w, hw, hwa⟩ := (meets_spread hne).mpr ht
      exact hout w hw hwa
    rw [hbyte _ _ hm, State.putBytes_homeByte_other _ _ _ _ _ _ hno, State.drainAt_other hr hn hno]

/-- Steps that each write bytes of their own, whatever the ones before them wrote. -/
theorem Performs.foldl {α : Type} {f : State → α → State} {W : α → List (Nat × Byte)} {l : List α}
    (hf : ∀ x ∈ l, ∀ u ws, Performs s u key ws → Writable s ((ws ++ W x).map Prod.fst) →
      Writable u ((W x).map Prod.fst) → Performs u (f u x) key (W x))
    (hw : Writable s ((l.flatMap W).map Prod.fst)) : Performs s (l.foldl f s) key (l.flatMap W) := by
  induction l using List.reverseRecOn with
  | nil => exact .nil s key
  | append_singleton l x ih =>
    rw [List.flatMap_append, List.flatMap_singleton] at hw ⊢
    rw [List.foldl_append]
    have hl := ih (fun y hy => hf y (List.mem_append_left _ hy)) hw.left
    exact hl.trans (hf x (by simp) _ _ hl hw (hl.writable hw.right)) hw

/-- Bytes written where each belongs. -/
theorem State.scatterBytes_performs (s : State) (hk : key < 2 ^ 513) (hw : Writable s (ws.map Prod.fst)) :
    Performs s (s.scatterBytes key ws) key ws := by
  obtain ⟨hl, hne⟩ := runsOf_spread ws
  rw [← hl] at hw
  have h := Performs.foldl (key := key) (f := fun u (r : Nat × List Byte) => u.write key r.1 r.2)
    (fun r hr u _ _ _ hwr => u.write_performs hk (hne r hr) hwr) hw
  rwa [hl] at h

end Sys2Proof.Machine
end

