-- ==== Sys2Proof/Proofs/PlatPush.lean ====
section
/-! PROOFS. What a push of a gather or a scatter leaves (R133, R136, R137): a slot taken, or a place among the waiting ones. -/

namespace Sys2Proof.Machine

/-- What the checks of a push give: the PAs of its range, of its squash list and of its mark. -/
abbrev PushForm := List Nat × Option (List Nat) × Option Nat

/-- A push passes every check, and waits for nothing but a slot (R133, R137 to R141). -/
structure PushOk (s : State) (q : PlatReq) (p : Plat) (form : PushForm) : Prop where
  unheld : s.verifyHeld q.strand q.h = false
  check : (s.platCheck q.strand .A q.h).2 = .ok p
  form : s.platForm q.strand q p = .ok form
  atOnce : (s.strand q.strand).det = false ∨ q.scatter = none ∨ ∀ a ∈ p.pas.flatMap id, s.inPart (s.acc q.strand) a = true
  room : s.fifoFull q.strand 1 = false
  fenced : s.fenced q.strand .A (if q.dev then .dev else .cor) = true

/-- The id of the operation that a slot takes next (R136). -/
def State.nextOpid (s : State) (i : Fin 16) : BitVec 16 := BitVec.ofNat 4 i.val ++ (s.platSlots.get i).seq

/-- A push has taken a slot. -/
structure SlotTaken (s : State) (q : PlatReq) (p : Plat) (form : PushForm) (i : Fin 16) (t : State) : Prop where
  op : ∃ o, (t.platSlots.get i).op = some o ∧ o.opid = s.nextOpid i ∧ o.plat = p ∧ o.scatter = q.scatter ∧ o.mem = form.1
    ∧ o.squash = form.2.1 ∧ o.mark = form.2.2 ∧ o.mval = q.mval ∧ o.strand = q.strand ∧ o.task = (s.strand q.strand).task
    ∧ o.deferred = false
  seq : (t.platSlots.get i).seq = (s.platSlots.get i).seq + 1
  slots : ∀ j, j ≠ i → t.platSlots.get j = s.platSlots.get j
  reserved : (t.strand q.strand).resv.get 1 = (s.strand q.strand).resv.get 1 + 1
  result : q.rd ≠ 0 → t.readX q.strand .A q.rd = (s.nextOpid i).setWidth 64
  pc : (t.stream q.strand .A).pc = (s.stream q.strand .A).pc + 12
  runs : (t.stream q.strand .A).status = .run
  mem : t.mem = s.mem

section
variable {s : State} {q : PlatReq} {p : Plat} {form : PushForm} {i : Fin 16}

/-! ### The slot -/

theorem State.freePlat_of_lowest (hi : (s.platSlots.get i).op = none) (hlow : ∀ j < i, (s.platSlots.get j).op ≠ none) :
    s.freePlat = some i := by
  refine List.find?_eq_some_iff_getElem.mpr ⟨by simp [hi], i.val, by simp, by simp, fun j hj => ?_⟩
  simpa [Option.isSome_iff_ne_none] using hlow ⟨j, hj.trans i.isLt⟩ hj

theorem State.freePlat_full (h : ∀ i, (s.platSlots.get i).op ≠ none) : s.freePlat = none :=
  List.find?_eq_none.mpr fun i _ => by simpa using h i

/-! ### A push at once -/

/-- The operation that a push makes. -/
def State.opFor (s : State) (q : PlatReq) (p : Plat) (form : PushForm) (i : Fin 16) : PlatOp where
  strand := q.strand
  task := (s.strand q.strand).task
  acc := s.acc q.strand
  opid := s.nextOpid i
  scatter := q.scatter
  plat := p
  mem := form.1
  squash := form.2.1
  mark := form.2.2
  mval := q.mval
  deferred := false
  captured := 0
  seq := s.tick

/-- The same with the targets counted that it captures. -/
def State.countedOp (s : State) (q : PlatReq) (p : Plat) (form : PushForm) (i : Fin 16) : PlatOp :=
  { s.opFor q p form i with captured := (s.opFor q p form i).count (s.platSquash (s.opFor q p form i)) }

/-- A push takes a slot. -/
def State.takeSlot (s : State) (q : PlatReq) (p : Plat) (form : PushForm) (i : Fin 16) : State :=
  let s1 : State := { s with platSlots := s.platSlots.set i.val { seq := (s.platSlots.get i).seq + 1, op := some (s.countedOp q p form i) } i.isLt }
  (s1.modStrand q.strand fun y => y.reserve 1).pushDone q.strand .A q.rd ((s.nextOpid i).setWidth 64) 12

/-- A push waits behind the others (R137). -/
def State.queued (s : State) (q : PlatReq) : State := { s with platQ := s.platQ ++ [q] }.wait q.strand .A .platWait

theorem State.queued_stream (s : State) (q : PlatReq) :
    (s.queued q).stream q.strand .A = { s.stream q.strand .A with status := .platWait } := State.stream_modStream_same _ _ _ _

/-- A push that passes its checks takes the slot that is offered, or waits. -/
theorem PushOk.platGo (h : PushOk s q p form) (granted : Bool) : s.platGo q.strand q granted =
    match (if granted || s.platQ.isEmpty then s.freePlat else none) with
    | none => s.queued q
    | some i => s.takeSlot q p form i := by
  have hcheck : s.platCheck q.strand .A q.h = ((s.platCheck q.strand .A q.h).1, .ok p) := Prod.ext rfl h.check
  have hnow : ((s.strand q.strand).det && q.scatter.isSome && !(p.pas.flatMap id).all fun pa => s.inPart (s.acc q.strand) pa) = false := by
    rcases h.atOnce with hd | hs | ha
    · rw [hd, Bool.false_and, Bool.false_and]
    · rw [hs, Option.isSome_none, Bool.and_false, Bool.false_and]
    · rw [List.all_eq_true.mpr ha, Bool.not_true, Bool.and_false]
  unfold State.platGo
  rw [h.unheld, if_neg Bool.false_ne_true, hcheck]
  dsimp only
  rw [h.form]
  dsimp only
  rw [hnow, h.room, h.fenced]
  simp only [Bool.false_and, Bool.not_true, Bool.or_self, Bool.false_eq_true, if_false]
  generalize (if (granted || s.platQ.isEmpty) = true then s.freePlat else none) = slot
  cases slot with
  | none => rfl
  | some i => rfl

/-- What a completed push leaves of its stream, and of the other parts of its strand. -/
theorem State.pushDone_stream (s : State) (st : Fin 4) (k : StreamId) (rd : Reg) (v bytes : W64) :
    ((s.pushDone st k rd v bytes).stream st k).pc = (s.stream st k).pc + bytes
      ∧ ((s.pushDone st k rd v bytes).stream st k).status = .run
      ∧ (rd ≠ 0 → (s.pushDone st k rd v bytes).readX st k rd = v)
      ∧ ((s.pushDone st k rd v bytes).strand st).resv = (s.strand st).resv := by
  refine ⟨by simp [State.pushDone, State.goto], by simp [State.pushDone, State.goto], fun hrd => ?_, ?_⟩
  · have hgoto := ((s.goto_after st k rd v ((s.stream st k).pc + bytes))).result
    rwa [if_neg hrd] at hgoto
  · simp [State.pushDone, State.goto, State.writeX, State.modStream]

theorem State.takeSlot_taken (s : State) (q : PlatReq) (p : Plat) (form : PushForm) (i : Fin 16) :
    SlotTaken s q p form i (s.takeSlot q p form i) := by
  unfold State.takeSlot
  extract_lets s1
  obtain ⟨hpc, hruns, hresult, hresv⟩ :=
    (s1.modStrand q.strand fun y => y.reserve 1).pushDone_stream q.strand .A q.rd ((s.nextOpid i).setWidth 64) 12
  have hpush : ∀ j, (((s1.modStrand q.strand fun y => y.reserve 1).pushDone q.strand .A q.rd ((s.nextOpid i).setWidth 64) 12).platSlots.get j)
      = s1.platSlots.get j := fun _ => rfl
  have hslot : s1.platSlots.get i = { seq := (s.platSlots.get i).seq + 1, op := some (s.countedOp q p form i) } := vec_get_set_fin _ _ _
  refine { op := ⟨s.countedOp q p form i, ?_, rfl, rfl, rfl, rfl, rfl, rfl, rfl, rfl, rfl, rfl⟩, seq := ?_, slots := fun j hj => ?_
           reserved := ?_, result := hresult, pc := hpc.trans ?_, runs := hruns, mem := rfl }
  · rw [hpush, hslot]
  · rw [hpush, hslot]
  · exact vec_get_set_other _ _ i.isLt _ _ fun e => hj (Fin.ext e.symm)
  · rw [hresv, State.strand_modStrand_same]
    exact vec_get_set_fin _ _ _
  · rw [State.stream, State.strand_modStrand_same]
    rfl

/-- A push of the engine's instructions: with no push waiting, the lowest free slot is taken; behind a waiting push, and where every slot is
taken, it waits (R137). -/
theorem PushOk.pushed (h : PushOk s q p form) :
    (∀ i, s.platQ = [] → (s.platSlots.get i).op = none → (∀ j < i, (s.platSlots.get j).op ≠ none) →
      s.platGo q.strand q false = s.takeSlot q p form i)
    ∧ ((s.platQ ≠ [] ∨ ∀ i, (s.platSlots.get i).op ≠ none) →
      s.platGo q.strand q false = s.queued q) := by
  rw [h.platGo]
  refine ⟨fun i hq hi hlow => ?_, fun hw => ?_⟩
  · rw [hq, State.freePlat_of_lowest hi hlow]
    rfl
  · have hnone : (if (false || s.platQ.isEmpty) = true then s.freePlat else none) = none := by
      rcases hw with hq | hfull
      · rw [Bool.false_or, if_neg fun he => hq (List.isEmpty_iff.mp he)]
      · rw [State.freePlat_full hfull, ite_self]
    rw [hnone]

/-- The oldest waiting push, granted, takes the lowest free slot (R137). -/
theorem PushOk.granted (h : PushOk s q p form) (hi : (s.platSlots.get i).op = none) (hlow : ∀ j < i, (s.platSlots.get j).op ≠ none) :
    s.platGo q.strand q true = s.takeSlot q p form i := by
  rw [h.platGo, State.freePlat_of_lowest hi hlow]
  rfl

/-! ### The instructions -/

theorem execPlatg_of {st : Fin 4} {dev : Bool} {rd xh xm xmark xval : Reg} (ha : s.cur.agent = .stream st .A)
    (h : s.verifyHeld st (s.readX st .A xh) = false) : exec (.platg dev rd xh xm xmark xval) s = .next (s.platGo st
      { strand := st, rd := rd, dev := dev, scatter := none, h := s.readX st .A xh, mem := s.readX st .A xm, squash := none
        mark := s.readX st .A xmark, mval := s.readX st .A xval } false) := by
  rw [exec_platg, execPlatg, onStream_eq ha, if_neg (by decide), h, if_neg Bool.false_ne_true]

theorem execPlats_of {st : Fin 4} {dev : Bool} {op : ScatOp} {ty : ScatType} {pl : Bool} {xpl rd xh xm xmark xval : Reg}
    (ha : s.cur.agent = .stream st .A) (h : s.verifyHeld st (s.readX st .A xh) = false) :
    exec (.plats dev op ty pl xpl rd xh xm xmark xval) s = .next (s.platGo st
      { strand := st, rd := rd, dev := dev, scatter := some (op, ty), h := s.readX st .A xh, mem := s.readX st .A xm
        squash := if pl then some (s.readX st .A xpl) else none, mark := s.readX st .A xmark, mval := s.readX st .A xval } false) := by
  rw [exec_plats, execPlats, onStream_eq ha, if_neg (by decide), h, if_neg Bool.false_ne_true]

/-- The state in which the oldest waiting push is tried again (R137; log 62). -/
def State.retrying (s : State) (q : PlatReq) (rest : List PlatReq) : State := { s with platQ := rest }.wait q.strand .A .run

theorem execPlatOpStart_of {rest : List PlatReq} (hq : s.platQ = q :: rest) (hi : (s.platSlots.get i).op = none)
    (hlow : ∀ j < i, (s.platSlots.get j).op ≠ none) :
    exec .platOpStart s = .next ((s.retrying q rest).platGo q.strand q true) := by
  rw [exec_platOpStart, execPlatOpStart, hq, State.freePlat_of_lowest hi hlow]
  rfl

/-- What the retried push takes is what it would take of the state before. -/
theorem SlotTaken.of_retrying {t : State} {rest : List PlatReq} (h : SlotTaken (s.retrying q rest) q p form i t) : SlotTaken s q p form i t := by
  have hx : (s.retrying q rest).strand q.strand = (s.strand q.strand).modStream .A fun y => { y with status := .run } :=
    State.strand_modStrand_same _ _ _
  have hpc : ((s.retrying q rest).stream q.strand .A).pc = (s.stream q.strand .A).pc := by rw [State.stream, hx]; rfl
  obtain ⟨hop, hseq, hslots, hreserved, hresult, hpcs, hruns, hmem⟩ := h
  rw [hx] at hreserved hop
  exact ⟨hop, hseq, hslots, hreserved, hresult, hpc ▸ hpcs, hruns, hmem⟩

end

end Sys2Proof.Machine
end

