-- ==== Sys2Proof/Proofs/PlatEnds.lean ====
section
/-! PROOFS. How a gather and a scatter end (R136, R140, R141): what they perform, then the mark, then the record. -/

namespace Sys2Proof.Machine

variable {s t u : State} {key : Nat} {o : PlatOp} {sl : Fin 16} {ws : List (Nat × Byte)}

/-! ### The mark and the record -/

/-- The bytes of an operation's mark. -/
def PlatOp.markWrites (o : PlatOp) : List (Nat × Byte) := o.mark.toList.flatMap fun m => spread m (leBytes 8 o.mval.toNat)

/-- Their PAs. -/
def PlatOp.markPas (o : PlatOp) : List Nat := o.mark.toList.flatMap fun m => (List.range 8).map fun j => m + j

/-- Their values (R136). -/
def PlatOp.markBytes (o : PlatOp) : List Byte := o.mark.toList.flatMap fun _ => leBytes 8 o.mval.toNat

theorem PlatOp.markWrites_eq (o : PlatOp) : o.markWrites = o.markPas.zip o.markBytes := by
  unfold PlatOp.markWrites PlatOp.markPas PlatOp.markBytes
  cases o.mark with
  | none => rfl
  | some m => simp [spread_eq_zip]

theorem PlatOp.markPas_eq (o : PlatOp) : o.markWrites.map Prod.fst = o.markPas := by
  unfold PlatOp.markWrites PlatOp.markPas
  cases o.mark with
  | none => rfl
  | some m => simp [spread_fst]

theorem State.slotKey_lt (s : State) (slot : BitVec 6) : s.slotKey slot < 2 ^ 513 := by
  unfold State.slotKey
  split
  · positivity
  · split
    · next p _ =>
      have := p.isLt
      omega
    · positivity

/-- The state with an operation's mark written, where it has one. -/
def State.marked (s : State) (o : PlatOp) : State :=
  match o.mark with
  | some m => s.write (s.slotKey o.acc.key) m (leBytes 8 o.mval.toNat)
  | none => s

theorem State.marked_performs (s : State) (o : PlatOp) (hw : Writable s (o.markWrites.map Prod.fst)) :
    Performs s (s.marked o) (s.slotKey o.acc.key) o.markWrites := by
  unfold State.marked
  unfold PlatOp.markWrites at hw ⊢
  cases hm : o.mark with
  | none => exact .nil s _
  | some m =>
    rw [hm] at hw
    have h8 : leBytes 8 o.mval.toNat ≠ [] := List.ne_nil_of_length_pos (by simp)
    simpa using s.write_performs (s.slotKey_lt _) h8 (by simpa using hw)

/-- An operation has ended: its slot is free, and the record is in the FIFO of the strand that pushed it. -/
structure PlatEnded (s : State) (sl : Fin 16) (o : PlatOp) (status kind : Byte) (done : Nat) (t : State) : Prop where
  slots : ∀ j, (t.platSlots.get j).op = if j = sl then none else (s.platSlots.get j).op
  record : (t.strand o.strand).fifo.get 1 = (s.strand o.strand).fifo.get 1 ++ [o.opid ++ status ++ kind ++ BitVec.ofNat 32 done]
  faults : (t.strand o.strand).pendFault = (s.strand o.strand).pendFault

/-- An operation's record goes to the FIFO of a strand that still runs its task (R136, R163). -/
theorem State.settle_strand {st : Fin 4} {tk : Option Task} (h : (s.strand st).runs tk = true) (eng : Fin 5) (r : W64) :
    (s.settle st tk eng (some r)).strand st = (s.strand st).append eng r := by
  obtain ⟨⟨hsome, htask⟩, -⟩ : (tk.isSome = true ∧ ((s.strand st).task == tk) = true) ∧ _ := by
    simpa only [Strand.runs, Bool.and_eq_true] using h
  have hnone : tk.isNone = false := by simpa using hsome
  unfold State.settle State.forTask
  rw [hnone, if_neg Bool.false_ne_true]
  show (if (((s.strand st).task == tk) = true) then _ else _ : Vector Strand 4).get st = _
  rw [if_pos htask]
  refine (vec_get_set_fin _ _ _).trans ?_
  show (if (s.strand st).runs tk = true then (s.strand st).settle eng (some r) else s.strand st) = _
  rw [if_pos h]
  rfl

theorem State.settle_rest (st : Fin 4) (tk : Option Task) (eng : Fin 5) (r : Option W64) :
    (s.settle st tk eng r).platSlots = s.platSlots ∧ (s.settle st tk eng r).mem = s.mem ∧ (s.settle st tk eng r).keyTag = s.keyTag := by
  unfold State.settle State.forTask
  split <;> exact ⟨rfl, rfl, rfl⟩

/-- The state in which an operation's slot is free and its record is in the FIFO. -/
def State.concluded (s : State) (sl : Fin 16) (o : PlatOp) (status : Byte) (done : Nat) : State :=
  (s.freeSlot sl).settle o.strand o.task 1 (some (platRecord o status done))

theorem State.concluded_ended {w : List WcbEntry} (hr : Rewritten { s with wcb := w } t) (hruns : (s.strand o.strand).runs o.task = true)
    (status : Byte) (done : Nat) : PlatEnded s sl o status (if o.scatter.isSome then 2 else 1) done (t.concluded sl o status done) := by
  have hx : (t.freeSlot sl).strand o.strand = s.strand o.strand := by
    obtain ⟨_, _, _, _, _, _, _, _, rfl⟩ := hr
    rfl
  have hslots : t.platSlots = s.platSlots := by
    obtain ⟨_, _, _, _, _, _, _, _, rfl⟩ := hr
    rfl
  have hy := State.settle_strand (s := t.freeSlot sl) (st := o.strand) (tk := o.task) (by rw [hx]; exact hruns) 1 (platRecord o status done)
  rw [hx] at hy
  refine ⟨fun j => ?_, ?_, ?_⟩
  · rw [State.concluded, (State.settle_rest _ _ _ _).1, ← hslots]
    split
    · next h =>
      rw [h]
      exact congrArg PlatSlot.op (vec_get_set_fin _ _ _)
    · next h => exact congrArg PlatSlot.op (vec_get_set_other _ _ sl.isLt _ _ fun e => h (Fin.ext e.symm))
  · rw [State.concluded, hy]
    exact vec_get_set_fin _ _ _
  · rw [State.concluded, hy]
    rfl

theorem Performs.concluded (h : Performs s t key ws) (sl : Fin 16) (o : PlatOp) (status : Byte) (done : Nat) :
    BytesWritten s (t.concluded sl o status done) key ws := by
  obtain ⟨-, hmem, hkey⟩ := State.settle_rest (s := t.freeSlot sl) o.strand o.task 1 (some (platRecord o status done))
  have hb : ∀ key a, (t.concluded sl o status done).homeByte key a = t.homeByte key a := fun key a =>
    State.homeByte_congr (by rw [State.concluded, hkey]; rfl) fun y _ => by rw [State.concluded, hmem]; rfl
  obtain ⟨hinside, hline, houtside⟩ := h.bytesWritten
  exact ⟨fun w hw => (hb _ _).trans (hinside w hw), fun hk a ha hmet hm => (hb _ _).trans (hline hk a ha hmet hm),
    fun key' a hout hm => (hb _ _).trans (houtside key' a hout hm)⟩

/-- Nothing keeps an operation from ending: it runs for a task, its bytes are in no held and no retired stack, its key is loaded, and the
windows that it names can be reached (R107, R109, R111). -/
structure Endable (s : State) (o : PlatOp) (reach : Bool) : Prop where
  runs : (s.strand o.strand).runs o.task = true
  awake : ∀ a ∈ o.touches, s.heldAt a = false ∧ s.lostAt a = false
  keyed : s.platKeyless o = false
  reached : reach = true ∨ ∀ a ∈ o.touches, paType a ≠ 3 ∧ paType a ≠ 4

/-- It ends with what it performs, its mark and its record. -/
theorem Endable.platEnd {reach : Bool} (h : Endable s o reach) (sl : Fin 16) (u : State) (status : Byte) (done : Nat) (hkey : u.keys = s.keys) :
    s.platEnd sl o reach u status done = (u.marked o).concluded sl o status done := by
  have hheld : s.inHeld o.touches = false := List.any_eq_false.mpr fun a ha => by
    have := (Bool.or_eq_false_iff.mp (h.awake a ha).1).1
    simpa using this
  have hlost : (o.touches.any fun pa => s.lostAt pa) = false := List.any_eq_false.mpr fun a ha => by simp [(h.awake a ha).2]
  have hreach : (o.touches.any fun pa => s.unreachable pa || (!reach && (paType pa == 3 || paType pa == 4))) = false :=
    List.any_eq_false.mpr fun a ha => by
      rw [State.unreachable_of_heldAt (h.awake a ha).1]
      rcases h.reached with hr | hr
      · simp [hr]
      · simp [hr a ha]
  have hslot : ∀ slot, u.slotKey slot = s.slotKey slot := fun slot => by simp only [State.slotKey, hkey]
  unfold State.platEnd
  simp only [hheld, h.keyed, hlost, hreach, Bool.false_eq_true, if_false]
  unfold State.marked
  cases o.mark with
  | none => rfl
  | some m => rw [hslot]; rfl

/-- What an operation performs, then its mark and its record. -/
theorem Endable.ends {reach : Bool} (h : Endable s o reach) (hp : Performs s u (s.slotKey o.acc.key) ws)
    (hw : Writable s ((ws ++ o.markWrites).map Prod.fst)) (sl : Fin 16) (status : Byte) (done : Nat) :
    PlatEnded s sl o status (if o.scatter.isSome then 2 else 1) done (s.platEnd sl o reach u status done)
      ∧ BytesWritten s (s.platEnd sl o reach u status done) (s.slotKey o.acc.key) (ws ++ o.markWrites) := by
  have hkeys : u.keys = s.keys := by
    obtain ⟨_, _, _, _, _, _, _, _, hu⟩ := hp.rest
    rw [hu]
  have hslot : u.slotKey o.acc.key = s.slotKey o.acc.key := by simp only [State.slotKey, hkeys]
  have hmark := u.marked_performs o (hp.writable hw.right)
  rw [hslot] at hmark
  have hall := hp.trans hmark hw
  rw [h.platEnd sl u status done hkeys]
  exact ⟨State.concluded_ended hall.rest h.runs status done, hall.concluded sl o status done⟩

/-! ### Gathers -/

/-- The bytes that a gather writes (R140). -/
def State.gatherWrites (s : State) (o : PlatOp) : List (Nat × Byte) :=
  o.mem.zip ((o.plat.pas.flatMap id).map fun pa => s.taskByte o.task o.strand .A (s.slotKey o.acc.key) pa)

theorem State.gatherAll_performs (hw : Writable s ((s.gatherWrites o).map Prod.fst)) :
    Performs s (s.gatherAll o) (s.slotKey o.acc.key) (s.gatherWrites o) :=
  (s.scatterBytes_performs (s.slotKey_lt _) hw).poisonAll _

end Sys2Proof.Machine
end

