-- ==== Sys2Proof/Proofs/PlatScatter.lean ====
section
/-! PROOFS. What a scatter performs (R127, R136, R141): its unique targets in the order of their first elements, each combined with the
elements that name it. -/

namespace Sys2Proof.Machine

/-! ### Lists -/

theorem zip_flatMap {α β γ : Type} {f : α → List β} {g : α → List γ} {l : List α} (h : ∀ a ∈ l, (f a).length = (g a).length) :
    (l.flatMap f).zip (l.flatMap g) = l.flatMap fun a => (f a).zip (g a) := by
  induction l with
  | nil => rfl
  | cons a l ih =>
    rw [List.forall_mem_cons] at h
    simp only [List.flatMap_cons]
    rw [List.zip_append h.1, ih h.2]

theorem flatMap_filter_of_nil {α β : Type} {p : α → Bool} {f : α → List β} {l : List α} (h : ∀ a ∈ l, p a = false → f a = []) :
    (l.filter p).flatMap f = l.flatMap f := by
  induction l with
  | nil => rfl
  | cons a l ih =>
    rw [List.forall_mem_cons] at h
    rw [List.flatMap_cons, ← ih h.2]
    cases hp : p a with
    | true => rw [List.filter_cons_of_pos hp, List.flatMap_cons]
    | false => rw [List.filter_cons_of_neg (by simp [hp]), h.1 hp, List.nil_append]

theorem chunksOf_getD {α : Type} (n : Nat) {f j : Nat} (hj : j < f) (xs : List α) : (chunksOf n f xs).getD j [] = (xs.drop (j * n)).take n := by
  induction f generalizing j xs with
  | zero => omega
  | succ f ih =>
    unfold chunksOf
    split
    · next h =>
      rw [List.isEmpty_iff.mp h]
      simp
    · cases j with
      | zero => simp
      | succ j => rw [List.getD_cons_succ, ih (by omega), List.drop_drop, Nat.succ_mul, Nat.add_comm]

/-! ### Unique targets and the elements that name them -/

theorem mem_uniqueTa {l : List W64} {a : W64} : a ∈ uniqueTa l ↔ a ∈ l := by
  induction l with
  | nil => rfl
  | cons b l ih =>
    rw [uniqueTa, List.mem_cons, List.mem_filter, ih, List.mem_cons, bne_iff_ne]
    by_cases h : a = b <;> simp [h]

theorem nodup_uniqueTa (l : List W64) : (uniqueTa l).Nodup := by
  induction l with
  | nil => exact List.nodup_nil
  | cons b l ih =>
    rw [uniqueTa, List.nodup_cons]
    exact ⟨fun h => by simpa using (List.mem_filter.mp h).2, ih.filter _⟩

/-- The elements of a plat that name a target. -/
def Plat.naming (p : Plat) (a : W64) : List Nat := (List.range p.ta.length).filter fun j => p.ta.getD j 0 == a

theorem Plat.naming_eq (p : Plat) (a : W64) : (p.ta.zipIdx.filter fun e => e.1 == a).map (fun e => e.2) = p.naming a := by
  have hz : p.ta.zipIdx = (List.range p.ta.length).map fun j => (p.ta.getD j 0, j) := by
    refine List.ext_getElem (by simp) fun i h1 h2 => ?_
    simp only [List.length_map, List.length_range] at h2
    rw [List.getElem_zipIdx, List.getElem_map, List.getElem_range, List.getD_eq_getElem _ _ h2, Nat.zero_add]
  rw [hz, List.filter_map, List.map_map]
  exact List.map_id _

/-- The first of them. -/
theorem Plat.naming_head (p : Plat) {a : W64} (ha : a ∈ p.ta) : (p.naming a).headD 0 = p.ta.idxOf a := by
  have hlt := List.idxOf_lt_length_of_mem ha
  have hfind : (p.naming a).head? = some (p.ta.idxOf a) := by
    rw [Plat.naming, List.head?_filter, List.find?_range_eq_some]
    refine ⟨?_, List.mem_range.mpr hlt, fun j hj => ?_⟩
    · rw [List.getD_eq_getElem _ _ hlt, List.getElem_idxOf hlt, beq_self_eq_true]
    · rw [List.getD_eq_getElem _ _ (hj.trans hlt)]
      simpa using List.not_of_lt_findIdx hj
  rw [List.headD_eq_head?_getD, hfind]
  rfl

/-- The PAs of a target: those of the first element that names it. -/
def Plat.targetPas (p : Plat) (a : W64) : List Nat := p.pas.getD (p.ta.idxOf a) []

theorem Plat.groupsOf_eq (p : Plat) : p.groupsOf = (uniqueTa p.ta).map fun a => (p.targetPas a, p.naming a) := by
  refine List.map_congr_left fun a ha => ?_
  show (p.pas.getD (List.headD _ 0) [], _) = _
  rw [p.naming_eq, p.naming_head (mem_uniqueTa.mp ha)]
  rfl

/-! ### One target -/

section
variable {s : State} {o : PlatOp} {op : ScatOp} {ty : ScatType} {key : Nat} {src : List (List (Byte × Bool))} {pas js : List Nat}

/-- The PAs of an operation's element in memory. -/
def PlatOp.place (o : PlatOp) (j : Nat) : List Nat := (o.mem.drop (j * o.plat.sz)).take o.plat.sz

/-- A target's value combined with elements (R141). -/
def PlatOp.combine (o : PlatOp) (op : ScatOp) (ty : ScatType) (src : List (List (Byte × Bool))) (old : List Byte) (js : List Nat) : Nat :=
  js.foldl (fun a j => scatFn op ty (8 * o.plat.sz) a (leNat ((src.getD j []).map fun b => b.1))) (leNat old)

/-- What a swap brings back for some elements: the target's old bytes. -/
def PlatOp.backWrites (o : PlatOp) (op : ScatOp) (old : List Byte) (js : List Nat) : List (Nat × Byte) :=
  if op = .swap then js.flatMap fun j => (o.place j).zip old else []

/-- The bytes written for one target (R141). -/
def PlatOp.targetWrites (o : PlatOp) (op : ScatOp) (ty : ScatType) (src : List (List (Byte × Bool))) (old : List Byte) (pas js : List Nat) :
    List (Nat × Byte) :=
  if js.isEmpty then [] else pas.zip (leBytes o.plat.sz (o.combine op ty src old js)) ++ o.backWrites op old js

/-- A target's PAs are among the bytes written for it. -/
theorem PlatOp.pas_subset_targetWrites {old : List Byte} (hjs : js.isEmpty = false) (hlen : pas.length = o.plat.sz) :
    pas ⊆ (o.targetWrites op ty src old pas js).map Prod.fst := by
  unfold PlatOp.targetWrites
  rw [hjs, if_neg Bool.false_ne_true, List.map_append, List.map_fst_zip (by rw [length_leBytes, hlen])]
  exact List.subset_append_left _ _

theorem State.scatterTarget_performs
    (hw : Writable s ((o.targetWrites op ty src (s.bytesAt none (s.slotKey o.acc.key) pas) pas js).map Prod.fst)) :
    Performs s (s.scatterTarget o op ty src pas js) (s.slotKey o.acc.key)
      (o.targetWrites op ty src (s.bytesAt none (s.slotKey o.acc.key) pas) pas js) := by
  have hk := s.slotKey_lt o.acc.key
  unfold PlatOp.targetWrites PlatOp.backWrites at hw ⊢
  unfold State.scatterTarget
  by_cases hjs : js.isEmpty = true
  · rw [if_pos hjs, if_pos hjs]
    exact .nil s _
  rw [if_neg hjs] at hw ⊢
  rw [if_neg hjs]
  extract_lets sz key oldBs bytes a bad oldBad s1 s2
  have hs1 : Performs s s1 key (pas.zip (leBytes sz a)) :=
    s.scatterBytes_performs hk hw.left
  have hs2 : Performs s s2 key (pas.zip (leBytes sz a)) := by
    simp only [s2]
    split
    · exact hs1.poisonAll pas
    · exact hs1
  by_cases hop : op = .swap
  · rw [if_pos hop] at hw ⊢
    rw [if_pos (beq_iff_eq.mpr hop)]
    refine hs2.trans (Performs.foldl (fun j _ u _ _ _ hwj => ?_) (hs2.writable hw.right)) hw
    have hput := u.scatterBytes_performs hk hwj
    dsimp only
    split
    · exact hput.poisonAll _
    · exact hput
  · rw [if_neg hop, List.append_nil]
    rw [if_neg (by simpa using hop)]
    exact hs2

/-! ### All targets -/

/-- The bytes written for a unique target, from the core's bytes before the scatter. -/
def State.writesAt (s : State) (o : PlatOp) (op : ScatOp) (ty : ScatType) (src : List (List (Byte × Bool))) (g : List Nat × List Nat) :
    List (Nat × Byte) :=
  o.targetWrites op ty src (s.bytesAt none (s.slotKey o.acc.key) g.1) g.1 g.2

/-- Each target is read as it was before the scatter: no target before it wrote its bytes, and draining their lines has not changed them. -/
theorem State.scatterAll_performs {squash : List Bool} (ho : o.scatter = some (op, ty))
    (hlen : ∀ g ∈ o.plat.groupsOf, g.1.length = o.plat.sz)
    (hkey : ∀ e ∈ s.wcb, e.key = s.slotKey o.acc.key ∨ isHbm e.pa = false)
    (hw : Writable s ((o.plat.groupsOf.flatMap fun g => s.writesAt o op ty src (g.1, g.2.filter fun j => !squash.getD j false)).map Prod.fst)) :
    Performs s (s.scatterAll o src squash) (s.slotKey o.acc.key)
      (o.plat.groupsOf.flatMap fun g => s.writesAt o op ty src (g.1, g.2.filter fun j => !squash.getD j false)) := by
  unfold State.scatterAll
  rw [ho]
  refine Performs.foldl (fun g hg u ws hu hwg hwu => ?_) hw
  have hslot : u.slotKey o.acc.key = s.slotKey o.acc.key := by
    obtain ⟨_, _, _, _, _, _, _, _, hr⟩ := hu.rest
    rw [hr]
    rfl
  unfold State.writesAt at hwg hwu ⊢
  by_cases hnone : (g.2.filter fun j => !squash.getD j false).isEmpty = true
  · simp only [State.scatterTarget, PlatOp.targetWrites, hnone, if_true]
    exact .nil u _
  have hpas := PlatOp.pas_subset_targetWrites (o := o) (op := op) (ty := ty) (src := src)
    (old := s.bytesAt none (s.slotKey o.acc.key) g.1) (Bool.eq_false_iff.mpr hnone) (hlen g hg)
  have hold : u.bytesAt none (s.slotKey o.acc.key) g.1 = s.bytesAt none (s.slotKey o.acc.key) g.1 := by
    refine List.map_congr_left fun a ha => hu.coreByte (fun hws => ?_) (hwg.right.apart a (hpas ha)) fun e he _ => hkey e he
    have hnd := hwg.distinct
    rw [List.map_append] at hnd
    exact List.disjoint_of_nodup_append hnd hws (hpas ha)
  have h := u.scatterTarget_performs (op := op) (ty := ty) (src := src) (pas := g.1) (js := g.2.filter fun j => !squash.getD j false) (o := o)
  rw [hslot, hold] at h
  exact h hwu

end

end Sys2Proof.Machine
end

