-- ==== Sys2Proof/Proofs/PlatScatterBytes.lean ====
section
/-! PROOFS. The bytes that a scatter writes, target by target (R141): those of its live targets, then what a swap brings back to memory. -/

namespace Sys2Proof.Machine

/-- The elements of a plat that name a target and are not squashed (R141). -/
def Plat.namedBy (p : Plat) (squash : List Bool) (a : W64) : List Nat :=
  (List.range p.n).filter fun j => p.ta.getD j 0 == a && !squash.getD j false

/-- The unique targets that such an element names. -/
def Plat.live (p : Plat) (squash : List Bool) : List W64 := (uniqueTa p.ta).filter fun a => !(p.namedBy squash a).isEmpty

/-- The elements that a swap brings their targets' old bytes to. -/
def Plat.backs (p : Plat) (op : ScatOp) (squash : List Bool) : List Nat :=
  if op = .swap then (List.range p.n).filter fun j => !squash.getD j false else []

/-- An operation's plat and its range in memory have one entry for each element (R124, R139). -/
structure PlatOp.Sized (o : PlatOp) : Prop where
  pas : o.plat.pas.length = o.plat.n
  ta : o.plat.ta.length = o.plat.n
  elem : ∀ q ∈ o.plat.pas, q.length = o.plat.sz
  mem : o.mem.length = o.plat.n * o.plat.sz

/-- An element's value in memory, as the task that pushed the operation sees it. -/
def State.elementVal (s : State) (o : PlatOp) (j : Nat) : Nat :=
  leNat ((o.place j).map fun pa => s.taskByte o.task o.strand .A (s.slotKey o.acc.key) pa)

/-- The bytes of a target before the scatter. -/
def State.targetOld (s : State) (o : PlatOp) (a : W64) : List Byte := s.bytesAt none (s.slotKey o.acc.key) (o.plat.targetPas a)

/-- A target's value after it (R141). -/
def State.targetNew (s : State) (o : PlatOp) (op : ScatOp) (ty : ScatType) (a : W64) : Nat :=
  (o.plat.namedBy (s.platSquash o) a).foldl (fun v j => scatFn op ty (8 * o.plat.sz) v (s.elementVal o j)) (leNat (s.targetOld o a))

section
variable {s : State} {o : PlatOp} {p : Plat} {op : ScatOp} {ty : ScatType} {squash : List Bool} {a : W64} {j : Nat}

/-! ### Elements and targets -/

theorem Plat.mem_namedBy : j ∈ p.namedBy squash a ↔ j < p.n ∧ p.ta.getD j 0 = a ∧ squash.getD j false = false := by
  simp [Plat.namedBy]

theorem Plat.naming_filter (h : p.ta.length = p.n) : ((p.naming a).filter fun j => !squash.getD j false) = p.namedBy squash a := by
  rw [Plat.naming, Plat.namedBy, List.filter_filter, h]
  exact List.filter_congr fun j _ => Bool.and_comm _ _

/-- Every element not squashed names one live target. -/
theorem Plat.live_flatMap_namedBy (h : p.ta.length = p.n) :
    ((p.live squash).flatMap (p.namedBy squash)).Perm ((List.range p.n).filter fun j => !squash.getD j false) := by
  refine (List.perm_ext_iff_of_nodup ?_ (List.nodup_range.filter _)).mpr fun j => ?_
  · refine List.nodup_flatMap.mpr ⟨fun a _ => List.nodup_range.filter _, (nodup_uniqueTa p.ta).filter _ |>.imp fun hab j hj hj' => hab ?_⟩
    exact (Plat.mem_namedBy.mp hj).2.1.symm.trans (Plat.mem_namedBy.mp hj').2.1
  · simp only [List.mem_flatMap, Plat.mem_namedBy, List.mem_filter, List.mem_range, Bool.not_eq_true']
    constructor
    · rintro ⟨a, -, hn, -, hs⟩
      exact ⟨hn, hs⟩
    · rintro ⟨hn, hs⟩
      have hj : j ∈ p.namedBy squash (p.ta.getD j 0) := Plat.mem_namedBy.mpr ⟨hn, rfl, hs⟩
      refine ⟨p.ta.getD j 0, List.mem_filter.mpr ⟨mem_uniqueTa.mpr ?_, ?_⟩, hn, rfl, hs⟩
      · rw [List.getD_eq_getElem _ _ (h ▸ hn)]
        exact List.getElem_mem _
      · simpa using List.ne_nil_of_mem hj

theorem PlatOp.Sized.targetPas (h : o.Sized) (ha : a ∈ o.plat.ta) : (o.plat.targetPas a).length = o.plat.sz := by
  have hlt : o.plat.ta.idxOf a < o.plat.pas.length := by
    rw [h.pas, ← h.ta]
    exact List.idxOf_lt_length_of_mem ha
  rw [Plat.targetPas, List.getD_eq_getElem _ _ hlt]
  exact h.elem _ (List.getElem_mem _)

theorem PlatOp.Sized.place (h : o.Sized) (hj : j < o.plat.n) : (o.place j).length = o.plat.sz := by
  have hle : (j + 1) * o.plat.sz ≤ o.plat.n * o.plat.sz := Nat.mul_le_mul_right _ hj
  rw [Nat.succ_mul] at hle
  rw [PlatOp.place, List.length_take, List.length_drop, h.mem]
  omega

theorem State.targetOld_length (s : State) (o : PlatOp) (a : W64) : (s.targetOld o a).length = (o.plat.targetPas a).length :=
  List.length_map _

/-- A source element is the bytes at its place. -/
theorem State.platSource_val (hj : j < o.plat.n) : leNat (((s.platSource o).getD j []).map fun b => b.1) = s.elementVal o j := by
  rw [State.platSource, chunksOf_getD _ hj, ← List.map_drop, ← List.map_take, List.map_map]
  rfl

theorem State.combine_platSource (s : State) (o : PlatOp) (op : ScatOp) (ty : ScatType) (a : W64) :
    o.combine op ty (s.platSource o) (s.targetOld o a) (o.plat.namedBy (s.platSquash o) a) = s.targetNew o op ty a :=
  List.foldl_ext _ _ _ fun v j hj => by rw [State.platSource_val (Plat.mem_namedBy.mp hj).1]

/-! ### The bytes written -/

/-- The bytes that a scatter writes at its targets. -/
def State.liveWrites (s : State) (o : PlatOp) (op : ScatOp) (ty : ScatType) : List (Nat × Byte) :=
  ((o.plat.live (s.platSquash o)).flatMap o.plat.targetPas).zip
    ((o.plat.live (s.platSquash o)).flatMap fun a => leBytes o.plat.sz (s.targetNew o op ty a))

/-- The bytes that a swap brings back to memory. -/
def State.backWrites (s : State) (o : PlatOp) (op : ScatOp) : List (Nat × Byte) :=
  ((o.plat.backs op (s.platSquash o)).flatMap o.place).zip
    ((o.plat.backs op (s.platSquash o)).flatMap fun j => s.targetOld o (o.plat.ta.getD j 0))

theorem Plat.live_subset (ha : a ∈ p.live squash) : a ∈ p.ta := mem_uniqueTa.mp (List.mem_filter.mp ha).1

theorem Plat.backs_lt (hj : j ∈ p.backs op squash) : j < p.n := by
  unfold Plat.backs at hj
  split at hj
  · exact List.mem_range.mp (List.mem_filter.mp hj).1
  · cases hj

theorem PlatOp.Sized.old_length (h : o.Sized) (hj : j < o.plat.n) : (s.targetOld o (o.plat.ta.getD j 0)).length = o.plat.sz := by
  rw [s.targetOld_length, List.getD_eq_getElem _ _ (h.ta ▸ hj)]
  exact h.targetPas (List.getElem_mem _)

theorem PlatOp.Sized.liveWrites (h : o.Sized) : s.liveWrites o op ty =
    (o.plat.live (s.platSquash o)).flatMap fun a => (o.plat.targetPas a).zip (leBytes o.plat.sz (s.targetNew o op ty a)) :=
  zip_flatMap fun a ha => by rw [length_leBytes, h.targetPas (Plat.live_subset ha)]

theorem PlatOp.Sized.backWrites (h : o.Sized) : s.backWrites o op =
    (o.plat.backs op (s.platSquash o)).flatMap fun j => (o.place j).zip (s.targetOld o (o.plat.ta.getD j 0)) :=
  zip_flatMap fun j hj => by rw [h.place (Plat.backs_lt hj), h.old_length (Plat.backs_lt hj)]

theorem PlatOp.Sized.live_length (h : o.Sized) : ((o.plat.live (s.platSquash o)).flatMap o.plat.targetPas).length
    = ((o.plat.live (s.platSquash o)).flatMap fun a => leBytes o.plat.sz (s.targetNew o op ty a)).length := by
  simp only [List.length_flatMap, length_leBytes]
  exact congrArg List.sum (List.map_congr_left fun a ha => h.targetPas (Plat.live_subset ha))

theorem PlatOp.Sized.back_length (h : o.Sized) : ((o.plat.backs op (s.platSquash o)).flatMap o.place).length
    = ((o.plat.backs op (s.platSquash o)).flatMap fun j => s.targetOld o (o.plat.ta.getD j 0)).length := by
  simp only [List.length_flatMap]
  exact congrArg List.sum (List.map_congr_left fun j hj => by rw [h.place (Plat.backs_lt hj), h.old_length (Plat.backs_lt hj)])

/-- What a swap brings back for each target, all targets taken together. -/
theorem PlatOp.Sized.backWrites_perm (h : o.Sized) : ((o.plat.live (s.platSquash o)).flatMap fun a =>
    o.backWrites op (s.targetOld o a) (o.plat.namedBy (s.platSquash o) a)).Perm (s.backWrites o op) := by
  rw [h.backWrites]
  unfold PlatOp.backWrites Plat.backs
  by_cases hop : op = .swap
  · simp only [if_pos hop]
    have hold : ∀ a, ((o.plat.namedBy (s.platSquash o) a).flatMap fun j => (o.place j).zip (s.targetOld o a))
        = (o.plat.namedBy (s.platSquash o) a).flatMap fun j => (o.place j).zip (s.targetOld o (o.plat.ta.getD j 0)) := fun a =>
      List.flatMap_congr fun j hj => by rw [(Plat.mem_namedBy.mp hj).2.1]
    simp only [hold]
    rw [← List.flatMap_assoc]
    exact (Plat.live_flatMap_namedBy h.ta).flatMap_right _
  · simp only [if_neg hop, List.flatMap_nil]
    simp

/-- A scatter's bytes, gathered from its targets. -/
theorem PlatOp.Sized.writesAt_perm (h : o.Sized) : (o.plat.groupsOf.flatMap fun g => s.writesAt o op ty (s.platSource o)
    (g.1, g.2.filter fun j => !(s.platSquash o).getD j false)).Perm (s.liveWrites o op ty ++ s.backWrites o op) := by
  have hone : ∀ a ∈ o.plat.live (s.platSquash o),
      s.writesAt o op ty (s.platSource o) (o.plat.targetPas a, o.plat.namedBy (s.platSquash o) a)
        = (o.plat.targetPas a).zip (leBytes o.plat.sz (s.targetNew o op ty a))
          ++ o.backWrites op (s.targetOld o a) (o.plat.namedBy (s.platSquash o) a) := fun a ha => by
    have hne : (o.plat.namedBy (s.platSquash o) a).isEmpty = false := by simpa using (List.mem_filter.mp ha).2
    unfold State.writesAt PlatOp.targetWrites
    rw [hne, if_neg Bool.false_ne_true]
    exact congrArg (fun v => (o.plat.targetPas a).zip (leBytes o.plat.sz v) ++ _) (s.combine_platSource o op ty a)
  rw [Plat.groupsOf_eq, List.flatMap_map]
  simp only [Plat.naming_filter h.ta]
  rw [← flatMap_filter_of_nil (p := fun a => !(o.plat.namedBy (s.platSquash o) a).isEmpty)]
  · refine (List.Perm.of_eq (List.flatMap_congr hone)).trans ((List.flatMap_append_perm _ _ _).symm.trans ?_)
    rw [h.liveWrites]
    exact h.backWrites_perm.append_left _
  · intro a _ ha
    unfold State.writesAt PlatOp.targetWrites
    rw [if_pos (by simpa using ha)]

/-- A scatter performed writes the new bytes of its live targets and what a swap brings back. -/
theorem PlatOp.Sized.scatterAll_performs (h : o.Sized) (ho : o.scatter = some (op, ty))
    (hkey : ∀ e ∈ s.wcb, e.key = s.slotKey o.acc.key ∨ isHbm e.pa = false)
    (hw : Writable s ((s.liveWrites o op ty ++ s.backWrites o op).map Prod.fst)) :
    Performs s (s.scatterAll o (s.platSource o) (s.platSquash o)) (s.slotKey o.acc.key) (s.liveWrites o op ty ++ s.backWrites o op) := by
  have hlen : ∀ g ∈ o.plat.groupsOf, g.1.length = o.plat.sz := fun g hg => by
    rw [Plat.groupsOf_eq, List.mem_map] at hg
    obtain ⟨a, ha, rfl⟩ := hg
    exact h.targetPas (mem_uniqueTa.mp ha)
  exact (State.scatterAll_performs ho hlen hkey (hw.perm (h.writesAt_perm.symm.map _))).perm h.writesAt_perm

end

end Sys2Proof.Machine
end

