-- ==== Sys2Proof/Proofs/PlatTransfers.lean ====
section
/-! PROOFS. Gathers and scatters, from the push to the record (R133, R136, R137, R140, R141). -/

namespace Sys2Proof.Machine

section
variable {s : State} {sl : Fin 16} {reach : Bool} {o : PlatOp} {op : ScatOp} {ty : ScatType}

theorem execPlatGatherComplete_of (hop : (s.platSlots.get sl).op = some o) (hs : o.scatter = none) :
    exec (.platGatherComplete sl reach) s = .next (s.platEnd sl o reach (s.gatherAll o) 0 (uniqueTa o.plat.ta).length) := by
  rw [exec_platGatherComplete, execPlatGatherComplete, hop]
  dsimp only
  rw [hs]
  rfl

theorem execPlatScatterComplete_of (hop : (s.platSlots.get sl).op = some o) (hs : o.scatter = some (op, ty)) :
    exec (.platScatterComplete sl reach) s = .next (if o.deferred then s.platEnd sl o reach s 3 o.captured
      else s.platEnd sl o reach (s.scatterAll o (s.platSource o) (s.platSquash o)) 0 (uniqueTa o.plat.ta).length) := by
  rw [exec_platScatterComplete, execPlatScatterComplete, hop]
  dsimp only
  rw [hs]
  cases o.deferred <;> rfl

/-- A gather's end (R136, R140). -/
theorem Endable.gather (h : Endable s o reach) (hop : (s.platSlots.get sl).op = some o) (hs : o.scatter = none)
    (hlen : o.mem.length = (o.plat.pas.flatMap id).length) (hw : Writable s (o.mem ++ o.markPas)) :
    ∃ t, exec (.platGatherComplete sl reach) s = .next t ∧ PlatEnded s sl o 0 1 (uniqueTa o.plat.ta).length t
      ∧ BytesWritten s t (s.slotKey o.acc.key) ((o.mem ++ o.markPas).zip
          (((o.plat.pas.flatMap id).map fun pa => s.taskByte o.task o.strand .A (s.slotKey o.acc.key) pa) ++ o.markBytes)) := by
  have hfst : (s.gatherWrites o).map Prod.fst = o.mem := List.map_fst_zip (by rw [List.length_map, hlen])
  rw [List.zip_append (by rw [List.length_map, hlen]), ← o.markWrites_eq]
  rw [← hfst, ← o.markPas_eq, ← List.map_append] at hw
  have hend := h.ends (State.gatherAll_performs hw.left) hw sl 0 (uniqueTa o.plat.ta).length
  rw [hs] at hend
  exact ⟨_, execPlatGatherComplete_of hop hs, hend⟩

/-- A scatter left to the wave fence ends with status 3 (R138). -/
theorem Endable.deferredScatter (h : Endable s o reach) (hop : (s.platSlots.get sl).op = some o) (hs : o.scatter = some (op, ty))
    (hd : o.deferred = true) (hw : Writable s o.markPas) :
    ∃ t, exec (.platScatterComplete sl reach) s = .next t ∧ PlatEnded s sl o 3 2 o.captured t
      ∧ BytesWritten s t (s.slotKey o.acc.key) (o.markPas.zip o.markBytes) := by
  rw [← o.markPas_eq] at hw
  have hend := h.ends (.nil s _) hw sl 3 o.captured
  rw [hs, List.nil_append, o.markWrites_eq] at hend
  exact ⟨_, (execPlatScatterComplete_of hop hs).trans (by rw [if_pos hd]), hend⟩

/-- A scatter performed (R141). -/
theorem Endable.scatter (h : Endable s o reach) (hop : (s.platSlots.get sl).op = some o) (hs : o.scatter = some (op, ty))
    (hd : o.deferred = false) (hz : o.Sized) (hkey : ∀ e ∈ s.wcb, e.key = s.slotKey o.acc.key ∨ isHbm e.pa = false)
    (hw : Writable s ((o.plat.live (s.platSquash o)).flatMap o.plat.targetPas
      ++ (o.plat.backs op (s.platSquash o)).flatMap o.place ++ o.markPas)) :
    ∃ t, exec (.platScatterComplete sl reach) s = .next t ∧ PlatEnded s sl o 0 2 (uniqueTa o.plat.ta).length t
      ∧ BytesWritten s t (s.slotKey o.acc.key) (((o.plat.live (s.platSquash o)).flatMap o.plat.targetPas
          ++ (o.plat.backs op (s.platSquash o)).flatMap o.place ++ o.markPas).zip
        ((o.plat.live (s.platSquash o)).flatMap (fun a => leBytes o.plat.sz (s.targetNew o op ty a))
          ++ (o.plat.backs op (s.platSquash o)).flatMap (fun j => s.targetOld o (o.plat.ta.getD j 0)) ++ o.markBytes)) := by
  have hlive := hz.live_length (s := s) (op := op) (ty := ty)
  have hback := hz.back_length (s := s) (op := op)
  have hlw : (s.liveWrites o op ty).map Prod.fst = (o.plat.live (s.platSquash o)).flatMap o.plat.targetPas := List.map_fst_zip hlive.le
  have hbw : (s.backWrites o op).map Prod.fst = (o.plat.backs op (s.platSquash o)).flatMap o.place := List.map_fst_zip hback.le
  rw [List.zip_append (by rw [List.length_append, List.length_append, hlive, hback]), List.zip_append hlive, ← o.markWrites_eq]
  rw [← hlw, ← hbw, ← o.markPas_eq, ← List.map_append, ← List.map_append] at hw
  have hend := h.ends (hz.scatterAll_performs hs hkey hw.left) hw sl 0 (uniqueTa o.plat.ta).length
  rw [hs] at hend
  exact ⟨_, (execPlatScatterComplete_of hop hs).trans (by rw [if_neg (by simp [hd])]), hend⟩

end

/-- A push of an instruction that passes its checks takes the lowest free slot, or waits behind the others (R137). -/
theorem PushOk.goes {s : State} {q : PlatReq} {p : Plat} {form : PushForm} {i : Instr} (h : PushOk s q p form)
    (hx : exec i s = .next (s.platGo q.strand q false)) :
    (∀ sl : Fin 16, s.platQ = [] → ((s.platSlots.get sl).op = none ∧ ∀ j < sl, (s.platSlots.get j).op ≠ none) →
      ∃ t, exec i s = .next t ∧ SlotTaken s q p form sl t)
    ∧ ((s.platQ ≠ [] ∨ ∀ sl, (s.platSlots.get sl).op ≠ none) → ∃ t, exec i s = .next t ∧ t.platQ = s.platQ ++ [q]
      ∧ (t.stream q.strand .A).status = .platWait ∧ (t.stream q.strand .A).pc = (s.stream q.strand .A).pc ∧ t.platSlots = s.platSlots) := by
  obtain ⟨hfree, hwait⟩ := h.pushed
  refine ⟨fun sl hq hlow => ?_, fun hw => ?_⟩
  · rw [hfree sl hq hlow.1 hlow.2] at hx
    exact ⟨_, hx, s.takeSlot_taken q p form sl⟩
  · rw [hwait hw] at hx
    exact ⟨_, hx, rfl, by rw [State.queued_stream], by rw [State.queued_stream], rfl⟩

/-- Settles O50: a push that passes its checks takes the lowest free slot or waits, a waiting one does so when it is tried again, and an
operation that nothing keeps from ending writes its bytes run by run, each run leaving what the runs before it wrote; the targets of a
scatter, read one after another, read as before it, and their writes taken together are a permutation of the statement's. -/
theorem platTransfers : Obligations.PlatTransfers := by
  unfold Obligations.PlatTransfers
  intro s st
  refine ⟨fun dev rd xh xm xmark xval => ⟨?platg, ?plats⟩, ?start, ?ends⟩
  case platg =>
    rintro ha p form ⟨hv, hc, hf, hn, hr, hd⟩
    obtain ⟨hfree, hwait⟩ := PushOk.goes ⟨hv, hc, hf, hn, hr, hd⟩ (execPlatg_of ha hv)
    refine ⟨fun sl hq hlow => ?_, hwait⟩
    obtain ⟨t, ht, hop, hseq, hslots, hres, hrd, hpc, hrun, hmem⟩ := hfree sl hq hlow
    exact ⟨t, ht, hop, hseq, hslots, hres, hrd, hpc, hrun, hmem⟩
  case plats =>
    rintro op ty pl xpl ha p form ⟨hv, hc, hf, hn, hr, hd⟩
    obtain ⟨hfree, hwait⟩ := PushOk.goes ⟨hv, hc, hf, hn, hr, hd⟩ (execPlats_of ha hv)
    refine ⟨fun sl hq hlow => ?_, hwait⟩
    obtain ⟨t, ht, hop, hseq, hslots, hres, hrd, hpc, hrun, hmem⟩ := hfree sl hq hlow
    exact ⟨t, ht, hop, hseq, hslots, hres, hrd, hpc, hrun, hmem⟩
  case start =>
    rintro q rest p form sl hq ⟨hi, hlow⟩ ⟨hv, hc, hf, hn, hr, hd⟩
    have hok : PushOk (s.retrying q rest) q p form := ⟨hv, hc, hf, hn, hr, hd⟩
    have hx : exec .platOpStart s = .next ((s.retrying q rest).takeSlot q p form sl) := by
      rw [execPlatOpStart_of hq hi hlow, hok.granted hi hlow]
    obtain ⟨hop, hseq, hslots, hres, hrd, hpc, hrun, hmem⟩ := ((s.retrying q rest).takeSlot_taken q p form sl).of_retrying
    exact ⟨_, hx, rfl, hop, hseq, hslots, hres, hrd, hpc, hrun, hmem⟩
  case ends =>
    intro sl reach o hop hruns hawake hkeyed hreached
    have he : Endable s o reach := ⟨hruns, hawake, hkeyed, hreached⟩
    refine ⟨fun hs _ hlen hw => ?_, fun op ty hs => ⟨fun hd hw => ?_, fun hd hpas hta helem hmem => ?_⟩⟩
    · obtain ⟨t, ht, ⟨hslots, hrecord, hfaults⟩, hb⟩ := he.gather hop hs hlen hw
      exact ⟨t, ht, ⟨hslots, hrecord, hfaults⟩, hb⟩
    · obtain ⟨t, ht, ⟨hslots, hrecord, hfaults⟩, hb⟩ := he.deferredScatter hop hs hd hw
      exact ⟨t, ht, ⟨hslots, hrecord, hfaults⟩, hb⟩
    · intro first pas named val old new live back backPas hw hkey
      obtain ⟨t, ht, ⟨hslots, hrecord, hfaults⟩, hb⟩ := he.scatter hop hs hd ⟨hpas, hta, helem, hmem⟩ hkey hw
      exact ⟨t, ht, ⟨hslots, hrecord, hfaults⟩, hb⟩

end Sys2Proof.Machine
end

