-- ==== Sys2Proof/Proofs/CopyPush.lean ====
section
/-! PROOFS. What a push to the copy engine leaves (R153, R155, R165): a channel taken, or a place among the waiting ones; what `ENQ` reads
(R166); and what a push to the network engine leaves (R364). -/

namespace Sys2Proof.Machine

/-- An entry of a vector after one of them was replaced. -/
theorem vec_get_set_ite {α : Type} {n : Nat} (v : Vector α n) (i j : Fin n) (a : α) :
    (v.set i.val a i.isLt).get j = if j = i then a else v.get j := by
  split
  · next h => rw [h, vec_get_set_fin]
  · next h => exact vec_get_set_other _ _ i.isLt _ _ fun e => h (Fin.ext e.symm)

/-- A push of a transfer passes every check, and waits for nothing but a channel (R161, R165). -/
structure CopyOk (s : State) (st : Fin 4) (p : CopyPush) : Prop where
  form : p.formOk = true
  aligned : p.misaligned = none
  atOnce : (s.strand st).det = true → p.mode ≠ 2 ∧ p.mark = 0 ∧ s.copyInside (s.newCopy st 0 p false) = true
  room : s.fifoFull st 0 = false
  fenced : s.fenced st .A (if p.dev then .dev else .cor) = true

/-- No transfer uses a channel, and each one below it has one (log 101). -/
def State.LowestFree (s : State) (ch : Fin 16) : Prop := (s.channels.get ch).copy = none ∧ ∀ j < ch, (s.channels.get j).copy ≠ none

/-- The id of the transfer that a channel takes next (R155). -/
def State.nextCopyId (s : State) (ch : Fin 16) : BitVec 16 := BitVec.ofNat 4 ch.val ++ (s.channels.get ch).seq

/-- A push has taken a channel. -/
structure ChannelTaken (s : State) (st : Fin 4) (rd : Reg) (p : CopyPush) (ch : Fin 16) (t : State) : Prop where
  copy : ∃ c, (t.channels.get ch).copy = some c ∧ c.push = p ∧ c.id = s.nextCopyId ch ∧ c.strand = st ∧ c.task = (s.strand st).task
    ∧ c.acc = s.acc st
  seq : (t.channels.get ch).seq = (s.channels.get ch).seq + 1
  channels : ∀ j, j ≠ ch → t.channels.get j = s.channels.get j
  reserved : (t.strand st).resv.get 0 = (s.strand st).resv.get 0 + 1
  result : rd ≠ 0 → t.readX st .A rd = (s.nextCopyId ch).setWidth 64
  pc : (t.stream st .A).pc = (s.stream st .A).pc + 4
  runs : (t.stream st .A).status = .run
  mem : t.mem = s.mem

section
variable {s : State} {st : Fin 4} {rd : Reg} {p : CopyPush} {ch : Fin 16}

/-! ### The channel -/

theorem State.LowestFree.freeCh (h : s.LowestFree ch) : s.freeCh = some ch := by
  obtain ⟨hfree, hlow⟩ := h
  refine List.find?_eq_some_iff_getElem.mpr ⟨by simp [hfree], ch.val, by simp, by simp, fun j hj => ?_⟩
  simpa [Option.isSome_iff_ne_none] using hlow ⟨j, hj.trans ch.isLt⟩ hj

theorem State.freeCh_full (h : ∀ ch, (s.channels.get ch).copy ≠ none) : s.freeCh = none :=
  List.find?_eq_none.mpr fun ch _ => by simpa using h ch

/-- A push takes a channel. -/
def State.takeChannel (s : State) (st : Fin 4) (rd : Reg) (p : CopyPush) (ch : Fin 16) : State :=
  let y : Channel := { seq := (s.channels.get ch).seq + 1, copy := some (s.newCopy st (s.nextCopyId ch) p false) }
  let s1 : State := { s with channels := s.channels.set ch.val y ch.isLt }
  (s1.modStrand st fun x => x.reserve 0).pushDone st .A rd ((s.nextCopyId ch).setWidth 64) 4

/-- A push waits behind the others (R155). -/
def State.copyWaits (s : State) (st : Fin 4) (rd : Reg) (p : CopyPush) : State :=
  ({ s with copyQ := s.copyQ ++ [{ strand := st, rd := rd, push := p }] } : State).wait st .A .copyWait

/-- A push that passes its checks takes the channel that is offered, or waits. -/
theorem CopyOk.copyGo (h : CopyOk s st p) (rd : Reg) (granted : Bool) : s.copyGo st .A rd p granted =
    match (if granted || s.copyQ.isEmpty then s.freeCh else none) with
    | none => s.copyWaits st rd p
    | some ch => s.takeChannel st rd p ch := by
  obtain ⟨hform, haligned, hdet, hroom, hfenced⟩ := h
  have hmode : ((s.strand st).det && p.mode == 2) = false :=
    Bool.and_eq_false_imp.mpr fun hd => beq_false_of_ne (hdet hd).1
  have hmark : ((s.strand st).det && p.mark != 0) = false :=
    Bool.and_eq_false_imp.mpr fun hd => bne_eq_false_iff_eq.mpr (hdet hd).2.1
  have hnow : ((s.strand st).det && !s.copyInside (s.newCopy st 0 p false)) = false :=
    Bool.and_eq_false_imp.mpr fun hd => by rw [(hdet hd).2.2, Bool.not_true]
  unfold State.copyGo
  extract_lets det probe mark deferred
  rw [hform, haligned]
  simp only [mark, deferred, det, probe, hmode, hmark, hnow, hroom, hfenced, Bool.not_true, Bool.false_and, Bool.or_self, Bool.false_eq_true, if_false]
  generalize (if (granted || s.copyQ.isEmpty) = true then s.freeCh else none) = slot
  cases slot with
  | none => rfl
  | some ch => rfl

theorem State.takeChannel_taken (s : State) (st : Fin 4) (rd : Reg) (p : CopyPush) (ch : Fin 16) :
    ChannelTaken s st rd p ch (s.takeChannel st rd p ch) := by
  unfold State.takeChannel
  extract_lets y s1
  obtain ⟨hpc, hruns, hresult, hresv⟩ :=
    (s1.modStrand st fun x => x.reserve 0).pushDone_stream st .A rd ((s.nextCopyId ch).setWidth 64) 4
  have hpush : ∀ j, (((s1.modStrand st fun x => x.reserve 0).pushDone st .A rd ((s.nextCopyId ch).setWidth 64) 4).channels.get j)
      = s1.channels.get j := fun _ => rfl
  have hch : s1.channels.get ch = y := vec_get_set_fin _ _ _
  refine { copy := ⟨s.newCopy st (s.nextCopyId ch) p false, ?_, rfl, rfl, rfl, rfl, rfl⟩, seq := ?_, channels := fun j hj => ?_
           reserved := ?_, result := hresult, pc := hpc.trans ?_, runs := hruns, mem := rfl }
  · rw [hpush, hch]
  · rw [hpush, hch]
  · exact (vec_get_set_ite _ _ _ _).trans (if_neg hj)
  · rw [hresv, State.strand_modStrand_same]
    exact vec_get_set_fin _ _ _
  · rw [State.stream, State.strand_modStrand_same]
    rfl

theorem State.copyWaits_stream (s : State) (st : Fin 4) (rd : Reg) (p : CopyPush) :
    (s.copyWaits st rd p).stream st .A = { s.stream st .A with status := .copyWait } := State.stream_modStream_same _ _ _ _

/-- An instruction that pushes a transfer that passes its checks takes the lowest free channel where no push waits, and waits behind the
others and where every channel is taken (R155, R165). -/
theorem CopyOk.goes (h : CopyOk s st p) {i : Instr} (hx : exec i s = .next (s.copyGo st .A rd p false)) :
    (∀ ch, s.copyQ = [] → s.LowestFree ch → ∃ t, exec i s = .next t ∧ ChannelTaken s st rd p ch t)
    ∧ ((s.copyQ ≠ [] ∨ ∀ ch, (s.channels.get ch).copy ≠ none) → exec i s = .next (s.copyWaits st rd p)) := by
  rw [hx, h.copyGo]
  refine ⟨fun ch hq hlow => ?_, fun hw => ?_⟩
  · rw [hq, hlow.freeCh]
    exact ⟨_, rfl, s.takeChannel_taken st rd p ch⟩
  · have hnone : (if (false || s.copyQ.isEmpty) = true then s.freeCh else none) = none := by
      rcases hw with hq | hfull
      · rw [Bool.false_or, if_neg fun he => hq (List.isEmpty_iff.mp he)]
      · rw [State.freeCh_full hfull, ite_self]
    rw [hnone]

/-! ### The oldest waiting push -/

/-- The state in which the oldest waiting push is tried again (R155; log 62). -/
def State.recopying (s : State) (c : CopyWait) (rest : List CopyWait) : State := { s with copyQ := rest }.wait c.strand .A .run

/-- `COPY_START` grants the lowest free channel to the oldest waiting push (R155). -/
theorem execCopyStart_of {c : CopyWait} {rest : List CopyWait} (hq : s.copyQ = c :: rest) (hlow : s.LowestFree ch)
    (h : CopyOk (s.recopying c rest) c.strand c.push) :
    exec .copyStart s = .next ((s.recopying c rest).takeChannel c.strand c.rd c.push ch) := by
  have hfree : (s.recopying c rest).freeCh = some ch := hlow.freeCh
  rw [exec_copyStart, execCopyStart, hq, hlow.freeCh]
  dsimp only
  show Host.Outcome.next ((s.recopying c rest).copyGo _ _ _ _ _) = _
  rw [h.copyGo, hfree]
  rfl

/-- What the retried push takes is what it would take of the state before. -/
theorem ChannelTaken.of_recopying {t : State} {c : CopyWait} {rest : List CopyWait}
    (h : ChannelTaken (s.recopying c rest) c.strand rd p ch t) : ChannelTaken s c.strand rd p ch t := by
  have hx : (s.recopying c rest).strand c.strand = (s.strand c.strand).modStream .A fun y => { y with status := .run } :=
    State.strand_modStrand_same _ _ _
  have hpc : ((s.recopying c rest).stream c.strand .A).pc = (s.stream c.strand .A).pc := by rw [State.stream, hx]; rfl
  have hacc : (s.recopying c rest).acc c.strand = s.acc c.strand := by rw [State.acc, hx]; rfl
  obtain ⟨hcopy, hseq, hchannels, hreserved, hresult, hpcs, hruns, hmem⟩ := h
  rw [hx] at hreserved hcopy
  rw [hacc] at hcopy
  exact ⟨hcopy, hseq, hchannels, hreserved, hresult, hpc ▸ hpcs, hruns, hmem⟩

/-! ### The record of `ENQ` (R166) -/

/-- The record of an `ENQ` can be read at once at a PA. -/
structure RecordAt (s : State) (st : Fin 4) (dev : Bool) (va : W64) (pa : Nat) : Prop where
  aligned : va.toNat % 64 = 0
  fenced : s.fenced st .A (if dev then .dev else .cor) = true
  xlate : s.vecXlate (s.acc st) va true false = .ok pa
  inside : s.inPart (s.acc st) pa = true
  clean : s.anyPoison st .A pa 64 = false

/-- Its bytes. -/
def State.recordBytes (s : State) (st : Fin 4) (pa : Nat) : List Byte := s.view (some (st, .A)) (s.slotKey (s.acc st).key) pa 64

/-- The push that a record stands for. -/
def recordPush (b : List Byte) (dev : Bool) : CopyPush := pushOf (fun i => BitVec.ofNat 64 (hdrNat b (8 * i) 8)) dev

theorem RecordAt.enqRecord {dev : Bool} {va : W64} {pa : Nat} (h : RecordAt s st dev va pa) (go : List Byte → State) :
    s.enqRecord st .A dev va go = go (s.recordBytes st pa) := by
  obtain ⟨haligned, hfenced, hxlate, hinside, hclean⟩ := h
  have hmod : (va.toNat % 64 != 0) = false := by rw [haligned]; rfl
  have hA : (StreamId.A == StreamId.E) = false := rfl
  simp only [State.enqRecord, hA, hmod, hfenced, hxlate, hinside, hclean, Bool.not_true, Bool.false_eq_true, if_false]
  rfl

theorem execCpgo_of (ha : s.cur.agent = .stream st .A) (dev : Bool) (rd : Reg) :
    exec (.cpgo dev rd) s = .next (s.copyGo st .A rd (pushOf (fun i => (s.strand st).shadow.get (fin 8 i)) dev) false) := by
  rw [exec_cpgo, execCpgo, onStream_eq ha, if_neg (by decide)]

theorem execEnqCopy_of (ha : s.cur.agent = .stream st .A) {dev : Bool} {rs : Reg} {pa : Nat} (h : RecordAt s st dev (s.readX st .A rs) pa)
    (rd : Reg) : exec (.enqCopy dev rd rs) s = .next (s.copyGo st .A rd (recordPush (s.recordBytes st pa) dev) false) := by
  rw [exec_enqCopy, execEnqCopy, onStream_eq ha, h.enqRecord]
  rfl

/-! ### A push to the network engine (R364) -/

/-- No command of a strand uses a NET slot, and each one below it has one (log 101). -/
def Strand.LowestNet (x : Strand) (i : Fin 16) : Prop := (∀ n ∈ x.net, n.slot ≠ i) ∧ ∀ j < i, ∃ n ∈ x.net, n.slot = j

theorem Strand.LowestNet.netSlot {x : Strand} {i : Fin 16} (h : x.LowestNet i) : x.netSlot = some i := by
  obtain ⟨hfree, hlow⟩ := h
  refine List.find?_eq_some_iff_getElem.mpr ⟨by simpa using hfree, i.val, by simp, by simp, fun j hj => ?_⟩
  simpa using hlow ⟨j, hj.trans i.isLt⟩ hj

/-- The id of the command that a NET slot takes next. -/
def Strand.nextNetId (x : Strand) (i : Fin 16) : BitVec 16 := BitVec.ofNat 4 i.val ++ x.netSeq.get i

/-- The command that a record stands for (R364). -/
def State.netOpOf (s : State) (st : Fin 4) (i : Fin 16) (b : List Byte) : NetOp where
  acc := s.acc st
  slot := i
  id := (s.strand st).nextNetId i
  op := BitVec.ofNat 8 (hdrNat b 0 1)
  mode := BitVec.ofNat 8 (hdrNat b 1 1)
  rec_ := hdrNat b 2 2 == 1
  len := hdrNat b 4 4
  va := BitVec.ofNat 64 (hdrNat b 8 8)
  dest := BitVec.ofNat 32 (hdrNat b 0x10 4)
  offset := BitVec.ofNat 64 (hdrNat b 0x18 8)
  mark := BitVec.ofNat 64 (hdrNat b 0x20 8)
  mval := BitVec.ofNat 64 (hdrNat b 0x28 8)
  task := (s.strand st).task
  landed := 0

/-- The strand with a command in a NET slot. -/
def Strand.takeNet (x : Strand) (i : Fin 16) (n : NetOp) : Strand :=
  { x.reserve 4 with netSeq := x.netSeq.set i.val (x.netSeq.get i + 1) i.isLt, net := x.net ++ [n] }

theorem execEnqNet_of (ha : s.cur.agent = .stream st .A) {dev : Bool} {rs : Reg} {pa : Nat} {i : Fin 16}
    (h : RecordAt s st dev (s.readX st .A rs) pa) (hok : netOk (s.recordBytes st pa) = true) (hroom : s.fifoFull st 4 = false)
    (hslot : (s.strand st).LowestNet i) (rd : Reg) : exec (.enqNet dev rd rs) s =
      .next ((s.modStrand st fun y => y.takeNet i (s.netOpOf st i (s.recordBytes st pa))).done st .A rd
        (((s.strand st).nextNetId i).setWidth 64)) := by
  rw [exec_enqNet, execEnqNet, onStream_eq ha, h.enqRecord]
  simp only [State.netPush, hok, hroom, hslot.netSlot, Bool.not_true, Bool.false_eq_true, if_false]
  exact congrArg (fun u : State => Host.Outcome.next (u.done st .A rd _)) (State.modStrand_congr rfl)

end

end Sys2Proof.Machine
end

