-- ==== Sys2Proof/Proofs/EnginePushes.lean ====
section
/-! PROOFS. The shadow registers (R153, R164), the output FIFOs (R147, R167), the stopping of a transfer (R168), and O47. -/

namespace Sys2Proof.Machine

section
variable {s : State} {st : Fin 4} {k : StreamId} {rd rs : Reg}

/-! ### A strand changed by an instruction that completes -/

/-- A stream after an instruction of it that continues at an address. -/
def State.onward (s : State) (pc : W64) (t : Stream) : Stream := { t with pc := pc, instret := t.instret + 1, status := .run, age := s.tick }

theorem State.modStrand_only (s : State) (st : Fin 4) (f : Strand → Strand) : OnlyStrand s (s.modStrand st f) st := by
  rw [OnlyStrand, State.strand_modStrand_same]
  rfl

theorem State.goto_modStrand (s : State) (st : Fin 4) (k : StreamId) (f : Strand → Strand) (pc : W64) :
    (s.modStrand st f).goto st k pc = s.modStrand st fun x => (f x).modStream k (s.onward pc) := by
  rw [State.goto, State.modStream, State.modStrand_modStrand]
  rfl

theorem State.nextPc_modStrand {f : Strand → Strand} (hf : ((f (s.strand st)).stream k).pc = (s.stream st k).pc) :
    (s.modStrand st f).nextPc st k = s.nextPc st k := by
  rw [State.nextPc, State.stream, State.strand_modStrand_same, hf]
  rfl

/-- A result after a change of parts of the strand that are no streams. -/
theorem State.done_modStrand {f : Strand → Strand} (hf : ∀ x, (f x).stream k = x.stream k) (v : W64) :
    (s.modStrand st f).done st k rd v = s.modStrand st fun x => (f x).modStream k fun t => s.onward (s.nextPc st k) (t.writeX rd v) := by
  have hpc : ((((f (s.strand st)).modStream k fun t => t.writeX rd v)).stream k).pc = (s.stream st k).pc := by
    rw [Strand.stream_modStream_same, Stream.writeX_pc, hf]
    rfl
  rw [State.done, State.retire, State.writeX, State.modStream, State.modStrand_modStrand, State.nextPc_modStrand hpc, State.goto_modStrand]
  simp only [Strand.modStream_modStream]

theorem State.done_eq (s : State) (st : Fin 4) (k : StreamId) (rd : Reg) (v : W64) :
    s.done st k rd v = s.modStream st k fun t => s.onward (s.nextPc st k) (t.writeX rd v) := by
  have h := State.done_modStrand (s := s) (st := st) (k := k) (rd := rd) (f := fun x => x) (fun _ => rfl) v
  rwa [State.modStrand_eq _ _ _ rfl] at h

theorem State.done_strand (s : State) (st : Fin 4) (k : StreamId) (rd : Reg) (v : W64) :
    (s.done st k rd v).strand st = (s.strand st).modStream k fun t => s.onward (s.nextPc st k) (t.writeX rd v) := by
  rw [s.done_eq]
  exact State.strand_modStrand_same ..

/-! ### The shadow registers -/

/-- The strand with a shadow register written. -/
def Strand.setShadow (x : Strand) (idx : BitVec 3) (v : W64) : Strand := { x with shadow := x.shadow.set idx.toNat v idx.isLt }

theorem execCpw_of (ha : s.cur.agent = .stream st .A) (idx : BitVec 3) (rs : Reg) :
    exec (.cpw idx rs) s = .next ((s.modStrand st fun x => x.setShadow idx (s.readX st .A rs)).retire st .A) := by
  rw [exec_cpw, execCpw, onStream_eq ha, if_neg (by decide)]
  rfl

/-- `CPW` (R164). -/
theorem execCpw_result (ha : s.cur.agent = .stream st .A) (idx : BitVec 3) (rs : Reg) :
    ∃ t, exec (.cpw idx rs) s = .next t ∧ OnlyStrand s t st
      ∧ t.strand st = { (s.goto st .A (s.nextPc st .A)).strand st with shadow := (t.strand st).shadow }
      ∧ ∀ j : Fin 8, (t.strand st).shadow.get j = if j.val = idx.toNat then s.readX st .A rs else (s.strand st).shadow.get j := by
  refine ⟨_, execCpw_of ha idx rs, ?_⟩
  rw [State.retire, State.nextPc_modStrand (by rfl), State.goto_modStrand]
  refine ⟨State.modStrand_only .., ?_, fun j => ?_⟩
  · rw [State.strand_modStrand_same, State.goto, State.modStream, State.strand_modStrand_same]
    rfl
  · rw [State.strand_modStrand_same]
    refine (vec_get_set_ite _ ⟨idx.toNat, idx.isLt⟩ _ _).trans ?_
    simp only [Fin.ext_iff]

/-- `CPR` (R164). -/
theorem execCpr_gives (ha : s.cur.agent = .stream st k) (rd : Reg) (idx : BitVec 3) :
    Gives s st k rd (.cpr rd idx) ((s.strand st).shadow.get ⟨idx.toNat, idx.isLt⟩) :=
  gives_of_done (by rw [exec_cpr, execCpr, onStream_eq ha])

/-! ### The output FIFOs -/

section
variable {e : Fin 5} {eng : BitVec 3} {try_ : Bool}

/-- The strand with the oldest record of an engine popped, and its reservation freed. -/
def Strand.popped (x : Strand) (e : Fin 5) (rest : List W64) : Strand :=
  { x.unreserve e with fifo := x.fifo.set e.val rest e.isLt }

theorem execDeq_cons (ha : s.cur.agent = .stream st k) (he : eng.toNat = e.val) {r : W64} {rest : List W64}
    (hr : (s.strand st).fifo.get e = r :: rest) :
    exec (.deq try_ rd eng) s = .next (((s.modStrand st fun y => y.popped e rest).done st k rd r).acquired st k) := by
  have hlt : eng.toNat < 5 := he ▸ e.isLt
  obtain rfl : e = ⟨eng.toNat, hlt⟩ := Fin.ext he.symm
  rw [exec_deq, execDeq, onStream_eq ha, dif_pos hlt]
  dsimp only
  rw [hr]
  rfl

theorem execDeq_nil (ha : s.cur.agent = .stream st k) (he : eng.toNat = e.val) (hnil : (s.strand st).fifo.get e = []) :
    exec (.deq try_ rd eng) s = .next (if !try_ && decide (0 < (s.strand st).resv.get e) then s else s.done st k rd 0) := by
  have hlt : eng.toNat < 5 := he ▸ e.isLt
  obtain rfl : e = ⟨eng.toNat, hlt⟩ := Fin.ext he.symm
  rw [exec_deq, execDeq, onStream_eq ha, dif_pos hlt]
  dsimp only
  rw [hnil]
  rfl

theorem execDeq_pop (ha : s.cur.agent = .stream st k) (he : eng.toNat = e.val) {r : W64} {rest : List W64}
    (hr : (s.strand st).fifo.get e = r :: rest) :
    ∃ t, exec (.deq try_ rd eng) s = .next t ∧ OnlyStrand s t st
      ∧ t.strand st = { ((s.done st k rd r).acquired st k).strand st with fifo := (t.strand st).fifo, resv := (t.strand st).resv }
      ∧ ∀ j, (t.strand st).fifo.get j = (if j = e then rest else (s.strand st).fifo.get j)
        ∧ (t.strand st).resv.get j = if j = e then (s.strand st).resv.get j - 1 else (s.strand st).resv.get j := by
  have ht : ((s.modStrand st fun y => y.popped e rest).done st k rd r).acquired st k
      = s.modStrand st fun x => (x.popped e rest).modStream k fun t =>
          { s.onward (s.nextPc st k) (t.writeX rd r) with acq := s.tick + 1 } := by
    rw [State.done_modStrand fun x => by cases k <;> rfl]
    simp [State.acquired, State.modStream]
  refine ⟨_, execDeq_cons ha he hr, ?_⟩
  rw [ht]
  refine ⟨State.modStrand_only .., ?_, fun j => ⟨?_, ?_⟩⟩
  · rw [State.strand_modStrand_same, s.done_eq]
    simp only [State.acquired, State.modStream, State.modStrand_modStrand, State.strand_modStrand_same, Strand.modStream_modStream,
      State.modStrand_tick]
    cases k <;> rfl
  · rw [State.strand_modStrand_same, Strand.modStream_fifo]
    exact vec_get_set_ite _ _ _ _
  · rw [State.strand_modStrand_same, Strand.modStream_resv]
    refine (vec_get_set_ite _ _ _ _).trans ?_
    split
    · next h => rw [h]
    · rfl

/-- An empty FIFO gives 0 at once to `DEQ.try`, and to `DEQ` where no record is to come (R167). -/
theorem execDeq_empty (ha : s.cur.agent = .stream st k) (he : eng.toNat = e.val) (hnil : (s.strand st).fifo.get e = [])
    (h : try_ = true ∨ (s.strand st).resv.get e = 0) : Gives s st k rd (.deq try_ rd eng) 0 := by
  refine gives_of_done ((execDeq_nil ha he hnil).trans ?_)
  have hnone : (!try_ && decide (0 < (s.strand st).resv.get e)) = false := by
    rcases h with ht | hz
    · rw [ht]; rfl
    · rw [hz, decide_eq_false (Nat.lt_irrefl 0), Bool.and_false]
  rw [hnone, if_neg Bool.false_ne_true]

theorem execDeq_waits (ha : s.cur.agent = .stream st k) (he : eng.toNat = e.val) (hnil : (s.strand st).fifo.get e = [])
    (hpos : 0 < (s.strand st).resv.get e) : exec (.deq false rd eng) s = .next s := by
  rw [execDeq_nil ha he hnil, decide_eq_true hpos]
  rfl

end

/-! ### The stopping of a transfer -/

/-- A strand's task has pushed the transfer of a channel that an id names. -/
def State.Named (s : State) (st : Fin 4) (id : BitVec 16) (ch : Fin 16) (c : Copy) : Prop :=
  (s.channels.get ch).copy = some c ∧ c.strand = st ∧ c.task = (s.strand st).task ∧ c.id = id

/-- Whether a channel has such a transfer. -/
def State.names (s : State) (st : Fin 4) (id : BitVec 16) (ch : Fin 16) : Bool :=
  (s.channels.get ch).copy.any fun c => c.strand == st && c.task == (s.strand st).task && c.id == id

theorem State.names_iff {id : BitVec 16} {ch : Fin 16} : s.names st id ch = true ↔ ∃ c, s.Named st id ch c := by
  simp only [State.names, State.Named, Option.any_eq_true, Bool.and_eq_true, beq_iff_eq, and_assoc]

theorem CopyPush.kind_eq (p : CopyPush) : p.kind = if p.op = 0 then 3 else 4 := by simp only [CopyPush.kind, beq_iff_eq]

/-- No transfer is named: 0 (R168). -/
theorem execCpcan_none (ha : s.cur.agent = .stream st .A) (h : ∀ ch c, ¬ s.Named st ((s.readX st .A rs).extractLsb' 0 16) ch c) :
    Gives s st .A rd (.cpcan rd rs) 0 := by
  have hnone : (List.finRange 16).find? (s.names st ((s.readX st .A rs).extractLsb' 0 16)) = none :=
    List.find?_eq_none.mpr fun ch _ hch => by
      obtain ⟨c, hc⟩ := State.names_iff.mp hch
      exact h ch c hc
  unfold State.names at hnone
  refine gives_of_done ?_
  rw [exec_cpcan, execCpcan, onStream_eq ha, if_neg (by decide)]
  dsimp only
  rw [hnone]

/-- The state in which a transfer has been stopped, with its record. -/
def State.cancelled (s : State) (st : Fin 4) (ch : Fin 16) (c : Copy) : State :=
  (s.freeChannel ch).modStrand st fun x => x.append 0 (copyRecord c.id 4 c.push.kind 0)

theorem execCpcan_of (ha : s.cur.agent = .stream st .A) {ch : Fin 16} {c : Copy}
    (hc : s.Named st ((s.readX st .A rs).extractLsb' 0 16) ch c)
    (hu : ∀ ch' c', s.Named st ((s.readX st .A rs).extractLsb' 0 16) ch' c' → ch' = ch) :
    exec (.cpcan rd rs) s = .next ((s.cancelled st ch c).done st .A rd 1) := by
  have hfind : (List.finRange 16).find? (s.names st ((s.readX st .A rs).extractLsb' 0 16)) = some ch := by
    cases hf : (List.finRange 16).find? (s.names st ((s.readX st .A rs).extractLsb' 0 16)) with
    | none => exact absurd (State.names_iff.mpr ⟨c, hc⟩) (by simpa using List.find?_eq_none.mp hf ch (List.mem_finRange ch))
    | some ch' =>
      obtain ⟨c', hc'⟩ := State.names_iff.mp (List.find?_some hf)
      rw [hu ch' c' hc']
  obtain ⟨hcopy, -, -, hid⟩ := hc
  unfold State.names at hfind
  rw [exec_cpcan, execCpcan, onStream_eq ha, if_neg (by decide)]
  dsimp only
  rw [hfind]
  dsimp only
  rw [hcopy, ← hid]
  rfl

theorem State.freeChannel_copy (s : State) (ch j : Fin 16) :
    ((s.freeChannel ch).channels.get j).copy = if j = ch then none else (s.channels.get j).copy := by
  refine (congrArg Channel.copy (vec_get_set_ite _ _ _ _)).trans ?_
  split <;> rfl

/-- `CPCAN` of a transfer (R168, R159). -/
theorem execCpcan_stops (ha : s.cur.agent = .stream st .A) {ch : Fin 16} {c : Copy}
    (hc : s.Named st ((s.readX st .A rs).extractLsb' 0 16) ch c)
    (hu : ∀ ch' c', s.Named st ((s.readX st .A rs).extractLsb' 0 16) ch' c' → ch' = ch) :
    ∃ t, exec (.cpcan rd rs) s = .next t ∧ t.mem = s.mem
      ∧ (∀ j, (t.channels.get j).copy = if j = ch then none else (s.channels.get j).copy)
      ∧ (t.strand st).fifo.get 0 = (s.strand st).fifo.get 0 ++ [copyRecord c.id 4 c.push.kind 0]
      ∧ (rd ≠ 0 → t.readX st .A rd = 1) ∧ (t.stream st .A).pc = s.nextPc st .A := by
  have hafter := (s.cancelled st ch c).done_after st .A rd 1
  have hpc : (s.cancelled st ch c).nextPc st .A = s.nextPc st .A := State.nextPc_modStrand (s := s.freeChannel ch) rfl
  refine ⟨_, execCpcan_of ha hc hu, rfl, s.freeChannel_copy ch, ?_, fun hrd => ?_, hafter.at_.trans hpc⟩
  · rw [State.done_strand, Strand.modStream_fifo, State.cancelled, State.strand_modStrand_same]
    exact vec_get_set_fin _ _ _
  · rw [hafter.result, if_neg hrd]

/-! ### A push to the network engine -/

/-- `ENQ` to engine 4 leaves the record's command in the lowest free slot, with its reservation and its id (R364). -/
theorem execEnqNet_result (ha : s.cur.agent = .stream st .A) {dev : Bool} {pa : Nat} {i : Fin 16}
    (h : RecordAt s st dev (s.readX st .A rs) pa) (hok : netOk (s.recordBytes st pa) = true) (hroom : s.fifoFull st 4 = false)
    (hslot : (s.strand st).LowestNet i) : ∃ t, exec (.enqNet dev rd rs) s = .next t
      ∧ (t.strand st).net = (s.strand st).net ++ [s.netOpOf st i (s.recordBytes st pa)]
      ∧ (t.strand st).netSeq.get i = (s.strand st).netSeq.get i + 1 ∧ (t.strand st).resv.get 4 = (s.strand st).resv.get 4 + 1
      ∧ (rd ≠ 0 → t.readX st .A rd = ((s.strand st).nextNetId i).setWidth 64) ∧ (t.stream st .A).pc = s.nextPc st .A := by
  have hafter := (s.modStrand st fun y => y.takeNet i (s.netOpOf st i (s.recordBytes st pa))).done_after st .A rd
    (((s.strand st).nextNetId i).setWidth 64)
  refine ⟨_, execEnqNet_of ha h hok hroom hslot rd, ?_, ?_, ?_, fun hrd => ?_, hafter.at_.trans (State.nextPc_modStrand rfl)⟩
  · rw [State.done_strand, Strand.modStream_net, State.strand_modStrand_same]
    rfl
  · rw [State.done_strand, Strand.modStream_netSeq, State.strand_modStrand_same]
    exact vec_get_set_fin _ _ _
  · rw [State.done_strand, Strand.modStream_resv, State.strand_modStrand_same]
    exact vec_get_set_fin _ _ _
  · rw [hafter.result, if_neg hrd]

end

theorem hdrNat_lt (b : List Byte) (off n : Nat) : hdrNat b off n < 256 ^ n :=
  (leNat_lt _).trans_le (Nat.pow_le_pow_right (by decide) (List.length_take_le _ _))

/-- A field of n bytes in a word that has room for it. -/
theorem toNat_hdrNat (b : List Byte) (off n w : Nat) (h : 256 ^ n ≤ 2 ^ w) : (BitVec.ofNat w (hdrNat b off n)).toNat = hdrNat b off n := by
  rw [BitVec.toNat_ofNat, Nat.mod_eq_of_lt ((hdrNat_lt _ _ _).trans_le h)]

/-- Settles O47: a push that passes its checks is its checks and then the choice of a channel, whether an instruction makes it or
`COPY_START` tries it again; every other instruction changes one strand, in the parts that it names. -/
theorem enginePushes : Obligations.EnginePushes := by
  unfold Obligations.EnginePushes
  refine ⟨fun s st rd rs dev ha => ?pushes, fun s st k rd rs ha => ⟨fun idx hk => ?cpw, execCpr_gives ha rd, fun try_ e eng he => ?deq, ?cpcan⟩⟩
  case pushes =>
    intro x ok lowest granted goes record b word
    have hgoes : ∀ (i : Instr) (p : CopyPush), exec i s = .next (s.copyGo st .A rd p false) → goes i p := by
      rintro i p hx ⟨hform, haligned, hdet, hroom, hfenced⟩
      obtain ⟨hfree, hwait⟩ := CopyOk.goes ⟨hform, haligned, hdet, hroom, hfenced⟩ hx
      refine ⟨fun ch hq hlow => ?_, fun hw => ⟨_, hwait hw, rfl, ?_, ?_, rfl⟩⟩
      · obtain ⟨t, ht, hcopy, hseq, hchannels, hresv, hrd, hpc, hrun, hmem⟩ := hfree ch hq hlow
        exact ⟨t, ht, hcopy, hseq, hchannels, hresv, hrd, hpc, hrun, hmem⟩
      · rw [State.copyWaits_stream]
      · rw [State.copyWaits_stream]
    refine ⟨hgoes _ _ (execCpgo_of ha dev rd), fun pa hrec => ?_, fun c rest ch hq hlow hok => ?_⟩
    · obtain ⟨haligned, hfenced, hxlate, hinside, hclean⟩ := hrec
      have hat : RecordAt s st dev (s.readX st .A rs) pa := ⟨haligned, hfenced, hxlate, hinside, hclean⟩
      refine ⟨hgoes _ _ (execEnqCopy_of ha hat rd), fun i hok hroom hfree hlow => ?_⟩
      obtain ⟨t, ht, hnet, hseq, hresv, hrd, hpc⟩ := execEnqNet_result (rd := rd) ha hat hok hroom ⟨hfree, hlow⟩
      exact ⟨t, _, ht, hnet, rfl, rfl, rfl, toNat_hdrNat _ 0 1 8 (by decide), toNat_hdrNat _ 1 1 8 (by decide), rfl, rfl,
        toNat_hdrNat _ 16 4 32 (by decide), rfl, rfl, rfl, hseq, hresv, hrd, hpc⟩
    · obtain ⟨hform, haligned, hdet, hroom, hfenced⟩ := hok
      obtain ⟨hcopy, hseq, hchannels, hresv, hrd, hpc, hrun, hmem⟩ :=
        ((s.recopying c rest).takeChannel_taken c.strand c.rd c.push ch).of_recopying
      exact ⟨_, execCopyStart_of hq hlow ⟨hform, haligned, hdet, hroom, hfenced⟩, rfl, hcopy, hseq, hchannels, hresv, hrd, hpc, hrun, hmem⟩
  case cpw =>
    subst hk
    exact execCpw_result ha idx rs
  case deq =>
    refine ⟨fun r rest hr => execDeq_pop ha he hr, execDeq_empty ha he, fun hnil htry hpos => ?_⟩
    subst htry
    exact execDeq_waits ha he hnil hpos
  case cpcan =>
    rintro rfl named
    refine ⟨fun h => execCpcan_none ha h, fun ch c hc hu => ?_⟩
    obtain ⟨t, ht, hmem, hchannels, hfifo, hrd, hpc⟩ := execCpcan_stops (rd := rd) ha hc hu
    rw [CopyPush.kind_eq] at hfifo
    exact ⟨t, ht, hmem, hchannels, hfifo, hrd, hpc⟩

end Sys2Proof.Machine
end

