-- ==== Sys2Proof/Proofs/EmptyWrite.lean ====
section
/-! PROOFS. A WRITE of no bytes (R364, R365): what O48 says of it, what it does to the write-combining buffer (R299), and the refutation of
O48. -/

namespace Sys2Proof.Machine

section
variable {s : State} {st : Fin 4} {n : NetOp} {pa : Nat}

/-! ### A WRITE of no bytes -/

/-- A strand's only command is a WRITE of no bytes, without a mark, at a place of a window that it reaches. -/
structure EmptyWrite (s : State) (st : Fin 4) (n : NetOp) (pa : Nat) : Prop where
  only : (s.strand st).net = [n]
  runs : (s.strand st).runs n.task = true
  xlated : s.netLocal n = .ok ([], none)
  reaches : s.netReaches n = true
  write : n.op = 1
  empty : n.len = 0
  place : s.netPa n = some pa

/-- O48 says that it changes no byte but those of plats' headers. -/
theorem EmptyWrite.transferEnds (h : EmptyWrite s st n pa) (ho : Obligations.TransferEnds) :
    ∃ t, exec (.netComplete st n.slot true []) s = .next t ∧ ∀ key a, ¬ s.platMark a → t.homeByte key a = s.homeByte key a := by
  obtain ⟨honly, hruns, hxlated, hreaches, hwrite, hempty, hplace⟩ := h
  unfold Obligations.TransferEnds at ho
  obtain ⟨-, hnet⟩ := ho.2 s st
  obtain ⟨hgoes, -⟩ := hnet n [] [] true [] [] none honly (by simp) (by simp) hruns hxlated (by simp)
  obtain ⟨-, hput, -⟩ := hgoes rfl hreaches
  have hnone : Writable s ((List.range n.len).map (fun j => pa + j) ++ []) := by
    rw [hempty]
    exact ⟨List.nodup_nil, by simp, by simp, by simp⟩
  obtain ⟨t, ht, -, hbytes, -⟩ := hput hwrite pa hplace hempty.symm hnone
  refine ⟨t, ht, fun key a => hbytes.outside key a ?_⟩
  rw [hempty]
  simp

/-- The model writes no bytes there: the command ends behind a write, which drains the lines of the buffer that it meets (R299). -/
theorem EmptyWrite.execNetComplete (h : EmptyWrite s st n pa) : ∃ f r, exec (.netComplete st n.slot true []) s =
    .next (((s.write 0 pa []).modStrand st f).settle st n.task 4 r) := by
  obtain ⟨honly, -, hxlated, hreaches, hwrite, -, hplace⟩ := h
  have hfind : ((s.strand st).net.find? fun m => m.slot == n.slot) = some n := by simp [honly]
  have hfirst : (s.strand st).netWaits n = false := by simp [Strand.netWaits, honly]
  rw [exec_netComplete, Machine.execNetComplete]
  dsimp only
  rw [hfind]
  dsimp only
  rw [hfirst, if_neg Bool.false_ne_true, hxlated]
  simp only [State.anyHeld, State.netMove, hreaches, hwrite, hplace, Option.toList_none, List.append_nil, List.any_nil, List.map_nil]
  exact ⟨_, _, rfl⟩

/-- The record of an operation that ends is no byte of memory. -/
theorem State.settle_homeByte (s : State) (st : Fin 4) (f : Strand → Strand) (tk : Option Task) (eng : Fin 5) (r : Option W64) (key a : Nat) :
    ((s.modStrand st f).settle st tk eng r).homeByte key a = s.homeByte key a := by
  obtain ⟨-, hmem, hkey⟩ := State.settle_rest (s := s.modStrand st f) st tk eng r
  exact State.homeByte_congr (by rw [hkey]; rfl) fun y _ => by rw [hmem]; rfl

end

/-! ### A state with a store buffered behind a window -/

/-- A WRITE of no bytes at offset 1 of window 0. -/
def bareWrite : NetOp where
  acc := { asid := 0, key := 0, spb := 0, sps := 0, plb := 0, pls := 0 }
  slot := 0
  id := 0
  op := 1
  mode := 0
  rec_ := false
  len := 0
  va := 0
  dest := 0
  offset := 1
  mark := 0
  mval := 0
  task := some { launch := 0, team := 0, ix := 0, reruns := 0 }
  landed := 0

/-- The PA of that offset (R99). -/
def windowByte : Nat := 3 * 2 ^ 52 + 1

/-- The command is about to complete while the write-combining buffer holds a store of 1 to its place. -/
def bufferedWindow : State :=
  { State.reset.modStrand 0 fun x => { x with task := bareWrite.task, net := [bareWrite], a := { x.a with status := .run } } with
    readiness := Vector.replicate 64 2
    conns := [{ modes := [0], ops := [1], credits := false, guarded := true, keyBits := 256, other := false }]
    windows := [{ number := 0, peer := false, base := 0, len := 0x1000, pinned := [] }]
    wcb := [{ strand := 0, task := bareWrite.task, pa := windowByte, byte := 1, bits := 0xFF, key := 0, at_ := 0 }] }

theorem bufferedWindow_emptyWrite : EmptyWrite bufferedWindow 0 bareWrite windowByte where
  only := rfl
  runs := by decide +kernel
  xlated := rfl
  reaches := by decide +kernel
  write := rfl
  empty := rfl
  place := by decide +kernel

theorem bufferedWindow_before : bufferedWindow.homeByte 0 windowByte = 0 := by decide +kernel

/-- The buffered store is at its home after the write. -/
theorem bufferedWindow_drained : (bufferedWindow.write 0 windowByte []).homeByte 0 windowByte = 1 := by decide +kernel

theorem bufferedWindow_unmarked : ¬ bufferedWindow.platMark windowByte := fun ⟨t, ht, _⟩ => List.not_mem_nil (a := t) ht

/-- Refutes O48: its clause about a WRITE does not ask that the command has a byte, as R364 does. A WRITE of none at an offset within a line
of its window still drains what the write-combining buffer holds to that line (R299), and a byte behind the window changes that the
statement keeps. Neither such a command nor such a buffered store comes of a push or a store; the statement is of every state. -/
theorem not_transferEnds : ¬ Obligations.TransferEnds := fun ho => by
  obtain ⟨t, ht, hkept⟩ := bufferedWindow_emptyWrite.transferEnds ho
  obtain ⟨f, r, hexec⟩ := bufferedWindow_emptyWrite.execNetComplete
  have hbyte := hkept 0 windowByte bufferedWindow_unmarked
  rw [← Host.Outcome.next.inj (hexec.symm.trans ht), State.settle_homeByte, bufferedWindow_drained, bufferedWindow_before] at hbyte
  exact absurd hbyte (by decide)

end Sys2Proof.Machine
end

