-- ==== Sys2Proof/Proofs/SplitGranule.lean ====
section
/-! PROOFS. A `VSTP` into a poisoned granule that the write-combining buffer and the held stores cover between them (R103, R145, R299, R304),
and the refutation of O40. -/

namespace Sys2Proof.Machine

/-- The task of the strand that stores. -/
def splitTask : Task := { launch := 0, team := 0, ix := 0, reruns := 0 }

/-- Its strand: the granted row has two columns of 32 bits, and the E-stream executes. -/
def splitStrand (x : Strand) : Strand :=
  { x with task := some splitTask, spsize := 0x10000, vtype := 3, vlr := 1, vlc := 2, e := { x.e with status := .run } }

/-- A byte of the core's own scratchpad. -/
def splitByte (i : Nat) : Nat := 2 ^ 52 + i

/-- A plat whose two elements name the first two words of its first granule. -/
def splitPlat : Plat where
  h := 0
  n := 2
  iw := false
  lsz := 2
  base := 0
  idx := [0, 4]
  ta := [0, 4]
  pas := [(List.range 4).map splitByte, (List.range' 4 4).map splitByte]
  wr := [true, true]
  ranges := []
  gen := 0
  composed := false
  verify := false
  digest := 0
  seals := []
  body := 48
  reason := 0
  released := none

/-- The team of the task, whose directory holds that plat (R125). -/
def splitTeam : Team where
  launch := 0
  team := 0
  core := 0
  strands := [0]
  base := 0
  arena := 0x20000
  plats := [splitPlat]
  relSeq := 0
  lines := []
  ops := []

/-- The operands of the store: the plat's handle is in x0, and no predicate governs. -/
def splitMem : MemOp := { disp := none, zero := false, inv := false, p := 0, xs2 := 0, xs := 0 }

/-- The store, which adds to the plat's targets. -/
def splitAdd : Instr := .vstp 0 splitMem 7 (.arith 1 0)

/-- It is about to execute. That granule is poisoned; of its bytes the write-combining buffer writes the first half, and stores of the
stream that are held the other. -/
def splitGranule : State :=
  { State.reset.modStrand 0 splitStrand with
    cur := { agent := .stream 0 .E, words := [] }
    teams := [splitTeam]
    poison := [2 ^ 46]
    wcb := (List.range 32).map fun i =>
      { strand := 0, task := some splitTask, pa := splitByte i, byte := 0, bits := 0xFF, key := 0, at_ := 0 }
    held := (List.range' 32 32).map fun i =>
      { task := splitTask, strand := 0, stream := .E, pa := splitByte i, byte := 0, bits := 0xFF, key := 0, pub := false } }

/-- The state that an instruction or an event leaves. -/
noncomputable def State.after (s : State) (i : Instr) : State :=
  match exec i s with
  | .next t => t
  | _ => s

theorem Commits.eq_after {s u : State} {st : Fin 4} {i : Instr} (h : Commits s st i u) : u = (s.after i).after (.viqCommit st) := by
  obtain ⟨t, ht, hu⟩ := h
  simp only [State.after, ht, hu]

/-- The first target is written, which drains the granule's line (R299); the buffer writes no byte of it any more, so that the second target
is poisoned to the stream, and its addition to that parks the strand. -/
theorem splitAdd_parks : let u := (splitGranule.after splitAdd).after (.viqCommit 0)
    (u.strand 0).viq ≠ [] ∧ (u.strand 0).halt = .supervisor cPoison 0 4 true .E := by
  decide +kernel

theorem splitPlat_plain : ∀ a ∈ splitPlat.pas.flatMap id, splitGranule.poisonedTo (splitGranule.strand 0).task 0 .E a = false
    ∧ Plain splitGranule a 1 := by
  have h : ∀ a ∈ splitPlat.pas.flatMap id, splitGranule.poisonedTo (splitGranule.strand 0).task 0 .E a = false
      ∧ splitGranule.lostAt a = false ∧ meets a 1 (platPa splitTeam splitPlat) splitPlat.foot = false := by decide +kernel
  refine fun a ha => ⟨(h a ha).1, fun x hx => (List.not_mem_nil hx).elim, fun _ t ht p hp => ?_, (h a ha).2.1⟩
  obtain rfl := List.mem_singleton.mp ht
  obtain rfl := List.mem_singleton.mp hp
  exact (h a ha).2.2

theorem splitAdd_ready : Ready splitGranule 0 (.vec 0x12 7 { vd := 0, vs1 := 0, vs2 := 0 } (splitMem.ext 7 1) none) := by
  constructor <;> decide +kernel

theorem splitPlat_usable : splitGranule.verifyHeld 0 (splitGranule.readX 0 .E 0) = false
    ∧ (splitGranule.platCheck 0 .E (splitGranule.readX 0 .E 0)).2 = .ok splitPlat
    ∧ ∀ a ∈ splitPlat.pas.flatMap id, splitGranule.inPart (splitGranule.acc 0) a = true := ⟨by decide +kernel, rfl, by decide +kernel⟩

/-- Its two elements name two targets, in distinct bytes. -/
theorem splitPlat_apart :
    (∀ j < splitPlat.n, ∀ j' < splitPlat.n, splitPlat.ta[j]? = splitPlat.ta[j']? → splitPlat.pas.getD j [] = splitPlat.pas.getD j' [])
      ∧ ∀ j < splitPlat.n, ∀ j' < splitPlat.n, ∀ a ∈ splitPlat.pas.getD j [], a ∈ splitPlat.pas.getD j' [] →
          splitPlat.ta[j]? = splitPlat.ta[j']? := by
  constructor <;> decide +kernel

/-- Refutes O40: its clause about `VSTP` asks that no target is poisoned to the stream before the store, as `State.poisonedTo` says of the
write-combining buffer and the held stores together (R103). In a granule that only the two together cover, the first target's write drains
the buffer's line, and the second target is poisoned when its turn comes: the store parks the strand and does not commit. A store to the core's
own scratchpad is neither buffered nor held (R299, R304), so that no run is known to lead there; the statement is of every state. -/
theorem not_vectorStoreResults : ¬ Obligations.VectorStoreResults := fun ho => by
  unfold Obligations.VectorStoreResults at ho
  obtain ⟨-, -, -, -, -, hplat⟩ := ho.1 splitGranule 0 0 splitMem fun _ _ => 0
  obtain ⟨hheld, hcheck, hpart⟩ := splitPlat_usable
  obtain ⟨u, hu, hrest, -⟩ := hplat splitPlat 7 (.arith 1 0) hheld hcheck hpart (by decide +kernel) rfl rfl (by decide +kernel)
    (fun j j' hj hj' => splitPlat_apart.1 j hj j' hj') (fun j j' hj hj' hne a ha hb => hne (splitPlat_apart.2 j hj j' hj' a ha hb)) (by decide +kernel)
    splitPlat_plain (by decide +kernel) (.inr ⟨0, rfl, by decide⟩) _ rfl splitAdd_ready
  exact splitAdd_parks.1 (hu.eq_after ▸ hrest.empty)

end Sys2Proof.Machine
end

