-- ==== Sys2Proof/Proofs/VectorIssue.lean ====
section
/-! PROOFS. A vector instruction that is alone in the queue (R277, R279): the state in which it issues, what a change of its strand leaves of
what the machine reads there, its trap, and its commit. -/

namespace Sys2Proof.Machine

/-! ### What a change of a strand leaves -/

section
variable {s : State} {st : Fin 4} {f : Strand → Strand}

theorem State.teamOf_modStrand (h : (f (s.strand st)).task = (s.strand st).task) : (s.modStrand st f).teamOf st = s.teamOf st := by
  simp only [State.teamOf, State.strand_modStrand_same, h, State.modStrand_teams]

theorem State.acc_modStrand (h : (f (s.strand st)).acc = (s.strand st).acc) : (s.modStrand st f).acc st = s.acc st := by
  simp only [State.acc, State.strand_modStrand_same, h]

theorem State.viewByte_modStrand (h : (f (s.strand st)).task = (s.strand st).task) (k : StreamId) (key pa : Nat) :
    (s.modStrand st f).viewByte (some (st, k)) key pa = s.viewByte (some (st, k)) key pa := by
  simp only [State.viewByte, State.strand_modStrand_same, h]
  rfl

theorem State.poisonedTo_modStrand (t : Option Task) (k : StreamId) (pa : Nat) :
    (s.modStrand st f).poisonedTo t st k pa = s.poisonedTo t st k pa := rfl

theorem State.anyPoison_modStrand (h : (f (s.strand st)).task = (s.strand st).task) (k : StreamId) (pa n : Nat) :
    (s.modStrand st f).anyPoison st k pa n = s.anyPoison st k pa n := by
  simp only [State.anyPoison, State.strand_modStrand_same, h, State.poisonedTo_modStrand]

theorem State.findPlat_modStrand (h : (f (s.strand st)).task = (s.strand st).task) (n : Nat) :
    (s.modStrand st f).findPlat st n = s.findPlat st n := by
  simp only [State.findPlat, State.plats, State.teamOf_modStrand h]

theorem State.readsIdx_modStrand (h : (f (s.strand st)).acc = (s.strand st).acc) (p : Plat) :
    (s.modStrand st f).readsIdx st p = s.readsIdx st p := by
  simp only [State.readsIdx, State.acc_modStrand h, State.genOf, State.modStrand_gens]

theorem State.verifyHeld_modStrand (ht : (f (s.strand st)).task = (s.strand st).task) (ha : (f (s.strand st)).acc = (s.strand st).acc)
    (w : W64) : (s.modStrand st f).verifyHeld st w = s.verifyHeld st w := by
  simp only [State.verifyHeld, State.verifyPas, State.findPlat_modStrand ht, State.readsIdx_modStrand ha]
  rfl

theorem State.digestFault_modStrand (ha : (f (s.strand st)).acc = (s.strand st).acc) (p : Plat) :
    (s.modStrand st f).digestFault st p = s.digestFault st p := by
  simp only [State.digestFault, State.readsIdx_modStrand ha, State.idxFault, State.keyless_modStrand, State.acc_modStrand ha,
    State.modStrand_tick]

theorem State.idxDigest_modStrand (ht : (f (s.strand st)).task = (s.strand st).task) (ha : (f (s.strand st)).acc = (s.strand st).acc)
    (k : StreamId) (ranges : List (List IdxRange)) : (s.modStrand st f).idxDigest st k ranges = s.idxDigest st k ranges := by
  simp only [State.idxDigest, State.bytesAt, State.viewByte_modStrand ht, State.acc_modStrand ha]
  rfl

/-- The reason that the checks 2 to 5 of R133 find. -/
theorem State.freshness_reason (s : State) (st : Fin 4) (k : StreamId) (p : Plat) : (s.freshness st k p).2 =
    if p.reason != 0 then p.reason else if p.gen != s.genOf (s.acc st).asid then 2
    else if p.verify && s.idxDigest st k p.ranges != p.digest then 3 else 0 := by
  unfold State.freshness
  split_ifs <;> rfl

theorem State.platCheck_modStrand (ht : (f (s.strand st)).task = (s.strand st).task) (ha : (f (s.strand st)).acc = (s.strand st).acc)
    (k : StreamId) (w : W64) : ((s.modStrand st f).platCheck st k w).2 = (s.platCheck st k w).2 := by
  simp only [State.platCheck, State.findPlat_modStrand ht, State.digestFault_modStrand ha]
  split_ifs
  · rfl
  · cases s.findPlat st w.toNat with
    | none => rfl
    | some p =>
      dsimp only
      cases s.digestFault st p with
      | some e => rfl
      | none =>
        have hreason : ((s.modStrand st f).freshness st k p).2 = (s.freshness st k p).2 := by
          simp only [State.freshness_reason, State.idxDigest_modStrand ht ha, State.acc_modStrand ha, State.genOf, State.modStrand_gens]
          rfl
        dsimp only
        rw [hreason]
        split_ifs <;> rfl

end

/-! ### The state in which it issues -/

section
variable {s : State} {st : Fin 4} {i : Instr} {f : VForm} {lines : List Nat}

/-- The entry of an instruction at the front end (R277). -/
def State.entryOf (s : State) (st : Fin 4) (f : VForm) : VEntry := (s.strand st).capture s.cur.words f

/-- The strand with that entry alone in its queue, the E-stream behind it. -/
def State.issuing (s : State) (st : Fin 4) (f : VForm) (x : Strand) : Strand :=
  { x with
    viq := [s.entryOf st f]
    e := { x.e with pc := s.nextPc st .E, instret := x.e.instret + 1, age := s.tick
                    status := if (scalarDest f).isSome then .hold else .run } }

theorem Ready.frontEnd (h : Ready s st f) : s.frontEnd st .E f = s.modStrand st (s.issuing st f) :=
  (frontEnd_ready h).trans (State.modStrand_congr rfl)

/-- What the entry issues to is what the commit checks and puts into effect. -/
theorem Ready.commits (h : Ready s st f) (hf : formOf i = some f) :
    let s1 := s.modStrand st (s.issuing st f)
    Commits s st i (((s1.commitEntry st (s.entryOf st f)).settleBad s1 st (s.entryOf st f)).checkDead st) := by
  have hs : (s.modStrand st (s.issuing st f)).strand st = s.issuing st f (s.strand st) := State.strand_modStrand_same ..
  have hhalt : ((s.issuing st f (s.strand st)).halt != .none) = false := bne_eq_false_iff_eq.mpr h.active
  have hsound : (s.issuing st f (s.strand st)).readsBad (s.entryOf st f) = false := h.sound
  refine ⟨_, (exec_formOf h.agent hf).trans (congrArg _ h.frontEnd), ?_⟩
  rw [exec_viqCommit, execViqCommit, hs]
  show (if _ then _ else if _ then _ else _) = _
  rw [hhalt, hsound]
  rfl

/-- The commit of one that answers with results. -/
theorem Ready.commits_done (h : Ready s st f) (hf : formOf i = some f) (hm : memForm f = true) {y : Strand}
    (hc : (s.modStrand st (s.issuing st f)).commitEntry st (s.entryOf st f)
      = (s.modStrand st (s.issuing st f)).settleEntry st (s.entryOf st f) (.done y.memDone 0))
    (hy : ∃ v o, y = { s.issuing st f (s.strand st) with v := v, o := o }) :
    ∃ u, Commits s st i u ∧ VecRest s u st f ∧ (u.strand st).v = y.v ∧ (u.strand st).o = y.o ∧ (u.strand st).p = (s.strand st).p
      ∧ (u.strand st).k = (s.strand st).k ∧ (u.strand st).vstatus = (s.strand st).vstatus := by
  obtain ⟨v, o, rfl⟩ := hy
  obtain ⟨u, hu, hrest, hv, hp, ho, hk, hvs, -⟩ := commits_of_done h hf _ h.frontEnd.symm _ rfl hc (by
    rw [State.strand_modStrand_same]
    exact ⟨v, (s.strand st).p, o, (s.strand st).k, (s.strand st).vstatus, 0, 0, 0, { cause := 0, pages := [], more := false }, 0, rfl,
      (if_pos hm).mpr ⟨rfl, rfl, rfl, rfl⟩⟩)
  exact ⟨u, hu, hrest, hv, ho, hp, hk, hvs⟩

/-! ### Its trap -/

theorem CanTrap.issuing (h : CanTrap s st lines) : CanTrap (s.modStrand st (s.issuing st f)) st lines := by
  refine { outside := ?_, vec := ?_, frame := ?_, aligned := ?_, xlate := ?_, inside := fun pa hpa => ?_, clean := ?_ } <;>
    rw [State.strand_modStrand_same]
  · exact h.outside
  · exact h.vec
  · exact h.frame
  · exact h.aligned
  · exact (State.frameLines_modStrand ..).trans h.xlate
  · exact (State.inPart_modStrand ..).trans (h.inside pa hpa)
  · refine ⟨h.clean.1, ?_⟩
    unfold State.issuing
    dsimp only [Stream.poisoned]
    split_ifs <;> rfl

/-- The strand at its handler keeps the registers that it had before the front end. -/
theorem AtHandler.of_issuing {y : Strand} {cause : Byte} {tpc tval : W64} {vec fwd : Bool} (hr : (s.stream st .E).status = .run)
    (h : AtHandler (s.issuing st f (s.strand st)) y .E cause tpc tval vec fwd) : AtHandler (s.strand st) y .E cause tpc tval vec fwd := by
  have hover : (s.issuing st f (s.strand st)).e.over = (s.strand st).e.over := by
    have he : (s.strand st).e.status = .run := hr
    unfold State.issuing
    simp only [Stream.over, he]
    split_ifs <;> rfl
  exact { h with eOver := h.eOver.trans hover }

/-- A trap of an entry whose cause is not the supervisor's takes the strand to its handler, with the instruction's PC (R279, R338). -/
theorem Ready.traps (h : Ready s st f) (hf : formOf i = some f) (ht : CanTrap s st lines) {cause : Byte} {tval : W64}
    (hc : supervisorCause cause = false)
    (hcommit : (s.modStrand st (s.issuing st f)).commitEntry st (s.entryOf st f)
      = (s.modStrand st (s.issuing st f)).settleEntry st (s.entryOf st f)
          (.trap ((s.modStrand st (s.issuing st f)).strand st) cause tval)) : VecTraps s st i cause tval := by
  obtain ⟨s1, hs1⟩ : ∃ t, t = s.modStrand st (s.issuing st f) := ⟨_, rfl⟩
  have hx : s1.strand st = s.issuing st f (s.strand st) := hs1 ▸ State.strand_modStrand_same ..
  have hcan : CanTrap s1 st lines := hs1 ▸ ht.issuing
  refine ⟨_, h.commits hf, ?_⟩
  rw [hcommit, ← hs1]
  obtain ⟨u, hu⟩ : ∃ u, u = s1.settleEntry st (s.entryOf st f) (.trap (s1.strand st) cause tval) := ⟨_, rfl⟩
  have henter : u = s1.enter st .E cause (s1.strand st).vcp tval true false (resumePc (s1.strand st).e) := by
    rw [hu, State.settleEntry, s1.modStrand_eq st _ rfl, State.vecTrap, hcan.not_poisonFirst, hc]
    rfl
  have hat : AtHandler (s1.strand st) (u.strand st) .E cause (s1.strand st).vcp tval true false := by
    rw [henter, State.enter_strand hcan.toCanEnter]
    exact Strand.atHandler_trapRegs ..
  have hbad : u.settleBad s1 st (s.entryOf st f) = u := by
    have : committed (s1.strand st) (u.strand st) = false := by
      rw [committed, hat.inh, hcan.outside, show (true == false) = false from rfl, Bool.and_false, Bool.false_and]
    rw [State.settleBad, this, Bool.not_false, Bool.or_true, if_pos rfl]
  have hdead : u.checkDead st = u := by
    simp only [State.checkDead, hat.inh, Bool.not_true, Bool.and_false, Bool.false_and, Bool.false_eq_true, if_false]
  rw [← hu, hbad, hdead]
  rw [hx] at hat
  exact hat.of_issuing h.runs

end

end Sys2Proof.Machine
end

