-- ==== Sys2Proof/Proofs/GroupWrites.lean ====
section
/-! PROOFS. Elements of a destination group written one after another (R170, R209), the elements of a grant in their order (R12), and what a
vector load writes of them (R188, R190). -/

namespace Sys2Proof.Machine

/-! ### Elements written one after another -/

/-- Elements of a group written in order, each with its row, column and value. -/
def Strand.putElts (x : Strand) (vd : Spec) (w : Nat) (l : List (Nat × Nat × Nat)) : Strand :=
  l.foldl (fun u p => u.setAt vd w p.1 p.2.1 p.2.2) x

section
variable {x : Strand} {vd : Spec} {w rows r c : Nat} {l : List (Nat × Nat × Nat)}

theorem readRow_setAt_elem (hd : DestOk vd rows) (hb : rows ≤ 64) {r' c' : Nat} (v : Nat) (hr : r < rows) (hr' : r' < rows)
    (hne : ¬ (r' = r ∧ c' = c)) : elem ((x.setAt vd w r' c' v).readRow vd r) w c = elem (x.readRow vd r) w c := by
  have hv : vd.toNat < 0x48 := by rcases hd with h | h <;> omega
  unfold Strand.setAt
  by_cases h : r' = r
  · subst h
    rw [readRow_writeRow_same _ _ _ _ hv, elem_setElem_other _ _ _ _ _ fun hc => hne ⟨rfl, hc⟩]
  · rw [readRow_writeRow_other _ _ _ _ _ _ hd hr' hr h hb]

theorem readRow_setAt_same (hd : DestOk vd rows) (v : Nat) (hw : (c + 1) * w ≤ 8192) :
    elem ((x.setAt vd w r c v).readRow vd r) w c = v % 2 ^ w := by
  rw [Strand.setAt, readRow_writeRow_same _ _ _ _ (by rcases hd with h | h <;> omega), elem_setElem_same _ _ _ _ hw]

theorem putElts_elem_unwritten (hd : DestOk vd rows) (hb : rows ≤ 64) (hin : ∀ p ∈ l, p.1 < rows) (hr : r < rows)
    (hn : ∀ p ∈ l, ¬ (p.1 = r ∧ p.2.1 = c)) : elem ((x.putElts vd w l).readRow vd r) w c = elem (x.readRow vd r) w c := by
  induction l generalizing x with
  | nil => rfl
  | cons p l ih =>
    rw [List.forall_mem_cons] at hin hn
    exact (ih hin.2 hn.2).trans (readRow_setAt_elem hd hb _ hr hin.1 hn.1)

/-- Where every write to an element writes one value, the element holds it. -/
theorem putElts_elem_written (hd : DestOk vd rows) (hb : rows ≤ 64) (hin : ∀ p ∈ l, p.1 < rows) (hw : (c + 1) * w ≤ 8192) {v : Nat}
    (hm : (r, c, v) ∈ l) (hv : ∀ p ∈ l, p.1 = r ∧ p.2.1 = c → p.2.2 = v) :
    elem ((x.putElts vd w l).readRow vd r) w c = v % 2 ^ w := by
  induction l generalizing x with
  | nil => cases hm
  | cons p l ih =>
    have hr : r < rows := hin _ hm
    rw [List.forall_mem_cons] at hin hv
    by_cases hlater : (r, c, v) ∈ l
    · exact ih hin.2 hlater hv.2
    · obtain rfl : (r, c, v) = p := (List.mem_cons.mp hm).resolve_right hlater
      refine (putElts_elem_unwritten hd hb hin.2 hr fun q hq he => hlater ?_).trans (readRow_setAt_same hd _ hw)
      obtain ⟨r', c', v'⟩ := q
      obtain ⟨rfl, rfl⟩ := he
      exact hv.2 _ hq ⟨rfl, rfl⟩ ▸ hq

theorem putElts_keeps (hv : vd.toNat < 0x48) (hin : ∀ p ∈ l, p.1 < rows) : KeepsRows x (x.putElts vd w l) vd rows := by
  induction l generalizing x with
  | nil => exact ⟨fun _ _ => rfl, fun _ _ => rfl⟩
  | cons p l ih =>
    rw [List.forall_mem_cons] at hin
    exact (writeRow_keeps _ _ _ _ _ hv hin.1).trans (ih hin.2)

/-- Beside the register files nothing of the strand changes. -/
theorem putElts_rest (x : Strand) (vd : Spec) (w : Nat) (l : List (Nat × Nat × Nat)) :
    ∃ v o, x.putElts vd w l = { x with v := v, o := o } := by
  refine foldl_keeps (fun u : Strand => ∃ v o, u = { x with v := v, o := o }) _ (fun u p hu => ?_) l x ⟨_, _, rfl⟩
  obtain ⟨v, o, rfl⟩ := hu
  exact ⟨_, _, writeRow_rest ..⟩

/-- Elements of a grant written each with the value that it is given. -/
theorem putElts_wrote {cols : Nat} {val : Nat → Nat → Option Nat} (hd : DestOk vd rows) (hb : rows ≤ 64)
    (hin : ∀ p ∈ l, p.1 < rows ∧ p.2.1 < cols) (hval : ∀ r c v, r < rows → c < cols → ((r, c, v) ∈ l ↔ val r c = some v)) :
    Wrote x (x.putElts vd w l) vd w rows cols val := by
  have hrow : ∀ p ∈ l, p.1 < rows := fun p hp => (hin p hp).1
  refine ⟨fun r c hr hc hw => ?_, fun r c hr hc _ => ?_, putElts_keeps (by rcases hd with h | h <;> omega) hrow⟩
  · have hof : ∀ p ∈ l, p.1 = r ∧ p.2.1 = c → val r c = some p.2.2 := by
      rintro ⟨r', c', v⟩ hp ⟨rfl, rfl⟩
      exact (hval _ _ _ hr hc).mp hp
    cases h : val r c with
    | none => exact putElts_elem_unwritten hd hb hrow hr fun p hp he => nomatch h.symm.trans (hof p hp he)
    | some v =>
      refine putElts_elem_written hd hb hrow hw ((hval r c v hr hc).mpr h) fun p hp he => ?_
      exact (Option.some.inj (h.symm.trans (hof p hp he))).symm
  · exact putElts_elem_unwritten hd hb hrow hr fun p hp he => absurd (hin p hp).2 (by omega)

end

/-! ### The elements of a grant -/

theorem mem_gridOf {rows cols : Nat} {p : Nat × Nat} : p ∈ gridOf rows cols ↔ p.1 < rows ∧ p.2 < cols := by
  obtain ⟨r, c⟩ := p
  simp [gridOf, List.mem_flatMap]

/-- They stand in the order of their indices. -/
theorem gridOf_sorted (rows cols : Nat) : (gridOf rows cols).Pairwise fun p q => p.1 * cols + p.2 < q.1 * cols + q.2 := by
  refine List.pairwise_flatMap.mpr ⟨fun r _ => ?_, ?_⟩
  · refine List.pairwise_map.mpr (List.pairwise_lt_range.imp fun h => ?_)
    dsimp only
    omega
  · refine List.pairwise_lt_range.imp fun {r q} h => ?_
    intro p hp p' hp'
    obtain ⟨c, hc, rfl⟩ := List.mem_map.mp hp
    obtain ⟨c', -, rfl⟩ := List.mem_map.mp hp'
    have hc := List.mem_range.mp hc
    have := Nat.mul_le_mul_right cols (Nat.succ_le_of_lt h)
    rw [Nat.succ_mul] at this
    dsimp only
    omega

theorem gridOf_nodup (rows cols : Nat) : (gridOf rows cols).Nodup :=
  (gridOf_sorted rows cols).imp fun {p q} h he => by rw [he] at h; exact absurd h (lt_irrefl _)

/-- An element's place in the grant is its index's quotient and remainder. -/
theorem index_split {cols r c : Nat} (hc : c < cols) : (r * cols + c) / cols = r ∧ (r * cols + c) % cols = c := by
  have hpos : 0 < cols := by omega
  rw [Nat.mul_comm, Nat.mul_add_div hpos, Nat.div_eq_of_lt hc, Nat.add_zero, Nat.mul_add_mod, Nat.mod_eq_of_lt hc]
  exact ⟨rfl, rfl⟩

/-- The element at a place of an entry's grant. -/
def VEntry.eltAt (e : VEntry) (f3 : Nat) (base : W64) (r c : Nat) : Elt :=
  { j := r * e.cols + c, r := r, c := c, va := eltVa e f3 base r c }

theorem mem_eltsOf {e : VEntry} {f3 : Nat} {base : W64} {t : Elt} :
    t ∈ eltsOf e f3 base ↔ ∃ r c, r < e.rows ∧ c < e.cols ∧ e.start ≤ r * e.cols + c ∧ t = e.eltAt f3 base r c := by
  simp only [eltsOf, List.mem_filter, List.mem_map, mem_gridOf, Prod.exists, decide_eq_true_eq]
  constructor
  · rintro ⟨⟨r, c, ⟨hr, hc⟩, rfl⟩, hj⟩
    exact ⟨r, c, hr, hc, hj, rfl⟩
  · rintro ⟨r, c, hr, hc, hj, rfl⟩
    exact ⟨⟨r, c, ⟨hr, hc⟩, rfl⟩, hj⟩

/-! ### The elements that a load writes -/

section
variable {x : Strand} {e : VEntry} {vd : Spec} {m : Ext} {ina : List Elt} {vals : List (Elt × Except Fa Nat)}

/-- What a load writes for an element: its value, or nothing where it faults. -/
def loadedOf (vals : List (Elt × Except Fa Nat)) : List (Nat × Nat × Nat) :=
  vals.filterMap fun v => v.2.toOption.map fun n => (v.1.r, v.1.c, n)

theorem Strand.loadWrite_eq (x : Strand) (vd : Spec) (w : Nat) (vals : List (Elt × Except Fa Nat)) :
    x.loadWrite vd w vals = x.putElts vd w (loadedOf vals) := by
  rw [Strand.loadWrite, Strand.putElts, loadedOf, List.foldl_filterMap]
  congr 1
  funext u v
  obtain ⟨t, _ | _⟩ := v <;> rfl

/-- The elements that a load which begins zeroes. -/
def zeroedOf (m : Ext) (ina : List Elt) : List (Nat × Nat × Nat) := if m.zero then ina.map fun t => (t.r, t.c, 0) else []

theorem Strand.loadZero_eq (hb : e.begun = false) : x.loadZero e vd m ina = x.putElts vd e.sew (zeroedOf m ina) := by
  rw [Strand.loadZero, zeroedOf, hb, Bool.not_false, Bool.and_true, Strand.putElts]
  split_ifs
  · rw [List.foldl_map]
  · rfl

/-- A load that begins writes its elements in one order. -/
theorem Strand.loadZero_loadWrite (hb : e.begun = false) :
    (x.loadZero e vd m ina).loadWrite vd e.sew vals = x.putElts vd e.sew (zeroedOf m ina ++ loadedOf vals) := by
  rw [Strand.loadWrite_eq, Strand.loadZero_eq hb, Strand.putElts, Strand.putElts, Strand.putElts, List.foldl_append]

theorem mem_loadedOf {r c v : Nat} : (r, c, v) ∈ loadedOf vals ↔ ∃ t, (t, .ok v) ∈ vals ∧ t.r = r ∧ t.c = c := by
  simp only [loadedOf, List.mem_filterMap, Option.map_eq_some_iff, Prod.exists, Prod.mk.injEq]
  constructor
  · rintro ⟨t, n, hm, a, ha, rfl, rfl, rfl⟩
    cases n with
    | error => cases ha
    | ok n => cases ha; exact ⟨t, hm, rfl, rfl⟩
  · rintro ⟨t, hm, rfl, rfl⟩
    exact ⟨t, .ok v, hm, v, rfl, rfl, rfl, rfl⟩

theorem mem_zeroedOf {r c v : Nat} : (r, c, v) ∈ zeroedOf m ina ↔ m.zero = true ∧ v = 0 ∧ ∃ t ∈ ina, t.r = r ∧ t.c = c := by
  unfold zeroedOf
  cases m.zero with
  | false => simp
  | true =>
    simp only [if_true, List.mem_map, Prod.mk.injEq, true_and]
    constructor
    · rintro ⟨t, ht, rfl, rfl, rfl⟩; exact ⟨rfl, t, ht, rfl, rfl⟩
    · rintro ⟨rfl, t, ht, rfl, rfl⟩; exact ⟨t, ht, rfl, rfl, rfl⟩

end

end Sys2Proof.Machine
end

