-- ==== Sys2Proof/Proofs/VectorLoads.lean ====
section
/-! PROOFS. Vector loads that meet no fault (R187, R188, R193), and through a plat (R145): the checks of R188, what a load writes of its
grant, and its commit. -/

namespace Sys2Proof.Machine

/-! ### The checks of R188 -/

/-- An element that is no nibble has a whole number of bytes. -/
theorem VEntry.sew_div (e : VEntry) (h : e.sew ≠ 4) : 8 ≤ e.sew ∧ max 1 (e.sew / 8) = e.sew / 8 := by
  have h8 : 8 ≤ e.sew := by
    unfold VEntry.sew vtSew at h ⊢
    cases hk : min (fld e.vtype 0 3) 4 with
    | zero => rw [hk] at h; exact absurd rfl h
    | succ k => rw [Nat.pow_succ]; have := Nat.two_pow_pos k; omega
  omega

section
variable {x : Strand} {e : VEntry} {f3 : Nat} {base : W64}

theorem Strand.memCheck_none (h4 : e.sew = 4 → f3 = 0) (hbase : e.sew = 4 ∨ base.toNat % max 1 (e.sew / 8) = 0)
    (hstride : f3 = 1 → e.xs2.toNat % max 1 (e.sew / 8) = 0) (h3 : f3 ≠ 3) : x.memCheck e f3 base = none := by
  by_cases h : e.sew = 4
  · simp [Strand.memCheck, h, h4 h]
  · rw [(e.sew_div h).2] at hbase hstride
    by_cases h1 : f3 = 1
    · simp [Strand.memCheck, h, hbase.resolve_left h, hstride h1]
    · simp [Strand.memCheck, h, hbase.resolve_left h, h1, h3]

theorem Strand.memCheck_base (h : e.sew ≠ 4) (hbase : base.toNat % max 1 (e.sew / 8) ≠ 0) :
    x.memCheck e f3 base = some (.trap x cMisalign base) := by
  obtain ⟨h8, hdiv⟩ := e.sew_div h
  rw [hdiv] at hbase
  simp [Strand.memCheck, h, h8, hbase]

theorem Strand.memCheck_stride (h : e.sew ≠ 4) (hbase : base.toNat % max 1 (e.sew / 8) = 0)
    (hstride : e.xs2.toNat % max 1 (e.sew / 8) ≠ 0) : x.memCheck e 1 base = some (.trap x cMisalign e.xs2) := by
  rw [(e.sew_div h).2] at hbase hstride
  simp [Strand.memCheck, h, hbase, hstride]

end

/-! ### What a load writes of its grant -/

/-- The elements that a load has: from one on, the inactive ones of its grant, and the active ones each with its value or its fault. -/
structure LoadLists (rows cols start : Nat) (live : Nat → Nat → Bool) (res : Nat → Nat → Except Fa Nat) (ina : List Elt)
    (vals : List (Elt × Except Fa Nat)) : Prop where
  inactive : ∀ r c, (∃ t ∈ ina, t.r = r ∧ t.c = c) ↔ r < rows ∧ c < cols ∧ start ≤ r * cols + c ∧ live r c = false
  answers  : ∀ r c a, (∃ t, (t, a) ∈ vals ∧ t.r = r ∧ t.c = c) ↔ r < rows ∧ c < cols ∧ start ≤ r * cols + c ∧ live r c = true ∧ res r c = a

section
variable {rows cols start : Nat} {live : Nat → Nat → Bool} {res : Nat → Nat → Except Fa Nat} {ina : List Elt}
  {vals : List (Elt × Except Fa Nat)} {x y x' y' : Strand} {vd : Spec} {w : Nat} {val val' : Nat → Nat → Option Nat}

/-- What is written of a grant, and of the registers beside it, depends on nothing else of the strands. -/
theorem Wrote.of_files (h : Wrote x y vd w rows cols val) (hv : vd.toNat < 0x48) (hx : x'.v = x.v ∧ x'.o = x.o)
    (hy : y'.v = y.v ∧ y'.o = y.o) : Wrote x' y' vd w rows cols val := by
  have hrx : ∀ r, x'.readRow vd r = x.readRow vd r := fun r => readRow_files r hv hx.1 hx.2
  have hry : ∀ r, y'.readRow vd r = y.readRow vd r := fun r => readRow_files r hv hy.1 hy.2
  refine ⟨fun r c hr hc hw => ?_, fun r c hr hc hw => ?_, fun n hn => ?_, fun n hn => ?_⟩
  · rw [hrx, hry]
    exact h.grant r c hr hc hw
  · rw [hrx, hry]
    exact h.beyond r c hr hc hw
  · rw [hx.1, hy.1]
    exact h.keeps.v n hn
  · rw [hx.2, hy.2]
    exact h.keeps.o n hn

theorem Wrote.of_vals (h : Wrote x y vd w rows cols val) (hval : ∀ r c, r < rows → c < cols → val r c = val' r c) :
    Wrote x y vd w rows cols val' :=
  ⟨fun r c hr hc hw => hval r c hr hc ▸ h.grant r c hr hc hw, h.beyond, h.keeps⟩

/-- A load that begins writes the values of its active elements, and under `.z` zero to its inactive ones. -/
theorem LoadLists.wrote (h : LoadLists rows cols start live res ina vals) {e : VEntry} {m : Ext} (hd : DestOk vd rows) (hb : rows ≤ 64)
    (hbegun : e.begun = false) :
    Wrote x ((x.loadZero e vd m ina).loadWrite vd e.sew vals) vd e.sew rows cols fun r c =>
      if r * cols + c < start then none else if live r c then (res r c).toOption else if m.zero then some 0 else none := by
  rw [Strand.loadZero_loadWrite hbegun]
  have hmem : ∀ r c v, (r, c, v) ∈ zeroedOf m ina ++ loadedOf vals ↔ r < rows ∧ c < cols ∧ start ≤ r * cols + c
      ∧ (live r c = false ∧ m.zero = true ∧ v = 0 ∨ live r c = true ∧ res r c = .ok v) := by
    intro r c v
    rw [List.mem_append, mem_zeroedOf, mem_loadedOf, h.inactive, h.answers]
    tauto
  refine putElts_wrote hd hb (fun p hp => ?_) fun r c v hr hc => ?_
  · obtain ⟨hr, hc, -⟩ := (hmem p.1 p.2.1 p.2.2).mp hp
    exact ⟨hr, hc⟩
  · rw [hmem]
    by_cases hs : r * cols + c < start
    · simp [hs, Nat.not_le.mpr hs]
    · cases live r c with
      | true => cases res r c <;> simp [hs, hr, hc, Nat.le_of_not_lt hs, Except.toOption]
      | false => cases m.zero <;> simp [hs, hr, hc, Nat.le_of_not_lt hs, eq_comm]

/-- Where every active element has a value, none faults. -/
theorem LoadLists.badOf_nil (h : LoadLists rows cols start live res ina vals) {value : Nat → Nat → Nat}
    (hok : ∀ r c, r < rows → c < cols → start ≤ r * cols + c → live r c = true → res r c = .ok (value r c)) : badOf vals = [] := by
  refine List.filterMap_eq_nil_iff.mpr fun v hv => ?_
  obtain ⟨t, a⟩ := v
  obtain ⟨hr, hc, hs, hl, ha⟩ := (h.answers t.r t.c a).mp ⟨t, hv, rfl, rfl⟩
  rw [← ha, hok _ _ hr hc hs hl]

end

/-! ### The commit of a load -/

section
variable {s : State} {st : Fin 4} {i : Instr} {f : VForm} {vd : Spec}

/-- The element that the entry starts at (R193). -/
theorem Ready.entry_start (h : Ready s st f) (hm : memForm f = true) :
    (s.entryOf st f).start = fld (s.strand st).vstart 0 16 := by
  have hv : (s.entryOf st f).vstart = if memForm f && !(s.strand st).viq.any fun e => memForm e.form then (s.strand st).vstart.extractLsb' 0 16
      else 0 := rfl
  rw [hm, h.empty] at hv
  show (s.entryOf st f).vstart.toNat = _
  rw [hv]
  rfl

/-- A load none of whose elements faults commits with their values (R190). -/
theorem Ready.loads (h : Ready s st f) (hf : formOf i = some f) (hm : memForm f = true) {ext : Ext} {ina : List Elt}
    {vals : List (Elt × Except Fa Nat)} {start : Nat} {live : Nat → Nat → Bool} {res : Nat → Nat → Except Fa Nat}
    {value : Nat → Nat → Nat} (hd : DestOk vd (s.strand st).vlr.toNat)
    (hl : LoadLists (s.strand st).vlr.toNat (s.strand st).vlc.toNat start live res ina vals)
    (hok : ∀ r c, r < (s.strand st).vlr.toNat → c < (s.strand st).vlc.toNat → start ≤ r * (s.strand st).vlc.toNat + c → live r c = true →
      res r c = .ok (value r c))
    (hcommit : (s.modStrand st (s.issuing st f)).commitEntry st (s.entryOf st f) = (s.modStrand st (s.issuing st f)).settleEntry st (s.entryOf st f)
      (((s.issuing st f (s.strand st)).loadZero (s.entryOf st f) vd ext ina).loadEnd (s.entryOf st f) vd vals)) :
    ∃ u, Commits s st i u ∧ VecRest s u st f ∧ (u.strand st).p = (s.strand st).p ∧ (u.strand st).k = (s.strand st).k
      ∧ (u.strand st).vstatus = (s.strand st).vstatus
      ∧ Wrote (s.strand st) (u.strand st) vd (vtSew (s.strand st).vtype) (s.strand st).vlr.toNat (s.strand st).vlc.toNat fun r c =>
          if r * (s.strand st).vlc.toNat + c < start then none else if live r c then some (value r c) else if ext.zero then some 0 else none := by
  obtain ⟨y, hy⟩ : ∃ y, y = ((s.issuing st f (s.strand st)).loadZero (s.entryOf st f) vd ext ina).loadWrite vd (s.entryOf st f).sew vals :=
    ⟨_, rfl⟩
  have hwrote := hl.wrote (x := s.issuing st f (s.strand st)) (e := s.entryOf st f) (m := ext) hd (by have := (s.strand st).vlr.isLt; omega) rfl
  rw [← hy] at hwrote
  rw [Strand.loadEnd, hl.badOf_nil hok] at hcommit
  rw [Strand.loadZero_loadWrite rfl] at hy
  obtain ⟨u, hu, hrest, hv, ho, hp, hk, hvs⟩ := h.commits_done hf hm (y := y) (by rw [hcommit, hy, ← Strand.loadZero_loadWrite rfl])
    (hy ▸ putElts_rest ..)
  have hfiles := hwrote.of_files (x' := s.strand st) (y' := u.strand st) (by rcases hd with h | h <;> omega) ⟨rfl, rfl⟩ ⟨hv, ho⟩
  refine ⟨u, hu, hrest, hp, hk, hvs, hfiles.of_vals fun r c hr hc => ?_⟩
  split_ifs with hs hlive
  · rfl
  · rw [hok r c hr hc (Nat.le_of_not_lt hs) hlive]
    rfl
  all_goals rfl

end

end Sys2Proof.Machine
end

