-- ==== Sys2Proof/Proofs/VectorLoadIssue.lean ====
section
/-! PROOFS. `VLD`, `VLDS` and `VLD2D` at their issue (R188), and `VLDP` (R145): what each loads, and its traps. -/

namespace Sys2Proof.Machine

/-! ### One element -/

section
variable {s : State} {st : Fin 4} {f : Strand → Strand}

theorem State.loadElt_modStrand (ht : (f (s.strand st)).task = (s.strand st).task) (ha : (f (s.strand st)).acc = (s.strand st).acc) (w : Nat)
    (t : Elt) : (s.modStrand st f).loadElt st w t = s.loadElt st w t := by
  simp only [State.loadElt, State.vecXlate_modStrand, State.acc_modStrand ha, State.anyPoison_modStrand ht, State.view,
    State.viewByte_modStrand ht]
  rfl

theorem State.platLoadElt_modStrand (ht : (f (s.strand st)).task = (s.strand st).task) (ha : (f (s.strand st)).acc = (s.strand st).acc)
    (p : Plat) (t : Elt) : (s.modStrand st f).platLoadElt st p t = s.platLoadElt st p t := by
  simp only [State.platLoadElt, State.acc_modStrand ha, State.poisonedTo_modStrand, State.viewByte_modStrand ht, State.strand_modStrand_same, ht]
  rfl

/-- An element that translates and meets no poison is read little-endian, a nibble by its index (R188). -/
theorem State.loadElt_ok {w pa : Nat} {t : Elt} (hx : s.vecXlate (s.acc st) t.va true false = .ok pa)
    (hp : s.anyPoison st .E pa (max 1 (w / 8)) = false) :
    s.loadElt st w t = .ok (let v := leNat (s.view (some (st, .E)) (s.slotKey (s.acc st).key) pa (max 1 (w / 8)))
      if w = 4 then v / 16 ^ (t.j % 2) % 16 else v) := by
  simp only [State.loadElt, hx, hp, Bool.false_eq_true, if_false, beq_iff_eq, Nat.pow_mul]

theorem State.eltPa_ok {pa : Nat} {t : Elt} (hx : s.vecXlate (s.acc st) t.va true false = .ok pa) : s.eltPa st t = some pa := by
  rw [State.eltPa, hx]
  rfl

end

/-! ### The elements of a load -/

/-- Whether an element of an access counts as active (R188). -/
def Strand.actElt (x : Strand) (e : VEntry) (f3 : Nat) (m : Ext) (t : Elt) : Bool := x.active m t.r t.c && inShape e f3 t.r t.c

theorem vload_lists (x : Strand) (e : VEntry) (f3 : Nat) (base : W64) (m : Ext) (load : Elt → Except Fa Nat) :
    LoadLists e.rows e.cols e.start (fun r c => x.active m r c && inShape e f3 r c) (fun r c => load (e.eltAt f3 base r c))
      ((eltsOf e f3 base).filter fun t => !x.actElt e f3 m t) (((eltsOf e f3 base).filter (x.actElt e f3 m)).map fun t => (t, load t)) := by
  refine ⟨fun r c => ?_, fun r c a => ?_⟩
  · simp only [List.mem_filter, mem_eltsOf, Bool.not_eq_true']
    constructor
    · rintro ⟨t, ⟨⟨r, c, hr, hc, hs, rfl⟩, ha⟩, rfl, rfl⟩
      exact ⟨hr, hc, hs, ha⟩
    · rintro ⟨hr, hc, hs, ha⟩
      exact ⟨_, ⟨⟨r, c, hr, hc, hs, rfl⟩, ha⟩, rfl, rfl⟩
  · simp only [List.mem_map, List.mem_filter, mem_eltsOf, Prod.mk.injEq]
    constructor
    · rintro ⟨t, ⟨_, ⟨⟨r, c, hr, hc, hs, rfl⟩, ha⟩, rfl, rfl⟩, rfl, rfl⟩
      exact ⟨hr, hc, hs, ha, rfl⟩
    · rintro ⟨hr, hc, hs, ha, rfl⟩
      exact ⟨_, ⟨_, ⟨⟨r, c, hr, hc, hs, rfl⟩, ha⟩, rfl, rfl⟩, rfl, rfl⟩

/-- A load that begins, passes the checks of R188 and meets no held stack answers from its elements. -/
theorem State.vload_issue {s : State} {st : Fin 4} {e : VEntry} {f3 : Nat} {o : VOp} {m : Ext} {disp : Option W64} (hb : e.begun = false)
    (hcheck : (s.strand st).memCheck e f3 (memBase e disp) = none)
    (hfree : ∀ t ∈ (eltsOf e f3 (memBase e disp)).filter ((s.strand st).actElt e f3 m), ∀ pa, s.eltPa st t = some pa → s.heldAt pa = false) :
    s.vload st e f3 o m disp = s.settleEntry st e
      (((s.strand st).loadZero e o.vd m ((eltsOf e f3 (memBase e disp)).filter fun t => !(s.strand st).actElt e f3 m t)).loadEnd e o.vd
        (((eltsOf e f3 (memBase e disp)).filter ((s.strand st).actElt e f3 m)).map fun t => (t, s.loadElt st e.sew t))) := by
  have hheld : s.anyHeld (((eltsOf e f3 (memBase e disp)).filter ((s.strand st).actElt e f3 m)).filterMap (s.eltPa st)) = false := by
    refine List.any_eq_false.mpr fun pa hpa => ?_
    obtain ⟨t, ht, he⟩ := List.mem_filterMap.mp hpa
    simp [hfree t ht pa he]
  have hact : (fun t => (s.strand st).actElt e f3 m t && (!e.begun || maskBit (s.strand st).mask t.r t.c)) = (s.strand st).actElt e f3 m := by
    funext t
    rw [hb, Bool.not_false, Bool.true_or, Bool.and_true]
  unfold State.vload
  dsimp only
  rw [hcheck]
  unfold Strand.actElt at hact hheld ⊢
  dsimp only
  rw [hact, hheld]
  rfl

/-! ### `VLD`, `VLDS` and `VLD2D` -/

/-- The form of a vector load from addresses (R187). -/
def loadForm (f3 : Nat) (vd : Spec) (m : MemOp) : VForm := .vec 0x12 f3 { vd := vd, vs1 := 0, vs2 := 0 } (m.ext 7 0) m.disp

section
variable {s : State} {st : Fin 4} {i : Instr} {vd : Spec} {m : MemOp} {f3 : Nat}

theorem State.commitEntry_load (s : State) (hf3 : f3 = 0 ∨ f3 = 1 ∨ f3 = 4) {e : VEntry} (he : e.form = loadForm f3 vd m) :
    s.commitEntry st e = s.vload st e f3 { vd := vd, vs1 := 0, vs2 := 0 } (m.ext 7 0) m.disp := by
  rw [State.commitEntry, he]
  rcases hf3 with rfl | rfl | rfl <;> rfl

/-- A load from addresses whose active elements translate, and meet neither poison nor a held stack. -/
theorem Ready.vload (h : Ready s st (loadForm f3 vd m)) (hf : formOf i = some (loadForm f3 vd m)) (hf3 : f3 = 0 ∨ f3 = 1 ∨ f3 = 4)
    (hd : DestOk vd (s.strand st).vlr.toNat) {pa : Nat → Nat → Nat} :
    let x := s.strand st
    let n := vtSew x.vtype
    let e := s.entryOf st (loadForm f3 vd m)
    let size := max 1 (n / 8)
    (∀ y : Strand, y.memCheck e f3 (memBase e m.disp) = none) →
    (∀ r c, r < x.vlr.toNat → c < x.vlc.toNat → fld x.vstart 0 16 ≤ r * x.vlc.toNat + c → x.active (m.ext 7 0) r c = true →
      inShape e f3 r c = true → s.vecXlate (s.acc st) (eltVa e f3 (memBase e m.disp) r c) true false = .ok (pa r c)
        ∧ s.anyPoison st .E (pa r c) size = false ∧ s.heldAt (pa r c) = false) →
    ∃ u, Commits s st i u ∧ VecRest s u st (loadForm f3 vd m) ∧ (u.strand st).p = x.p ∧ (u.strand st).k = x.k
      ∧ (u.strand st).vstatus = x.vstatus
      ∧ Wrote x (u.strand st) vd n x.vlr.toNat x.vlc.toNat fun r c =>
          if r * x.vlc.toNat + c < fld x.vstart 0 16 then none
          else if x.active (m.ext 7 0) r c && inShape e f3 r c then
            some (let v := leNat (s.view (some (st, .E)) (s.slotKey (s.acc st).key) (pa r c) size)
              if n = 4 then v / 16 ^ ((r * x.vlc.toNat + c) % 2) % 16 else v)
          else if m.zero then some 0 else none := by
  intro x n e size hcheck hlive
  have hstart : e.start = fld x.vstart 0 16 := h.entry_start rfl
  have hx1 : (s.modStrand st (s.issuing st (loadForm f3 vd m))).strand st = s.issuing st (loadForm f3 vd m) x := State.strand_modStrand_same ..
  have hlists := vload_lists (s.issuing st (loadForm f3 vd m) x) e f3 (memBase e m.disp) (m.ext 7 0) (s.loadElt st n)
  rw [hstart] at hlists
  refine h.loads hf rfl (ext := m.ext 7 0) hd hlists (fun r c hr hc hs ha => ?_) ?_
  · obtain ⟨hact, hshape⟩ := Bool.and_eq_true_iff.mp ha
    obtain ⟨hxl, hp, -⟩ := hlive r c hr hc hs hact hshape
    exact State.loadElt_ok (t := e.eltAt f3 (memBase e m.disp) r c) hxl hp
  · rw [State.commitEntry_load _ hf3 rfl, State.vload_issue rfl (hcheck _) ?_, hx1]
    · simp only [State.loadElt_modStrand (f := s.issuing st (loadForm f3 vd m)) rfl rfl]
      rfl
    · rw [hx1]
      intro t ht q hq
      obtain ⟨hm, hact⟩ := List.mem_filter.mp ht
      obtain ⟨r, c, hr, hc, hs, rfl⟩ := mem_eltsOf.mp hm
      obtain ⟨hact, hshape⟩ := Bool.and_eq_true_iff.mp hact
      obtain ⟨hxl, -, hheld⟩ := hlive r c hr hc (hstart ▸ hs) hact hshape
      have hpa : (s.modStrand st (s.issuing st (loadForm f3 vd m))).eltPa st (e.eltAt f3 (memBase e m.disp) r c) = some (pa r c) :=
        State.eltPa_ok (by rw [State.vecXlate_modStrand, State.acc_modStrand rfl]; exact hxl)
      obtain rfl := Option.some.inj (hpa.symm.trans hq)
      exact hheld

/-- A load whose checks fail traps (R188). -/
theorem Ready.vload_traps {lines : List Nat} (h : Ready s st (loadForm f3 vd m)) (hf : formOf i = some (loadForm f3 vd m))
    (hf3 : f3 = 0 ∨ f3 = 1 ∨ f3 = 4) (ht : CanTrap s st lines) {tval : W64}
    (hcheck : let e := s.entryOf st (loadForm f3 vd m)
      ∀ x : Strand, x.memCheck e f3 (memBase e m.disp) = some (.trap x cMisalign tval)) : VecTraps s st i 0x03 tval := by
  refine h.traps hf ht rfl ?_
  rw [State.commitEntry_load _ hf3 rfl, State.vload]
  dsimp only
  rw [hcheck]
  rfl

end

/-! ### `VLDP` -/

section
variable {s : State} {st : Fin 4} {i : Instr} {vd : Spec} {m : MemOp} {p : Plat}

/-- The element of a plat that a place of the grant takes (R145). -/
theorem platElt_index (e : VEntry) (p : Plat) {r c : Nat} (hc : c < e.cols) :
    (platElt e p (r * e.cols + c)).j = r * e.cols + c ∧ (platElt e p (r * e.cols + c)).r = r ∧ (platElt e p (r * e.cols + c)).c = c :=
  ⟨rfl, index_split hc⟩

theorem mem_platElts {x : Strand} {e : VEntry} {ext : Ext} {start : Nat} {t : Elt} : t ∈ x.platElts e ext p start ↔
    ∃ r c, r < e.rows ∧ c < e.cols ∧ start ≤ r * e.cols + c ∧ r * e.cols + c < p.n ∧ x.active ext r c = true
      ∧ t = platElt e p (r * e.cols + c) := by
  simp only [Strand.platElts, List.mem_filter, List.mem_map, List.mem_range, Bool.and_eq_true, decide_eq_true_eq]
  constructor
  · rintro ⟨⟨j, hj, rfl⟩, hs, ha⟩
    have hpos : 0 < e.cols := Nat.pos_of_ne_zero fun h0 => by simp [h0] at hj
    have hsplit : j / e.cols * e.cols + j % e.cols = j := Nat.div_add_mod' ..
    refine ⟨j / e.cols, j % e.cols, (Nat.div_lt_iff_lt_mul hpos).mpr (by omega), Nat.mod_lt _ hpos, ?_⟩
    rw [hsplit]
    exact ⟨hs, by omega, ha, rfl⟩
  · rintro ⟨r, c, hr, hc, hs, hn, ha, rfl⟩
    have hlt : r * e.cols + c < e.rows * e.cols := by
      have := Nat.mul_le_mul_right e.cols (Nat.succ_le_of_lt hr)
      rw [Nat.succ_mul] at this
      omega
    obtain ⟨hj, hr', hc'⟩ := platElt_index e p (r := r) hc
    exact ⟨⟨_, by omega, rfl⟩, by rw [hj]; exact hs, by rw [hr', hc']; exact ha⟩

theorem vldp_lists {x : Strand} {e : VEntry} {ext : Ext} (load : Elt → Except Fa Nat) :
    LoadLists e.rows e.cols e.start (fun r c => decide (r * e.cols + c < p.n) && x.active ext r c)
      (fun r c => load (platElt e p (r * e.cols + c)))
      ((eltsOf e 0 0).filter fun t => !(x.platElts e ext p e.start).any fun u => u.j == t.j)
      ((x.platElts e ext p e.start).map fun t => (t, load t)) := by
  have hany : ∀ r c, r < e.rows → c < e.cols → e.start ≤ r * e.cols + c →
      ((x.platElts e ext p e.start).any fun u => u.j == r * e.cols + c) = (decide (r * e.cols + c < p.n) && x.active ext r c) := by
    intro r c hr hc hs
    rw [Bool.eq_iff_iff]
    simp only [List.any_eq_true, mem_platElts, beq_iff_eq, Bool.and_eq_true, decide_eq_true_eq]
    constructor
    · rintro ⟨t, ⟨r', c', hr', hc', hs', hn, ha, rfl⟩, hj⟩
      change r' * e.cols + c' = r * e.cols + c at hj
      obtain ⟨hq, hm⟩ := index_split (r := r) hc
      obtain ⟨hq', hm'⟩ := index_split (r := r') hc'
      rw [hj] at hq' hm' hn
      obtain rfl := hq.symm.trans hq'
      obtain rfl := hm.symm.trans hm'
      exact ⟨hn, ha⟩
    · rintro ⟨hn, ha⟩
      exact ⟨_, ⟨r, c, hr, hc, hs, hn, ha, rfl⟩, rfl⟩
  refine ⟨fun r c => ?_, fun r c a => ?_⟩
  · simp only [List.mem_filter, mem_eltsOf, Bool.not_eq_true']
    constructor
    · rintro ⟨t, ⟨⟨r, c, hr, hc, hs, rfl⟩, ha⟩, rfl, rfl⟩
      exact ⟨hr, hc, hs, (hany _ _ hr hc hs).symm.trans ha⟩
    · rintro ⟨hr, hc, hs, ha⟩
      exact ⟨_, ⟨⟨r, c, hr, hc, hs, rfl⟩, (hany _ _ hr hc hs).trans ha⟩, rfl, rfl⟩
  · simp only [List.mem_map, mem_platElts, Prod.mk.injEq]
    constructor
    · rintro ⟨t, ⟨_, ⟨r', c', hr, hc, hs, hn, ha, rfl⟩, rfl, rfl⟩, rfl, rfl⟩
      obtain ⟨hj, hr', hc'⟩ := platElt_index e p (r := r') hc
      rw [hr', hc']
      exact ⟨hr, hc, hs, by simp [hn, ha], rfl⟩
    · rintro ⟨hr, hc, hs, ha, rfl⟩
      simp only [Bool.and_eq_true, decide_eq_true_eq] at ha
      obtain ⟨hj, hr', hc'⟩ := platElt_index e p (r := r) hc
      exact ⟨_, ⟨_, ⟨r, c, hr, hc, hs, ha.1, ha.2, rfl⟩, rfl, rfl⟩, hr', hc'⟩

/-- A `VLDP` that begins, with a plat that passes its checks, answers from its elements. -/
theorem State.vldp_issue {e : VEntry} {o : VOp} {ext : Ext} (hb : e.begun = false) (hheld : s.verifyHeld st e.xs = false)
    (hcheck : (s.platCheck st .E e.xs).2 = .ok p) (hvec : s.platVec st e p false = none) :
    s.vldp st e o ext = s.settleEntry st e
      (((s.strand st).loadZero e o.vd ext
          ((eltsOf e 0 0).filter fun t => !((s.strand st).platElts e ext p e.start).any fun u => u.j == t.j)).loadEnd e o.vd
        (((s.strand st).platElts e ext p e.start).map fun t => (t, s.platLoadElt st p t))) := by
  have hall : ((s.strand st).platElts e ext p e.start).filter (fun t => !e.begun || maskBit (s.strand st).mask t.r t.c)
      = (s.strand st).platElts e ext p e.start := by
    rw [hb]
    exact List.filter_eq_self.mpr fun _ _ => rfl
  obtain ⟨s1, hs1⟩ : ∃ s1, s.platCheck st .E e.xs = (s1, .ok p) := ⟨_, Prod.ext rfl hcheck⟩
  unfold State.vldp
  rw [hheld, hs1]
  dsimp only
  rw [hvec]
  unfold State.platLoads
  dsimp only
  rw [hall]
  rfl

/-- The checks of R145 on a plat of the scratchpad whose elements are as wide as those of the grant. -/
theorem State.platVec_none {e : VEntry} (hpart : ∀ a ∈ p.pas.flatMap id, s.inPart (s.acc st) a = true) (hsz : p.sz * 8 = e.sew) :
    s.platVec st e p false = none := by
  have hall : ((p.pas.flatMap id).all fun pa => s.inPart (s.acc st) pa) = true := List.all_eq_true.mpr hpart
  rw [State.platVec, hall, hsz]
  simp

/-- An element whose target is not poisoned to the stream is read little-endian. -/
theorem State.platLoadElt_ok {t : Elt} (hp : ∀ a ∈ p.pas.getD t.j [], s.poisonedTo (s.strand st).task st .E a = false) :
    s.platLoadElt st p t = .ok (leNat ((p.pas.getD t.j []).map fun a => s.viewByte (some (st, .E)) (s.slotKey (s.acc st).key) a)) := by
  have hany : ((p.pas.getD t.j []).any fun a => s.poisonedTo (s.strand st).task st .E a) = false :=
    List.any_eq_false.mpr fun a ha => by simp [hp a ha]
  rw [State.platLoadElt, hany]
  rfl

/-- A load through a plat whose targets are not poisoned. -/
theorem Ready.vldp (h : Ready s st (loadForm 6 vd m)) (hf : formOf i = some (loadForm 6 vd m)) (hd : DestOk vd (s.strand st).vlr.toNat)
    (hheld : s.verifyHeld st (s.readX st .E m.xs) = false) (hcheck : (s.platCheck st .E (s.readX st .E m.xs)).2 = .ok p)
    (hpart : ∀ a ∈ p.pas.flatMap id, s.inPart (s.acc st) a = true) (hsz : p.sz * 8 = vtSew (s.strand st).vtype) :
    let x := s.strand st
    (∀ r c, r < x.vlr.toNat → c < x.vlc.toNat → fld x.vstart 0 16 ≤ r * x.vlc.toNat + c → r * x.vlc.toNat + c < p.n →
      x.active (m.ext 7 0) r c = true → ∀ a ∈ p.pas.getD (r * x.vlc.toNat + c) [], s.poisonedTo x.task st .E a = false) →
    ∃ u, Commits s st i u ∧ VecRest s u st (loadForm 6 vd m) ∧ (u.strand st).p = x.p ∧ (u.strand st).k = x.k
      ∧ (u.strand st).vstatus = x.vstatus
      ∧ Wrote x (u.strand st) vd (vtSew x.vtype) x.vlr.toNat x.vlc.toNat fun r c =>
          if r * x.vlc.toNat + c < fld x.vstart 0 16 then none
          else if decide (r * x.vlc.toNat + c < p.n) && x.active (m.ext 7 0) r c then
            some (leNat ((p.pas.getD (r * x.vlc.toNat + c) []).map fun a => s.viewByte (some (st, .E)) (s.slotKey (s.acc st).key) a))
          else if m.zero then some 0 else none := by
  intro x hlive
  have hstart : (s.entryOf st (loadForm 6 vd m)).start = fld x.vstart 0 16 := h.entry_start rfl
  have hx1 : (s.modStrand st (s.issuing st (loadForm 6 vd m))).strand st = s.issuing st (loadForm 6 vd m) x := State.strand_modStrand_same ..
  have hlists := vldp_lists (x := s.issuing st (loadForm 6 vd m) x) (e := s.entryOf st (loadForm 6 vd m)) (p := p) (ext := m.ext 7 0)
    (s.platLoadElt st p)
  rw [hstart] at hlists
  refine h.loads hf rfl (ext := m.ext 7 0) hd hlists (fun r c hr hc hs ha => ?_) ?_
  · obtain ⟨hn, hact⟩ := Bool.and_eq_true_iff.mp ha
    exact State.platLoadElt_ok (t := platElt (s.entryOf st (loadForm 6 vd m)) p (r * x.vlc.toNat + c))
      (hlive r c hr hc hs (of_decide_eq_true hn) hact)
  · show State.vldp _ st _ { vd := vd, vs1 := 0, vs2 := 0 } (m.ext 7 0) = _
    rw [State.vldp_issue (p := p) rfl, hx1, hstart]
    · simp only [State.platLoadElt_modStrand (f := s.issuing st (loadForm 6 vd m)) rfl rfl]
      rfl
    · exact (State.verifyHeld_modStrand rfl rfl _).trans hheld
    · exact (State.platCheck_modStrand rfl rfl ..).trans hcheck
    · refine State.platVec_none (fun a ha => ?_) hsz
      rw [State.inPart_modStrand, State.acc_modStrand rfl]
      exact hpart a ha

end

end Sys2Proof.Machine
end

