-- ==== Sys2Proof/Proofs/AbsentPages.lean ====
section
/-! PROOFS. A `VLD` some of whose elements have no vector-map entry (R190, R192, R339): the fault mask and what `VFCNT` counts of it, the fault
record, and the strand parked for the supervisor. -/

namespace Sys2Proof.Machine

/-! ### The fault mask -/

/-- Elements marked in a mask. -/
def markAll (g : List (Nat × Nat)) (m : Pred) : Pred := g.foldl (fun m p => setPredBit m p.1 p.2 true) m

theorem setPredBit_true (m : Pred) (r c b : Nat) :
    (setPredBit m r c true).getLsbD b = (m.getLsbD b || decide (b < 32768 ∧ r * 2048 + c = b)) := by
  have h1 : (1 : Pred).getLsbD (b - (r * 2048 + c)) = decide (b - (r * 2048 + c) = 0) := by
    rw [show (1 : Pred) = 1#32768 from rfl, BitVec.getLsbD_one]
    simp
  rw [setPredBit, if_pos rfl, BitVec.getLsbD_or, BitVec.getLsbD_shiftLeft, h1]
  congr 1
  rw [Bool.eq_iff_iff]
  simp only [Bool.and_eq_true, Bool.not_eq_true', decide_eq_true_eq, decide_eq_false_iff_not]
  omega

theorem markAll_getLsbD (g : List (Nat × Nat)) (m : Pred) (b : Nat) : (markAll g m).getLsbD b = true ↔
    m.getLsbD b = true ∨ b < 32768 ∧ ∃ p ∈ g, p.1 * 2048 + p.2 = b := by
  induction g generalizing m with
  | nil => simp [markAll]
  | cons p g ih =>
    have hstep : markAll (p :: g) m = markAll g (setPredBit m p.1 p.2 true) := List.foldl_cons ..
    rw [hstep, ih, setPredBit_true, Bool.or_eq_true, decide_eq_true_eq, List.exists_mem_cons_iff, or_assoc, ← and_or_left]

/-- The number of bits set below a width. -/
theorem popNat_eq_countP (n v : Nat) : popNat n v = (List.range n).countP v.testBit := by
  induction n generalizing v with
  | zero => rfl
  | succ n ih =>
    have hshift : ((List.range n).map Nat.succ).countP v.testBit = popNat n (v / 2) := by
      rw [ih, List.countP_map]
      congr 1
      funext i
      exact Nat.testBit_succ v i
    have hhead : (if v.testBit 0 = true then 1 else 0) = v % 2 := by
      rw [Nat.testBit_zero]
      rcases Nat.mod_two_eq_zero_or_one v with h | h <;> simp [h]
    rw [List.range_succ_eq_map, List.countP_cons, hshift, hhead, popNat, Nat.add_comm]
    split_ifs with h0
    · obtain rfl := beq_iff_eq.mp h0
      rw [Nat.zero_div, popNat_zero]
    · rfl

/-- `VFCNT` counts each marked element once where each has a bit of its own (R171, R193). -/
theorem popNat_markAll {g : List (Nat × Nat)} (hg : g.Nodup) (hin : ∀ p ∈ g, p.1 < 16 ∧ p.2 < 2048) :
    popNat 32768 (markAll g 0).toNat = g.length := by
  have hbits : ∀ b, (markAll g 0).toNat.testBit b = true ↔ b < 32768 ∧ ∃ p ∈ g, p.1 * 2048 + p.2 = b := by
    intro b
    rw [BitVec.testBit_toNat, markAll_getLsbD]
    simp
  have hnodup : (g.map fun p => p.1 * 2048 + p.2).Nodup := by
    refine (List.nodup_map_iff_inj_on hg).mpr fun p hp q hq he => ?_
    have := hin p hp
    have := hin q hq
    exact Prod.ext (by omega) (by omega)
  have hperm : ((List.range 32768).filter (markAll g 0).toNat.testBit).Perm (g.map fun p => p.1 * 2048 + p.2) := by
    refine (List.perm_ext_iff_of_nodup (List.nodup_range.filter _) hnodup).mpr fun b => ?_
    rw [List.mem_filter, hbits, List.mem_range, List.mem_map]
    constructor
    · exact fun h => h.2.2
    · rintro ⟨p, hp, rfl⟩
      have := hin p hp
      exact ⟨by omega, by omega, p, hp, rfl⟩
  rw [popNat_eq_countP, List.countP_eq_length_filter, hperm.length_eq, List.length_map]

/-! ### The fault record -/

/-- Faulting elements of a grant at their places, each with the fault of an absent page at its address. -/
def absentAt (elt : Nat → Nat → Elt) (g : List (Nat × Nat)) : List (Elt × Fa) :=
  g.map fun p => (elt p.1 p.2, { cause := cVmapAbsent, tval := (elt p.1 p.2).va, va := (elt p.1 p.2).va })

theorem badOf_absent {elt : Nat → Nat → Elt} {load : Elt → Except Fa Nat} {bad : Nat → Nat → Bool} {l : List (Nat × Nat)}
    (hbad : ∀ p ∈ l, bad p.1 p.2 = true → load (elt p.1 p.2)
      = .error { cause := cVmapAbsent, tval := (elt p.1 p.2).va, va := (elt p.1 p.2).va })
    (hok : ∀ p ∈ l, bad p.1 p.2 = false → ∃ v, load (elt p.1 p.2) = .ok v) :
    badOf ((l.map fun p => elt p.1 p.2).map fun t => (t, load t)) = absentAt elt (l.filter fun p => bad p.1 p.2) := by
  induction l with
  | nil => rfl
  | cons p l ih =>
    rw [List.forall_mem_cons] at hbad hok
    have ih := ih hbad.2 hok.2
    rw [List.map_cons, List.map_cons, badOf, List.filterMap_cons]
    cases hp : bad p.1 p.2 with
    | true =>
      rw [hbad.1 hp, List.filter_cons, hp, if_pos rfl]
      exact congrArg _ ih
    | false =>
      obtain ⟨v, hv⟩ := hok.1 hp
      rw [hv, List.filter_cons, hp, if_neg Bool.false_ne_true]
      exact ih

theorem faulted_mask (x : Strand) (elt : Nat → Nat → Elt) (g : List (Nat × Nat)) (start : Nat)
    (hplace : ∀ r c, (elt r c).r = r ∧ (elt r c).c = c) : (x.faulted (absentAt elt g) start).mask = markAll g 0 := by
  simp only [Strand.faulted, absentAt, List.foldl_map, markAll, hplace]

theorem faultRec_absent (elt : Nat → Nat → Elt) (p : Nat × Nat) (g : List (Nat × Nat)) :
    let pages := ((p :: g).map fun q => (elt q.1 q.2).va &&& 0xFFFFFFFFC0000000).eraseDups
    faultRec (absentAt elt (p :: g)) = { cause := cVmapAbsent, pages := pages.take 8, more := decide (8 < pages.length) } := by
  have hall : (absentAt elt (p :: g)).filter (fun b => b.2.cause == cVmapAbsent) = absentAt elt (p :: g) := by
    refine List.filter_eq_self.mpr fun b hb => ?_
    obtain ⟨q, -, rfl⟩ := List.mem_map.mp hb
    rfl
  have hpages : (absentAt elt (p :: g)).map (fun b => pageBase b.1.va) = (p :: g).map fun q => (elt q.1 q.2).va &&& 0xFFFFFFFFC0000000 :=
    List.map_map
  show FaultRec.mk _ _ _ = _
  rw [hall, hpages]

/-! ### The strand parked -/

section
variable {s : State} {st : Fin 4} {i : Instr} {f : VForm} {vd : Spec} {m : MemOp}

theorem State.park_strand (s : State) (st : Fin 4) (k : StreamId) (cause : Byte) (tpc tval : W64) (vec : Bool) :
    (s.park st k cause tpc tval vec).strand st = { s.strand st with
      a := (s.strand st).a.backOff, e := (s.strand st).e.backOff, halt := .supervisor cause tpc tval vec k } := by
  have hs : (s.park st k cause tpc tval vec).strands = ((s.dropWaits st).modStrand st fun x => { x with
      a := x.a.backOff, e := x.e.backOff, halt := .supervisor cause tpc tval vec k }).strands := rfl
  rw [State.strand, hs]
  exact State.strand_modStrand_same ..

/-- An entry that takes the supervisor path leaves its strand parked with the entry still the oldest (R279, R339). -/
theorem Ready.parks (h : Ready s st f) (hf : formOf i = some f) {y : Strand} {cause : Byte} {tval : W64} (hc : supervisorCause cause = true)
    (hcommit : (s.modStrand st (s.issuing st f)).commitEntry st (s.entryOf st f)
      = (s.modStrand st (s.issuing st f)).settleEntry st (s.entryOf st f) (.trap y cause tval)) :
    ∃ u, Commits s st i u
      ∧ u.strand st = { y with a := y.a.backOff, e := y.e.backOff, halt := .supervisor cause y.vcp tval true .E }
      ∧ ∃ rec, u.supRecords = s.supRecords ++ [rec] ∧ rec.cause = cause ∧ rec.tval = tval ∧ rec.frec = y.frec ∧ rec.mask = y.mask := by
  obtain ⟨s1, hs1⟩ : ∃ t, t = s.modStrand st (s.issuing st f) := ⟨_, rfl⟩
  obtain ⟨u, hu⟩ : ∃ u, u = s1.settleEntry st (s.entryOf st f) (.trap y cause tval) := ⟨_, rfl⟩
  have hy : (s1.modStrand st fun _ => y).strand st = y := State.strand_modStrand_same ..
  have hpark : u = (s1.modStrand st fun _ => y).park st .E cause y.vcp tval true := by
    have hfirst : (s1.modStrand st fun _ => y).poisonFirst st .E cause = false := by
      rw [State.poisonFirst, hc, Bool.not_true, Bool.false_and, Bool.false_and]
    rw [hu, State.settleEntry, State.vecTrap, hfirst, hc, hy]
    rfl
  have hstrand : u.strand st = { y with a := y.a.backOff, e := y.e.backOff, halt := .supervisor cause y.vcp tval true .E } := by
    rw [hpark, State.park_strand, hy]
  have hhalt : ((u.strand st).halt == Halt.none) = false := by
    rw [hstrand]
    rfl
  have hbad : u.settleBad s1 st (s.entryOf st f) = u := by
    rw [State.settleBad, committed, hhalt, Bool.false_and, Bool.false_and, Bool.not_false, Bool.or_true, if_pos rfl]
  have hdead : u.checkDead st = u := by
    simp only [State.checkDead, hhalt, Bool.and_false, Bool.false_and, Bool.false_eq_true, if_false]
  have hcommits := h.commits hf
  dsimp only at hcommits
  rw [hcommit, ← hs1, ← hu, hbad, hdead] at hcommits
  have hrec : ∃ rec, u.supRecords = s1.supRecords ++ [rec] ∧ rec.cause = cause ∧ rec.tval = tval ∧ rec.frec = y.frec ∧ rec.mask = y.mask := by
    rw [hpark]
    exact ⟨_, rfl, rfl, rfl, congrArg Strand.frec hy, congrArg Strand.mask hy⟩
  rw [hs1] at hrec
  exact ⟨u, hcommits, hstrand, hrec⟩

/-- The first of faulting elements in order of their indices. -/
theorem grid_filter_head {rows cols : Nat} {sel : Nat × Nat → Bool} {r₀ c₀ : Nat} (hr : r₀ < rows) (hc : c₀ < cols) (hsel : sel (r₀, c₀) = true)
    (hmin : ∀ r c, r < rows → c < cols → sel (r, c) = true → r₀ * cols + c₀ ≤ r * cols + c) :
    ∃ rest, (gridOf rows cols).filter sel = (r₀, c₀) :: rest := by
  have hmem : (r₀, c₀) ∈ (gridOf rows cols).filter sel := List.mem_filter.mpr ⟨mem_gridOf.mpr ⟨hr, hc⟩, hsel⟩
  cases hg : (gridOf rows cols).filter sel with
  | nil => rw [hg] at hmem; cases hmem
  | cons p rest =>
    have hp : p ∈ (gridOf rows cols).filter sel := hg ▸ List.mem_cons_self
    obtain ⟨hgrid, hps⟩ := List.mem_filter.mp hp
    obtain ⟨hpr, hpc⟩ := mem_gridOf.mp hgrid
    have hle := hmin p.1 p.2 hpr hpc hps
    have hsorted := (gridOf_sorted rows cols).filter sel
    rw [hg] at hmem hsorted
    rcases List.mem_cons.mp hmem with rfl | hrest
    · exact ⟨rest, rfl⟩
    · exact absurd hle (Nat.not_le.mpr ((List.pairwise_cons.mp hsorted).1 _ hrest))

end

end Sys2Proof.Machine
end

