-- ==== Sys2Proof/Proofs/PartlyMappedLoads.lean ====
section
/-! PROOFS. What a `VLD` leaves some of whose elements have no vector-map entry (R190, R192, R339), and O39. -/

namespace Sys2Proof.Machine

theorem State.loadElt_error {s : State} {st : Fin 4} {w : Nat} {t : Elt} {fa : Fa} (hx : s.vecXlate (s.acc st) t.va true false = .error fa) :
    s.loadElt st w t = .error fa := by
  rw [State.loadElt, hx]

/-! ### A load whose pages are partly absent -/

section
variable (s : State) (st : Fin 4) (vd : Spec) (m : MemOp) (pa : Nat → Nat → Nat) (bad : Nat → Nat → Bool)

/-- The entry of the load in the queue. -/
def State.vldEntry : VEntry := s.entryOf st (loadForm 0 vd m)

/-- The place of its grant at which an element stands. -/
def State.vldElt (r c : Nat) : Elt := (s.vldEntry st vd m).eltAt 0 (memBase (s.vldEntry st vd m) m.disp) r c

/-- Its elements in absent pages, in order. -/
def State.absentElts : List (Nat × Nat) :=
  (gridOf (s.strand st).vlr.toNat (s.strand st).vlc.toNat).filter fun p => (s.strand st).active (m.ext 7 0) p.1 p.2 && bad p.1 p.2

/-- What it reads for an element at a PA. -/
def State.vldValue (r c : Nat) : Nat :=
  let v := leNat (s.view (some (st, .E)) (s.slotKey (s.acc st).key) (pa r c) (max 1 (vtSew (s.strand st).vtype / 8)))
  if vtSew (s.strand st).vtype = 4 then v / 16 ^ ((r * (s.strand st).vlc.toNat + c) % 2) % 16 else v

/-- An active element of its grant. -/
def State.vldLive (r c : Nat) : Prop :=
  r < (s.strand st).vlr.toNat ∧ c < (s.strand st).vlc.toNat ∧ (s.strand st).active (m.ext 7 0) r c = true

/-- A `VLD` from the first element on, at a base that is aligned, whose active elements lie in absent pages or can be read. -/
structure PartlyMapped : Prop where
  ready   : Ready s st (loadForm 0 vd m)
  dest    : DestOk vd (s.strand st).vlr.toNat
  aligned : ∀ y : Strand, y.memCheck (s.vldEntry st vd m) 0 (memBase (s.vldEntry st vd m) m.disp) = none
  start   : fld (s.strand st).vstart 0 16 = 0
  absent  : ∀ r c, s.vldLive st m r c → bad r c = true → s.vecXlate (s.acc st) (s.vldElt st vd m r c).va true false
              = .error { cause := cVmapAbsent, tval := (s.vldElt st vd m r c).va, va := (s.vldElt st vd m r c).va }
  present : ∀ r c, s.vldLive st m r c → bad r c = false →
              s.vecXlate (s.acc st) (s.vldElt st vd m r c).va true false = .ok (pa r c)
                ∧ s.anyPoison st .E (pa r c) (max 1 (vtSew (s.strand st).vtype / 8)) = false ∧ s.heldAt (pa r c) = false

end

section
variable {s : State} {st : Fin 4} {vd : Spec} {m : MemOp} {pa : Nat → Nat → Nat} {bad : Nat → Nat → Bool}

/-- The strand in which it issues. -/
def State.vldStrand (s : State) (st : Fin 4) (vd : Spec) (m : MemOp) : Strand := s.issuing st (loadForm 0 vd m) (s.strand st)

/-- Its elements that count as active, and those that do not. -/
def State.vldTodo (s : State) (st : Fin 4) (vd : Spec) (m : MemOp) (act : Bool) : List Elt :=
  (eltsOf (s.vldEntry st vd m) 0 (memBase (s.vldEntry st vd m) m.disp)).filter fun t =>
    (s.vldStrand st vd m).actElt (s.vldEntry st vd m) 0 (m.ext 7 0) t == act

/-- What each of its elements answers. -/
def State.vldAnswers (s : State) (st : Fin 4) (vd : Spec) (m : MemOp) : List (Elt × Except Fa Nat) :=
  (s.vldTodo st vd m true).map fun t => (t, s.loadElt st (vtSew (s.strand st).vtype) t)

/-- The strand with the elements written that do not fault. -/
def State.vldWritten (s : State) (st : Fin 4) (vd : Spec) (m : MemOp) : Strand :=
  ((s.vldStrand st vd m).loadZero (s.vldEntry st vd m) vd (m.ext 7 0) (s.vldTodo st vd m false)).loadWrite vd
    (s.vldEntry st vd m).sew (s.vldAnswers st vd m)

namespace PartlyMapped

theorem entry_start (h : PartlyMapped s st vd m pa bad) : (s.vldEntry st vd m).start = 0 := (h.ready.entry_start rfl).trans h.start

theorem loadElt_absent (h : PartlyMapped s st vd m pa bad) {r c : Nat} (hl : s.vldLive st m r c) (hb : bad r c = true) (w : Nat) :
    s.loadElt st w (s.vldElt st vd m r c)
      = .error { cause := cVmapAbsent, tval := (s.vldElt st vd m r c).va, va := (s.vldElt st vd m r c).va } :=
  State.loadElt_error (h.absent r c hl hb)

theorem loadElt_present (h : PartlyMapped s st vd m pa bad) {r c : Nat} (hl : s.vldLive st m r c) (hb : bad r c = false) :
    s.loadElt st (vtSew (s.strand st).vtype) (s.vldElt st vd m r c) = .ok (s.vldValue st pa r c) := by
  obtain ⟨hx, hp, -⟩ := h.present r c hl hb
  exact State.loadElt_ok hx hp

theorem todo_eq (h : PartlyMapped s st vd m pa bad) : s.vldTodo st vd m true =
    ((gridOf (s.strand st).vlr.toNat (s.strand st).vlc.toNat).filter fun p => (s.strand st).active (m.ext 7 0) p.1 p.2).map
      fun p => s.vldElt st vd m p.1 p.2 := by
  have hall : eltsOf (s.vldEntry st vd m) 0 (memBase (s.vldEntry st vd m) m.disp)
      = (gridOf (s.strand st).vlr.toNat (s.strand st).vlc.toNat).map fun p => s.vldElt st vd m p.1 p.2 :=
    List.filter_eq_self.mpr fun t _ => by simp [h.entry_start]
  rw [State.vldTodo, hall, List.filter_map]
  congr 2
  funext p
  exact (beq_true _).trans (Bool.and_true _)

theorem live_of_mem {p : Nat × Nat}
    (hp : p ∈ (gridOf (s.strand st).vlr.toNat (s.strand st).vlc.toNat).filter fun p => (s.strand st).active (m.ext 7 0) p.1 p.2) :
    s.vldLive st m p.1 p.2 :=
  have hp := List.mem_filter.mp hp
  ⟨(mem_gridOf.mp hp.1).1, (mem_gridOf.mp hp.1).2, hp.2⟩

/-- The elements that fault are those in absent pages. -/
theorem badOf_answers (h : PartlyMapped s st vd m pa bad) :
    badOf (s.vldAnswers st vd m) = absentAt (s.vldElt st vd m) (s.absentElts st m bad) := by
  rw [State.vldAnswers, h.todo_eq]
  refine (badOf_absent (bad := bad) (fun p hp hb => h.loadElt_absent (live_of_mem hp) hb _)
    fun p hp hb => ⟨_, h.loadElt_present (live_of_mem hp) hb⟩).trans ?_
  rw [List.filter_filter, State.absentElts]
  congr 2
  funext p
  exact Bool.and_comm ..

theorem lists (h : PartlyMapped s st vd m pa bad) :
    LoadLists (s.strand st).vlr.toNat (s.strand st).vlc.toNat 0 ((s.strand st).active (m.ext 7 0))
      (fun r c => s.loadElt st (vtSew (s.strand st).vtype) (s.vldElt st vd m r c)) (s.vldTodo st vd m false) (s.vldAnswers st vd m) := by
  have hl := vload_lists (s.vldStrand st vd m) (s.vldEntry st vd m) 0 (memBase (s.vldEntry st vd m) m.disp) (m.ext 7 0)
    (s.loadElt st (vtSew (s.strand st).vtype))
  have hlive : (fun r c => (s.vldStrand st vd m).active (m.ext 7 0) r c && inShape (s.vldEntry st vd m) 0 r c)
      = (s.strand st).active (m.ext 7 0) := by
    funext r c
    exact Bool.and_true _
  rw [h.entry_start, hlive] at hl
  simp only [State.vldTodo, State.vldAnswers, beq_true, beq_false]
  exact hl

/-- The elements that can be read are written, the others of the grant are zeroed under `.z` where they are inactive. -/
theorem wrote (h : PartlyMapped s st vd m pa bad) :
    Wrote (s.vldStrand st vd m) (s.vldWritten st vd m) vd (vtSew (s.strand st).vtype) (s.strand st).vlr.toNat (s.strand st).vlc.toNat
      fun r c => if (s.strand st).active (m.ext 7 0) r c then if bad r c then none else some (s.vldValue st pa r c)
        else if m.zero then some 0 else none := by
  refine (h.lists.wrote (x := s.vldStrand st vd m) (e := s.vldEntry st vd m) (m := m.ext 7 0) h.dest
    (by have := (s.strand st).vlr.isLt; omega) rfl).of_vals fun r c hr hc => ?_
  rw [if_neg (Nat.not_lt_zero _)]
  by_cases ha : (s.strand st).active (m.ext 7 0) r c = true
  · rw [if_pos ha, if_pos ha]
    cases hb : bad r c with
    | true => rw [h.loadElt_absent ⟨hr, hc, ha⟩ hb]; rfl
    | false => rw [h.loadElt_present ⟨hr, hc, ha⟩ hb]; rfl
  · rw [if_neg ha, if_neg ha]
    rfl

/-- Nothing of the strand in which it issues changes beside the register files. -/
theorem written_rest (s : State) (st : Fin 4) (vd : Spec) (m : MemOp) :
    ∃ v o, s.vldWritten st vd m = { s.vldStrand st vd m with v := v, o := o } := by
  rw [State.vldWritten, Strand.loadZero_loadWrite rfl]
  exact putElts_rest ..

/-- Its issue: the elements that can be read are written, and the first that cannot traps. -/
theorem commitEntry (h : PartlyMapped s st vd m pa bad) {p : Nat × Nat} {g : List (Nat × Nat)} (hg : s.absentElts st m bad = p :: g) :
    (s.modStrand st (s.issuing st (loadForm 0 vd m))).commitEntry st (s.vldEntry st vd m)
      = (s.modStrand st (s.issuing st (loadForm 0 vd m))).settleEntry st (s.vldEntry st vd m)
          (.trap ((s.vldWritten st vd m).faulted (absentAt (s.vldElt st vd m) (s.absentElts st m bad)) 0) cVmapAbsent
            (s.vldElt st vd m p.1 p.2).va) := by
  have hx1 : (s.modStrand st (s.issuing st (loadForm 0 vd m))).strand st = s.vldStrand st vd m := State.strand_modStrand_same ..
  have hact : (s.vldStrand st vd m).actElt (s.vldEntry st vd m) 0 (m.ext 7 0)
      = fun t => (s.vldStrand st vd m).actElt (s.vldEntry st vd m) 0 (m.ext 7 0) t == true := funext fun t => (beq_true _).symm
  rw [State.commitEntry_load _ (.inl rfl) rfl, State.vload_issue rfl (h.aligned _) ?_, hx1]
  · have hbad := h.badOf_answers
    rw [hg] at hbad
    have hend : ((s.vldStrand st vd m).loadZero (s.vldEntry st vd m) vd (m.ext 7 0) (s.vldTodo st vd m false)).loadEnd (s.vldEntry st vd m) vd
        (s.vldAnswers st vd m) = .trap ((s.vldWritten st vd m).faulted (absentAt (s.vldElt st vd m) (p :: g)) 0) cVmapAbsent
          (s.vldElt st vd m p.1 p.2).va := by
      rw [Strand.loadEnd, hbad, h.entry_start]
      rfl
    simp only [State.loadElt_modStrand (f := s.issuing st (loadForm 0 vd m)) rfl rfl]
    rw [hg, ← hend]
    simp only [State.vldAnswers, State.vldTodo, beq_true, beq_false]
    rfl
  · rw [hx1, hact]
    intro t ht q hq
    rw [show List.filter _ _ = s.vldTodo st vd m true from rfl, h.todo_eq] at ht
    obtain ⟨p, hp, rfl⟩ := List.mem_map.mp ht
    have hx : ∀ a, s.vecXlate (s.acc st) (s.vldElt st vd m p.1 p.2).va true false = a →
        (s.modStrand st (s.issuing st (loadForm 0 vd m))).eltPa st (s.vldElt st vd m p.1 p.2) = a.toOption := fun a ha => by
      rw [State.eltPa, State.vecXlate_modStrand, State.acc_modStrand rfl, ha]
    cases hb : bad p.1 p.2 with
    | true =>
      rw [hx _ (h.absent _ _ (live_of_mem hp) hb)] at hq
      cases hq
    | false =>
      obtain ⟨hxl, -, hheld⟩ := h.present _ _ (live_of_mem hp) hb
      rw [hx _ hxl] at hq
      cases hq
      exact hheld

end PartlyMapped

end

end Sys2Proof.Machine
end

