-- ==== Sys2Proof/Proofs/VectorLoadResults.lean ====
section
/-! PROOFS. What a partly mapped `VLD` leaves of its strand (R190, R192, R339), and the settlement of O39. -/

namespace Sys2Proof.Machine

/-- A strand `z` parked, with the register files, the fault state and the queue of `y`. -/
structure ParkedAs (y z : Strand) (halt : Halt) : Prop where
  halt : z.halt = halt
  v    : z.v = y.v
  o    : z.o = y.o
  mask : z.mask = y.mask
  frec : z.frec = y.frec
  viq  : z.viq = y.viq

section
variable {s : State} {st : Fin 4} {vd : Spec} {m : MemOp} {pa : Nat → Nat → Nat} {bad : Nat → Nat → Bool}

/-- The strand with the faults recorded, before it is parked (R190 to R192). -/
def State.vldFaulted (s : State) (st : Fin 4) (vd : Spec) (m : MemOp) (bad : Nat → Nat → Bool) : Strand :=
  (s.vldWritten st vd m).faulted (absentAt (s.vldElt st vd m) (s.absentElts st m bad)) 0

theorem State.vldFaulted_mask : (s.vldFaulted st vd m bad).mask = markAll (s.absentElts st m bad) 0 :=
  faulted_mask _ _ _ _ fun _ _ => ⟨rfl, rfl⟩

theorem State.vldFaulted_viq :
    (s.vldFaulted st vd m bad).viq = [{ s.vldEntry st vd m with begun := true, restart := 0 }] := by
  obtain ⟨v, o, hw⟩ := PartlyMapped.written_rest s st vd m
  rw [State.vldFaulted, hw]
  rfl

theorem mem_absentElts {p : Nat × Nat} : p ∈ s.absentElts st m bad ↔ s.vldLive st m p.1 p.2 ∧ bad p.1 p.2 = true := by
  rw [State.absentElts, List.mem_filter, mem_gridOf, Bool.and_eq_true, State.vldLive]
  tauto

/-- The mask that it leaves marks an element of the mask that lies in an absent page (R190). -/
theorem State.vldFaulted_mask_set {r c : Nat} (hl : s.vldLive st m r c) (hb : bad r c = true) (hin : r * 2048 + c < 32768) :
    (s.vldFaulted st vd m bad).mask.getLsbD (r * 2048 + c) = true := by
  rw [State.vldFaulted_mask, markAll_getLsbD]
  exact .inr ⟨hin, (r, c), mem_absentElts.mpr ⟨hl, hb⟩, rfl⟩

/-- It marks no other. -/
theorem State.vldFaulted_mask_clear {b : Nat} (hb : ∀ r c, s.vldLive st m r c → bad r c = true → r * 2048 + c ≠ b) :
    (s.vldFaulted st vd m bad).mask.getLsbD b = false := by
  refine Bool.eq_false_iff.mpr fun hset => ?_
  rw [State.vldFaulted_mask, markAll_getLsbD] at hset
  rcases hset with h0 | ⟨-, p, hp, he⟩
  · simp at h0
  · exact hb p.1 p.2 (mem_absentElts.mp hp).1 (mem_absentElts.mp hp).2 he

/-- `VFCNT` counts the marked elements (R171, R193). -/
theorem State.vldFaulted_vfcnt (hr : (s.strand st).vlr.toNat ≤ 16) (hc : (s.strand st).vlc.toNat ≤ 2048) :
    (s.vldFaulted st vd m bad).vfcnt = (s.absentElts st m bad).length := by
  rw [Strand.vfcnt, State.vldFaulted_mask]
  refine popNat_markAll ((gridOf_nodup ..).filter _) fun p hp => ?_
  obtain ⟨⟨hpr, hpc, -⟩, -⟩ := mem_absentElts.mp hp
  omega

/-- The fault record names the pages of the elements in absent pages (R192). -/
theorem State.vldFaulted_frec {p : Nat × Nat} {g : List (Nat × Nat)} (hg : s.absentElts st m bad = p :: g) :
    let pages := ((s.absentElts st m bad).map fun q => (s.vldElt st vd m q.1 q.2).va &&& 0xFFFFFFFFC0000000).eraseDups
    (s.vldFaulted st vd m bad).frec = { cause := cVmapAbsent, pages := pages.take 8, more := decide (8 < pages.length) } := by
  rw [State.vldFaulted, hg]
  exact faultRec_absent ..

namespace PartlyMapped

/-- The load parks its strand at the first absent page, with the rest of it recorded. -/
theorem parks (h : PartlyMapped s st vd m pa bad) {p : Nat × Nat} {g : List (Nat × Nat)}
    (hg : s.absentElts st m bad = p :: g) :
    ∃ u, Commits s st (.vld vd m) u
      ∧ ParkedAs (s.vldFaulted st vd m bad) (u.strand st)
          (.supervisor cVmapAbsent (s.strand st).e.pc (s.vldElt st vd m p.1 p.2).va true .E)
      ∧ ∃ rec, u.supRecords = s.supRecords ++ [rec] ∧ rec.cause = cVmapAbsent ∧ rec.tval = (s.vldElt st vd m p.1 p.2).va
        ∧ rec.frec = (s.vldFaulted st vd m bad).frec ∧ rec.mask = (s.vldFaulted st vd m bad).mask := by
  obtain ⟨u, hu, hstrand, hrec⟩ := h.ready.parks (i := .vld vd m) rfl (cause := cVmapAbsent) rfl (h.commitEntry hg)
  have hvcp : (s.vldFaulted st vd m bad).vcp = (s.strand st).e.pc := by
    rw [Strand.vcp, State.vldFaulted_viq]
    rfl
  rw [← State.vldFaulted, hvcp] at hstrand
  exact ⟨u, hu, by rw [hstrand]; exact ⟨rfl, rfl, rfl, rfl, rfl, rfl⟩, hrec⟩

/-- The entry that stays the oldest of the queue began at element 0. -/
theorem entry_vstart (h : PartlyMapped s st vd m pa bad) : (s.vldEntry st vd m).vstart = 0 :=
  BitVec.eq_of_toNat_eq h.entry_start

end PartlyMapped

end

/-- Settles O39: the entry issues alone in the queue; a load without faults commits with the values of its elements (`Ready.vload`,
`Ready.vldp`), one that fails the checks of R188 traps (`Ready.vload_traps`), and one whose pages are partly absent writes what it can and
parks its strand (`PartlyMapped.parks`). -/
theorem vectorLoadResults : Obligations.VectorLoadResults := by
  unfold Obligations.VectorLoadResults
  refine ⟨?_, ?_⟩
  · intro s st vd m pa hd x n size rows cols start ext key base x2 sext16 word value wrote loads always
    refine ⟨?_, ?_, ?_, ?_, ?_, ?_⟩
    · rintro hbase f hf hr hlive
      cases hf
      exact hr.vload rfl (.inl rfl) hd (fun y => Strand.memCheck_none (fun _ => rfl) hbase nofun (by decide))
        fun r c hr hc hs ha hsh => hlive r c hr hc hs ha rfl
    · rintro hn hbase hstride f hf hr hlive
      cases hf
      exact hr.vload rfl (.inr (.inl rfl)) hd (fun y => Strand.memCheck_none (fun h => absurd h hn) (.inr hbase) (fun _ => hstride) (by decide))
        fun r c hr hc hs ha hsh => hlive r c hr hc hs ha rfl
    · rintro hn hbase f hf hr hlive
      cases hf
      exact hr.vload rfl (.inr (.inr rfl)) hd (fun y => Strand.memCheck_none (fun h => absurd h hn) (.inr hbase) nofun (by decide)) hlive
    · rintro p hheld hcheck hpart hsz f hf hr hlive
      cases hf
      obtain ⟨u, hu, hrest, hp, hk, hvs, hw⟩ := hr.vldp (i := .vldp vd m) rfl hd hheld hcheck hpart hsz hlive
      refine ⟨u, hu, hrest, hp, hk, hvs, hw.of_vals fun r c _ _ => ?_⟩
      simp only [Bool.and_eq_true, decide_eq_true_eq]
      rfl
    · intro lines hn hbase ht i hi f hf hr
      have hmis : ∀ f3 : Nat, ∀ y : Strand, y.memCheck (s.entryOf st (loadForm f3 vd m)) f3 base = some (.trap y cMisalign base) :=
        fun f3 y => Strand.memCheck_base hn hbase
      simp only [List.mem_cons, List.not_mem_nil, or_false] at hi
      obtain rfl | rfl | rfl := hi <;> cases hf
      · exact hr.vload_traps rfl (.inl rfl) ht (hmis 0)
      · exact hr.vload_traps rfl (.inr (.inl rfl)) ht (hmis 1)
      · exact hr.vload_traps rfl (.inr (.inr rfl)) ht (hmis 4)
    · intro lines hn hbase hstride ht f hf hr
      cases hf
      exact hr.vload_traps rfl (.inr (.inl rfl)) ht fun y => Strand.memCheck_stride hn hbase hstride
  · intro s st vd m pa bad hd x n size rows cols ext base va live f hf hr hbase hstart hxl hok r₀ c₀ hl₀ hb₀ hmin
    cases hf
    have h : PartlyMapped s st vd m pa bad :=
      { ready := hr, dest := hd, start := hstart
        aligned := fun y => Strand.memCheck_none (fun _ => rfl) hbase nofun (by decide)
        absent := fun r c hl hb => (hxl r c hl).trans (if_pos hb)
        present := fun r c hl hb => ⟨(hxl r c hl).trans (if_neg (by simp [hb])), hok r c hl hb⟩ }
    obtain ⟨g, hg⟩ : ∃ g, s.absentElts st m bad = (r₀, c₀) :: g :=
      grid_filter_head hl₀.1 hl₀.2.1 (Bool.and_eq_true_iff.mpr ⟨hl₀.2.2, hb₀⟩) fun r c hr hc ha =>
        have ha := Bool.and_eq_true_iff.mp ha
        hmin r c ⟨hr, hc, ha.1⟩ ha.2
    obtain ⟨u, hu, hparked, rec, hrecs, hcause, htval, hrfrec, hrmask⟩ := h.parks hg
    have hviq := hparked.viq.trans State.vldFaulted_viq
    have hvcp : (u.strand st).vcp = x.e.pc := by
      rw [Strand.vcp, hviq]
      rfl
    have hfrec := hparked.frec.trans (State.vldFaulted_frec hg)
    refine ⟨u, hu, hparked.halt, hvcp, ?_, ?_, ?_, congrArg FaultRec.cause hfrec, ⟨congrArg FaultRec.pages hfrec, congrArg FaultRec.more hfrec⟩,
      ⟨_, hviq, rfl, rfl, h.entry_vstart, rfl⟩, ⟨rec, hrecs, hcause, htval, hrfrec.trans hparked.frec.symm, hrmask.trans hparked.mask.symm⟩,
      h.wrote.of_files (by rcases hd with h | h <;> omega) ⟨rfl, rfl⟩ ⟨hparked.v, hparked.o⟩⟩
    · rw [hparked.mask]
      exact fun r c hl hin hb => State.vldFaulted_mask_set hl hb hin
    · rw [hparked.mask]
      exact fun b => State.vldFaulted_mask_clear
    · rw [Strand.vfcnt, hparked.mask]
      exact State.vldFaulted_vfcnt

end Sys2Proof.Machine
end
